-- ==== Sys2Proof/Word.lean ====
section
/-! DEFINITION. The words of the Welkas 642: the fields that lines, frames and registers carry as bits (R206–R209). -/

namespace Sys2Proof

/-- One byte of a line, a frame or a register (R1, R179). -/
abbrev Byte := BitVec 8

/-- A 16-bit key (R12): a parameter is named by 0001h–FFFEh. -/
abbrev Key := BitVec 16

/-- A 32-bit field: a sequence, a batch id, an epoch or a volume id (R12, R19, R21). -/
abbrev Word := BitVec 32

/-- The sixteen bytes of one line, byte 0 the most significant (R1, R206). -/
abbrev LineBits := BitVec 128

end Sys2Proof
end

