-- ==== Sys2Proof/Config.lean ====
section
/-! DEFINITION. What an implementation fixes and the spec leaves open: constants with no body, so that no proof can
lean on a value of them. Each is applied to the model's own counter `State.free`. -/

namespace Sys2Proof

/-- FREE VALUE (log entry 3). Which lines of a segment an erase that ends at its deadline (R7) or is interrupted (R9)
leaves TORN: bit `k` set says line `k` is left TORN, clear says it is left ERASED. "The sequencer does not record
which." -/
opaque Config.freeErase : Nat → BitVec 256

/-- FREE VALUE (log entry 4). The sixteen bytes taken from a line that reads TORN where a rule takes value bytes from
it all the same: R4 says such a read returns no content. -/
opaque Config.freeContent : Nat → LineBits

end Sys2Proof
end

