-- ==== Sys2Proof/Syntax.lean ====
section
/-! DEFINITION. The commands and events of the block: one constructor per row of spec/opcode_table.json. -/

namespace Sys2Proof

/-- A write transfer on the two-wire bus (R196, R197), or a part of one. The data bytes exclude the address byte. -/
inductive WriteXfer where
  /-- a whole transfer to `addr`, ended by a stop condition or a repeated start -/
  | whole (addr : BitVec 7) (data : List Byte)
  /-- a transfer to `addr` has begun and brought `data`; it goes on -/
  | begins (addr : BitVec 7) (data : List Byte)
  /-- the transfer in progress brings `data` and ends -/
  | ends (data : List Byte)
  deriving DecidableEq, Repr

/-- A read transfer on the two-wire bus (R201), or a part of one: `n` is the number of data bytes clocked. -/
inductive ReadXfer where
  | whole (addr : BitVec 7) (n : Nat)
  | begins (addr : BitVec 7) (n : Nat)
  | ends (n : Nat)
  deriving DecidableEq, Repr

/-- A PUT from either port: the host's TAG, key, BUF and LEN registers (R182), or the fields of a management frame (R207). -/
inductive PutArgs where
  | host (tag : Byte) (key : Key) (buf len : Byte)
  | mgmt (addr : BitVec 7) (ftag flags : Byte) (key : Key) (value : List Byte)
  deriving DecidableEq, Repr

/-- A DELETE from either port. -/
inductive DeleteArgs where
  | host (tag : Byte) (key : Key)
  | mgmt (addr : BitVec 7) (ftag flags : Byte) (key : Key)
  deriving DecidableEq, Repr

/-- A GET from either port; the host names a staging buffer. -/
inductive GetArgs where
  | host (tag : Byte) (key : Key) (buf : Byte)
  | mgmt (addr : BitVec 7) (ftag : Byte) (key : Key)
  deriving DecidableEq, Repr

/-- A STAT from either port. -/
inductive StatArgs where
  | host (tag : Byte) (key : Key)
  | mgmt (addr : BitVec 7) (ftag : Byte) (key : Key)
  deriving DecidableEq, Repr

/-- A LIST from either port: the after-key and the count (ARG0 on the host port). -/
inductive ListArgs where
  | host (tag : Byte) (after : Key) (buf count : Byte)
  | mgmt (addr : BitVec 7) (ftag : Byte) (after : Key) (count : Byte)
  deriving DecidableEq, Repr

/-- BATCH_OPEN, BATCH_COMMIT or BATCH_ABORT from either port. -/
inductive BatchArgs where
  | host (tag : Byte)
  | mgmt (addr : BitVec 7) (ftag : Byte)
  deriving DecidableEq, Repr

/-- The rows of spec/opcode_table.json, in the table's order. A host command row stands for the host's writes of the
argument registers the command uses and then of SUBMIT (R182, R183), taken as one event; a management request row for
a whole write transfer that brings its frame (R200, R207). -/
inductive Instr where
  | put (a : PutArgs)
  | delete (a : DeleteArgs)
  | get (a : GetArgs)
  | stat (a : StatArgs)
  | list (a : ListArgs)
  | batchOpen (a : BatchArgs)
  | batchCommit (a : BatchArgs)
  | batchAbort (a : BatchArgs)
  | freeze (addr : BitVec 7) (ftag : Byte) (lo hi : Key)
  | mount (tag : Byte)
  | unmount (tag : Byte)
  | format (tag : Byte) (expected newId : Word)
  | reclaim (tag : Byte)
  /-- a SUBMIT with `code` in CMD, a code that is not one of the twelve of R182 -/
  | submitBadCommand (code : Byte)
  | openSession (addr : BitVec 7) (ftag : Byte)
  | closeSession (addr : BitVec 7) (ftag : Byte)
  | status (addr : BitVec 7) (ftag : Byte)
  | segment (addr : BitVec 7) (ftag : Byte) (n : Byte)
  /-- a write transfer given by its raw bytes: the row for frames that fail a check of R199 -/
  | mgmtFrameRefused (x : WriteXfer)
  /-- a write transfer whose first data byte is NAKed (R197) -/
  | slotNak (x : WriteXfer)
  | mgmtReadTransfer (x : ReadXfer)
  | transferStallExpiry
  | sessionLapse
  | arbiterGrant
  | waitSpaceResume
  | programDone
  | programDeadlineExpiry
  | readDone
  | eraseDone
  | eraseDeadlineExpiry
  | batchIdleExpiry
  | reclaimWalkStep
  | reclaimFinishStep
  | abort (v : Byte)
  | cpop (v : Byte)
  | bufdataRead
  | bufdataWrite (v : Byte)
  | dircntLowRead
  | alertWrite (v : Byte)
  | alertmaskWrite (v : Byte)
  /-- a CONTROL write of `v` (R193) -/
  | cintenWrite (v : Byte)
  | bgrenWrite (v : Byte)
  /-- a CONTROL write of `v` with bit 2 written as 0 -/
  | mgmtenClear (v : Byte)
  /-- a CONTROL write of `v` with bit 2 written as 1 -/
  | mgmtenSet (v : Byte)
  /-- a CONTROL write of `v` with bit 7 written as 1 -/
  | srst (v : Byte)
  | recthrWrite (v : Byte)
  | hostwtWrite (v : Byte)
  /-- a host write of `v` to location `off` (R179) -/
  | registerWrite (off : BitVec 6) (v : Byte)
  /-- power-on reset from its start to its end, with the straps AMOUNT and MADR1–MADR0 as sampled at its end -/
  | powerOnReset (amount : Bool) (madr : BitVec 2)
  | resetAssert
  /-- the release of RESET#, with the straps as sampled then -/
  | resetRelease (amount : Bool) (madr : BitVec 2)
  | pfwAssert
  | pfwDeassert
  | recoveryTimerExpiry
  deriving DecidableEq, Repr

end Sys2Proof
end

