-- ==== Sys2Proof/WellFormed.lean ====
section
/-! DEFINITION. Well-formed commands: the operands under which a command is the event its row describes. The meanings
are total: they also answer for a command that is not well formed (as the bytes it carries act on the part). -/

namespace Sys2Proof

/-- The twelve host command codes of R182. -/
def hostCodes : List Byte :=
  [0x10#8, 0x11#8, 0x12#8, 0x13#8, 0x14#8, 0x20#8, 0x21#8, 0x22#8, 0x40#8, 0x41#8, 0x42#8, 0x43#8]

/-- A key that names a parameter, 0001h–FFFEh (R13, R183, R200). -/
def keyInRange (k : Key) : Bool := 1 ≤ k.toNat && k.toNat ≤ 0xFFFE

/-- The locations whose host writes have rows of their own (R183, R187, R188, R190, R191, R193, R194). -/
def ownRowLocations : List (BitVec 6) :=
  [0x04#6, 0x05#6, 0x06#6, 0x07#6, 0x08#6, 0x1E#6, 0x2A#6, 0x2C#6, 0x32#6]

/-- A management PUT row is an accepted frame: key and value length in range (R200). -/
def PutArgs.wf : PutArgs → Bool
  | .host .. => true
  | .mgmt _ _ _ key value => keyInRange key && value.length ≤ 240

/-- A management DELETE row is an accepted frame. -/
def DeleteArgs.wf : DeleteArgs → Bool
  | .host .. => true
  | .mgmt _ _ _ key => keyInRange key

/-- A management GET row is an accepted frame. -/
def GetArgs.wf : GetArgs → Bool
  | .host .. => true
  | .mgmt _ _ key => keyInRange key

/-- A management STAT row is an accepted frame. -/
def StatArgs.wf : StatArgs → Bool
  | .host .. => true
  | .mgmt _ _ key => keyInRange key

/-- A management LIST row is an accepted frame: after-key at most FFFEh, count 1–16. -/
def ListArgs.wf : ListArgs → Bool
  | .host .. => true
  | .mgmt _ _ after count => after.toNat ≤ 0xFFFE && 1 ≤ count.toNat && count.toNat ≤ 16

/-- The check of one command. -/
def Instr.wf : Instr → Bool
  | .put a => a.wf
  | .delete a => a.wf
  | .get a => a.wf
  | .stat a => a.wf
  | .list a => a.wf
  | .batchOpen _ => true
  | .batchCommit _ => true
  | .batchAbort _ => true
  | .freeze _ _ lo hi => keyInRange lo && keyInRange hi && lo.toNat ≤ hi.toNat
  | .mount _ => true
  | .unmount _ => true
  | .format _ _ _ => true
  | .reclaim _ => true
  | .submitBadCommand code => !(hostCodes.contains code)
  | .openSession _ _ => true
  | .closeSession _ _ => true
  | .status _ _ => true
  | .segment _ _ n => n.toNat ≤ 63
  | .mgmtFrameRefused _ => true
  | .slotNak _ => true
  | .mgmtReadTransfer _ => true
  | .transferStallExpiry => true
  | .sessionLapse => true
  | .arbiterGrant => true
  | .waitSpaceResume => true
  | .programDone => true
  | .programDeadlineExpiry => true
  | .readDone => true
  | .eraseDone => true
  | .eraseDeadlineExpiry => true
  | .batchIdleExpiry => true
  | .reclaimWalkStep => true
  | .reclaimFinishStep => true
  | .abort _ => true
  | .cpop _ => true
  | .bufdataRead => true
  | .bufdataWrite _ => true
  | .dircntLowRead => true
  | .alertWrite _ => true
  | .alertmaskWrite _ => true
  | .cintenWrite _ => true
  | .bgrenWrite _ => true
  | .mgmtenClear _ => true
  | .mgmtenSet _ => true
  | .srst _ => true
  | .recthrWrite _ => true
  | .hostwtWrite _ => true
  | .registerWrite off _ => !(ownRowLocations.contains off)
  | .powerOnReset _ _ => true
  | .resetAssert => true
  | .resetRelease _ _ => true
  | .pfwAssert => true
  | .pfwDeassert => true
  | .recoveryTimerExpiry => true

end Sys2Proof
end

