-- ==== Sys2Proof/Machine/State.lean ====
section
/-! DEFINITION. The state of the Welkas 642, block by block, as plain data; its reset value; the reasons a step can stop. -/

namespace Sys2Proof.Machine

/-- No meaning of this model ends in a fault: the spec gives every row an effect in every state (an event that cannot
be taken changes nothing, log entry 1). -/
inductive Fault where
  /-- raised by nothing: it only gives the type a value to name. Safe. -/
  | neverRaised
  deriving DecidableEq, Repr

/-- A command that has no meaning in the model. -/
inductive Refusal where
  /-- raised by an arm of `exec` for a row that is not modelled (there is none). Safe. -/
  | notModelled (mnemonic : String)
  deriving DecidableEq, Repr

/-! ### The record array and the array sequencer (chapter 1) -/

/-- A line as the array holds it and as a line read reports it (R2, R4). -/
inductive Line where
  | erased
  | good (content : LineBits)
  | torn
  deriving DecidableEq, Repr

/-- The address of a line (R1): segment 0–63 and line 0–255. -/
structure Loc where
  seg : Nat
  line : Nat
  deriving DecidableEq, Repr

/-- The operation the array sequencer holds while BUSY (R3). `none` in `State.seqr` is IDLE. A program and an erase
have their deadline timer running; a read has none. -/
inductive SeqOp where
  | read (loc : Loc)
  | program (loc : Loc) (content : LineBits)
  | erase (seg : Nat)
  deriving DecidableEq, Repr

/-- The cause of a program fault (R5, R6): the line was not ERASED, or the deadline timer expired. -/
inductive FaultCause where
  | refused
  | expired
  deriving DecidableEq, Repr

/-- The outcome report the sequencer hands to the engine (R8); its target goes with it (see `onReport`). Every unit treats
both causes of a program fault alike (R6). -/
inductive Report where
  | readDone (l : Line)
  | programDone
  | programFault (cause : FaultCause)
  | eraseDone
  | eraseFault
  deriving DecidableEq, Repr

/-! ### Records (section 1.3) -/

/-- The kind of a record, by its code (R12, R206). -/
inductive Kind where
  | value | tombstone | commit | freeze
  deriving DecidableEq, Repr

/-- The fields of a header line that a reader keeps (R12); the header CRC is checked and dropped. -/
structure Hdr where
  kind : Kind
  key : Key
  len : Nat
  seq : Word
  bid : Word
  vcrc : BitVec 16
  deriving DecidableEq, Repr

/-! ### The segment manager (chapter 2) -/

/-- The fields a table entry has in a journal state only (R24). -/
structure Journal where
  epoch : Word
  wp : Nat
  live : Nat
  dead : Nat
  pins : Nat
  deriving DecidableEq, Repr

/-- The state of a segment (R25), with the journal fields in the three journal states. -/
inductive SegState where
  | free
  | opened (j : Journal)
  | closed (j : Journal)
  | reclaiming (j : Journal)
  | dirty
  | retired
  deriving DecidableEq, Repr

/-- One entry of the segment table (R24). `known` is the KNOWN mark of the erase count; clear is ESTIMATED. -/
structure SegEntry where
  num : Nat
  st : SegState
  eraseCount : Nat
  known : Bool
  faults : Nat
  retirePending : Bool
  deriving DecidableEq, Repr

/-- The segment manager: the table in ascending number (entries that exist only), the next-epoch counter and its
exhausted flag (R24, R27). The FREE and usable counts are read off the table (R26): see `freeCount`, `usableCount`. -/
structure SegMgr where
  table : List SegEntry
  nextEpoch : Word
  exhausted : Bool
  deriving DecidableEq, Repr

/-! ### The key directory and the freeze list (chapter 3) -/

/-- A committed or pending part of a directory entry (R47). `tomb` is the kind: set for TOMBSTONE. -/
structure Part where
  tomb : Bool
  loc : Loc
  len : Nat
  seq : Word
  shadowed : Bool
  deriving DecidableEq, Repr

/-- A directory entry (R47). -/
structure DirEntry where
  key : Key
  committed : Option Part
  pending : Option Part
  deriving DecidableEq, Repr

/-- A freeze range and the location of its FREEZE record (R60). -/
structure FreezeEntry where
  lo : Key
  hi : Key
  loc : Loc
  deriving DecidableEq, Repr

/-! ### The batch unit (chapter 6) -/

/-- A port (R110). -/
inductive Port where
  | host | mgmt
  deriving DecidableEq, Repr

/-- An entry of the member list (R111). -/
structure Member where
  key : Key
  loc : Loc
  tomb : Bool
  deriving DecidableEq, Repr

/-- The idle timer while a batch is open (R113); STOPPED is the absence of the context. -/
inductive IdleTimer where
  | running | suspended
  deriving DecidableEq, Repr

/-- The open-batch context (R110). -/
structure Batch where
  owner : Port
  bid : Word
  members : List Member
  timer : IdleTimer
  deriving DecidableEq, Repr

/-- An entry of the commit table (R125). -/
structure CommitEntry where
  bid : Word
  loc : Loc
  deriving DecidableEq, Repr

/-! ### The store engine (chapter 4) -/

/-- The store state (R66). -/
inductive StoreState where
  | unmounted | mounting | ready | readOnly | formatting | halted | failed
  deriving DecidableEq, Repr

/-- The mount result (R68). -/
inductive MountResult where
  | none | ok | blank | foreign | mixed | corrupt
  deriving DecidableEq, Repr

/-- The engine's own items (the table at the head of chapter 4). -/
structure Engine where
  store : StoreState
  /-- the state to return to when a halt ends; present only in HALTED -/
  prior : Option StoreState
  seqCtr : Word
  volId : Word
  mountRes : MountResult
  /-- host grants made in a row while a management request waits (R75) -/
  runCount : Nat
  haltReq : Bool
  /-- the recovery timer (R85): running or stopped -/
  recovery : Bool
  /-- the latched straps (R87) -/
  amount : Bool
  madr : BitVec 2
  deriving DecidableEq, Repr

/-- The work unit that holds the array (R73). -/
inductive Holder where
  | none | command | reclaim | mount | format
  deriving DecidableEq, Repr

/-- The origin of the in-flight command (R77): the host's tag, or the management slot (`true` is slot B) and frame tag. -/
inductive Origin where
  | host (tag : Nat)
  | mgmt (slotB : Bool) (ftag : Byte)
  deriving DecidableEq, Repr

/-- A command with its arguments (R77, R182, R200). `buf` has no meaning for a management command. -/
inductive Cmd where
  | put (key : Key) (len : Nat) (buf : Nat) (member : Bool)
  | delete (key : Key) (member : Bool)
  | get (key : Key) (buf : Nat)
  | stat (key : Key)
  | list (after : Key) (buf : Nat) (count : Nat)
  | batchOpen
  | batchCommit
  | batchAbort
  | freeze (lo hi : Key)
  | mount
  | unmount
  | format (expected newId : Word)
  | reclaim
  deriving DecidableEq, Repr

/-- The step of the preparation sequence, or of the retirement, that a segment stands at (R29, R30, R44): its erase, its
SPARE preparation-line program, the read of line 0 before a retirement, the RETIRED preparation-line program. -/
inductive PrepStage where
  | erase | spare | retireRead | retireProg
  deriving DecidableEq, Repr

/-- A segment opening in progress for an append (R32, R33). -/
structure Opening where
  seg : Nat
  /-- the epoch the opening-line program carries -/
  epoch : Word
  /-- the segment whose opening failed earlier in this admission -/
  failed : Option Nat
  /-- `none`: the opening-line program runs; otherwise the preparation sequence that follows its fault -/
  prep : Option PrepStage
  deriving DecidableEq, Repr

/-- The stage of the in-flight command (R77, chapter 5). CHECK is the stage at the grant, and stands for ADMIT at the return from
WAIT_SPACE; it, ASSIGN and PUBLISH last no longer than one event and are never seen between two. `waitSpace true` is a waiting
command whose victim has just left RECLAIMING (claim 3 of R74). -/
inductive Stage where
  | check
  | admission (o : Opening)
  | waitSpace (resume : Bool)
  | header
  | data (k : Nat)
  | commit
  | read
  | reclaim
  | mount
  | format
  deriving DecidableEq, Repr

/-- What a GET or LIST in flight has found and placed (R131, R135). -/
structure ReadJob where
  /-- GET: the header location; LIST: the header being read -/
  loc : Loc
  len : Nat
  seq : Word
  /-- GET: the data line being read, from 1 -/
  k : Nat
  /-- LIST: the key whose header is being read -/
  key : Key
  /-- GET: bytes placed; LIST: entries placed -/
  placed : Nat
  /-- the content gathered for a management response -/
  out : List Byte
  deriving DecidableEq, Repr

/-- The in-flight command's context (R77). -/
structure Ctx where
  origin : Origin
  cmd : Cmd
  stage : Stage
  /-- the sequence taken at ASSIGN -/
  seq : Option Word
  retried : Bool
  stopping : Bool
  /-- the command's batch was torn down under it (R106, R121) -/
  batchLost : Bool
  /-- a teardown waits for this command's completion (R69, R121) -/
  tearDue : Bool
  /-- the record's lines as built at ASSIGN (R90): header, data lines, commit line; empty before -/
  lines : List LineBits
  /-- the place of the record in progress (R94) -/
  place : Loc
  job : ReadJob
  deriving DecidableEq, Repr

/-- The completion statuses of R88. -/
inductive Status where
  | ok | notFound | frozen | keyHeld | noBatch | batchBusy | batchNotOwner | batchFull | batchDuplicate | batchLimit
  | directoryFull | storeFull | mediaFault | readOnly | notReady | aborted | halted | wrongVolume | freezeFull
  deriving DecidableEq, Repr

/-- The result fields of a completion (R78, R186). -/
structure Result where
  status : Status
  len : Nat
  seq : Word
  count : Nat
  endFlag : Bool
  held : Bool
  retried : Bool
  deriving DecidableEq, Repr

/-! ### The reclaim unit (chapter 8) -/

/-- The record a reclaim step is copying (the "copy attempt" of chapter 8). -/
structure Attempt where
  orig : Loc
  hdr : Hdr
  /-- the value bytes read so far -/
  value : List Byte
  /-- the copy's lines as built; empty until its data lines have been read -/
  lines : List LineBits
  retried : Bool
  place : Loc
  deriving DecidableEq, Repr

/-- The operation a reclaim step stands at. Only `finish` outlives a halt (R156). -/
inductive RStep where
  | idle
  | header
  | dataRead (k : Nat)
  | admission (o : Opening)
  | program (k : Nat)
  | finish (p : PrepStage)
  deriving DecidableEq, Repr

/-- The phase of a victim: WALK or FINISH. -/
inductive RPhase where
  | walk | finish
  deriving DecidableEq, Repr

/-- The reclaim context (R141). -/
structure Reclaim where
  victim : Nat
  phase : RPhase
  cursor : Nat
  copied : Nat
  copyRetried : Bool
  attempt : Option Attempt
  step : RStep
  deriving DecidableEq, Repr

/-- The reclaim unit: its context and the two dropped-marker counts of R149. -/
structure ReclaimUnit where
  ctx : Option Reclaim
  droppedTombs : Nat
  droppedCommits : Nat
  deriving DecidableEq, Repr

/-! ### The mount unit (chapter 9) -/

/-- The phase of a mount. -/
inductive MPhase where
  | idle | survey | collect | replay | account | settle
  deriving DecidableEq, Repr

/-- A record found by COLLECT: its location and its header's fields. -/
structure FoundRec where
  loc : Loc
  hdr : Hdr
  deriving DecidableEq, Repr

/-- A record whose data and commit lines are being read, to judge it complete (R18). -/
structure Judge where
  record : FoundRec
  /-- the lines after the header read so far, in order -/
  lines : List Line
  deriving DecidableEq, Repr

/-- The mount unit. The first seven fields are the table of chapter 9; the others are what a mount, modelled one line
read at a time, carries between two reads. -/
structure MountUnit where
  phase : MPhase
  foundVid : Word
  order : List Nat
  highest : Option Word
  scan : Option Loc
  stopped : List Nat
  extents : List (Word × Nat)
  /-- SURVEY: the volume id and erase count of the valid SPARE line 0 whose line 1 is being read -/
  line0 : Option (Word × Nat)
  /-- SURVEY: a FOREIGN contributor has been found -/
  foreign : Bool
  /-- SURVEY: SPARE lines of more than one volume id have been found -/
  mixed : Bool
  /-- SURVEY: the highest epoch on a valid opening line with a volume mismatch (R21, R27), 0 before one has been read -/
  strayEpoch : Word
  /-- COLLECT: the VALUE and TOMBSTONE headers found, in journal order -/
  found : List FoundRec
  /-- REPLAY: those not yet judged -/
  todo : List FoundRec
  /-- COLLECT, REPLAY: the record being judged -/
  judge : Option Judge
  /-- SETTLE: the DIRTY segment in its preparation sequence -/
  settling : Option (Nat × PrepStage)
  deriving DecidableEq, Repr

/-- Where a FORMAT stands (R171–R175). -/
inductive FPhase where
  /-- the volume check's read of line 0 of segment `n` -/
  | check (n : Nat)
  /-- step 1 at a candidate: erase, preparation line, opening line, or its retirement -/
  | step1 (seg : Nat) (p : PrepStage)
  | step1Open (seg : Nat)
  /-- step 2 at a segment -/
  | step2 (seg : Nat) (p : PrepStage)
  deriving DecidableEq, Repr

/-- A FORMAT in progress. -/
structure FormatCtx where
  newId : Word
  phase : FPhase
  /-- the volume ids of the valid preparation lines read by the volume check -/
  ids : List Word
  /-- the erase counts the volume check has read, in segment order (`none`: no valid preparation line) -/
  counts : List (Option Nat)
  /-- the segments still to be taken: step 1's candidates, then step 2's segments -/
  todo : List Nat
  deriving DecidableEq, Repr

/-! ### The host port (chapter 10) -/

/-- The argument registers (R179). -/
structure ArgRegs where
  cmd : Byte
  tag : Byte
  keyh : Byte
  keyl : Byte
  buf : Byte
  len : Byte
  arg0 : Byte
  arg1 : Byte
  arg2 : Byte
  arg3 : Byte
  arg4 : Byte
  arg5 : Byte
  arg6 : Byte
  arg7 : Byte
  deriving DecidableEq, Repr

/-- The state of a tag (R181). -/
inductive TagState where
  | free | queued | running | completed
  deriving DecidableEq, Repr

/-- An entry of the host command queue (R184). The batch flag is in the command. -/
structure QEntry where
  tag : Nat
  cmd : Cmd
  deriving DecidableEq, Repr

/-- A completion in the completion queue (R186). -/
structure Completion where
  tag : Nat
  res : Result
  deriving DecidableEq, Repr

/-- The host port's tables, queues and window registers. -/
structure HostPort where
  args : ArgRegs
  /-- the tag table, tag 0 first -/
  tags : List TagState
  queue : List QEntry
  cplq : List Completion
  /-- for each staging buffer, the tag that holds it, or IDLE -/
  bufOwner : List (Option Nat)
  bufSel : BitVec 2
  bufPtr : Byte
  lastSubmit : Byte
  lastAbort : Byte
  /-- the DIRCNT holding byte (R180) -/
  dircntHold : Byte
  deriving DecidableEq, Repr

/-- The alert flags and their mask (R191), bit positions as in R209. -/
structure Alerts where
  flags : Byte
  mask : Byte
  deriving DecidableEq, Repr

/-- CONTROL, RECTHR and HOSTWT (R193, R194). `srst` is set while a soft reset waits. -/
structure Control where
  cinten : Bool
  bgren : Bool
  mgmten : Bool
  srst : Bool
  recthr : Nat
  hostwt : Nat
  deriving DecidableEq, Repr

/-! ### The management port (chapter 11) -/

/-- An exchange slot (R197), with its arrival number while it is not FREE, and the request bytes or the response frame. -/
inductive Slot where
  | free
  | receiving (arrival : Nat) (bytes : List Byte) (tooLong : Bool)
  | waiting (arrival : Nat) (bytes : List Byte)
  | running (arrival : Nat) (bytes : List Byte)
  | answered (arrival : Nat) (frame : List Byte)
  deriving DecidableEq, Repr

/-- The transfer addressed to the part that is in progress; the stall timer runs while there is one (R198). -/
inductive Xfer where
  /-- a write transfer before its first data byte -/
  | writeStart
  /-- a write transfer that fills a slot (`true` is slot B) -/
  | write (slotB : Bool)
  /-- a write transfer whose data bytes are NAKed -/
  | nak
  /-- a read transfer: the frame being sent, the slot it answers from if that slot is ANSWERED, and the byte offset -/
  | read (frame : List Byte) (slotB : Option Bool) (offset : Nat)
  deriving DecidableEq, Repr

/-- The management port. The session idle timer runs exactly while the session is open (R204). -/
structure MgmtPort where
  slotA : Slot
  slotB : Slot
  session : Bool
  xfer : Option Xfer
  /-- the model's own: the last arrival number given -/
  arrivals : Nat
  deriving DecidableEq, Repr

/-- Input pin levels the part follows, and what the part last drove on its outputs (the model's own record). INT# is
read off the state: see `intLow`. -/
structure Pins where
  /-- PFW# is low (asserted) -/
  pfwLow : Bool
  /-- RESET# is low (asserted) -/
  resetLow : Bool
  /-- D7–D0 as driven by the last host read that has a row -/
  dataOut : Byte
  /-- the data bytes sent on SDA by the last read-transfer command -/
  sdaOut : List Byte
  /-- for each data byte of the last write-transfer command, whether it was acknowledged -/
  sdaAcks : List Bool
  /-- whether the address byte of the last transfer begun on the bus was acknowledged -/
  addrAck : Bool
  deriving DecidableEq, Repr

/-- The whole state. -/
structure State where
  /-- the record array: the lines that are not ERASED, by address (see Machine/Memory.lean) -/
  array : List (Nat × Line)
  seqr : Option SeqOp
  sm : SegMgr
  dir : List DirEntry
  freezes : List FreezeEntry
  batch : Option Batch
  commits : List CommitEntry
  eng : Engine
  inflight : Option Ctx
  holder : Holder
  rc : ReclaimUnit
  mu : MountUnit
  fu : Option FormatCtx
  host : HostPort
  /-- the four staging buffers: the bytes that are not 00h, at 256 × buffer + byte -/
  staging : List Host.Cell
  alert : Alerts
  ctl : Control
  mgmt : MgmtPort
  pins : Pins
  /-- the model's own: how many free values have been drawn (log entries 3 and 4) -/
  free : Nat
  /-- the model's own: the commands that are waiting, first in first out -/
  pending : List Instr
  deriving DecidableEq, Repr

/-! ### Reset values -/

/-- The engine after a reset, with the straps as latched (the table at the head of chapter 4). -/
def Engine.reset (amount : Bool) (madr : BitVec 2) : Engine :=
  { store := .unmounted, prior := none, seqCtr := 0, volId := 0, mountRes := .none, runCount := 0,
    haltReq := false, recovery := false, amount, madr }

/-- The mount unit after a reset (the table at the head of chapter 9). -/
def MountUnit.reset : MountUnit :=
  { phase := .idle, foundVid := 0, order := [], highest := none, scan := none, stopped := [], extents := [],
    line0 := none, foreign := false, mixed := false, strayEpoch := 0, found := [], todo := [], judge := none, settling := none }

/-- The host port after a reset (the table at the head of chapter 10). -/
def HostPort.reset : HostPort :=
  { args := ⟨0, 0, 0, 0, 0, 0, 0, 0, 0, 0, 0, 0, 0, 0⟩, tags := List.replicate 16 .free, queue := [], cplq := [],
    bufOwner := List.replicate 4 none, bufSel := 0, bufPtr := 0, lastSubmit := 0, lastAbort := 0, dircntHold := 0 }

/-- The management port after a reset (the table at the head of chapter 11). -/
def MgmtPort.reset : MgmtPort :=
  { slotA := .free, slotB := .free, session := false, xfer := none, arrivals := 0 }

/-- CONTROL, RECTHR and HOSTWT after a reset (R193, R194). -/
def Control.reset : Control :=
  { cinten := false, bgren := true, mgmten := true, srst := false, recthr := 4, hostwt := 4 }

/-- The part right after power-on reset: AMOUNT and MADR1–MADR0 latched low (log entry 2), PFW# and RESET# high, the
array as on a new part, every line ERASED (log entry 2). -/
def State.reset : State :=
  { array := [], seqr := none, sm := ⟨[], 0, false⟩, dir := [], freezes := [], batch := none, commits := [],
    eng := Engine.reset false 0, inflight := none, holder := .none, rc := ⟨none, 0, 0⟩, mu := MountUnit.reset,
    fu := none, host := HostPort.reset, staging := [], alert := ⟨0, 0⟩, ctl := Control.reset,
    mgmt := MgmtPort.reset,
    pins := { pfwLow := false, resetLow := false, dataOut := 0, sdaOut := [], sdaAcks := [], addrAck := false },
    free := 0, pending := [] }

end Sys2Proof.Machine
end

