-- ==== Sys2Proof/Machine/Memory.lean ====
section
/-! DEFINITION. The two addressed stores in one canonical form: a list of (address, content) pairs, addresses strictly
rising, no pair equal to what an unlisted address reads as. The record array lists the lines that are not ERASED; the
staging buffers list the bytes that are not 00h (R189). -/

namespace Sys2Proof.Machine

/-- What address `a` holds, where an unlisted address holds `d`. -/
def Memory.read {α : Type} (d : α) : List (Nat × α) → Nat → α
  | [], _ => d
  | (k, v) :: rest, a => if k = a then v else Memory.read d rest a

/-- Write `v` at `a`; writing `d` removes the entry. -/
def Memory.write {α : Type} [DecidableEq α] (d : α) : List (Nat × α) → Nat → α → List (Nat × α)
  | [], a, v => if v = d then [] else [(a, v)]
  | (k, w) :: rest, a, v =>
    if a < k then (if v = d then (k, w) :: rest else (a, v) :: (k, w) :: rest)
    else if a = k then (if v = d then rest else (a, v) :: rest)
    else (k, w) :: Memory.write d rest a v

/-- Every address of the list is at least `lo`, the addresses rise strictly and no entry holds `d`. -/
def Memory.wfFrom {α : Type} [DecidableEq α] (d : α) : Nat → List (Nat × α) → Bool
  | _, [] => true
  | lo, (k, v) :: rest => decide (lo ≤ k) && decide (v ≠ d) && Memory.wfFrom d (k + 1) rest

/-- The canonical form. -/
def Memory.wf {α : Type} [DecidableEq α] (d : α) (m : List (Nat × α)) : Bool := Memory.wfFrom d 0 m

/-- Drop every entry whose address satisfies `p`: those addresses then hold the default. -/
def Memory.clear {α : Type} (p : Nat → Bool) (m : List (Nat × α)) : List (Nat × α) := m.filter (fun c => !p c.1)

/-! ### The record array -/

/-- The key of a line: 256 lines a segment (R1). -/
def lineKey (l : Loc) : Nat := l.seg * 256 + l.line

/-- The line exists: segment 0–63, line 0–255 (R1). -/
def inArray (l : Loc) : Bool := l.seg < 64 && l.line < 256

/-- What a line read of `l` returns (R4). An address outside the array reads TORN, so that no program is ever taken
there (log entry 5): the part never issues one. -/
def lineAt (s : State) (l : Loc) : Line := if inArray l then Memory.read .erased s.array (lineKey l) else .torn

/-- Leave a line in the given condition. -/
def setLine (s : State) (l : Loc) (v : Line) : State :=
  if inArray l then { s with array := Memory.write .erased s.array (lineKey l) v } else s

/-- The key `a` lies in segment `n`. -/
def inSegment (n a : Nat) : Bool := a / 256 == n

/-- All 256 lines of a segment become ERASED (R7). -/
def eraseSegment (s : State) (n : Nat) : State := { s with array := Memory.clear (inSegment n) s.array }

/-- The lines of segment `n` that `mask` names become TORN; the others are as they stand. -/
def tearLines (s : State) (n : Nat) (mask : BitVec 256) : State :=
  (List.range 256).foldl (fun t k => if mask.getLsbD k then setLine t ⟨n, k⟩ .torn else t) s

/-- An erase that ends at its deadline or is interrupted: every line is left ERASED or TORN (R7, R9), which of the two
being a free value (log entry 3). -/
def partialErase (s : State) (n : Nat) : State :=
  let t := tearLines (eraseSegment s n) n (Config.freeErase s.free)
  { t with free := s.free + 1 }

/-! ### The staging buffers -/

/-- The address of byte `i` of staging buffer `b`. -/
def stagingAddr (b i : Nat) : Nat := b * 256 + i

/-- Byte `i` of staging buffer `b`. -/
def stagingRead (s : State) (b i : Nat) : Byte := Memory.read 0 s.staging (stagingAddr b i)

/-- Store one byte in a staging buffer (R190, R132). -/
def stagingWrite (s : State) (b i : Nat) (v : Byte) : State :=
  { s with staging := Memory.write 0 s.staging (stagingAddr b i) v }

/-- Store bytes from byte `i` of buffer `b` upward. -/
def stagingWriteList (s : State) (b i : Nat) : List Byte → State
  | [] => s
  | v :: vs => stagingWriteList (stagingWrite s b i v) b (i + 1) vs

/-- Bytes 0 to `n` − 1 of buffer `b` (R91). -/
def stagingBytes (s : State) (b n : Nat) : List Byte := (List.range n).map (stagingRead s b)

end Sys2Proof.Machine
end

