-- ==== Sys2Proof/Machine/Lines.lean ====
section
/-! DEFINITION. The two check codes (R22, R23) and the layouts of every line (R11–R21, R206): building a line and
reading one. -/

namespace Sys2Proof.Machine

/-! ### Bytes -/

/-- High byte first (chapter 12: every multi-byte field is stored most significant byte first). -/
def be16 (v : BitVec 16) : List Byte := [v.extractLsb' 8 8, v.extractLsb' 0 8]

def be24 (n : Nat) : List Byte :=
  let v := BitVec.ofNat 24 n
  [v.extractLsb' 16 8, v.extractLsb' 8 8, v.extractLsb' 0 8]

def be32 (v : Word) : List Byte :=
  [v.extractLsb' 24 8, v.extractLsb' 16 8, v.extractLsb' 8 8, v.extractLsb' 0 8]

/-- A count as one byte. -/
def byteOf (n : Nat) : Byte := BitVec.ofNat 8 n

/-- Byte `i` of a list, 00h past its end. -/
def byteAt (l : List Byte) (i : Nat) : Byte := l.getD i 0

def word16At (l : List Byte) (i : Nat) : BitVec 16 := byteAt l i ++ byteAt l (i + 1)

def word24At (l : List Byte) (i : Nat) : Nat := (byteAt l i ++ byteAt l (i + 1) ++ byteAt l (i + 2)).toNat

def word32At (l : List Byte) (i : Nat) : Word :=
  byteAt l i ++ byteAt l (i + 1) ++ byteAt l (i + 2) ++ byteAt l (i + 3)

/-- The sixteen bytes of a line from a list, padded with 00h (R14). -/
def packLine (l : List Byte) : LineBits :=
  (List.range 16).foldl (fun (acc : LineBits) i => (acc <<< 8) ||| (byteAt l i).setWidth 128) 0

/-- The sixteen bytes of a line in order. -/
def lineBytes (c : LineBits) : List Byte := (List.range 16).map fun i => c.extractLsb' (8 * (15 - i)) 8

/-! ### Check codes -/

/-- One shift of the CRC-16 register, polynomial 1021h (R22). -/
def crc16Shift (r : BitVec 16) : BitVec 16 := if r.getMsbD 0 then (r <<< 1) ^^^ 0x1021#16 else r <<< 1

/-- One byte through the CRC-16 register. -/
def crc16Byte (r : BitVec 16) (b : Byte) : BitVec 16 :=
  let x := r ^^^ (b.setWidth 16 <<< 8)
  crc16Shift (crc16Shift (crc16Shift (crc16Shift (crc16Shift (crc16Shift (crc16Shift (crc16Shift x)))))))

/-- CRC-16 over bytes in order, from FFFFh (R22). -/
def crc16 (l : List Byte) : BitVec 16 := l.foldl crc16Byte 0xFFFF#16

/-- One shift of the CRC-8 register, polynomial 31h (R23). -/
def crc8Shift (r : Byte) : Byte := if r.getMsbD 0 then (r <<< 1) ^^^ 0x31#8 else r <<< 1

/-- One byte through the CRC-8 register. -/
def crc8Byte (r b : Byte) : Byte :=
  let x := r ^^^ b
  crc8Shift (crc8Shift (crc8Shift (crc8Shift (crc8Shift (crc8Shift (crc8Shift (crc8Shift x)))))))

/-- CRC-8 over bytes in order, from FFh (R23). -/
def crc8 (l : List Byte) : Byte := l.foldl crc8Byte 0xFF#8

/-- A line from its first fourteen bytes and their CRC-16 (R206). -/
def sealedLine (first : List Byte) : LineBits := packLine (first ++ be16 (crc16 first))

/-- The line's check: the CRC-16 of bytes 0–13 is in bytes 14–15 (R22). -/
def lineCheck (b : List Byte) : Bool := crc16 (b.take 14) == word16At b 14

/-! ### Records -/

/-- Data lines of a value of `len` bytes (R14). -/
def dataLineCount (len : Nat) : Nat := (len + 15) / 16

/-- The extent of a record with a value of `len` bytes (R11). -/
def extentOf (len : Nat) : Nat := 2 + dataLineCount len

/-- The kind codes of R206. -/
def Kind.code : Kind → Byte
  | .value => 0x01
  | .tombstone => 0x02
  | .commit => 0x03
  | .freeze => 0x04

def Kind.ofCode (b : Byte) : Option Kind :=
  if b = 0x01 then some .value
  else if b = 0x02 then some .tombstone
  else if b = 0x03 then some .commit
  else if b = 0x04 then some .freeze
  else none

/-- Key and length agree with the kind (the table of R13). -/
def kindAgrees (k : Kind) (key : Key) (len : Nat) : Bool :=
  match k with
  | .value => keyInRange key && len ≤ 240
  | .tombstone => keyInRange key && len == 0
  | .commit => key == 0 && 7 ≤ len && len ≤ 21 && len % 2 == 1
  | .freeze => key == 0 && len == 4

/-- The header line (R12, R206). -/
def headerLine (h : Hdr) : LineBits :=
  sealedLine ([h.kind.code] ++ be16 h.key ++ [byteOf h.len] ++ be32 h.seq ++ be32 h.bid ++ be16 h.vcrc)

/-- A read line as a valid header, if it is one (R13). -/
def parseHeader : Line → Option Hdr
  | .good c =>
    let b := lineBytes c
    match Kind.ofCode (byteAt b 0) with
    | some k =>
      let key := word16At b 1
      let len := (byteAt b 3).toNat
      if lineCheck b && kindAgrees k key len then
        some { kind := k, key, len, seq := word32At b 4, bid := word32At b 8, vcrc := word16At b 12 }
      else none
    | none => none
  | .erased => none
  | .torn => none

/-- The commit mark (R15). -/
def commitMark : Word := 0x5E3C0D71#32

/-- The commit line (R15, R206). -/
def commitLine (seq : Word) (extent : Nat) : LineBits :=
  sealedLine (be32 commitMark ++ be32 seq ++ [byteOf extent] ++ [0, 0, 0, 0, 0])

/-- The commit line matches its header (R15). -/
def commitMatches (h : Hdr) : Line → Bool
  | .good c =>
    let b := lineBytes c
    word32At b 0 == commitMark && lineCheck b && word32At b 4 == h.seq && (byteAt b 8).toNat == extentOf h.len
  | .erased => false
  | .torn => false

/-- The data lines of a value: sixteen bytes a line, the last padded with 00h (R14). -/
def dataLines (v : List Byte) : List LineBits :=
  (List.range (dataLineCount v.length)).map fun i => packLine ((v.drop (16 * i)).take 16)

/-- All lines of a record in program order (R11): header, data lines, commit line. -/
def recordLines (kind : Kind) (key : Key) (seq bid : Word) (v : List Byte) : List LineBits :=
  headerLine { kind, key, len := v.length, seq, bid, vcrc := crc16 v }
    :: (dataLines v ++ [commitLine seq (extentOf v.length)])

/-- The value of a COMMIT record (R17, R206). -/
def commitValue (bid : Word) (keys : List Key) : List Byte :=
  be32 bid ++ [byteOf keys.length] ++ keys.flatMap be16

/-- The value of a FREEZE record (R17, R206). -/
def freezeValue (lo hi : Key) : List Byte := be16 lo ++ be16 hi

/-- The member keys of a COMMIT record's value. -/
def commitKeys (v : List Byte) : List Key := (List.range ((v.length - 5) / 2)).map fun i => word16At v (5 + 2 * i)

/-- The value content is well formed for its kind (R17). -/
def contentWellFormed (kind : Kind) (v : List Byte) : Bool :=
  match kind with
  | .value => true
  | .tombstone => true
  | .commit => word32At v 0 != 0 && (byteAt v 4).toNat == (v.length - 5) / 2 && (commitKeys v).all keyInRange
  | .freeze => keyInRange (word16At v 0) && keyInRange (word16At v 2) && (word16At v 0).toNat ≤ (word16At v 2).toNat

/-- The sixteen bytes of a GOOD line; nothing otherwise. -/
def goodBytes : Line → List Byte
  | .good c => lineBytes c
  | .erased => []
  | .torn => []

def isGood : Line → Bool
  | .good _ => true
  | .erased => false
  | .torn => false

/-- The value bytes held by a record's data lines (R14). -/
def valueOf (h : Hdr) (after : List Line) : List Byte :=
  (((after.take (dataLineCount h.len)).map goodBytes).flatten).take h.len

/-- A record with valid header `h` is complete (R18), judged on the lines `after` its header. -/
def recordComplete (h : Hdr) (after : List Line) : Bool :=
  let data := after.take (dataLineCount h.len)
  data.all isGood && data.length == dataLineCount h.len
    && crc16 (valueOf h after) == h.vcrc
    && commitMatches h (after.getD (dataLineCount h.len) .torn)
    && contentWellFormed h.kind (valueOf h after)

/-! ### Marker lines -/

/-- The format mark and the open mark (R19, R21). -/
def formatMark : Word := 0x3A91C40E#32

def openMark : Word := 0x4F70B2E9#32

/-- The role codes of R206. -/
def roleSpare : Byte := 0x5A

def roleRetired : Byte := 0xA5

/-- A preparation line (R19, R206). -/
def prepLine (role : Byte) (vid : Word) (eraseCount : Nat) : LineBits :=
  sealedLine (be32 formatMark ++ [role] ++ be32 vid ++ be24 eraseCount ++ [0, 0])

/-- An opening line (R21, R206). -/
def openLine (epoch vid : Word) : LineBits :=
  sealedLine (be32 openMark ++ be32 epoch ++ be32 vid ++ [0, 0])

/-- What line 0 is (R20). A GOOD line treated as TORN is `torn`. -/
inductive Line0 where
  | erased
  | torn
  | foreign
  | spare (vid : Word) (eraseCount : Nat)
  | retired (vid : Word) (eraseCount : Nat)
  deriving DecidableEq, Repr

/-- The classification of line 0 (R20). -/
def classify0 : Line → Line0
  | .erased => .erased
  | .torn => .torn
  | .good c =>
    let b := lineBytes c
    if word32At b 0 ≠ formatMark then .foreign
    else if !lineCheck b || word32At b 5 == 0 then .torn
    else if byteAt b 4 = roleSpare then .spare (word32At b 5) (word24At b 9)
    else if byteAt b 4 = roleRetired then .retired (word32At b 5) (word24At b 9)
    else .torn

/-- What line 1 is (R21). -/
inductive Line1 where
  | erased
  | torn
  | opened (epoch vid : Word)
  deriving DecidableEq, Repr

/-- The classification of line 1 (R21). -/
def classify1 : Line → Line1
  | .erased => .erased
  | .torn => .torn
  | .good c =>
    let b := lineBytes c
    if word32At b 0 ≠ openMark || !lineCheck b || word32At b 4 == 0 then .torn
    else .opened (word32At b 4) (word32At b 8)

end Sys2Proof.Machine
end

