-- ==== Sys2Proof/Machine/Flags.lean ====
section
/-! DEFINITION. The flags the part computes: the alert flags (R191), INT# (R192), the completion flags (R209) and the
codes of states, results and statuses (R88, R208). -/

namespace Sys2Proof.Machine

/-- The eight alerts, by their bit in ALERT (section 10.7). -/
inductive Alert where
  | mounted | spaceLow | fault | halt | batchLost | session | conflict | rdOnly
  deriving DecidableEq, Repr

def Alert.mask : Alert → Byte
  | .mounted => 0x01
  | .spaceLow => 0x02
  | .fault => 0x04
  | .halt => 0x08
  | .batchLost => 0x10
  | .session => 0x20
  | .conflict => 0x40
  | .rdOnly => 0x80

/-- A raise sets its flag (R191). -/
def raise (s : State) (a : Alert) : State := { s with alert.flags := s.alert.flags ||| a.mask }

/-- INT# is driven low (R192). It is released while RESET# is asserted. -/
def intLow (s : State) : Bool :=
  !s.pins.resetLow && ((s.ctl.cinten && !s.host.cplq.isEmpty) || (s.alert.flags &&& s.alert.mask) != 0)

def bit (b : Bool) (v : Byte) : Byte := if b then v else 0

/-- The flags of a completion, in CFLAGS and in a response's flags byte (R207, R209). -/
def Result.flags (r : Result) : Byte := bit r.endFlag 1 ||| bit r.held 2 ||| bit r.retried 4

/-- CONTROL as read (R193): bits 6–3 read 0. -/
def Control.byte (c : Control) : Byte := bit c.cinten 1 ||| bit c.bgren 2 ||| bit c.mgmten 4 ||| bit c.srst 0x80

def StoreState.code : StoreState → Byte
  | .unmounted => 0
  | .mounting => 1
  | .ready => 2
  | .readOnly => 3
  | .formatting => 4
  | .halted => 5
  | .failed => 6

def MountResult.code : MountResult → Byte
  | .none => 0
  | .ok => 1
  | .blank => 2
  | .foreign => 3
  | .mixed => 4
  | .corrupt => 5

def SegState.code : SegState → Byte
  | .free => 1
  | .opened _ => 2
  | .closed _ => 3
  | .reclaiming _ => 4
  | .dirty => 5
  | .retired => 6

def Port.code : Port → Byte
  | .host => 1
  | .mgmt => 2

/-- The execution status codes of R88. -/
def Status.code : Status → Byte
  | .ok => 0x00
  | .notFound => 0x01
  | .frozen => 0x02
  | .keyHeld => 0x03
  | .noBatch => 0x04
  | .batchBusy => 0x05
  | .batchNotOwner => 0x06
  | .batchFull => 0x07
  | .batchDuplicate => 0x08
  | .batchLimit => 0x09
  | .directoryFull => 0x0A
  | .storeFull => 0x0B
  | .mediaFault => 0x0C
  | .readOnly => 0x0D
  | .notReady => 0x0E
  | .aborted => 0x0F
  | .halted => 0x10
  | .wrongVolume => 0x11
  | .freezeFull => 0x12

/-! The ports' own results (R88, R208). -/

def accepted : Byte := 0x00
def queueFull : Byte := 0x20
def tagInUse : Byte := 0x21
def bufferBusy : Byte := 0x22
def badCommand : Byte := 0x23
def frameError : Byte := 0x30
def noSession : Byte := 0x31
def portDisabled : Byte := 0x32
def pendingStatus : Byte := 0x33
def emptyStatus : Byte := 0x34
def removedResult : Byte := 0x40
def stoppingResult : Byte := 0x41
def tooLate : Byte := 0x42
def noSuchTag : Byte := 0x43
def notAbortable : Byte := 0x44

end Sys2Proof.Machine
end

