-- ==== Sys2Proof/Machine/Operands.lean ====
section
/-! DEFINITION. The operands of commands: the host's argument registers as a command (R182, R183), a management frame as
a request (R199, R200, R207), and the frames themselves. -/

namespace Sys2Proof.Machine

/-- A batch command (R112): BATCH_OPEN, BATCH_COMMIT, BATCH_ABORT, and PUT or DELETE with the batch flag. -/
def Cmd.isBatch : Cmd → Bool
  | .put _ _ _ m => m
  | .delete _ m => m
  | .batchOpen => true
  | .batchCommit => true
  | .batchAbort => true
  | .get .. => false
  | .stat _ => false
  | .list .. => false
  | .freeze .. => false
  | .mount => false
  | .unmount => false
  | .format .. => false
  | .reclaim => false

/-- A member write (R116). -/
def Cmd.isMember : Cmd → Bool
  | .put _ _ _ m => m
  | .delete _ m => m
  | _ => false

/-- A command whose abort is answered NOT_ABORTABLE (R81, R188). -/
def Cmd.notAbortable : Cmd → Bool
  | .mount => true
  | .unmount => true
  | .format .. => true
  | .batchCommit => true
  | _ => false

/-! ### The host's argument registers -/

def ArgRegs.key (a : ArgRegs) : Key := a.keyh ++ a.keyl

def ArgRegs.expected (a : ArgRegs) : Word := a.arg0 ++ a.arg1 ++ a.arg2 ++ a.arg3

def ArgRegs.newId (a : ArgRegs) : Word := a.arg4 ++ a.arg5 ++ a.arg6 ++ a.arg7

/-- TAG bits 3–0. -/
def ArgRegs.tagNo (a : ArgRegs) : Nat := (a.tag &&& 0x0F).toNat

/-- TAG bit 4, the batch flag. -/
def ArgRegs.batchFlag (a : ArgRegs) : Bool := a.tag.getLsbD 4

/-- Step 1 of R183: the command that CMD names, with the registers it uses. -/
def hostCmd (a : ArgRegs) : Option Cmd :=
  if a.cmd = 0x10 then some (.put a.key a.len.toNat a.buf.toNat a.batchFlag)
  else if a.cmd = 0x11 then some (.delete a.key a.batchFlag)
  else if a.cmd = 0x12 then some (.get a.key a.buf.toNat)
  else if a.cmd = 0x13 then some (.stat a.key)
  else if a.cmd = 0x14 then some (.list a.key a.buf.toNat a.arg0.toNat)
  else if a.cmd = 0x20 then some .batchOpen
  else if a.cmd = 0x21 then some .batchCommit
  else if a.cmd = 0x22 then some .batchAbort
  else if a.cmd = 0x40 then some .mount
  else if a.cmd = 0x41 then some .unmount
  else if a.cmd = 0x42 then some (.format a.expected a.newId)
  else if a.cmd = 0x43 then some .reclaim
  else none

/-- Step 2 of R183: the arguments are in range. -/
def hostArgsOk : Cmd → Bool
  | .put key len buf _ => keyInRange key && len ≤ 240 && buf ≤ 3
  | .delete key _ => keyInRange key
  | .get key buf => keyInRange key && buf ≤ 3
  | .stat key => keyInRange key
  | .list after buf count => after.toNat ≤ 0xFFFE && 1 ≤ count && count ≤ 16 && buf ≤ 3
  | .batchOpen => true
  | .batchCommit => true
  | .batchAbort => true
  | .freeze .. => false
  | .mount => true
  | .unmount => true
  | .format _ newId => newId != 0
  | .reclaim => true

/-- The staging buffer a host command names (R183 step 3). -/
def Cmd.buffer? : Cmd → Option Nat
  | .put _ _ buf _ => some buf
  | .get _ buf => some buf
  | .list _ buf _ => some buf
  | _ => none

/-! ### Management frames -/

/-- What a checked frame asks for (R200). -/
inductive Request where
  | openSession
  | closeSession
  | status
  | segment (n : Nat)
  | store (c : Cmd)
  deriving DecidableEq, Repr

/-- The codes of R200. -/
def requestCodes : List Byte :=
  [0x01#8, 0x02#8, 0x03#8, 0x04#8, 0x10#8, 0x11#8, 0x12#8, 0x13#8, 0x14#8, 0x20#8, 0x21#8, 0x22#8, 0x30#8]

/-- The frame length a code requires (R200), the CRC byte included; for a PUT it is taken from byte 5, and there is none
when fewer than 6 bytes came. -/
def frameLength (b : List Byte) : Option Nat :=
  let c := byteAt b 0
  if c = 0x04 then some 4
  else if c = 0x10 then (if 6 ≤ b.length then some (7 + (byteAt b 5).toNat) else none)
  else if c = 0x11 then some 6
  else if c = 0x12 then some 5
  else if c = 0x13 then some 5
  else if c = 0x14 then some 6
  else if c = 0x30 then some 7
  else some 3

/-- Step 5 of R199: the request, if its arguments are in range. The layouts are those of R207. -/
def requestOf (b : List Byte) : Option Request :=
  let c := byteAt b 0
  let flag := (byteAt b 2).getLsbD 0
  if c = 0x01 then some .openSession
  else if c = 0x02 then some .closeSession
  else if c = 0x03 then some .status
  else if c = 0x04 then (if (byteAt b 2).toNat ≤ 63 then some (.segment (byteAt b 2).toNat) else none)
  else if c = 0x10 then
    (if keyInRange (word16At b 3) && (byteAt b 5).toNat ≤ 240 then
      some (.store (.put (word16At b 3) (byteAt b 5).toNat 0 flag)) else none)
  else if c = 0x11 then (if keyInRange (word16At b 3) then some (.store (.delete (word16At b 3) flag)) else none)
  else if c = 0x12 then (if keyInRange (word16At b 2) then some (.store (.get (word16At b 2) 0)) else none)
  else if c = 0x13 then (if keyInRange (word16At b 2) then some (.store (.stat (word16At b 2))) else none)
  else if c = 0x14 then
    (if (word16At b 2).toNat ≤ 0xFFFE && 1 ≤ (byteAt b 4).toNat && (byteAt b 4).toNat ≤ 16 then
      some (.store (.list (word16At b 2) 0 (byteAt b 4).toNat)) else none)
  else if c = 0x20 then some (.store .batchOpen)
  else if c = 0x21 then some (.store .batchCommit)
  else if c = 0x22 then some (.store .batchAbort)
  else if c = 0x30 then
    (if keyInRange (word16At b 2) && keyInRange (word16At b 4) && (word16At b 2).toNat ≤ (word16At b 4).toNat then
      some (.store (.freeze (word16At b 2) (word16At b 4))) else none)
  else none

/-- The port's answer to a frame (R199). -/
inductive Verdict where
  | refused (tag status : Byte)
  | taken (r : Request)
  deriving DecidableEq, Repr

/-- The seven tests of R199, the first that fails deciding. -/
def checkFrame (s : State) (b : List Byte) (tooLong : Bool) : Verdict :=
  let tag := if 2 ≤ b.length then byteAt b 1 else 0xFF
  if b.length < 3 || tooLong then .refused tag frameError
  else if crc8 b.dropLast ≠ byteAt b (b.length - 1) then .refused tag frameError
  else if !requestCodes.contains (byteAt b 0) then .refused tag badCommand
  else if frameLength b ≠ some b.length then .refused tag frameError
  else match requestOf b with
    | none => .refused tag badCommand
    | some (.store c) =>
      if !s.mgmt.session then .refused tag noSession
      else if s.eng.store = .halted then .refused tag Status.halted.code
      else .taken (.store c)
    | some r => .taken r

/-- The command a WAITING slot holds. -/
def frameCmd (b : List Byte) : Option Cmd :=
  match requestOf b with
  | some (.store c) => some c
  | _ => none

/-- The value bytes of a management PUT frame (R92). -/
def frameValue (b : List Byte) : List Byte := (b.drop 6).take (byteAt b 5).toNat

/-- A request frame from its bytes before the CRC (R23, R207). -/
def requestFrame (body : List Byte) : List Byte := body ++ [crc8 body]

/-- A response frame (R207). -/
def responseFrame (tag status : Byte) (payload : List Byte) : List Byte :=
  let body := byteOf (payload.length + 3) :: tag :: status :: payload
  body ++ [crc8 body]

/-- The payload of an engine-answered request (R202, R207); `out` is the content gathered for GET and LIST. -/
def payloadOf (c : Cmd) (r : Result) (out : List Byte) : List Byte :=
  match c with
  | .put .. => byteOf r.len :: be32 r.seq ++ [r.flags]
  | .delete .. => byteOf r.len :: be32 r.seq ++ [r.flags]
  | .stat _ => byteOf r.len :: be32 r.seq ++ [r.flags]
  | .get .. => byteOf r.len :: be32 r.seq ++ out
  | .list .. => byteOf r.count :: r.flags :: out
  | .batchOpen => be32 r.seq ++ [byteOf r.count]
  | .batchCommit => be32 r.seq ++ [byteOf r.count]
  | .batchAbort => be32 r.seq ++ [byteOf r.count]
  | .freeze .. => be32 r.seq
  | .mount => []
  | .unmount => []
  | .format .. => []
  | .reclaim => []

end Sys2Proof.Machine
end

