-- ==== Sys2Proof/Machine/Ops.lean ====
section
/-! DEFINITION. The shared operations over the tables: the segment table and its accounting, the key directory, the
freeze list, the commit table, the open batch, completions, and the entry to READ_ONLY. -/

namespace Sys2Proof.Machine

/-! ### The segment table (chapter 2) -/

def SegState.journal? : SegState → Option Journal
  | .free => none
  | .opened j => some j
  | .closed j => some j
  | .reclaiming j => some j
  | .dirty => none
  | .retired => none

/-- Change the journal fields, in a journal state. -/
def SegState.mapJournal (f : Journal → Journal) : SegState → SegState
  | .free => .free
  | .opened j => .opened (f j)
  | .closed j => .closed (f j)
  | .reclaiming j => .reclaiming (f j)
  | .dirty => .dirty
  | .retired => .retired

def SegEntry.isFree (e : SegEntry) : Bool := e.st == .free

def SegEntry.isRetired (e : SegEntry) : Bool := e.st == .retired

/-- The FREE count (R26). -/
def freeCount (s : State) : Nat := s.sm.table.countP SegEntry.isFree

/-- The usable count (R26). -/
def usableCount (s : State) : Nat := s.sm.table.countP (fun e => !e.isRetired)

/-- The entry of segment `n`, if the table has one. -/
def segEntry (s : State) (n : Nat) : Option SegEntry := s.sm.table.find? (fun e => e.num == n)

def journalOf (s : State) (n : Nat) : Option Journal := (segEntry s n).bind (fun e => e.st.journal?)

def eraseCountOf (s : State) (n : Nat) : Nat := ((segEntry s n).map SegEntry.eraseCount).getD 0

/-- Change the entry of segment `n`. SPACELOW is raised when that makes the FREE count fall from above RECTHR to RECTHR
or below (R26). -/
def segUpd (s : State) (n : Nat) (f : SegEntry → SegEntry) : State :=
  let t : State := { s with sm.table := s.sm.table.map (fun e => if e.num = n then f e else e) }
  if s.ctl.recthr < freeCount s ∧ freeCount t ≤ s.ctl.recthr then raise t .spaceLow else t

/-- Give segment `n` a new state. -/
def setSegState (s : State) (n : Nat) (st : SegState) : State := segUpd s n (fun e => { e with st := st })

/-- Change the journal fields of segment `n`. -/
def journalUpd (s : State) (n : Nat) (f : Journal → Journal) : State :=
  segUpd s n (fun e => { e with st := e.st.mapJournal f })

/-- A record of `e` lines at the write pointer is accepted: its extent counts live and the pointer passes it (R28, R39). -/
def accountLive (s : State) (n e : Nat) : State :=
  journalUpd s n (fun j => { j with wp := j.wp + e, live := j.live + e })

/-- A record of `e` lines at the write pointer is abandoned: its extent counts dead and the pointer passes it (R40). -/
def accountDead (s : State) (n e : Nat) : State :=
  journalUpd s n (fun j => { j with wp := j.wp + e, dead := j.dead + e })

/-- An extent of `e` lines moves from live to dead (R40). No more lines move than are live. -/
def killLines (s : State) (n e : Nat) : State :=
  journalUpd s n (fun j => { j with live := j.live - min e j.live, dead := j.dead + min e j.live })

/-- One more pending record in segment `n` (R41). -/
def pinUp (s : State) (n : Nat) : State := journalUpd s n (fun j => { j with pins := j.pins + 1 })

/-- The pins of every segment fall to 0 (R41). -/
def clearPins (s : State) : State :=
  { s with sm.table := s.sm.table.map (fun e => { e with st := e.st.mapJournal (fun j => { j with pins := 0 }) }) }

/-- The journal fields of a segment that has just been closed: its slack counts dead, and the write pointer passes it to 256
(R34). -/
def Journal.closed (j : Journal) : Journal := { j with dead := j.dead + (256 - j.wp), wp := j.wp + (256 - j.wp) }

/-- Close an OPEN segment (R34). -/
def SegState.close : SegState → SegState
  | .opened j => .closed j.closed
  | st => st

def closeSegment (s : State) (n : Nat) : State := segUpd s n (fun e => { e with st := e.st.close })

/-- The OPEN segment, if there is one. -/
def openSegment (s : State) : Option (Nat × Journal) :=
  s.sm.table.findSome? (fun e => match e.st with
    | .opened j => some (e.num, j)
    | _ => none)

/-- A candidate for reclaim: a CLOSED segment with pins 0 (R35, R144). -/
def SegEntry.candidate? (e : SegEntry) : Option (Nat × Journal) :=
  match e.st with
  | .closed j => if j.pins = 0 then some (e.num, j) else none
  | _ => none

def candidates (s : State) : List (Nat × Journal) := s.sm.table.filterMap SegEntry.candidate?

/-- The journal segments with their fields, in ascending number. -/
def journals (s : State) : List (Nat × Journal) :=
  s.sm.table.filterMap (fun e => e.st.journal?.map (fun j => (e.num, j)))

/-- The lowest-epoch journal segment (R144). -/
def lowestEpoch (s : State) : Option Nat :=
  ((journals s).foldl (fun (best : Option (Nat × Journal)) c =>
    match best with
    | none => some c
    | some b => if c.2.epoch < b.2.epoch then some c else some b) none).map Prod.fst

/-- Location `a` lies after `b` in journal order: higher epoch, or the same segment and a higher line. -/
def locAfter (s : State) (a b : Loc) : Bool :=
  if a.seg = b.seg then decide (b.line < a.line)
  else match journalOf s a.seg, journalOf s b.seg with
    | some ja, some jb => decide (jb.epoch < ja.epoch)
    | _, _ => false

/-- A program fault on a line of segment `n` (R42): the fault count rises, FAULT is raised, and at 2 the segment is
retire-pending. -/
def countFault (s : State) (n : Nat) : State :=
  raise (segUpd s n (fun e =>
    { e with faults := e.faults + 1, retirePending := e.retirePending || decide (2 ≤ e.faults + 1) })) .fault

/-- The segment table, the counts and the next-epoch counter are emptied (R46). -/
def emptyTable (s : State) : State := { s with sm := ⟨[], 0, false⟩ }

/-! ### The key directory (chapter 3) -/

/-- The entry of a key (R49). -/
def dirLookup (d : List DirEntry) (k : Key) : Option DirEntry := d.find? (fun e => e.key == k)

/-- Change the entry of key `k`, making it in its place in key order if the key is absent. -/
def dirPut (k : Key) (f : DirEntry → DirEntry) : List DirEntry → List DirEntry
  | [] => [f ⟨k, none, none⟩]
  | e :: rest =>
    if k < e.key then f ⟨k, none, none⟩ :: e :: rest
    else if k = e.key then f e :: rest
    else e :: dirPut k f rest

/-- Change the entry of key `k` if there is one. -/
def dirMap (k : Key) (f : DirEntry → DirEntry) (d : List DirEntry) : List DirEntry :=
  d.map (fun e => if e.key = k then f e else e)

/-- Remove the entries left with neither part (R47). -/
def dirPrune (d : List DirEntry) : List DirEntry := d.filter (fun e => e.committed.isSome || e.pending.isSome)

/-- The key is present (R47): its committed part is a VALUE. -/
def DirEntry.present (e : DirEntry) : Bool :=
  match e.committed with
  | some p => !p.tomb
  | none => false

/-- The entry is held (R47). -/
def DirEntry.held (e : DirEntry) : Bool := e.pending.isSome

/-- The ordered successor (R58): the lowest present key above `k`, with its committed part. -/
def successor (d : List DirEntry) (k : Key) : Option (Key × Part) :=
  d.findSome? (fun e => if k < e.key && e.present then e.committed.map (fun p => (e.key, p)) else none)

/-- The lines of a part's record count dead where it lies (R40). -/
def killPart (s : State) (p : Part) : State := killLines s p.loc.seg (extentOf p.len)

/-- The lines of an optional part's record count dead. -/
def killPart? (s : State) : Option Part → State
  | some p => killPart s p
  | none => s

/-- Publish committed (R51): the record becomes the key's committed part, the record it supersedes counts dead, and its
own extent counts live. -/
def publishCommitted (s : State) (key : Key) (p : Part) : State :=
  let s1 := accountLive s p.loc.seg (extentOf p.len)
  let s2 := killPart? s1 ((dirLookup s.dir key).bind DirEntry.committed)
  { s2 with dir := dirPut key (fun e => { e with committed := some p }) s.dir }

/-- Publish pending (R52, R102): the record becomes the key's pending part, its extent counts live, its segment's pins
rise, and the member list gains the key (R111). -/
def publishPending (s : State) (key : Key) (p : Part) : State :=
  let s1 := pinUp (accountLive s p.loc.seg (extentOf p.len)) p.loc.seg
  { s1 with
    dir := dirPut key (fun e => { e with pending := some p }) s.dir
    batch := s.batch.map (fun b => { b with members := b.members ++ [⟨key, p.loc, p.tomb⟩] }) }

/-- A promoted TOMBSTONE is marked shadowed when the committed record it supersedes lies after it (R53, R57). -/
def promotedPart (s : State) (old : Option Part) (p : Part) : Part :=
  match old with
  | some o => { p with shadowed := p.tomb && locAfter s o.loc p.loc }
  | none => { p with shadowed := false }

/-- Promote one member (R53). -/
def promoteKey (s : State) (key : Key) : State :=
  match dirLookup s.dir key with
  | none => s
  | some e =>
    match e.pending with
    | none => s
    | some p =>
      { killPart? s e.committed with
        dir := dirMap key (fun e => { e with committed := some (promotedPart s e.committed p), pending := none }) s.dir }

/-- Promote every member in list order (R53). -/
def promoteAll (s : State) (ms : List Member) : State := ms.foldl (fun t m => promoteKey t m.key) s

/-- Drop pending (R54): every pending record counts dead, every pending part goes, and entries left empty go. -/
def dropPending (s : State) : State :=
  let s1 := (s.dir.filterMap DirEntry.pending).foldl killPart s
  { s1 with dir := dirPrune (s.dir.map (fun e => { e with pending := none })) }

/-- Reclaim drops a TOMBSTONE (R57): the entry loses its committed part, and goes if it has no pending part. -/
def dropTombstone (s : State) (key : Key) : State :=
  { s with dir := dirPrune (dirMap key (fun e => { e with committed := none }) s.dir) }

/-- The location test of the directory (R55). -/
def dirNames (s : State) (key : Key) (l : Loc) : Bool :=
  match (dirLookup s.dir key).bind DirEntry.committed with
  | some p => p.loc == l
  | none => false

/-- The committed part is marked shadowed (R57). -/
def dirShadowed (s : State) (key : Key) : Bool :=
  match (dirLookup s.dir key).bind DirEntry.committed with
  | some p => p.shadowed
  | none => false

/-- Re-point a directory entry to a copy (R56); the shadowed mark is cleared. -/
def dirRepoint (s : State) (key : Key) (copy : Loc) : State :=
  { s with dir := dirMap key (fun e => { e with
      committed := e.committed.map (fun p => { p with loc := copy, shadowed := false }) }) s.dir }

/-! ### The freeze list and the commit table -/

/-- A key is frozen (R60). -/
def isFrozen (s : State) (k : Key) : Bool :=
  s.freezes.any (fun f => decide (f.lo.toNat ≤ k.toNat) && decide (k.toNat ≤ f.hi.toNat))

/-- Insert a range in ascending low key, then high key; an identical range takes the new location (R60, R163). -/
def freezeInsert (x : FreezeEntry) : List FreezeEntry → List FreezeEntry
  | [] => [x]
  | f :: rest =>
    if x.lo = f.lo ∧ x.hi = f.hi then x :: rest
    else if x.lo < f.lo ∨ (x.lo = f.lo ∧ x.hi < f.hi) then x :: f :: rest
    else f :: freezeInsert x rest

/-- The list has an entry with this low and high key. -/
def hasRange (l : List FreezeEntry) (lo hi : Key) : Bool := l.any (fun f => f.lo == lo && f.hi == hi)

/-- Insert in ascending batch id; an entry with the same batch id takes the new location (R125, R163). -/
def commitInsert (x : CommitEntry) : List CommitEntry → List CommitEntry
  | [] => [x]
  | c :: rest =>
    if x.bid = c.bid then x :: rest
    else if x.bid < c.bid then x :: c :: rest
    else c :: commitInsert x rest

/-- The location test of the freeze list (R64). -/
def freezeNames (s : State) (l : Loc) : Bool := s.freezes.any (fun f => f.loc == l)

/-- The location test of the commit table (R126). -/
def commitNames (s : State) (l : Loc) : Bool := s.commits.any (fun c => c.loc == l)

/-! ### The open batch (chapter 6) -/

/-- The origin's port. -/
def Origin.port : Origin → Port
  | .host _ => .host
  | .mgmt .. => .mgmt

/-- A slot holds a batch command that waits. -/
def Slot.waitsBatch : Slot → Bool
  | .waiting _ b => ((frameCmd b).map Cmd.isBatch).getD false
  | _ => false

/-- The port has a batch command queued or in flight (R113). -/
def batchOutstanding (s : State) (p : Port) : Bool :=
  (match s.inflight with
    | some c => c.origin.port == p && c.cmd.isBatch
    | none => false)
  || (match p with
    | .host => s.host.queue.any (fun q => q.cmd.isBatch)
    | .mgmt => s.mgmt.slotA.waitsBatch || s.mgmt.slotB.waitsBatch)

/-- The idle timer is SUSPENDED while its owner has a batch command queued or in flight, and RUNNING otherwise (R113). -/
def syncIdle (s : State) : State :=
  { s with batch := s.batch.map (fun b =>
      { b with timer := if batchOutstanding s b.owner then .suspended else .running }) }

/-- Close the open batch without committing it (R123). `own` is set when the cause is the owner's BATCH_ABORT. -/
def teardown (s : State) (own : Bool) : State :=
  match s.batch with
  | none => s
  | some b =>
    let s1 : State := { clearPins (dropPending s) with batch := none }
    if b.owner = .host ∧ !own then raise s1 .batchLost else s1

/-! ### Completions (R78, R186, R202) -/

def setTag (s : State) (t : Nat) (v : TagState) : State := { s with host.tags := s.host.tags.set t v }

/-- Post a completion at the tail of the completion queue; the tag becomes COMPLETED (R186). -/
def postHost (s : State) (t : Nat) (r : Result) : State :=
  let s1 := setTag s t .completed
  { s1 with host.cplq := s1.host.cplq ++ [⟨t, r⟩] }

def slotOf (s : State) (b : Bool) : Slot := if b then s.mgmt.slotB else s.mgmt.slotA

def setSlot (s : State) (b : Bool) (v : Slot) : State :=
  if b then { s with mgmt.slotB := v } else { s with mgmt.slotA := v }

/-- A RUNNING slot becomes ANSWERED with its response (R197, R202). -/
def answerRunning (s : State) (b : Bool) (frame : List Byte) : State :=
  match slotOf s b with
  | .running a _ => setSlot s b (.answered a frame)
  | _ => s

/-- Hand a completion to the port of origin (R78). -/
def postResult (s : State) (c : Ctx) (r : Result) : State :=
  match c.origin with
  | .host t => postHost s t r
  | .mgmt b ftag => answerRunning s b (responseFrame ftag r.status.code (payloadOf c.cmd r c.job.out))

/-- The in-flight command completes (R78): its result is handed over, the context goes, the command gives up the array,
a teardown that waited for it is made (R69, R121), and the idle timer follows (R113). -/
def complete (s : State) (r : Result) : State :=
  match s.inflight with
  | none => s
  | some c =>
    let s1 := postResult s c r
    let s2 : State := { s1 with inflight := none, holder := if s1.holder = .command then .none else s1.holder }
    syncIdle (if c.tearDue then teardown s2 false else s2)

/-- A result with no fields. DESIGN CHOICE (log entry 41): a field of a host completion that no rule gives a value is 0. -/
def Result.bare (st : Status) : Result := ⟨st, 0, 0, 0, false, false, false⟩

/-- The command is in WAIT_SPACE (R109). -/
def Ctx.waits (c : Ctx) : Bool :=
  match c.stage with
  | .waitSpace _ => true
  | _ => false

/-- A rule gives a completion with status `st` the consumed sequence: R103 every end of a PUT or DELETE; R84, R93, R99, R120 and
R121 the ends of a FREEZE or BATCH_COMMIT, but not the HALTED of a BATCH_COMMIT, nor the READ_ONLY that ends a wait (R37).
DEDUCED (log entry 39): where no rule gives it the field is 0 (R202), in the host's completion too. -/
def Ctx.carriesSeq (c : Ctx) (st : Status) : Bool :=
  match c.cmd with
  | .freeze _ _ => !(st == .readOnly && c.waits)
  | .batchCommit => !(st == .readOnly && c.waits) && st != .halted
  | _ => true

/-- The sequence field of a command that ends without its effect with status `st`: 0 before ASSIGN. -/
def Ctx.endSeq (c : Ctx) (st : Status) : Word :=
  match c.seq with
  | none => 0
  | some q => if c.carriesSeq st then q else 0

/-- The fields of a command that ends without its effect: the consumed sequence where a rule gives it, and RETRIED if it
restarted (R103). DESIGN CHOICE (log entry 38): a MOUNT or FORMAT that a halt ends carries 0 in every field. -/
def Ctx.failure (c : Ctx) (st : Status) : Result := ⟨st, 0, c.endSeq st, 0, false, false, c.retried⟩

/-- The in-flight command ends with a status and without its effect (R103). -/
def completeFail (s : State) (st : Status) : State :=
  match s.inflight with
  | none => s
  | some c => complete s (c.failure st)

/-- Change the in-flight context. -/
def modCtx (s : State) (f : Ctx → Ctx) : State := { s with inflight := s.inflight.map f }

def setStage (s : State) (st : Stage) : State := modCtx s (fun c => { c with stage := st })

/-- A READY store enters READ_ONLY (R69): RDONLY is raised; a command in WAIT_SPACE completes READ_ONLY (R37); the open
batch is torn down, at the end of the command in flight if there is one. -/
def enterReadOnly (s : State) : State :=
  if s.eng.store ≠ .ready then s
  else
    let s1 := raise { s with eng.store := .readOnly } .rdOnly
    match s1.inflight with
    | none => teardown s1 false
    | some c =>
      let s2 := modCtx s1 (fun c => { c with tearDue := true })
      match c.stage with
      | .waitSpace _ => completeFail s2 .readOnly
      | _ => s2

/-- The state change of a retirement (R44) with its FAULT alert, and the entry to READ_ONLY when it brings the usable
count below 4 (R45). -/
def retireSegment (s : State) (n : Nat) : State :=
  let s1 := raise (setSegState s n .retired) .fault
  if 4 ≤ usableCount s ∧ usableCount s1 < 4 then enterReadOnly s1 else s1

/-! ### Operations of the array sequencer -/

/-- The engine issues an operation (R3). With a halt request set it issues none (R83). -/
def issue (s : State) (op : SeqOp) : State := if s.eng.haltReq then s else { s with seqr := some op }

end Sys2Proof.Machine
end

