-- ==== Sys2Proof/Machine/Segments.lean ====
section
/-! DEFINITION. The segment manager's sequences: preparing and retiring a segment (R29, R30, R43, R44), choosing and
opening one (R31–R33), and admission's places (R35, R36). -/

namespace Sys2Proof.Machine

/-! ### The preparation sequence -/

/-- Issue the operation of a stage of the preparation sequence or of a retirement; `vid` is the volume id written. -/
def prepIssue (s : State) (n : Nat) (p : PrepStage) (vid : Word) : State :=
  match p with
  | .erase => issue s (.erase n)
  | .spare => issue s (.program ⟨n, 0⟩ (prepLine roleSpare vid (eraseCountOf s n)))
  | .retireRead => issue s (.read ⟨n, 0⟩)
  | .retireProg => issue s (.program ⟨n, 0⟩ (prepLine roleRetired vid (eraseCountOf s n)))

/-- The erase of segment `n` has ended, with either outcome: its erase count rises by 1, saturating at FFFFFFh (R29), and
the dropped-marker counts become 0 if it is the lowest-epoch journal segment, where every counted marker lies (R149). -/
def eraseEnded (s : State) (n : Nat) : State :=
  let s1 := segUpd s n (fun e => { e with eraseCount := min (e.eraseCount + 1) 0xFFFFFF })
  if lowestEpoch s = some n then { s1 with rc.droppedTombs := 0, rc.droppedCommits := 0 } else s1

/-- A valid preparation line of segment `n` has been written: its erase count is KNOWN (R24). -/
abbrev markKnown (s : State) (n : Nat) : State := segUpd s n (fun e => { e with known := true })

/-- The preparation line of segment `n` is programmed: the segment is FREE with a KNOWN count (R29). -/
def segmentPrepared (s : State) (n : Nat) : State := segUpd s n (fun e => { e with st := .free, known := true })

def retirePendingOf (s : State) (n : Nat) : Bool := ((segEntry s n).map SegEntry.retirePending).getD false

/-- The report of the operation that stage `p` of segment `n` issued. `some` is the stage that follows, its operation
issued; `none` says the sequence is over, the segment FREE or RETIRED. A retirement reads line 0 first unless an erase has just
left it ERASED (R44); DEDUCED (log entry 16): it does so after an ERASE FAULT and after a second fault of the SPARE line too. -/
def prepReport (s : State) (n : Nat) (p : PrepStage) (vid : Word) (rep : Report) : State × Option PrepStage :=
  match p, rep with
  | .erase, .eraseDone =>
    let s1 := eraseEnded s n
    let q : PrepStage := if retirePendingOf s1 n then .retireProg else .spare
    (prepIssue s1 n q vid, some q)
  | .erase, .eraseFault => (prepIssue (eraseEnded s n) n .retireRead vid, some .retireRead)
  | .spare, .programDone => (segmentPrepared s n, none)
  | .spare, .programFault _ =>
    -- R30: DIRTY; a second fault begins the retirement (R44), a first repeats the sequence
    let s1 := setSegState (countFault s n) n .dirty
    let q : PrepStage := if retirePendingOf s1 n then .retireRead else .erase
    (prepIssue s1 n q vid, some q)
  | .retireRead, .readDone l =>
    if l = .erased then (prepIssue s n .retireProg vid, some .retireProg) else (retireSegment s n, none)
  | .retireProg, .programDone => (retireSegment (markKnown s n) n, none)
  | .retireProg, .programFault _ => (retireSegment (countFault s n) n, none)
  | p, _ => (s, some p)

/-! ### Opening -/

/-- FREE segments other than `failed`, with their erase counts. -/
def freeSegments (s : State) (failed : Option Nat) : List (Nat × Nat) :=
  s.sm.table.filterMap (fun e => if e.isFree && failed != some e.num then some (e.num, e.eraseCount) else none)

/-- The FREE segment with the lowest erase count, ties to the lowest number (R31). -/
def chooseFree (s : State) (failed : Option Nat) : Option Nat :=
  ((freeSegments s failed).foldl (fun (best : Option (Nat × Nat)) c =>
    match best with
    | none => some c
    | some b => if c.2 < b.2 then some c else some b) none).map Prod.fst

/-- Take an epoch from the next-epoch counter: it rises by 1, and stays at FFFFFFFFh with the exhausted flag set (R27). -/
def takeEpoch (s : State) : State :=
  if s.sm.nextEpoch = 0xFFFFFFFF#32 then { s with sm.exhausted := true }
  else { s with sm.nextEpoch := s.sm.nextEpoch + 1 }

/-- Close the OPEN segment, if there is one (R34). -/
def closeOpen (s : State) : State :=
  match openSegment s with
  | some (n, _) => closeSegment s n
  | none => s

/-- Begin to open segment `n` (R32): the OPEN segment is closed and the opening-line program is issued. -/
def startOpening (s : State) (n : Nat) (failed : Option Nat) : State × Opening :=
  let s1 := closeOpen s
  let ep := s1.sm.nextEpoch
  (issue (takeEpoch s1) (.program ⟨n, 1⟩ (openLine ep s.eng.volId)), ⟨n, ep, failed, none⟩)

/-- How an opening goes on after a report. -/
inductive OpenNext where
  /-- an operation of the opening or of its preparation sequence is still to end -/
  | going (o : Opening)
  /-- the segment is OPEN -/
  | opened
  /-- the first opening of the admission failed and its segment has been prepared or retired -/
  | retry
  /-- a second opening failed: OPEN FAILED (R33) -/
  | failed
  deriving DecidableEq, Repr

/-- The report of an opening's operation (R32, R33). -/
def openReport (s : State) (o : Opening) (rep : Report) : State × OpenNext :=
  match o.prep with
  | none =>
    match rep with
    | .programDone => (setSegState s o.seg (.opened ⟨o.epoch, 2, 0, 0, 0⟩), .opened)
    | .programFault _ =>
      let s1 := setSegState (countFault s o.seg) o.seg .dirty
      (prepIssue s1 o.seg .erase s.eng.volId, .going { o with prep := some .erase })
    | _ => (s, .going o)
  | some p =>
    let r := prepReport s o.seg p s.eng.volId rep
    match r.2 with
    | some q => (r.1, .going { o with prep := some q })
    | none => (r.1, if o.failed.isSome then .failed else .retry)

/-! ### Admission (R35) -/

/-- What admission finds. -/
inductive Place where
  /-- the OPEN segment has room: the record's place -/
  | room (l : Loc)
  /-- a segment must be opened and this one may be -/
  | openOne (n : Nat)
  /-- the next-epoch counter is exhausted (R27) -/
  | noEpoch
  /-- no segment can be opened -/
  | noSegment
  deriving DecidableEq, Repr

/-- Steps 1 and 2 of R35 for `n` lines; `need` is the FREE count required (R36): 2 for a command, 1 for a reclaim copy. -/
def findPlace (s : State) (n need : Nat) (failed : Option Nat) : Place :=
  match openSegment s with
  | some (seg, j) => if n ≤ 256 - j.wp then .room ⟨seg, j.wp⟩ else findFree
  | none => findFree
where
  findFree : Place :=
    if s.sm.exhausted then .noEpoch
    else if need ≤ freeCount s then
      match chooseFree s failed with
      | some k => .openOne k
      | none => .noSegment
    else .noSegment

/-- Reclaim can gain space (R35 step 3): a segment is RECLAIMING, or a candidate has dead lines. -/
def canGain (s : State) : Bool := s.rc.ctx.isSome || (candidates s).any (fun c => decide (0 < c.2.dead))

end Sys2Proof.Machine
end

