-- ==== Sys2Proof/Machine/Append.lean ====
section
/-! DEFINITION. The append path of commands (chapter 5): admission, ASSIGN, the line programs, PUBLISH, and what a fault,
an abort, a lost batch or a halt makes of them; the records of PUT, DELETE, BATCH_COMMIT and FREEZE. -/

namespace Sys2Proof.Machine

/-! ### The record of a command -/

/-- The value bytes of a PUT (R91, R92): from the staging buffer, or from the request frame in the slot. -/
def putValue (s : State) (c : Ctx) (len buf : Nat) : List Byte :=
  match c.origin with
  | .host _ => stagingBytes s buf len
  | .mgmt b _ =>
    match slotOf s b with
    | .running _ f => frameValue f
    | _ => []

/-- The batch id of a record (R90): that of the open batch for a member write, 0 otherwise. -/
def recordBid (s : State) (member : Bool) : Word := if member then (s.batch.map Batch.bid).getD 0 else 0

/-- The keys of the open batch in member-list order. -/
def memberKeys (s : State) : List Key := ((s.batch.map Batch.members).getD []).map Member.key

/-- The extent of the record a command appends (R90, R118, R63). -/
def appendExtent (s : State) : Cmd → Nat
  | .put _ len _ _ => extentOf len
  | .delete .. => extentOf 0
  | .batchCommit => extentOf (5 + 2 * (memberKeys s).length)
  | .freeze .. => extentOf 4
  | _ => 0

/-- The lines of the record a command appends, built at ASSIGN (R90, R118, R63). -/
def buildRecord (s : State) (c : Ctx) (seq : Word) : List LineBits :=
  match c.cmd with
  | .put key len buf m => recordLines .value key seq (recordBid s m) (putValue s c len buf)
  | .delete key m => recordLines .tombstone key seq (recordBid s m) []
  | .batchCommit => recordLines .commit 0 seq 0 (commitValue (recordBid s true) (memberKeys s))
  | .freeze lo hi => recordLines .freeze 0 seq 0 (freezeValue lo hi)
  | _ => []

/-- The place of line `k` of a record at `l`. -/
def Loc.plus (l : Loc) (k : Nat) : Loc := ⟨l.seg, l.line + k⟩

/-- ASSIGN (R94): the sequence is taken unless the context holds one, the lines are built unless it holds them, and the
header-line program is issued. -/
def assign (s : State) (l : Loc) : State :=
  match s.inflight with
  | none => s
  | some c =>
    let seq := c.seq.getD s.eng.seqCtr
    let s1 : State := match c.seq with
      | some _ => s
      | none => { s with eng.seqCtr := s.eng.seqCtr + 1 }
    let lines := if c.lines.isEmpty then buildRecord s c seq else c.lines
    let s2 := modCtx s1 (fun c => { c with seq := some seq, lines := lines, place := l, stage := .header })
    issue { s2 with holder := .command } (.program l (lines.getD 0 0))

/-! ### Admission of a command's append -/

/-- The command ends because its batch is gone (R106, R121). A BATCH_COMMIT's waiting teardown is made first. -/
def loseBatch (s : State) : State :=
  match s.inflight with
  | none => s
  | some c => completeFail (if c.cmd = .batchCommit then teardown s false else s) .noBatch

/-- No segment can be opened for a command's append (R35 steps 3 and 4): WAIT_SPACE or STORE_FULL. -/
def waitOrFull (s : State) : State :=
  if canGain s then { setStage s (.waitSpace false) with holder := .none } else completeFail s .storeFull

/-- Admission of the in-flight command's append (R35, R93), from its first step; `failed` names a segment whose opening
failed in this admission. -/
def admitCommand (s : State) (failed : Option Nat) : State :=
  match s.inflight with
  | none => s
  | some c =>
    match findPlace s (appendExtent s c.cmd) 2 failed with
    | .room l => assign s l
    | .openOne n =>
      let r := startOpening s n failed
      { setStage r.1 (.admission r.2) with holder := .command }
    | .noEpoch => completeFail (enterReadOnly s) .readOnly
    | .noSegment => waitOrFull s

/-! ### Abandonment and publishing -/

/-- The record in progress is abandoned: its whole extent counts dead and the write pointer passes it (R28, R40). -/
def abandonRecord (s : State) : State :=
  match s.inflight with
  | none => s
  | some c => accountDead s c.place.seg c.lines.length

/-- BATCH_COMMIT's effect at its commit line (R119). -/
def commitBatch (s : State) (c : Ctx) : State :=
  match s.batch with
  | none => accountDead s c.place.seg c.lines.length
  | some b =>
    let s1 := accountLive s c.place.seg c.lines.length
    let s2 := clearPins (promoteAll s1 b.members)
    { s2 with commits := commitInsert ⟨b.bid, c.place⟩ s2.commits, batch := none }

/-- The result of a published append (R103, R119, R63). DESIGN CHOICE (log entry 41): the length of a BATCH_COMMIT is 0. -/
def publishedResult (s : State) (c : Ctx) : Result :=
  match c.cmd with
  | .put _ len _ _ => ⟨.ok, len, c.seq.getD 0, 0, false, false, c.retried⟩
  | .batchCommit => ⟨.ok, 0, c.seq.getD 0, (memberKeys s).length, false, false, c.retried⟩
  | _ => ⟨.ok, 0, c.seq.getD 0, 0, false, false, c.retried⟩

/-- The part that a VALUE or TOMBSTONE record becomes. -/
def Ctx.part (c : Ctx) (tomb : Bool) (len : Nat) : Part := ⟨tomb, c.place, len, c.seq.getD 0, false⟩

/-- PUBLISH (R100, R102, R63, R119): the table that takes the record, at its commit line's PROGRAM DONE. -/
def publish (s : State) (c : Ctx) : State :=
  match c.cmd with
  | .put key len _ member =>
    if member then publishPending s key (c.part false len) else publishCommitted s key (c.part false len)
  | .delete key member =>
    if member then publishPending s key (c.part true 0) else publishCommitted s key (c.part true 0)
  | .freeze lo hi =>
    let s1 := accountLive s c.place.seg c.lines.length
    { s1 with freezes := freezeInsert ⟨lo, hi, c.place⟩ s1.freezes }
  | .batchCommit => commitBatch s c
  | _ => s

/-! ### Reports of the append's line programs -/

/-- The index of the line in progress: 0 the header, then the data lines, last the commit line. -/
def Stage.lineIndex : Stage → List LineBits → Nat
  | .data k, _ => k
  | .commit, lines => lines.length - 1
  | _, _ => 0

/-- The stage of line `i` of a record of `n` lines. -/
def stageOfLine (i n : Nat) : Stage := if i + 1 = n then .commit else if i = 0 then .header else .data i

/-- PROGRAM DONE of a line of the record (R95, R96): the next line, or PUBLISH after the commit line. A stopping command
and a member write whose batch is gone are abandoned instead (R82, R106). -/
def appendDone (s : State) (c : Ctx) : State :=
  let i := c.stage.lineIndex c.lines
  if c.stopping then completeFail (abandonRecord s) .aborted
  else if c.batchLost then completeFail (abandonRecord s) .noBatch
  else if c.stage = .commit then complete (publish s c) (publishedResult s c)
  else
    issue (setStage s (stageOfLine (i + 1) c.lines.length)) (.program (c.place.plus (i + 1)) (c.lines.getD (i + 1) 0))

/-- PROGRAM FAULT of a line of the record (R97): the fault is counted, the record abandoned and the segment closed; then
ABORTED, NO_BATCH, HALTED, MEDIA_FAULT or the one restart (R98, R99), tested in that order. -/
def appendFault (s : State) (c : Ctx) : State :=
  let s1 := closeSegment (abandonRecord (countFault s c.place.seg)) c.place.seg
  if c.stopping then completeFail s1 .aborted
  else if c.batchLost then completeFail s1 .noBatch
  else if s.eng.haltReq then completeFail s1 .halted
  else if c.retried then completeFail s1 .mediaFault
  else admitCommand (modCtx s1 (fun c => { c with retried := true })) none

/-- The context of a command whose opening is reported OPEN FAILED: a BATCH_COMMIT completes with RETRIED (R120), any other
command with RETRIED if it restarted (R103). DEDUCED (log entry 35): R120 holds of a first admission as well. -/
def Ctx.openFailed (c : Ctx) : Ctx := { c with retried := c.retried || c.cmd == .batchCommit }

@[simp] theorem Ctx.openFailed_origin (c : Ctx) : c.openFailed.origin = c.origin := rfl

@[simp] theorem Ctx.openFailed_cmd (c : Ctx) : c.openFailed.cmd = c.cmd := rfl

@[simp] theorem Ctx.openFailed_stage (c : Ctx) : c.openFailed.stage = c.stage := rfl

/-- The opening made for the in-flight command's append goes on (R33, R82, R93, R106, R120, R121). A halted command is left
for the halt's entry to complete (R84). -/
def openingNext (r : State × OpenNext) (c : Ctx) (o : Opening) : State :=
  match r.2 with
  | .going o' => setStage r.1 (.admission o')
  | n =>
    if c.stopping then completeFail r.1 .aborted
    else if c.batchLost then loseBatch r.1
    else if r.1.eng.haltReq then r.1
    else match n with
      | .opened => assign r.1 ⟨o.seg, 2⟩
      | .retry => admitCommand r.1 (some o.seg)
      | _ => completeFail (modCtx r.1 Ctx.openFailed) .mediaFault

/-- A report for the in-flight command's append. -/
def appendReport (s : State) (c : Ctx) (rep : Report) : State :=
  match c.stage with
  | .admission o => openingNext (openReport s o rep) c o
  | _ =>
    match rep with
    | .programDone => appendDone s c
    | .programFault _ => appendFault s c
    | _ => s

end Sys2Proof.Machine
end

