-- ==== Sys2Proof/Machine/Reads.lean ====
section
/-! DEFINITION. Reading (chapter 7): STAT, GET and LIST over the committed parts of the directory. -/

namespace Sys2Proof.Machine

/-- The sixteen bytes a line read gives (R4): FFh for an ERASED line, the content of a GOOD one. A TORN line returns no
content; where a rule takes bytes from it all the same they are a free value (log entry 4). -/
def readContent (s : State) : Line → List Byte × State
  | .erased => (List.replicate 16 0xFF, s)
  | .good c => (lineBytes c, s)
  | .torn => (lineBytes (Config.freeContent s.free), { s with free := s.free + 1 })

/-- The committed part of a key, if it is present (R49). -/
def presentPart (s : State) (key : Key) : Option Part :=
  match (dirLookup s.dir key).bind DirEntry.committed with
  | some p => if p.tomb then none else some p
  | none => none

/-- The key's entry has a pending part (R49). -/
def isHeld (s : State) (key : Key) : Bool := ((dirLookup s.dir key).map DirEntry.held).getD false

/-- STAT's result (R134). -/
def statResult (s : State) (key : Key) : Result :=
  match presentPart s key with
  | some p => ⟨.ok, p.len, p.seq, 0, false, isHeld s key, false⟩
  | none => ⟨.notFound, 0, 0, 0, false, isHeld s key, false⟩

/-- The result of a GET or LIST that ends with `st`: what has been placed so far, and a GET's committed sequence (R132,
R136). -/
def readResult (c : Ctx) (st : Status) : Result :=
  match c.cmd with
  | .list .. => ⟨st, 3 * c.job.placed, 0, c.job.placed, false, false, false⟩
  | _ => ⟨st, c.job.placed, c.job.seq, 0, false, false, false⟩

def modJob (s : State) (f : ReadJob → ReadJob) : State := modCtx s (fun c => { c with job := f c.job })

/-- Place bytes: in the host's staging buffer from byte `i`, or at the end of the response being gathered (R132, R133,
R136). -/
def placeBytes (s : State) (c : Ctx) (buf i : Nat) (v : List Byte) : State :=
  match c.origin with
  | .host _ => stagingWriteList s buf i v
  | .mgmt .. => modJob s (fun j => { j with out := j.out ++ v })

/-! ### GET -/

/-- A GET that has passed its state check (R131). -/
def startGet (s : State) (key : Key) : State :=
  match presentPart s key with
  | none => complete s (Result.bare .notFound)
  | some p =>
    if p.len = 0 then complete s ⟨.ok, 0, p.seq, 0, false, false, false⟩
    else
      let s1 := setStage (modJob s (fun j => { j with loc := p.loc, len := p.len, seq := p.seq, k := 1, placed := 0 })) .read
      issue { s1 with holder := .command } (.read (p.loc.plus 1))

/-- READ DONE of a GET's data line (R131, R132, R139). -/
def getReport (s : State) (c : Ctx) (buf : Nat) (l : Line) : State :=
  if c.stopping then complete s (readResult c .aborted)
  else
    let r := readContent s l
    let v := r.1.take (c.job.len - c.job.placed)
    let s1 := placeBytes r.2 c buf c.job.placed v
    let s2 := modJob s1 (fun j => { j with placed := j.placed + v.length, k := j.k + 1 })
    if c.job.k < dataLineCount c.job.len then issue s2 (.read (c.job.loc.plus (c.job.k + 1)))
    else complete s2 ⟨.ok, c.job.len, c.job.seq, 0, false, false, false⟩

/-! ### LIST -/

/-- The result of a LIST whose walk has ended (R135, R136). -/
def listDone (placed : Nat) (endFlag : Bool) : Result := ⟨.ok, 3 * placed, 0, placed, endFlag, false, false⟩

/-- Read the header of the next present key (R135). -/
def listNext (s : State) (key : Key) (p : Part) : State :=
  issue (modJob s (fun j => { j with key := key, loc := p.loc, len := p.len })) (.read p.loc)

/-- A LIST that has passed its state check (R135). -/
def startList (s : State) (after : Key) : State :=
  match successor s.dir after with
  | none => complete s (listDone 0 true)
  | some (k, p) => listNext { setStage (modJob s (fun j => { j with placed := 0 })) .read with holder := .command } k p

/-- The three bytes of an entry (R136), from the header read; it carries what the directory holds (R135). -/
def listEntry (j : ReadJob) (l : Line) : List Byte :=
  match parseHeader l with
  | some h => be16 h.key ++ [byteOf h.len]
  | none => be16 j.key ++ [byteOf j.len]

/-- READ DONE of a LIST's header line (R135, R136, R139). -/
def listReport (s : State) (c : Ctx) (buf count : Nat) (l : Line) : State :=
  if c.stopping then complete s (readResult c .aborted)
  else
    let s1 := placeBytes s c buf (3 * c.job.placed) (listEntry c.job l)
    let n := c.job.placed + 1
    let s2 := modJob s1 (fun j => { j with placed := n })
    match successor s.dir c.job.key with
    | none => complete s2 (listDone n true)
    | some (k, p) => if n < count then listNext s2 k p else complete s2 (listDone n false)

end Sys2Proof.Machine
end

