-- ==== Sys2Proof/Machine/Reclaim.lean ====
section
/-! DEFINITION. Reclaim (chapter 8): the victim choice, the walk, copies, the finish step, and how a victim's end reaches
its trigger. -/

namespace Sys2Proof.Machine

def modRc (s : State) (f : Reclaim → Reclaim) : State := { s with rc.ctx := s.rc.ctx.map f }

/-! ### Choosing a victim (R144) -/

/-- The candidate with the most dead lines, ties to the lowest epoch; only if its dead lines are above 0. -/
def mostDead (s : State) : Option Nat :=
  match (candidates s).foldl (fun (best : Option (Nat × Journal)) c =>
      match best with
      | none => some c
      | some b =>
        if b.2.dead < c.2.dead ∨ (c.2.dead = b.2.dead ∧ c.2.epoch < b.2.epoch) then some c else some b) none with
  | some (n, j) => if 0 < j.dead then some n else none
  | none => none

/-- The victim that R144 chooses: oldest mode from 48 commit-table entries up, most-dead mode otherwise. -/
def chooseVictim (s : State) : Option Nat :=
  if 48 ≤ s.commits.length then
    match lowestEpoch s with
    | some n => if (candidates s).any (fun c => c.1 == n) then some n else mostDead s
    | none => mostDead s
  else mostDead s

/-- The victim becomes RECLAIMING and the context is created (R141). -/
def startVictim (s : State) (v : Nat) : State :=
  let s1 := segUpd s v (fun e => { e with st := match e.st with
    | .closed j => .reclaiming j
    | st => st })
  { s1 with rc.ctx := some ⟨v, .walk, 2, 0, false, none, .idle⟩ }

/-! ### The end of a victim (R143, R151–R154) -/

/-- How a victim leaves RECLAIMING. -/
inductive VictimEnd where
  | freed | retired | noSegment | copyFaulted
  deriving DecidableEq, Repr

/-- The result of a RECLAIM command (R143). -/
def reclaimResult (r : Reclaim) (st : Status) (count : Nat) : Result := ⟨st, 0, 0, count, false, false, r.copyRetried⟩

/-- What a RECLAIM command reports for the end of its victim (R143). -/
def victimResult (r : Reclaim) : VictimEnd → Result
  | .freed => reclaimResult r .ok (254 - r.copied)
  | .retired => reclaimResult r .ok 0
  | .noSegment => reclaimResult r .readOnly 0
  | .copyFaulted => reclaimResult r .mediaFault 0

/-- An abandoned victim returns from RECLAIMING to CLOSED with its counts (R151, R152). -/
def returnVictim (s : State) (v : Nat) : State :=
  segUpd s v (fun e => { e with st := match e.st with
    | .reclaiming j => .closed j
    | st => st })

/-- The trigger that stands is told (R154): a RECLAIM command completes; a waiting command may take the array back, but
completes READ_ONLY when the reclaim was abandoned for want of a segment (R152), also in a store that was READ_ONLY
before (log entry 19). -/
def tellTrigger (s : State) (res : Result) : State :=
  match s.inflight with
  | none => s
  | some c =>
    match c.stage with
    | .reclaim => complete s res
    | .waitSpace _ => if res.status = .readOnly then completeFail s .readOnly else setStage s (.waitSpace true)
    | _ => s

/-- The victim leaves RECLAIMING: the context is discarded, the array is released, and the trigger is told. Reclaim
abandoned for want of a segment moves a READY store to READ_ONLY (R152). -/
def victimLeaves (s : State) (r : Reclaim) (e : VictimEnd) : State :=
  let s1 : State := { s with rc.ctx := none, holder := .none }
  let s2 := match e with
    | .freed => s1
    | .retired => s1
    | .noSegment => enterReadOnly (returnVictim s1 r.victim)
    | .copyFaulted => returnVictim s1 r.victim
  tellTrigger s2 (victimResult r e)

/-! ### The walk (R146, R147) -/

/-- The step releases the array; nothing of a copy is kept. -/
def releaseStep (s : State) : State :=
  { modRc s (fun r => { r with step := .idle, attempt := none }) with holder := .none }

/-- The step ends and the cursor passes `e` lines. -/
def passRecord (s : State) (e : Nat) : State := releaseStep (modRc s (fun r => { r with cursor := r.cursor + e }))

/-- The walk ends: the next step is the finish step (R146). -/
def endWalk (s : State) : State := releaseStep (modRc s (fun r => { r with phase := .finish }))

/-- What the walk does with a record (R147). -/
inductive Fate where
  | passed | dropped | copied
  deriving DecidableEq, Repr

/-- The liveness test of R147 for the record with header `h` at `l` in victim `l.seg`. -/
def fateOf (s : State) (h : Hdr) (l : Loc) : Fate :=
  let low := lowestEpoch s = some l.seg
  match h.kind with
  | .value => if dirNames s h.key l then .copied else .passed
  | .tombstone =>
    if dirNames s h.key l then (if low ∧ !dirShadowed s h.key then .dropped else .copied) else .passed
  | .commit => if commitNames s l then (if low then .dropped else .copied) else .passed
  | .freeze => if freezeNames s l then .copied else .passed

/-- A live TOMBSTONE or COMMIT record is dropped (R57, R126, R149): its table entry goes, its extent counts dead, and the
dropped-marker count of its kind rises. -/
def dropRecord (s : State) (h : Hdr) (l : Loc) : State :=
  let s1 := killLines s l.seg (extentOf h.len)
  match h.kind with
  | .tombstone => { dropTombstone s1 h.key with rc.droppedTombs := s1.rc.droppedTombs + 1 }
  | .commit =>
    { s1 with commits := s1.commits.filter (fun c => c.loc != l), rc.droppedCommits := s1.rc.droppedCommits + 1 }
  | .value => s1
  | .freeze => s1

/-! ### Copies (R150–R152) -/

/-- The lines of a copy (R150): the original's header with batch id 0, its value bytes, its commit line. -/
def copyLines (a : Attempt) : List LineBits :=
  headerLine { a.hdr with bid := 0 }
    :: (dataLines (a.value.take a.hdr.len) ++ [commitLine a.hdr.seq (extentOf a.hdr.len)])

/-- The copy is placed and its header-line program is issued. -/
def placeCopy (s : State) (a : Attempt) (l : Loc) : State :=
  issue (modRc s (fun r => { r with attempt := some { a with place := l }, step := .program 0 }))
    (.program l (a.lines.getD 0 0))

/-- Admission of a copy (R35, R150), which needs 1 FREE segment (R36). With a halt request set the copy goes no further
(R156). -/
def admitCopy (s : State) (r : Reclaim) (a : Attempt) (failed : Option Nat) : State :=
  if s.eng.haltReq then releaseStep s
  else
    match findPlace s (extentOf a.hdr.len) 1 failed with
    | .room l => placeCopy s a l
    | .openOne n =>
      let o := startOpening s n failed
      modRc o.1 (fun r => { r with attempt := some a, step := .admission o.2 })
    | .noEpoch => victimLeaves s r .noSegment
    | .noSegment => victimLeaves s r .noSegment

/-- The copy's lines are built (R150) and it passes admission. -/
def buildCopy (s : State) (r : Reclaim) (a : Attempt) : State :=
  let a' := { a with lines := copyLines a }
  admitCopy (modRc s (fun r => { r with attempt := some a' })) r a' none

/-- A live record is to be copied: its data lines are read first (R150). -/
def startCopy (s : State) (r : Reclaim) (h : Hdr) (l : Loc) : State :=
  let a : Attempt := ⟨l, h, [], [], false, l⟩
  if dataLineCount h.len = 0 then buildCopy s r a
  else issue (modRc s (fun r => { r with attempt := some a, step := .dataRead 1 })) (.read (l.plus 1))

/-- READ DONE of a data line of the record being copied. -/
def copyData (s : State) (r : Reclaim) (a : Attempt) (k : Nat) (l : Line) : State :=
  let c := readContent s l
  let a' := { a with value := a.value ++ c.1 }
  if k < dataLineCount a.hdr.len then
    issue (modRc c.2 (fun r => { r with attempt := some a', step := .dataRead (k + 1) })) (.read (a.orig.plus (k + 1)))
  else buildCopy c.2 r a'

/-- The table that names the original, by the record's kind (R56, R64, R126). -/
def namesOriginal (s : State) (a : Attempt) : Bool :=
  match a.hdr.kind with
  | .value => dirNames s a.hdr.key a.orig
  | .tombstone => dirNames s a.hdr.key a.orig
  | .commit => s.commits.any (fun c => c.bid == word32At a.value 0 && c.loc == a.orig)
  | .freeze => freezeNames s a.orig

/-- The entry that names the original takes the copy's location (R56, R64, R126). -/
def repoint (s : State) (a : Attempt) : State :=
  match a.hdr.kind with
  | .value => dirRepoint s a.hdr.key a.place
  | .tombstone => dirRepoint s a.hdr.key a.place
  | .commit =>
    { s with commits := s.commits.map (fun c =>
        if c.bid = word32At a.value 0 ∧ c.loc = a.orig then { c with loc := a.place } else c) }
  | .freeze => { s with freezes := s.freezes.map (fun f => if f.loc = a.orig then { f with loc := a.place } else f) }

/-- The copy's commit line has completed (R151): MATCHED re-points and the copy counts live, STALE leaves it dead. -/
def copyComplete (s : State) (r : Reclaim) (a : Attempt) : State :=
  let e := extentOf a.hdr.len
  let s1 :=
    if namesOriginal s a then killLines (accountLive (repoint s a) a.place.seg e) r.victim e
    else accountDead s a.place.seg e
  passRecord (modRc s1 (fun r => { r with copied := r.copied + e })) e

/-- PROGRAM DONE of line `k` of the copy. -/
def copyDone (s : State) (r : Reclaim) (a : Attempt) (k : Nat) : State :=
  if k + 1 < a.lines.length then
    issue (modRc s (fun r => { r with step := .program (k + 1) })) (.program (a.place.plus (k + 1)) (a.lines.getD (k + 1) 0))
  else copyComplete s r a

/-- PROGRAM FAULT on a line of the copy (R151, R156): abandoned, and restarted once unless a halt is due. -/
def copyFault (s : State) (r : Reclaim) (a : Attempt) : State :=
  let s1 := closeSegment (accountDead (countFault s a.place.seg) a.place.seg (extentOf a.hdr.len)) a.place.seg
  if s.eng.haltReq then releaseStep s1
  else if a.retried then victimLeaves s1 r .copyFaulted
  else
    let a' := { a with retried := true }
    let r' := { r with copyRetried := true, attempt := some a' }
    admitCopy { s1 with rc.ctx := some r' } r' a' none

/-- The opening made for a copy goes on (R33, R151). -/
def copyOpening (x : State × OpenNext) (r : Reclaim) (a : Attempt) (o : Opening) : State :=
  match x.2 with
  | .going o' => modRc x.1 (fun r => { r with step := .admission o' })
  | .opened => if x.1.eng.haltReq then releaseStep x.1 else placeCopy x.1 a ⟨o.seg, 2⟩
  | .retry => admitCopy x.1 r a (some o.seg)
  | .failed => victimLeaves x.1 r .noSegment

/-! ### Reports of a reclaim step -/

/-- READ DONE of the header at the cursor (R146). -/
def walkHeader (s : State) (r : Reclaim) (l : Line) : State :=
  match parseHeader l with
  | none => endWalk s
  | some h =>
    let loc : Loc := ⟨r.victim, r.cursor⟩
    match fateOf s h loc with
    | .passed => passRecord s (extentOf h.len)
    | .dropped => passRecord (dropRecord s h loc) (extentOf h.len)
    | .copied => startCopy s r h loc

/-- The victim has ended FREE rather than RETIRED. -/
def victimFreed (s : State) (v : Nat) : Bool := ((segEntry s v).map SegEntry.isFree).getD false

/-- A report for the finish step's preparation sequence (R153). -/
def finishReport (s : State) (r : Reclaim) (p : PrepStage) (rep : Report) : State :=
  let x := prepReport s r.victim p s.eng.volId rep
  match x.2 with
  | some q => modRc x.1 (fun r => { r with step := .finish q })
  | none => victimLeaves x.1 r (if victimFreed x.1 r.victim then .freed else .retired)

/-- A report for the reclaim step that holds the array. -/
def reclaimReport (s : State) (r : Reclaim) (rep : Report) : State :=
  match r.step, r.attempt, rep with
  | .header, _, .readDone l => walkHeader s r l
  | .dataRead k, some a, .readDone l => copyData s r a k l
  | .admission o, some a, rep => copyOpening (openReport s o rep) r a o
  | .program k, some a, .programDone => copyDone s r a k
  | .program _, some a, .programFault _ => copyFault s r a
  | .finish p, _, rep => finishReport s r p rep
  | _, _, _ => s

/-! ### Grants of reclaim steps (R74, R76) -/

/-- The array is free and the arbiter may grant (R74): nothing in HALTED or while a reset or a halt waits. -/
def arrayFree (s : State) : Bool :=
  s.seqr.isNone && s.holder == .none && !s.eng.haltReq && !s.ctl.srst && !s.pins.resetLow

/-- A volume is mounted and its commands are executed. -/
def serving (s : State) : Bool := s.eng.store == .ready || s.eng.store == .readOnly

/-- Claim 2 of R74: reclaim is on demand. -/
def onDemand (s : State) : Bool :=
  match s.inflight with
  | some c => c.stage == .waitSpace false || c.stage == .reclaim
  | none => false

/-- The host head (R74). -/
def hostHead (s : State) : Option QEntry := s.host.queue.head?

/-- The arrival number of a WAITING slot that holds a command. -/
def Slot.waitingArrival : Slot → Option Nat
  | .waiting a b => if (frameCmd b).isSome then some a else none
  | _ => none

/-- The management head: the WAITING slot with the lower arrival number (R74, R197). -/
def mgmtHead (s : State) : Option Bool :=
  match s.mgmt.slotA.waitingArrival, s.mgmt.slotB.waitingArrival with
  | some a, some b => some (decide (b < a))
  | some _, none => some false
  | none, some _ => some true
  | none, none => none

/-- Claim 5 of R74 may stand: no command in flight and neither queue has a head. -/
def background (s : State) : Bool := s.inflight.isNone && (hostHead s).isNone && (mgmtHead s).isNone

/-- Background reclaim may start a new victim (R76). -/
def mayStartVictim (s : State) : Bool :=
  s.eng.store == .ready && s.ctl.bgren && decide (freeCount s ≤ s.ctl.recthr) && decide (1 ≤ freeCount s)
    && (candidates s).any (fun c => decide (0 < c.2.dead))

/-- A reclaim step may be granted: under claim 2, or under claim 5. -/
def stepGranted (s : State) : Bool := arrayFree s && serving s && (onDemand s || background s)

/-- A walk step at the cursor (R146): no read when the cursor has reached the write pointer. -/
def walkStep (s : State) (r : Reclaim) : State :=
  if ((journalOf s r.victim).map Journal.wp).getD 256 ≤ r.cursor then endWalk s
  else
    issue { modRc s (fun r => { r with step := .header }) with holder := .reclaim } (.read ⟨r.victim, r.cursor⟩)

/-- The grant of a walk step, which chooses the victim if there is none (R142, R144, R145). -/
def grantWalk (s : State) : State :=
  match s.rc.ctx with
  | some r => if r.phase = .walk then walkStep s r else s
  | none =>
    if onDemand s || mayStartVictim s then
      match chooseVictim s with
      | some v => walkStep (startVictim s v) ⟨v, .walk, 2, 0, false, none, .idle⟩
      | none => s
    else s

/-- The stage at which a finish step starts, or resumes after a halt (R153, R156). -/
def Reclaim.finishStage (r : Reclaim) : PrepStage :=
  match r.step with
  | .finish p => p
  | _ => .erase

/-- The grant of the finish step. -/
def grantFinish (s : State) : State :=
  match s.rc.ctx with
  | some r =>
    if r.phase = .finish then
      prepIssue { modRc s (fun r => { r with step := .finish r.finishStage }) with holder := .reclaim } r.victim
        r.finishStage s.eng.volId
    else s
  | none => s

/-- The meaning of RECLAIM_WALK_STEP. -/
def reclaimWalkStep (s : State) : State := if stepGranted s then grantWalk s else s

/-- The meaning of RECLAIM_FINISH_STEP. -/
def reclaimFinishStep (s : State) : State := if stepGranted s then grantFinish s else s

/-! ### The RECLAIM command (R143) -/

/-- A RECLAIM command that has passed its state check. -/
def startReclaim (s : State) : State :=
  match s.rc.ctx with
  | some _ => setStage s .reclaim
  | none =>
    match chooseVictim s with
    | some v => setStage (startVictim s v) .reclaim
    | none => complete s (Result.bare .ok)

end Sys2Proof.Machine
end

