-- ==== Sys2Proof/Machine/Mount.lean ====
section
/-! DEFINITION. Mount (chapter 9): SURVEY, COLLECT, REPLAY, ACCOUNT and SETTLE, one line read or array operation at a
time, and the end of a mount. -/

namespace Sys2Proof.Machine

def modMu (s : State) (f : MountUnit → MountUnit) : State := { s with mu := f s.mu }

/-- Every table is emptied and the counters and the volume id become 0 (R159, R168, R170). -/
def emptyTables (s : State) : State :=
  { emptyTable s with dir := [], freezes := [], commits := [], eng.seqCtr := 0, eng.volId := 0 }

/-- A mount begins (R159): the store is MOUNTING, every table is empty, and SURVEY reads line 0 of segment 0. -/
def mountStart (s : State) : State :=
  let s1 := emptyTables s
  issue { s1 with eng.store := .mounting, eng.mountRes := .none, rc := ⟨none, 0, 0⟩, fu := none, holder := .mount,
                  mu := { MountUnit.reset with phase := .survey } } (.read ⟨0, 0⟩)

/-! ### The end of a mount (R168, R169) -/

/-- The store state a mount result gives (R68). -/
def storeAfterMount (s : State) : MountResult → StoreState
  | .ok => if 4 ≤ usableCount s then .ready else .readOnly
  | .blank => .unmounted
  | _ => .failed

/-- The completion of a MOUNT command at the end of its mount (R169). -/
def mountResult (s : State) : MountResult → Result
  | .ok => ⟨.ok, 0, s.eng.volId, usableCount s, false, false, false⟩
  | _ => Result.bare .notReady

/-- A MOUNT command in flight completes. -/
def tellMounter (s : State) (r : Result) : State :=
  match s.inflight with
  | some c => if c.stage = .mount then complete s r else s
  | none => s

/-- A mount ends with result `m` (R168). -/
def mountEnd (s : State) (m : MountResult) : State :=
  let st := storeAfterMount s m
  let s1 := if m = .ok then { s with eng.volId := s.mu.foundVid } else emptyTables s
  let s2 : State := { s1 with eng.store := st, eng.mountRes := m, holder := .none, mu := { s1.mu with phase := .idle } }
  let s3 := raise s2 .mounted
  let s4 := if st = .readOnly then raise s3 .rdOnly else s3
  tellMounter s4 (mountResult s4 m)

/-! ### SETTLE (R167) -/

def SegEntry.isDirty (e : SegEntry) : Bool := e.st == .dirty

/-- The next DIRTY segment in ascending number is erased and prepared; with none left the mount ends OK. -/
def settleNext (s : State) : State :=
  match s.sm.table.find? SegEntry.isDirty with
  | some e =>
    prepIssue (modMu s (fun m => { m with phase := .settle, settling := some (e.num, .erase) })) e.num .erase s.mu.foundVid
  | none => mountEnd (modMu s (fun m => { m with phase := .settle, settling := none })) .ok

/-- A report for the preparation sequence of a DIRTY segment. -/
def settleReport (s : State) (rep : Report) : State :=
  match s.mu.settling with
  | none => s
  | some (n, p) =>
    let x := prepReport s n p s.mu.foundVid rep
    match x.2 with
    | some q => modMu x.1 (fun m => { m with settling := some (n, q) })
    | none => settleNext x.1

/-! ### ACCOUNT (R166) -/

/-- The lines of segment `n` that the tables name. -/
def namedLines (s : State) (n : Nat) : Nat :=
  ((s.dir.filterMap DirEntry.committed).map (fun p => if p.loc.seg = n then extentOf p.len else 0)).sum
  + (s.commits.map (fun c =>
      if c.loc.seg = n then ((s.mu.extents.find? (fun x => x.1 == c.bid)).map Prod.snd).getD 0 else 0)).sum
  + (s.freezes.map (fun f => if f.loc.seg = n then 3 else 0)).sum

/-- The journal segment with the highest epoch: the last of the journal order. -/
def newestJournal (s : State) : Option Nat := s.mu.order.getLast?

/-- The journal fields ACCOUNT gives a segment with write pointer `wp`, of whose lines the tables name `named`: the record
lines below the pointer that are not live are dead (R166). No more lines are live than lie there (log entry 25). -/
def Journal.accounted (j : Journal) (wp named : Nat) : Journal :=
  { j with wp := 2 + (wp - 2), live := min named (wp - 2), dead := (wp - 2) - min named (wp - 2), pins := 0 }

/-- The state ACCOUNT gives a journal segment (R166). -/
def accountState (s : State) (n : Nat) : SegState → SegState
  | .closed j =>
    if newestJournal s = some n ∧ j.wp < 256 ∧ n ∉ s.mu.stopped then .opened (j.accounted j.wp (namedLines s n))
    else .closed (j.accounted 256 (namedLines s n))
  | st => st

/-- ACCOUNT, and then SETTLE. -/
def account (s : State) : State :=
  settleNext { s with sm.table := s.sm.table.map (fun e => { e with st := accountState s e.num e.st }) }

/-! ### REPLAY (R164, R165) -/

/-- The last segment has been replayed: the sequence counter is set (R165). -/
def replayEnd (s : State) : State :=
  account (modMu { s with eng.seqCtr := match s.mu.highest with
    | some h => h + 1
    | none => 1 } (fun m => { m with phase := .account }))

/-- The next VALUE or TOMBSTONE record is read. -/
def replayNext (s : State) : State :=
  match s.mu.todo with
  | [] => replayEnd s
  | r :: rest =>
    issue (modMu s (fun m => { m with todo := rest, judge := some ⟨r, []⟩ })) (.read (r.loc.plus 1))

/-- Apply a record as its key's committed part (R164). -/
def applyPart (s : State) (key : Key) (p : Part) : State :=
  match (dirLookup s.dir key).bind DirEntry.committed with
  | none => { s with dir := dirPut key (fun e => { e with committed := some p }) s.dir }
  | some o =>
    if o.seq ≤ p.seq then { s with dir := dirPut key (fun e => { e with committed := some p }) s.dir }
    else if o.tomb then
      { s with dir := dirMap key (fun e => { e with committed := some { o with shadowed := true } }) s.dir }
    else s

/-- The record is applied when complete and plain, or a member of a batch in the commit table (R164). -/
def applicable (s : State) (f : FoundRec) (after : List Line) : Bool :=
  recordComplete f.hdr after && (f.hdr.bid == 0 || s.commits.any (fun c => c.bid == f.hdr.bid))

/-- The record read by REPLAY has been judged; a 513th entry ends the mount CORRUPT. -/
def replayJudged (s : State) (f : FoundRec) (after : List Line) : State :=
  if applicable s f after then
    if (dirLookup s.dir f.hdr.key).isNone && 512 ≤ s.dir.length then mountEnd s .corrupt
    else replayNext (applyPart s f.hdr.key ⟨f.hdr.kind == .tombstone, f.loc, f.hdr.len, f.hdr.seq, false⟩)
  else replayNext s

/-- READ DONE in REPLAY. -/
def replayReport (s : State) (l : Line) : State :=
  match s.mu.judge with
  | none => s
  | some j =>
    let after := j.lines ++ [l]
    if after.length + 1 < extentOf j.record.hdr.len then
      issue (modMu s (fun m => { m with judge := some { j with lines := after } }))
        (.read (j.record.loc.plus (after.length + 1)))
    else replayJudged (modMu s (fun m => { m with judge := none })) j.record after

/-! ### COLLECT (R162, R163) -/

/-- The last journal segment has been scanned. -/
def collectEnd (s : State) : State :=
  replayNext (modMu s (fun m => { m with phase := .replay, scan := none, todo := m.found }))

/-- Scan on at `l`, whose line is below 256. -/
def scanAt (s : State) (l : Loc) : State := issue (modMu s (fun m => { m with scan := some l })) (.read l)

/-- The journal segment after `n` in journal order. -/
def nextJournal (s : State) (n : Nat) : Option Nat := ((s.mu.order.dropWhile (fun k => k != n)).drop 1).head?

/-- The scan of segment `n` has ended with write pointer `wp`. -/
def scanSegmentEnd (s : State) (n wp : Nat) (stop : Bool) : State :=
  let s1 := journalUpd s n (fun j => { j with wp := wp })
  let s2 := if stop then modMu s1 (fun m => { m with stopped := m.stopped ++ [n] }) else s1
  match nextJournal s2 n with
  | some k => scanAt s2 ⟨k, 2⟩
  | none => collectEnd s2

/-- The position advances (R162). -/
def scanAdvance (s : State) (l : Loc) (e : Nat) : State :=
  if l.line + e < 256 then scanAt s (l.plus e) else scanSegmentEnd s l.seg 256 false

/-- The header is one the scan steps over: valid, inside the segment, sequence below FFFFFFFFh (R162). -/
def scannable (h : Hdr) (l : Loc) : Bool := decide (l.line + extentOf h.len ≤ 256) && h.seq != 0xFFFFFFFF#32

/-- The sequence is taken into the highest sequence (R163). -/
def raiseHighest (m : MountUnit) (q : Word) : MountUnit :=
  { m with highest := match m.highest with
    | some h => if h < q then some q else some h
    | none => some q }

/-- READ DONE of the header at the scan position (R162). -/
def scanHeader (s : State) (l : Loc) (c : Line) : State :=
  match parseHeader c with
  | none => if c = .erased then scanSegmentEnd s l.seg l.line false else scanSegmentEnd s l.seg 256 true
  | some h =>
    if scannable h l then
      let s1 := modMu s (fun m => raiseHighest m h.seq)
      if h.kind = .commit ∨ h.kind = .freeze then
        issue (modMu s1 (fun m => { m with judge := some ⟨⟨l, h⟩, []⟩ })) (.read (l.plus 1))
      else scanAdvance (modMu s1 (fun m => { m with found := m.found ++ [⟨l, h⟩] })) l (extentOf h.len)
    else scanSegmentEnd s l.seg 256 true

/-- A complete COMMIT record's batch id and extent are entered (R163). -/
def enterCommit (s : State) (f : FoundRec) (bid : Word) : State :=
  modMu { s with commits := commitInsert ⟨bid, f.loc⟩ s.commits } (fun m =>
    { m with extents := (bid, extentOf f.hdr.len) :: m.extents.filter (fun x => x.1 != bid) })

/-- A COMMIT or FREEZE record has been judged (R163): a 65th batch id or a fifth range ends the mount CORRUPT. -/
def collectJudged (s : State) (f : FoundRec) (after : List Line) : State :=
  let e := extentOf f.hdr.len
  let v := valueOf f.hdr after
  if recordComplete f.hdr after then
    if f.hdr.kind = .commit then
      if !(s.commits.any (fun c => c.bid == word32At v 0)) && 64 ≤ s.commits.length then mountEnd s .corrupt
      else scanAdvance (enterCommit s f (word32At v 0)) f.loc e
    else if !(hasRange s.freezes (word16At v 0) (word16At v 2)) && 4 ≤ s.freezes.length then mountEnd s .corrupt
    else
      scanAdvance { s with freezes := freezeInsert ⟨word16At v 0, word16At v 2, f.loc⟩ s.freezes } f.loc e
  else scanAdvance s f.loc e

/-- READ DONE in COLLECT. -/
def collectReport (s : State) (l : Line) : State :=
  match s.mu.judge with
  | some j =>
    let after := j.lines ++ [l]
    if after.length + 1 < extentOf j.record.hdr.len then
      issue (modMu s (fun m => { m with judge := some { j with lines := after } }))
        (.read (j.record.loc.plus (after.length + 1)))
    else collectJudged (modMu s (fun m => { m with judge := none })) j.record after
  | none =>
    match s.mu.scan with
    | some p => scanHeader s p l
    | none => s

/-! ### SURVEY (R160, R161) -/

/-- Insert a journal segment in ascending epoch. -/
def orderInsert (x : Nat × Journal) : List (Nat × Journal) → List (Nat × Journal)
  | [] => [x]
  | y :: rest => if x.2.epoch < y.2.epoch then x :: y :: rest else y :: orderInsert x rest

/-- The journal segments in ascending epoch (R161). -/
def journalOrder (s : State) : List (Nat × Journal) := (journals s).foldr orderInsert []

/-- Two journal segments carry the same epoch (R161). -/
def sameEpochs (l : List (Nat × Journal)) : Bool :=
  match l with
  | [] => false
  | x :: rest => rest.any (fun y => y.2.epoch == x.2.epoch) || sameEpochs rest

/-- The highest KNOWN erase count (R161). -/
def highestKnown (t : List SegEntry) : Nat := t.foldl (fun m e => if e.known then max m e.eraseCount else m) 0

/-- The next-epoch counter after SURVEY (R27, R161). -/
def epochAfter (e : Word) : Word × Bool := if e = 0xFFFFFFFF#32 then (e, true) else (e + 1, false)

/-- The higher of two epochs. -/
def laterEpoch (a b : Word) : Word := if a < b then b else a

/-- SURVEY's verdict (R161). DEDUCED (log entry 37): R161's "the highest epoch" is the highest on a valid opening line (R27),
one with a volume mismatch (R21) among them. -/
def surveyVerdict (s : State) : State :=
  let order := journalOrder s
  if s.mu.foreign then mountEnd s .foreign
  else if s.mu.mixed then mountEnd s .mixed
  else if sameEpochs order then mountEnd s .corrupt
  else
    match order.getLast?, order.head? with
    | some (_, top), some (first, _) =>
      let ep := epochAfter (laterEpoch top.epoch s.mu.strayEpoch)
      let est := highestKnown s.sm.table
      let table := s.sm.table.map (fun e => if e.isDirty && !e.known then { e with eraseCount := est } else e)
      scanAt (modMu { s with sm := ⟨table, ep.1, ep.2⟩ } (fun m => { m with phase := .collect, order := order.map Prod.fst }))
        ⟨first, 2⟩
    | _, _ => mountEnd s .blank

/-- The next segment is read, or the verdict is reached. -/
def surveyNext (s : State) (n : Nat) : State :=
  if n + 1 < 64 then issue s (.read ⟨n + 1, 0⟩) else surveyVerdict s

/-- A table entry is created (R160): fault count 0, retire-pending clear. -/
def addEntry (s : State) (n : Nat) (st : SegState) (ec : Nat) (known : Bool) : State :=
  { s with sm.table := s.sm.table ++ [⟨n, st, ec, known, 0, false⟩] }

/-- The volume id of a valid SPARE line is noted (R161 test 2). -/
def noteVid (m : MountUnit) (vid : Word) : MountUnit :=
  if m.foundVid = 0 then { m with foundVid := vid }
  else if m.foundVid = vid then m
  else { m with mixed := true }

/-- READ DONE of line 0 in SURVEY (R20, R160). -/
def surveyLine0 (s : State) (n : Nat) (l : Line) : State :=
  match classify0 l with
  | .erased => surveyNext (addEntry s n .dirty 0 false) n
  | .torn => surveyNext (addEntry s n .dirty 0 false) n
  | .foreign => surveyNext (modMu s (fun m => { m with foreign := true })) n
  | .retired _ ec => surveyNext (addEntry s n .retired ec true) n
  | .spare vid ec => issue (modMu s (fun m => { noteVid m vid with line0 := some (vid, ec) })) (.read ⟨n, 1⟩)

/-- The state that lines 0 and 1 give a segment with a valid SPARE line 0 (R160). -/
def surveyState (vid : Word) (l : Line) : SegState :=
  match classify1 l with
  | .erased => .free
  | .torn => .dirty
  | .opened ep v => if v = vid then .closed ⟨ep, 0, 0, 0, 0⟩ else .dirty

/-- The highest epoch of the valid opening lines with a volume mismatch, with line 1 of a segment whose line 0 gives `vid` taken
in (R21, R27). -/
def strayAfter (stray vid : Word) (l : Line) : Word :=
  match classify1 l with
  | .opened ep v => if v = vid then stray else laterEpoch stray ep
  | _ => stray

/-- READ DONE of line 1 in SURVEY (R21, R160). -/
def surveyLine1 (s : State) (n : Nat) (l : Line) : State :=
  match s.mu.line0 with
  | none => s
  | some (vid, ec) =>
    surveyNext (modMu (addEntry s n (surveyState vid l) ec true)
      (fun m => { m with line0 := none, strayEpoch := strayAfter m.strayEpoch vid l })) n

/-- READ DONE of the line at `loc` in SURVEY. -/
def surveyReport (s : State) (loc : Loc) (l : Line) : State :=
  if loc.line = 0 then surveyLine0 s loc.seg l else surveyLine1 s loc.seg l

/-- A report for the mount; `loc` is the line that was read. -/
def mountReport (s : State) (loc : Loc) (rep : Report) : State :=
  match s.mu.phase, rep with
  | .survey, .readDone l => surveyReport s loc l
  | .collect, .readDone l => collectReport s l
  | .replay, .readDone l => replayReport s l
  | .settle, rep => settleReport s rep
  | _, _ => s

end Sys2Proof.Machine
end

