-- ==== Sys2Proof/Machine/Format.lean ====
section
/-! DEFINITION. FORMAT and UNMOUNT (chapter 9): the volume check, the entry to FORMATTING, steps 1 and 2, the end. -/

namespace Sys2Proof.Machine

def setFu (s : State) (f : FormatCtx) : State := { s with fu := some f }

/-! ### The end of a FORMAT (R175) -/

/-- FORMAT completes: OK in READY, or MEDIA_FAULT in READ_ONLY with fewer than 4 usable segments. -/
def formatEnd (s : State) : State :=
  let good := decide (4 ≤ usableCount s)
  let s1 : State :=
    { s with eng.seqCtr := 1, eng.store := if good then .ready else .readOnly, fu := none, holder := .none }
  let s2 := if good then s1 else raise s1 .rdOnly
  complete s2 ⟨if good then .ok else .mediaFault, 0, s.eng.volId, usableCount s, false, false, false⟩

/-! ### Steps 1 and 2 (R173, R174) -/

/-- Step 2 takes its next segment; with none left FORMAT ends. -/
def step2Next (s : State) (f : FormatCtx) : State :=
  match f.todo with
  | [] => formatEnd s
  | n :: rest => issue (setFu s { f with todo := rest, phase := .step2 n .erase }) (.erase n)

/-- Step 1 takes its next candidate; when every candidate has been tried and retired, no segment is left for step 2. -/
def step1Next (s : State) (f : FormatCtx) : State :=
  match f.todo with
  | [] => formatEnd s
  | n :: rest => issue (setFu s { f with todo := rest, phase := .step1 n .erase }) (.erase n)

/-- Step 1 has opened its segment: step 2 takes every segment that was no candidate, in ascending number. -/
def step1Opened (s : State) (f : FormatCtx) (n : Nat) : State :=
  let s1 := setSegState { s with sm.nextEpoch := 2 } n (.opened ⟨1, 2, 0, 0, 0⟩)
  step2Next s1 { f with todo := (List.range 64).filter (fun k => f.todo.contains k) }

/-- The preparation line of a FORMAT's segment is programmed: the opening line follows in step 1, FREE in step 2. -/
def formatPrepared (s : State) (f : FormatCtx) (n : Nat) (first : Bool) : State :=
  if first then
    issue (setFu (markKnown s n) { f with phase := .step1Open n })
      (.program ⟨n, 1⟩ (openLine 1 s.eng.volId))
  else step2Next (segmentPrepared s n) f

/-- The segment is retired and the step goes on. -/
def formatRetired (s : State) (f : FormatCtx) (n : Nat) (first : Bool) : State :=
  if first then step1Next (retireSegment s n) f else step2Next (retireSegment s n) f

/-- The operation of stage `p` of segment `n` follows. -/
def formatStage (s : State) (f : FormatCtx) (n : Nat) (first : Bool) (p : PrepStage) : State :=
  prepIssue (setFu s { f with phase := if first then .step1 n p else .step2 n p }) n p s.eng.volId

/-- A report for a segment of step 1 or 2 before its opening line, or for its retirement. FORMAT does not repeat a preparation
sequence (R173); a faulted SPARE line is followed by the read of line 0 with which a retirement begins (R44, log entry 16). -/
def formatSegment (s : State) (f : FormatCtx) (n : Nat) (first : Bool) (p : PrepStage) (rep : Report) : State :=
  match p, rep with
  | .erase, .eraseDone => formatStage (eraseEnded s n) f n first .spare
  | .erase, .eraseFault => formatStage (eraseEnded s n) f n first .retireRead
  | .spare, .programDone => formatPrepared s f n first
  | .spare, .programFault _ => formatStage (countFault s n) f n first .retireRead
  | .retireRead, .readDone l =>
    if l = .erased then formatStage s f n first .retireProg else formatRetired s f n first
  | .retireProg, .programDone => formatRetired (markKnown s n) f n first
  | .retireProg, .programFault _ => formatRetired (countFault s n) f n first
  | _, _ => s

/-- A report for a FORMAT in FORMATTING. A faulted opening line is followed by the read of line 0 with which the retirement
begins (R44, log entry 16). -/
def formatReport (s : State) (f : FormatCtx) (rep : Report) : State :=
  match f.phase with
  | .check _ => s
  | .step1 n p => formatSegment s f n true p rep
  | .step2 n p => formatSegment s f n false p rep
  | .step1Open n =>
    match rep with
    | .programDone => step1Opened s f n
    | .programFault _ => formatStage (countFault s n) f n true .retireRead
    | _ => s

/-! ### The entry to FORMATTING (R172) -/

/-- The erase count a FORMAT gives segment `n`, with its KNOWN mark (R171, R172): from the mounted table, or from the
volume check's reads. -/
def formatCount (s : State) (f : FormatCtx) (mounted : Bool) (n : Nat) : Nat × Bool :=
  if mounted then ((segEntry s n).map (fun e => (e.eraseCount, e.known))).getD (0, false)
  else
    match f.counts.getD n none with
    | some ec => (ec, true)
    | none => ((f.counts.filterMap id).foldl max 0, false)

/-- The table at the entry: every segment DIRTY. -/
def formatTable (s : State) (f : FormatCtx) (mounted : Bool) : List SegEntry :=
  (List.range 64).map (fun n => ⟨n, .dirty, (formatCount s f mounted n).1, (formatCount s f mounted n).2, 0, false⟩)

/-- The candidates of step 1 in order (R173): in a mounted store the FREE segments first. -/
def formatCandidates (s : State) (mounted : Bool) : List Nat :=
  if mounted then
    (List.range 64).filter (fun n => victimFreed s n) ++ (List.range 64).filter (fun n => !victimFreed s n)
  else List.range 64

/-- FORMAT has passed its volume check (R172). -/
def formatEnter (s : State) (f : FormatCtx) (mounted : Bool) : State :=
  let s1 := teardown s false
  let s2 : State :=
    { setStage s1 .format with
        eng.store := .formatting, eng.seqCtr := 0, eng.volId := f.newId, rc := ⟨none, 0, 0⟩, dir := [], freezes := [],
        commits := [], sm := ⟨formatTable s f mounted, 0, false⟩, holder := .format }
  step1Next s2 { f with todo := formatCandidates s mounted }

/-! ### The volume check (R171) -/

/-- READ DONE of line 0 of segment `n` in the volume check. DESIGN CHOICE (log entry 40): under a halt request the report of the
last read is acted on in full, so a check that passes enters FORMATTING (R83, R172) before HALTED is entered. -/
def formatCheckReport (s : State) (f : FormatCtx) (n : Nat) (l : Line) : State :=
  let f' := match classify0 l with
    | .spare vid ec => { f with ids := f.ids ++ [vid], counts := f.counts ++ [some ec] }
    | .retired vid ec => { f with ids := f.ids ++ [vid], counts := f.counts ++ [some ec] }
    | _ => { f with counts := f.counts ++ [none] }
  if n + 1 < 64 then issue (setFu s { f' with phase := .check (n + 1) }) (.read ⟨n + 1, 0⟩)
  else if f'.ids.contains f.newId then completeFail { s with fu := none } .wrongVolume
  else formatEnter s f' false

/-- A FORMAT at its grant (R171). -/
def startFormat (s : State) (expected newId : Word) : State :=
  let f : FormatCtx := ⟨newId, .check 0, [], [], []⟩
  if serving s then
    if expected = s.eng.volId ∧ newId ≠ s.eng.volId then formatEnter s f true else completeFail s .wrongVolume
  else if expected = 0 then
    issue { setStage (setFu s f) .format with holder := .command } (.read ⟨0, 0⟩)
  else completeFail s .wrongVolume

/-! ### UNMOUNT (R170) -/

/-- UNMOUNT in READY or READ_ONLY: the batch is torn down, every table emptied, the store UNMOUNTED. -/
def runUnmount (s : State) : State :=
  complete
    { emptyTables (teardown s false) with rc := ⟨none, 0, 0⟩, eng.store := .unmounted, eng.seqCtr := 0, eng.volId := 0 }
    (Result.bare .ok)

end Sys2Proof.Machine
end

