-- ==== Sys2Proof/Machine/Engine.lean ====
section
/-! DEFINITION. The store engine (chapter 4): the entry to HALTED, reports and the unit they go to, the ends of array
operations, the resets, the arbiter's grant and the execution checks. -/

namespace Sys2Proof.Machine

/-! ### The entry to HALTED (R84) -/

/-- What the halt makes of a command in flight (R84): ABORTED where its abort was answered STOPPING, NO_BATCH where its
batch is gone, HALTED otherwise. -/
def haltEnd (s : State) (c : Ctx) : State :=
  if c.stopping then completeFail s .aborted
  else if c.batchLost then loseBatch s
  else completeFail s .halted

/-- The result of a RECLAIM command that a halt or an abort ends (R156). -/
def reclaimStopped (s : State) (st : Status) : State :=
  match s.rc.ctx with
  | some r => complete s (reclaimResult r st 0)
  | none => completeFail s st

/-- The in-flight command at the entry to HALTED. -/
def haltCommand (s : State) : State :=
  match s.inflight with
  | none => s
  | some c =>
    match c.stage with
    | .header => haltEnd (abandonRecord s) c
    | .data _ => haltEnd (abandonRecord s) c
    | .commit => haltEnd (abandonRecord s) c
    | .read => complete s (readResult c (if c.stopping then .aborted else .halted))
    | .reclaim => reclaimStopped s .halted
    | _ => haltEnd s c

/-- The reclaim step at the entry to HALTED (R84, R156): a copy not yet complete is abandoned, its extent dead once it has
a place being programmed; a finish step keeps the operation that would have followed. DESIGN CHOICE (log entry 36): the
opening of an abandoned copy is dropped with it, and a segment whose preparation sequence that cuts short stays DIRTY. -/
def haltReclaim (s : State) : State :=
  match s.rc.ctx with
  | none => s
  | some r =>
    match r.step, r.attempt with
    | .finish _, _ => s
    | .program _, some a => releaseStep (accountDead s a.place.seg (extentOf a.hdr.len))
    | _, _ => releaseStep s

/-- Flush the host command queue: a HALTED completion for each entry, in queue order (R84, R185). -/
def flushQueue (s : State) : State :=
  let s1 := s.host.queue.foldl (fun t q => postHost t q.tag (Result.bare .halted)) s
  { s1 with host.queue := [] }

/-- Answer a WAITING slot with a bare status (R84, R204). -/
def answerWaiting (s : State) (b : Bool) (status : Byte) : State :=
  match slotOf s b with
  | .waiting a f => setSlot s b (.answered a (responseFrame (byteAt f 1) status []))
  | _ => s

def answerBothWaiting (s : State) (status : Byte) : State := answerWaiting (answerWaiting s false status) true status

/-- The store enters HALTED (R84). -/
def haltEntry (s : State) : State :=
  let s1 := raise { s with eng.prior := some s.eng.store, eng.store := .halted } .halt
  let s2 := haltReclaim (haltCommand s1)
  let s3 : State := { s2 with holder := .none, fu := none }
  syncIdle (answerBothWaiting (flushQueue s3) Status.halted.code)

/-- HALTED is entered when a halt is requested and the sequencer is IDLE (R83). -/
def haltIfDue (s : State) : State :=
  if s.eng.haltReq && s.seqr.isNone && s.eng.store != .halted then haltEntry s else s

/-! ### Resets (R46, R59, R86, R87) -/

/-- Every volatile item of every block takes its reset value; the array, the latched straps, the pin levels and the
model's own queue and counter stay. -/
def clearVolatile (s : State) : State :=
  { State.reset with
      array := s.array, eng := Engine.reset s.eng.amount s.eng.madr,
      pins := { s.pins with dataOut := 0, sdaOut := [], sdaAcks := [], addrAck := false }, free := s.free, pending := s.pending }

/-- The end of a reset (R86, R87): a mount begins if AMOUNT is latched high; a PFW# that is low counts as an assertion. -/
def leaveReset (s : State) : State :=
  let s1 : State := if s.pins.pfwLow then { s with eng.haltReq := true } else s
  haltIfDue (if s1.eng.amount then mountStart s1 else s1)

/-- A soft reset takes effect (R86). -/
def softReset (s : State) : State := leaveReset (clearVolatile s)

/-- Power-on reset or RESET# interrupts the operation in progress (R9). -/
def interrupt (s : State) : State :=
  match s.seqr with
  | some (.program l _) => setLine s l .torn
  | some (.erase n) => partialErase s n
  | _ => s

/-! ### Reports (R8) -/

/-- A report for the in-flight command. -/
def commandReport (s : State) (loc : Loc) (rep : Report) : State :=
  match s.inflight with
  | none => s
  | some c =>
    match c.stage, c.cmd, rep with
    | .read, .get _ buf, .readDone l => getReport s c buf l
    | .read, .list _ buf n, .readDone l => listReport s c buf n l
    | .format, _, .readDone l =>
      match s.fu with
      | some f => formatCheckReport s f loc.seg l
      | none => s
    | .read, _, _ => s
    | .format, _, _ => s
    | _, _, rep => appendReport s c rep

/-- The report goes to the work unit that holds the array; `loc` is the line that was read or programmed, or line 0 of the
segment erased. -/
def onReport (s : State) (loc : Loc) (rep : Report) : State :=
  match s.holder with
  | .none => s
  | .command => commandReport s loc rep
  | .reclaim =>
    match s.rc.ctx with
    | some r => reclaimReport s r rep
    | none => s
  | .mount => mountReport s loc rep
  | .format =>
    match s.fu with
    | some f => formatReport s f rep
    | none => s

/-- The unit acts on the report, and then HALTED is entered if a halt is due (R83). -/
def deliver (s : State) (loc : Loc) (rep : Report) : State := haltIfDue (onReport s loc rep)

/-- A program issued to a line that is not ERASED is refused at once (R5): its fault is reported and the unit acts on it.
The part never issues one; the bound on refusals in a row is met by no unit (log entry 6). -/
def settleRefused : Nat → State → State
  | 0, s => s
  | n + 1, s =>
    match s.seqr with
    | some (.program l _) =>
      if lineAt s l = .erased then s else settleRefused n (deliver { s with seqr := none } l (.programFault .refused))
    | _ => s

/-- An array operation has ended (R8, R10): its report is discarded if a soft reset waits, which then takes effect (R86),
and goes to its unit otherwise. -/
def opEnds (s : State) (loc : Loc) (rep : Report) : State :=
  let s1 : State := { s with seqr := none }
  if s.ctl.srst then softReset s1 else settleRefused 8 (deliver s1 loc rep)

/-! ### Execution checks (R67, R79, R80) -/

/-- The port owns the open batch. -/
def ownsBatch (s : State) (p : Port) : Bool :=
  match s.batch with
  | some b => b.owner == p
  | none => false

/-- The state check of R67. -/
def stateCheck (st : StoreState) (c : Cmd) : Option Status :=
  match st with
  | .ready => none
  | .readOnly =>
    match c with
    | .put .. => some .readOnly
    | .delete .. => some .readOnly
    | .batchOpen => some .readOnly
    | .batchCommit => some .readOnly
    | .batchAbort => some .readOnly
    | .freeze .. => some .readOnly
    | .reclaim => some .readOnly
    | _ => none
  | _ =>
    match c with
    | .mount => none
    | .format .. => none
    | _ => some .notReady

/-- Check 4 of R80, for a command with the batch flag. -/
def memberCheck (s : State) (p : Port) : Option Status :=
  match s.batch with
  | none => some .noBatch
  | some b => if b.owner ≠ p then some .batchNotOwner else if 8 ≤ b.members.length then some .batchFull else none

/-- Checks 2 to 6 of R80 for a PUT (`del` clear) or DELETE of a key. -/
def writeCheck (s : State) (p : Port) (key : Key) (member del : Bool) : Option Status :=
  if isFrozen s key then some .frozen
  else if isHeld s key then some (if member && ownsBatch s p then .batchDuplicate else .keyHeld)
  else
    match (if member then memberCheck s p else none) with
    | some st => some st
    | none =>
      if del then (if (presentPart s key).isNone then some .notFound else none)
      else if (dirLookup s.dir key).isNone && 512 ≤ s.dir.length + s.rc.droppedTombs then some .directoryFull
      else none

/-- The sequence counter is exhausted (R72). -/
def seqExhausted (s : State) : Bool := s.eng.seqCtr == 0xFFFFFFFF#32

/-- The last checks of an appending command: the sequence counter (R72), then admission (R35). -/
def checkThenAppend (s : State) : State :=
  if seqExhausted s then completeFail (enterReadOnly s) .readOnly else admitCommand s none

/-- PUT and DELETE after the state check (R80). -/
def startWrite (s : State) (p : Port) (key : Key) (member del : Bool) : State :=
  match writeCheck s p key member del with
  | some st => completeFail s st
  | none => checkThenAppend s

/-- BATCH_OPEN after the state check (R115). -/
def startBatchOpen (s : State) (p : Port) : State :=
  if s.batch.isSome then completeFail s .batchBusy
  else if 64 ≤ s.commits.length + s.rc.droppedCommits then completeFail s .batchLimit
  else if seqExhausted s then completeFail (enterReadOnly s) .readOnly
  else
    complete { s with eng.seqCtr := s.eng.seqCtr + 1, batch := some ⟨p, s.eng.seqCtr, [], .running⟩ }
      ⟨.ok, 0, s.eng.seqCtr, 0, false, false, false⟩

/-- BATCH_COMMIT after the state check (R117). DESIGN CHOICE (log entry 41): the length of its OK completion is 0. -/
def startBatchCommit (s : State) (p : Port) : State :=
  match s.batch with
  | none => completeFail s .noBatch
  | some b =>
    if b.owner ≠ p then completeFail s .batchNotOwner
    else if b.members.isEmpty then complete { s with batch := none } (Result.bare .ok)
    else checkThenAppend s

/-- BATCH_ABORT after the state check (R122). DESIGN CHOICE (log entry 41): the length of its OK completion is 0. -/
def startBatchAbort (s : State) (p : Port) : State :=
  match s.batch with
  | none => completeFail s .noBatch
  | some b =>
    if b.owner ≠ p then completeFail s .batchNotOwner
    else complete (teardown s true) ⟨.ok, 0, b.bid, b.members.length, false, false, false⟩

/-- A key of the range has a pending part (R62 step 4). -/
def rangeHeld (s : State) (lo hi : Key) : Bool :=
  s.dir.any (fun e => decide (lo.toNat ≤ e.key.toNat) && decide (e.key.toNat ≤ hi.toNat) && e.held)

/-- FREEZE after the state check (R62). -/
def startFreeze (s : State) (lo hi : Key) : State :=
  if hasRange s.freezes lo hi then complete s (Result.bare .ok)
  else if 4 ≤ s.freezes.length then completeFail s .freezeFull
  else if rangeHeld s lo hi then completeFail s .keyHeld
  else checkThenAppend s

/-- MOUNT at its grant (R169). -/
def startMount (s : State) : State :=
  if serving s then complete s ⟨.ok, 0, s.eng.volId, usableCount s, false, false, false⟩
  else mountStart (setStage s .mount)

/-- A command that has passed its state check. -/
def runCommand (s : State) (p : Port) (cmd : Cmd) : State :=
  match cmd with
  | .put key _ _ member => startWrite s p key member false
  | .delete key member => startWrite s p key member true
  | .get key _ => startGet s key
  | .stat key => complete s (statResult s key)
  | .list after _ _ => startList s after
  | .batchOpen => startBatchOpen s p
  | .batchCommit => startBatchCommit s p
  | .batchAbort => startBatchAbort s p
  | .freeze lo hi => startFreeze s lo hi
  | .mount => startMount s
  | .unmount => runUnmount s
  | .format expected newId => startFormat s expected newId
  | .reclaim => startReclaim s

/-- The in-flight command makes its checks (R79). -/
def execute (s : State) (c : Ctx) : State :=
  match stateCheck s.eng.store c.cmd with
  | some st => completeFail s st
  | none => runCommand s c.origin.port c.cmd

/-! ### The arbiter's grant (R74, R75) -/

def emptyJob : ReadJob := ⟨⟨0, 0⟩, 0, 0, 0, 0, 0, []⟩

/-- The context of a command just granted (R77). -/
def newCtx (o : Origin) (cmd : Cmd) : Ctx :=
  { origin := o, cmd, stage := .check, seq := none, retried := false, stopping := false, batchLost := false,
    tearDue := false, lines := [], place := ⟨0, 0⟩, job := emptyJob }

/-- The host head leaves its queue and is the in-flight command (R185). -/
def takeHost (s : State) (q : QEntry) : State :=
  let s1 := setTag s q.tag .running
  { s1 with host.queue := s1.host.queue.tail, inflight := some (newCtx (.host q.tag) q.cmd) }

/-- The management head's slot becomes RUNNING and its request the in-flight command (R197). -/
def takeMgmt (s : State) (b : Bool) : State :=
  match slotOf s b with
  | .waiting a f =>
    match frameCmd f with
    | some cmd => { setSlot s b (.running a f) with inflight := some (newCtx (.mgmt b (byteAt f 1)) cmd) }
    | none => s
  | _ => s

/-- The weighted round-robin between the two heads (R75): the head granted, and the run count after. -/
def chooseHead (s : State) : State :=
  match hostHead s, mgmtHead s with
  | some q, some b =>
    if s.eng.runCount < s.ctl.hostwt then { takeHost s q with eng.runCount := s.eng.runCount + 1 }
    else { takeMgmt s b with eng.runCount := 0 }
  | some q, none => { takeHost s q with eng.runCount := 0 }
  | none, some b => { takeMgmt s b with eng.runCount := 0 }
  | none, none => s

/-- Claim 4 of R74 may be granted: the array is free, no command is in flight, and the store state grants commands. -/
def commandGranted (s : State) : Bool :=
  arrayFree s && s.inflight.isNone
    && (serving s || s.eng.store == .unmounted || s.eng.store == .failed)

/-- The granted command runs. -/
def runGranted (s : State) : State :=
  match s.inflight with
  | some c => settleRefused 8 (execute s c)
  | none => s

/-- The meaning of ARBITER_GRANT. -/
def arbiterGrant (s : State) : State := if commandGranted s then runGranted (chooseHead s) else s

/-- Claim 3 of R74: a waiting command whose victim has left RECLAIMING. -/
def resumable (s : State) : Bool :=
  match s.inflight with
  | some c => c.stage == .waitSpace true
  | none => false

/-- The meaning of WAIT_SPACE_RESUME (R109): the command leaves WAIT_SPACE and admission runs again from its first step. -/
def waitSpaceResume (s : State) : State :=
  if arrayFree s && serving s && resumable s then settleRefused 8 (admitCommand (setStage s .check) none) else s

end Sys2Proof.Machine
end

