-- ==== Sys2Proof/Machine/MgmtPort.lean ====
section
/-! DEFINITION. The management port (chapter 11): write and read transfers, exchange slots, the port's own answers, the
session and its end, disabling. -/

namespace Sys2Proof.Machine

/-- The target address (chapter 11): 2Ch plus the latched MADR1–MADR0. -/
def targetAddr (s : State) : BitVec 7 := 0x2C#7 + s.eng.madr.setWidth 7

def setXfer (s : State) (x : Option Xfer) : State := { s with mgmt.xfer := x }

/-! ### The session (R204, R205) -/

/-- The management-owned batch at the end of the session (R106, R121, R124): a member write in flight loses its batch, a
BATCH_COMMIT in flight defers the teardown as its stage says, and otherwise the batch is torn down at once. -/
def endMgmtBatch (s : State) : State :=
  match s.inflight with
  | none => teardown s false
  | some c =>
    if c.origin.port = .mgmt ∧ c.cmd.isMember then
      match c.stage with
      | .waitSpace _ => completeFail (teardown s false) .noBatch
      | _ => modCtx (teardown s false) (fun c => { c with batchLost := true })
    else if c.origin.port = .mgmt ∧ c.cmd = .batchCommit then
      match c.stage with
      | .waitSpace _ => loseBatch s
      | .admission _ => modCtx s (fun c => { c with batchLost := true })
      | _ => modCtx s (fun c => { c with tearDue := true })
    else teardown s false

/-- The session ends (R204); WAITING slots are answered with `status`. -/
def sessionEnd (s : State) (status : Byte) : State :=
  let s1 := answerBothWaiting (raise { s with mgmt.session := false } .session) status
  syncIdle (if ownsBatch s1 .mgmt then endMgmtBatch s1 else s1)

/-- A RECEIVING slot is freed with its bytes discarded (R198, R205). -/
def freeReceiving (s : State) (b : Bool) : State :=
  match slotOf s b with
  | .receiving .. => setSlot s b .free
  | _ => s

/-- Clearing MGMTEN disables the port (R205): a RECEIVING slot is freed, the rest of its transfer is NAKed, an open session
ends with PORT_DISABLED for the WAITING slots. -/
def portDisable (s : State) : State :=
  let s1 := freeReceiving (freeReceiving s false) true
  let s2 := match s1.mgmt.xfer with
    | some (.write _) => setXfer s1 (some .nak)
    | _ => s1
  if s2.mgmt.session then sessionEnd s2 portDisabled else syncIdle (answerBothWaiting s2 portDisabled)

/-! ### The port's own answers (R203) -/

def ownerByte (s : State) : Byte := ((s.batch.map Batch.owner).map Port.code).getD 0

def memberCount (s : State) : Nat := ((s.batch.map Batch.members).getD []).length

/-- The STATUS payload (R203, R207). -/
def statusPayload (s : State) : List Byte :=
  [s.eng.store.code, s.eng.mountRes.code] ++ be32 s.eng.volId
    ++ [byteOf (freeCount s), byteOf (usableCount s)] ++ be16 (BitVec.ofNat 16 s.dir.length)
    ++ [byteOf s.commits.length, ownerByte s, byteOf (memberCount s), bit s.mgmt.session 1, byteOf s.freezes.length]
    ++ s.freezes.flatMap (fun f => be16 f.lo ++ be16 f.hi)

/-- The journal fields a SEGMENT response shows: 0 where the entry's state has none (R203). -/
def journalShown (st : SegState) : Journal := st.journal?.getD ⟨0, 0, 0, 0, 0⟩

/-- The SEGMENT payload (R203, R207); without an entry the state reads NONE and every other field 0. DESIGN CHOICE (log entry
34): the segment-number byte is the number asked for in either case. -/
def segmentPayload (s : State) (n : Nat) : List Byte :=
  match segEntry s n with
  | none => byteOf n :: List.replicate 15 0
  | some e =>
    let j := journalShown e.st
    [byteOf n, e.st.code] ++ be32 j.epoch ++ be16 (BitVec.ofNat 16 j.wp) ++ [byteOf j.live, byteOf j.dead]
      ++ be24 e.eraseCount ++ [bit (!e.known) 1 ||| bit e.retirePending 2, byteOf (min e.faults 255), byteOf j.pins]

/-! ### The end of a write transfer (R199) -/

/-- The arrival number of a slot that is not FREE. -/
def Slot.arrival? : Slot → Option Nat
  | .free => none
  | .receiving a _ _ => some a
  | .waiting a _ => some a
  | .running a _ => some a
  | .answered a _ => some a

/-- The slot becomes ANSWERED with a response. -/
def answerSlot (s : State) (b : Bool) (arrival : Nat) (tag status : Byte) (payload : List Byte) : State :=
  setSlot s b (.answered arrival (responseFrame tag status payload))

/-- An accepted OPEN, CLOSE, STATUS or SEGMENT is answered at once; an accepted store request or FREEZE waits (R199, R203,
R204). -/
def acceptFrame (s : State) (b : Bool) (arrival : Nat) (bytes : List Byte) (r : Request) : State :=
  let tag := byteAt bytes 1
  match r with
  | .openSession =>
    let s1 := if s.mgmt.session then s else raise { s with mgmt.session := true } .session
    answerSlot s1 b arrival tag Status.ok.code []
  | .closeSession =>
    if s.mgmt.session then answerSlot (sessionEnd s noSession) b arrival tag Status.ok.code []
    else answerSlot s b arrival tag noSession []
  | .status => answerSlot s b arrival tag Status.ok.code (statusPayload s)
  | .segment n => answerSlot s b arrival tag Status.ok.code (segmentPayload s n)
  | .store _ => syncIdle (setSlot s b (.waiting arrival bytes))

/-- A write transfer that fills slot `b` has ended (R199). -/
def frameEnd (s : State) (b : Bool) : State :=
  match slotOf s b with
  | .receiving a bytes tooLong =>
    match checkFrame s bytes tooLong with
    | .refused tag status => answerSlot s b a tag status []
    | .taken r => acceptFrame s b a bytes r
  | _ => s

/-! ### Write transfers (R196, R197) -/

/-- The slot the first data byte takes: A if it is FREE, else B if it is. -/
def freeSlot (s : State) : Option Bool :=
  if s.mgmt.slotA = .free then some false else if s.mgmt.slotB = .free then some true else none

/-- A slot in RECEIVING stores a byte: up to 247, then it is marked over-length (R197). -/
def Slot.store (v : Byte) : Slot → Slot
  | .receiving a b tooLong => if b.length < 247 then .receiving a (b ++ [v]) tooLong else .receiving a b true
  | sl => sl

/-- The byte is acknowledged: the slot has room for it. -/
def Slot.takes : Slot → Bool
  | .receiving _ b _ => decide (b.length < 247)
  | _ => false

def ack (s : State) (v : Bool) : State := { s with pins.sdaAcks := s.pins.sdaAcks ++ [v] }

/-- One data byte of the write transfer in progress. -/
def writeByte (s : State) (v : Byte) : State :=
  match s.mgmt.xfer with
  | some .writeStart =>
    match (if s.ctl.mgmten then freeSlot s else none) with
    | some b =>
      let n := s.mgmt.arrivals + 1
      let s1 := setSlot { s with mgmt.arrivals := n } b (.receiving n [v] false)
      ack (setXfer s1 (some (.write b))) true
    | none => ack (setXfer s (some .nak)) false
  | some (.write b) => ack (setSlot s b ((slotOf s b).store v)) (slotOf s b).takes
  | some .nak => ack s false
  | _ => s

def writeBytes (s : State) (l : List Byte) : State := l.foldl writeByte s

/-- The transfer in progress is a write. -/
def writing (s : State) : Bool :=
  match s.mgmt.xfer with
  | some .writeStart => true
  | some (.write _) => true
  | some .nak => true
  | _ => false

/-- A write transfer to the part begins. -/
def beginWrite (s : State) (data : List Byte) : State :=
  writeBytes { s with mgmt.xfer := some .writeStart, pins.sdaAcks := [] } data

/-- The write transfer ends at a stop condition or a repeated start. -/
def endWrite (s : State) : State :=
  match s.mgmt.xfer with
  | some (.write b) => frameEnd (setXfer s none) b
  | _ => setXfer s none

/-! ### Read transfers (R201) -/

/-- The slot with the lower arrival number among those not FREE. -/
def oldestSlot (s : State) : Option Bool :=
  match s.mgmt.slotA.arrival?, s.mgmt.slotB.arrival? with
  | some a, some b => some (decide (b < a))
  | some _, none => some false
  | none, some _ => some true
  | none, none => none

/-- The frame a read transfer sends, and the slot it may free (R201). -/
def readAnswer (s : State) : List Byte × Option Bool :=
  match oldestSlot s with
  | none => (responseFrame 0xFF emptyStatus [], none)
  | some b =>
    match slotOf s b with
    | .answered _ f => (f, some b)
    | .waiting _ f => (responseFrame (byteAt f 1) pendingStatus [], none)
    | .running _ f => (responseFrame (byteAt f 1) pendingStatus [], none)
    | .receiving _ f _ => (responseFrame (byteAt f 1) pendingStatus [], none)
    | .free => (responseFrame 0xFF emptyStatus [], none)

/-- Clock `n` data bytes: the frame's, then FFh (R201). -/
def clockBytes (s : State) (n : Nat) : State :=
  match s.mgmt.xfer with
  | some (.read f b o) =>
    { s with mgmt.xfer := some (.read f b (o + n)), pins.sdaOut := (List.range n).map (fun i => f.getD (o + i) 0xFF) }
  | _ => s

/-- An ANSWERED slot becomes FREE (R201). -/
def freeAnswered (s : State) (b : Bool) : State :=
  match slotOf s b with
  | .answered .. => setSlot s b .free
  | _ => s

/-- The read transfer ends: an ANSWERED slot whose CRC byte has been sent becomes FREE (R201). -/
def endRead (s : State) : State :=
  match s.mgmt.xfer with
  | some (.read f (some b) o) => if f.length ≤ o then freeAnswered (setXfer s none) b else setXfer s none
  | _ => setXfer s none

/-- A read transfer to the part begins. -/
def beginRead (s : State) (n : Nat) : State :=
  let a := readAnswer s
  clockBytes (setXfer s (some (.read a.1 a.2 0))) n

/-- The transfer in progress is a read. -/
def reading (s : State) : Bool :=
  match s.mgmt.xfer with
  | some (.read ..) => true
  | _ => false

/-! ### Transfers on the bus (R196) -/

/-- The transfer in progress ends at a stop condition or a repeated start, in the same way (R196). -/
def endTransfer (s : State) : State :=
  if reading s then endRead (clockBytes s 0) else if writing s then endWrite { s with pins.sdaAcks := [] } else s

/-- A start condition and an address byte: a transfer in progress ends, and the part acknowledges its own address and no
other (R196). -/
def addressByte (s : State) (addr : BitVec 7) : State :=
  let s1 := endTransfer s
  { s1 with pins.addrAck := addr == targetAddr s1 }

/-- A write transfer, whole or in part (R196, R197, R199). -/
def busWrite (s : State) : WriteXfer → State
  | .whole addr data =>
    let s1 := addressByte s addr
    if s1.pins.addrAck then endWrite (beginWrite s1 data) else s1
  | .begins addr data =>
    let s1 := addressByte s addr
    if s1.pins.addrAck then beginWrite s1 data else s1
  | .ends data => if writing s then endWrite (writeBytes { s with pins.sdaAcks := [] } data) else s

/-- A whole write transfer that brings the frame with these bytes before its CRC. -/
def sendFrame (s : State) (addr : BitVec 7) (body : List Byte) : State := busWrite s (.whole addr (requestFrame body))

/-- A read transfer, whole or in part (R196, R201). -/
def busRead (s : State) : ReadXfer → State
  | .whole addr n =>
    let s1 := addressByte s addr
    if s1.pins.addrAck then endRead (beginRead s1 n) else s1
  | .begins addr n =>
    let s1 := addressByte s addr
    if s1.pins.addrAck then beginRead s1 n else s1
  | .ends n => if reading s then endRead (clockBytes s n) else s

/-- The transfer stall timer reaches 25 ms (R198): the transfer is abandoned and a RECEIVING slot is freed. -/
def stallExpiry (s : State) : State :=
  match s.mgmt.xfer with
  | some (.write b) => setXfer (freeReceiving s b) none
  | _ => setXfer s none

/-- The session idle timer reaches 5.0 s (R204). -/
def sessionLapse (s : State) : State := if s.mgmt.session then sessionEnd s noSession else s

end Sys2Proof.Machine
end

