-- ==== Sys2Proof/Machine/HostPort.lean ====
section
/-! DEFINITION. The host port (chapter 10): submission, completions, aborts, the buffer window, control and settings, and
the register window as a whole. -/

namespace Sys2Proof.Machine

/-! ### Submission (R183, R184) -/

/-- The named staging buffer is HELD. -/
def bufferHeld (s : State) (b : Nat) : Bool := (s.host.bufOwner.getD b none).isSome

def tagState (s : State) (t : Nat) : TagState := s.host.tags.getD t .free

def setBufOwner (s : State) (b : Nat) (o : Option Nat) : State := { s with host.bufOwner := s.host.bufOwner.set b o }

/-- The named buffer, if any, becomes HELD by the tag. -/
def holdBuffer (s : State) (t : Nat) : Option Nat → State
  | some b => setBufOwner s b (some t)
  | none => s

/-- An accepted submission (R184). -/
def acceptSubmit (s : State) (t : Nat) (c : Cmd) : State :=
  let s1 := setTag (holdBuffer s t c.buffer?) t .queued
  syncIdle { s1 with host.queue := s1.host.queue ++ [⟨t, c⟩], host.lastSubmit := accepted }

/-- The result of the six steps of R183 for a command: what SUBMIT reads. -/
def submitResult (s : State) (t : Nat) (c : Cmd) : Byte :=
  if !hostArgsOk c then badCommand
  else if (c.buffer?.map (bufferHeld s)).getD false then bufferBusy
  else if 8 ≤ s.host.queue.length then queueFull
  else if tagState s t ≠ .free then tagInUse
  else if s.eng.store = .halted then Status.halted.code
  else accepted

/-- A write to SUBMIT, with the argument registers as they stand (R183). -/
def submit (s : State) : State :=
  match hostCmd s.host.args with
  | none => { s with host.lastSubmit := badCommand }
  | some c =>
    let t := s.host.args.tagNo
    let r := submitResult s t c
    if r = accepted then acceptSubmit s t c else { s with host.lastSubmit := r }

/-- The argument registers take the values a command uses, and SUBMIT is written. -/
def submitArgs (s : State) (f : ArgRegs → ArgRegs) : State := submit { s with host.args := f s.host.args }

/-- KEYH and KEYL hold a key (R209). -/
def ArgRegs.withKey (a : ArgRegs) (k : Key) : ArgRegs :=
  { a with keyh := k.extractLsb' 8 8, keyl := k.extractLsb' 0 8 }

/-- ARG0–ARG7 hold the two volume ids of a FORMAT, most significant byte first (R182, R209). -/
def ArgRegs.withIds (a : ArgRegs) (e n : Word) : ArgRegs :=
  { a with
      arg0 := e.extractLsb' 24 8, arg1 := e.extractLsb' 16 8, arg2 := e.extractLsb' 8 8, arg3 := e.extractLsb' 0 8,
      arg4 := n.extractLsb' 24 8, arg5 := n.extractLsb' 16 8, arg6 := n.extractLsb' 8 8, arg7 := n.extractLsb' 0 8 }

/-! ### Completions (R187) -/

/-- CPOP: the head completion goes, its tag becomes FREE and the buffer it held IDLE. -/
def popCompletion (s : State) : State :=
  match s.host.cplq with
  | [] => s
  | c :: rest =>
    let s1 := setTag s c.tag .free
    { s1 with host.cplq := rest
              host.bufOwner := s1.host.bufOwner.map (fun o => if o = some c.tag then none else o) }

/-! ### Aborts (R81, R188) -/

/-- An abort of the in-flight command (R81): the result and what follows. -/
def abortInFlight (s : State) (c : Ctx) : Byte × State :=
  if c.cmd.notAbortable then (notAbortable, s)
  else
    match c.stage with
    | .waitSpace _ => (stoppingResult, completeFail s .aborted)
    | .reclaim => (stoppingResult, reclaimStopped s .aborted)
    | .read =>
      if s.seqr.isNone then (stoppingResult, complete s (readResult c .aborted))
      else (stoppingResult, modCtx s (fun c => { c with stopping := true }))
    | .commit => (tooLate, s)
    | _ => (stoppingResult, modCtx s (fun c => { c with stopping := true }))

/-- A queued command is removed (R188): its ABORTED completion is posted, its buffer stays HELD until CPOP. -/
def removeQueued (s : State) (t : Nat) : State :=
  let s1 : State := { s with host.queue := s.host.queue.filter (fun q => q.tag != t) }
  syncIdle (postHost s1 t (Result.bare .aborted))

/-- The queue entry of a tag. -/
def queuedCmd (s : State) (t : Nat) : Option Cmd := (s.host.queue.find? (fun q => q.tag == t)).map QEntry.cmd

/-- The answer to an abort request, by the tag's state (R188). -/
def abortAnswer (s : State) (t : Nat) : Byte × State :=
  match tagState s t with
  | .free => (noSuchTag, s)
  | .completed => (tooLate, s)
  | .queued =>
    match queuedCmd s t with
    | some c => if c.notAbortable then (notAbortable, s) else (removedResult, removeQueued s t)
    | none => (noSuchTag, s)
  | .running =>
    match s.inflight with
    | some c => abortInFlight s c
    | none => (noSuchTag, s)

/-- A write to ABORT: bits 3–0 name the tag, and ABORT then reads the result. -/
def hostAbort (s : State) (v : Byte) : State :=
  let a := abortAnswer s (v &&& 0x0F).toNat
  { a.2 with host.lastAbort := a.1 }

/-! ### The buffer window (R189, R190) -/

/-- The pointer advances by 1, wrapping from 255 to 0. -/
def advancePtr (s : State) : State := { s with host.bufPtr := s.host.bufPtr + 1 }

def bufDataByte (s : State) : Byte := stagingRead s s.host.bufSel.toNat s.host.bufPtr.toNat

/-- A read of BUFDATA. -/
def readBufData (s : State) : State := advancePtr { s with pins.dataOut := bufDataByte s }

/-- A write of BUFDATA: stored in an IDLE buffer, CONFLICT in a HELD one; the pointer advances either way. -/
def writeBufData (s : State) (v : Byte) : State :=
  if bufferHeld s s.host.bufSel.toNat then advancePtr (raise s .conflict)
  else advancePtr (stagingWrite s s.host.bufSel.toNat s.host.bufPtr.toNat v)

/-! ### Counters, alerts, control and settings -/

/-- A read of DIRCNT low (R180): the low byte is returned and the high byte latched. -/
def readDircntLow (s : State) : State :=
  { s with pins.dataOut := byteOf s.dir.length, host.dircntHold := byteOf (s.dir.length / 256) }

/-- A write to ALERT clears the flags whose bits are 1 (R191). -/
def clearAlerts (s : State) (v : Byte) : State := { s with alert.flags := s.alert.flags &&& ~~~v }

def setMask (s : State) (v : Byte) : State := { s with alert.mask := v }

/-- Clamp a written setting into its range (R194). -/
def clamp (lo hi n : Nat) : Nat := max lo (min hi n)

def setRecthr (s : State) (v : Byte) : State := { s with ctl.recthr := clamp 2 16 v.toNat }

def setHostwt (s : State) (v : Byte) : State := { s with ctl.hostwt := clamp 1 8 v.toNat }

/-- A soft reset is requested (R86): it takes effect at once when no array operation is in progress. -/
def requestSoftReset (s : State) : State :=
  let s1 : State := { s with ctl.srst := true }
  if s.seqr.isNone then softReset s1 else s1

/-- A write to CONTROL (R193): each bit it changes takes effect, then the soft reset is requested if bit 7 is 1. -/
def writeControl (s : State) (v : Byte) : State :=
  let s1 : State :=
    { s with ctl.cinten := v.getLsbD 0, ctl.bgren := v.getLsbD 1, ctl.mgmten := v.getLsbD 2 }
  let s2 := if s.ctl.mgmten && !v.getLsbD 2 then portDisable s1 else s1
  if v.getLsbD 7 && !s2.ctl.srst then requestSoftReset s2 else s2

/-! ### The register window (R179, R209) -/

/-- The argument register at an offset takes a byte. -/
def writeArg (a : ArgRegs) (off : Nat) (v : Byte) : ArgRegs :=
  match off with
  | 0x10 => { a with cmd := v }
  | 0x11 => { a with tag := v }
  | 0x12 => { a with keyh := v }
  | 0x13 => { a with keyl := v }
  | 0x14 => { a with buf := v }
  | 0x15 => { a with len := v }
  | 0x16 => { a with arg0 := v }
  | 0x17 => { a with arg1 := v }
  | 0x18 => { a with arg2 := v }
  | 0x19 => { a with arg3 := v }
  | 0x1A => { a with arg4 := v }
  | 0x1B => { a with arg5 := v }
  | 0x1C => { a with arg6 := v }
  | 0x1D => { a with arg7 := v }
  | _ => a

/-- A host write of `v` to location `off` (R179): it acts as the location's rule states, stores the byte, or is ignored. -/
def hostWrite (s : State) (off : Nat) (v : Byte) : State :=
  match off with
  | 0x04 => clearAlerts s v
  | 0x05 => setMask s v
  | 0x06 => writeControl s v
  | 0x07 => setRecthr s v
  | 0x08 => setHostwt s v
  | 0x1E => submit s
  | 0x2A => popCompletion s
  | 0x2C => hostAbort s v
  | 0x30 => { s with host.bufSel := v.extractLsb' 0 2 }
  | 0x31 => { s with host.bufPtr := v }
  | 0x32 => writeBufData s v
  | off => { s with host.args := writeArg s.host.args off v }

/-- The head of the completion queue as the C locations show it: all 00h while the queue is empty (R186). -/
def headByte (s : State) (f : Completion → Byte) : Byte := (s.host.cplq.head?.map f).getD 0

/-- The content of location `off` (R179, R209): what a host read returns. While RESET# is asserted a read returns 00h
(R195). -/
def hostRead (s : State) (off : Nat) : Byte :=
  if s.pins.resetLow then 0
  else match off with
  | 0x00 => 0x6A
  | 0x01 => 0x02
  | 0x02 => s.eng.store.code
  | 0x03 => s.eng.mountRes.code
  | 0x04 => s.alert.flags
  | 0x05 => s.alert.mask
  | 0x06 => s.ctl.byte
  | 0x07 => byteOf s.ctl.recthr
  | 0x08 => byteOf s.ctl.hostwt
  | 0x09 => byteOf (freeCount s)
  | 0x0A => byteOf (usableCount s)
  | 0x0B => byteOf s.dir.length
  | 0x0C => s.host.dircntHold
  | 0x0D => byteOf (memberCount s) ||| (ownerByte s <<< 4)
  | 0x0E => byteOf s.commits.length
  | 0x10 => s.host.args.cmd
  | 0x11 => s.host.args.tag
  | 0x12 => s.host.args.keyh
  | 0x13 => s.host.args.keyl
  | 0x14 => s.host.args.buf
  | 0x15 => s.host.args.len
  | 0x16 => s.host.args.arg0
  | 0x17 => s.host.args.arg1
  | 0x18 => s.host.args.arg2
  | 0x19 => s.host.args.arg3
  | 0x1A => s.host.args.arg4
  | 0x1B => s.host.args.arg5
  | 0x1C => s.host.args.arg6
  | 0x1D => s.host.args.arg7
  | 0x1E => s.host.lastSubmit
  | 0x1F => byteOf s.host.queue.length
  | 0x20 => byteOf s.host.cplq.length
  | 0x21 => headByte s (fun c => byteOf c.tag)
  | 0x22 => headByte s (fun c => c.res.status.code)
  | 0x23 => headByte s (fun c => byteOf c.res.len)
  | 0x24 => headByte s (fun c => c.res.seq.extractLsb' 24 8)
  | 0x25 => headByte s (fun c => c.res.seq.extractLsb' 16 8)
  | 0x26 => headByte s (fun c => c.res.seq.extractLsb' 8 8)
  | 0x27 => headByte s (fun c => c.res.seq.extractLsb' 0 8)
  | 0x28 => headByte s (fun c => byteOf c.res.count)
  | 0x29 => headByte s (fun c => c.res.flags)
  | 0x2C => s.host.lastAbort
  | 0x30 => s.host.bufSel.setWidth 8
  | 0x31 => s.host.bufPtr
  | 0x32 => bufDataByte s
  | _ => 0

end Sys2Proof.Machine
end

