-- ==== Sys2Proof/Machine/Events.lean ====
section
/-! DEFINITION. How an event is taken, and the named operations behind the rows of time, the array sequencer, the pins
and the resets. -/

namespace Sys2Proof.Machine

/-- The outcome type of a meaning. -/
abbrev Out := Host.Outcome State Fault Refusal

/-- An event other than a reset: the part takes it unless RESET# is asserted (R87, R195, R196). -/
def takeEvent (s : State) (f : State → State) : Out := .next (if s.pins.resetLow then s else f s)

/-- A host read: while RESET# is asserted it returns 00h and does nothing else (R195). -/
def takeRead (s : State) (f : State → State) : Out :=
  .next (if s.pins.resetLow then { s with pins.dataOut := 0 } else f s)

/-! ### The ends of array operations (R4, R6, R7) -/

/-- The program in progress completes: its line is GOOD (R6). -/
def programDone (s : State) : State :=
  match s.seqr with
  | some (.program l c) => opEnds (setLine s l (.good c)) l .programDone
  | _ => s

/-- The program in progress reaches its deadline: its line is TORN (R6). -/
def programExpires (s : State) : State :=
  match s.seqr with
  | some (.program l _) => opEnds (setLine s l .torn) l (.programFault .expired)
  | _ => s

/-- The read in progress ends with the line's condition and content (R4). -/
def readDone (s : State) : State :=
  match s.seqr with
  | some (.read l) => opEnds s l (.readDone (lineAt s l))
  | _ => s

/-- The erase in progress completes: every line of the segment is ERASED (R7). -/
def eraseDone (s : State) : State :=
  match s.seqr with
  | some (.erase n) => opEnds (eraseSegment s n) ⟨n, 0⟩ .eraseDone
  | _ => s

/-- The erase in progress reaches its deadline: each line is ERASED or TORN (R7). -/
def eraseExpires (s : State) : State :=
  match s.seqr with
  | some (.erase n) => opEnds (partialErase s n) ⟨n, 0⟩ .eraseFault
  | _ => s

/-! ### Timers -/

/-- The batch idle timer is RUNNING (R113). -/
def idleRunning (s : State) : Bool :=
  match s.batch with
  | some b => b.timer == .running
  | none => false

/-- The batch idle timer expires (R114). -/
def batchIdleExpires (s : State) : State := if idleRunning s then teardown s false else s

/-- The store leaves HALTED (R85): a mount begins anew after MOUNTING or FORMATTING, and any other prior state returns. -/
def leaveHalted (s : State) : State :=
  match s.eng.prior with
  | some .mounting => mountStart { s with eng.prior := none }
  | some .formatting => mountStart { s with eng.prior := none }
  | some st => { s with eng.store := st, eng.prior := none }
  | none => s

/-- The recovery timer expires (R83, R85). -/
def recoveryExpires (s : State) : State :=
  if s.eng.recovery then
    let s1 : State := { s with eng.haltReq := false, eng.recovery := false }
    if s1.eng.store = .halted then leaveHalted s1 else s1
  else s

/-! ### PFW# (R83, R85) -/

/-- PFW# is asserted: the halt request is set, the recovery timer stops, and HALTED is entered at once if the sequencer
is IDLE. -/
def powerWarning (s : State) : State :=
  haltIfDue { s with pins.pfwLow := true, eng.haltReq := true, eng.recovery := false }

/-- PFW# is deasserted: the recovery timer starts while the halt request is set or the store is HALTED. -/
def powerGood (s : State) : State :=
  let s1 : State := { s with pins.pfwLow := false }
  if s.eng.haltReq || s.eng.store == .halted then { s1 with eng.recovery := true } else s1

/-! ### Resets (R87) -/

/-- The straps are sampled and latched. -/
def latchStraps (s : State) (amount : Bool) (madr : BitVec 2) : State := { s with eng.amount := amount, eng.madr := madr }

/-- Power-on reset or RESET# begins: the operation in progress is interrupted (R9) and all volatile state cleared. -/
def resetBegins (s : State) : State := clearVolatile (interrupt s)

/-- Power-on reset from its start to its end. With RESET# still asserted the part stays in reset. -/
def powerOn (s : State) (amount : Bool) (madr : BitVec 2) : State :=
  let s1 := latchStraps (resetBegins s) amount madr
  if s.pins.resetLow then s1 else leaveReset s1

/-- RESET# is asserted. -/
def resetPinLow (s : State) : State :=
  if s.pins.resetLow then s else { resetBegins s with pins.resetLow := true }

/-- RESET# is released. -/
def resetPinHigh (s : State) (amount : Bool) (madr : BitVec 2) : State :=
  if s.pins.resetLow then leaveReset (latchStraps { s with pins.resetLow := false } amount madr) else s

end Sys2Proof.Machine
end

