-- ==== Sys2Proof/Machine/ArrayEvents.lean ====
section
/-! DEFINITION. The rows of the arbiter, the array sequencer, the batch idle timer and reclaim (chapters 1, 4, 6 and 8). -/

namespace Sys2Proof.Machine

/-- ARBITER_GRANT (R74, R75, R79). -/
def execArbiterGrant (s : State) : Out := takeEvent s arbiterGrant

/-- WAIT_SPACE_RESUME (R109). -/
def execWaitSpaceResume (s : State) : Out := takeEvent s waitSpaceResume

/-- PROGRAM_DONE (R6). -/
def execProgramDone (s : State) : Out := takeEvent s programDone

/-- PROGRAM_DEADLINE_EXPIRY (R6). -/
def execProgramDeadlineExpiry (s : State) : Out := takeEvent s programExpires

/-- READ_DONE (R4). -/
def execReadDone (s : State) : Out := takeEvent s readDone

/-- ERASE_DONE (R7). -/
def execEraseDone (s : State) : Out := takeEvent s eraseDone

/-- ERASE_DEADLINE_EXPIRY (R7). -/
def execEraseDeadlineExpiry (s : State) : Out := takeEvent s eraseExpires

/-- BATCH_IDLE_EXPIRY (R114). -/
def execBatchIdleExpiry (s : State) : Out := takeEvent s batchIdleExpires

/-- RECLAIM_WALK_STEP (R146). -/
def execReclaimWalkStep (s : State) : Out := takeEvent s reclaimWalkStep

/-- RECLAIM_FINISH_STEP (R153). A resumed retirement may meet a line 0 that is not ERASED (log entry 6). -/
def execReclaimFinishStep (s : State) : Out := takeEvent s fun s => settleRefused 8 (reclaimFinishStep s)

end Sys2Proof.Machine
end

