-- ==== Sys2Proof/Machine/BusEvents.lean ====
section
/-! DEFINITION. The rows of the management port that bring no store command: the session, the port's own answers, refused
frames, NAKed and read transfers, and the port's two timers (chapter 11). -/

namespace Sys2Proof.Machine

/-- OPEN (R204). -/
def execOpenSession (addr : BitVec 7) (ftag : Byte) (s : State) : Out := takeEvent s fun s => sendFrame s addr [0x01, ftag]

/-- CLOSE (R204). -/
def execCloseSession (addr : BitVec 7) (ftag : Byte) (s : State) : Out := takeEvent s fun s => sendFrame s addr [0x02, ftag]

/-- STATUS (R203). -/
def execStatus (addr : BitVec 7) (ftag : Byte) (s : State) : Out := takeEvent s fun s => sendFrame s addr [0x03, ftag]

/-- SEGMENT (R203). -/
def execSegment (addr : BitVec 7) (ftag n : Byte) (s : State) : Out :=
  takeEvent s fun s => sendFrame s addr [0x04, ftag, n]

/-- MGMT_FRAME_REFUSED (R199): a write transfer by its raw bytes, checked at its end. -/
def execMgmtFrameRefused (x : WriteXfer) (s : State) : Out := takeEvent s fun s => busWrite s x

/-- SLOT_NAK (R196, R197): a write transfer whose first data byte finds no slot. -/
def execSlotNak (x : WriteXfer) (s : State) : Out := takeEvent s fun s => busWrite s x

/-- MGMT_READ_TRANSFER (R201). -/
def execMgmtReadTransfer (x : ReadXfer) (s : State) : Out := takeEvent s fun s => busRead s x

/-- TRANSFER_STALL_EXPIRY (R198). -/
def execTransferStallExpiry (s : State) : Out := takeEvent s stallExpiry

/-- SESSION_LAPSE (R204). -/
def execSessionLapse (s : State) : Out := takeEvent s sessionLapse

end Sys2Proof.Machine
end

