-- ==== Sys2Proof/Machine/HostRegisters.lean ====
section
/-! DEFINITION. The rows of the host register window (chapter 10). -/

namespace Sys2Proof.Machine

/-- ABORT (R81, R188). -/
def execAbort (v : Byte) (s : State) : Out := takeEvent s fun s => hostAbort s v

/-- CPOP (R187). Any written value acts alike. -/
def execCpop (_v : Byte) (s : State) : Out := takeEvent s popCompletion

/-- BUFDATA_READ (R189). -/
def execBufdataRead (s : State) : Out := takeRead s readBufData

/-- BUFDATA_WRITE (R189, R190). -/
def execBufdataWrite (v : Byte) (s : State) : Out := takeEvent s fun s => writeBufData s v

/-- DIRCNT_LOW_READ (R180). -/
def execDircntLowRead (s : State) : Out := takeRead s readDircntLow

/-- ALERT_WRITE (R191). -/
def execAlertWrite (v : Byte) (s : State) : Out := takeEvent s fun s => clearAlerts s v

/-- ALERTMASK_WRITE (R191, R192). -/
def execAlertmaskWrite (v : Byte) (s : State) : Out := takeEvent s fun s => setMask s v

/-- CINTEN_WRITE (R193): a CONTROL write. -/
def execCintenWrite (v : Byte) (s : State) : Out := takeEvent s fun s => writeControl s v

/-- BGREN_WRITE (R193): a CONTROL write. -/
def execBgrenWrite (v : Byte) (s : State) : Out := takeEvent s fun s => writeControl s v

/-- MGMTEN_CLEAR (R205): a CONTROL write with bit 2 clear. -/
def execMgmtenClear (v : Byte) (s : State) : Out := takeEvent s fun s => writeControl s (v &&& 0xFB)

/-- MGMTEN_SET (R193): a CONTROL write with bit 2 set. -/
def execMgmtenSet (v : Byte) (s : State) : Out := takeEvent s fun s => writeControl s (v ||| 0x04)

/-- SRST (R86): a CONTROL write with bit 7 set. -/
def execSrst (v : Byte) (s : State) : Out := takeEvent s fun s => writeControl s (v ||| 0x80)

/-- RECTHR_WRITE (R194). -/
def execRecthrWrite (v : Byte) (s : State) : Out := takeEvent s fun s => setRecthr s v

/-- HOSTWT_WRITE (R194). -/
def execHostwtWrite (v : Byte) (s : State) : Out := takeEvent s fun s => setHostwt s v

/-- REGISTER_WRITE (R179). -/
def execRegisterWrite (off : BitVec 6) (v : Byte) (s : State) : Out := takeEvent s fun s => hostWrite s off.toNat v

end Sys2Proof.Machine
end

