-- ==== Sys2Proof/Machine/Resets.lean ====
section
/-! DEFINITION. The rows of the reset pins, the power-fail warning and the recovery timer (sections 4.6 and 4.7). -/

namespace Sys2Proof.Machine

/-- POWER_ON_RESET (R87). -/
def execPowerOnReset (amount : Bool) (madr : BitVec 2) (s : State) : Out := .next (powerOn s amount madr)

/-- RESET_ASSERT (R87). -/
def execResetAssert (s : State) : Out := .next (resetPinLow s)

/-- RESET_RELEASE (R87). -/
def execResetRelease (amount : Bool) (madr : BitVec 2) (s : State) : Out := .next (resetPinHigh s amount madr)

/-- PFW_ASSERT (R83). While RESET# is asserted only the pin's level is followed. -/
def execPfwAssert (s : State) : Out :=
  .next (if s.pins.resetLow then { s with pins.pfwLow := true } else powerWarning s)

/-- PFW_DEASSERT (R85). While RESET# is asserted only the pin's level is followed. -/
def execPfwDeassert (s : State) : Out :=
  .next (if s.pins.resetLow then { s with pins.pfwLow := false } else powerGood s)

/-- RECOVERY_TIMER_EXPIRY (R85). -/
def execRecoveryTimerExpiry (s : State) : Out := takeEvent s recoveryExpires

end Sys2Proof.Machine
end

