-- ==== Sys2Proof/Machine/StoreCommands.lean ====
section
/-! DEFINITION. The rows that bring a store command to its queue: host submissions (R182–R184) and management store
requests (R199, R200, R207). The engine executes them at ARBITER_GRANT. -/

namespace Sys2Proof.Machine

/-- The host writes the argument registers of a command with code `code` and tag byte `tag`, then SUBMIT. -/
def hostCommand (s : State) (code tag : Byte) (f : ArgRegs → ArgRegs) : State :=
  submitArgs s (fun a => f { a with cmd := code, tag := tag })

/-- PUT (R91, R92). -/
def execPut (a : PutArgs) (s : State) : Out :=
  takeEvent s fun s => match a with
    | .host tag key buf len => hostCommand s 0x10 tag (fun r => { r.withKey key with buf := buf, len := len })
    | .mgmt addr ftag flags key value =>
      sendFrame s addr ([0x10, ftag, flags] ++ be16 key ++ [byteOf value.length] ++ value)

/-- DELETE (R104). -/
def execDelete (a : DeleteArgs) (s : State) : Out :=
  takeEvent s fun s => match a with
    | .host tag key => hostCommand s 0x11 tag (fun r => r.withKey key)
    | .mgmt addr ftag flags key => sendFrame s addr ([0x11, ftag, flags] ++ be16 key)

/-- GET (R131). -/
def execGet (a : GetArgs) (s : State) : Out :=
  takeEvent s fun s => match a with
    | .host tag key buf => hostCommand s 0x12 tag (fun r => { r.withKey key with buf := buf })
    | .mgmt addr ftag key => sendFrame s addr ([0x12, ftag] ++ be16 key)

/-- STAT (R134). -/
def execStat (a : StatArgs) (s : State) : Out :=
  takeEvent s fun s => match a with
    | .host tag key => hostCommand s 0x13 tag (fun r => r.withKey key)
    | .mgmt addr ftag key => sendFrame s addr ([0x13, ftag] ++ be16 key)

/-- LIST (R135). -/
def execList (a : ListArgs) (s : State) : Out :=
  takeEvent s fun s => match a with
    | .host tag after buf count =>
      hostCommand s 0x14 tag (fun r => { r.withKey after with buf := buf, arg0 := count })
    | .mgmt addr ftag after count => sendFrame s addr ([0x14, ftag] ++ be16 after ++ [count])

/-- BATCH_OPEN (R115). -/
def execBatchOpen (a : BatchArgs) (s : State) : Out :=
  takeEvent s fun s => match a with
    | .host tag => hostCommand s 0x20 tag id
    | .mgmt addr ftag => sendFrame s addr [0x20, ftag]

/-- BATCH_COMMIT (R117). -/
def execBatchCommit (a : BatchArgs) (s : State) : Out :=
  takeEvent s fun s => match a with
    | .host tag => hostCommand s 0x21 tag id
    | .mgmt addr ftag => sendFrame s addr [0x21, ftag]

/-- BATCH_ABORT (R122). -/
def execBatchAbort (a : BatchArgs) (s : State) : Out :=
  takeEvent s fun s => match a with
    | .host tag => hostCommand s 0x22 tag id
    | .mgmt addr ftag => sendFrame s addr [0x22, ftag]

/-- FREEZE (R62). -/
def execFreeze (addr : BitVec 7) (ftag : Byte) (lo hi : Key) (s : State) : Out :=
  takeEvent s fun s => sendFrame s addr ([0x30, ftag] ++ be16 lo ++ be16 hi)

/-- MOUNT (R169). -/
def execMount (tag : Byte) (s : State) : Out := takeEvent s fun s => hostCommand s 0x40 tag id

/-- UNMOUNT (R170). -/
def execUnmount (tag : Byte) (s : State) : Out := takeEvent s fun s => hostCommand s 0x41 tag id

/-- FORMAT (R171). -/
def execFormat (tag : Byte) (expected newId : Word) (s : State) : Out :=
  takeEvent s fun s => hostCommand s 0x42 tag (fun r => r.withIds expected newId)

/-- RECLAIM (R143). -/
def execReclaim (tag : Byte) (s : State) : Out := takeEvent s fun s => hostCommand s 0x43 tag id

/-- SUBMIT_BAD_COMMAND (R183 step 1): CMD holds `code` and SUBMIT is written. -/
def execSubmitBadCommand (code : Byte) (s : State) : Out :=
  takeEvent s fun s => submitArgs s (fun a => { a with cmd := code })

end Sys2Proof.Machine
end

