-- ==== Sys2Proof/Machine/Dispatch.lean ====
section
/-! DEFINITION. The meaning of every command: one arm per row of spec/opcode_table.json. -/

namespace Sys2Proof.Machine

def exec (i : Instr) (s : State) : Host.Outcome State Fault Refusal :=
  match i with
  | .put a => Sys2Proof.Machine.execPut a s
  | .delete a => Sys2Proof.Machine.execDelete a s
  | .get a => Sys2Proof.Machine.execGet a s
  | .stat a => Sys2Proof.Machine.execStat a s
  | .list a => Sys2Proof.Machine.execList a s
  | .batchOpen a => Sys2Proof.Machine.execBatchOpen a s
  | .batchCommit a => Sys2Proof.Machine.execBatchCommit a s
  | .batchAbort a => Sys2Proof.Machine.execBatchAbort a s
  | .freeze addr ftag lo hi => Sys2Proof.Machine.execFreeze addr ftag lo hi s
  | .mount tag => Sys2Proof.Machine.execMount tag s
  | .unmount tag => Sys2Proof.Machine.execUnmount tag s
  | .format tag expected newId => Sys2Proof.Machine.execFormat tag expected newId s
  | .reclaim tag => Sys2Proof.Machine.execReclaim tag s
  | .submitBadCommand code => Sys2Proof.Machine.execSubmitBadCommand code s
  | .openSession addr ftag => Sys2Proof.Machine.execOpenSession addr ftag s
  | .closeSession addr ftag => Sys2Proof.Machine.execCloseSession addr ftag s
  | .status addr ftag => Sys2Proof.Machine.execStatus addr ftag s
  | .segment addr ftag n => Sys2Proof.Machine.execSegment addr ftag n s
  | .mgmtFrameRefused x => Sys2Proof.Machine.execMgmtFrameRefused x s
  | .slotNak x => Sys2Proof.Machine.execSlotNak x s
  | .mgmtReadTransfer x => Sys2Proof.Machine.execMgmtReadTransfer x s
  | .transferStallExpiry => Sys2Proof.Machine.execTransferStallExpiry s
  | .sessionLapse => Sys2Proof.Machine.execSessionLapse s
  | .arbiterGrant => Sys2Proof.Machine.execArbiterGrant s
  | .waitSpaceResume => Sys2Proof.Machine.execWaitSpaceResume s
  | .programDone => Sys2Proof.Machine.execProgramDone s
  | .programDeadlineExpiry => Sys2Proof.Machine.execProgramDeadlineExpiry s
  | .readDone => Sys2Proof.Machine.execReadDone s
  | .eraseDone => Sys2Proof.Machine.execEraseDone s
  | .eraseDeadlineExpiry => Sys2Proof.Machine.execEraseDeadlineExpiry s
  | .batchIdleExpiry => Sys2Proof.Machine.execBatchIdleExpiry s
  | .reclaimWalkStep => Sys2Proof.Machine.execReclaimWalkStep s
  | .reclaimFinishStep => Sys2Proof.Machine.execReclaimFinishStep s
  | .abort v => Sys2Proof.Machine.execAbort v s
  | .cpop v => Sys2Proof.Machine.execCpop v s
  | .bufdataRead => Sys2Proof.Machine.execBufdataRead s
  | .bufdataWrite v => Sys2Proof.Machine.execBufdataWrite v s
  | .dircntLowRead => Sys2Proof.Machine.execDircntLowRead s
  | .alertWrite v => Sys2Proof.Machine.execAlertWrite v s
  | .alertmaskWrite v => Sys2Proof.Machine.execAlertmaskWrite v s
  | .cintenWrite v => Sys2Proof.Machine.execCintenWrite v s
  | .bgrenWrite v => Sys2Proof.Machine.execBgrenWrite v s
  | .mgmtenClear v => Sys2Proof.Machine.execMgmtenClear v s
  | .mgmtenSet v => Sys2Proof.Machine.execMgmtenSet v s
  | .srst v => Sys2Proof.Machine.execSrst v s
  | .recthrWrite v => Sys2Proof.Machine.execRecthrWrite v s
  | .hostwtWrite v => Sys2Proof.Machine.execHostwtWrite v s
  | .registerWrite off v => Sys2Proof.Machine.execRegisterWrite off v s
  | .powerOnReset amount madr => Sys2Proof.Machine.execPowerOnReset amount madr s
  | .resetAssert => Sys2Proof.Machine.execResetAssert s
  | .resetRelease amount madr => Sys2Proof.Machine.execResetRelease amount madr s
  | .pfwAssert => Sys2Proof.Machine.execPfwAssert s
  | .pfwDeassert => Sys2Proof.Machine.execPfwDeassert s
  | .recoveryTimerExpiry => Sys2Proof.Machine.execRecoveryTimerExpiry s

end Sys2Proof.Machine
end

