-- ==== Sys2Proof/Safety.lean ====
section
/-! DEFINITION. What a safe state of the block is, in the terms the statements use: the laws of the device that hold of the
tables, the queues and the settings. -/

namespace Sys2Proof.Machine

/-- The directory is in strictly ascending key order, so no key stands twice, and every entry has a part (R47, R48). -/
def DirOk (d : List DirEntry) : Prop :=
  d.Pairwise (fun a b => a.key < b.key) ∧ ∀ e ∈ d, e.committed.isSome = true ∨ e.pending.isSome = true

/-- The freeze list is in ascending low key, then high key, so no range stands twice (R60). -/
def FreezeOk (l : List FreezeEntry) : Prop := l.Pairwise (fun a b => a.lo < b.lo ∨ (a.lo = b.lo ∧ a.hi < b.hi))

/-- The commit table is in ascending batch id, so it holds one entry per batch id (R125). -/
def CommitOk (l : List CommitEntry) : Prop := l.Pairwise (fun a b => a.bid < b.bid)

/-- The law of the tags (R181): a tag is QUEUED exactly when a command in the queue carries it, RUNNING exactly when the
command in flight does, COMPLETED exactly when a completion in the completion queue does; no tag stands twice; there are
16 tags and at most 8 queued commands. -/
def TagLaw (tags : List TagState) (queue : List QEntry) (cplq : List Completion) (running : Option Origin) : Prop :=
  tags.length = 16 ∧ queue.length ≤ 8 ∧ (queue.map QEntry.tag).Nodup ∧ (cplq.map Completion.tag).Nodup
  ∧ ∀ t, (tags.getD t .free = .queued ↔ t ∈ queue.map QEntry.tag)
    ∧ (tags.getD t .free = .running ↔ running = some (.host t))
    ∧ (tags.getD t .free = .completed ↔ t ∈ cplq.map Completion.tag)

/-- The law of the tags in a state. -/
def tagsOk (s : State) : Prop :=
  TagLaw s.host.tags s.host.queue s.host.cplq (s.inflight.map Ctx.origin)

/-- What the idle timer's law asks of the open batch: its owner and the timer (R110, R113). -/
def Batch.idle (b : Batch) : Port × IdleTimer := (b.owner, b.timer)

/-- What it asks of the command in flight: its port, and whether it is a batch command (R112). -/
def Ctx.batchWork (c : Ctx) : Port × Bool := (c.origin.port, c.cmd.isBatch)

/-- A batch command waits in the slot (R113). -/
def batchWaits (v : Slot) : Prop := ∃ a f c, v = .waiting a f ∧ frameCmd f = some c ∧ c.isBatch = true

/-- The port has a batch command in flight, in the host queue or in a WAITING slot (R113). -/
def batchWorkOf (p : Port) (w : Option (Port × Bool)) (q : List QEntry) (x y : Slot) : Prop :=
  w = some (p, true) ∨ (p = .host ∧ ∃ e ∈ q, e.cmd.isBatch = true) ∨ (p = .mgmt ∧ (batchWaits x ∨ batchWaits y))

/-- The law of the batch idle timer (R113): while a batch is open it is RUNNING exactly when the batch's owner has no batch
command queued or in flight. -/
def IdleLaw (b : Option (Port × IdleTimer)) (w : Option (Port × Bool)) (q : List QEntry) (x y : Slot) : Prop :=
  ∀ p t, b = some (p, t) → (t = .running ↔ ¬ batchWorkOf p w q x y)

/-- The law of the batch idle timer in a state. -/
def idleOk (s : State) : Prop :=
  IdleLaw (s.batch.map Batch.idle) (s.inflight.map Ctx.batchWork) s.host.queue s.mgmt.slotA s.mgmt.slotB

/-- The settings are in their ranges (R194). -/
def SettingsOk (c : Control) : Prop := 2 ≤ c.recthr ∧ c.recthr ≤ 16 ∧ 1 ≤ c.hostwt ∧ c.hostwt ≤ 8

/-- Live lines plus dead lines equal the write pointer minus 2, and the pointer is 2 to 256 (R39). -/
def Journal.balanced (j : Journal) : Prop := j.live + j.dead + 2 = j.wp ∧ j.wp ≤ 256

/-- The law of R39 for every journal segment of the table. -/
def tableBalanced (s : State) : Prop := ∀ e ∈ s.sm.table, ∀ j, e.st.journal? = some j → j.balanced

/-- Live lines plus dead lines equal the write pointer minus 2 (R39). -/
def Journal.lawful (j : Journal) : Prop := j.live + j.dead + 2 = j.wp

/-- A mount has not reached SETTLE, or was halted: the counts of its journal segments are not yet rebuilt (R166, R178). -/
def mountUnsettled (s : State) : Prop :=
  (s.holder = .mount ∧ s.mu.phase ≠ .settle)
  ∨ (s.eng.store = .halted ∧ s.eng.prior = some .mounting)

/-- A segment is being opened by a command's append, by a reclaim copy or by step 1 of FORMAT (R32, R173), or a mount has
not reached SETTLE: the table holds no OPEN segment. -/
def openingUnderWay (s : State) : Prop :=
  (s.holder = .command ∧ ∃ c o, s.inflight = some c ∧ c.stage = .admission o ∧ o.prep = none)
  ∨ (s.holder = .reclaim ∧ ∃ r o, s.rc.ctx = some r ∧ r.step = .admission o ∧ o.prep = none)
  ∨ (s.holder = .mount ∧ s.mu.phase ≠ .settle)
  ∨ (s.holder = .format ∧ ∃ f n, s.fu = some f ∧ ((∃ p, f.phase = .step1 n p) ∨ f.phase = .step1Open n))

/-- The law of R39 in every journal segment of a table. -/
def lawfulTable (t : List SegEntry) : Prop := ∀ e ∈ t, ∀ j, e.st.journal? = some j → j.lawful

/-- A table holds at most one OPEN segment (R25). -/
def oneOpen (t : List SegEntry) : Prop := ∀ e ∈ t, ∀ x ∈ t, ∀ i j, e.st = .opened i → x.st = .opened j → e.num = x.num

/-- A table holds no OPEN segment. -/
def noneOpen (t : List SegEntry) : Prop := ∀ e ∈ t, ∀ j, e.st ≠ .opened j

/-- A table holds no RECLAIMING segment but the victim of the reclaim context (R25, R141). -/
def victimOnly (c : Option Reclaim) (t : List SegEntry) : Prop :=
  ∀ e ∈ t, ∀ j, e.st = .reclaiming j → ∃ r, c = some r ∧ e.num = r.victim

/-- The laws of the segment table: that of R39 once a mount has rebuilt the counts; at most one OPEN segment, none while one
is being opened, and none RECLAIMING but the victim (R25). A mount runs in MOUNTING without a victim (R159), and nothing
holds the array in HALTED (R84). -/
def segmentsLawful (s : State) : Prop :=
  (mountUnsettled s ∨ lawfulTable s.sm.table) ∧ oneOpen s.sm.table ∧ (openingUnderWay s → noneOpen s.sm.table)
  ∧ victimOnly s.rc.ctx s.sm.table
  ∧ (s.holder = .mount → s.eng.store = .mounting ∧ s.rc.ctx = none) ∧ (s.eng.store = .halted → s.holder = .none)

/-- The record array is in its canonical form. -/
def ArrayOk (m : List (Nat × Line)) : Prop := Memory.wf Line.erased m = true

/-- The staging buffers are in their canonical form. -/
def StagingOk (m : List Host.Cell) : Prop := Memory.wf (0 : Byte) m = true

/-- The two addressed stores are in their canonical form. -/
def storesOk (s : State) : Prop := ArrayOk s.array ∧ StagingOk s.staging

/-- The tables are in the order the spec gives them. -/
def tablesOk (s : State) : Prop := DirOk s.dir ∧ FreezeOk s.freezes ∧ CommitOk s.commits

/-! ### The limits of the tables, the pending parts and the sequence counter -/

/-- A volume is mounted: the store is READY or READ_ONLY, or in HALTED with one of them to return to (R66, R84). -/
def volumeMounted (st : StoreState) (prior : Option StoreState) : Prop :=
  st = .ready ∨ st = .readOnly ∨ (st = .halted ∧ (prior = some .ready ∨ prior = some .readOnly))

/-- Part `p` is the committed or the pending part of an entry of the directory (R47). -/
def dirHas (d : List DirEntry) (p : Part) : Prop := ∃ e ∈ d, e.committed = some p ∨ e.pending = some p

/-- Entry `m` of the member list records the pending part `r` of key `k` (R111). -/
def Member.records (m : Member) (k : Key) (r : Part) : Prop := m.key = k ∧ m.loc = r.loc ∧ m.tomb = r.tomb

/-- The laws of the tables, over the directory, the freeze list, the commit table, the open batch, the store state, the state
to return to and the sequence counter. The limits of R48, R60, R110, R111 and R125; the pending parts and the member list name
each other (R50, R111); while a batch is open the commit table has room for its entry (R117); the counter is 0, or above every
sequence that the directory names and above the batch id (R70), and not 0 while a volume is mounted; a batch is open in a
mounted volume only. -/
structure TableLaw (d : List DirEntry) (f : List FreezeEntry) (c : List CommitEntry) (b : Option Batch) (st : StoreState)
    (prior : Option StoreState) (q : Word) : Prop where
  order : DirOk d ∧ FreezeOk f ∧ CommitOk c
  limits : d.length ≤ 512 ∧ f.length ≤ 4 ∧ c.length ≤ 64
  batch : ∀ x, b = some x → x.members.length ≤ 8 ∧ (x.members.map Member.key).Nodup ∧ c.length < 64
  listed : ∀ x, b = some x → ∀ m ∈ x.members, ∃ e ∈ d, ∃ r, e.pending = some r ∧ m.records e.key r
  pending : ∀ e ∈ d, ∀ r, e.pending = some r → ∃ x m, b = some x ∧ m ∈ x.members ∧ m.records e.key r
  below : q = 0 ∨ ((∀ p, dirHas d p → p.seq < q) ∧ ∀ x, b = some x → x.bid < q)
  counting : volumeMounted st prior → q ≠ 0
  closed : ¬ volumeMounted st prior → b = none

/-- A sequence is at most the highest that COLLECT has found (R163). -/
def MountUnit.covers (m : MountUnit) (q : Word) : Prop := ∃ h, m.highest = some h ∧ q ≤ h

/-- A mount runs in MOUNTING. Before it sets the sequence counter (R165), the counter is 0 and the highest sequence covers every
header found and every part of the directory; after, the counter is not 0. A FORMAT runs in FORMATTING, with an empty
directory. -/
def WorkLaw (h : Holder) (d : List DirEntry) (st : StoreState) (q : Word) (m : MountUnit) : Prop :=
  (h = .mount → st = .mounting ∧ ((m.phase = .settle ∧ q ≠ 0)
    ∨ (m.phase ≠ .settle ∧ q = 0 ∧ m.highest ≠ some 0xFFFFFFFF ∧ (∀ p, dirHas d p → m.covers p.seq)
      ∧ (∀ r, (r ∈ m.found ∨ r ∈ m.todo) → m.covers r.hdr.seq) ∧ ∀ j, m.judge = some j → m.covers j.record.hdr.seq)))
  ∧ (h = .format → st = .formatting ∧ d = [])

/-- The command appends a record when it passes its checks (R90, R118, R63). -/
def Cmd.appends : Cmd → Bool
  | .put .. => true
  | .delete .. => true
  | .batchCommit => true
  | .freeze .. => true
  | _ => false

/-- The key that a PUT or DELETE writes. -/
def Cmd.writes : Cmd → Option Key
  | .put k _ _ _ => some k
  | .delete k _ => some k
  | _ => none

/-- The command in flight places a record, or a report to it would be taken for one of its record's lines (R93–R97). -/
def placesRecord (h : Holder) : Stage → Prop
  | .admission _ => True
  | .waitSpace _ => True
  | .header => True
  | .data _ => True
  | .commit => True
  | .check => h = .command
  | .reclaim => h = .command
  | .mount => h = .command
  | .read => False
  | .format => False

/-- Only an appending command places a record. What its checks leave true until it ends: the store serves it; the sequence
counter has a number for it or is above the one it took (R72); the directory has room for a new entry (R48), the member list for
a member write of its owner (R111), the freeze list for a range (R60). -/
def RoomLaw (d : List DirEntry) (f : List FreezeEntry) (b : Option Batch) (st : StoreState) (q : Word) (h : Holder)
    (i : Option Ctx) : Prop :=
  ∀ c, i = some c → (placesRecord h c.stage → c.cmd.appends = true) ∧ (c.cmd.appends = true →
    (st = .ready ∨ st = .readOnly) ∧ c.stage ≠ .format
    ∧ (c.seq = none → q ≠ 0xFFFFFFFF) ∧ (∀ x, c.seq = some x → x < q)
    ∧ (∀ k, c.cmd.writes = some k → (dirLookup d k = none → d.length < 512)
      ∧ (c.cmd.isMember = true → c.batchLost = false →
        ∃ x, b = some x ∧ x.owner = c.origin.port ∧ x.members.length < 8 ∧ k ∉ x.members.map Member.key))
    ∧ (∀ lo hi, c.cmd = .freeze lo hi → f.length < 4))

/-- While RESET# is asserted no batch is open and no command is in flight (R87). -/
def resetHeld (s : State) : Prop := s.pins.resetLow = true → s.batch = none ∧ s.inflight = none

/-- The laws of the tables in a state, with what a mount, a FORMAT and the command in flight carry to keep them. -/
def tablesLawful (s : State) : Prop :=
  TableLaw s.dir s.freezes s.commits s.batch s.eng.store s.eng.prior s.eng.seqCtr
  ∧ WorkLaw s.holder s.dir s.eng.store s.eng.seqCtr s.mu
  ∧ RoomLaw s.dir s.freezes s.batch s.eng.store s.eng.seqCtr s.holder s.inflight

/-! ### Resets -/

/-- The command is a reset that interrupts the array operation in progress (R87). -/
def interrupts : Instr → Bool
  | .powerOnReset _ _ => true
  | .resetAssert => true
  | _ => false

/-- The bits a command writes to CONTROL, if it writes there (R193). -/
def controlWritten : Instr → Option Byte
  | .cintenWrite v => some v
  | .bgrenWrite v => some v
  | .mgmtenClear v => some (v &&& 0xFB)
  | .mgmtenSet v => some (v ||| 0x04)
  | .srst v => some (v ||| 0x80)
  | .registerWrite off v => if off = 0x06 then some v else none
  | _ => none

/-- The command is the end of an array operation. -/
def endsOperation : Instr → Bool
  | .programDone => true
  | .programDeadlineExpiry => true
  | .readDone => true
  | .eraseDone => true
  | .eraseDeadlineExpiry => true
  | _ => false

/-- The command may clear the volatile state (R86, R87): a reset, a CONTROL write with SRST while the sequencer is IDLE, or
the end of an operation that a soft reset waits for. -/
def mayClear (c : Instr) (s : State) : Bool :=
  interrupts c || ((controlWritten c).any (fun v => v.getLsbD 7) && s.seqr.isNone) || (endsOperation c && s.ctl.srst)

/-- The pins while RESET# is asserted (R87, R195): a host read returns 00h, PFW# is followed, nothing else moves. -/
def heldPins (c : Instr) (p : Pins) : Pins :=
  match c with
  | .bufdataRead => { p with dataOut := 0 }
  | .dircntLowRead => { p with dataOut := 0 }
  | .pfwAssert => { p with pfwLow := true }
  | .pfwDeassert => { p with pfwLow := false }
  | _ => p

/-- The state with every volatile item at its reset value (R86, R87): the array, the latched straps, the pin levels and the
model's own counter and queue stay. -/
def cleared (s : State) : State :=
  { State.reset with
      array := s.array, free := s.free, pending := s.pending,
      eng := { State.reset.eng with amount := s.eng.amount, madr := s.eng.madr },
      pins := { State.reset.pins with pfwLow := s.pins.pfwLow, resetLow := s.pins.resetLow } }

/-- What the interruption of the operation in progress leaves on the array (R9); `t` is the state after. -/
def interruptedArray (s t : State) : Prop :=
  (∀ l c, s.seqr = some (.program l c) → lineAt t l = .torn ∧ ∀ m, m ≠ l → lineAt t m = lineAt s m)
  ∧ (∀ n, s.seqr = some (.erase n) →
    (∀ k, lineAt t ⟨n, k⟩ = .erased ∨ lineAt t ⟨n, k⟩ = .torn) ∧ ∀ m, m.seg ≠ n → lineAt t m = lineAt s m)
  ∧ (s.seqr = none ∨ (∃ l, s.seqr = some (.read l)) → t.array = s.array)

/-- `s` at the beginning of a mount (R159): MOUNTING, every table empty, the counters and the volume id 0, the reclaim context
discarded, SURVEY reading line 0 of segment 0. -/
def mountBegun (s : State) : State :=
  { s with
      eng := { s.eng with store := .mounting, mountRes := .none, seqCtr := 0, volId := 0 },
      sm := ⟨[], 0, false⟩, dir := [], freezes := [], commits := [], rc := ⟨none, 0, 0⟩, fu := none,
      mu := { MountUnit.reset with phase := .survey }, holder := .mount, seqr := some (.read ⟨0, 0⟩) }

/-- No work is in progress: no command in flight, no victim, no queued command, no WAITING slot. -/
def quiet (s : State) : Prop :=
  s.inflight = none ∧ s.rc.ctx = none ∧ s.host.queue = [] ∧ ∀ b a f, slotOf s b ≠ .waiting a f

/-- A quiet state at its entry to HALTED (R84): the prior state is recorded and the HALT alert raised. -/
def haltedQuietly (s : State) : State :=
  syncIdle { s with
    eng := { s.eng with store := .halted, prior := some s.eng.store }
    alert := { s.alert with flags := s.alert.flags ||| 0x08 }
    holder := .none, fu := none }

/-- The end of a reset that has left nothing in progress (R83, R86, R87): a mount begins if AMOUNT is latched high. A PFW# that
is low counts as an assertion: the halt request is set and HALTED is entered at once, the mount's first read not issued. -/
def resetOver (s : State) : State :=
  if s.pins.pfwLow then
    let h : State := { s with eng := { s.eng with haltReq := true } }
    haltedQuietly (if s.eng.amount then { mountBegun h with seqr := none } else h)
  else if s.eng.amount then mountBegun s else s

/-- No line of a reclaim copy is being programmed. -/
def noCopyLine (s : State) : Prop := ∀ r k, s.rc.ctx = some r → r.step ≠ .program k

/-- A slot at the entry to HALTED (R84). -/
def haltedSlot : Slot → Slot
  | .waiting a f => .answered a [0x03, f.getD 1 0, 0x10, crc8 [0x03, f.getD 1 0, 0x10]]
  | .free => .free
  | .receiving a f x => .receiving a f x
  | .running a f => .running a f
  | .answered a f => .answered a f

/-- The reclaim context at the entry to HALTED (R84, R156): a copy attempt is discarded and the cursor kept; a finish step keeps
the operation that would have followed. -/
def haltedReclaim (r : Reclaim) : Reclaim :=
  match r.step with
  | .finish _ => r
  | _ => { r with step := .idle, attempt := none }

/-- A state at its entry to HALTED (R84), what becomes of the command in flight and of a copy's lines being in `s` already:
the prior state is recorded, HALT raised, the host queue flushed with HALTED completions in queue order, every WAITING slot
answered HALTED, the array released. -/
def haltedWith (s : State) : State :=
  syncIdle { s with
    eng := { s.eng with store := .halted, prior := some s.eng.store }
    alert := { s.alert with flags := s.alert.flags ||| 0x08 }
    holder := .none, fu := none
    rc := { s.rc with ctx := s.rc.ctx.map haltedReclaim }
    host := { s.host with
      queue := []
      tags := s.host.queue.foldl (fun l q => l.set q.tag .completed) s.host.tags
      cplq := s.host.cplq ++ s.host.queue.map (fun q => ⟨q.tag, ⟨.halted, 0, 0, 0, false, false, false⟩⟩) }
    mgmt := { s.mgmt with slotA := haltedSlot s.mgmt.slotA, slotB := haltedSlot s.mgmt.slotB } }

/-! ### The host's commands -/

/-- The argument ranges of R183. -/
def hostRanges : Cmd → Prop
  | .put key len buf _ => 0x0001 ≤ key.toNat ∧ key.toNat ≤ 0xFFFE ∧ len ≤ 240 ∧ buf ≤ 3
  | .delete key _ => 0x0001 ≤ key.toNat ∧ key.toNat ≤ 0xFFFE
  | .get key buf => 0x0001 ≤ key.toNat ∧ key.toNat ≤ 0xFFFE ∧ buf ≤ 3
  | .stat key => 0x0001 ≤ key.toNat ∧ key.toNat ≤ 0xFFFE
  | .list after buf count => after.toNat ≤ 0xFFFE ∧ 1 ≤ count ∧ count ≤ 16 ∧ buf ≤ 3
  | .format _ newId => newId ≠ 0
  | .freeze _ _ => False
  | _ => True

/-- A host command row: its TAG byte, the command its operands spell, and the argument registers it writes (R182, R209). -/
structure HostRow where
  tag : Byte
  cmd : Cmd
  args : ArgRegs → ArgRegs

/-- The tag of TAG bits 3–0. -/
def HostRow.no (r : HostRow) : Nat := r.tag.toNat % 16

/-- The twelve host command rows. TAG bit 4 is the batch flag of PUT and DELETE. -/
def hostRow : Instr → Option HostRow
  | .put (.host tag key buf len) =>
    some ⟨tag, .put key len.toNat buf.toNat (tag.getLsbD 4), fun a =>
      { a with cmd := 0x10, tag := tag, keyh := key.extractLsb' 8 8, keyl := key.extractLsb' 0 8, buf := buf, len := len }⟩
  | .delete (.host tag key) =>
    some ⟨tag, .delete key (tag.getLsbD 4), fun a =>
      { a with cmd := 0x11, tag := tag, keyh := key.extractLsb' 8 8, keyl := key.extractLsb' 0 8 }⟩
  | .get (.host tag key buf) =>
    some ⟨tag, .get key buf.toNat, fun a =>
      { a with cmd := 0x12, tag := tag, keyh := key.extractLsb' 8 8, keyl := key.extractLsb' 0 8, buf := buf }⟩
  | .stat (.host tag key) =>
    some ⟨tag, .stat key, fun a =>
      { a with cmd := 0x13, tag := tag, keyh := key.extractLsb' 8 8, keyl := key.extractLsb' 0 8 }⟩
  | .list (.host tag after buf count) =>
    some ⟨tag, .list after buf.toNat count.toNat, fun a =>
      { a with cmd := 0x14, tag := tag, keyh := after.extractLsb' 8 8, keyl := after.extractLsb' 0 8, buf := buf,
               arg0 := count }⟩
  | .batchOpen (.host tag) => some ⟨tag, .batchOpen, fun a => { a with cmd := 0x20, tag := tag }⟩
  | .batchCommit (.host tag) => some ⟨tag, .batchCommit, fun a => { a with cmd := 0x21, tag := tag }⟩
  | .batchAbort (.host tag) => some ⟨tag, .batchAbort, fun a => { a with cmd := 0x22, tag := tag }⟩
  | .mount tag => some ⟨tag, .mount, fun a => { a with cmd := 0x40, tag := tag }⟩
  | .unmount tag => some ⟨tag, .unmount, fun a => { a with cmd := 0x41, tag := tag }⟩
  | .format tag expected newId =>
    some ⟨tag, .format expected newId, fun a =>
      { a with
          cmd := 0x42, tag := tag,
          arg0 := expected.extractLsb' 24 8, arg1 := expected.extractLsb' 16 8,
          arg2 := expected.extractLsb' 8 8, arg3 := expected.extractLsb' 0 8,
          arg4 := newId.extractLsb' 24 8, arg5 := newId.extractLsb' 16 8,
          arg6 := newId.extractLsb' 8 8, arg7 := newId.extractLsb' 0 8 }⟩
  | .reclaim tag => some ⟨tag, .reclaim, fun a => { a with cmd := 0x43, tag := tag }⟩
  | _ => none

/-- The staging buffers after the acceptance of a command (R184). -/
def heldAfter (r : HostRow) (o : List (Option Nat)) : List (Option Nat) :=
  match r.cmd.buffer? with
  | some b => o.set b (some r.no)
  | none => o

/-- The command cannot be aborted (R81, R188). -/
def unabortable (c : Cmd) : Prop :=
  c = .mount ∨ c = .unmount ∨ c = .batchCommit ∨ ∃ e n, c = .format e n

/-! ### The grant of a command -/

/-- The array is free (R74): no operation, no unit, no halt request, no waiting soft reset, RESET# high. -/
def arrayIdle (s : State) : Prop :=
  s.pins.resetLow = false ∧ s.seqr = none ∧ s.holder = .none ∧ s.eng.haltReq = false ∧ s.ctl.srst = false

/-- The store is READY or READ_ONLY. -/
def mounted (s : State) : Prop := s.eng.store = .ready ∨ s.eng.store = .readOnly

/-- The head of one of the two ports (R75): an entry of the host queue, or a WAITING slot with its arrival number, its frame
and the command the frame spells. -/
inductive Head where
  | host (q : QEntry)
  | mgmt (b : Bool) (arrival : Nat) (frame : List Byte) (cmd : Cmd)

/-- The head's command. -/
def Head.cmd : Head → Cmd
  | .host q => q.cmd
  | .mgmt _ _ _ c => c

/-- The head's port and tag; a frame's tag is its byte 1 (R207). -/
def Head.origin : Head → Origin
  | .host q => .host q.tag
  | .mgmt b _ f _ => .mgmt b (f.getD 1 0)

/-- The head's port. -/
def Head.port : Head → Port
  | .host _ => .host
  | .mgmt .. => .mgmt

/-- The head is the one that stands (R75). -/
def Head.standsIn (s : State) : Head → Prop
  | .host q => s.host.queue.head? = some q ∧ mgmtHead s = none
  | .mgmt b a f c => s.host.queue = [] ∧ mgmtHead s = some b ∧ slotOf s b = .waiting a f ∧ frameCmd f = some c

/-- The array is free, no command is in flight, and `h` is the one head that stands (R75). -/
def headAlone (s : State) (h : Head) : Prop := arrayIdle s ∧ s.inflight = none ∧ h.standsIn s

/-- The payload of the answer to command `c` with result `r` (R202, R207); `out` are the bytes that a GET or a LIST has
gathered. -/
def answerPayload (c : Cmd) (r : Result) (out : List Byte) : List Byte :=
  let seq := [r.seq.extractLsb' 24 8, r.seq.extractLsb' 16 8, r.seq.extractLsb' 8 8, r.seq.extractLsb' 0 8]
  match c with
  | .put .. => BitVec.ofNat 8 r.len :: seq ++ [r.flags]
  | .delete .. => BitVec.ofNat 8 r.len :: seq ++ [r.flags]
  | .stat .. => BitVec.ofNat 8 r.len :: seq ++ [r.flags]
  | .get .. => BitVec.ofNat 8 r.len :: seq ++ out
  | .list .. => BitVec.ofNat 8 r.count :: r.flags :: out
  | .batchOpen => seq ++ [BitVec.ofNat 8 r.count]
  | .batchCommit => seq ++ [BitVec.ofNat 8 r.count]
  | .batchAbort => seq ++ [BitVec.ofNat 8 r.count]
  | .freeze .. => seq
  | .mount => []
  | .unmount => []
  | .format .. => []
  | .reclaim => []

/-- The answer of a slot whose request, with tag `ftag`, is command `c` and has completed with `r` (R202, R207). -/
def answerFrame (ftag : Byte) (c : Cmd) (r : Result) (out : List Byte) : List Byte :=
  responseFrame ftag r.status.code (answerPayload c r out)

/-- The management port with slot `b` holding `v`. -/
def slotPut (m : MgmtPort) (b : Bool) (v : Slot) : MgmtPort := if b then { m with slotB := v } else { m with slotA := v }

/-- The host port after the grant of the head: a host head leaves the queue and its tag is RUNNING (R185). -/
def Head.grantHost (p : HostPort) : Head → HostPort
  | .host q => { p with queue := p.queue.tail, tags := p.tags.set q.tag .running }
  | .mgmt .. => p

/-- The management port after the grant of the head: a management head's slot is RUNNING (R197). -/
def Head.grantMgmt (m : MgmtPort) : Head → MgmtPort
  | .host _ => m
  | .mgmt b a f _ => slotPut m b (.running a f)

/-- The host port after the head's command has completed at its grant (R185, R186). -/
def Head.answerHost (p : HostPort) (r : Result) : Head → HostPort
  | .host q => { p with queue := p.queue.tail, tags := p.tags.set q.tag .completed, cplq := p.cplq ++ [⟨q.tag, r⟩] }
  | .mgmt .. => p

/-- The management port after the head's command has completed at its grant (R202). -/
def Head.answerMgmt (m : MgmtPort) (r : Result) : Head → MgmtPort
  | .host _ => m
  | .mgmt b a f c => slotPut m b (.answered a (answerFrame (f.getD 1 0) c r []))

/-- `s` after the grant of the head `h` and its completion at the same event with result `res`, the effect of the
command itself being in `s` already (R75, R78, R113, R185, R186, R202). -/
def answeredAtGrant (s : State) (h : Head) (res : Result) : State :=
  syncIdle { s with
    host := h.answerHost s.host res
    mgmt := h.answerMgmt s.mgmt res
    eng := { s.eng with runCount := 0 }
    inflight := none }

/-- `s` after the grant of the head `h`, the command being in flight with context `c` (R75, R185, R197). -/
def grantedWith (s : State) (h : Head) (c : Ctx) : State :=
  { s with
    host := h.grantHost s.host
    mgmt := h.grantMgmt s.mgmt
    eng := { s.eng with runCount := 0 }
    inflight := some c }

/-- Between `s` and `u` the port of the command with context `c` has been handed its result (R78, R186, R202): a completion at
the tail of the host's queue, or the answer in the command's slot; `out` are the bytes that a GET or a LIST has gathered. -/
def handedTo (s u : State) (c : Ctx) (r : Result) (out : List Byte) : Prop :=
  match c.origin with
  | .host t => u.host.tags = s.host.tags.set t .completed ∧ u.host.cplq = s.host.cplq ++ [⟨t, r⟩] ∧ u.mgmt = s.mgmt
  | .mgmt b ftag => u.host = s.host
    ∧ ∀ a f, slotOf s b = .running a f → slotOf u b = .answered a (answerFrame ftag c.cmd r out) ∧ slotOf u (!b) = slotOf s (!b)

/-- `s` after the in-flight command with context `c`, the host's tag `t`, has completed with result `res` (R78, R186). -/
def answeredHost (s : State) (t : Nat) (res : Result) : State :=
  { s with
    host := { s.host with tags := s.host.tags.set t .completed, cplq := s.host.cplq ++ [⟨t, res⟩] }
    inflight := none
    holder := if s.holder = .command then .none else s.holder }

/-- The host port once the command with context `c` has been handed result `r` (R186). -/
def hostHanded (p : HostPort) (c : Ctx) (r : Result) : HostPort :=
  match c.origin with
  | .host t => { p with tags := p.tags.set t .completed, cplq := p.cplq ++ [⟨t, r⟩] }
  | .mgmt .. => p

/-- The management port once the command with context `c` has been handed result `r` (R202). -/
def mgmtHanded (m : MgmtPort) (c : Ctx) (r : Result) : MgmtPort :=
  match c.origin with
  | .host _ => m
  | .mgmt b ftag =>
    match if b then m.slotB else m.slotA with
    | .running a _ => slotPut m b (.answered a (answerFrame ftag c.cmd r c.job.out))
    | _ => m

/-- `s` after the in-flight command with context `c`, of either port, has completed with result `r` (R78, R186, R202); no
teardown waits for it. -/
def answeredCmd (s : State) (c : Ctx) (r : Result) : State :=
  { s with
    host := hostHanded s.host c r
    mgmt := mgmtHanded s.mgmt c r
    inflight := none
    holder := if s.holder = .command then .none else s.holder }

/-- Nothing stops the command with context `c`: no abort, no lost batch, no teardown that waits for it. -/
def Ctx.unstopped (c : Ctx) : Prop := c.stopping = false ∧ c.batchLost = false ∧ c.tearDue = false

/-- The sequence field of a HALTED completion (R84, R103): the consumed sequence, or 0 if none; 0 for a BATCH_COMMIT, to which no
rule gives a value (R202). -/
def haltedSeq (c : Ctx) : Word := if c.cmd = .batchCommit then 0 else c.seq.getD 0

/-- `r` is the result of the in-flight command `c` when HALTED is entered with no record of it in progress (R84): of a command in
WAIT_SPACE or ADMIT, the consumed sequence; of a MOUNT or FORMAT, no field; of a RECLAIM command, RETRIED; of a GET or LIST, what
has been placed so far, and a GET's committed sequence (R132, R136). -/
def haltedResult (s : State) (c : Ctx) (r : Result) : Prop :=
  (((∃ b, c.stage = .waitSpace b) ∨ (∃ o, c.stage = .admission o) ∨ c.stage = .mount ∨ c.stage = .format)
    ∧ r = ⟨.halted, 0, haltedSeq c, 0, false, false, c.retried⟩)
  ∨ (c.stage = .reclaim ∧ ∃ x, s.rc.ctx = some x ∧ r = ⟨.halted, 0, 0, 0, false, false, x.copyRetried⟩)
  ∨ (c.stage = .read ∧ (∃ k buf, c.cmd = .get k buf) ∧ r = ⟨.halted, c.job.placed, c.job.seq, 0, false, false, false⟩)
  ∨ (c.stage = .read ∧ (∃ k buf n, c.cmd = .list k buf n)
    ∧ r = ⟨.halted, 3 * c.job.placed, 0, c.job.placed, false, false, false⟩)

/-- The state check of R67 answers `st`. -/
def stateRefused (store : StoreState) (c : Cmd) (st : Status) : Prop :=
  (st = .notReady ∧ (store = .unmounted ∨ store = .failed) ∧ c ≠ .mount ∧ ∀ e n, c ≠ .format e n)
  ∨ (st = .readOnly ∧ store = .readOnly
    ∧ (c.isBatch = true ∨ (∃ k n b, c = .put k n b false) ∨ (∃ k, c = .delete k false) ∨ (∃ l h, c = .freeze l h) ∨ c = .reclaim))

/-- The key is present with the committed part `p` (R47). -/
def presentAs (s : State) (k : Key) (p : Part) : Prop :=
  ∃ e, dirLookup s.dir k = some e ∧ e.committed = some p ∧ p.tomb = false

/-- The key's entry has a pending part (R47). -/
def heldKey (s : State) (k : Key) : Prop := ∃ e p, dirLookup s.dir k = some e ∧ e.pending = some p

/-- The key lies in a freeze range (R60). -/
def frozenKey (s : State) (k : Key) : Prop := ∃ f ∈ s.freezes, f.lo.toNat ≤ k.toNat ∧ k.toNat ≤ f.hi.toNat

/-- Tests 2 to 4 of R80 for a write of `k` from port `p`: `member` is the batch flag. -/
def writeBarred (s : State) (p : Port) (k : Key) (member : Bool) (st : Status) : Prop :=
  (st = .frozen ∧ frozenKey s k)
  ∨ (st = .batchDuplicate ∧ ¬ frozenKey s k ∧ heldKey s k ∧ member = true ∧ ∃ b, s.batch = some b ∧ b.owner = p)
  ∨ (st = .keyHeld ∧ ¬ frozenKey s k ∧ heldKey s k ∧ ¬ (member = true ∧ ∃ b, s.batch = some b ∧ b.owner = p))
  ∨ (st = .noBatch ∧ ¬ frozenKey s k ∧ ¬ heldKey s k ∧ member = true ∧ s.batch = none)
  ∨ (st = .batchNotOwner ∧ ¬ frozenKey s k ∧ ¬ heldKey s k ∧ member = true ∧ ∃ b, s.batch = some b ∧ b.owner ≠ p)
  ∨ (st = .batchFull ∧ ¬ frozenKey s k ∧ ¬ heldKey s k ∧ member = true
      ∧ ∃ b, s.batch = some b ∧ b.owner = p ∧ 8 ≤ b.members.length)

/-- No test of 2 to 4 of R80 fails for a write from port `p`. -/
def writeOpen (s : State) (p : Port) (k : Key) (member : Bool) : Prop :=
  ¬ frozenKey s k ∧ ¬ heldKey s k
  ∧ (member = true → ∃ b, s.batch = some b ∧ b.owner = p ∧ b.members.length < 8)

/-- The freeze list has this very range (R62 step 2). -/
def rangeFrozen (s : State) (lo hi : Key) : Prop := ∃ f ∈ s.freezes, f.lo = lo ∧ f.hi = hi

/-- A key of the range has a pending part (R62 step 4). -/
def rangeHoldsPending (s : State) (lo hi : Key) : Prop :=
  ∃ e ∈ s.dir, e.pending ≠ none ∧ lo.toNat ≤ e.key.toNat ∧ e.key.toNat ≤ hi.toNat

/-- The batch id of a write (R90): the open batch's for a member write, 0 otherwise. -/
def bidOf (s : State) (member : Bool) : Word :=
  if member then (match s.batch with | some b => b.bid | none => 0) else 0

/-- The value bytes of a PUT in flight from the port of `o` (R91, R92): from the staging buffer, or from its frame in the RUNNING
slot. -/
def valueFrom (s : State) (o : Origin) (buf len : Nat) : List Byte :=
  match o with
  | .host _ => stagingBytes s buf len
  | .mgmt b _ =>
    match slotOf s b with
    | .running _ f => (f.drop 6).take (f.getD 5 0).toNat
    | .free => []
    | .waiting .. => []
    | .receiving .. => []
    | .answered .. => []

/-- The lines of the record that command `c` in flight from the port of `o` appends with the counter's sequence (R11, R63,
R90, R118). -/
def recordFor (s : State) (o : Origin) : Cmd → List LineBits
  | .put k len buf m => recordLines .value k s.eng.seqCtr (bidOf s m) (valueFrom s o buf len)
  | .delete k m => recordLines .tombstone k s.eng.seqCtr (bidOf s m) []
  | .freeze lo hi =>
    recordLines .freeze 0 s.eng.seqCtr 0 [lo.extractLsb' 8 8, lo.extractLsb' 0 8, hi.extractLsb' 8 8, hi.extractLsb' 0 8]
  | .batchCommit =>
    match s.batch with
    | some b => recordLines .commit 0 s.eng.seqCtr 0 (
        [b.bid.extractLsb' 24 8, b.bid.extractLsb' 16 8, b.bid.extractLsb' 8 8, b.bid.extractLsb' 0 8,
          BitVec.ofNat 8 b.members.length]
        ++ b.members.flatMap (fun m => [m.key.extractLsb' 8 8, m.key.extractLsb' 0 8]))
    | none => []
  | .get .. => []
  | .stat .. => []
  | .list .. => []
  | .batchOpen => []
  | .batchAbort => []
  | .mount => []
  | .unmount => []
  | .format .. => []
  | .reclaim => []

/-- The head's command passes every check but the sequence counter's and admission: a PUT or DELETE (R80), a FREEZE (R62), or a
BATCH_COMMIT with members (R117). -/
def checksPass (s : State) (h : Head) : Prop :=
  (∃ k len buf m, h.cmd = .put k len buf m ∧ writeOpen s h.port k m
    ∧ (dirLookup s.dir k = none → s.dir.length + s.rc.droppedTombs < 512))
  ∨ (∃ k m p, h.cmd = .delete k m ∧ writeOpen s h.port k m ∧ presentAs s k p)
  ∨ (∃ lo hi, h.cmd = .freeze lo hi ∧ ¬ rangeFrozen s lo hi ∧ s.freezes.length < 4 ∧ ¬ rangeHoldsPending s lo hi)
  ∨ (h.cmd = .batchCommit ∧ ∃ b, s.batch = some b ∧ b.owner = h.port ∧ b.members ≠ [])

/-- Command `c` in flight from the port of `o` appends a record, and `lines` are its lines with the counter's sequence; a
management PUT holds as many value bytes as its frame states (R199 step 4). -/
def appends (s : State) (o : Origin) (c : Cmd) (lines : List LineBits) : Prop :=
  lines = recordFor s o c ∧ lines ≠ [] ∧ ∀ k len buf m, c = .put k len buf m → (valueFrom s o buf len).length = len

/-- A context just made for the head's command (R77). -/
def freshCtx (h : Head) : Ctx :=
  { origin := h.origin, cmd := h.cmd, stage := .check, seq := none, retried := false, stopping := false,
    batchLost := false, tearDue := false, lines := [], place := ⟨0, 0⟩, job := emptyJob }

/-- The head's command passes every check but admission, and `lines` are the lines of its record once it is in flight. -/
def appendPasses (s : State) (h : Head) (lines : List LineBits) : Prop :=
  s.eng.seqCtr ≠ 0xFFFFFFFF ∧ checksPass s h ∧ appends (grantedWith s h (freshCtx h)) h.origin h.cmd lines

/-- The append of the head's command placed at `l` (R90, R94): it has taken the counter's sequence, and the program of its header
line is issued. -/
def appendPlaced (s : State) (h : Head) (lines : List LineBits) (l : Loc) : State :=
  { grantedWith s h { freshCtx h with stage := .header, seq := some s.eng.seqCtr, lines := lines, place := l } with
    eng := { s.eng with runCount := 0, seqCtr := s.eng.seqCtr + 1 }
    holder := .command, seqr := some (.program l (lines.getD 0 0)) }

/-- A READY store at its entry to READ_ONLY, but for the teardown of the open batch (R69): RDONLY is raised. -/
def enteringReadOnly (s : State) : State :=
  { s with eng := { s.eng with store := .readOnly }, alert := { s.alert with flags := s.alert.flags ||| 0x80 } }

/-- A segment of the table with this state. -/
def standsAs (s : State) (n : Nat) (st : SegState) : Prop := ∃ e ∈ s.sm.table, e.num = n ∧ e.st = st

/-- The table is in ascending segment number, one entry a segment (R24). -/
def tableOrdered (s : State) : Prop := (s.sm.table.map SegEntry.num).Pairwise (· < ·)

/-- Reclaim can gain space (R35 step 3): a victim stands, or a CLOSED segment with pins 0 has dead lines. -/
def spaceCanBeGained (s : State) : Prop :=
  s.rc.ctx ≠ none ∨ ∃ n j, standsAs s n (.closed j) ∧ j.pins = 0 ∧ 0 < j.dead

/-- Segment `n` is the FREE one with the lowest erase count, ties to the lowest number (R31). -/
def leastWorn (s : State) (n : Nat) : Prop :=
  ∃ e ∈ s.sm.table, e.num = n ∧ e.st = .free ∧ ∀ x ∈ s.sm.table, x.st = .free →
    e.eraseCount < x.eraseCount ∨ (e.eraseCount = x.eraseCount ∧ e.num ≤ x.num)

/-- The OPEN segment, if there is one, has fewer than `n` lines left (R35 step 1). -/
def noRoomFor (s : State) (n : Nat) : Prop := ∀ m j, openSegment s = some (m, j) → 256 - j.wp < n

/-- A record's line program is in progress for the in-flight command `c` of origin `o`: the command holds the array and
nothing stops it. -/
def programmingFor (s : State) (c : Ctx) (o : Origin) (l : Loc) (content : LineBits) : Prop :=
  s.pins.resetLow = false ∧ s.ctl.srst = false ∧ s.eng.haltReq = false ∧ s.holder = .command ∧ s.inflight = some c
  ∧ s.seqr = some (.program l content) ∧ c.origin = o ∧ c.stopping = false ∧ c.batchLost = false ∧ c.tearDue = false

/-- The same for a host command with tag `t`. -/
def programming (s : State) (c : Ctx) (t : Nat) (l : Loc) (content : LineBits) : Prop :=
  programmingFor s c (.host t) l content

/-- The command in flight has completed: nothing is in flight and the array is free. -/
def commandOver (u : State) : Prop := u.inflight = none ∧ u.holder = .none ∧ u.seqr = none

/-- Record `a` lies after record `b` in journal order (R22, R57): above it in its segment, or in a segment opened later. -/
def liesAfter (s : State) (a b : Loc) : Prop :=
  (a.seg = b.seg ∧ b.line < a.line)
  ∨ (a.seg ≠ b.seg ∧ ∃ x y, journalOf s a.seg = some x ∧ journalOf s b.seg = some y ∧ y.epoch < x.epoch)

/-- The lines of the committed records in segment `n` that the promotion of these members supersedes (R53). -/
def supersededLines (s : State) (ms : List Member) (n : Nat) : Nat :=
  (s.dir.map (fun e =>
    if e.key ∈ ms.map Member.key ∧ e.pending ≠ none then
      match e.committed with
      | some o => if o.loc.seg = n then 2 + (o.len + 15) / 16 else 0
      | none => 0
    else 0)).sum

/-- The same under a halt request: HALTED is entered when the program ends (R83). -/
def programmingUnderHalt (s : State) (c : Ctx) (l : Loc) (content : LineBits) : Prop :=
  s.pins.resetLow = false ∧ s.ctl.srst = false ∧ s.eng.haltReq = true ∧ s.eng.store ≠ .halted ∧ noCopyLine s
  ∧ s.holder = .command ∧ s.inflight = some c ∧ s.seqr = some (.program l content) ∧ c.unstopped

/-- The operation in progress that a command of section 1.1 ends (R4, R6, R7). -/
def endsOp : Instr → SeqOp → Prop
  | .readDone, .read _ => True
  | .programDone, .program _ _ => True
  | .programDeadlineExpiry, .program _ _ => True
  | .eraseDone, .erase _ => True
  | .eraseDeadlineExpiry, .erase _ => True
  | _, _ => False

/-- The operation of stage `p` of the preparation sequence or retirement of segment `n` (R29, R44). -/
def prepOp (n : Nat) (p : PrepStage) (op : SeqOp) : Prop :=
  match p with
  | .erase => op = .erase n
  | .spare => ∃ x, op = .program ⟨n, 0⟩ x
  | .retireRead => op = .read ⟨n, 0⟩
  | .retireProg => ∃ x, op = .program ⟨n, 0⟩ x

/-- `op` is an operation of a GET, a LIST, a FORMAT or a mount. -/
def readOrTableOp (s : State) (op : SeqOp) : Prop :=
  (s.holder = .command ∧ (∃ c, s.inflight = some c ∧ (c.stage = .read ∨ c.stage = .format)) ∧ ∃ l, op = .read l)
  ∨ (s.holder = .mount ∧ s.mu.phase ≠ .settle ∧ ∃ l, op = .read l)
  ∨ (s.holder = .mount ∧ s.mu.phase = .settle ∧ ∃ n p, n < 64 ∧ s.mu.settling = some (n, p) ∧ prepOp n p op)
  ∨ (s.holder = .format ∧ ∃ f n, n < 64 ∧ s.fu = some f
    ∧ ((∃ p, f.phase = .step1 n p ∧ prepOp n p op ∧ (p = .spare → lineAt s ⟨n, 1⟩ = .erased))
      ∨ (∃ p, f.phase = .step2 n p ∧ prepOp n p op) ∨ (f.phase = .step1Open n ∧ ∃ x, op = .program ⟨n, 1⟩ x)))

/-- Such an operation is in progress under a halt request, and the command `i` ends it. -/
def endingUnderHalt (s : State) (i : Instr) : Prop :=
  s.pins.resetLow = false ∧ s.ctl.srst = false ∧ s.eng.haltReq = true ∧ s.eng.store ≠ .halted ∧ noCopyLine s
  ∧ ArrayOk s.array ∧ ∃ op, s.seqr = some op ∧ endsOp i op ∧ readOrTableOp s op

/-- `w` with the halt request set and without the operation that the engine would have issued (R83). -/
def heldBack (w : State) : State := { w with seqr := none, eng := { w.eng with haltReq := true } }

/-- `u` is HALTED, entered from `s` at the end of an operation of the command with context `c`, which completed with `r`
(R84). -/
def haltedAfter (s u : State) (c : Ctx) (r : Result) : Prop :=
  u.eng.store = .halted ∧ u.eng.prior = some s.eng.store ∧ u.inflight = none ∧ u.seqr = none ∧ u.holder = .none
  ∧ u.alert.flags.getLsbD 3 = true ∧ u.host.queue = []
  ∧ u.host.cplq = (answeredCmd s c r).host.cplq
    ++ s.host.queue.map (fun q => ⟨q.tag, ⟨.halted, 0, 0, 0, false, false, false⟩⟩)
  ∧ u.mgmt.slotA = haltedSlot (answeredCmd s c r).mgmt.slotA ∧ u.mgmt.slotB = haltedSlot (answeredCmd s c r).mgmt.slotB
  ∧ u.freezes = s.freezes ∧ u.commits = s.commits

/-- A read is in progress for the in-flight command `c`, and nothing stops it. -/
def readingFor (s : State) (c : Ctx) (l : Loc) : Prop :=
  s.pins.resetLow = false ∧ s.ctl.srst = false ∧ s.eng.haltReq = false ∧ s.holder = .command ∧ s.inflight = some c
  ∧ s.seqr = some (.read l) ∧ c.stopping = false ∧ c.tearDue = false

/-- The key `k`, present with part `p`, is the lowest present key above `after` (R58). -/
def lowestAbove (s : State) (after k : Key) (p : Part) : Prop :=
  presentAs s k p ∧ after < k ∧ ∀ x y, presentAs s x y → after < x → k ≤ x

/-- Between `s` and `u` the bytes `v` have been placed for a GET or LIST: of the host, in buffer `buf` from byte `i`; of the
management port, in no buffer (R132, R133, R136). -/
def placedIn (s u : State) (c : Ctx) (buf i : Nat) (v : List Byte) : Prop :=
  match c.origin with
  | .host _ => ∀ b k, k < 256 → stagingRead u b k =
    if b = buf ∧ i ≤ k ∧ k < i + v.length then v.getD (k - i) 0 else stagingRead s b k
  | .mgmt .. => u.staging = s.staging

/-- The bytes gathered for the answer of a management GET or LIST once `v` has been placed (R133, R136). -/
def gathered (c : Ctx) (v : List Byte) : List Byte :=
  match c.origin with
  | .host _ => c.job.out
  | .mgmt .. => c.job.out ++ v

/-- Reclaim may take a background step (R74 claim 5, R145). -/
def backgroundFree (s : State) : Prop :=
  arrayIdle s ∧ mounted s ∧ s.inflight = none ∧ s.host.queue = [] ∧ mgmtHead s = none

/-- The committed part that `k` has, of either kind (R47). -/
def committedOf (s : State) (k : Key) : Option Part :=
  match dirLookup s.dir k with
  | some e => e.committed
  | none => none

/-! ### The walk of a victim -/

/-- The table of the record's kind names location `l` (R55, R64, R126). -/
def namedAt (s : State) (h : Hdr) (l : Loc) : Prop :=
  match h.kind with
  | .value => ∃ p, committedOf s h.key = some p ∧ p.loc = l
  | .tombstone => ∃ p, committedOf s h.key = some p ∧ p.loc = l
  | .commit => ∃ x ∈ s.commits, x.loc = l
  | .freeze => ∃ x ∈ s.freezes, x.loc = l

/-- The record is a marker that a walk drops (R57, R147): a named COMMIT record, or a named TOMBSTONE not marked shadowed, of
the lowest-epoch journal segment. -/
def droppedAt (s : State) (h : Hdr) (l : Loc) : Prop :=
  namedAt s h l ∧ lowestEpoch s = some l.seg
  ∧ (h.kind = .commit ∨ (h.kind = .tombstone ∧ ∀ p, committedOf s h.key = some p → p.shadowed = false))

/-- The walk's header read is in progress at `l`, for victim context `r`, and nothing stops it. -/
def walkReading (s : State) (r : Reclaim) (l : Loc) : Prop :=
  s.pins.resetLow = false ∧ s.ctl.srst = false ∧ s.eng.haltReq = false ∧ s.holder = .reclaim ∧ s.rc.ctx = some r
  ∧ r.step = .header ∧ l = ⟨r.victim, r.cursor⟩ ∧ s.seqr = some (.read l)

/-- A line of copy attempt `a` of victim context `r` is being programmed, and nothing stops it; `k` is the line's index. -/
def copying (s : State) (r : Reclaim) (a : Attempt) (k : Nat) (l : Loc) (content : LineBits) : Prop :=
  s.pins.resetLow = false ∧ s.ctl.srst = false ∧ s.eng.haltReq = false ∧ s.holder = .reclaim ∧ s.rc.ctx = some r
  ∧ r.step = .program k ∧ r.attempt = some a ∧ s.seqr = some (.program l content)

/-- The victim's next record: the cursor past `e` lines, no attempt, no operation. -/
def walkedPast (r : Reclaim) (e : Nat) : Reclaim := { r with cursor := r.cursor + e, step := .idle, attempt := none }

/-- The counts after the copy `a` of `e` lines has been completed and re-pointed (R151): live in its own segment, the original
dead in the victim. -/
def copyAccounted (s u : State) (r : Reclaim) (a : Attempt) (e : Nat) : Prop :=
  ∀ n j, journalOf s n = some j →
    let g := if n = a.place.seg then e else 0
    let x := if n = r.victim then min e (j.live + g) else 0
    journalOf u n = some { j with wp := j.wp + g, live := j.live + g - x, dead := j.dead + x }

/-- Segment `n` is a candidate for reclaim (R144): CLOSED with pins 0. -/
def isCandidate (s : State) (n : Nat) (x : Journal) : Prop := standsAs s n (.closed x) ∧ x.pins = 0

/-- Segment `v` is the victim that R144 chooses: with 48 commit entries or more the lowest-epoch journal segment, if it is a
candidate; else the candidate with the most dead lines, ties going to the lowest epoch, above 0. -/
def victimChosen (s : State) (v : Nat) (j : Journal) : Prop :=
  isCandidate s v j
  ∧ ((48 ≤ s.commits.length ∧ ∀ n x, journalOf s n = some x → n ≠ v → j.epoch < x.epoch)
    ∨ ((48 ≤ s.commits.length → ∀ n x, isCandidate s n x → ∃ m i, journalOf s m = some i ∧ i.epoch < x.epoch)
      ∧ 0 < j.dead ∧ ∀ n x, isCandidate s n x → n ≠ v → x.dead < j.dead ∨ (x.dead = j.dead ∧ j.epoch < x.epoch)))

/-- No segment can be chosen (R144): no candidate has dead lines, nor, with 48 commit entries or more, the lowest epoch. -/
def noVictim (s : State) : Prop :=
  ∀ n x, isCandidate s n x → x.dead = 0 ∧ (48 ≤ s.commits.length → ∃ m i, journalOf s m = some i ∧ i.epoch < x.epoch)

/-- The RECLAIM command `c` has completed with `r`, its victim having left RECLAIMING (R143): no context, nothing in flight, the
array free. -/
def reclaimOver (s u : State) (c : Ctx) (r : Result) : Prop :=
  u.rc.ctx = none ∧ commandOver u ∧ handedTo s u c r c.job.out

/-! ### Mount and FORMAT (chapter 9) -/

/-- The array operation `op` of the work unit `h` is in progress, and nothing stops it. -/
def operating (s : State) (h : Holder) (op : SeqOp) : Prop :=
  s.pins.resetLow = false ∧ s.ctl.srst = false ∧ s.eng.haltReq = false ∧ s.holder = h ∧ s.seqr = some op

/-- What R20 makes of a line 0. -/
def line0Reads (x : Line) (y : Line0) : Prop :=
  (x = .erased ∧ y = .erased) ∨ (x = .torn ∧ y = .torn)
  ∨ ∃ c, x = .good c ∧
    let b := lineBytes c
    let sound := crc16 (b.take 14) = word16At b 14 ∧ (byteAt b 4 = 0x5A ∨ byteAt b 4 = 0xA5) ∧ word32At b 5 ≠ 0#32
    (word32At b 0 ≠ 0x3A91C40E#32 ∧ y = .foreign)
    ∨ (word32At b 0 = 0x3A91C40E#32 ∧ ¬ sound ∧ y = .torn)
    ∨ (word32At b 0 = 0x3A91C40E#32 ∧ sound ∧ byteAt b 4 = 0x5A ∧ y = .spare (word32At b 5) (word24At b 9))
    ∨ (word32At b 0 = 0x3A91C40E#32 ∧ sound ∧ byteAt b 4 = 0xA5 ∧ y = .retired (word32At b 5) (word24At b 9))

/-- The state line 1 gives a segment whose line 0 is a valid SPARE line with volume id `vid` (R21, R160), and the highest epoch
of the valid opening lines with a volume mismatch, `stray` before this line and `stray'` after it (R27). -/
def line1Gives (vid stray : Word) (x : Line) (st : SegState) (stray' : Word) : Prop :=
  (x = .erased ∧ st = .free ∧ stray' = stray) ∨ (x = .torn ∧ st = .dirty ∧ stray' = stray)
  ∨ ∃ c, x = .good c ∧
    let b := lineBytes c
    let valid := word32At b 0 = 0x4F70B2E9#32 ∧ crc16 (b.take 14) = word16At b 14 ∧ word32At b 4 ≠ 0#32
    (valid ∧ word32At b 8 = vid ∧ st = .closed ⟨word32At b 4, 0, 0, 0, 0⟩ ∧ stray' = stray)
    ∨ (valid ∧ word32At b 8 ≠ vid ∧ st = .dirty ∧ stray' = if stray < word32At b 4 then word32At b 4 else stray)
    ∨ (¬ valid ∧ st = .dirty ∧ stray' = stray)

/-- `o` is `s`, in which a MOUNT command of the host that is in flight has completed with `r` (R168, R169). -/
def mounterTold (s : State) (r : Result) (o : Out) : Prop :=
  (s.inflight = none → o = .next s)
  ∧ ∀ c t, s.inflight = some c → c.stage = .mount → c.origin = .host t → c.tearDue = false →
    o = .next (syncIdle (answeredHost s t r))

/-- A mount ends with a failing result (R168): the tables and the counters are empty, MOUNTED is raised, a MOUNT command
completes NOT_READY. -/
def mountFails (s : State) (m : MountResult) (o : Out) : Prop :=
  mounterTold { s with
    eng := { s.eng with store := if m = .blank then .unmounted else .failed, mountRes := m, seqCtr := 0, volId := 0 }
    sm := ⟨[], 0, false⟩, dir := [], freezes := [], commits := [], holder := .none, seqr := none
    mu := { s.mu with phase := .idle }, alert := { s.alert with flags := s.alert.flags ||| 0x01 } }
    ⟨.notReady, 0, 0, 0, false, false, false⟩ o

/-- A mount ends OK (R168): READY, or READ_ONLY with RDONLY when fewer than 4 segments are usable; MOUNTED is raised. -/
def mountSucceeds (s : State) (o : Out) : Prop :=
  mounterTold { s with
    eng := { s.eng with store := if 4 ≤ usableCount s then .ready else .readOnly, mountRes := .ok, volId := s.mu.foundVid }
    holder := .none, seqr := none, mu := { s.mu with phase := .idle, settling := none }
    alert := { s.alert with flags := if 4 ≤ usableCount s then s.alert.flags ||| 0x01 else s.alert.flags ||| 0x01 ||| 0x80 } }
    ⟨.ok, 0, s.mu.foundVid, usableCount s, false, false, false⟩ o

/-- SETTLE goes on (R167): the next DIRTY segment in ascending number is erased; with none left the mount ends OK. -/
def settleGoesOn (s : State) (o : Out) : Prop :=
  (∀ n, standsAs s n .dirty → (∀ m, standsAs s m .dirty → n ≤ m) →
    o = .next { s with mu := { s.mu with phase := .settle, settling := some (n, .erase) }, seqr := some (.erase n) })
  ∧ ((∀ n, ¬ standsAs s n .dirty) → mountSucceeds s o)

/-- The lines of segment `n` in the records the tables name (R166). -/
def recordLinesNamed (s : State) (n : Nat) : Nat :=
  (s.dir.map (fun e => match e.committed with
    | some p => if p.loc.seg = n then 2 + (p.len + 15) / 16 else 0
    | none => 0)).sum
  + (s.commits.map (fun c => if c.loc.seg = n then
      (match s.mu.extents.find? (fun x => x.1 == c.bid) with | some x => x.2 | none => 0) else 0)).sum
  + (s.freezes.map (fun f => if f.loc.seg = n then 3 else 0)).sum

/-- ACCOUNT (R166): the newest journal segment is OPEN at its write pointer `w` when that is below 256 and its scan did not
stop; every other is CLOSED at 256; the lines below the pointer are live as far as the tables name them, and dead otherwise. -/
def journalAccounted (s : State) (n : Nat) (j : Journal) : SegState :=
  let w := if s.mu.order.getLast? = some n ∧ j.wp < 256 ∧ n ∉ s.mu.stopped then j.wp else 256
  let live := min (recordLinesNamed s n) (w - 2)
  let a : Journal := { j with wp := w, live := live, dead := w - 2 - live, pins := 0 }
  if s.mu.order.getLast? = some n ∧ j.wp < 256 ∧ n ∉ s.mu.stopped then .opened a else .closed a

/-- The state ACCOUNT gives segment `n` (R166). -/
def stateAccounted (s : State) (n : Nat) : SegState → SegState
  | .closed j => journalAccounted s n j
  | st => st

/-- REPLAY has ended (R165, R166): the sequence counter is set, the segments are accounted, SETTLE begins. -/
def replayEnds (s : State) (o : Out) : Prop :=
  (∀ n j, standsAs s n (.closed j) → 2 ≤ j.wp) → (∀ n j, ¬ standsAs s n (.opened j)) →
  settleGoesOn { s with
    eng := { s.eng with seqCtr := match s.mu.highest with | some h => h + 1 | none => 1 }
    sm := { s.sm with table := s.sm.table.map (fun e => { e with st := stateAccounted s e.num e.st }) }
    mu := { s.mu with phase := .account } } o

/-- REPLAY goes on (R164): the next VALUE or TOMBSTONE record is read; with none left it ends. -/
def replayGoesOn (s : State) (o : Out) : Prop :=
  (∀ f rest, s.mu.todo = f :: rest → o = .next { s with
    mu := { s.mu with todo := rest, judge := some ⟨f, []⟩ }, seqr := some (.read ⟨f.loc.seg, f.loc.line + 1⟩) })
  ∧ (s.mu.todo = [] → replayEnds s o)

/-- COLLECT has scanned segment `n` up to write pointer `wp` (R162): the pointer is entered, a stop is marked, the scan moves
to line 2 of the next segment in journal order; after the last, REPLAY begins. -/
def segmentScanned (s : State) (n wp : Nat) (stop : Bool) (o : Out) : Prop :=
  ∀ before rest : List Nat, s.mu.order = before ++ n :: rest → n ∉ before →
  let u : State := { s with
    sm := { s.sm with table := s.sm.table.map (fun e => if e.num = n then
      { e with st := e.st.mapJournal (fun j => { j with wp := wp }) } else e) }
    mu := { s.mu with stopped := if stop then s.mu.stopped ++ [n] else s.mu.stopped } }
  (∀ k more, rest = k :: more → o = .next { u with mu := { u.mu with scan := some ⟨k, 2⟩ }, seqr := some (.read ⟨k, 2⟩) })
  ∧ (rest = [] → replayGoesOn { u with mu := { u.mu with phase := .replay, scan := none, todo := s.mu.found } } o)

/-- The scan position advances by a record of `e` lines (R162). -/
def scanGoesOn (s : State) (l : Loc) (e : Nat) (o : Out) : Prop :=
  (l.line + e < 256 → o = .next { s with
    mu := { s.mu with scan := some ⟨l.seg, l.line + e⟩ }, seqr := some (.read ⟨l.seg, l.line + e⟩) })
  ∧ (256 ≤ l.line + e → segmentScanned s l.seg 256 false o)

/-- `q` lists the journal segments in ascending epoch (R22, R161). -/
def inJournalOrder (s : State) (q : List Nat) : Prop :=
  (∀ n, n ∈ q ↔ ∃ j, journalOf s n = some j)
  ∧ q.Pairwise (fun a b => ∃ i j, journalOf s a = some i ∧ journalOf s b = some j ∧ i.epoch < j.epoch)

/-- SURVEY's verdict (R161), its four tests in order, and the beginning of COLLECT when none holds: the next-epoch counter is
one above the highest epoch on a valid opening line (R27). -/
def surveyEnds (s : State) (o : Out) : Prop :=
  (s.mu.foreign = true → mountFails s .foreign o)
  ∧ (s.mu.foreign = false → s.mu.mixed = true → mountFails s .mixed o)
  ∧ (s.mu.foreign = false → s.mu.mixed = false →
    (∀ a b i j, a ≠ b → journalOf s a = some i → journalOf s b = some j → i.epoch = j.epoch → mountFails s .corrupt o)
    ∧ ((∀ n, journalOf s n = none) → mountFails s .blank o)
    ∧ ∀ first rest last top est, inJournalOrder s (first :: rest) → (first :: rest).getLast? = some last →
      journalOf s last = some top →
      (∃ e ∈ s.sm.table, e.known = true ∧ e.eraseCount = est) → (∀ e ∈ s.sm.table, e.known = true → e.eraseCount ≤ est) →
      let hi := if top.epoch < s.mu.strayEpoch then s.mu.strayEpoch else top.epoch
      o = .next { s with
        sm := ⟨s.sm.table.map (fun e => if e.st = .dirty ∧ e.known = false then { e with eraseCount := est } else e),
          if hi = 0xFFFFFFFF#32 then hi else hi + 1, decide (hi = 0xFFFFFFFF#32)⟩
        mu := { s.mu with phase := .collect, order := first :: rest, scan := some ⟨first, 2⟩ }
        seqr := some (.read ⟨first, 2⟩) })

/-- SURVEY has read segment `n` (R160): line 0 of the next is read; after segment 63 it ends. -/
def surveyGoesOn (s : State) (n : Nat) (o : Out) : Prop :=
  (n < 63 → o = .next { s with seqr := some (.read ⟨n + 1, 0⟩) }) ∧ (n = 63 → surveyEnds s o)

/-- The entry SURVEY makes for segment `n` (R160). -/
def entered (s : State) (n : Nat) (st : SegState) (count : Nat) (known : Bool) : State :=
  { s with sm := { s.sm with table := s.sm.table ++ [⟨n, st, count, known, 0, false⟩] } }

/-- The entry of segment `n` changed, with these alert bits raised and the sequencer IDLE. -/
def entryNow (s : State) (n : Nat) (g : SegEntry → SegEntry) (bits : Byte) : State :=
  { s with
    sm := { s.sm with table := s.sm.table.map (fun e => if e.num = n then g e else e) }
    alert := { s.alert with flags := s.alert.flags ||| bits }, seqr := none }

/-- A program fault on the segment is counted (R42). -/
def faultCounted (e : SegEntry) : SegEntry :=
  { e with faults := e.faults + 1, retirePending := e.retirePending || decide (2 ≤ e.faults + 1) }

/-- FORMAT ends (R175). -/
def formatEnds (s : State) (o : Out) : Prop :=
  ∀ c t, s.inflight = some c → c.origin = .host t → c.tearDue = false →
    let good := decide (4 ≤ usableCount s)
    o = .next (syncIdle (answeredHost { s with
      eng := { s.eng with seqCtr := 1, store := if good then .ready else .readOnly }, fu := none, holder := .none
      seqr := none, alert := { s.alert with flags := if good then s.alert.flags else s.alert.flags ||| 0x80 } } t
      ⟨if good then .ok else .mediaFault, 0, s.eng.volId, usableCount s, false, false, false⟩))

/-- FORMAT takes the next segment of step 1 (`first`) or step 2 (R173, R174); with none left it ends. -/
def formatGoesOn (s : State) (f : FormatCtx) (first : Bool) (o : Out) : Prop :=
  (∀ n rest, f.todo = n :: rest → o = .next { s with
    fu := some { f with todo := rest, phase := if first then .step1 n .erase else .step2 n .erase }
    seqr := some (.erase n) })
  ∧ (f.todo = [] → formatEnds s o)

/-- FORMAT enters FORMATTING (R172) with these erase counts, and step 1 takes its first candidate (R173). -/
def formatEntered (s : State) (f : FormatCtx) (count : Nat → Nat × Bool) (candidates : List Nat) (o : Out) : Prop :=
  ∀ n rest, candidates = n :: rest → o = .next { s with
    eng := { s.eng with store := .formatting, seqCtr := 0, volId := f.newId }, rc := ⟨none, 0, 0⟩
    dir := [], freezes := [], commits := []
    sm := ⟨(List.range 64).map (fun k => ⟨k, .dirty, (count k).1, (count k).2, 0, false⟩), 0, false⟩
    fu := some { f with todo := rest, phase := .step1 n .erase }, holder := .format, seqr := some (.erase n) }

/-- What the volume check takes from a line 0 (R171): the volume id and the erase count of a valid preparation line. -/
def checkedLine (f : FormatCtx) : Line0 → FormatCtx
  | .spare vid ec => { f with ids := f.ids ++ [vid], counts := f.counts ++ [some ec] }
  | .retired vid ec => { f with ids := f.ids ++ [vid], counts := f.counts ++ [some ec] }
  | .erased => { f with counts := f.counts ++ [none] }
  | .torn => { f with counts := f.counts ++ [none] }
  | .foreign => { f with counts := f.counts ++ [none] }

/-! ### The management port -/

/-- A store request or FREEZE from the management side: its address, its frame before the CRC, and the command it asks for
(R200, R207). -/
def mgmtRow : Instr → Option (BitVec 7 × List Byte × Cmd)
  | .put (.mgmt addr ftag flags key value) =>
    some (addr, [0x10, ftag, flags, key.extractLsb' 8 8, key.extractLsb' 0 8, BitVec.ofNat 8 value.length] ++ value,
      .put key value.length 0 (flags.getLsbD 0))
  | .delete (.mgmt addr ftag flags key) =>
    some (addr, [0x11, ftag, flags, key.extractLsb' 8 8, key.extractLsb' 0 8], .delete key (flags.getLsbD 0))
  | .get (.mgmt addr ftag key) =>
    some (addr, [0x12, ftag, key.extractLsb' 8 8, key.extractLsb' 0 8], .get key 0)
  | .stat (.mgmt addr ftag key) =>
    some (addr, [0x13, ftag, key.extractLsb' 8 8, key.extractLsb' 0 8], .stat key)
  | .list (.mgmt addr ftag after count) =>
    some (addr, [0x14, ftag, after.extractLsb' 8 8, after.extractLsb' 0 8, count], .list after 0 count.toNat)
  | .batchOpen (.mgmt addr ftag) => some (addr, [0x20, ftag], .batchOpen)
  | .batchCommit (.mgmt addr ftag) => some (addr, [0x21, ftag], .batchCommit)
  | .batchAbort (.mgmt addr ftag) => some (addr, [0x22, ftag], .batchAbort)
  | .freeze addr ftag lo hi =>
    some (addr, [0x30, ftag, lo.extractLsb' 8 8, lo.extractLsb' 0 8, hi.extractLsb' 8 8, hi.extractLsb' 0 8],
      .freeze lo hi)
  | _ => none

/-- A frame that the port answers itself (R203, R204): its address, its tag and its bytes before the CRC. -/
def portRow : Instr → Option (BitVec 7 × List Byte)
  | .openSession addr ftag => some (addr, [0x01, ftag])
  | .closeSession addr ftag => some (addr, [0x02, ftag])
  | .status addr ftag => some (addr, [0x03, ftag])
  | .segment addr ftag n => some (addr, [0x04, ftag, n])
  | _ => none

/-- The part takes a new transfer to `addr` (R196). -/
def busFree (s : State) (addr : BitVec 7) : Prop :=
  s.pins.resetLow = false ∧ s.mgmt.xfer = none ∧ addr = 0x2C#7 + s.eng.madr.setWidth 7

/-- Slot `b` is the one a new write transfer takes (R197): A if it is FREE, else B. -/
def nextSlot (s : State) (b : Bool) : Prop :=
  slotOf s b = .free ∧ (b = true → slotOf s false ≠ .free)

/-- `s` with slot `b` holding `v`, after a whole write transfer of `n` acknowledged bytes that took it (R197). -/
def slotTaken (s : State) (b : Bool) (n : Nat) (v : Nat → Slot) : State :=
  setSlot { s with
    mgmt := { s.mgmt with arrivals := s.mgmt.arrivals + 1 }
    pins := { s.pins with sdaAcks := List.replicate n true, addrAck := true } } b (v (s.mgmt.arrivals + 1))

/-- A response without a payload (R207). -/
def bareResponse (tag status : Byte) : List Byte := [0x03, tag, status, crc8 [0x03, tag, status]]

/-- Bytes `i` and `i` + 1 of a frame as a 16-bit number, most significant byte first (R207). -/
def numberAt (f : List Byte) (i : Nat) : Nat := 256 * (f.getD i 0).toNat + (f.getD (i + 1) 0).toNat

/-- A number that names a key (R200). -/
def keyOk (n : Nat) : Prop := 1 ≤ n ∧ n ≤ 0xFFFE

/-- A frame's length is the one its code requires, the CRC-8 byte included (R199 step 4, R207). -/
def lengthFits (f : List Byte) : Prop :=
  (f.getD 0 0 ∈ [0x01#8, 0x02#8, 0x03#8, 0x20#8, 0x21#8, 0x22#8] → f.length = 3)
  ∧ (f.getD 0 0 = 0x04 → f.length = 4)
  ∧ (f.getD 0 0 = 0x10 → 6 ≤ f.length ∧ f.length = 7 + (f.getD 5 0).toNat)
  ∧ (f.getD 0 0 ∈ [0x11#8, 0x14#8] → f.length = 6)
  ∧ (f.getD 0 0 ∈ [0x12#8, 0x13#8] → f.length = 5)
  ∧ (f.getD 0 0 = 0x30 → f.length = 7)

/-- A frame's arguments are in range (R199 step 5, R200). -/
def argumentsFit (f : List Byte) : Prop :=
  (f.getD 0 0 = 0x04 → (f.getD 2 0).toNat ≤ 63)
  ∧ (f.getD 0 0 = 0x10 → keyOk (numberAt f 3) ∧ (f.getD 5 0).toNat ≤ 240)
  ∧ (f.getD 0 0 = 0x11 → keyOk (numberAt f 3))
  ∧ (f.getD 0 0 ∈ [0x12#8, 0x13#8] → keyOk (numberAt f 2))
  ∧ (f.getD 0 0 = 0x14 → numberAt f 2 ≤ 0xFFFE ∧ 1 ≤ (f.getD 4 0).toNat ∧ (f.getD 4 0).toNat ≤ 16)
  ∧ (f.getD 0 0 = 0x30 → keyOk (numberAt f 2) ∧ keyOk (numberAt f 4) ∧ numberAt f 2 ≤ numberAt f 4)

/-- The codes of R200: the four the port answers itself, and the nine that wait for the engine. -/
def portCodes : List Byte := [0x01#8, 0x02#8, 0x03#8, 0x04#8]

def storeCodes : List Byte := [0x10#8, 0x11#8, 0x12#8, 0x13#8, 0x14#8, 0x20#8, 0x21#8, 0x22#8, 0x30#8]

/-- The frame `f` fails a test of R199 first at the step that answers `status`. -/
def refusedWith (s : State) (f : List Byte) (status : Byte) : Prop :=
  let short := f.length < 3
  let crc := crc8 f.dropLast = f.getD (f.length - 1) 0
  let known := f.getD 0 0 ∈ portCodes ∨ f.getD 0 0 ∈ storeCodes
  (status = 0x30 ∧ (short ∨ ¬ crc))
  ∨ (status = 0x23 ∧ ¬ short ∧ crc ∧ ¬ known)
  ∨ (status = 0x30 ∧ ¬ short ∧ crc ∧ known ∧ ¬ lengthFits f)
  ∨ (status = 0x23 ∧ ¬ short ∧ crc ∧ known ∧ lengthFits f ∧ ¬ argumentsFit f)
  ∨ (status = 0x31 ∧ ¬ short ∧ crc ∧ f.getD 0 0 ∈ storeCodes ∧ lengthFits f ∧ argumentsFit f ∧ s.mgmt.session = false)
  ∨ (status = 0x10 ∧ ¬ short ∧ crc ∧ f.getD 0 0 ∈ storeCodes ∧ lengthFits f ∧ argumentsFit f ∧ s.mgmt.session = true
      ∧ s.eng.store = .halted)

/-- A slot at the end of the session (R204). -/
def endedSlot : Slot → Slot
  | .waiting a f => .answered a (bareResponse (f.getD 1 0) 0x31)
  | .free => .free
  | .receiving a f x => .receiving a f x
  | .running a f => .running a f
  | .answered a f => .answered a f

/-- `s` at the end of its session by CLOSE or lapse, but for a management-owned batch (R204). -/
def endedSession (s : State) : State :=
  { s with
    mgmt := { s.mgmt with session := false, slotA := endedSlot s.mgmt.slotA, slotB := endedSlot s.mgmt.slotB }
    alert := { s.alert with flags := s.alert.flags ||| 0x20 } }

/-- The end of the management session leaves `u` of `d`, which has its other effects already, where the management port owns
the open batch (R106, R121, R124): the batch is torn down, but a BATCH_COMMIT in flight takes it with it. A member write or
BATCH_COMMIT that waits for space completes NO_BATCH; one whose batch goes under it learns of it at the end of its operation. -/
def mgmtBatchEnds (d u : State) : Prop :=
  (d.inflight = none → u = teardown d false)
  ∧ ∀ c, d.inflight = some c →
    let ours := c.origin.port = .mgmt ∧ (c.cmd.isMember = true ∨ c.cmd = .batchCommit)
    (¬ ours → u = teardown d false)
    ∧ (ours → (∃ b, c.stage = .waitSpace b) →
      u = answeredCmd (teardown d false) c ⟨.noBatch, 0, c.seq.getD 0, 0, false, false, c.retried⟩)
    ∧ (ours → c.cmd.isMember = true → (∀ b, c.stage ≠ .waitSpace b) →
      u = { teardown d false with inflight := some { c with batchLost := true } })
    ∧ (ours → c.cmd = .batchCommit → (∃ o, c.stage = .admission o) →
      u = { d with inflight := some { c with batchLost := true } })
    ∧ (ours → c.cmd = .batchCommit → (c.stage = .header ∨ (∃ k, c.stage = .data k) ∨ c.stage = .commit) →
      u = { d with inflight := some { c with tearDue := true } })

/-- Slot `b` is the one a read transfer answers from (R201): the lower arrival number of those not FREE. -/
def readSlot (s : State) (b : Bool) : Prop :=
  ∃ a, (slotOf s b).arrival? = some a ∧ ∀ c, (slotOf s (!b)).arrival? = some c → a < c

/-- The first `n` bytes of a frame as the bus partner clocks them, FFh after its last (R201). -/
def sentBytes (f : List Byte) (n : Nat) : List Byte := f.take n ++ List.replicate (n - f.length) 0xFF

/-- A slot at the clearing of MGMTEN (R204, R205). -/
def disabledSlot : Slot → Slot
  | .receiving _ _ _ => .free
  | .waiting a f => .answered a (responseFrame (byteAt f 1) 0x32 [])
  | .free => .free
  | .running a f => .running a f
  | .answered a f => .answered a f

/-- The rest of a write transfer that held a slot is NAKed (R205). -/
def disabledXfer : Option Xfer → Option Xfer
  | some (.write _) => some .nak
  | x => x

/-- `s` after a CONTROL write of `v` that clears MGMTEN (R205): the bits, the slots, the transfer, the session and its alert. -/
def disabledPort (s : State) (v : Byte) : State :=
  { s with
    ctl := { s.ctl with cinten := v.getLsbD 0, bgren := v.getLsbD 1, mgmten := false }
    mgmt := { s.mgmt with
      slotA := disabledSlot s.mgmt.slotA, slotB := disabledSlot s.mgmt.slotB, xfer := disabledXfer s.mgmt.xfer,
      session := false }
    alert := { s.alert with flags := if s.mgmt.session then s.alert.flags ||| 0x20 else s.alert.flags } }

end Sys2Proof.Machine
end

