-- ==== Sys2Proof/Certificates/Slice0/Obligations.lean ====
section
/-! DEFINITION. The statements about the block, for the provers: each is a Prop named by what it says. The rules are those of
spec/. -/

section

open Sys2Proof Sys2Proof.Machine

/-! ### The whole machine -/

/-- A step runs the command at the front of the queue with the queue's rest; on an empty queue the block idles (log entry
7). -/
def Obligations.StepRunsFrontCommand : Prop :=
  (∀ (c : Instr) (rest : List Instr) (s : State), s.pending = c :: rest → step s = exec c { s with pending := rest })
  ∧ ∀ s : State, s.pending = [] → step s = .next s

/-- The state after reset meets every law that the statements below show kept; its array, straps and pin levels are the
model's choice (log entry 2). -/
def Obligations.ResetStateMeetsTheLaws : Prop :=
  storesOk State.reset ∧ tablesOk State.reset ∧ tagsOk State.reset ∧ SettingsOk State.reset.ctl
  ∧ idleOk State.reset ∧ segmentsLawful State.reset ∧ resetHeld State.reset ∧ tablesLawful State.reset

/-- Every step keeps the two addressed stores in canonical form. The form is the model's own: addresses rise strictly, and no
entry holds what an unlisted address reads as. -/
def Obligations.StepKeepsStoresCanonical : Prop :=
  ∀ s t : State, storesOk s → step s = .next t → storesOk t

/-- Every step keeps the directory, the freeze list and the commit table in order and without repeats (R48, R60, R125). From a
state whose idle timer keeps its law (R113), every step keeps the laws of the tables: their limits (512 entries, 4 ranges, 64
commit entries, 8 members; R48, R60, R110, R125), the pending parts being the member list's (R50, R111), and the sequence
counter above every sequence that a part of the directory or the open batch carries (R70, R163, R165), with what a mount, a
FORMAT and the command in flight carry to keep them (R72, R79, R80, R117); and the law that no batch is open and no command in
flight while RESET# is asserted (R87). The freeze list and the commit
table hold no sequence; a batch id that a mount enters in the commit table is the sequence of no header (R163). -/
def Obligations.StepKeepsTableOrder : Prop :=
  (∀ s t : State, tablesOk s → step s = .next t → tablesOk t)
  ∧ ∀ s t : State, idleOk s → resetHeld s → tablesLawful s → step s = .next t → resetHeld t ∧ tablesLawful t

/-- Every step keeps the law of the tags (R181). -/
def Obligations.StepKeepsTagLaw : Prop :=
  ∀ s t : State, tagsOk s → step s = .next t → tagsOk t

/-- Every step keeps RECTHR in 2–16 and HOSTWT in 1–8 (R194). -/
def Obligations.StepKeepsSettingRanges : Prop :=
  ∀ s t : State, SettingsOk s.ctl → step s = .next t → SettingsOk t.ctl

/-- A line changes only by the array operation in progress on it: a program that completes leaves it GOOD with its content;
one that reaches its deadline or is interrupted leaves it TORN; an erase that completes leaves it ERASED; one that reaches
its deadline or is interrupted leaves it ERASED or TORN (R2, R6, R7, R9). -/
def Obligations.LinesChangeOnlyByTheirOperation : Prop :=
  ∀ (c : Instr) (s t : State) (l : Loc), ArrayOk s.array → exec c s = .next t → lineAt t l ≠ lineAt s l →
    (∃ content, s.seqr = some (.program l content)
      ∧ ((c = .programDone ∧ lineAt t l = .good content)
        ∨ ((c = .programDeadlineExpiry ∨ interrupts c = true) ∧ lineAt t l = .torn)))
    ∨ (s.seqr = some (.erase l.seg)
      ∧ ((c = .eraseDone ∧ lineAt t l = .erased)
        ∨ ((c = .eraseDeadlineExpiry ∨ interrupts c = true) ∧ (lineAt t l = .erased ∨ lineAt t l = .torn))))

/-- No command but an ALERT write of a 1 to its bit, and no event but a reset, clears an alert flag (R86, R87, R191). -/
def Obligations.AlertFlagsStayUntilWrittenOrReset : Prop :=
  ∀ (c : Instr) (s t : State) (i : Nat), exec c s = .next t →
    s.alert.flags.getLsbD i = true → t.alert.flags.getLsbD i = false →
    (∃ v : Byte, (c = .alertWrite v ∨ c = .registerWrite 0x04 v) ∧ v.getLsbD i = true) ∨ mayClear c s = true

/-- While RESET# is asserted, every command but power-on reset and the release leaves everything as it is, save that a host
read returns 00h and the level of PFW# is followed (R87, R195, R196; log entry 12). -/
def Obligations.HeldInResetNothingHappens : Prop :=
  ∀ (c : Instr) (s : State), s.pins.resetLow = true → (∀ a m, c ≠ .powerOnReset a m) → (∀ a m, c ≠ .resetRelease a m) →
    exec c s = .next { s with pins := heldPins c s.pins }

/-- DIRCNT (R180): a read of the low location returns the low byte and latches the high byte; the high location reads the
holding byte; nothing else changes the holding byte but a reset, which leaves it 00h. -/
def Obligations.DircntHoldingByte : Prop :=
  (∀ s : State, s.pins.resetLow = false →
    exec .dircntLowRead s = .next { s with
      pins := { s.pins with dataOut := BitVec.ofNat 8 (s.dir.length % 256) }
      host := { s.host with dircntHold := BitVec.ofNat 8 (s.dir.length / 256) } })
  ∧ (∀ s : State, s.pins.resetLow = false → hostRead s 0x0C = s.host.dircntHold
      ∧ hostRead s 0x0B = BitVec.ofNat 8 (s.dir.length % 256))
  ∧ ∀ (c : Instr) (s t : State), c ≠ .dircntLowRead → exec c s = .next t →
      t.host.dircntHold = s.host.dircntHold ∨ (mayClear c s = true ∧ t.host.dircntHold = 0)

/-! ### Resets, PFW# and the recovery timer -/

/-- Power-on reset with RESET# high (R9, R83, R87): the operation in progress is interrupted, every volatile item is cleared, the
straps are latched, and a mount begins if AMOUNT is high; with PFW# low HALTED is entered at once. Whatever the pins: an
interrupted program leaves its line TORN, an interrupted erase every line of its segment ERASED or TORN, and no other line
changes (R9). -/
def Obligations.PowerOnResetClearsThePart : Prop :=
  (∀ (s : State) (amount : Bool) (madr : BitVec 2), s.pins.resetLow = false →
    exec (.powerOnReset amount madr) s =
      .next (resetOver { cleared (interrupt s) with eng := { State.reset.eng with amount := amount, madr := madr } }))
  ∧ ∀ (s t : State) (amount : Bool) (madr : BitVec 2), ArrayOk s.array →
    exec (.powerOnReset amount madr) s = .next t → interruptedArray s t

/-- What the registers read after a power-on reset with AMOUNT low (R179, R180, R186, R188, R189, R191–R195): IDENT 6Ah,
REVISION 02h, CONTROL 06h, RECTHR and HOSTWT 04h, 00h everywhere else; INT# is released. -/
def Obligations.RegistersAfterPowerOnReset : Prop :=
  ∀ (s t : State) (madr : BitVec 2), s.pins.resetLow = false → s.pins.pfwLow = false →
    exec (.powerOnReset false madr) s = .next t →
    intLow t = false
    ∧ ∀ off : Nat, hostRead t off =
      (if off = 0x00 then 0x6A else if off = 0x01 then 0x02 else if off = 0x06 then 0x06
        else if off = 0x07 ∨ off = 0x08 then 0x04 else 0x00)

/-- RESET# (R9, R87): its assertion interrupts the operation, which leaves the line of a program TORN and every line of an erase
ERASED or TORN, and clears every volatile item; its release latches the straps and a mount begins if AMOUNT is high. With PFW#
low at the release HALTED is entered at once (R83); nothing is then in progress, as the assertion left it. -/
def Obligations.ResetPinActs : Prop :=
  (∀ s : State, s.pins.resetLow = false →
    exec .resetAssert s = .next { cleared (interrupt s) with pins := { (cleared s).pins with resetLow := true } })
  ∧ (∀ s t : State, s.pins.resetLow = false → ArrayOk s.array → exec .resetAssert s = .next t → interruptedArray s t)
  ∧ ∀ (s : State) (amount : Bool) (madr : BitVec 2), s.pins.resetLow = true → s.eng.haltReq = false →
    (s.pins.pfwLow = true → quiet s ∧ s.seqr = none ∧ s.eng.store ≠ .halted) →
    exec (.resetRelease amount madr) s = .next (resetOver { s with
      pins := { s.pins with resetLow := false }, eng := { s.eng with amount := amount, madr := madr } })

/-- A soft reset with the sequencer IDLE takes effect at the write (R86): every volatile item is cleared, the latched straps
are kept, and a mount begins if AMOUNT is latched high; with PFW# low HALTED is entered at once (R83). -/
def Obligations.SoftResetAtOnce : Prop :=
  ∀ (s : State) (v : Byte), s.pins.resetLow = false → s.seqr = none → s.ctl.srst = false →
    exec (.srst v) s = .next (resetOver (cleared s))

/-- A soft reset requested while an operation is in progress waits (R86, R193): SRST reads 1 and the other bits take effect.
MGMTEN is written as 1 here. -/
def Obligations.SoftResetWaits : Prop :=
  ∀ (s : State) (v : Byte) (op : SeqOp), s.pins.resetLow = false → s.seqr = some op → v.getLsbD 2 = true →
    exec (.srst v) s = .next { s with
      ctl := { s.ctl with cinten := v.getLsbD 0, bgren := v.getLsbD 1, mgmten := true, srst := true } }

/-- The operation that a soft reset waits for ends by its own outcome, its report is discarded, and the soft reset takes
effect (R10, R86): a mount begins if AMOUNT is latched high; with PFW# low HALTED is entered at once (R83). -/
def Obligations.SoftResetFollowsTheOperation : Prop :=
  ∀ s : State, s.pins.resetLow = false → s.ctl.srst = true →
    (∀ l content, s.seqr = some (.program l content) →
      exec .programDone s = .next (resetOver (cleared (setLine s l (.good content))))
      ∧ exec .programDeadlineExpiry s = .next (resetOver (cleared (setLine s l .torn))))
    ∧ (∀ l, s.seqr = some (.read l) → exec .readDone s = .next (resetOver (cleared s)))
    ∧ ∀ n, s.seqr = some (.erase n) →
      exec .eraseDone s = .next (resetOver (cleared (eraseSegment s n)))
      ∧ exec .eraseDeadlineExpiry s = .next (resetOver (cleared (partialErase s n)))

/-- PFW# asserted (R83, R84): with an operation in progress the halt request waits; in HALTED nothing but the timer moves;
with the sequencer IDLE, HALTED is entered at once: the host queue is flushed, the WAITING slots are answered, a reclaim step
keeps its context, and the command in flight, of either port, completes HALTED. At the end of a line program under a halt request
(R83, R107): a commit line is acted on in full and HALTED follows; after a header or data line the record is abandoned and the
command completes HALTED; a fault is counted, closes the segment and restarts nothing; an opening line opens its segment, empty,
or leaves it DIRTY, and the command completes HALTED. At the end of an operation of a GET, a LIST, a FORMAT or a mount under a
halt request (R83) the unit acts on it as it would without one, but issues no further operation, and HALTED follows, a command
still in flight completing HALTED with what a GET or LIST has placed. The count 0 and the RETRIED flag
of a RECLAIM command's HALTED completion are the model's reading (log entry 22), and so are the fields of a MOUNT's and a
FORMAT's (log entry 38), the sequence 0 and the RETRIED flag of a BATCH_COMMIT's (log entry 39), that the last read of a volume
check that passes enters FORMATTING first (log entry 40), and the 0 of a field that no rule gives a value (log entry 41). -/
def Obligations.PowerWarningHalts : Prop :=
  (∀ (s u : State), s.pins.resetLow = false →
    u = { s with pins := { s.pins with pfwLow := true }, eng := { s.eng with haltReq := true, recovery := false } } →
    (∀ op, s.seqr = some op → exec .pfwAssert s = .next u)
    ∧ (s.seqr = none → s.eng.store ≠ .halted → quiet s → exec .pfwAssert s = .next (haltedQuietly u))
    ∧ (s.eng.store = .halted → exec .pfwAssert s = .next u)
    ∧ (s.seqr = none → s.eng.store ≠ .halted → noCopyLine s →
      (s.inflight = none → exec .pfwAssert s = .next (haltedWith u))
      ∧ ∀ (c : Ctx) (r : Result), s.inflight = some c → c.unstopped → haltedResult s c r →
        exec .pfwAssert s = .next (haltedWith (answeredCmd u c r))))
  ∧ (∀ (s : State) (c : Ctx) (l : Loc) (content : LineBits),
    programmingUnderHalt s c l content → ArrayOk s.array → inArray l = true →
    let r : Result := ⟨.halted, 0, haltedSeq c, 0, false, false, c.retried⟩
    (c.stage = .commit → ∀ w, exec .programDone { s with eng := { s.eng with haltReq := false } } = .next w →
      exec .programDone s = .next (haltedWith { w with eng := { w.eng with haltReq := true } }))
    ∧ ((c.stage = .header ∨ ∃ k, c.stage = .data k) → ∃ u, exec .programDone s = .next u
      ∧ lineAt u l = .good content ∧ u.dir = s.dir ∧ haltedAfter s u c r
      ∧ ∀ n j, journalOf s n = some j → journalOf u n = some (if n = c.place.seg
          then { j with wp := j.wp + c.lines.length, dead := j.dead + c.lines.length } else j))
    ∧ ((c.stage = .header ∨ (∃ k, c.stage = .data k) ∨ c.stage = .commit) → ∃ u, exec .programDeadlineExpiry s = .next u
      ∧ lineAt u l = .torn ∧ u.dir = s.dir ∧ haltedAfter s u c r ∧ u.alert.flags.getLsbD 2 = true
      ∧ ∀ e j, e ∈ s.sm.table → e.num = c.place.seg → e.st = .opened j → j.wp + c.lines.length ≤ 256 →
        { e with
          st := .closed { j with wp := 256, dead := j.dead + (256 - j.wp) }
          faults := e.faults + 1, retirePending := e.retirePending || decide (2 ≤ e.faults + 1) } ∈ u.sm.table)
    ∧ ∀ o e, c.stage = .admission o → o.prep = none → l = ⟨o.seg, 1⟩ → segEntry s o.seg = some e →
      (∃ u, exec .programDone s = .next u ∧ lineAt u l = .good content ∧ u.dir = s.dir ∧ haltedAfter s u c r
        ∧ segEntry u o.seg = some { e with st := .opened ⟨o.epoch, 2, 0, 0, 0⟩ })
      ∧ ∃ u, exec .programDeadlineExpiry s = .next u ∧ lineAt u l = .torn ∧ u.dir = s.dir ∧ haltedAfter s u c r
        ∧ u.alert.flags.getLsbD 2 = true ∧ segEntry u o.seg = some { faultCounted e with st := .dirty })
  ∧ ∀ (s w : State) (i : Instr), endingUnderHalt s i →
    exec i { s with eng := { s.eng with haltReq := false } } = .next w →
    (w.inflight = none → exec i s = .next (haltedWith (heldBack w)))
    ∧ ∀ (c : Ctx) (r : Result), w.inflight = some c → c.unstopped → haltedResult w c r →
      exec i s = .next (haltedWith (answeredCmd (heldBack w) c r))

/-- PFW# deasserted (R83, R85): the recovery timer starts while the halt request is set or the store is HALTED. -/
def Obligations.PowerGoodStartsRecovery : Prop :=
  ∀ s : State, s.pins.resetLow = false →
    ((s.eng.haltReq = true ∨ s.eng.store = .halted) → exec .pfwDeassert s = .next { s with
      pins := { s.pins with pfwLow := false }, eng := { s.eng with recovery := true } })
    ∧ (s.eng.haltReq = false → s.eng.store ≠ .halted →
      exec .pfwDeassert s = .next { s with pins := { s.pins with pfwLow := false } })

/-- The recovery timer expires (R83, R85): out of HALTED the halt request is cleared and work goes on; in HALTED the prior
state returns, or a fresh mount begins where the prior state was MOUNTING or FORMATTING. -/
def Obligations.RecoveryEndsTheHalt : Prop :=
  ∀ (s u : State), s.pins.resetLow = false → s.eng.recovery = true →
    u = { s with eng := { s.eng with haltReq := false, recovery := false } } →
    (s.eng.store ≠ .halted → exec .recoveryTimerExpiry s = .next u)
    ∧ ∀ st : StoreState, s.eng.store = .halted → s.eng.prior = some st →
      exec .recoveryTimerExpiry s = .next
        (if st = .mounting ∨ st = .formatting then mountBegun { u with eng := { u.eng with prior := none } }
          else { u with eng := { u.eng with store := st, prior := none } })

/-! ### The host port -/

/-- A host command that passes the six tests of a submission is accepted (R182–R184): its registers hold what was written, its
entry stands at the tail of the queue, its tag is QUEUED, the buffer it names is HELD by the tag, SUBMIT reads ACCEPTED. -/
def Obligations.HostSubmissionAccepted : Prop :=
  ∀ (i : Instr) (r : HostRow) (s : State), hostRow i = some r → s.pins.resetLow = false →
    hostRanges r.cmd → (∀ b, r.cmd.buffer? = some b → s.host.bufOwner.getD b none = none) →
    s.host.queue.length < 8 → s.host.tags.getD r.no .free = .free → s.eng.store ≠ .halted →
    exec i s = .next (syncIdle { s with
      host := { s.host with
        args := r.args s.host.args, queue := s.host.queue ++ [⟨r.no, r.cmd⟩], tags := s.host.tags.set r.no .queued,
        bufOwner := heldAfter r s.host.bufOwner, lastSubmit := 0x00 } })

/-- A host command refused at a test of a submission writes its argument registers and the result of the first test that
fails, and changes nothing else (R183). -/
def Obligations.HostSubmissionRefusedInOrder : Prop :=
  ∀ (i : Instr) (r : HostRow) (s : State) (code : Byte), hostRow i = some r → s.pins.resetLow = false →
    ((code = 0x23 ∧ ¬ hostRanges r.cmd)
    ∨ (code = 0x22 ∧ hostRanges r.cmd ∧ ∃ b t, r.cmd.buffer? = some b ∧ s.host.bufOwner.getD b none = some t)
    ∨ (code = 0x20 ∧ hostRanges r.cmd ∧ (∀ b, r.cmd.buffer? = some b → s.host.bufOwner.getD b none = none)
        ∧ 8 ≤ s.host.queue.length)
    ∨ (code = 0x21 ∧ hostRanges r.cmd ∧ (∀ b, r.cmd.buffer? = some b → s.host.bufOwner.getD b none = none)
        ∧ s.host.queue.length < 8 ∧ s.host.tags.getD r.no .free ≠ .free)
    ∨ (code = 0x10 ∧ hostRanges r.cmd ∧ (∀ b, r.cmd.buffer? = some b → s.host.bufOwner.getD b none = none)
        ∧ s.host.queue.length < 8 ∧ s.host.tags.getD r.no .free = .free ∧ s.eng.store = .halted)) →
    exec i s = .next { s with host := { s.host with args := r.args s.host.args, lastSubmit := code } }

/-- A SUBMIT with a code in CMD that is none of the twelve reads BAD_COMMAND and changes nothing else (R182, R183 step 1). -/
def Obligations.UnknownHostCodeRefused : Prop :=
  ∀ (code : Byte) (s : State), s.pins.resetLow = false → code ∉ hostCodes →
    exec (.submitBadCommand code) s =
      .next { s with host := { s.host with args := { s.host.args with cmd := code }, lastSubmit := 0x23 } }

/-- A host write of a location without a row of its own (R179, R189): an argument register stores the byte and no other
location changes; BUFSEL takes bits 1–0; BUFPTR takes the byte; every other location ignores it. -/
def Obligations.RegisterWriteStoresOrIsIgnored : Prop :=
  ∀ (off : BitVec 6) (v : Byte) (s : State), s.pins.resetLow = false → off ∉ ownRowLocations →
    (0x10 ≤ off.toNat → off.toNat ≤ 0x1D → ∃ a : ArgRegs,
      exec (.registerWrite off v) s = .next { s with host := { s.host with args := a } }
      ∧ ∀ o : Nat, hostRead { s with host := { s.host with args := a } } o = if o = off.toNat then v else hostRead s o)
    ∧ (off = 0x30 → exec (.registerWrite off v) s =
        .next { s with host := { s.host with bufSel := v.extractLsb' 0 2 } })
    ∧ (off = 0x31 → exec (.registerWrite off v) s = .next { s with host := { s.host with bufPtr := v } })
    ∧ ((off.toNat < 0x10 ∨ (0x1D < off.toNat ∧ off.toNat < 0x30) ∨ 0x31 < off.toNat) →
        exec (.registerWrite off v) s = .next s)

/-- CPOP (R187), in every store state: the head completion goes, its tag is FREE, the buffer it held is IDLE, no buffer's
content changes; CLEVEL falls by 1 and the C locations show the next completion, or 00h; on an empty queue nothing changes. -/
def Obligations.CpopRemovesTheHead : Prop :=
  ∀ (v : Byte) (s : State), s.pins.resetLow = false →
    (s.host.cplq = [] → exec (.cpop v) s = .next s)
    ∧ ∀ (c : Completion) (rest : List Completion), s.host.cplq = c :: rest →
      exec (.cpop v) s = .next { s with
        host := { s.host with
          cplq := rest, tags := s.host.tags.set c.tag .free,
          bufOwner := s.host.bufOwner.map (fun o => if o = some c.tag then none else o) } }
      ∧ ∀ t, exec (.cpop v) s = .next t →
        hostRead s 0x20 = BitVec.ofNat 8 (rest.length + 1) ∧ hostRead t 0x20 = BitVec.ofNat 8 rest.length
        ∧ (rest = [] → ∀ off, 0x21 ≤ off → off ≤ 0x29 → hostRead t off = 0)
        ∧ ∀ d more, rest = d :: more →
          [0x21, 0x22, 0x23, 0x24, 0x25, 0x26, 0x27, 0x28, 0x29].map (hostRead t) =
            [BitVec.ofNat 8 d.tag, d.res.status.code, BitVec.ofNat 8 d.res.len,
              d.res.seq.extractLsb' 24 8, d.res.seq.extractLsb' 16 8, d.res.seq.extractLsb' 8 8,
              d.res.seq.extractLsb' 0 8, BitVec.ofNat 8 d.res.count, d.res.flags]

/-- An abort of a tag that is FREE, COMPLETED or QUEUED (R188): NO_SUCH_TAG, TOO_LATE, NOT_ABORTABLE, or REMOVED with an
ABORTED completion posted and the buffer still HELD. -/
def Obligations.AbortByTagState : Prop :=
  ∀ (v : Byte) (s : State) (t : Nat), s.pins.resetLow = false → tagsOk s → t = v.toNat % 16 →
    (s.host.tags.getD t .free = .free →
      exec (.abort v) s = .next { s with host := { s.host with lastAbort := 0x43 } })
    ∧ (s.host.tags.getD t .free = .completed →
      exec (.abort v) s = .next { s with host := { s.host with lastAbort := 0x42 } })
    ∧ ∀ q : QEntry, q ∈ s.host.queue → q.tag = t →
      (unabortable q.cmd → exec (.abort v) s = .next { s with host := { s.host with lastAbort := 0x44 } })
      ∧ (¬ unabortable q.cmd → exec (.abort v) s = .next (syncIdle { s with
          host := { s.host with
            queue := s.host.queue.filter (fun e => e.tag != t), tags := s.host.tags.set t .completed,
            cplq := s.host.cplq ++ [⟨t, ⟨.aborted, 0, 0, 0, false, false, false⟩⟩], lastAbort := 0x40 } }))

/-- An abort of the host command in flight (R81): by its command and stage, NOT_ABORTABLE, TOO_LATE, STOPPING with the stop
left to the operation in progress, or STOPPING with an ABORTED completion at once. A RECLAIM aborted leaves its victim
RECLAIMING and its context (R156); that its completion carries count 0 and the context's RETRIED is the model's reading (log
entry 22). -/
def Obligations.AbortOfTheCommandInFlight : Prop :=
  ∀ (v : Byte) (s : State) (t : Nat) (c : Ctx), s.pins.resetLow = false → t = v.toNat % 16 →
    s.host.tags.getD t .free = .running → s.inflight = some c → c.origin = .host t →
    (unabortable c.cmd → exec (.abort v) s = .next { s with host := { s.host with lastAbort := 0x44 } })
    ∧ (¬ unabortable c.cmd → c.stage = .commit →
      exec (.abort v) s = .next { s with host := { s.host with lastAbort := 0x42 } })
    ∧ (¬ unabortable c.cmd → (c.stage = .header ∨ (∃ k, c.stage = .data k) ∨ (∃ o, c.stage = .admission o)
        ∨ (c.stage = .read ∧ s.seqr ≠ none)) →
      exec (.abort v) s = .next { s with
        inflight := some { c with stopping := true }, host := { s.host with lastAbort := 0x41 } })
    ∧ ∀ r : Result, ¬ unabortable c.cmd → c.tearDue = false →
      ((∃ b, c.stage = .waitSpace b) ∧ r = ⟨.aborted, 0, c.seq.getD 0, 0, false, false, c.retried⟩
        ∨ c.stage = .reclaim ∧ ∃ x, s.rc.ctx = some x ∧ r = ⟨.aborted, 0, 0, 0, false, false, x.copyRetried⟩) →
      exec (.abort v) s = .next (syncIdle { answeredHost s t r with
        host := { (answeredHost s t r).host with lastAbort := 0x41 } })

/-- The buffer window (R189, R190): a read of BUFDATA returns the byte at the pointer and advances it; a write stores the
byte in an IDLE buffer; in a HELD one it raises CONFLICT and stores nothing; the pointer advances either way. -/
def Obligations.BufferWindowActs : Prop :=
  ∀ (v : Byte) (s : State) (b p : Nat), s.pins.resetLow = false → b = s.host.bufSel.toNat → p = s.host.bufPtr.toNat →
    exec .bufdataRead s = .next { s with
      pins := { s.pins with dataOut := stagingRead s b p }, host := { s.host with bufPtr := s.host.bufPtr + 1 } }
    ∧ (∀ t, s.host.bufOwner.getD b none = some t → exec (.bufdataWrite v) s = .next { s with
      alert := { s.alert with flags := s.alert.flags ||| 0x40 }, host := { s.host with bufPtr := s.host.bufPtr + 1 } })
    ∧ (StagingOk s.staging → s.host.bufOwner.getD b none = none → ∃ m, exec (.bufdataWrite v) s = .next { s with
        staging := m, host := { s.host with bufPtr := s.host.bufPtr + 1 } }
      ∧ ∀ c i : Nat, i < 256 → stagingRead { s with staging := m } c i = if c = b ∧ i = p then v else stagingRead s c i)

/-- A write through the window leaves every HELD buffer as it was, whichever buffer is selected; with a HELD buffer selected it
leaves every byte of every buffer as it was (R190). -/
def Obligations.HeldBufferKeepsItsContent : Prop :=
  (∀ (v : Byte) (s t : State), s.host.bufOwner.getD s.host.bufSel.toNat none ≠ none →
    exec (.bufdataWrite v) s = .next t →
    t.staging = s.staging ∧ (s.pins.resetLow = false →
      t.host.bufPtr = s.host.bufPtr + 1 ∧ t.alert.flags = s.alert.flags ||| 0x40))
  ∧ ∀ (v : Byte) (s t : State) (b : Nat), StagingOk s.staging → s.host.bufOwner.getD b none ≠ none →
    exec (.bufdataWrite v) s = .next t →
    t.host.bufOwner = s.host.bufOwner ∧ ∀ i, i < 256 → stagingRead t b i = stagingRead s b i

/-- ALERT and ALERTMASK writes (R191): each 1 clears its flag; the mask takes the byte. -/
def Obligations.AlertRegistersWrite : Prop :=
  ∀ (v : Byte) (s : State), s.pins.resetLow = false →
    exec (.alertWrite v) s = .next { s with alert := { s.alert with flags := s.alert.flags &&& ~~~v } }
    ∧ exec (.alertmaskWrite v) s = .next { s with alert := { s.alert with mask := v } }
    ∧ ∀ i, (s.alert.flags &&& ~~~v).getLsbD i = (s.alert.flags.getLsbD i && !v.getLsbD i)

/-- INT# (R192): low exactly while a completion is queued and CINTEN is set, or a flag set in ALERT has its bit set in
ALERTMASK; released while RESET# is asserted and after a reset. -/
def Obligations.InterruptLineFollowsItsInputs : Prop :=
  ∀ s : State,
    (s.pins.resetLow = false → (intLow s = true ↔
      (s.host.cplq ≠ [] ∧ s.ctl.cinten = true) ∨ ∃ i : Nat, s.alert.flags.getLsbD i = true ∧ s.alert.mask.getLsbD i = true))
    ∧ (s.pins.resetLow = true → intLow s = false)
    ∧ intLow (cleared s) = false

/-- CONTROL writes without SRST that do not clear a set MGMTEN store the three bits (R193). -/
def Obligations.ControlWriteStoresItsBits : Prop :=
  ∀ (v : Byte) (s : State), s.pins.resetLow = false → v.getLsbD 7 = false →
    ((v.getLsbD 2 = true ∨ s.ctl.mgmten = false) →
      exec (.cintenWrite v) s = .next { s with
        ctl := { s.ctl with cinten := v.getLsbD 0, bgren := v.getLsbD 1, mgmten := v.getLsbD 2 } }
      ∧ exec (.bgrenWrite v) s = .next { s with
        ctl := { s.ctl with cinten := v.getLsbD 0, bgren := v.getLsbD 1, mgmten := v.getLsbD 2 } })
    ∧ exec (.mgmtenSet v) s = .next { s with
        ctl := { s.ctl with cinten := v.getLsbD 0, bgren := v.getLsbD 1, mgmten := true } }

/-- Clearing MGMTEN (R204, R205): a RECEIVING slot is freed and the rest of its transfer NAKed; an open session ends with
the SESSION alert; every WAITING slot is answered PORT_DISABLED. A management-owned batch goes with the session (R106, R121,
R124). -/
def Obligations.ClearingMgmtenDisablesThePort : Prop :=
  ∀ (v : Byte) (s : State), s.pins.resetLow = false → v.getLsbD 7 = false → s.ctl.mgmten = true →
    (s.mgmt.session = false ∨ ownsBatch s .mgmt = false → exec (.mgmtenClear v) s = .next (syncIdle (disabledPort s v)))
    ∧ (s.mgmt.session = true → ownsBatch s .mgmt = true →
      ∃ u, exec (.mgmtenClear v) s = .next (syncIdle u) ∧ mgmtBatchEnds (disabledPort s v) u)

/-- RECTHR and HOSTWT are stored clamped into 2–16 and 1–8 (R194). -/
def Obligations.SettingsAreClamped : Prop :=
  ∀ (v : Byte) (s : State), s.pins.resetLow = false →
    exec (.recthrWrite v) s = .next { s with
      ctl := { s.ctl with recthr := if v.toNat < 2 then 2 else if 16 < v.toNat then 16 else v.toNat } }
    ∧ exec (.hostwtWrite v) s = .next { s with
      ctl := { s.ctl with hostwt := if v.toNat < 1 then 1 else if 8 < v.toNat then 8 else v.toNat } }

/-! ### The management port -/

/-- A management store request or FREEZE in an open session, its operands in range, that finds a slot (R197, R199, R200,
R207): every byte is acknowledged and the request waits in its slot. -/
def Obligations.ManagementRequestWaits : Prop :=
  ∀ (i : Instr) (addr : BitVec 7) (body : List Byte) (c : Cmd) (s : State) (b : Bool),
    mgmtRow i = some (addr, body, c) → i.wf = true → busFree s addr → s.ctl.mgmten = true → nextSlot s b →
    s.mgmt.session = true → s.eng.store ≠ .halted →
    exec i s = .next (syncIdle (slotTaken s b (body.length + 1) (fun a => .waiting a (body ++ [crc8 body]))))
    ∧ frameCmd (body ++ [crc8 body]) = some c

/-- OPEN (R204): OK at once; in a closed session it opens it and raises SESSION. -/
def Obligations.OpenOpensTheSession : Prop :=
  ∀ (addr : BitVec 7) (ftag : Byte) (s : State) (b : Bool), busFree s addr → s.ctl.mgmten = true → nextSlot s b →
    (s.mgmt.session = true → exec (.openSession addr ftag) s =
      .next (slotTaken s b 3 (fun a => .answered a (bareResponse ftag 0x00))))
    ∧ (s.mgmt.session = false → exec (.openSession addr ftag) s =
      .next (slotTaken { s with
        mgmt := { s.mgmt with session := true }
        alert := { s.alert with flags := s.alert.flags ||| 0x20 } } b 3 (fun a => .answered a (bareResponse ftag 0x00))))

/-- CLOSE (R204): NO_SESSION and nothing more in a closed session; in an open one the session ends, WAITING slots are
answered NO_SESSION, a management-owned batch goes with it (R106, R121, R124), and CLOSE is answered OK. -/
def Obligations.CloseEndsTheSession : Prop :=
  ∀ (addr : BitVec 7) (ftag : Byte) (s : State) (b : Bool), busFree s addr → s.ctl.mgmten = true → nextSlot s b →
    (s.mgmt.session = false → exec (.closeSession addr ftag) s =
      .next (slotTaken s b 3 (fun a => .answered a (bareResponse ftag 0x31))))
    ∧ (s.mgmt.session = true → ownsBatch s .mgmt = false → exec (.closeSession addr ftag) s =
      .next (slotTaken (syncIdle (endedSession s)) b 3 (fun a => .answered a (bareResponse ftag 0x00))))
    ∧ (s.mgmt.session = true → ownsBatch s .mgmt = true → ∃ u, mgmtBatchEnds (endedSession s) u
      ∧ exec (.closeSession addr ftag) s =
        .next (slotTaken (syncIdle u) b 3 (fun a => .answered a (bareResponse ftag 0x00))))

/-- STATUS and SEGMENT (R203, R207): answered OK at once with the state of the tables, in every store state. That the answer for
a segment without an entry carries its number is the model's choice (log entry 34). -/
def Obligations.StatusAndSegmentAreAnswered : Prop :=
  ∀ (addr : BitVec 7) (ftag n : Byte) (s : State) (b : Bool), busFree s addr → s.ctl.mgmten = true → nextSlot s b →
    exec (.status addr ftag) s = .next (slotTaken s b 3 (fun a => .answered a (responseFrame ftag 0x00 (
      [s.eng.store.code, s.eng.mountRes.code,
        s.eng.volId.extractLsb' 24 8, s.eng.volId.extractLsb' 16 8, s.eng.volId.extractLsb' 8 8, s.eng.volId.extractLsb' 0 8,
        BitVec.ofNat 8 (freeCount s), BitVec.ofNat 8 (usableCount s),
        BitVec.ofNat 8 (s.dir.length / 256), BitVec.ofNat 8 s.dir.length, BitVec.ofNat 8 s.commits.length,
        (match s.batch with | none => 0x00 | some x => if x.owner = .host then 0x01 else 0x02),
        BitVec.ofNat 8 (match s.batch with | none => 0 | some x => x.members.length),
        (if s.mgmt.session then 0x01 else 0x00), BitVec.ofNat 8 s.freezes.length]
      ++ s.freezes.flatMap (fun f =>
        [f.lo.extractLsb' 8 8, f.lo.extractLsb' 0 8, f.hi.extractLsb' 8 8, f.hi.extractLsb' 0 8])))))
    ∧ (n.toNat ≤ 63 → segEntry s n.toNat = none → exec (.segment addr ftag n) s =
        .next (slotTaken s b 4 (fun a => .answered a (responseFrame ftag 0x00 (n :: List.replicate 15 0x00)))))
    ∧ ∀ e : SegEntry, n.toNat ≤ 63 → segEntry s n.toNat = some e → exec (.segment addr ftag n) s =
        .next (slotTaken s b 4 (fun a => .answered a (responseFrame ftag 0x00 (
          let j := e.st.journal?.getD ⟨0, 0, 0, 0, 0⟩
          [n, e.st.code,
            j.epoch.extractLsb' 24 8, j.epoch.extractLsb' 16 8, j.epoch.extractLsb' 8 8, j.epoch.extractLsb' 0 8,
            BitVec.ofNat 8 (j.wp / 256), BitVec.ofNat 8 j.wp, BitVec.ofNat 8 j.live, BitVec.ofNat 8 j.dead,
            BitVec.ofNat 8 (e.eraseCount / 65536), BitVec.ofNat 8 (e.eraseCount / 256), BitVec.ofNat 8 e.eraseCount,
            BitVec.ofNat 8 ((if e.known then 0 else 1) + (if e.retirePending then 2 else 0)),
            BitVec.ofNat 8 (if 255 ≤ e.faults then 255 else e.faults), BitVec.ofNat 8 j.pins]))))

/-- A frame refused at a test is answered with that test's status and its own tag, FFh for a frame of one byte, and
nothing else changes; a frame of more than 247 bytes is refused at the first, its later bytes NAKed (R197, R199). -/
def Obligations.RefusedFrameIsAnsweredInOrder : Prop :=
  ∀ (addr : BitVec 7) (f : List Byte) (s : State) (b : Bool) (tag : Byte), busFree s addr → s.ctl.mgmten = true →
    nextSlot s b → tag = (if 2 ≤ f.length then f.getD 1 0 else 0xFF) →
    (∀ status : Byte, f ≠ [] → f.length ≤ 247 → refusedWith s f status →
      exec (.mgmtFrameRefused (.whole addr f)) s =
        .next (slotTaken s b f.length (fun a => .answered a (bareResponse tag status))))
    ∧ (247 < f.length → ∃ t, exec (.mgmtFrameRefused (.whole addr f)) s = .next t
      ∧ t = { slotTaken s b 247 (fun a => .answered a (bareResponse tag 0x30)) with
          pins := { s.pins with sdaAcks := List.replicate 247 true ++ List.replicate (f.length - 247) false, addrAck := true } })

/-- A write transfer is NAKed from its first data byte while MGMTEN is clear or both slots are taken; no slot changes. A
transfer ended before its first data byte changes nothing. The address byte is acknowledged all the same (R196, R197). -/
def Obligations.WriteTransferWithoutSlotIsNaked : Prop :=
  ∀ (addr : BitVec 7) (f : List Byte) (s : State), busFree s addr →
    (s.ctl.mgmten = false ∨ (s.mgmt.slotA ≠ .free ∧ s.mgmt.slotB ≠ .free) ∨ f = []) →
    exec (.slotNak (.whole addr f)) s = .next { s with
      pins := { s.pins with sdaAcks := List.replicate f.length false, addrAck := true } }

/-- A transfer in two parts acts as the whole: the acknowledgements, or the bytes sent, of the parts join to those of the
whole, and all else ends alike (R197, R199, R201). A start taken while a transfer is in progress first ends that transfer. A
transfer to another address is not acknowledged and changes nothing else (R196). The cut into two parts is the model's choice
(log entry 11). -/
def Obligations.TransfersInPartsActAsTheWhole : Prop :=
  (∀ (addr : BitVec 7) (f g : List Byte) (n m : Nat) (s : State), busFree s addr →
    (∃ t u w : State, exec (.mgmtFrameRefused (.begins addr f)) s = .next t
      ∧ exec (.mgmtFrameRefused (.ends g)) t = .next u
      ∧ exec (.mgmtFrameRefused (.whole addr (f ++ g))) s = .next w
      ∧ w.pins.sdaAcks = t.pins.sdaAcks ++ u.pins.sdaAcks
      ∧ u = { w with pins := { w.pins with sdaAcks := u.pins.sdaAcks } })
    ∧ ∃ t u w : State, exec (.mgmtReadTransfer (.begins addr n)) s = .next t
      ∧ exec (.mgmtReadTransfer (.ends m)) t = .next u
      ∧ exec (.mgmtReadTransfer (.whole addr (n + m))) s = .next w
      ∧ w.pins.sdaOut = t.pins.sdaOut ++ u.pins.sdaOut
      ∧ u = { w with pins := { w.pins with sdaOut := u.pins.sdaOut } })
  ∧ (∀ (addr : BitVec 7) (f : List Byte) (n : Nat) (s t : State), s.pins.resetLow = false →
    ((∃ b, s.mgmt.xfer = some (.write b)) ∨ s.mgmt.xfer = some .writeStart ∨ s.mgmt.xfer = some .nak)
        ∧ exec (.mgmtFrameRefused (.ends [])) s = .next t
      ∨ (∃ x b o, s.mgmt.xfer = some (.read x b o)) ∧ exec (.mgmtReadTransfer (.ends 0)) s = .next t →
    exec (.mgmtFrameRefused (.whole addr f)) s = exec (.mgmtFrameRefused (.whole addr f)) t
    ∧ exec (.mgmtFrameRefused (.begins addr f)) s = exec (.mgmtFrameRefused (.begins addr f)) t
    ∧ exec (.mgmtReadTransfer (.whole addr n)) s = exec (.mgmtReadTransfer (.whole addr n)) t
    ∧ exec (.mgmtReadTransfer (.begins addr n)) s = exec (.mgmtReadTransfer (.begins addr n)) t)
  ∧ ∀ (addr : BitVec 7) (f : List Byte) (n : Nat) (s : State), s.pins.resetLow = false → s.mgmt.xfer = none →
    addr ≠ 0x2C#7 + s.eng.madr.setWidth 7 →
    exec (.mgmtFrameRefused (.whole addr f)) s = .next { s with pins := { s.pins with addrAck := false } }
    ∧ exec (.mgmtReadTransfer (.whole addr n)) s = .next { s with pins := { s.pins with addrAck := false } }

/-- A read transfer of `n` bytes (R201): EMPTY with both slots FREE; PENDING from a WAITING or RUNNING slot; the response
from an ANSWERED one, which becomes FREE exactly when its last byte has been sent; FFh after the last byte. -/
def Obligations.ReadTransferSendsTheOldestAnswer : Prop :=
  ∀ (addr : BitVec 7) (n : Nat) (s : State), busFree s addr →
    (s.mgmt.slotA = .free → s.mgmt.slotB = .free → exec (.mgmtReadTransfer (.whole addr n)) s =
      .next { s with pins := { s.pins with sdaOut := sentBytes (bareResponse 0xFF 0x34) n, addrAck := true } })
    ∧ ∀ (b : Bool), readSlot s b →
      (∀ a f, (slotOf s b = .waiting a f ∨ slotOf s b = .running a f) →
        exec (.mgmtReadTransfer (.whole addr n)) s =
          .next { s with pins := { s.pins with
            sdaOut := sentBytes (bareResponse (f.getD 1 0) 0x33) n, addrAck := true } })
      ∧ ∀ a f, slotOf s b = .answered a f →
        (f.length ≤ n → exec (.mgmtReadTransfer (.whole addr n)) s =
          .next (setSlot { s with pins := { s.pins with sdaOut := sentBytes f n, addrAck := true } } b .free))
        ∧ (n < f.length → exec (.mgmtReadTransfer (.whole addr n)) s =
          .next { s with pins := { s.pins with sdaOut := sentBytes f n, addrAck := true } })

/-- The two timers of the management port. A stalled transfer is abandoned; a slot that it filled is freed with its bytes
discarded, and a slot that it read keeps its answer (R198). A lapse ends the session, and a management-owned batch goes with
it (R106, R121, R124, R204). That an expiry with no transfer in progress, or a lapse in a closed session, leaves the
state as it is, is the model's choice (log entry 1). -/
def Obligations.ManagementTimersExpire : Prop :=
  ∀ s : State, s.pins.resetLow = false →
    (∀ b a f x, s.mgmt.xfer = some (.write b) → slotOf s b = .receiving a f x →
      exec .transferStallExpiry s = .next (setSlot { s with mgmt := { s.mgmt with xfer := none } } b .free))
    ∧ ((∀ b, s.mgmt.xfer ≠ some (.write b)) →
      exec .transferStallExpiry s = .next { s with mgmt := { s.mgmt with xfer := none } })
    ∧ (s.mgmt.session = true → ownsBatch s .mgmt = false →
      exec .sessionLapse s = .next (syncIdle (endedSession s)))
    ∧ (s.mgmt.session = true → ownsBatch s .mgmt = true →
      ∃ u, exec .sessionLapse s = .next (syncIdle u) ∧ mgmtBatchEnds (endedSession s) u)
    ∧ (s.mgmt.session = false → exec .sessionLapse s = .next s)

/-! ### The arbiter and the execution checks -/

/-- The weighted round-robin (R75), shown by a STAT at each head: with both heads the host is granted and the run count
rises while it is below HOSTWT, else the management head is granted and the count is 0; a head alone is granted and the
count is 0. -/
def Obligations.GrantsAreWeighedBetweenThePorts : Prop :=
  ∀ (s : State) (q : QEntry) (k k' : Key) (b : Bool) (a : Nat) (f : List Byte) (r : Key → Result),
    arrayIdle s → s.inflight = none → mounted s → (∀ x, r x = statResult s x) →
    q.cmd = .stat k → frameCmd f = some (.stat k') →
    let hostGoes (n : Nat) := syncIdle { s with
      host := { s.host with
        queue := s.host.queue.tail, tags := s.host.tags.set q.tag .completed, cplq := s.host.cplq ++ [⟨q.tag, r k⟩] }
      eng := { s.eng with runCount := n } }
    let mgmtGoes := syncIdle (setSlot { s with eng := { s.eng with runCount := 0 } } b
      (.answered a (answerFrame (f.getD 1 0) (.stat k') (r k') [])))
    (s.host.queue.head? = some q → mgmtHead s = some b → slotOf s b = .waiting a f → s.eng.runCount < s.ctl.hostwt →
      exec .arbiterGrant s = .next (hostGoes (s.eng.runCount + 1)))
    ∧ (s.host.queue.head? = some q → mgmtHead s = some b → slotOf s b = .waiting a f → s.ctl.hostwt ≤ s.eng.runCount →
      exec .arbiterGrant s = .next mgmtGoes)
    ∧ (s.host.queue.head? = some q → mgmtHead s = none → exec .arbiterGrant s = .next (hostGoes 0))
    ∧ (s.host.queue = [] → mgmtHead s = some b → slotOf s b = .waiting a f → exec .arbiterGrant s = .next mgmtGoes)

/-- The state check at the grant (R67), of a head of either port: a command not admitted completes NOT_READY or READ_ONLY and
changes nothing else; in MOUNTING, FORMATTING and HALTED nothing is granted (R74). That its fields are 0 is the model's choice
for a host command whose rule gives no value (log entry 41). -/
def Obligations.StateCheckAtTheGrant : Prop :=
  (∀ (s : State) (h : Head) (st : Status), headAlone s h → stateRefused s.eng.store h.cmd st →
    exec .arbiterGrant s = .next (answeredAtGrant s h ⟨st, 0, 0, 0, false, false, false⟩))
  ∧ ∀ s : State, s.eng.store = .mounting ∨ s.eng.store = .formatting ∨ s.eng.store = .halted →
    exec .arbiterGrant s = .next s

/-- STAT (R134, R202), from either port: OK with the committed length and sequence of a present key, NOT_FOUND of any other; HELD
tells whether the entry has a pending part. -/
def Obligations.StatReportsTheDirectory : Prop :=
  ∀ (s : State) (h : Head) (k : Key) (held : Bool), headAlone s h → mounted s → h.cmd = .stat k →
    (held = true ↔ heldKey s k) →
    (∀ p, presentAs s k p →
      exec .arbiterGrant s = .next (answeredAtGrant s h ⟨.ok, p.len, p.seq, 0, false, held, false⟩))
    ∧ ((∀ p, ¬ presentAs s k p) →
      exec .arbiterGrant s = .next (answeredAtGrant s h ⟨.notFound, 0, 0, 0, false, held, false⟩))

/-- BATCH_OPEN, BATCH_COMMIT and BATCH_ABORT of either port at their grant (R115, R117, R118, R122, R202): the checks in
order, the exhausted sequence counter among them, which puts the store in READ_ONLY and tears the open batch down (R69, R72);
an opening with the counter's value as batch id, the close of an empty batch, the COMMIT record of one with members placed at
the OPEN segment's write pointer, the teardown by its owner. The length 0 of the OK of a commit or abort, and the 0 fields of a
command refused, are the model's choice for the host's completion (log entry 41). -/
def Obligations.BatchCommandsAtTheGrant : Prop :=
  ∀ (s : State) (h : Head), headAlone s h → s.eng.store = .ready →
    (h.cmd = .batchOpen →
      (∀ b, s.batch = some b → exec .arbiterGrant s = .next (answeredAtGrant s h ⟨.batchBusy, 0, 0, 0, false, false, false⟩))
      ∧ (s.batch = none → 64 ≤ s.commits.length + s.rc.droppedCommits →
        exec .arbiterGrant s = .next (answeredAtGrant s h ⟨.batchLimit, 0, 0, 0, false, false, false⟩))
      ∧ (s.batch = none → s.commits.length + s.rc.droppedCommits < 64 → s.eng.seqCtr = 0xFFFFFFFF →
        exec .arbiterGrant s = .next (answeredAtGrant (enteringReadOnly s) h ⟨.readOnly, 0, 0, 0, false, false, false⟩))
      ∧ (s.batch = none → s.commits.length + s.rc.droppedCommits < 64 → s.eng.seqCtr ≠ 0xFFFFFFFF →
        exec .arbiterGrant s = .next (answeredAtGrant { s with
          batch := some ⟨h.port, s.eng.seqCtr, [], .running⟩, eng := { s.eng with seqCtr := s.eng.seqCtr + 1 } } h
          ⟨.ok, 0, s.eng.seqCtr, 0, false, false, false⟩)))
    ∧ (h.cmd = .batchCommit ∨ h.cmd = .batchAbort →
      (s.batch = none → exec .arbiterGrant s = .next (answeredAtGrant s h ⟨.noBatch, 0, 0, 0, false, false, false⟩))
      ∧ ∀ b, s.batch = some b → b.owner ≠ h.port →
        exec .arbiterGrant s = .next (answeredAtGrant s h ⟨.batchNotOwner, 0, 0, 0, false, false, false⟩))
    ∧ ∀ b, s.batch = some b → b.owner = h.port →
      (h.cmd = .batchCommit → b.members = [] → exec .arbiterGrant s =
        .next (answeredAtGrant { s with batch := none } h ⟨.ok, 0, 0, 0, false, false, false⟩))
      ∧ (h.cmd = .batchCommit → b.members ≠ [] → s.eng.seqCtr = 0xFFFFFFFF → exec .arbiterGrant s =
        .next (answeredAtGrant (teardown (enteringReadOnly s) false) h ⟨.readOnly, 0, 0, 0, false, false, false⟩))
      ∧ (∀ lines n j, h.cmd = .batchCommit → b.members ≠ [] → s.eng.seqCtr ≠ 0xFFFFFFFF →
        lines = recordFor s h.origin .batchCommit → openSegment s = some (n, j) → lines.length ≤ 256 - j.wp →
        lineAt s ⟨n, j.wp⟩ = .erased → exec .arbiterGrant s = .next (appendPlaced s h lines ⟨n, j.wp⟩))
      ∧ (h.cmd = .batchAbort → exec .arbiterGrant s =
        .next (answeredAtGrant (teardown s true) h ⟨.ok, 0, b.bid, b.members.length, false, false, false⟩))

/-- The checks of a PUT, DELETE or FREEZE of either port in their order, after the state check: a command that fails one
completes with its status and changes nothing else (R62, R80, R202); a FREEZE of a range that stands completes OK with sequence
0. With the sequence counter exhausted, a command that passes the tests before it puts the store in READ_ONLY and completes
READ_ONLY (R69, R72): the RDONLY alert is raised and an open batch torn down. A BATCH_COMMIT with members is one such command;
that the fields of its READ_ONLY completion on the host port are 0 is the model's choice (log entry 41). -/
def Obligations.WriteChecksDecideInOrder : Prop :=
  ∀ (s : State) (h : Head), headAlone s h → s.eng.store = .ready →
    (∀ (k : Key) (m : Bool),
      (∀ (st : Status) (len buf : Nat), h.cmd = .put k len buf m ∨ h.cmd = .delete k m → writeBarred s h.port k m st →
        exec .arbiterGrant s = .next (answeredAtGrant s h ⟨st, 0, 0, 0, false, false, false⟩))
      ∧ (h.cmd = .delete k m → writeOpen s h.port k m → (∀ p, ¬ presentAs s k p) →
        exec .arbiterGrant s = .next (answeredAtGrant s h ⟨.notFound, 0, 0, 0, false, false, false⟩))
      ∧ (∀ len buf : Nat, h.cmd = .put k len buf m → writeOpen s h.port k m → dirLookup s.dir k = none →
          512 ≤ s.dir.length + s.rc.droppedTombs →
        exec .arbiterGrant s = .next (answeredAtGrant s h ⟨.directoryFull, 0, 0, 0, false, false, false⟩)))
    ∧ (∀ lo hi : Key, h.cmd = .freeze lo hi →
      (rangeFrozen s lo hi → exec .arbiterGrant s = .next (answeredAtGrant s h ⟨.ok, 0, 0, 0, false, false, false⟩))
      ∧ (¬ rangeFrozen s lo hi → 4 ≤ s.freezes.length →
        exec .arbiterGrant s = .next (answeredAtGrant s h ⟨.freezeFull, 0, 0, 0, false, false, false⟩))
      ∧ (¬ rangeFrozen s lo hi → s.freezes.length < 4 → rangeHoldsPending s lo hi →
        exec .arbiterGrant s = .next (answeredAtGrant s h ⟨.keyHeld, 0, 0, 0, false, false, false⟩)))
    ∧ (s.eng.seqCtr = 0xFFFFFFFF → checksPass s h → exec .arbiterGrant s =
      .next (answeredAtGrant (teardown (enteringReadOnly s) false) h ⟨.readOnly, 0, 0, 0, false, false, false⟩))

/-- MOUNT, UNMOUNT, FORMAT and RECLAIM at their grant: MOUNT of a mounted store reports it, of any other begins a mount (R159,
R169); UNMOUNT tears the open batch down and empties the tables (R123, R170); FORMAT is refused, begins its volume check or
enters FORMATTING (R171, R172); RECLAIM adopts the victim that stands, chooses one, or completes OK where none can be chosen
(R143, R144). When its victim leaves RECLAIMING the RECLAIM command completes: OK with the lines gained when it is FREE, OK
with 0 when it is RETIRED, READ_ONLY when no segment can be opened for a copy, MEDIA_FAULT after a second fault on one copy
(R143, R151–R153). The course of a FORMAT: its volume check reads line 0 of each segment, and at the last is refused or enters
FORMATTING (R171, R172); step 1 erases, prepares and opens its first good candidate (R173); step 2 erases and prepares the
rest (R174); at its end the store is READY, or READ_ONLY with too few usable segments (R175). That every retirement after an
ERASE FAULT or a faulted SPARE or opening program reads line 0 first (R44) is the model's reading (log entry 16); so is the
context for a RECLAIMING segment (log entry 20). -/
def Obligations.VolumeCommandsAtTheGrant : Prop :=
  (∀ (s : State) (q : QEntry), headAlone s (.host q) →
    (q.cmd = .mount → mounted s →
      exec .arbiterGrant s = .next (answeredAtGrant s (.host q) ⟨.ok, 0, s.eng.volId, usableCount s, false, false, false⟩))
    ∧ (q.cmd = .mount → s.eng.store = .unmounted ∨ s.eng.store = .failed →
      exec .arbiterGrant s = .next (mountBegun (grantedWith s (.host q) { freshCtx (.host q) with stage := .mount })))
    ∧ (q.cmd = .unmount → mounted s →
      exec .arbiterGrant s = .next (answeredAtGrant { s with
        eng := { s.eng with store := .unmounted, seqCtr := 0, volId := 0 }
        sm := ⟨[], 0, false⟩, dir := [], freezes := [], commits := [], batch := none, rc := ⟨none, 0, 0⟩
        alert := { s.alert with flags := match s.batch with
          | some b => if b.owner = .host then s.alert.flags ||| 0x10 else s.alert.flags
          | none => s.alert.flags } } (.host q)
        ⟨.ok, 0, 0, 0, false, false, false⟩))
    ∧ (∀ e n, q.cmd = .format e n → (mounted s ∧ ¬ (e = s.eng.volId ∧ n ≠ s.eng.volId))
        ∨ ((s.eng.store = .unmounted ∨ s.eng.store = .failed) ∧ e ≠ 0) →
      exec .arbiterGrant s = .next (answeredAtGrant s (.host q) ⟨.wrongVolume, 0, 0, 0, false, false, false⟩))
    ∧ (∀ e n, q.cmd = .format e n → s.eng.store = .unmounted ∨ s.eng.store = .failed → e = 0 →
      exec .arbiterGrant s = .next { grantedWith s (.host q) { freshCtx (.host q) with stage := .format } with
        fu := some ⟨n, .check 0, [], [], []⟩, holder := .command, seqr := some (.read ⟨0, 0⟩) })
    ∧ (∀ e n u, q.cmd = .format e n → mounted s → e = s.eng.volId → n ≠ s.eng.volId →
        u = teardown (grantedWith s (.host q) { freshCtx (.host q) with stage := .format }) false →
      formatEntered u ⟨n, .check 0, [], [], []⟩
        (fun k => match segEntry s k with | some x => (x.eraseCount, x.known) | none => (0, false))
        ((List.range 64).filter (fun k => (segEntry s k).any (fun x => x.st == .free))
          ++ (List.range 64).filter (fun k => !(segEntry s k).any (fun x => x.st == .free)))
        (exec .arbiterGrant s))
    ∧ (q.cmd = .reclaim → s.eng.store = .ready →
      (∀ r, s.rc.ctx = some r → exec .arbiterGrant s =
        .next (grantedWith s (.host q) { freshCtx (.host q) with stage := .reclaim }))
      ∧ (∀ v j, s.rc.ctx = none → tableOrdered s → victimChosen s v j → ∃ t, exec .arbiterGrant s = .next t
        ∧ t.inflight = some { freshCtx (.host q) with stage := .reclaim } ∧ t.holder = .none ∧ t.seqr = none
        ∧ t.rc = { s.rc with ctx := some ⟨v, .walk, 2, 0, false, none, .idle⟩ } ∧ standsAs t v (.reclaiming j)
        ∧ t.host = (Head.host q).grantHost s.host ∧ t.dir = s.dir ∧ t.commits = s.commits)
      ∧ (s.rc.ctx = none → tableOrdered s → noVictim s →
        exec .arbiterGrant s = .next (answeredAtGrant s (.host q) ⟨.ok, 0, 0, 0, false, false, false⟩))))
  ∧ (∀ (s : State) (c : Ctx) (r : Reclaim) (e : SegEntry) (l : Loc) (content : LineBits),
    c.stage = .reclaim → c.tearDue = false → s.inflight = some c → s.rc.ctx = some r → mounted s → tableOrdered s →
    segEntry s r.victim = some e →
    (r.step = .finish .spare → operating s .reclaim (.program l content) → ∃ u, exec .programDone s = .next u
      ∧ segEntry u r.victim = some { e with st := .free, known := true }
      ∧ reclaimOver s u c ⟨.ok, 0, 0, 254 - r.copied, false, false, r.copyRetried⟩)
    ∧ (r.step = .finish .retireRead → operating s .reclaim (.read l) → lineAt s l ≠ .erased → 5 ≤ usableCount s →
      ∃ u, exec .readDone s = .next u ∧ segEntry u r.victim = some { e with st := .retired }
      ∧ reclaimOver s u c ⟨.ok, 0, 0, 0, false, false, r.copyRetried⟩)
    ∧ (r.step = .finish .retireProg → operating s .reclaim (.program l content) → 5 ≤ usableCount s →
      ∃ u, exec .programDone s = .next u ∧ segEntry u r.victim = some { e with st := .retired, known := true }
      ∧ reclaimOver s u c ⟨.ok, 0, 0, 0, false, false, r.copyRetried⟩)
    ∧ (∀ h v, walkReading s r l → parseHeader (lineAt s l) = some h → namedAt s h l → ¬ droppedAt s h l → h.len = 0 →
      noRoomFor s 2 → freeCount s = 0 → e.st = .reclaiming v → s.eng.store = .ready → s.batch = none →
      ∃ u, exec .readDone s = .next u ∧ segEntry u r.victim = some { e with st := .closed v }
      ∧ u.eng = { s.eng with store := .readOnly } ∧ u.alert.flags = s.alert.flags ||| 0x80
      ∧ reclaimOver s u c ⟨.readOnly, 0, 0, 0, false, false, r.copyRetried⟩)
    ∧ ∀ a k v, copying s r a k l content → a.retried = true → e.st = .reclaiming v → a.place.seg ≠ r.victim →
      ∃ u, exec .programDeadlineExpiry s = .next u ∧ segEntry u r.victim = some { e with st := .closed v }
      ∧ reclaimOver s u c ⟨.mediaFault, 0, 0, 0, false, false, r.copyRetried⟩)
  ∧ (∀ (s : State) (c : Ctx) (t n : Nat) (f f' : FormatCtx) (y : Line0), operating s .command (.read ⟨n, 0⟩) →
    s.inflight = some c → c.origin = .host t → c.stage = .format → c.seq = none → c.retried = false →
    c.tearDue = false → s.fu = some f → f.phase = .check n →
    line0Reads (lineAt s ⟨n, 0⟩) y → f' = checkedLine f y →
    (n < 63 → exec .readDone s = .next { s with
      fu := some { f' with phase := .check (n + 1) }, seqr := some (.read ⟨n + 1, 0⟩) })
    ∧ (n = 63 → f.newId ∈ f'.ids → exec .readDone s = .next (syncIdle (answeredHost { s with fu := none, seqr := none } t
      ⟨.wrongVolume, 0, 0, 0, false, false, false⟩)))
    ∧ (n = 63 → f.newId ∉ f'.ids → s.batch = none → f'.counts.length = 64 → ∀ top,
      (∀ ec, some ec ∈ f'.counts → ec ≤ top) → (some top ∈ f'.counts ∨ (top = 0 ∧ ∀ x ∈ f'.counts, x = none)) →
      formatEntered s f' (fun k => match f'.counts.getD k none with | some ec => (ec, true) | none => (top, false))
        (List.range 64) (exec .readDone s)))
  ∧ ∀ (s : State) (f : FormatCtx) (n : Nat) (first : Bool) (p : PrepStage) (content : LineBits) (e : SegEntry),
    s.eng.store = .formatting → s.fu = some f → tableOrdered s → n < 64 → ArrayOk s.array → segEntry s n = some e →
    e.st = .dirty →
    (f.phase = (if first then .step1 n p else .step2 n p) →
      (p = .erase → operating s .format (.erase n) →
        let e' : SegEntry := { e with eraseCount := min (e.eraseCount + 1) 0xFFFFFF }
        (∃ u, exec .eraseDone s = .next u ∧ (∀ k, k < 256 → lineAt u ⟨n, k⟩ = .erased) ∧ segEntry u n = some e'
          ∧ u.seqr = some (.program ⟨n, 0⟩ (prepLine 0x5A s.eng.volId e'.eraseCount)) ∧ u.holder = .format
          ∧ u.fu = some { f with phase := if first then .step1 n .spare else .step2 n .spare })
        ∧ ∃ u, exec .eraseDeadlineExpiry s = .next u ∧ segEntry u n = some e' ∧ u.seqr = some (.read ⟨n, 0⟩)
          ∧ u.fu = some { f with phase := if first then .step1 n .retireRead else .step2 n .retireRead } ∧ u.holder = .format)
      ∧ (p = .spare → operating s .format (.program ⟨n, 0⟩ content) →
        (first = true → lineAt s ⟨n, 1⟩ = .erased → exec .programDone s = .next
          { entryNow (setLine s ⟨n, 0⟩ (.good content)) n (fun x => { x with known := true }) 0 with
            fu := some { f with phase := .step1Open n }, seqr := some (.program ⟨n, 1⟩ (openLine 1 s.eng.volId)) })
        ∧ (first = false → formatGoesOn
          (entryNow (setLine s ⟨n, 0⟩ (.good content)) n (fun x => { x with st := .free, known := true }) 0) f first
          (exec .programDone s))
        ∧ exec .programDeadlineExpiry s = .next { entryNow (setLine s ⟨n, 0⟩ .torn) n faultCounted 0x04 with
          fu := some { f with phase := if first then .step1 n .retireRead else .step2 n .retireRead }
          seqr := some (.read ⟨n, 0⟩) })
      ∧ (p = .retireRead → operating s .format (.read ⟨n, 0⟩) →
        (lineAt s ⟨n, 0⟩ = .erased → exec .readDone s = .next { s with
          fu := some { f with phase := if first then .step1 n .retireProg else .step2 n .retireProg }
          seqr := some (.program ⟨n, 0⟩ (prepLine 0xA5 s.eng.volId e.eraseCount)) })
        ∧ (lineAt s ⟨n, 0⟩ ≠ .erased →
          formatGoesOn (entryNow s n (fun x => { x with st := .retired }) 0x04) f first (exec .readDone s)))
      ∧ (p = .retireProg → operating s .format (.program ⟨n, 0⟩ content) →
        formatGoesOn (entryNow (setLine s ⟨n, 0⟩ (.good content)) n (fun x => { x with st := .retired, known := true }) 0x04)
          f first (exec .programDone s)
        ∧ formatGoesOn (entryNow (setLine s ⟨n, 0⟩ .torn) n (fun x => { faultCounted x with st := .retired }) 0x04) f first
          (exec .programDeadlineExpiry s)))
    ∧ (f.phase = .step1Open n → operating s .format (.program ⟨n, 1⟩ content) →
      (∀ u, u = entryNow (setLine s ⟨n, 1⟩ (.good content)) n (fun x => { x with st := .opened ⟨1, 2, 0, 0, 0⟩ }) 0 →
        formatGoesOn { u with sm := { u.sm with nextEpoch := 2 } }
          { f with todo := (List.range 64).filter (fun k => f.todo.contains k) } false (exec .programDone s))
      ∧ exec .programDeadlineExpiry s = .next { entryNow (setLine s ⟨n, 1⟩ .torn) n faultCounted 0x04 with
        fu := some { f with phase := .step1 n .retireRead }, seqr := some (.read ⟨n, 0⟩) })

/-! ### Appending a record -/

/-- An append of either port that finds room is placed at the OPEN segment's write pointer (R28, R35 step 1, R63, R90, R94,
R118): it takes the counter's value, and its header line is programmed. So does a waiting command that resumes (R109): one that
restarted keeps its sequence and lines. -/
def Obligations.AppendIsPlacedAtTheWritePointer : Prop :=
  (∀ (s : State) (h : Head) (lines : List LineBits) (n : Nat) (j : Journal),
    headAlone s h → s.eng.store = .ready → appendPasses s h lines → openSegment s = some (n, j) →
    lines.length ≤ 256 - j.wp → lineAt s ⟨n, j.wp⟩ = .erased →
    exec .arbiterGrant s = .next (appendPlaced s h lines ⟨n, j.wp⟩))
  ∧ ∀ (s : State) (c : Ctx) (lines : List LineBits) (n : Nat) (j : Journal),
    arrayIdle s → mounted s → s.inflight = some c → c.stage = .waitSpace true → appends s c.origin c.cmd lines →
    openSegment s = some (n, j) → lines.length ≤ 256 - j.wp → lineAt s ⟨n, j.wp⟩ = .erased →
    (∀ x, c.lines ≠ [] → c.seq = some x → exec .waitSpaceResume s = .next { s with
      inflight := some { c with stage := .header, place := ⟨n, j.wp⟩ }
      holder := .command, seqr := some (.program ⟨n, j.wp⟩ (c.lines.getD 0 0)) })
    ∧ (c.lines = [] → c.seq = none → exec .waitSpaceResume s = .next { s with
        inflight := some { c with stage := .header, seq := some s.eng.seqCtr, lines := lines, place := ⟨n, j.wp⟩ }
        eng := { s.eng with seqCtr := s.eng.seqCtr + 1 }
        holder := .command, seqr := some (.program ⟨n, j.wp⟩ (lines.getD 0 0)) })

/-- An append of either port without room in the OPEN segment (R27, R31, R32, R35, R36): with 2 FREE segments the least worn
one is opened with the next epoch and the OPEN one is closed; else the command waits if reclaim can gain space and completes
STORE_FULL if not; with the epoch counter exhausted it completes READ_ONLY. The segment whose opening line is programmed is
OPEN, and the record is placed at its line 2 (R93). An opening that fails a second time completes the command MEDIA_FAULT when
its segment has been prepared (R33, R93, R120). That a segment is RECLAIMING (R35 step 3) is read as: a reclaim context exists
(the model's reading, log entry 20); that a BATCH_COMMIT so ended carries RETRIED at its first admission too is the model's
reading of R120 (log entry 35); that a host BATCH_COMMIT that ends STORE_FULL, READ_ONLY or MEDIA_FAULT carries 0 in the fields
that no rule gives, its length and count among them, is the model's choice (log entry 41). -/
def Obligations.AppendWithoutRoomOpensWaitsOrFails : Prop :=
  (∀ (s : State) (h : Head) (lines : List LineBits),
    headAlone s h → s.eng.store = .ready → appendPasses s h lines → noRoomFor s lines.length → tableOrdered s →
    (∀ n, s.sm.exhausted = false → 2 ≤ freeCount s → leastWorn s n → lineAt s ⟨n, 1⟩ = .erased →
      ∃ t, exec .arbiterGrant s = .next t
        ∧ t.seqr = some (.program ⟨n, 1⟩ (openLine s.sm.nextEpoch s.eng.volId)) ∧ t.holder = .command
        ∧ t.inflight = some { freshCtx h with stage := .admission ⟨n, s.sm.nextEpoch, none, none⟩ }
        ∧ t.eng.seqCtr = s.eng.seqCtr ∧ t.dir = s.dir ∧ t.host = h.grantHost s.host ∧ t.mgmt = h.grantMgmt s.mgmt
        ∧ (t.sm.nextEpoch, t.sm.exhausted) =
          (if s.sm.nextEpoch = 0xFFFFFFFF then (s.sm.nextEpoch, true) else (s.sm.nextEpoch + 1, false))
        ∧ ∀ m j, openSegment s = some (m, j) → j.wp ≤ 256 →
          standsAs t m (.closed { j with dead := j.dead + (256 - j.wp), wp := 256 }))
    ∧ (s.sm.exhausted = false → freeCount s < 2 → spaceCanBeGained s → exec .arbiterGrant s =
      .next (grantedWith s h { freshCtx h with stage := .waitSpace false }))
    ∧ (s.sm.exhausted = false → freeCount s < 2 → ¬ spaceCanBeGained s → exec .arbiterGrant s =
      .next (answeredAtGrant s h ⟨.storeFull, 0, 0, 0, false, false, false⟩))
    ∧ (s.sm.exhausted = true → exec .arbiterGrant s =
      .next (answeredAtGrant (teardown (enteringReadOnly s) false) h ⟨.readOnly, 0, 0, 0, false, false, false⟩)))
  ∧ ∀ (s : State) (c : Ctx) (o : Opening) (e : SegEntry) (k : Nat) (content : LineBits),
    programmingFor s c c.origin ⟨o.seg, k⟩ content → c.stage = .admission o → segEntry s o.seg = some e →
    (∀ lines, k = 1 → o.prep = none → c.seq = none → c.lines = [] → appends s c.origin c.cmd lines →
      lineAt s ⟨o.seg, 2⟩ = .erased → ∃ u, exec .programDone s = .next u
        ∧ segEntry u o.seg = some { e with st := .opened ⟨o.epoch, 2, 0, 0, 0⟩ }
        ∧ u.inflight = some { c with stage := .header, seq := some s.eng.seqCtr, lines := lines, place := ⟨o.seg, 2⟩ }
        ∧ u.eng = { s.eng with seqCtr := s.eng.seqCtr + 1 } ∧ u.seqr = some (.program ⟨o.seg, 2⟩ (lines.getD 0 0))
        ∧ u.dir = s.dir ∧ u.host = s.host ∧ u.mgmt = s.mgmt)
    ∧ ∀ y, k = 0 → o.prep = some .spare → o.failed = some y → ∃ u, exec .programDone s = .next u
        ∧ segEntry u o.seg = some { e with st := .free, known := true } ∧ commandOver u
        ∧ handedTo s u c ⟨.mediaFault, 0, c.seq.getD 0, 0, false, false, c.retried || c.cmd == .batchCommit⟩ c.job.out
        ∧ u.dir = s.dir ∧ u.freezes = s.freezes ∧ u.commits = s.commits

/-- PROGRAM_DONE of a header or data line (R95): the line is GOOD and the program of the record's next line, one above, is
issued; the stage is COMMIT at its last line and DATA before. -/
def Obligations.LineProgramsFollowInOrder : Prop :=
  ∀ (s : State) (c : Ctx) (i : Nat) (l m : Loc) (content : LineBits),
    programmingFor s c c.origin l content → ArrayOk s.array → (c.stage = .header ∧ i = 0 ∨ c.stage = .data i) →
    i + 1 < c.lines.length → l = ⟨c.place.seg, c.place.line + i⟩ → m = ⟨c.place.seg, c.place.line + (i + 1)⟩ →
    lineAt s m = .erased →
    exec .programDone s = .next { setLine s l (.good content) with
      seqr := some (.program m (c.lines.getD (i + 1) 0))
      inflight := some { c with stage := if i + 2 = c.lines.length then .commit else .data (i + 1) } }

/-- PROGRAM_DONE of a record's commit line publishes it; its extent counts live and the write pointer passes it (R39). A plain
record is the key's committed part and the superseded one counts dead (R100). A member record is the key's pending part, pins
its segment and joins the member list (R102). A COMMIT record enters the commit table and promotes the members that hold a
pending part (R53, R119); the batch is closed and the pins fall to 0. A FREEZE record's range enters the freeze list (R63).
The command completes OK. That superseded lines count dead up to the live lines of their segment is the model's choice (log
entry 25), and so is the length 0 in the host's OK of a BATCH_COMMIT (log entry 41). -/
def Obligations.CommitLinePublishesTheRecord : Prop :=
  (∀ (s : State) (c : Ctx) (l : Loc) (content : LineBits) (k : Key) (tomb : Bool) (len e : Nat),
    programmingFor s c c.origin l content → DirOk s.dir → c.stage = .commit → e = 2 + (len + 15) / 16 →
    (((tomb = false ∧ ∃ buf, c.cmd = .put k len buf false) ∨ (tomb = true ∧ len = 0 ∧ c.cmd = .delete k false)) →
      ∃ u, exec .programDone s = .next u
        ∧ committedOf u k = some ⟨tomb, c.place, len, c.seq.getD 0, false⟩
        ∧ (∀ x, x ≠ k → dirLookup u.dir x = dirLookup s.dir x)
        ∧ handedTo s u c ⟨.ok, len, c.seq.getD 0, 0, false, false, c.retried⟩ c.job.out
        ∧ commandOver u
        ∧ u.freezes = s.freezes ∧ u.commits = s.commits ∧ u.eng = s.eng
        ∧ ∀ n j, journalOf s n = some j →
          let g := if n = c.place.seg then e else 0
          let x := match committedOf s k with
            | some o => if o.loc.seg = n then min (2 + (o.len + 15) / 16) (j.live + g) else 0
            | none => 0
          journalOf u n = some { j with wp := j.wp + g, live := j.live + g - x, dead := j.dead + x })
    ∧ ∀ b, s.batch = some b →
      ((tomb = false ∧ ∃ buf, c.cmd = .put k len buf true) ∨ (tomb = true ∧ len = 0 ∧ c.cmd = .delete k true)) →
      ∃ u timer, exec .programDone s = .next u
        ∧ dirLookup u.dir k = some ⟨k, committedOf s k, some ⟨tomb, c.place, len, c.seq.getD 0, false⟩⟩
        ∧ (∀ x, x ≠ k → dirLookup u.dir x = dirLookup s.dir x)
        ∧ u.batch = some ⟨b.owner, b.bid, b.members ++ [⟨k, c.place, tomb⟩], timer⟩
        ∧ handedTo s u c ⟨.ok, len, c.seq.getD 0, 0, false, false, c.retried⟩ c.job.out
        ∧ commandOver u ∧ u.freezes = s.freezes ∧ u.commits = s.commits
        ∧ ∀ n j, journalOf s n = some j → journalOf u n = some (if n = c.place.seg
          then { j with wp := j.wp + e, live := j.live + e, pins := j.pins + 1 } else j))
  ∧ (∀ (s : State) (c : Ctx) (l : Loc) (content : LineBits) (b : Batch),
    programmingFor s c c.origin l content → DirOk s.dir → CommitOk s.commits → c.stage = .commit → c.cmd = .batchCommit →
    s.batch = some b → ∃ u, exec .programDone s = .next u
      ∧ u.batch = none
      ∧ (∀ x, x ∈ u.commits ↔ x = ⟨b.bid, c.place⟩ ∨ (x ∈ s.commits ∧ x.bid ≠ b.bid))
      ∧ (∀ k e p, dirLookup s.dir k = some e → e.pending = some p → k ∈ b.members.map Member.key →
        ∃ shadowed, dirLookup u.dir k = some ⟨k, some { p with shadowed := shadowed }, none⟩
          ∧ (shadowed = true ↔ p.tomb = true ∧ ∃ o, e.committed = some o ∧ liesAfter s o.loc p.loc))
      ∧ (∀ k, k ∉ b.members.map Member.key ∨ ¬ heldKey s k → dirLookup u.dir k = dirLookup s.dir k)
      ∧ handedTo s u c ⟨.ok, 0, c.seq.getD 0, b.members.length, false, false, c.retried⟩ c.job.out
      ∧ commandOver u ∧ u.freezes = s.freezes
      ∧ ∀ n j, journalOf s n = some j →
        let g := if n = c.place.seg then c.lines.length else 0
        let x := min (supersededLines s b.members n) (j.live + g)
        journalOf u n = some { j with wp := j.wp + g, live := j.live + g - x, dead := j.dead + x, pins := 0 })
  ∧ ∀ (s : State) (c : Ctx) (l : Loc) (content : LineBits) (lo hi : Key),
    programmingFor s c c.origin l content → FreezeOk s.freezes → c.stage = .commit → c.cmd = .freeze lo hi →
    ∃ u, exec .programDone s = .next u
      ∧ (∀ x, x ∈ u.freezes ↔ x = ⟨lo, hi, c.place⟩ ∨ (x ∈ s.freezes ∧ ¬ (x.lo = lo ∧ x.hi = hi)))
      ∧ handedTo s u c ⟨.ok, 0, c.seq.getD 0, 0, false, false, c.retried⟩ c.job.out
      ∧ commandOver u ∧ u.dir = s.dir ∧ u.commits = s.commits
      ∧ ∀ n j, journalOf s n = some j → journalOf u n = some (if n = c.place.seg
        then { j with wp := j.wp + c.lines.length, live := j.live + c.lines.length } else j)

/-- PROGRAM_DEADLINE_EXPIRY on a line of a record (R6, R42, R97–R99): the line is TORN, the record is abandoned, its segment
counts the fault and is closed. A retried command completes MEDIA_FAULT with its sequence; one that is not opens another
segment for its one restart. That the MEDIA_FAULT of a host BATCH_COMMIT carries length 0 and count 0 is the model's choice (log
entry 41). -/
def Obligations.LineFaultAbandonsTheRecord : Prop :=
  ∀ (s : State) (c : Ctx) (l : Loc) (content : LineBits) (e : SegEntry) (j : Journal),
    programmingFor s c c.origin l content → ArrayOk s.array → inArray l = true → l.seg = c.place.seg → tableOrdered s →
    (c.stage = .header ∨ (∃ k, c.stage = .data k) ∨ c.stage = .commit) →
    e ∈ s.sm.table → e.num = c.place.seg → e.st = .opened j → j.wp + c.lines.length ≤ 256 →
    let closed : SegEntry := { e with
      st := .closed { j with wp := 256, dead := j.dead + (256 - j.wp) }
      faults := e.faults + 1, retirePending := e.retirePending || decide (2 ≤ e.faults + 1) }
    (c.retried = true → ∃ u, exec .programDeadlineExpiry s = .next u
      ∧ lineAt u l = .torn ∧ closed ∈ u.sm.table ∧ u.alert.flags.getLsbD 2 = true
      ∧ handedTo s u c ⟨.mediaFault, 0, c.seq.getD 0, 0, false, false, true⟩ c.job.out
      ∧ u.inflight = none ∧ u.dir = s.dir ∧ u.freezes = s.freezes ∧ u.commits = s.commits)
    ∧ ∀ n, c.retried = false → s.sm.exhausted = false → 2 ≤ freeCount s →
      leastWorn s n → (∀ x y, standsAs s x (.opened y) → x = c.place.seg) → lineAt s ⟨n, 1⟩ = .erased →
      ∃ u, exec .programDeadlineExpiry s = .next u
        ∧ lineAt u l = .torn ∧ closed ∈ u.sm.table ∧ u.alert.flags.getLsbD 2 = true
        ∧ u.inflight = some { c with retried := true, stage := .admission ⟨n, s.sm.nextEpoch, none, none⟩ }
        ∧ u.seqr = some (.program ⟨n, 1⟩ (openLine s.sm.nextEpoch s.eng.volId)) ∧ u.dir = s.dir

/-! ### Reading -/

/-- GET and LIST of either port (R131–R133, R135, R136, R202): a GET reads the data lines of the committed record one at a time
into its buffer, or its answer, and completes with the length and the committed sequence; a key that is not present completes
NOT_FOUND. A LIST reads the header of the lowest present key above its after-key, places its entry and goes on with the next, up
to its count; with none left it completes with END. The reads of a mount rebuild the tables that these follow: SURVEY enters each
segment by its lines 0 and 1 and gives its verdict (R160, R161); COLLECT steps over the headers and judges COMMIT and FREEZE
records (R162, R163); REPLAY applies the complete records (R164); ACCOUNT and the end follow (R165, R166, R168). Of the mount's
clauses these are the model's: a field not yet filled is 0 (log entry 15), COLLECT reads every line of a record before it
judges it and REPLAY reads no header again (log entry 17), ACCOUNT's live lines are at most those below the pointer (log entry
25), the mount unit's items stay at the end (log entry 26), and R161's highest epoch is R27's, that of a volume-mismatched opening
line among them (log entry 37). -/
def Obligations.ReadsFollowTheDirectory : Prop :=
  (∀ (s : State) (h : Head) (k : Key) (buf : Nat), headAlone s h → mounted s → h.cmd = .get k buf →
    ((∀ p, ¬ presentAs s k p) →
      exec .arbiterGrant s = .next (answeredAtGrant s h ⟨.notFound, 0, 0, 0, false, false, false⟩))
    ∧ ∀ p, presentAs s k p →
      (p.len = 0 → exec .arbiterGrant s = .next (answeredAtGrant s h ⟨.ok, 0, p.seq, 0, false, false, false⟩))
      ∧ (p.len ≠ 0 → exec .arbiterGrant s = .next { grantedWith s h { freshCtx h with
          stage := .read, job := ⟨p.loc, p.len, p.seq, 1, 0, 0, []⟩ } with
        holder := .command, seqr := some (.read ⟨p.loc.seg, p.loc.line + 1⟩) }))
  ∧ (∀ (s : State) (h : Head) (after : Key) (buf count : Nat),
    headAlone s h → mounted s → h.cmd = .list after buf count → DirOk s.dir →
    ((∀ k p, presentAs s k p → k ≤ after) →
      exec .arbiterGrant s = .next (answeredAtGrant s h ⟨.ok, 0, 0, 0, true, false, false⟩))
    ∧ ∀ k p, lowestAbove s after k p →
      exec .arbiterGrant s = .next { grantedWith s h { freshCtx h with
          stage := .read, job := ⟨p.loc, p.len, 0, 0, k, 0, []⟩ } with
        holder := .command, seqr := some (.read p.loc) })
  ∧ (∀ (s : State) (c : Ctx) (l : Loc) (content : LineBits) (k : Key) (buf n : Nat) (v : List Byte),
    readingFor s c l → c.cmd = .get k buf → c.stage = .read → lineAt s l = .good content → StagingOk s.staging →
    c.job.len ≤ 240 → c.job.placed ≤ c.job.len → n = min 16 (c.job.len - c.job.placed) →
    v = (lineBytes content).take n →
    ∃ u, exec .readDone s = .next u ∧ placedIn s u c buf c.job.placed v
      ∧ (c.job.k < (c.job.len + 15) / 16 →
        u.seqr = some (.read ⟨c.job.loc.seg, c.job.loc.line + (c.job.k + 1)⟩)
        ∧ u.inflight = some { c with
          job := { c.job with placed := c.job.placed + n, k := c.job.k + 1, out := gathered c v } })
      ∧ ((c.job.len + 15) / 16 ≤ c.job.k →
        commandOver u ∧ handedTo s u c ⟨.ok, c.job.len, c.job.seq, 0, false, false, false⟩ (gathered c v)))
  ∧ (∀ (s : State) (c : Ctx) (l : Loc) (hdr : Hdr) (after : Key) (buf count n : Nat) (v : List Byte),
    readingFor s c l → c.cmd = .list after buf count → c.stage = .read → parseHeader (lineAt s l) = some hdr →
    StagingOk s.staging → DirOk s.dir → n = c.job.placed + 1 → 3 * n ≤ 256 →
    v = [hdr.key.extractLsb' 8 8, hdr.key.extractLsb' 0 8, BitVec.ofNat 8 hdr.len] →
    ∃ u, exec .readDone s = .next u ∧ placedIn s u c buf (3 * c.job.placed) v
      ∧ (∀ k p, lowestAbove s c.job.key k p → n < count → u.seqr = some (.read p.loc)
        ∧ u.inflight = some { c with
          job := { c.job with placed := n, key := k, loc := p.loc, len := p.len, out := gathered c v } })
      ∧ (∀ k p, lowestAbove s c.job.key k p → count ≤ n →
        commandOver u ∧ handedTo s u c ⟨.ok, 3 * n, 0, n, false, false, false⟩ (gathered c v))
      ∧ ((∀ k p, presentAs s k p → k ≤ c.job.key) →
        commandOver u ∧ handedTo s u c ⟨.ok, 3 * n, 0, n, true, false, false⟩ (gathered c v)))
  ∧ (∀ (s : State) (n : Nat) (y : Line0), operating s .mount (.read ⟨n, 0⟩) → s.mu.phase = .survey → tableOrdered s →
    (∀ e ∈ s.sm.table, e.num < n) → line0Reads (lineAt s ⟨n, 0⟩) y →
    (y = .erased ∨ y = .torn → surveyGoesOn (entered s n .dirty 0 false) n (exec .readDone s))
    ∧ (y = .foreign → surveyGoesOn { s with mu := { s.mu with foreign := true } } n (exec .readDone s))
    ∧ (∀ vid ec, y = .retired vid ec → surveyGoesOn (entered s n .retired ec true) n (exec .readDone s))
    ∧ ∀ vid ec, y = .spare vid ec → exec .readDone s = .next { s with
      mu := { s.mu with
        line0 := some (vid, ec), foundVid := if s.mu.foundVid = 0 then vid else s.mu.foundVid
        mixed := s.mu.mixed || (s.mu.foundVid != 0 && s.mu.foundVid != vid) }
      seqr := some (.read ⟨n, 1⟩) })
  ∧ (∀ (s : State) (n : Nat) (vid stray : Word) (ec : Nat) (st : SegState),
    operating s .mount (.read ⟨n, 1⟩) → s.mu.phase = .survey → tableOrdered s → (∀ e ∈ s.sm.table, e.num < n) →
    s.mu.line0 = some (vid, ec) → line1Gives vid s.mu.strayEpoch (lineAt s ⟨n, 1⟩) st stray →
    surveyGoesOn (entered { s with mu := { s.mu with line0 := none, strayEpoch := stray } } n st ec true) n
      (exec .readDone s))
  ∧ (∀ (s : State) (l : Loc), operating s .mount (.read l) → s.mu.phase = .collect → s.mu.judge = none →
    s.mu.scan = some l → tableOrdered s →
    (lineAt s l = .erased → segmentScanned s l.seg l.line false (exec .readDone s))
    ∧ (lineAt s l ≠ .erased → parseHeader (lineAt s l) = none → segmentScanned s l.seg 256 true (exec .readDone s))
    ∧ ∀ h e, parseHeader (lineAt s l) = some h → e = 2 + (h.len + 15) / 16 →
      (256 < l.line + e ∨ h.seq = 0xFFFFFFFF#32 → segmentScanned s l.seg 256 true (exec .readDone s))
      ∧ (l.line + e ≤ 256 → h.seq ≠ 0xFFFFFFFF#32 →
        let mu : MountUnit := { s.mu with highest := match s.mu.highest with
          | some q => if q < h.seq then some h.seq else some q
          | none => some h.seq }
        (h.kind = .commit ∨ h.kind = .freeze → exec .readDone s = .next { s with
          mu := { mu with judge := some ⟨⟨l, h⟩, []⟩ }, seqr := some (.read ⟨l.seg, l.line + 1⟩) })
        ∧ (h.kind = .value ∨ h.kind = .tombstone →
          scanGoesOn { s with mu := { mu with found := s.mu.found ++ [⟨l, h⟩] } } l e (exec .readDone s))))
  ∧ (∀ (s : State) (l : Loc) (f : FoundRec) (lines after : List Line) (e : Nat), operating s .mount (.read l) →
    s.mu.phase = .collect ∨ s.mu.phase = .replay → s.mu.judge = some ⟨f, lines⟩ → after = lines ++ [lineAt s l] →
    e = 2 + (f.hdr.len + 15) / 16 → after.length + 1 < e → exec .readDone s = .next { s with
      mu := { s.mu with judge := some ⟨f, after⟩ }
      seqr := some (.read ⟨f.loc.seg, f.loc.line + (after.length + 1)⟩) })
  ∧ (∀ (s u : State) (l : Loc) (f : FoundRec) (lines after : List Line) (e : Nat) (v : List Byte),
    operating s .mount (.read l) → s.mu.phase = .collect → s.mu.judge = some ⟨f, lines⟩ →
    after = lines ++ [lineAt s l] → e = 2 + (f.hdr.len + 15) / 16 → e ≤ after.length + 1 →
    v = valueOf f.hdr after → u = { s with mu := { s.mu with judge := none } } → tableOrdered s →
    (recordComplete f.hdr after = false → scanGoesOn u f.loc e (exec .readDone s))
    ∧ (recordComplete f.hdr after = true → f.hdr.kind = .commit → CommitOk s.commits →
      ((∀ x ∈ s.commits, x.bid ≠ word32At v 0) → 64 ≤ s.commits.length → mountFails u .corrupt (exec .readDone s))
      ∧ ((∃ x ∈ s.commits, x.bid = word32At v 0) ∨ s.commits.length < 64 → ∃ commits extents,
        (∀ x, x ∈ commits ↔ x = ⟨word32At v 0, f.loc⟩ ∨ (x ∈ s.commits ∧ x.bid ≠ word32At v 0)) ∧ CommitOk commits
        ∧ (∀ b, extents.find? (fun x => x.1 == b) =
          if b = word32At v 0 then some (b, e) else s.mu.extents.find? (fun x => x.1 == b))
        ∧ scanGoesOn { u with commits := commits, mu := { u.mu with extents := extents } } f.loc e (exec .readDone s)))
    ∧ (recordComplete f.hdr after = true → f.hdr.kind = .freeze → FreezeOk s.freezes →
      ((∀ x ∈ s.freezes, ¬ (x.lo = word16At v 0 ∧ x.hi = word16At v 2)) → 4 ≤ s.freezes.length →
        mountFails u .corrupt (exec .readDone s))
      ∧ ((∃ x ∈ s.freezes, x.lo = word16At v 0 ∧ x.hi = word16At v 2) ∨ s.freezes.length < 4 → ∃ freezes,
        (∀ x, x ∈ freezes ↔ x = ⟨word16At v 0, word16At v 2, f.loc⟩
          ∨ (x ∈ s.freezes ∧ ¬ (x.lo = word16At v 0 ∧ x.hi = word16At v 2))) ∧ FreezeOk freezes
        ∧ scanGoesOn { u with freezes := freezes } f.loc e (exec .readDone s))))
  ∧ ∀ (s u : State) (l : Loc) (f : FoundRec) (lines after : List Line) (e : Nat),
    operating s .mount (.read l) → s.mu.phase = .replay → s.mu.judge = some ⟨f, lines⟩ →
    after = lines ++ [lineAt s l] → e = 2 + (f.hdr.len + 15) / 16 → e ≤ after.length + 1 → DirOk s.dir →
    u = { s with mu := { s.mu with judge := none } } → tableOrdered s →
    let applies := recordComplete f.hdr after = true ∧ (f.hdr.bid = 0 ∨ ∃ x ∈ s.commits, x.bid = f.hdr.bid)
    let p : Part := ⟨f.hdr.kind == .tombstone, f.loc, f.hdr.len, f.hdr.seq, false⟩
    (¬ applies → replayGoesOn u (exec .readDone s))
    ∧ (applies → dirLookup s.dir f.hdr.key = none → 512 ≤ s.dir.length → mountFails u .corrupt (exec .readDone s))
    ∧ (applies → dirLookup s.dir f.hdr.key ≠ none ∨ s.dir.length < 512 → ∃ dir, DirOk dir
      ∧ (∀ k, k ≠ f.hdr.key → dirLookup dir k = dirLookup s.dir k)
      ∧ ((∀ o, committedOf s f.hdr.key = some o → o.seq ≤ f.hdr.seq) → committedOf { u with dir := dir } f.hdr.key = some p)
      ∧ (∀ o, committedOf s f.hdr.key = some o → f.hdr.seq < o.seq →
        committedOf { u with dir := dir } f.hdr.key = some { o with shadowed := o.shadowed || o.tomb })
      ∧ replayGoesOn { u with dir := dir } (exec .readDone s))

/-! ### The end of an erase -/

/-- ERASE_DONE and ERASE_DEADLINE_EXPIRY, shown in the SETTLE phase of a mount (R7, R29, R43, R44, R167): the erase count
rises; every line of a completed erase is ERASED and the SPARE, or for a retire-pending segment the RETIRED, preparation line
is programmed; a failed erase is followed by the read of line 0 that precedes the retirement. The rest of the sequence follows
(R24, R30, R42, R44): a preparation line that is programmed leaves the segment FREE with a KNOWN count; a first fault repeats the
sequence and a second begins the retirement with the read of line 0; SETTLE goes on with the next DIRTY segment, and with none
left the mount ends OK (R168). That line 0 is read after an ERASE FAULT, and after a second fault of a preparation line, is the
model's reading (log entry 16); that the mount unit's other items stay at the end is its choice (log entry 26). -/
def Obligations.EraseEndsInPreparationOrRetirement : Prop :=
  (∀ (s : State) (n : Nat) (e : SegEntry),
    s.pins.resetLow = false → s.ctl.srst = false → s.eng.haltReq = false → s.holder = .mount → s.mu.phase = .settle →
    s.mu.settling = some (n, .erase) → s.seqr = some (.erase n) → n < 64 → ArrayOk s.array → segEntry s n = some e →
    let e' : SegEntry := { e with eraseCount := min (e.eraseCount + 1) 0xFFFFFF }
    (∃ u, exec .eraseDone s = .next u ∧ (∀ k, k < 256 → lineAt u ⟨n, k⟩ = .erased) ∧ segEntry u n = some e'
      ∧ u.seqr = some (.program ⟨n, 0⟩
        (prepLine (if e.retirePending then 0xA5 else 0x5A) s.mu.foundVid e'.eraseCount))
      ∧ u.mu = { s.mu with settling := some (n, if e.retirePending then .retireProg else .spare) } ∧ u.holder = .mount)
    ∧ ∃ u, exec .eraseDeadlineExpiry s = .next u ∧ segEntry u n = some e'
      ∧ (∀ k, k < 256 → lineAt u ⟨n, k⟩ = .erased ∨ lineAt u ⟨n, k⟩ = .torn)
      ∧ u.seqr = some (.read ⟨n, 0⟩) ∧ u.mu = { s.mu with settling := some (n, .retireRead) } ∧ u.holder = .mount)
  ∧ ∀ (s : State) (n : Nat) (content : LineBits) (e : SegEntry), s.mu.phase = .settle → s.eng.store = .mounting →
    tableOrdered s → n < 64 → ArrayOk s.array → segEntry s n = some e → e.st = .dirty →
    (s.mu.settling = some (n, .spare) → operating s .mount (.program ⟨n, 0⟩ content) →
      settleGoesOn (entryNow (setLine s ⟨n, 0⟩ (.good content)) n (fun x => { x with st := .free, known := true }) 0)
        (exec .programDone s)
      ∧ (e.retirePending = false → e.faults = 0 →
        exec .programDeadlineExpiry s = .next { entryNow (setLine s ⟨n, 0⟩ .torn) n faultCounted 0x04 with
          mu := { s.mu with settling := some (n, .erase) }, seqr := some (.erase n) })
      ∧ (e.retirePending = true ∨ 1 ≤ e.faults →
        exec .programDeadlineExpiry s = .next { entryNow (setLine s ⟨n, 0⟩ .torn) n faultCounted 0x04 with
          mu := { s.mu with settling := some (n, .retireRead) }, seqr := some (.read ⟨n, 0⟩) }))
    ∧ (s.mu.settling = some (n, .retireRead) → operating s .mount (.read ⟨n, 0⟩) →
      (lineAt s ⟨n, 0⟩ = .erased → exec .readDone s = .next { s with
        mu := { s.mu with settling := some (n, .retireProg) }
        seqr := some (.program ⟨n, 0⟩ (prepLine 0xA5 s.mu.foundVid e.eraseCount)) })
      ∧ (lineAt s ⟨n, 0⟩ ≠ .erased →
        settleGoesOn (entryNow s n (fun x => { x with st := .retired }) 0x04) (exec .readDone s)))
    ∧ (s.mu.settling = some (n, .retireProg) → operating s .mount (.program ⟨n, 0⟩ content) →
      settleGoesOn (entryNow (setLine s ⟨n, 0⟩ (.good content)) n (fun x => { x with st := .retired, known := true }) 0x04)
        (exec .programDone s)
      ∧ settleGoesOn (entryNow (setLine s ⟨n, 0⟩ .torn) n (fun x => { faultCounted x with st := .retired }) 0x04)
        (exec .programDeadlineExpiry s))

/-! ### The batch idle timer -/

/-- The expiry of the batch idle timer (R114, R123): every pending part is dropped and entries left empty go; the pins fall
to 0; the batch is closed; BATCHLOST is raised for a host-owned batch; committed parts and the ports stay. That an expiry with
the timer SUSPENDED, or with no batch open, leaves the state as it is, is the model's choice (log entry 1). Every step keeps
the law of the timer (R113): while a batch is open it is RUNNING exactly when the batch's owner has no batch command queued or
in flight. -/
def Obligations.IdleExpiryTearsTheBatchDown : Prop :=
  (∀ s : State, s.pins.resetLow = false →
    (∀ b, s.batch = some b → b.timer = .running → ∃ t, exec .batchIdleExpiry s = .next t
      ∧ t.batch = none
      ∧ t.dir = (s.dir.filter (fun e => e.committed.isSome)).map (fun e => { e with pending := none })
      ∧ (∀ e ∈ t.sm.table, ∀ j, e.st.journal? = some j → j.pins = 0)
      ∧ t.alert.flags = (if b.owner = .host then s.alert.flags ||| 0x10 else s.alert.flags)
      ∧ t.host = s.host ∧ t.mgmt = s.mgmt ∧ t.eng = s.eng ∧ t.inflight = s.inflight ∧ t.seqr = s.seqr
      ∧ t.commits = s.commits ∧ t.freezes = s.freezes ∧ t.array = s.array)
    ∧ (∀ b, s.batch = some b → b.timer = .suspended → exec .batchIdleExpiry s = .next s)
    ∧ (s.batch = none → exec .batchIdleExpiry s = .next s))
  ∧ ∀ s t : State, idleOk s → step s = .next t → idleOk t

/-! ### Reclaim -/

/-- The steps of background reclaim (R144–R146, R153): a new victim is the CLOSED segment with pins 0 and the most dead
lines, and its first header is read; a walk reads the header at its cursor and ends at the write pointer; the finish step
erases the victim. That a walk ends with its cursor above the write pointer as well is the model's reading (log entry 30). -/
def Obligations.ReclaimTakesItsSteps : Prop :=
  ∀ s : State, backgroundFree s →
    (∀ v j, s.rc.ctx = none → s.eng.store = .ready → s.ctl.bgren = true → freeCount s ≤ s.ctl.recthr → 1 ≤ freeCount s →
      s.commits.length < 48 → tableOrdered s → standsAs s v (.closed j) → j.pins = 0 → 0 < j.dead → 2 < j.wp →
      (∀ n x, standsAs s n (.closed x) → x.pins = 0 → n ≠ v → x.dead < j.dead ∨ (x.dead = j.dead ∧ j.epoch < x.epoch)) →
      ∃ t, exec .reclaimWalkStep s = .next t ∧ t.seqr = some (.read ⟨v, 2⟩) ∧ t.holder = .reclaim
        ∧ t.rc = { s.rc with ctx := some ⟨v, .walk, 2, 0, false, none, .header⟩ } ∧ standsAs t v (.reclaiming j)
        ∧ t.dir = s.dir ∧ t.host = s.host ∧ t.eng = s.eng)
    ∧ (∀ r j, s.rc.ctx = some r → r.phase = .walk → journalOf s r.victim = some j →
      (r.cursor < j.wp → exec .reclaimWalkStep s = .next { s with
        rc := { s.rc with ctx := some { r with step := .header } }
        holder := .reclaim, seqr := some (.read ⟨r.victim, r.cursor⟩) })
      ∧ (j.wp ≤ r.cursor → exec .reclaimWalkStep s = .next { s with
        rc := { s.rc with ctx := some { r with phase := .finish, step := .idle, attempt := none } } }))
    ∧ ∀ r, s.rc.ctx = some r → r.phase = .finish → r.step = .idle →
      exec .reclaimFinishStep s = .next { s with
        rc := { s.rc with ctx := some { r with step := .finish .erase } }
        holder := .reclaim, seqr := some (.erase r.victim) }

/-- What a walk does with the header it has read, and how a copy ends (R57, R126, R146, R147, R149–R151). A header that is not
valid ends the walk. A record that its table does not name is passed over. A named marker of the lowest-epoch journal segment
is dropped: a COMMIT record leaves the commit table, a TOMBSTONE that is not shadowed leaves the directory. Every other named
record is copied: its first data line is read, or, with a value of length 0, its header is programmed in the OPEN segment if it
has room. A completed copy is re-pointed and counts live, the original dead; one whose original is no longer named is dead. A
fault on a line of a copy is counted and closes its segment: the copy restarts once, and a second fault returns the victim to
CLOSED. That dropped or superseded lines count dead up to the live lines of their segment is the model's choice (log entry
25). -/
def Obligations.WalkDecidesByLiveness : Prop :=
  (∀ (s : State) (r : Reclaim) (l : Loc), walkReading s r l →
    (parseHeader (lineAt s l) = none → exec .readDone s = .next { s with
      seqr := none, holder := .none
      rc := { s.rc with ctx := some { r with phase := .finish, step := .idle, attempt := none } } })
    ∧ ∀ h e, parseHeader (lineAt s l) = some h → e = 2 + (h.len + 15) / 16 →
      (¬ namedAt s h l → exec .readDone s = .next { s with
        seqr := none, holder := .none, rc := { s.rc with ctx := some (walkedPast r e) } })
      ∧ (namedAt s h l → ¬ droppedAt s h l → h.len ≠ 0 → exec .readDone s = .next { s with
        seqr := some (.read ⟨r.victim, r.cursor + 1⟩)
        rc := { s.rc with ctx := some { r with attempt := some ⟨l, h, [], [], false, l⟩, step := .dataRead 1 } } })
      ∧ (∀ n j, namedAt s h l → ¬ droppedAt s h l → h.len = 0 → openSegment s = some (n, j) → 2 ≤ 256 - j.wp →
        lineAt s ⟨n, j.wp⟩ = .erased → exec .readDone s = .next { s with
          seqr := some (.program ⟨n, j.wp⟩ (headerLine { h with bid := 0 }))
          rc := { s.rc with ctx := some { r with
            attempt := some ⟨l, h, [], [headerLine { h with bid := 0 }, commitLine h.seq 2], false, ⟨n, j.wp⟩⟩
            step := .program 0 } } })
      ∧ (droppedAt s h l → DirOk s.dir → ∃ t, exec .readDone s = .next t ∧ t.seqr = none ∧ t.holder = .none
        ∧ t.rc.ctx = some (walkedPast r e)
        ∧ (∀ j, journalOf s r.victim = some j →
          journalOf t r.victim = some { j with live := j.live - min e j.live, dead := j.dead + min e j.live })
        ∧ (h.kind = .commit → t.dir = s.dir ∧ t.commits = s.commits.filter (fun x => x.loc != l)
          ∧ t.rc.droppedCommits = s.rc.droppedCommits + 1 ∧ t.rc.droppedTombs = s.rc.droppedTombs)
        ∧ (h.kind = .tombstone → t.commits = s.commits
          ∧ (∀ k, k ≠ h.key → dirLookup t.dir k = dirLookup s.dir k)
          ∧ (¬ heldKey s h.key → dirLookup t.dir h.key = none)
          ∧ (∀ d p, dirLookup s.dir h.key = some d → d.pending = some p → dirLookup t.dir h.key = some ⟨h.key, none, some p⟩)
          ∧ t.rc.droppedTombs = s.rc.droppedTombs + 1 ∧ t.rc.droppedCommits = s.rc.droppedCommits)))
  ∧ (∀ (s : State) (r : Reclaim) (a : Attempt) (k e : Nat) (l : Loc) (content : LineBits), copying s r a k l content →
    k + 1 = a.lines.length → e = 2 + (a.hdr.len + 15) / 16 →
    ∃ u, exec .programDone s = .next u ∧ u.seqr = none ∧ u.holder = .none ∧ u.host = s.host ∧ u.mgmt = s.mgmt
      ∧ u.rc = { s.rc with ctx := some { walkedPast r e with copied := r.copied + e } }
      ∧ (∀ p, (a.hdr.kind = .value ∨ a.hdr.kind = .tombstone) → committedOf s a.hdr.key = some p → p.loc = a.orig →
        committedOf u a.hdr.key = some { p with loc := a.place, shadowed := false }
        ∧ (∀ x, x ≠ a.hdr.key → dirLookup u.dir x = dirLookup s.dir x)
        ∧ u.commits = s.commits ∧ u.freezes = s.freezes ∧ copyAccounted s u r a e)
      ∧ (a.hdr.kind = .freeze → (∃ x ∈ s.freezes, x.loc = a.orig) →
        u.freezes = s.freezes.map (fun x => if x.loc = a.orig then { x with loc := a.place } else x)
        ∧ u.commits = s.commits ∧ u.dir = s.dir ∧ copyAccounted s u r a e)
      ∧ (∀ bid, a.hdr.kind = .commit → bid = word32At a.value 0 → (∃ x ∈ s.commits, x.bid = bid ∧ x.loc = a.orig) →
        u.commits = s.commits.map (fun x => if x.bid = bid ∧ x.loc = a.orig then { x with loc := a.place } else x)
        ∧ u.freezes = s.freezes ∧ u.dir = s.dir ∧ copyAccounted s u r a e)
      ∧ (¬ namedAt s a.hdr a.orig → u.dir = s.dir ∧ u.commits = s.commits ∧ u.freezes = s.freezes
        ∧ ∀ n j, journalOf s n = some j →
          journalOf u n = some (if n = a.place.seg then { j with wp := j.wp + e, dead := j.dead + e } else j)))
  ∧ ∀ (s : State) (r : Reclaim) (a : Attempt) (k e : Nat) (l : Loc) (content : LineBits) (x : SegEntry) (j : Journal),
    copying s r a k l content → ArrayOk s.array → inArray l = true → l.seg = a.place.seg → tableOrdered s →
    e = 2 + (a.hdr.len + 15) / 16 → x ∈ s.sm.table → x.num = a.place.seg → x.st = .opened j → j.wp + e ≤ 256 →
    let closed : SegEntry := { x with
      st := .closed { j with wp := 256, dead := j.dead + (256 - j.wp) }
      faults := x.faults + 1, retirePending := x.retirePending || decide (2 ≤ x.faults + 1) }
    (∀ v, a.retried = true → standsAs s r.victim (.reclaiming v) → s.inflight = none →
      ∃ u, exec .programDeadlineExpiry s = .next u
        ∧ lineAt u l = .torn ∧ closed ∈ u.sm.table ∧ u.alert.flags.getLsbD 2 = true
        ∧ standsAs u r.victim (.closed v) ∧ u.rc = { s.rc with ctx := none } ∧ u.eng = s.eng ∧ u.dir = s.dir
        ∧ u.holder = .none ∧ u.seqr = none)
    ∧ ∀ n, a.retried = false → s.sm.exhausted = false → 1 ≤ freeCount s → leastWorn s n →
      (∀ y z, standsAs s y (.opened z) → y = a.place.seg) → lineAt s ⟨n, 1⟩ = .erased →
      ∃ u, exec .programDeadlineExpiry s = .next u
        ∧ lineAt u l = .torn ∧ closed ∈ u.sm.table ∧ u.alert.flags.getLsbD 2 = true
        ∧ u.rc = { s.rc with ctx := some { r with
          copyRetried := true, attempt := some { a with retried := true }
          step := .admission ⟨n, s.sm.nextEpoch, none, none⟩ } }
        ∧ u.seqr = some (.program ⟨n, 1⟩ (openLine s.sm.nextEpoch s.eng.volId)) ∧ u.holder = .reclaim ∧ u.dir = s.dir

/-! ### Lines and accounting -/

/-- What the part writes it reads back (R11–R21, R206): a header line, a whole record, a preparation line and an opening line
are each recognised with every field as it was written. -/
def Obligations.WrittenLinesReadBack : Prop :=
  (∀ h : Hdr, kindAgrees h.kind h.key h.len = true → parseHeader (.good (headerLine h)) = some h)
  ∧ (∀ (kind : Kind) (key : Key) (seq bid : Word) (v : List Byte),
    kindAgrees kind key v.length = true → contentWellFormed kind v = true →
    ∃ h rest, recordLines kind key seq bid v = h :: rest ∧ rest.length + 1 = 2 + (v.length + 15) / 16
      ∧ parseHeader (.good h) = some ⟨kind, key, v.length, seq, bid, crc16 v⟩
      ∧ recordComplete ⟨kind, key, v.length, seq, bid, crc16 v⟩ (rest.map .good) = true
      ∧ valueOf ⟨kind, key, v.length, seq, bid, crc16 v⟩ (rest.map .good) = v)
  ∧ (∀ (vid : Word) (n : Nat), vid ≠ 0 → n < 2 ^ 24 →
    classify0 (.good (prepLine 0x5A vid n)) = .spare vid n ∧ classify0 (.good (prepLine 0xA5 vid n)) = .retired vid n)
  ∧ ∀ epoch vid : Word, epoch ≠ 0 → classify1 (.good (openLine epoch vid)) = .opened epoch vid

/-- The laws of the segment table (R25, R39). Every step keeps them; in a mounted store they say that live lines plus dead
lines equal the write pointer minus 2 in every journal segment, and that at most one segment is OPEN and at most one
RECLAIMING. The balance with a write pointer of 2 to 256 is kept by each accounting operation: a publish, an abandonment with
room for the record, the close of a segment, a promotion and a teardown. -/
def Obligations.AccountingKeepsTheBalance : Prop :=
  (∀ s t : State, segmentsLawful s → step s = .next t → segmentsLawful t)
  ∧ (∀ s : State, segmentsLawful s → mounted s →
    (∀ e ∈ s.sm.table, ∀ j, e.st.journal? = some j → j.live + j.dead + 2 = j.wp)
    ∧ (∀ n m i j, standsAs s n (.opened i) → standsAs s m (.opened j) → n = m)
    ∧ ∀ n m i j, standsAs s n (.reclaiming i) → standsAs s m (.reclaiming j) → n = m)
  ∧ ∀ s : State, tableBalanced s →
    (∀ n e, (∀ x ∈ s.sm.table, x.num = n → ∀ j, x.st.journal? = some j → j.wp + e ≤ 256) →
      tableBalanced (accountLive s n e) ∧ tableBalanced (accountDead s n e))
    ∧ (∀ (key : Key) (p : Part),
      (∀ x ∈ s.sm.table, x.num = p.loc.seg → ∀ j, x.st.journal? = some j → j.wp + (2 + (p.len + 15) / 16) ≤ 256) →
      tableBalanced (publishCommitted s key p) ∧ tableBalanced (publishPending s key p))
    ∧ (∀ n e, tableBalanced (closeSegment s n) ∧ tableBalanced (killLines s n e))
    ∧ ∀ (ms : List Member) (own : Bool), tableBalanced (promoteAll s ms) ∧ tableBalanced (teardown s own)

end
end

