-- ==== Sys2Proof/Laws/Account.lean ====
section
/-! SUPPORT. What the operations of the store engine do to the segment table. Apart from an opening's end, the choice of a
victim and the building of a table, each operation lets a segment keep its number, makes no segment OPEN or RECLAIMING, and
keeps the law of R39 in every segment. One lemma per operation, tagged simp. -/

namespace Sys2Proof.Machine

/-- What may become of a segment's state `a`: it stays a journal state of its kind, or is closed, or leaves the journal; and
the law of R39 stays. -/
def SegState.Follows (a : SegState) : SegState → Prop
  | .opened j => ∃ i, a = .opened i ∧ (i.lawful → j.lawful)
  | .closed j => ∃ i, a.journal? = some i ∧ (i.lawful → j.lawful)
  | .reclaiming j => ∃ i, a = .reclaiming i ∧ (i.lawful → j.lawful)
  | .free => True
  | .dirty => True
  | .retired => True

/-- Every entry of table `t` comes from one of table `b` with its number. -/
structure From (b t : List SegEntry) : Prop where
  origin : ∀ e ∈ t, ∃ o ∈ b, o.num = e.num ∧ o.st.Follows e.st

theorem SegState.Follows.refl (a : SegState) : a.Follows a := by
  cases a <;> simp [SegState.Follows, SegState.journal?]

theorem SegState.Follows.trans {a b c : SegState} (h : a.Follows b) (k : b.Follows c) : a.Follows c := by
  cases c <;> simp only [SegState.Follows] at k ⊢
  case opened j =>
    obtain ⟨i, rfl, hi⟩ := k
    obtain ⟨x, rfl, hx⟩ := h
    exact ⟨x, rfl, fun l => hi (hx l)⟩
  case reclaiming j =>
    obtain ⟨i, rfl, hi⟩ := k
    obtain ⟨x, rfl, hx⟩ := h
    exact ⟨x, rfl, fun l => hi (hx l)⟩
  case closed j =>
    obtain ⟨i, hb, hi⟩ := k
    cases b <;> simp only [SegState.journal?, Option.some.injEq, reduceCtorEq] at hb
    all_goals
      subst hb
      obtain ⟨x, hx, hl⟩ := h
      first
        | exact ⟨x, hx, fun l => hi (hl l)⟩
        | (subst hx; exact ⟨x, rfl, fun l => hi (hl l)⟩)

theorem From.refl (t : List SegEntry) : From t t := ⟨fun e h => ⟨e, h, rfl, SegState.Follows.refl _⟩⟩

@[simp] theorem from_nil (b : List SegEntry) : From b [] := ⟨fun _ h => absurd h List.not_mem_nil⟩

theorem From.trans {a b c : List SegEntry} (h : From a b) (k : From b c) : From a c := ⟨fun e he => by
  obtain ⟨o, ho, hn, hf⟩ := k.origin e he
  obtain ⟨x, hx, hm, hg⟩ := h.origin o ho
  exact ⟨x, hx, hm.trans hn, hg.trans hf⟩⟩

/-- A change of every entry that a segment's state may take. -/
theorem From.map {b t : List SegEntry} (f : SegEntry → SegEntry) (hf : ∀ e, (f e).num = e.num ∧ e.st.Follows (f e).st)
    (h : From b t) : From b (t.map f) := ⟨fun e he => by
  obtain ⟨o, ho, rfl⟩ := List.mem_map.1 he
  obtain ⟨x, hx, hm, hg⟩ := h.origin o ho
  exact ⟨x, hx, hm.trans (hf o).1.symm, hg.trans (hf o).2⟩⟩

theorem SegState.follows_mapJournal (a : SegState) (f : Journal → Journal) (hf : ∀ j, j.lawful → (f j).lawful) :
    a.Follows (a.mapJournal f) := by
  cases a <;> simp [SegState.Follows, SegState.mapJournal, SegState.journal?] <;> exact hf _

theorem SegState.follows_close (a : SegState) : a.Follows a.close := by
  cases a <;> simp [SegState.Follows, SegState.close, SegState.journal?, Journal.lawful, Journal.closed]
  omega

/-- The table of `t` comes from `B` where that of `s` does. -/
abbrev TableFrom (B : List SegEntry) (s t : State) : Prop := From B s.sm.table → From B t.sm.table

@[simp] theorem from_raise {B : List SegEntry} (s : State) (a : Alert) : TableFrom B s (raise s a) := id

/-! ### The changes of an entry -/

theorem from_segUpd {B : List SegEntry} (s : State) (n : Nat) (f : SegEntry → SegEntry)
    (hf : ∀ e, (f e).num = e.num ∧ e.st.Follows (f e).st) : TableFrom B s (segUpd s n f) := fun h => by
  have key : From B (s.sm.table.map (fun e => if e.num = n then f e else e)) :=
    From.map (fun e => if e.num = n then f e else e) (fun e => by
      split
      · exact hf e
      · exact ⟨rfl, SegState.Follows.refl _⟩) h
  unfold segUpd; dsimp only
  split <;> exact key

@[simp] theorem from_setFree {B : List SegEntry} (s : State) (n : Nat) : TableFrom B s (setSegState s n .free) :=
  from_segUpd s n _ fun _ => ⟨rfl, trivial⟩

@[simp] theorem from_setDirty {B : List SegEntry} (s : State) (n : Nat) : TableFrom B s (setSegState s n .dirty) :=
  from_segUpd s n _ fun _ => ⟨rfl, trivial⟩

@[simp] theorem from_setRetired {B : List SegEntry} (s : State) (n : Nat) : TableFrom B s (setSegState s n .retired) :=
  from_segUpd s n _ fun _ => ⟨rfl, trivial⟩

theorem from_journalUpd {B : List SegEntry} (s : State) (n : Nat) (f : Journal → Journal)
    (hf : ∀ j, j.lawful → (f j).lawful) : TableFrom B s (journalUpd s n f) :=
  from_segUpd s n _ fun e => ⟨rfl, SegState.follows_mapJournal e.st f hf⟩

@[simp] theorem from_accountLive {B : List SegEntry} (s : State) (n e : Nat) : TableFrom B s (accountLive s n e) :=
  from_journalUpd s n _ fun j h => by simp only [Journal.lawful] at h ⊢; omega

@[simp] theorem from_accountDead {B : List SegEntry} (s : State) (n e : Nat) : TableFrom B s (accountDead s n e) :=
  from_journalUpd s n _ fun j h => by simp only [Journal.lawful] at h ⊢; omega

@[simp] theorem from_killLines {B : List SegEntry} (s : State) (n e : Nat) : TableFrom B s (killLines s n e) :=
  from_journalUpd s n _ fun j h => by simp only [Journal.lawful] at h ⊢; omega

@[simp] theorem from_pinUp {B : List SegEntry} (s : State) (n : Nat) : TableFrom B s (pinUp s n) :=
  from_journalUpd s n _ fun _ h => h

@[simp] theorem from_clearPins {B : List SegEntry} (s : State) : TableFrom B s (clearPins s) :=
  From.map _ fun e => ⟨rfl, SegState.follows_mapJournal e.st _ fun _ h => h⟩

@[simp] theorem from_closeSegment {B : List SegEntry} (s : State) (n : Nat) : TableFrom B s (closeSegment s n) :=
  from_segUpd s n _ fun e => ⟨rfl, SegState.follows_close e.st⟩

@[simp] theorem from_countFault {B : List SegEntry} (s : State) (n : Nat) : TableFrom B s (countFault s n) :=
  from_segUpd s n _ fun _ => ⟨rfl, SegState.Follows.refl _⟩

@[simp] theorem from_markKnown {B : List SegEntry} (s : State) (n : Nat) : TableFrom B s (markKnown s n) :=
  from_segUpd s n _ fun _ => ⟨rfl, SegState.Follows.refl _⟩

@[simp] theorem from_segmentPrepared {B : List SegEntry} (s : State) (n : Nat) : TableFrom B s (segmentPrepared s n) :=
  from_segUpd s n _ fun _ => ⟨rfl, trivial⟩

@[simp] theorem from_eraseEnded {B : List SegEntry} (s : State) (n : Nat) : TableFrom B s (eraseEnded s n) := fun h => by
  have k := from_segUpd (B := B) s n (fun e => { e with eraseCount := min (e.eraseCount + 1) 0xFFFFFF })
    (fun _ => ⟨rfl, SegState.Follows.refl _⟩) h
  unfold eraseEnded; dsimp only
  split <;> exact k

@[simp] theorem from_returnVictim {B : List SegEntry} (s : State) (v : Nat) : TableFrom B s (returnVictim s v) :=
  from_segUpd s v _ fun e => ⟨rfl, by
    cases h : e.st <;> simp [SegState.Follows, SegState.journal?]⟩

/-! ### The operations -/

@[simp] theorem from_emptyTable {B : List SegEntry} (s : State) : TableFrom B s (emptyTable s) := fun _ => from_nil B

@[simp] theorem from_setTag {B : List SegEntry} (s : State) (t : Nat) (v : TagState) : TableFrom B s (setTag s t v) := id

@[simp] theorem from_postHost {B : List SegEntry} (s : State) (t : Nat) (r : Result) : TableFrom B s (postHost s t r) := id

@[simp] theorem from_modCtx {B : List SegEntry} (s : State) (f : Ctx → Ctx) : TableFrom B s (modCtx s f) := id

theorem from_killAll {B : List SegEntry} (s : State) (ps : List Part) : TableFrom B s (ps.foldl killPart s) := by
  induction ps generalizing s with
  | nil => exact id
  | cons p ps ih => exact fun h => ih (killPart s p) (from_killLines s p.loc.seg (extentOf p.len) h)

@[simp] theorem from_stagingWrite {B : List SegEntry} (s : State) (b i : Nat) (v : Byte) :
    TableFrom B s (stagingWrite s b i v) := by
  unfold stagingWrite
  simp (maxDischargeDepth := 20) +contextual [TableFrom]

@[simp] theorem from_killPart {B : List SegEntry} (s : State) (p : Part) : TableFrom B s (killPart s p) := by
  unfold killPart
  simp (maxDischargeDepth := 20) +contextual [TableFrom]

@[simp] theorem from_killPart_opt {B : List SegEntry} (s : State) (o : Option Part) : TableFrom B s (killPart? s o) := by
  unfold killPart?; split <;> simp +contextual [TableFrom]

@[simp] theorem from_publishCommitted {B : List SegEntry} (s : State) (key : Key) (p : Part) :
    TableFrom B s (publishCommitted s key p) := by
  unfold publishCommitted
  simp (maxDischargeDepth := 20) +contextual [TableFrom]

@[simp] theorem from_publishPending {B : List SegEntry} (s : State) (key : Key) (p : Part) :
    TableFrom B s (publishPending s key p) := by
  unfold publishPending
  simp (maxDischargeDepth := 20) +contextual [TableFrom]

@[simp] theorem from_promoteKey {B : List SegEntry} (s : State) (key : Key) : TableFrom B s (promoteKey s key) := by
  unfold promoteKey; try dsimp only
  repeat' split
  all_goals simp (maxDischargeDepth := 20) +contextual [TableFrom]

@[simp] theorem from_promoteAll {B : List SegEntry} (s : State) (ms : List Member) : TableFrom B s (promoteAll s ms) := by
  unfold promoteAll
  induction ms generalizing s with
  | nil => simp [TableFrom]
  | cons m ms ih =>
    rw [List.foldl_cons]
    exact fun h => ih (promoteKey s m.key) (by simp [h])

@[simp] theorem from_dropPending {B : List SegEntry} (s : State) : TableFrom B s (dropPending s) := from_killAll s _

@[simp] theorem from_dropTombstone {B : List SegEntry} (s : State) (key : Key) : TableFrom B s (dropTombstone s key) := by
  unfold dropTombstone
  simp (maxDischargeDepth := 20) +contextual [TableFrom]

@[simp] theorem from_dirRepoint {B : List SegEntry} (s : State) (key : Key) (copy : Loc) :
    TableFrom B s (dirRepoint s key copy) := by
  unfold dirRepoint
  simp (maxDischargeDepth := 20) +contextual [TableFrom]

@[simp] theorem from_syncIdle {B : List SegEntry} (s : State) : TableFrom B s (syncIdle s) := by
  unfold syncIdle
  simp (maxDischargeDepth := 20) +contextual [TableFrom]

@[simp] theorem from_teardown {B : List SegEntry} (s : State) (own : Bool) : TableFrom B s (teardown s own) := by
  unfold teardown; try dsimp only
  repeat' split
  all_goals simp (maxDischargeDepth := 20) +contextual [TableFrom]

@[simp] theorem from_setSlot {B : List SegEntry} (s : State) (b : Bool) (v : Slot) : TableFrom B s (setSlot s b v) := by
  unfold setSlot; try dsimp only
  repeat' split
  all_goals simp (maxDischargeDepth := 20) +contextual [TableFrom]

@[simp] theorem from_answerRunning {B : List SegEntry} (s : State) (b : Bool) (frame : List Byte) :
    TableFrom B s (answerRunning s b frame) := by
  unfold answerRunning; try dsimp only
  repeat' split
  all_goals simp (maxDischargeDepth := 20) +contextual [TableFrom]

@[simp] theorem from_postResult {B : List SegEntry} (s : State) (c : Ctx) (r : Result) :
    TableFrom B s (postResult s c r) := by
  unfold postResult; try dsimp only
  split
  · exact id
  · simp (maxDischargeDepth := 20) +contextual [TableFrom]

@[simp] theorem from_complete {B : List SegEntry} (s : State) (r : Result) : TableFrom B s (complete s r) := by
  unfold complete; dsimp only
  split
  · simp [TableFrom]
  · rename_i c hc
    intro h
    have hp := from_postResult s c r h
    repeat' split
    all_goals simp (maxDischargeDepth := 20) [hp]

@[simp] theorem from_completeFail {B : List SegEntry} (s : State) (st : Status) : TableFrom B s (completeFail s st) := by
  unfold completeFail; try dsimp only
  repeat' split
  all_goals simp (maxDischargeDepth := 20) +contextual [TableFrom]

@[simp] theorem from_setStage {B : List SegEntry} (s : State) (st : Stage) : TableFrom B s (setStage s st) := by
  unfold setStage
  simp (maxDischargeDepth := 20) +contextual [TableFrom]

@[simp] theorem from_enterReadOnly {B : List SegEntry} (s : State) : TableFrom B s (enterReadOnly s) := by
  intro h
  unfold enterReadOnly; dsimp only
  split
  · exact h
  · split
    · exact from_teardown _ _ h
    · split
      · exact from_completeFail _ _ h
      · exact h

@[simp] theorem from_retireSegment {B : List SegEntry} (s : State) (n : Nat) : TableFrom B s (retireSegment s n) := by
  intro h
  unfold retireSegment; dsimp only
  split
  · exact from_enterReadOnly _ (from_setRetired s n h)
  · exact from_setRetired s n h

@[simp] theorem from_issue {B : List SegEntry} (s : State) (op : SeqOp) : TableFrom B s (issue s op) := by
  unfold issue; try dsimp only
  repeat' split
  all_goals simp (maxDischargeDepth := 20) +contextual [TableFrom]

@[simp] theorem from_prepIssue {B : List SegEntry} (s : State) (n : Nat) (p : PrepStage) (vid : Word) :
    TableFrom B s (prepIssue s n p vid) := by
  unfold prepIssue; try dsimp only
  repeat' split
  all_goals simp (maxDischargeDepth := 20) +contextual [TableFrom]

@[simp] theorem from_prepReport {B : List SegEntry} (s : State) (n : Nat) (p : PrepStage) (vid : Word) (rep : Report) :
    TableFrom B s (prepReport s n p vid rep).1 := by
  unfold prepReport; try dsimp only
  repeat' split
  all_goals simp (maxDischargeDepth := 20) +contextual [TableFrom]

@[simp] theorem from_takeEpoch {B : List SegEntry} (s : State) : TableFrom B s (takeEpoch s) := by
  unfold takeEpoch; try dsimp only
  repeat' split
  all_goals simp (maxDischargeDepth := 20) +contextual [TableFrom]

@[simp] theorem from_closeOpen {B : List SegEntry} (s : State) : TableFrom B s (closeOpen s) := by
  unfold closeOpen; try dsimp only
  repeat' split
  all_goals simp (maxDischargeDepth := 20) +contextual [TableFrom]

@[simp] theorem from_startOpening {B : List SegEntry} (s : State) (n : Nat) (failed : Option Nat) :
    TableFrom B s (startOpening s n failed).1 := by
  unfold startOpening
  simp (maxDischargeDepth := 20) +contextual [TableFrom]

@[simp] theorem from_assign {B : List SegEntry} (s : State) (l : Loc) : TableFrom B s (assign s l) := by
  unfold assign; try dsimp only
  repeat' split
  all_goals simp (maxDischargeDepth := 20) +contextual [TableFrom]

@[simp] theorem from_loseBatch {B : List SegEntry} (s : State) : TableFrom B s (loseBatch s) := by
  unfold loseBatch; try dsimp only
  repeat' split
  all_goals simp (maxDischargeDepth := 20) +contextual [TableFrom]

@[simp] theorem from_waitOrFull {B : List SegEntry} (s : State) : TableFrom B s (waitOrFull s) := by
  unfold waitOrFull; try dsimp only
  repeat' split
  all_goals simp (maxDischargeDepth := 20) +contextual [TableFrom]

@[simp] theorem from_admitCommand {B : List SegEntry} (s : State) (failed : Option Nat) :
    TableFrom B s (admitCommand s failed) := by
  unfold admitCommand; try dsimp only
  repeat' split
  all_goals simp (maxDischargeDepth := 20) +contextual [TableFrom]

@[simp] theorem from_abandonRecord {B : List SegEntry} (s : State) : TableFrom B s (abandonRecord s) := by
  unfold abandonRecord; try dsimp only
  repeat' split
  all_goals simp (maxDischargeDepth := 20) +contextual [TableFrom]

@[simp] theorem from_commitBatch {B : List SegEntry} (s : State) (c : Ctx) : TableFrom B s (commitBatch s c) := by
  unfold commitBatch; try dsimp only
  repeat' split
  all_goals simp (maxDischargeDepth := 20) +contextual [TableFrom]

@[simp] theorem from_publish {B : List SegEntry} (s : State) (c : Ctx) : TableFrom B s (publish s c) := by
  cases h : c.cmd <;> simp only [publish, h]
  case put => split <;> simp (maxDischargeDepth := 20) +contextual [TableFrom]
  case delete => split <;> simp (maxDischargeDepth := 20) +contextual [TableFrom]
  all_goals simp (maxDischargeDepth := 20) +contextual [TableFrom]

@[simp] theorem from_appendDone {B : List SegEntry} (s : State) (c : Ctx) : TableFrom B s (appendDone s c) := by
  unfold appendDone; try dsimp only
  repeat' split
  all_goals simp (maxDischargeDepth := 20) +contextual [TableFrom]

@[simp] theorem from_appendFault {B : List SegEntry} (s : State) (c : Ctx) : TableFrom B s (appendFault s c) := by
  intro h
  have k := from_closeSegment _ c.place.seg (from_abandonRecord _ (from_countFault s c.place.seg h))
  unfold appendFault; dsimp only
  repeat' split
  · exact from_completeFail _ _ k
  · exact from_completeFail _ _ k
  · exact from_completeFail _ _ k
  · exact from_completeFail _ _ k
  · exact from_admitCommand _ _ k

@[simp] theorem from_openingNext {B : List SegEntry} (r : State × OpenNext) (c : Ctx) (o : Opening) :
    TableFrom B r.1 (openingNext r c o) := by
  unfold openingNext; try dsimp only
  repeat' split
  all_goals simp (maxDischargeDepth := 20) +contextual [TableFrom]

@[simp] theorem from_modJob {B : List SegEntry} (s : State) (f : ReadJob → ReadJob) : TableFrom B s (modJob s f) := by
  unfold modJob
  simp (maxDischargeDepth := 20) +contextual [TableFrom]

@[simp] theorem from_readContent {B : List SegEntry} (s : State) (l : Line) : TableFrom B s (readContent s l).2 := by
  unfold readContent; split <;> simp [TableFrom]

@[simp] theorem from_stagingWriteList {B : List SegEntry} (s : State) (b i : Nat) (l : List Byte) :
    TableFrom B s (stagingWriteList s b i l) := by
  induction l generalizing s i with
  | nil => simp [TableFrom, stagingWriteList]
  | cons v vs ih => exact fun h => ih (stagingWrite s b i v) (i + 1) (by simp [h])

@[simp] theorem from_placeBytes {B : List SegEntry} (s : State) (c : Ctx) (buf i : Nat) (v : List Byte) :
    TableFrom B s (placeBytes s c buf i v) := by
  unfold placeBytes; try dsimp only
  repeat' split
  all_goals simp (maxDischargeDepth := 20) +contextual [TableFrom]

@[simp] theorem from_startGet {B : List SegEntry} (s : State) (key : Key) : TableFrom B s (startGet s key) := by
  unfold startGet; try dsimp only
  repeat' split
  all_goals simp (maxDischargeDepth := 20) +contextual [TableFrom]

@[simp] theorem from_getReport {B : List SegEntry} (s : State) (c : Ctx) (buf : Nat) (l : Line) :
    TableFrom B s (getReport s c buf l) := by
  unfold getReport; try dsimp only
  repeat' split
  all_goals simp (maxDischargeDepth := 20) +contextual [TableFrom]

@[simp] theorem from_listNext {B : List SegEntry} (s : State) (key : Key) (p : Part) : TableFrom B s (listNext s key p) := by
  unfold listNext
  simp (maxDischargeDepth := 20) +contextual [TableFrom]

@[simp] theorem from_startList {B : List SegEntry} (s : State) (after : Key) : TableFrom B s (startList s after) := by
  unfold startList; try dsimp only
  repeat' split
  all_goals simp (maxDischargeDepth := 20) +contextual [TableFrom]

@[simp] theorem from_listReport {B : List SegEntry} (s : State) (c : Ctx) (buf count : Nat) (l : Line) :
    TableFrom B s (listReport s c buf count l) := by
  unfold listReport; try dsimp only
  repeat' split
  all_goals simp (maxDischargeDepth := 20) +contextual [TableFrom]

@[simp] theorem from_modRc {B : List SegEntry} (s : State) (f : Reclaim → Reclaim) : TableFrom B s (modRc s f) := by
  unfold modRc
  simp (maxDischargeDepth := 20) +contextual [TableFrom]

@[simp] theorem from_tellTrigger {B : List SegEntry} (s : State) (res : Result) : TableFrom B s (tellTrigger s res) := by
  unfold tellTrigger; try dsimp only
  repeat' split
  all_goals simp (maxDischargeDepth := 20) +contextual [TableFrom]

@[simp] theorem from_victimLeaves {B : List SegEntry} (s : State) (r : Reclaim) (e : VictimEnd) :
    TableFrom B s (victimLeaves s r e) := by
  unfold victimLeaves; try dsimp only
  repeat' split
  all_goals simp (maxDischargeDepth := 20) +contextual [TableFrom]

@[simp] theorem from_releaseStep {B : List SegEntry} (s : State) : TableFrom B s (releaseStep s) := by
  unfold releaseStep
  simp (maxDischargeDepth := 20) +contextual [TableFrom]

@[simp] theorem from_passRecord {B : List SegEntry} (s : State) (e : Nat) : TableFrom B s (passRecord s e) :=
  fun h => from_releaseStep _ (from_modRc s _ h)

@[simp] theorem from_endWalk {B : List SegEntry} (s : State) : TableFrom B s (endWalk s) :=
  fun h => from_releaseStep _ (from_modRc s _ h)

@[simp] theorem from_dropRecord {B : List SegEntry} (s : State) (h : Hdr) (l : Loc) : TableFrom B s (dropRecord s h l) := by
  unfold dropRecord; try dsimp only
  repeat' split
  all_goals simp (maxDischargeDepth := 20) +contextual [TableFrom]

@[simp] theorem from_placeCopy {B : List SegEntry} (s : State) (a : Attempt) (l : Loc) : TableFrom B s (placeCopy s a l) := by
  unfold placeCopy
  simp (maxDischargeDepth := 20) +contextual [TableFrom]

@[simp] theorem from_admitCopy {B : List SegEntry} (s : State) (r : Reclaim) (a : Attempt) (failed : Option Nat) :
    TableFrom B s (admitCopy s r a failed) := by
  unfold admitCopy; try dsimp only
  repeat' split
  all_goals simp (maxDischargeDepth := 20) +contextual [TableFrom]

@[simp] theorem from_buildCopy {B : List SegEntry} (s : State) (r : Reclaim) (a : Attempt) : TableFrom B s (buildCopy s r a) := by
  unfold buildCopy
  simp (maxDischargeDepth := 20) +contextual [TableFrom]

@[simp] theorem from_startCopy {B : List SegEntry} (s : State) (r : Reclaim) (h : Hdr) (l : Loc) :
    TableFrom B s (startCopy s r h l) := by
  unfold startCopy; try dsimp only
  repeat' split
  all_goals simp (maxDischargeDepth := 20) +contextual [TableFrom]

@[simp] theorem from_copyData {B : List SegEntry} (s : State) (r : Reclaim) (a : Attempt) (k : Nat) (l : Line) :
    TableFrom B s (copyData s r a k l) := by
  unfold copyData; try dsimp only
  repeat' split
  all_goals simp (maxDischargeDepth := 20) +contextual [TableFrom]

@[simp] theorem from_repoint {B : List SegEntry} (s : State) (a : Attempt) : TableFrom B s (repoint s a) := by
  unfold repoint; try dsimp only
  repeat' split
  all_goals simp (maxDischargeDepth := 20) +contextual [TableFrom]

@[simp] theorem from_copyComplete {B : List SegEntry} (s : State) (r : Reclaim) (a : Attempt) :
    TableFrom B s (copyComplete s r a) := by
  unfold copyComplete; try dsimp only
  repeat' split
  all_goals simp (maxDischargeDepth := 20) +contextual [TableFrom]

@[simp] theorem from_copyDone {B : List SegEntry} (s : State) (r : Reclaim) (a : Attempt) (k : Nat) :
    TableFrom B s (copyDone s r a k) := by
  unfold copyDone; try dsimp only
  repeat' split
  all_goals simp (maxDischargeDepth := 20) +contextual [TableFrom]

@[simp] theorem from_copyFault {B : List SegEntry} (s : State) (r : Reclaim) (a : Attempt) : TableFrom B s (copyFault s r a) := by
  unfold copyFault; try dsimp only
  repeat' split
  all_goals simp (maxDischargeDepth := 20) +contextual [TableFrom]

@[simp] theorem from_copyOpening {B : List SegEntry} (x : State × OpenNext) (r : Reclaim) (a : Attempt) (o : Opening) :
    TableFrom B x.1 (copyOpening x r a o) := by
  unfold copyOpening; try dsimp only
  repeat' split
  all_goals simp (maxDischargeDepth := 20) +contextual [TableFrom]

@[simp] theorem from_walkHeader {B : List SegEntry} (s : State) (r : Reclaim) (l : Line) : TableFrom B s (walkHeader s r l) := by
  unfold walkHeader; try dsimp only
  repeat' split
  all_goals simp (maxDischargeDepth := 20) +contextual [TableFrom]

@[simp] theorem from_finishReport {B : List SegEntry} (s : State) (r : Reclaim) (p : PrepStage) (rep : Report) :
    TableFrom B s (finishReport s r p rep) := by
  unfold finishReport; try dsimp only
  repeat' split
  all_goals simp (maxDischargeDepth := 20) +contextual [TableFrom]

@[simp] theorem from_walkStep {B : List SegEntry} (s : State) (r : Reclaim) : TableFrom B s (walkStep s r) := by
  unfold walkStep; try dsimp only
  repeat' split
  all_goals simp (maxDischargeDepth := 20) +contextual [TableFrom]

@[simp] theorem from_grantFinish {B : List SegEntry} (s : State) : TableFrom B s (grantFinish s) := by
  unfold grantFinish; try dsimp only
  repeat' split
  all_goals simp (maxDischargeDepth := 20) +contextual [TableFrom]

@[simp] theorem from_reclaimFinishStep {B : List SegEntry} (s : State) : TableFrom B s (reclaimFinishStep s) := by
  unfold reclaimFinishStep; try dsimp only
  repeat' split
  all_goals simp (maxDischargeDepth := 20) +contextual [TableFrom]

@[simp] theorem from_modMu {B : List SegEntry} (s : State) (f : MountUnit → MountUnit) : TableFrom B s (modMu s f) := by
  unfold modMu
  simp (maxDischargeDepth := 20) +contextual [TableFrom]

@[simp] theorem from_emptyTables {B : List SegEntry} (s : State) : TableFrom B s (emptyTables s) := by
  unfold emptyTables
  simp (maxDischargeDepth := 20) +contextual [TableFrom]

@[simp] theorem from_mountStart {B : List SegEntry} (s : State) : TableFrom B s (mountStart s) := by
  unfold mountStart
  simp (maxDischargeDepth := 20) +contextual [TableFrom]

@[simp] theorem from_tellMounter {B : List SegEntry} (s : State) (r : Result) : TableFrom B s (tellMounter s r) := by
  unfold tellMounter; try dsimp only
  repeat' split
  all_goals simp (maxDischargeDepth := 20) +contextual [TableFrom]

@[simp] theorem from_mountEnd {B : List SegEntry} (s : State) (m : MountResult) : TableFrom B s (mountEnd s m) := by
  unfold mountEnd; try dsimp only
  repeat' split
  all_goals simp (maxDischargeDepth := 20) +contextual [TableFrom]

@[simp] theorem from_settleNext {B : List SegEntry} (s : State) : TableFrom B s (settleNext s) := by
  unfold settleNext; try dsimp only
  repeat' split
  all_goals simp (maxDischargeDepth := 20) +contextual [TableFrom]

@[simp] theorem from_settleReport {B : List SegEntry} (s : State) (rep : Report) : TableFrom B s (settleReport s rep) := by
  unfold settleReport; try dsimp only
  repeat' split
  all_goals simp (maxDischargeDepth := 20) +contextual [TableFrom]

@[simp] theorem from_applyPart {B : List SegEntry} (s : State) (key : Key) (p : Part) : TableFrom B s (applyPart s key p) := by
  unfold applyPart; try dsimp only
  repeat' split
  all_goals simp (maxDischargeDepth := 20) +contextual [TableFrom]

@[simp] theorem from_scanAt {B : List SegEntry} (s : State) (l : Loc) : TableFrom B s (scanAt s l) := by
  unfold scanAt
  simp (maxDischargeDepth := 20) +contextual [TableFrom]

@[simp] theorem from_enterCommit {B : List SegEntry} (s : State) (f : FoundRec) (bid : Word) :
    TableFrom B s (enterCommit s f bid) := by
  unfold enterCommit
  simp (maxDischargeDepth := 20) +contextual [TableFrom]

@[simp] theorem from_setFu {B : List SegEntry} (s : State) (f : FormatCtx) : TableFrom B s (setFu s f) := by
  unfold setFu
  simp (maxDischargeDepth := 20) +contextual [TableFrom]

@[simp] theorem from_formatEnd {B : List SegEntry} (s : State) : TableFrom B s (formatEnd s) := by
  unfold formatEnd; try dsimp only
  repeat' split
  all_goals simp (maxDischargeDepth := 20) +contextual [TableFrom]

@[simp] theorem from_step2Next {B : List SegEntry} (s : State) (f : FormatCtx) : TableFrom B s (step2Next s f) := by
  unfold step2Next; try dsimp only
  repeat' split
  all_goals simp (maxDischargeDepth := 20) +contextual [TableFrom]

@[simp] theorem from_step1Next {B : List SegEntry} (s : State) (f : FormatCtx) : TableFrom B s (step1Next s f) := by
  unfold step1Next; try dsimp only
  repeat' split
  all_goals simp (maxDischargeDepth := 20) +contextual [TableFrom]

@[simp] theorem from_formatPrepared {B : List SegEntry} (s : State) (f : FormatCtx) (n : Nat) (first : Bool) :
    TableFrom B s (formatPrepared s f n first) := by
  unfold formatPrepared; try dsimp only
  repeat' split
  all_goals simp (maxDischargeDepth := 20) +contextual [TableFrom]

@[simp] theorem from_formatRetired {B : List SegEntry} (s : State) (f : FormatCtx) (n : Nat) (first : Bool) :
    TableFrom B s (formatRetired s f n first) := by
  unfold formatRetired; try dsimp only
  repeat' split
  all_goals simp (maxDischargeDepth := 20) +contextual [TableFrom]

@[simp] theorem from_formatStage {B : List SegEntry} (s : State) (f : FormatCtx) (n : Nat) (first : Bool) (p : PrepStage) :
    TableFrom B s (formatStage s f n first p) := by
  unfold formatStage; try dsimp only
  repeat' split
  all_goals simp (maxDischargeDepth := 20) +contextual [TableFrom]

@[simp] theorem from_formatSegment {B : List SegEntry} (s : State) (f : FormatCtx) (n : Nat) (first : Bool) (p : PrepStage)
    (rep : Report) :
    TableFrom B s (formatSegment s f n first p rep) := by
  unfold formatSegment; try dsimp only
  repeat' split
  all_goals simp (maxDischargeDepth := 20) +contextual [TableFrom]

@[simp] theorem from_runUnmount {B : List SegEntry} (s : State) : TableFrom B s (runUnmount s) := by
  unfold runUnmount
  simp (maxDischargeDepth := 20) +contextual [TableFrom]

@[simp] theorem from_haltEnd {B : List SegEntry} (s : State) (c : Ctx) : TableFrom B s (haltEnd s c) := by
  unfold haltEnd; try dsimp only
  repeat' split
  all_goals simp (maxDischargeDepth := 20) +contextual [TableFrom]

@[simp] theorem from_reclaimStopped {B : List SegEntry} (s : State) (st : Status) : TableFrom B s (reclaimStopped s st) := by
  unfold reclaimStopped; try dsimp only
  repeat' split
  all_goals simp (maxDischargeDepth := 20) +contextual [TableFrom]

@[simp] theorem from_haltCommand {B : List SegEntry} (s : State) : TableFrom B s (haltCommand s) := by
  unfold haltCommand; try dsimp only
  repeat' split
  all_goals simp (maxDischargeDepth := 20) +contextual [TableFrom]

@[simp] theorem from_haltReclaim {B : List SegEntry} (s : State) : TableFrom B s (haltReclaim s) := by
  unfold haltReclaim; try dsimp only
  repeat' split
  all_goals simp (maxDischargeDepth := 20) +contextual [TableFrom]

@[simp] theorem from_answerWaiting {B : List SegEntry} (s : State) (b : Bool) (status : Byte) :
    TableFrom B s (answerWaiting s b status) := by
  unfold answerWaiting; try dsimp only
  repeat' split
  all_goals simp (maxDischargeDepth := 20) +contextual [TableFrom]

@[simp] theorem from_answerBothWaiting {B : List SegEntry} (s : State) (status : Byte) :
    TableFrom B s (answerBothWaiting s status) := by
  unfold answerBothWaiting
  simp (maxDischargeDepth := 20) +contextual [TableFrom]

theorem from_postAll {B : List SegEntry} (s : State) (l : List QEntry) (r : Result) :
    TableFrom B s (l.foldl (fun t q => postHost t q.tag r) s) := by
  induction l generalizing s with
  | nil => exact id
  | cons q l ih => exact fun h => ih (postHost s q.tag r) h

@[simp] theorem from_flushQueue {B : List SegEntry} (s : State) : TableFrom B s (flushQueue s) :=
  from_postAll s s.host.queue (Result.bare .halted)

@[simp] theorem from_haltEntry {B : List SegEntry} (s : State) : TableFrom B s (haltEntry s) := by
  unfold haltEntry
  simp (maxDischargeDepth := 20) +contextual [TableFrom, from_flushQueue]

@[simp] theorem from_haltIfDue {B : List SegEntry} (s : State) : TableFrom B s (haltIfDue s) := by
  unfold haltIfDue; try dsimp only
  repeat' split
  all_goals simp (maxDischargeDepth := 20) +contextual [TableFrom]

@[simp] theorem from_checkThenAppend {B : List SegEntry} (s : State) : TableFrom B s (checkThenAppend s) := by
  unfold checkThenAppend; try dsimp only
  repeat' split
  all_goals simp (maxDischargeDepth := 20) +contextual [TableFrom]

@[simp] theorem from_startWrite {B : List SegEntry} (s : State) (p : Port) (key : Key) (member del : Bool) :
    TableFrom B s (startWrite s p key member del) := by
  unfold startWrite; try dsimp only
  repeat' split
  all_goals simp (maxDischargeDepth := 20) +contextual [TableFrom]

@[simp] theorem from_startBatchOpen {B : List SegEntry} (s : State) (p : Port) : TableFrom B s (startBatchOpen s p) := by
  unfold startBatchOpen; try dsimp only
  repeat' split
  all_goals simp (maxDischargeDepth := 20) +contextual [TableFrom]

@[simp] theorem from_startBatchCommit {B : List SegEntry} (s : State) (p : Port) : TableFrom B s (startBatchCommit s p) := by
  unfold startBatchCommit; try dsimp only
  repeat' split
  all_goals simp (maxDischargeDepth := 20) +contextual [TableFrom]

@[simp] theorem from_startBatchAbort {B : List SegEntry} (s : State) (p : Port) : TableFrom B s (startBatchAbort s p) := by
  unfold startBatchAbort; try dsimp only
  repeat' split
  all_goals simp (maxDischargeDepth := 20) +contextual [TableFrom]

@[simp] theorem from_startFreeze {B : List SegEntry} (s : State) (lo hi : Key) : TableFrom B s (startFreeze s lo hi) := by
  unfold startFreeze; try dsimp only
  repeat' split
  all_goals simp (maxDischargeDepth := 20) +contextual [TableFrom]

/-! ### The two ports, the timers of the batch and of the recovery -/

@[simp] theorem from_setXfer {B : List SegEntry} (s : State) (x : Option Xfer) : TableFrom B s (setXfer s x) := by
  unfold setXfer
  simp (maxDischargeDepth := 20) +contextual [TableFrom]

@[simp] theorem from_endMgmtBatch {B : List SegEntry} (s : State) : TableFrom B s (endMgmtBatch s) := by
  unfold endMgmtBatch; try dsimp only
  repeat' split
  all_goals first
    | exact fun h => from_completeFail _ _ (from_teardown s false h)
    | exact fun h => from_modCtx _ _ (from_teardown s false h)
    | exact fun h => from_modCtx _ _ h
    | exact from_loseBatch s
    | exact from_teardown s false

@[simp] theorem from_sessionEnd {B : List SegEntry} (s : State) (status : Byte) : TableFrom B s (sessionEnd s status) := by
  unfold sessionEnd; try dsimp only
  repeat' split
  all_goals simp (maxDischargeDepth := 20) +contextual [TableFrom]

@[simp] theorem from_freeReceiving {B : List SegEntry} (s : State) (b : Bool) : TableFrom B s (freeReceiving s b) := by
  unfold freeReceiving; try dsimp only
  repeat' split
  all_goals simp (maxDischargeDepth := 20) +contextual [TableFrom]

@[simp] theorem from_portDisable {B : List SegEntry} (s : State) : TableFrom B s (portDisable s) := by
  unfold portDisable; try dsimp only
  repeat' split
  all_goals simp (maxDischargeDepth := 20) +contextual [TableFrom]

@[simp] theorem from_answerSlot {B : List SegEntry} (s : State) (b : Bool) (arrival : Nat) (tag status : Byte) (payload :
    List Byte) :
    TableFrom B s (answerSlot s b arrival tag status payload) := by
  unfold answerSlot
  simp (maxDischargeDepth := 20) +contextual [TableFrom]

@[simp] theorem from_acceptFrame {B : List SegEntry} (s : State) (b : Bool) (arrival : Nat) (bytes : List Byte) (r : Request) :
    TableFrom B s (acceptFrame s b arrival bytes r) := by
  unfold acceptFrame; try dsimp only
  repeat' split
  all_goals simp (maxDischargeDepth := 20) +contextual [TableFrom]

@[simp] theorem from_frameEnd {B : List SegEntry} (s : State) (b : Bool) : TableFrom B s (frameEnd s b) := by
  unfold frameEnd; try dsimp only
  repeat' split
  all_goals simp (maxDischargeDepth := 20) +contextual [TableFrom]

@[simp] theorem from_ack {B : List SegEntry} (s : State) (v : Bool) : TableFrom B s (ack s v) := by
  unfold ack
  simp (maxDischargeDepth := 20) +contextual [TableFrom]

@[simp] theorem from_writeByte {B : List SegEntry} (s : State) (v : Byte) : TableFrom B s (writeByte s v) := by
  unfold writeByte; try dsimp only
  repeat' split
  all_goals simp (maxDischargeDepth := 20) +contextual [TableFrom]

@[simp] theorem from_writeBytes {B : List SegEntry} (s : State) (l : List Byte) : TableFrom B s (writeBytes s l) := by
  unfold writeBytes
  induction l generalizing s with
  | nil => simp [TableFrom]
  | cons v vs ih =>
    rw [List.foldl_cons]
    have h := ih (writeByte s v)
    simp (maxDischargeDepth := 20) +contextual only [TableFrom] at h ⊢
    simp (maxDischargeDepth := 20) +contextual [h, from_writeByte]

@[simp] theorem from_beginWrite {B : List SegEntry} (s : State) (data : List Byte) : TableFrom B s (beginWrite s data) := by
  unfold beginWrite
  simp (maxDischargeDepth := 20) +contextual [TableFrom]

@[simp] theorem from_endWrite {B : List SegEntry} (s : State) : TableFrom B s (endWrite s) := by
  unfold endWrite; try dsimp only
  repeat' split
  all_goals simp (maxDischargeDepth := 20) +contextual [TableFrom]

@[simp] theorem from_clockBytes {B : List SegEntry} (s : State) (n : Nat) : TableFrom B s (clockBytes s n) := by
  unfold clockBytes; try dsimp only
  repeat' split
  all_goals simp (maxDischargeDepth := 20) +contextual [TableFrom]

@[simp] theorem from_freeAnswered {B : List SegEntry} (s : State) (b : Bool) : TableFrom B s (freeAnswered s b) := by
  unfold freeAnswered; split
  all_goals simp (maxDischargeDepth := 20) +contextual [TableFrom]

@[simp] theorem from_endRead {B : List SegEntry} (s : State) : TableFrom B s (endRead s) := by
  unfold endRead; try dsimp only
  repeat' split
  all_goals simp (maxDischargeDepth := 20) +contextual [TableFrom]

@[simp] theorem from_beginRead {B : List SegEntry} (s : State) (n : Nat) : TableFrom B s (beginRead s n) := by
  unfold beginRead
  simp (maxDischargeDepth := 20) +contextual [TableFrom]

@[simp] theorem from_endTransfer {B : List SegEntry} (s : State) : TableFrom B s (endTransfer s) := by
  unfold endTransfer
  repeat' split
  all_goals simp (maxDischargeDepth := 20) +contextual [TableFrom]

@[simp] theorem from_addressByte {B : List SegEntry} (s : State) (addr : BitVec 7) : TableFrom B s (addressByte s addr) := by
  unfold addressByte
  simp (maxDischargeDepth := 20) +contextual [TableFrom]

@[simp] theorem from_busWrite {B : List SegEntry} (s : State) (x : WriteXfer) : TableFrom B s (busWrite s x) := by
  cases x <;> simp only [busWrite] <;> split
  all_goals simp (maxDischargeDepth := 20) +contextual [TableFrom]

@[simp] theorem from_sendFrame {B : List SegEntry} (s : State) (addr : BitVec 7) (body : List Byte) :
    TableFrom B s (sendFrame s addr body) := by
  unfold sendFrame
  simp (maxDischargeDepth := 20) +contextual [TableFrom]

@[simp] theorem from_busRead {B : List SegEntry} (s : State) (x : ReadXfer) : TableFrom B s (busRead s x) := by
  cases x <;> simp only [busRead] <;> split
  all_goals simp (maxDischargeDepth := 20) +contextual [TableFrom]

@[simp] theorem from_stallExpiry {B : List SegEntry} (s : State) : TableFrom B s (stallExpiry s) := by
  unfold stallExpiry; try dsimp only
  repeat' split
  all_goals simp (maxDischargeDepth := 20) +contextual [TableFrom]

@[simp] theorem from_sessionLapse {B : List SegEntry} (s : State) : TableFrom B s (sessionLapse s) := by
  unfold sessionLapse; try dsimp only
  repeat' split
  all_goals simp (maxDischargeDepth := 20) +contextual [TableFrom]

@[simp] theorem from_setBufOwner {B : List SegEntry} (s : State) (b : Nat) (o : Option Nat) :
    TableFrom B s (setBufOwner s b o) := by
  unfold setBufOwner
  simp (maxDischargeDepth := 20) +contextual [TableFrom]

@[simp] theorem from_acceptSubmit {B : List SegEntry} (s : State) (t : Nat) (c : Cmd) : TableFrom B s (acceptSubmit s t c) := by
  unfold acceptSubmit holdBuffer setBufOwner; split <;> exact from_syncIdle _

@[simp] theorem from_submit {B : List SegEntry} (s : State) : TableFrom B s (submit s) := by
  unfold submit
  split
  · exact id
  · dsimp only
    split
    · exact from_acceptSubmit s _ _
    · exact id

@[simp] theorem from_submitArgs {B : List SegEntry} (s : State) (f : ArgRegs → ArgRegs) : TableFrom B s (submitArgs s f) := by
  unfold submitArgs
  simp (maxDischargeDepth := 20) +contextual [TableFrom]

@[simp] theorem from_popCompletion {B : List SegEntry} (s : State) : TableFrom B s (popCompletion s) := by
  unfold popCompletion; split <;> exact id

@[simp] theorem from_removeQueued {B : List SegEntry} (s : State) (t : Nat) : TableFrom B s (removeQueued s t) := by
  unfold removeQueued; exact from_syncIdle _

@[simp] theorem from_abortInFlight {B : List SegEntry} (s : State) (c : Ctx) : TableFrom B s (abortInFlight s c).2 := by
  unfold abortInFlight
  repeat' split
  all_goals first
    | exact id
    | exact from_modCtx _ _
    | simp (maxDischargeDepth := 20) +contextual [TableFrom]

@[simp] theorem from_abortAnswer {B : List SegEntry} (s : State) (t : Nat) : TableFrom B s (abortAnswer s t).2 := by
  unfold abortAnswer
  repeat' split
  all_goals first
    | exact id
    | exact from_removeQueued _ _
    | exact from_abortInFlight _ _

@[simp] theorem from_hostAbort {B : List SegEntry} (s : State) (v : Byte) : TableFrom B s (hostAbort s v) := by
  unfold hostAbort
  simp (maxDischargeDepth := 20) +contextual [TableFrom]

@[simp] theorem from_advancePtr {B : List SegEntry} (s : State) : TableFrom B s (advancePtr s) := by
  unfold advancePtr
  simp (maxDischargeDepth := 20) +contextual [TableFrom]

@[simp] theorem from_readBufData {B : List SegEntry} (s : State) : TableFrom B s (readBufData s) := by
  unfold readBufData
  simp (maxDischargeDepth := 20) +contextual [TableFrom]

@[simp] theorem from_writeBufData {B : List SegEntry} (s : State) (v : Byte) : TableFrom B s (writeBufData s v) := by
  unfold writeBufData; try dsimp only
  repeat' split
  all_goals simp (maxDischargeDepth := 20) +contextual [TableFrom]

@[simp] theorem from_readDircntLow {B : List SegEntry} (s : State) : TableFrom B s (readDircntLow s) := by
  unfold readDircntLow
  simp (maxDischargeDepth := 20) +contextual [TableFrom]

@[simp] theorem from_clearAlerts {B : List SegEntry} (s : State) (v : Byte) : TableFrom B s (clearAlerts s v) := by
  unfold clearAlerts
  simp (maxDischargeDepth := 20) +contextual [TableFrom]

@[simp] theorem from_setMask {B : List SegEntry} (s : State) (v : Byte) : TableFrom B s (setMask s v) := by
  unfold setMask
  simp (maxDischargeDepth := 20) +contextual [TableFrom]

@[simp] theorem from_setRecthr {B : List SegEntry} (s : State) (v : Byte) : TableFrom B s (setRecthr s v) := id

@[simp] theorem from_setHostwt {B : List SegEntry} (s : State) (v : Byte) : TableFrom B s (setHostwt s v) := id

@[simp] theorem from_batchIdleExpires {B : List SegEntry} (s : State) : TableFrom B s (batchIdleExpires s) := by
  unfold batchIdleExpires; try dsimp only
  repeat' split
  all_goals simp (maxDischargeDepth := 20) +contextual [TableFrom]

@[simp] theorem from_powerGood {B : List SegEntry} (s : State) : TableFrom B s (powerGood s) := by
  unfold powerGood; try dsimp only
  repeat' split
  all_goals simp (maxDischargeDepth := 20) +contextual [TableFrom]

end Sys2Proof.Machine
end

