-- ==== Sys2Proof/Laws/Activity.lean ====
section
/-! SUPPORT. The operations that leave alone which unit holds the array and where its work stands: they give the array up with
their command at most, end the command in flight at most, and keep the reclaim context, the FORMAT, the phase of the mount and,
but for the
fall from READY to READ_ONLY, the store state. One lemma per operation, tagged simp. -/

namespace Sys2Proof.Machine

/-- Bounds on where the work of the engine stands. -/
structure Bounds where
  holder : Holder
  stage : Stage → Prop
  rc : Option Reclaim
  fu : Option FormatCtx
  phase : MPhase
  store : StoreState → Prop
  prior : Option StoreState
  sinks : store .ready → store .readOnly

/-- The work stands within the bounds. -/
structure Within (b : Bounds) (h : Holder) (st : StoreState) (p : Option StoreState) (i : Option Ctx) (r : Option Reclaim)
    (f : Option FormatCtx) (m : MPhase) : Prop where
  holder : h = b.holder ∨ (b.holder = .command ∧ h = .none)
  stage : ∀ c, i = some c → b.stage c.stage
  rc : r = b.rc
  fu : f = b.fu
  phase : m = b.phase
  store : b.store st
  prior : p = b.prior

/-- Work within the bounds stays within them. -/
abbrev WorkKept (b : Bounds) (s t : State) : Prop :=
  Within b s.holder s.eng.store s.eng.prior s.inflight s.rc.ctx s.fu s.mu.phase →
    Within b t.holder t.eng.store t.eng.prior t.inflight t.rc.ctx t.fu t.mu.phase

@[simp] theorem work_raise {b : Bounds} (s : State) (a : Alert) : WorkKept b s (raise s a) := id

/-- A change of the context that keeps its stage. -/
@[simp] theorem work_modCtx {b : Bounds} (s : State) (f : Ctx → Ctx) (hf : ∀ c, (f c).stage = c.stage) :
    WorkKept b s (modCtx s f) := fun h => by
  refine ⟨h.holder, fun c hc => ?_, h.rc, h.fu, h.phase, h.store, h.prior⟩
  simp only [modCtx, Option.map_eq_some_iff] at hc
  obtain ⟨x, hx, rfl⟩ := hc
  rw [hf]; exact h.stage x hx

@[simp] theorem work_setTag {b : Bounds} (s : State) (t : Nat) (v : TagState) : WorkKept b s (setTag s t v) := id

@[simp] theorem work_postHost {b : Bounds} (s : State) (t : Nat) (r : Result) : WorkKept b s (postHost s t r) := id

/-- The command in flight ends. -/
theorem Within.ended {b : Bounds} {h : Holder} {st : StoreState} {p : Option StoreState} {i : Option Ctx}
    {r : Option Reclaim} {f : Option FormatCtx} {m : MPhase} (w : Within b h st p i r f m) :
    Within b (if h = .command then .none else h) st p none r f m := by
  refine ⟨?_, fun c hc => by simp at hc, w.rc, w.fu, w.phase, w.store, w.prior⟩
  rcases w.holder with k | ⟨k, rfl⟩
  · split
    · exact .inr ⟨by rw [← k]; assumption, rfl⟩
    · exact .inl k
  · exact .inr ⟨k, by simp⟩

@[simp] theorem work_stagingWrite {w : Bounds} (s : State) (b i : Nat) (v : Byte) : WorkKept w s (stagingWrite s b i v) := by
  unfold stagingWrite
  simp (maxDischargeDepth := 20) +contextual [WorkKept]

@[simp] theorem work_segUpd {w : Bounds} (s : State) (n : Nat) (f : SegEntry → SegEntry) : WorkKept w s (segUpd s n f) := by
  unfold segUpd; try dsimp only
  repeat' split
  all_goals simp (maxDischargeDepth := 20) +contextual [WorkKept]

@[simp] theorem work_setSegState {w : Bounds} (s : State) (n : Nat) (st : SegState) : WorkKept w s (setSegState s n st) := by
  unfold setSegState
  simp (maxDischargeDepth := 20) +contextual [WorkKept]

@[simp] theorem work_journalUpd {w : Bounds} (s : State) (n : Nat) (f : Journal → Journal) : WorkKept w s (journalUpd s n f) := by
  unfold journalUpd
  simp (maxDischargeDepth := 20) +contextual [WorkKept]

@[simp] theorem work_accountLive {w : Bounds} (s : State) (n e : Nat) : WorkKept w s (accountLive s n e) := by
  unfold accountLive
  simp (maxDischargeDepth := 20) +contextual [WorkKept]

@[simp] theorem work_accountDead {w : Bounds} (s : State) (n e : Nat) : WorkKept w s (accountDead s n e) := by
  unfold accountDead
  simp (maxDischargeDepth := 20) +contextual [WorkKept]

@[simp] theorem work_killLines {w : Bounds} (s : State) (n e : Nat) : WorkKept w s (killLines s n e) := by
  unfold killLines
  simp (maxDischargeDepth := 20) +contextual [WorkKept]

@[simp] theorem work_pinUp {w : Bounds} (s : State) (n : Nat) : WorkKept w s (pinUp s n) := by
  unfold pinUp
  simp (maxDischargeDepth := 20) +contextual [WorkKept]

@[simp] theorem work_clearPins {w : Bounds} (s : State) : WorkKept w s (clearPins s) := by
  unfold clearPins
  simp (maxDischargeDepth := 20) +contextual [WorkKept]

@[simp] theorem work_closeSegment {w : Bounds} (s : State) (n : Nat) : WorkKept w s (closeSegment s n) := by
  unfold closeSegment
  simp (maxDischargeDepth := 20) +contextual [WorkKept]

@[simp] theorem work_countFault {w : Bounds} (s : State) (n : Nat) : WorkKept w s (countFault s n) := by
  unfold countFault
  simp (maxDischargeDepth := 20) +contextual [WorkKept]

@[simp] theorem work_emptyTable {w : Bounds} (s : State) : WorkKept w s (emptyTable s) := by
  unfold emptyTable
  simp (maxDischargeDepth := 20) +contextual [WorkKept]

@[simp] theorem work_killPart {w : Bounds} (s : State) (p : Part) : WorkKept w s (killPart s p) := by
  unfold killPart
  simp (maxDischargeDepth := 20) +contextual [WorkKept]

@[simp] theorem work_killPart_opt {w : Bounds} (s : State) (o : Option Part) : WorkKept w s (killPart? s o) := by
  unfold killPart?; split <;> simp +contextual [WorkKept]

@[simp] theorem work_publishCommitted {w : Bounds} (s : State) (key : Key) (p : Part) :
    WorkKept w s (publishCommitted s key p) := by
  unfold publishCommitted
  simp (maxDischargeDepth := 20) +contextual [WorkKept]

@[simp] theorem work_publishPending {w : Bounds} (s : State) (key : Key) (p : Part) : WorkKept w s (publishPending s key p) := by
  unfold publishPending
  simp (maxDischargeDepth := 20) +contextual [WorkKept]

@[simp] theorem work_promoteKey {w : Bounds} (s : State) (key : Key) : WorkKept w s (promoteKey s key) := by
  unfold promoteKey; try dsimp only
  repeat' split
  all_goals simp (maxDischargeDepth := 20) +contextual [WorkKept]

@[simp] theorem work_promoteAll {w : Bounds} (s : State) (ms : List Member) : WorkKept w s (promoteAll s ms) := by
  unfold promoteAll
  induction ms generalizing s with
  | nil => simp [WorkKept]
  | cons m ms ih =>
    rw [List.foldl_cons]
    exact fun h => ih (promoteKey s m.key) (by simp [h])

theorem work_killAll {w : Bounds} (s : State) (ps : List Part) : WorkKept w s (ps.foldl killPart s) := by
  induction ps generalizing s with
  | nil => simp [WorkKept]
  | cons p ps ih =>
    rw [List.foldl_cons]
    exact fun h => ih (killPart s p) (by simp [h])

@[simp] theorem work_dropPending {w : Bounds} (s : State) : WorkKept w s (dropPending s) := work_killAll s _

@[simp] theorem work_dropTombstone {w : Bounds} (s : State) (key : Key) : WorkKept w s (dropTombstone s key) := by
  unfold dropTombstone
  simp (maxDischargeDepth := 20) +contextual [WorkKept]

@[simp] theorem work_dirRepoint {w : Bounds} (s : State) (key : Key) (copy : Loc) : WorkKept w s (dirRepoint s key copy) := by
  unfold dirRepoint
  simp (maxDischargeDepth := 20) +contextual [WorkKept]

@[simp] theorem work_syncIdle {w : Bounds} (s : State) : WorkKept w s (syncIdle s) := by
  unfold syncIdle
  simp (maxDischargeDepth := 20) +contextual [WorkKept]

@[simp] theorem work_teardown {w : Bounds} (s : State) (own : Bool) : WorkKept w s (teardown s own) := by
  unfold teardown; try dsimp only
  repeat' split
  all_goals simp (maxDischargeDepth := 20) +contextual [WorkKept]

@[simp] theorem work_setSlot {w : Bounds} (s : State) (b : Bool) (v : Slot) : WorkKept w s (setSlot s b v) := by
  unfold setSlot; try dsimp only
  repeat' split
  all_goals simp (maxDischargeDepth := 20) +contextual [WorkKept]

@[simp] theorem work_answerRunning {w : Bounds} (s : State) (b : Bool) (frame : List Byte) :
    WorkKept w s (answerRunning s b frame) := by
  unfold answerRunning; try dsimp only
  repeat' split
  all_goals simp (maxDischargeDepth := 20) +contextual [WorkKept]

@[simp] theorem work_postResult {w : Bounds} (s : State) (c : Ctx) (r : Result) : WorkKept w s (postResult s c r) := by
  unfold postResult; try dsimp only
  split
  · exact id
  · simp (maxDischargeDepth := 20) +contextual [WorkKept]

@[simp] theorem work_complete {w : Bounds} (s : State) (r : Result) : WorkKept w s (complete s r) := by
  intro h
  unfold complete; dsimp only
  split
  · exact h
  · rename_i c hc
    have hp := (work_postResult s c r h).ended
    split
    · exact work_syncIdle _ (work_teardown _ false hp)
    · exact work_syncIdle _ hp

@[simp] theorem work_completeFail {w : Bounds} (s : State) (st : Status) : WorkKept w s (completeFail s st) := by
  unfold completeFail; try dsimp only
  repeat' split
  all_goals simp (maxDischargeDepth := 20) +contextual [WorkKept]

@[simp] theorem work_enterReadOnly {w : Bounds} (s : State) : WorkKept w s (enterReadOnly s) := by
  intro h
  unfold enterReadOnly; dsimp only
  split
  · exact h
  · rename_i hr
    have k : Within w s.holder .readOnly s.eng.prior s.inflight s.rc.ctx s.fu s.mu.phase :=
      ⟨h.holder, h.stage, h.rc, h.fu, h.phase, w.sinks (not_not.1 hr ▸ h.store), h.prior⟩
    split
    · exact work_teardown _ false k
    · split
      · exact work_completeFail _ _ (work_modCtx _ _ (fun _ => rfl) k)
      · exact work_modCtx _ _ (fun _ => rfl) k

@[simp] theorem work_retireSegment {w : Bounds} (s : State) (n : Nat) : WorkKept w s (retireSegment s n) := by
  unfold retireSegment; try dsimp only
  repeat' split
  all_goals simp (maxDischargeDepth := 20) +contextual [WorkKept]

@[simp] theorem work_issue {w : Bounds} (s : State) (op : SeqOp) : WorkKept w s (issue s op) := by
  unfold issue; try dsimp only
  repeat' split
  all_goals simp (maxDischargeDepth := 20) +contextual [WorkKept]

@[simp] theorem work_prepIssue {w : Bounds} (s : State) (n : Nat) (p : PrepStage) (vid : Word) :
    WorkKept w s (prepIssue s n p vid) := by
  unfold prepIssue; try dsimp only
  repeat' split
  all_goals simp (maxDischargeDepth := 20) +contextual [WorkKept]

@[simp] theorem work_eraseEnded {w : Bounds} (s : State) (n : Nat) : WorkKept w s (eraseEnded s n) := by
  unfold eraseEnded; try dsimp only
  repeat' split
  all_goals simp (maxDischargeDepth := 20) +contextual [WorkKept]

@[simp] theorem work_segmentPrepared {w : Bounds} (s : State) (n : Nat) : WorkKept w s (segmentPrepared s n) := by
  unfold segmentPrepared
  simp (maxDischargeDepth := 20) +contextual [WorkKept]

@[simp] theorem work_prepReport {w : Bounds} (s : State) (n : Nat) (p : PrepStage) (vid : Word) (rep : Report) :
    WorkKept w s (prepReport s n p vid rep).1 := by
  unfold prepReport; try dsimp only
  repeat' split
  all_goals simp (maxDischargeDepth := 20) +contextual [WorkKept]

@[simp] theorem work_takeEpoch {w : Bounds} (s : State) : WorkKept w s (takeEpoch s) := by
  unfold takeEpoch; try dsimp only
  repeat' split
  all_goals simp (maxDischargeDepth := 20) +contextual [WorkKept]

@[simp] theorem work_closeOpen {w : Bounds} (s : State) : WorkKept w s (closeOpen s) := by
  unfold closeOpen; try dsimp only
  repeat' split
  all_goals simp (maxDischargeDepth := 20) +contextual [WorkKept]

@[simp] theorem work_startOpening {w : Bounds} (s : State) (n : Nat) (failed : Option Nat) :
    WorkKept w s (startOpening s n failed).1 := by
  unfold startOpening
  simp (maxDischargeDepth := 20) +contextual [WorkKept]

@[simp] theorem work_openReport {w : Bounds} (s : State) (o : Opening) (rep : Report) : WorkKept w s (openReport s o rep).1 := by
  unfold openReport; try dsimp only
  repeat' split
  all_goals simp (maxDischargeDepth := 20) +contextual [WorkKept]

@[simp] theorem work_loseBatch {w : Bounds} (s : State) : WorkKept w s (loseBatch s) := by
  unfold loseBatch; try dsimp only
  repeat' split
  all_goals simp (maxDischargeDepth := 20) +contextual [WorkKept]

@[simp] theorem work_abandonRecord {w : Bounds} (s : State) : WorkKept w s (abandonRecord s) := by
  unfold abandonRecord; try dsimp only
  repeat' split
  all_goals simp (maxDischargeDepth := 20) +contextual [WorkKept]

@[simp] theorem work_commitBatch {w : Bounds} (s : State) (c : Ctx) : WorkKept w s (commitBatch s c) := by
  unfold commitBatch; try dsimp only
  repeat' split
  all_goals simp (maxDischargeDepth := 20) +contextual [WorkKept]

@[simp] theorem work_publish {w : Bounds} (s : State) (c : Ctx) : WorkKept w s (publish s c) := by
  cases h : c.cmd <;> simp only [publish, h]
  case put => split <;> simp (maxDischargeDepth := 20) +contextual [WorkKept]
  case delete => split <;> simp (maxDischargeDepth := 20) +contextual [WorkKept]
  all_goals simp (maxDischargeDepth := 20) +contextual [WorkKept]

@[simp] theorem work_modJob {w : Bounds} (s : State) (f : ReadJob → ReadJob) : WorkKept w s (modJob s f) :=
  work_modCtx s _ fun _ => rfl

@[simp] theorem work_readContent {w : Bounds} (s : State) (l : Line) : WorkKept w s (readContent s l).2 := by
  unfold readContent; split <;> simp [WorkKept]

@[simp] theorem work_stagingWriteList {w : Bounds} (s : State) (b i : Nat) (l : List Byte) :
    WorkKept w s (stagingWriteList s b i l) := by
  induction l generalizing s i with
  | nil => simp [WorkKept, stagingWriteList]
  | cons v vs ih => exact fun h => ih (stagingWrite s b i v) (i + 1) (by simp [h])

@[simp] theorem work_placeBytes {w : Bounds} (s : State) (c : Ctx) (buf i : Nat) (v : List Byte) :
    WorkKept w s (placeBytes s c buf i v) := by
  unfold placeBytes; try dsimp only
  repeat' split
  all_goals simp (maxDischargeDepth := 20) +contextual [WorkKept]

@[simp] theorem work_returnVictim {w : Bounds} (s : State) (v : Nat) : WorkKept w s (returnVictim s v) := by
  unfold returnVictim
  simp (maxDischargeDepth := 20) +contextual [WorkKept]

@[simp] theorem work_dropRecord {w : Bounds} (s : State) (h : Hdr) (l : Loc) : WorkKept w s (dropRecord s h l) := by
  unfold dropRecord; try dsimp only
  repeat' split
  all_goals simp (maxDischargeDepth := 20) +contextual [WorkKept]

@[simp] theorem work_repoint {w : Bounds} (s : State) (a : Attempt) : WorkKept w s (repoint s a) := by
  unfold repoint; try dsimp only
  repeat' split
  all_goals simp (maxDischargeDepth := 20) +contextual [WorkKept]

@[simp] theorem work_applyPart {w : Bounds} (s : State) (key : Key) (p : Part) : WorkKept w s (applyPart s key p) := by
  unfold applyPart; try dsimp only
  repeat' split
  all_goals simp (maxDischargeDepth := 20) +contextual [WorkKept]

@[simp] theorem work_addEntry {w : Bounds} (s : State) (n : Nat) (st : SegState) (ec : Nat) (known : Bool) :
    WorkKept w s (addEntry s n st ec known) := by
  unfold addEntry
  simp (maxDischargeDepth := 20) +contextual [WorkKept]

@[simp] theorem work_answerWaiting {w : Bounds} (s : State) (b : Bool) (status : Byte) :
    WorkKept w s (answerWaiting s b status) := by
  unfold answerWaiting; try dsimp only
  repeat' split
  all_goals simp (maxDischargeDepth := 20) +contextual [WorkKept]

@[simp] theorem work_answerBothWaiting {w : Bounds} (s : State) (status : Byte) : WorkKept w s (answerBothWaiting s status) := by
  unfold answerBothWaiting
  simp (maxDischargeDepth := 20) +contextual [WorkKept]

@[simp] theorem work_reclaimStopped {w : Bounds} (s : State) (st : Status) : WorkKept w s (reclaimStopped s st) := by
  unfold reclaimStopped; try dsimp only
  repeat' split
  all_goals simp (maxDischargeDepth := 20) +contextual [WorkKept]

@[simp] theorem work_setXfer {w : Bounds} (s : State) (x : Option Xfer) : WorkKept w s (setXfer s x) := by
  unfold setXfer
  simp (maxDischargeDepth := 20) +contextual [WorkKept]

@[simp] theorem work_endMgmtBatch {w : Bounds} (s : State) : WorkKept w s (endMgmtBatch s) := by
  unfold endMgmtBatch; try dsimp only
  repeat' split
  all_goals first
    | exact fun h => work_completeFail _ _ (work_teardown s false h)
    | exact fun h => work_modCtx _ _ (fun _ => rfl) (work_teardown s false h)
    | exact fun h => work_modCtx _ _ (fun _ => rfl) h
    | exact work_loseBatch s
    | exact work_teardown s false

@[simp] theorem work_sessionEnd {w : Bounds} (s : State) (status : Byte) : WorkKept w s (sessionEnd s status) := by
  unfold sessionEnd; try dsimp only
  repeat' split
  all_goals simp (maxDischargeDepth := 20) +contextual [WorkKept]

@[simp] theorem work_freeReceiving {w : Bounds} (s : State) (b : Bool) : WorkKept w s (freeReceiving s b) := by
  unfold freeReceiving; try dsimp only
  repeat' split
  all_goals simp (maxDischargeDepth := 20) +contextual [WorkKept]

@[simp] theorem work_portDisable {w : Bounds} (s : State) : WorkKept w s (portDisable s) := by
  unfold portDisable; try dsimp only
  repeat' split
  all_goals simp (maxDischargeDepth := 20) +contextual [WorkKept]

@[simp] theorem work_answerSlot {w : Bounds} (s : State) (b : Bool) (arrival : Nat) (tag status : Byte) (payload : List Byte) :
    WorkKept w s (answerSlot s b arrival tag status payload) := by
  unfold answerSlot
  simp (maxDischargeDepth := 20) +contextual [WorkKept]

@[simp] theorem work_acceptFrame {w : Bounds} (s : State) (b : Bool) (arrival : Nat) (bytes : List Byte) (r : Request) :
    WorkKept w s (acceptFrame s b arrival bytes r) := by
  unfold acceptFrame; try dsimp only
  repeat' split
  all_goals simp (maxDischargeDepth := 20) +contextual [WorkKept]

@[simp] theorem work_frameEnd {w : Bounds} (s : State) (b : Bool) : WorkKept w s (frameEnd s b) := by
  unfold frameEnd; try dsimp only
  repeat' split
  all_goals simp (maxDischargeDepth := 20) +contextual [WorkKept]

@[simp] theorem work_ack {w : Bounds} (s : State) (v : Bool) : WorkKept w s (ack s v) := by
  unfold ack
  simp (maxDischargeDepth := 20) +contextual [WorkKept]

@[simp] theorem work_writeByte {w : Bounds} (s : State) (v : Byte) : WorkKept w s (writeByte s v) := by
  unfold writeByte; try dsimp only
  repeat' split
  all_goals simp (maxDischargeDepth := 20) +contextual [WorkKept]

@[simp] theorem work_writeBytes {w : Bounds} (s : State) (l : List Byte) : WorkKept w s (writeBytes s l) := by
  unfold writeBytes
  induction l generalizing s with
  | nil => simp [WorkKept]
  | cons v vs ih =>
    rw [List.foldl_cons]
    have h := ih (writeByte s v)
    simp (maxDischargeDepth := 20) +contextual only [WorkKept] at h ⊢
    simp (maxDischargeDepth := 20) +contextual [h, work_writeByte]

@[simp] theorem work_beginWrite {w : Bounds} (s : State) (data : List Byte) : WorkKept w s (beginWrite s data) := by
  unfold beginWrite
  simp (maxDischargeDepth := 20) +contextual [WorkKept]

@[simp] theorem work_endWrite {w : Bounds} (s : State) : WorkKept w s (endWrite s) := by
  unfold endWrite; try dsimp only
  repeat' split
  all_goals simp (maxDischargeDepth := 20) +contextual [WorkKept]

@[simp] theorem work_clockBytes {w : Bounds} (s : State) (n : Nat) : WorkKept w s (clockBytes s n) := by
  unfold clockBytes; try dsimp only
  repeat' split
  all_goals simp (maxDischargeDepth := 20) +contextual [WorkKept]

@[simp] theorem work_freeAnswered {w : Bounds} (s : State) (b : Bool) : WorkKept w s (freeAnswered s b) := by
  unfold freeAnswered; split
  all_goals simp (maxDischargeDepth := 20) +contextual [WorkKept]

@[simp] theorem work_endRead {w : Bounds} (s : State) : WorkKept w s (endRead s) := by
  unfold endRead; try dsimp only
  repeat' split
  all_goals simp (maxDischargeDepth := 20) +contextual [WorkKept]

@[simp] theorem work_beginRead {w : Bounds} (s : State) (n : Nat) : WorkKept w s (beginRead s n) := by
  unfold beginRead
  simp (maxDischargeDepth := 20) +contextual [WorkKept]

@[simp] theorem work_endTransfer {w : Bounds} (s : State) : WorkKept w s (endTransfer s) := by
  unfold endTransfer
  repeat' split
  all_goals simp (maxDischargeDepth := 20) +contextual [WorkKept]

@[simp] theorem work_addressByte {w : Bounds} (s : State) (addr : BitVec 7) : WorkKept w s (addressByte s addr) := by
  unfold addressByte
  simp (maxDischargeDepth := 20) +contextual [WorkKept]

@[simp] theorem work_busWrite {w : Bounds} (s : State) (x : WriteXfer) : WorkKept w s (busWrite s x) := by
  cases x <;> simp only [busWrite] <;> split
  all_goals simp (maxDischargeDepth := 20) +contextual [WorkKept]

@[simp] theorem work_sendFrame {w : Bounds} (s : State) (addr : BitVec 7) (body : List Byte) :
    WorkKept w s (sendFrame s addr body) := by
  unfold sendFrame
  simp (maxDischargeDepth := 20) +contextual [WorkKept]

@[simp] theorem work_busRead {w : Bounds} (s : State) (x : ReadXfer) : WorkKept w s (busRead s x) := by
  cases x <;> simp only [busRead] <;> split
  all_goals simp (maxDischargeDepth := 20) +contextual [WorkKept]

@[simp] theorem work_stallExpiry {w : Bounds} (s : State) : WorkKept w s (stallExpiry s) := by
  unfold stallExpiry; try dsimp only
  repeat' split
  all_goals simp (maxDischargeDepth := 20) +contextual [WorkKept]

@[simp] theorem work_sessionLapse {w : Bounds} (s : State) : WorkKept w s (sessionLapse s) := by
  unfold sessionLapse; try dsimp only
  repeat' split
  all_goals simp (maxDischargeDepth := 20) +contextual [WorkKept]

@[simp] theorem work_setBufOwner {w : Bounds} (s : State) (b : Nat) (o : Option Nat) : WorkKept w s (setBufOwner s b o) := by
  unfold setBufOwner
  simp (maxDischargeDepth := 20) +contextual [WorkKept]

@[simp] theorem work_acceptSubmit {w : Bounds} (s : State) (t : Nat) (c : Cmd) : WorkKept w s (acceptSubmit s t c) := by
  unfold acceptSubmit holdBuffer setBufOwner; split <;> exact work_syncIdle _

@[simp] theorem work_submit {w : Bounds} (s : State) : WorkKept w s (submit s) := by
  unfold submit
  split
  · exact id
  · dsimp only
    split
    · exact work_acceptSubmit s _ _
    · exact id

@[simp] theorem work_submitArgs {w : Bounds} (s : State) (f : ArgRegs → ArgRegs) : WorkKept w s (submitArgs s f) := by
  unfold submitArgs
  simp (maxDischargeDepth := 20) +contextual [WorkKept]

@[simp] theorem work_popCompletion {w : Bounds} (s : State) : WorkKept w s (popCompletion s) := by
  unfold popCompletion; split <;> exact id

@[simp] theorem work_removeQueued {w : Bounds} (s : State) (t : Nat) : WorkKept w s (removeQueued s t) := by
  unfold removeQueued; exact work_syncIdle _

@[simp] theorem work_abortInFlight {w : Bounds} (s : State) (c : Ctx) : WorkKept w s (abortInFlight s c).2 := by
  unfold abortInFlight
  repeat' split
  all_goals first
    | exact id
    | exact work_modCtx _ _ fun _ => rfl
    | simp (maxDischargeDepth := 20) +contextual [WorkKept]

@[simp] theorem work_abortAnswer {w : Bounds} (s : State) (t : Nat) : WorkKept w s (abortAnswer s t).2 := by
  unfold abortAnswer
  repeat' split
  all_goals first
    | exact id
    | exact work_removeQueued _ _
    | exact work_abortInFlight _ _

@[simp] theorem work_hostAbort {w : Bounds} (s : State) (v : Byte) : WorkKept w s (hostAbort s v) := by
  unfold hostAbort
  simp (maxDischargeDepth := 20) +contextual [WorkKept]

@[simp] theorem work_advancePtr {w : Bounds} (s : State) : WorkKept w s (advancePtr s) := by
  unfold advancePtr
  simp (maxDischargeDepth := 20) +contextual [WorkKept]

@[simp] theorem work_readBufData {w : Bounds} (s : State) : WorkKept w s (readBufData s) := by
  unfold readBufData
  simp (maxDischargeDepth := 20) +contextual [WorkKept]

@[simp] theorem work_writeBufData {w : Bounds} (s : State) (v : Byte) : WorkKept w s (writeBufData s v) := by
  unfold writeBufData; try dsimp only
  repeat' split
  all_goals simp (maxDischargeDepth := 20) +contextual [WorkKept]

@[simp] theorem work_readDircntLow {w : Bounds} (s : State) : WorkKept w s (readDircntLow s) := by
  unfold readDircntLow
  simp (maxDischargeDepth := 20) +contextual [WorkKept]

@[simp] theorem work_clearAlerts {w : Bounds} (s : State) (v : Byte) : WorkKept w s (clearAlerts s v) := by
  unfold clearAlerts
  simp (maxDischargeDepth := 20) +contextual [WorkKept]

@[simp] theorem work_setMask {w : Bounds} (s : State) (v : Byte) : WorkKept w s (setMask s v) := by
  unfold setMask
  simp (maxDischargeDepth := 20) +contextual [WorkKept]

@[simp] theorem work_setRecthr {w : Bounds} (s : State) (v : Byte) : WorkKept w s (setRecthr s v) := id

@[simp] theorem work_setHostwt {w : Bounds} (s : State) (v : Byte) : WorkKept w s (setHostwt s v) := id

@[simp] theorem work_batchIdleExpires {w : Bounds} (s : State) : WorkKept w s (batchIdleExpires s) := by
  unfold batchIdleExpires; try dsimp only
  repeat' split
  all_goals simp (maxDischargeDepth := 20) +contextual [WorkKept]

@[simp] theorem work_powerGood {w : Bounds} (s : State) : WorkKept w s (powerGood s) := by
  unfold powerGood; try dsimp only
  repeat' split
  all_goals simp (maxDischargeDepth := 20) +contextual [WorkKept]

@[simp] theorem work_listNext {w : Bounds} (s : State) (key : Key) (p : Part) : WorkKept w s (listNext s key p) := by
  unfold listNext
  simp (maxDischargeDepth := 20) +contextual [WorkKept]

@[simp] theorem work_getReport {w : Bounds} (s : State) (c : Ctx) (buf : Nat) (l : Line) :
    WorkKept w s (getReport s c buf l) := by
  unfold getReport; try dsimp only
  repeat' split
  all_goals simp (maxDischargeDepth := 20) +contextual [WorkKept]

@[simp] theorem work_listReport {w : Bounds} (s : State) (c : Ctx) (buf count : Nat) (l : Line) :
    WorkKept w s (listReport s c buf count l) := by
  unfold listReport; try dsimp only
  repeat' split
  all_goals simp (maxDischargeDepth := 20) +contextual [WorkKept]

@[simp] theorem work_haltEnd {w : Bounds} (s : State) (c : Ctx) : WorkKept w s (haltEnd s c) := by
  unfold haltEnd; try dsimp only
  repeat' split
  all_goals simp (maxDischargeDepth := 20) +contextual [WorkKept]

@[simp] theorem work_haltCommand {w : Bounds} (s : State) : WorkKept w s (haltCommand s) := by
  unfold haltCommand; try dsimp only
  repeat' split
  all_goals simp (maxDischargeDepth := 20) +contextual [WorkKept]

theorem work_postAll {w : Bounds} (s : State) (l : List QEntry) (r : Result) :
    WorkKept w s (l.foldl (fun t q => postHost t q.tag r) s) := by
  induction l generalizing s with
  | nil => exact id
  | cons q l ih => exact fun h => ih (postHost s q.tag r) h

@[simp] theorem work_flushQueue {w : Bounds} (s : State) : WorkKept w s (flushQueue s) := fun h =>
  work_postAll s s.host.queue (Result.bare .halted) h

end Sys2Proof.Machine
end

