-- ==== Sys2Proof/Laws/Frame.lean ====
section
/-! SUPPORT. What the engine's work never touches: the record array, the waiting commands, CONTROL and the settings, the pins,
and the registers of both ports that only their own commands change. One lemma per operation, tagged simp. -/

namespace Sys2Proof.Machine

/-- The items that no unit of the store engine changes. -/
abbrev EngineKept (s t : State) : Prop :=
  t.array = s.array ∧ t.pending = s.pending ∧ t.ctl = s.ctl ∧ t.pins = s.pins ∧ t.host.args = s.host.args
  ∧ t.host.bufOwner = s.host.bufOwner ∧ t.host.bufSel = s.host.bufSel ∧ t.host.bufPtr = s.host.bufPtr
  ∧ t.host.lastSubmit = s.host.lastSubmit ∧ t.host.lastAbort = s.host.lastAbort
  ∧ t.host.dircntHold = s.host.dircntHold ∧ t.alert.mask = s.alert.mask ∧ t.mgmt.session = s.mgmt.session
  ∧ t.mgmt.xfer = s.mgmt.xfer ∧ t.mgmt.arrivals = s.mgmt.arrivals ∧ t.eng.amount = s.eng.amount
  ∧ t.eng.madr = s.eng.madr

@[simp] theorem kept_raise (s : State) (a : Alert) : EngineKept s (raise s a) := by simp [EngineKept, raise]

@[simp] theorem kept_stagingWrite (s : State) (b i : Nat) (v : Byte) : EngineKept s (stagingWrite s b i v) := by
  unfold stagingWrite
  simp [EngineKept]

@[simp] theorem kept_segUpd (s : State) (n : Nat) (f : SegEntry → SegEntry) : EngineKept s (segUpd s n f) := by
  unfold segUpd; try dsimp only
  repeat' split
  all_goals simp [EngineKept]

@[simp] theorem kept_setSegState (s : State) (n : Nat) (st : SegState) : EngineKept s (setSegState s n st) := by
  unfold setSegState
  simp [EngineKept]

@[simp] theorem kept_journalUpd (s : State) (n : Nat) (f : Journal → Journal) :
    EngineKept s (journalUpd s n f) := by
  unfold journalUpd
  simp [EngineKept]

@[simp] theorem kept_accountLive (s : State) (n e : Nat) : EngineKept s (accountLive s n e) := by
  unfold accountLive
  simp [EngineKept]

@[simp] theorem kept_accountDead (s : State) (n e : Nat) : EngineKept s (accountDead s n e) := by
  unfold accountDead
  simp [EngineKept]

@[simp] theorem kept_killLines (s : State) (n e : Nat) : EngineKept s (killLines s n e) := by
  unfold killLines
  simp [EngineKept]

@[simp] theorem kept_pinUp (s : State) (n : Nat) : EngineKept s (pinUp s n) := by
  unfold pinUp
  simp [EngineKept]

@[simp] theorem kept_clearPins (s : State) : EngineKept s (clearPins s) := by
  unfold clearPins
  simp [EngineKept]

@[simp] theorem kept_closeSegment (s : State) (n : Nat) : EngineKept s (closeSegment s n) := by
  unfold closeSegment
  simp [EngineKept]

@[simp] theorem kept_countFault (s : State) (n : Nat) : EngineKept s (countFault s n) := by
  unfold countFault
  simp [EngineKept]

@[simp] theorem kept_emptyTable (s : State) : EngineKept s (emptyTable s) := by
  unfold emptyTable
  simp [EngineKept]

@[simp] theorem kept_killPart (s : State) (p : Part) : EngineKept s (killPart s p) := by
  unfold killPart
  simp [EngineKept]

@[simp] theorem kept_killPart_opt (s : State) (o : Option Part) : EngineKept s (killPart? s o) := by
  unfold killPart?; split <;> simp [EngineKept]

@[simp] theorem kept_publishCommitted (s : State) (key : Key) (p : Part) :
    EngineKept s (publishCommitted s key p) := by
  unfold publishCommitted
  simp [EngineKept]

@[simp] theorem kept_publishPending (s : State) (key : Key) (p : Part) : EngineKept s (publishPending s key p) := by
  unfold publishPending
  simp [EngineKept]

@[simp] theorem kept_promoteKey (s : State) (key : Key) : EngineKept s (promoteKey s key) := by
  unfold promoteKey; try dsimp only
  repeat' split
  all_goals simp [EngineKept]

@[simp] theorem kept_promoteAll (s : State) (ms : List Member) : EngineKept s (promoteAll s ms) := by
  unfold promoteAll
  induction ms generalizing s with
  | nil => simp [EngineKept]
  | cons m ms ih => rw [List.foldl_cons]; have h := ih (promoteKey s m.key); simp [EngineKept] at h ⊢; exact h

theorem kept_killAll (s : State) (ps : List Part) : EngineKept s (ps.foldl killPart s) := by
  induction ps generalizing s with
  | nil => simp [EngineKept]
  | cons p ps ih => rw [List.foldl_cons]; have h := ih (killPart s p); simp [EngineKept] at h ⊢; exact h

@[simp] theorem kept_dropPending (s : State) : EngineKept s (dropPending s) := by
  have h := kept_killAll s (s.dir.filterMap DirEntry.pending)
  unfold dropPending; simp [EngineKept] at h ⊢; exact h

@[simp] theorem kept_dropTombstone (s : State) (key : Key) : EngineKept s (dropTombstone s key) := by
  unfold dropTombstone
  simp [EngineKept]

@[simp] theorem kept_dirRepoint (s : State) (key : Key) (copy : Loc) : EngineKept s (dirRepoint s key copy) := by
  unfold dirRepoint
  simp [EngineKept]

@[simp] theorem kept_syncIdle (s : State) : EngineKept s (syncIdle s) := by
  unfold syncIdle
  simp [EngineKept]

@[simp] theorem kept_teardown (s : State) (own : Bool) : EngineKept s (teardown s own) := by
  unfold teardown; try dsimp only
  repeat' split
  all_goals simp [EngineKept]

@[simp] theorem kept_setTag (s : State) (t : Nat) (v : TagState) : EngineKept s (setTag s t v) := by
  unfold setTag
  simp [EngineKept]

@[simp] theorem kept_postHost (s : State) (t : Nat) (r : Result) : EngineKept s (postHost s t r) := by
  unfold postHost
  simp [EngineKept]

@[simp] theorem kept_setSlot (s : State) (b : Bool) (v : Slot) : EngineKept s (setSlot s b v) := by
  unfold setSlot; try dsimp only
  repeat' split
  all_goals simp [EngineKept]

@[simp] theorem kept_answerRunning (s : State) (b : Bool) (frame : List Byte) :
    EngineKept s (answerRunning s b frame) := by
  unfold answerRunning; try dsimp only
  repeat' split
  all_goals simp [EngineKept]

@[simp] theorem kept_postResult (s : State) (c : Ctx) (r : Result) : EngineKept s (postResult s c r) := by
  unfold postResult; try dsimp only
  repeat' split
  all_goals simp [EngineKept]

@[simp] theorem kept_complete (s : State) (r : Result) : EngineKept s (complete s r) := by
  unfold complete; try dsimp only
  repeat' split
  all_goals simp [EngineKept]

@[simp] theorem kept_completeFail (s : State) (st : Status) : EngineKept s (completeFail s st) := by
  unfold completeFail; try dsimp only
  repeat' split
  all_goals simp [EngineKept]

@[simp] theorem kept_modCtx (s : State) (f : Ctx → Ctx) : EngineKept s (modCtx s f) := by
  unfold modCtx
  simp [EngineKept]

@[simp] theorem kept_setStage (s : State) (st : Stage) : EngineKept s (setStage s st) := by
  unfold setStage
  simp [EngineKept]

@[simp] theorem kept_enterReadOnly (s : State) : EngineKept s (enterReadOnly s) := by
  unfold enterReadOnly; try dsimp only
  repeat' split
  all_goals simp [EngineKept]

@[simp] theorem kept_retireSegment (s : State) (n : Nat) : EngineKept s (retireSegment s n) := by
  unfold retireSegment; try dsimp only
  repeat' split
  all_goals simp [EngineKept]

@[simp] theorem kept_issue (s : State) (op : SeqOp) : EngineKept s (issue s op) := by
  unfold issue; try dsimp only
  repeat' split
  all_goals simp [EngineKept]

@[simp] theorem kept_prepIssue (s : State) (n : Nat) (p : PrepStage) (vid : Word) :
    EngineKept s (prepIssue s n p vid) := by
  unfold prepIssue; try dsimp only
  repeat' split
  all_goals simp [EngineKept]

@[simp] theorem kept_eraseEnded (s : State) (n : Nat) : EngineKept s (eraseEnded s n) := by
  unfold eraseEnded; try dsimp only
  repeat' split
  all_goals simp [EngineKept]

@[simp] theorem kept_segmentPrepared (s : State) (n : Nat) : EngineKept s (segmentPrepared s n) := by
  unfold segmentPrepared
  simp [EngineKept]

@[simp] theorem kept_prepReport (s : State) (n : Nat) (p : PrepStage) (vid : Word) (rep : Report) :
    EngineKept s (prepReport s n p vid rep).1 := by
  unfold prepReport; try dsimp only
  repeat' split
  all_goals simp [EngineKept]

@[simp] theorem kept_takeEpoch (s : State) : EngineKept s (takeEpoch s) := by
  unfold takeEpoch; try dsimp only
  repeat' split
  all_goals simp [EngineKept]

@[simp] theorem kept_closeOpen (s : State) : EngineKept s (closeOpen s) := by
  unfold closeOpen; try dsimp only
  repeat' split
  all_goals simp [EngineKept]

@[simp] theorem kept_startOpening (s : State) (n : Nat) (failed : Option Nat) :
    EngineKept s (startOpening s n failed).1 := by
  unfold startOpening
  simp [EngineKept]

@[simp] theorem kept_openReport (s : State) (o : Opening) (rep : Report) : EngineKept s (openReport s o rep).1 := by
  unfold openReport; try dsimp only
  repeat' split
  all_goals simp [EngineKept]

@[simp] theorem kept_assign (s : State) (l : Loc) : EngineKept s (assign s l) := by
  unfold assign; try dsimp only
  repeat' split
  all_goals simp [EngineKept]

@[simp] theorem kept_loseBatch (s : State) : EngineKept s (loseBatch s) := by
  unfold loseBatch; try dsimp only
  repeat' split
  all_goals simp [EngineKept]

@[simp] theorem kept_waitOrFull (s : State) : EngineKept s (waitOrFull s) := by
  unfold waitOrFull; try dsimp only
  repeat' split
  all_goals simp [EngineKept]

@[simp] theorem kept_admitCommand (s : State) (failed : Option Nat) : EngineKept s (admitCommand s failed) := by
  unfold admitCommand; try dsimp only
  repeat' split
  all_goals simp [EngineKept]

@[simp] theorem kept_abandonRecord (s : State) : EngineKept s (abandonRecord s) := by
  unfold abandonRecord; try dsimp only
  repeat' split
  all_goals simp [EngineKept]

@[simp] theorem kept_commitBatch (s : State) (c : Ctx) : EngineKept s (commitBatch s c) := by
  unfold commitBatch; try dsimp only
  repeat' split
  all_goals simp [EngineKept]

@[simp] theorem kept_publish (s : State) (c : Ctx) : EngineKept s (publish s c) := by
  cases h : c.cmd <;> simp only [publish, h]
  case put => split <;> simp [EngineKept]
  case delete => split <;> simp [EngineKept]
  all_goals simp [EngineKept]

@[simp] theorem kept_appendDone (s : State) (c : Ctx) : EngineKept s (appendDone s c) := by
  unfold appendDone; try dsimp only
  repeat' split
  all_goals simp [EngineKept]

@[simp] theorem kept_appendFault (s : State) (c : Ctx) : EngineKept s (appendFault s c) := by
  unfold appendFault; try dsimp only
  repeat' split
  all_goals simp [EngineKept]

@[simp] theorem kept_openingNext (r : State × OpenNext) (c : Ctx) (o : Opening) :
    EngineKept r.1 (openingNext r c o) := by
  unfold openingNext; try dsimp only
  repeat' split
  all_goals simp [EngineKept]

@[simp] theorem kept_appendReport (s : State) (c : Ctx) (rep : Report) : EngineKept s (appendReport s c rep) := by
  unfold appendReport; try dsimp only
  repeat' split
  all_goals simp [EngineKept]

@[simp] theorem kept_readContent (s : State) (l : Line) : EngineKept s (readContent s l).2 := by
  unfold readContent; split <;> simp [EngineKept]

@[simp] theorem kept_modJob (s : State) (f : ReadJob → ReadJob) : EngineKept s (modJob s f) := by
  unfold modJob
  simp [EngineKept]

@[simp] theorem kept_stagingWriteList (s : State) (b i : Nat) (v : List Byte) :
    EngineKept s (stagingWriteList s b i v) := by
  induction v generalizing s i with
  | nil => simp [EngineKept, stagingWriteList]
  | cons v vs ih => have h := ih (stagingWrite s b i v) (i + 1); simp [EngineKept, stagingWriteList] at h ⊢; exact h

@[simp] theorem kept_placeBytes (s : State) (c : Ctx) (buf i : Nat) (v : List Byte) :
    EngineKept s (placeBytes s c buf i v) := by
  unfold placeBytes; try dsimp only
  repeat' split
  all_goals simp [EngineKept]

@[simp] theorem kept_startGet (s : State) (key : Key) : EngineKept s (startGet s key) := by
  unfold startGet; try dsimp only
  repeat' split
  all_goals simp [EngineKept]

@[simp] theorem kept_getReport (s : State) (c : Ctx) (buf : Nat) (l : Line) :
    EngineKept s (getReport s c buf l) := by
  unfold getReport; try dsimp only
  repeat' split
  all_goals simp [EngineKept]

@[simp] theorem kept_listNext (s : State) (key : Key) (p : Part) : EngineKept s (listNext s key p) := by
  unfold listNext
  simp [EngineKept]

@[simp] theorem kept_startList (s : State) (after : Key) : EngineKept s (startList s after) := by
  unfold startList; try dsimp only
  repeat' split
  all_goals simp [EngineKept]

@[simp] theorem kept_listReport (s : State) (c : Ctx) (buf count : Nat) (l : Line) :
    EngineKept s (listReport s c buf count l) := by
  unfold listReport; try dsimp only
  repeat' split
  all_goals simp [EngineKept]

@[simp] theorem kept_modRc (s : State) (f : Reclaim → Reclaim) : EngineKept s (modRc s f) := by
  unfold modRc
  simp [EngineKept]

@[simp] theorem kept_startVictim (s : State) (v : Nat) : EngineKept s (startVictim s v) := by
  unfold startVictim
  simp [EngineKept]

@[simp] theorem kept_returnVictim (s : State) (v : Nat) : EngineKept s (returnVictim s v) := by
  unfold returnVictim
  simp [EngineKept]

@[simp] theorem kept_tellTrigger (s : State) (res : Result) : EngineKept s (tellTrigger s res) := by
  unfold tellTrigger; try dsimp only
  repeat' split
  all_goals simp [EngineKept]

@[simp] theorem kept_victimLeaves (s : State) (r : Reclaim) (e : VictimEnd) :
    EngineKept s (victimLeaves s r e) := by
  unfold victimLeaves; try dsimp only
  repeat' split
  all_goals simp [EngineKept]

@[simp] theorem kept_releaseStep (s : State) : EngineKept s (releaseStep s) := by
  unfold releaseStep
  simp [EngineKept]

@[simp] theorem kept_passRecord (s : State) (e : Nat) : EngineKept s (passRecord s e) := by
  unfold passRecord
  simp [EngineKept]

@[simp] theorem kept_endWalk (s : State) : EngineKept s (endWalk s) := by
  unfold endWalk
  simp [EngineKept]

@[simp] theorem kept_dropRecord (s : State) (h : Hdr) (l : Loc) : EngineKept s (dropRecord s h l) := by
  unfold dropRecord; try dsimp only
  repeat' split
  all_goals simp [EngineKept]

@[simp] theorem kept_placeCopy (s : State) (a : Attempt) (l : Loc) : EngineKept s (placeCopy s a l) := by
  unfold placeCopy
  simp [EngineKept]

@[simp] theorem kept_admitCopy (s : State) (r : Reclaim) (a : Attempt) (failed : Option Nat) :
    EngineKept s (admitCopy s r a failed) := by
  unfold admitCopy; try dsimp only
  repeat' split
  all_goals simp [EngineKept]

@[simp] theorem kept_buildCopy (s : State) (r : Reclaim) (a : Attempt) : EngineKept s (buildCopy s r a) := by
  unfold buildCopy
  simp [EngineKept]

@[simp] theorem kept_startCopy (s : State) (r : Reclaim) (h : Hdr) (l : Loc) :
    EngineKept s (startCopy s r h l) := by
  unfold startCopy; try dsimp only
  repeat' split
  all_goals simp [EngineKept]

@[simp] theorem kept_copyData (s : State) (r : Reclaim) (a : Attempt) (k : Nat) (l : Line) :
    EngineKept s (copyData s r a k l) := by
  unfold copyData; try dsimp only
  repeat' split
  all_goals simp [EngineKept]

@[simp] theorem kept_repoint (s : State) (a : Attempt) : EngineKept s (repoint s a) := by
  unfold repoint; try dsimp only
  repeat' split
  all_goals simp [EngineKept]

@[simp] theorem kept_copyComplete (s : State) (r : Reclaim) (a : Attempt) : EngineKept s (copyComplete s r a) := by
  unfold copyComplete; try dsimp only
  repeat' split
  all_goals simp [EngineKept]

@[simp] theorem kept_copyDone (s : State) (r : Reclaim) (a : Attempt) (k : Nat) :
    EngineKept s (copyDone s r a k) := by
  unfold copyDone; try dsimp only
  repeat' split
  all_goals simp [EngineKept]

@[simp] theorem kept_copyFault (s : State) (r : Reclaim) (a : Attempt) : EngineKept s (copyFault s r a) := by
  unfold copyFault; try dsimp only
  repeat' split
  all_goals simp [EngineKept]

@[simp] theorem kept_copyOpening (x : State × OpenNext) (r : Reclaim) (a : Attempt) (o : Opening) :
    EngineKept x.1 (copyOpening x r a o) := by
  unfold copyOpening; try dsimp only
  repeat' split
  all_goals simp [EngineKept]

@[simp] theorem kept_walkHeader (s : State) (r : Reclaim) (l : Line) : EngineKept s (walkHeader s r l) := by
  unfold walkHeader; try dsimp only
  repeat' split
  all_goals simp [EngineKept]

@[simp] theorem kept_finishReport (s : State) (r : Reclaim) (p : PrepStage) (rep : Report) :
    EngineKept s (finishReport s r p rep) := by
  unfold finishReport; try dsimp only
  repeat' split
  all_goals simp [EngineKept]

@[simp] theorem kept_reclaimReport (s : State) (r : Reclaim) (rep : Report) :
    EngineKept s (reclaimReport s r rep) := by
  unfold reclaimReport; try dsimp only
  repeat' split
  all_goals simp [EngineKept]

@[simp] theorem kept_walkStep (s : State) (r : Reclaim) : EngineKept s (walkStep s r) := by
  unfold walkStep; try dsimp only
  repeat' split
  all_goals simp [EngineKept]

@[simp] theorem kept_grantWalk (s : State) : EngineKept s (grantWalk s) := by
  unfold grantWalk; try dsimp only
  repeat' split
  all_goals simp [EngineKept]

@[simp] theorem kept_grantFinish (s : State) : EngineKept s (grantFinish s) := by
  unfold grantFinish; try dsimp only
  repeat' split
  all_goals simp [EngineKept]

@[simp] theorem kept_reclaimWalkStep (s : State) : EngineKept s (reclaimWalkStep s) := by
  unfold reclaimWalkStep; try dsimp only
  repeat' split
  all_goals simp [EngineKept]

@[simp] theorem kept_reclaimFinishStep (s : State) : EngineKept s (reclaimFinishStep s) := by
  unfold reclaimFinishStep; try dsimp only
  repeat' split
  all_goals simp [EngineKept]

@[simp] theorem kept_startReclaim (s : State) : EngineKept s (startReclaim s) := by
  unfold startReclaim; try dsimp only
  repeat' split
  all_goals simp [EngineKept]

@[simp] theorem kept_modMu (s : State) (f : MountUnit → MountUnit) : EngineKept s (modMu s f) := by
  unfold modMu
  simp [EngineKept]

@[simp] theorem kept_emptyTables (s : State) : EngineKept s (emptyTables s) := by
  unfold emptyTables
  simp [EngineKept]

@[simp] theorem kept_mountStart (s : State) : EngineKept s (mountStart s) := by
  unfold mountStart
  simp [EngineKept]

@[simp] theorem kept_tellMounter (s : State) (r : Result) : EngineKept s (tellMounter s r) := by
  unfold tellMounter; try dsimp only
  repeat' split
  all_goals simp [EngineKept]

@[simp] theorem kept_mountEnd (s : State) (m : MountResult) : EngineKept s (mountEnd s m) := by
  unfold mountEnd; try dsimp only
  repeat' split
  all_goals simp [EngineKept]

@[simp] theorem kept_settleNext (s : State) : EngineKept s (settleNext s) := by
  unfold settleNext; try dsimp only
  repeat' split
  all_goals simp [EngineKept]

@[simp] theorem kept_settleReport (s : State) (rep : Report) : EngineKept s (settleReport s rep) := by
  unfold settleReport; try dsimp only
  repeat' split
  all_goals simp [EngineKept]

@[simp] theorem kept_account (s : State) : EngineKept s (account s) := by
  unfold account
  simp [EngineKept]

@[simp] theorem kept_replayEnd (s : State) : EngineKept s (replayEnd s) := by
  unfold replayEnd; try dsimp only
  repeat' split
  all_goals simp [EngineKept]

@[simp] theorem kept_replayNext (s : State) : EngineKept s (replayNext s) := by
  unfold replayNext; try dsimp only
  repeat' split
  all_goals simp [EngineKept]

@[simp] theorem kept_applyPart (s : State) (key : Key) (p : Part) : EngineKept s (applyPart s key p) := by
  unfold applyPart; try dsimp only
  repeat' split
  all_goals simp [EngineKept]

@[simp] theorem kept_replayJudged (s : State) (f : FoundRec) (after : List Line) :
    EngineKept s (replayJudged s f after) := by
  unfold replayJudged; try dsimp only
  repeat' split
  all_goals simp [EngineKept]

@[simp] theorem kept_replayReport (s : State) (l : Line) : EngineKept s (replayReport s l) := by
  unfold replayReport; try dsimp only
  repeat' split
  all_goals simp [EngineKept]

@[simp] theorem kept_collectEnd (s : State) : EngineKept s (collectEnd s) := by
  unfold collectEnd
  simp [EngineKept]

@[simp] theorem kept_scanAt (s : State) (l : Loc) : EngineKept s (scanAt s l) := by
  unfold scanAt
  simp [EngineKept]

@[simp] theorem kept_scanSegmentEnd (s : State) (n wp : Nat) (stop : Bool) :
    EngineKept s (scanSegmentEnd s n wp stop) := by
  unfold scanSegmentEnd; try dsimp only
  repeat' split
  all_goals simp [EngineKept]

@[simp] theorem kept_scanAdvance (s : State) (l : Loc) (e : Nat) : EngineKept s (scanAdvance s l e) := by
  unfold scanAdvance; try dsimp only
  repeat' split
  all_goals simp [EngineKept]

@[simp] theorem kept_scanHeader (s : State) (l : Loc) (c : Line) : EngineKept s (scanHeader s l c) := by
  unfold scanHeader; try dsimp only
  repeat' split
  all_goals simp [EngineKept]

@[simp] theorem kept_enterCommit (s : State) (f : FoundRec) (bid : Word) : EngineKept s (enterCommit s f bid) := by
  unfold enterCommit
  simp [EngineKept]

@[simp] theorem kept_collectJudged (s : State) (f : FoundRec) (after : List Line) :
    EngineKept s (collectJudged s f after) := by
  unfold collectJudged; try dsimp only
  repeat' split
  all_goals simp [EngineKept]

@[simp] theorem kept_collectReport (s : State) (l : Line) : EngineKept s (collectReport s l) := by
  unfold collectReport; try dsimp only
  repeat' split
  all_goals simp [EngineKept]

@[simp] theorem kept_surveyVerdict (s : State) : EngineKept s (surveyVerdict s) := by
  unfold surveyVerdict; try dsimp only
  repeat' split
  all_goals simp [EngineKept]

@[simp] theorem kept_surveyNext (s : State) (n : Nat) : EngineKept s (surveyNext s n) := by
  unfold surveyNext; try dsimp only
  repeat' split
  all_goals simp [EngineKept]

@[simp] theorem kept_addEntry (s : State) (n : Nat) (st : SegState) (ec : Nat) (known : Bool) :
    EngineKept s (addEntry s n st ec known) := by
  unfold addEntry
  simp [EngineKept]

@[simp] theorem kept_surveyLine0 (s : State) (n : Nat) (l : Line) : EngineKept s (surveyLine0 s n l) := by
  unfold surveyLine0; try dsimp only
  repeat' split
  all_goals simp [EngineKept]

@[simp] theorem kept_surveyLine1 (s : State) (n : Nat) (l : Line) : EngineKept s (surveyLine1 s n l) := by
  unfold surveyLine1; try dsimp only
  repeat' split
  all_goals simp [EngineKept]

@[simp] theorem kept_surveyReport (s : State) (loc : Loc) (l : Line) : EngineKept s (surveyReport s loc l) := by
  unfold surveyReport; try dsimp only
  repeat' split
  all_goals simp [EngineKept]

@[simp] theorem kept_mountReport (s : State) (loc : Loc) (rep : Report) : EngineKept s (mountReport s loc rep) := by
  unfold mountReport; try dsimp only
  repeat' split
  all_goals simp [EngineKept]

@[simp] theorem kept_setFu (s : State) (f : FormatCtx) : EngineKept s (setFu s f) := by
  unfold setFu
  simp [EngineKept]

@[simp] theorem kept_formatEnd (s : State) : EngineKept s (formatEnd s) := by
  unfold formatEnd; try dsimp only
  repeat' split
  all_goals simp [EngineKept]

@[simp] theorem kept_step2Next (s : State) (f : FormatCtx) : EngineKept s (step2Next s f) := by
  unfold step2Next; try dsimp only
  repeat' split
  all_goals simp [EngineKept]

@[simp] theorem kept_step1Next (s : State) (f : FormatCtx) : EngineKept s (step1Next s f) := by
  unfold step1Next; try dsimp only
  repeat' split
  all_goals simp [EngineKept]

@[simp] theorem kept_step1Opened (s : State) (f : FormatCtx) (n : Nat) : EngineKept s (step1Opened s f n) := by
  unfold step1Opened
  simp [EngineKept]

@[simp] theorem kept_formatPrepared (s : State) (f : FormatCtx) (n : Nat) (first : Bool) :
    EngineKept s (formatPrepared s f n first) := by
  unfold formatPrepared; try dsimp only
  repeat' split
  all_goals simp [EngineKept]

@[simp] theorem kept_formatRetired (s : State) (f : FormatCtx) (n : Nat) (first : Bool) :
    EngineKept s (formatRetired s f n first) := by
  unfold formatRetired; try dsimp only
  repeat' split
  all_goals simp [EngineKept]

@[simp] theorem kept_formatStage (s : State) (f : FormatCtx) (n : Nat) (first : Bool) (p : PrepStage) :
    EngineKept s (formatStage s f n first p) := by
  unfold formatStage; try dsimp only
  repeat' split
  all_goals simp [EngineKept]

@[simp] theorem kept_formatSegment (s : State) (f : FormatCtx) (n : Nat) (first : Bool) (p : PrepStage) (rep : Report) :
    EngineKept s (formatSegment s f n first p rep) := by
  unfold formatSegment; try dsimp only
  repeat' split
  all_goals simp [EngineKept]

@[simp] theorem kept_formatReport (s : State) (f : FormatCtx) (rep : Report) :
    EngineKept s (formatReport s f rep) := by
  unfold formatReport; try dsimp only
  repeat' split
  all_goals simp [EngineKept]

@[simp] theorem kept_formatEnter (s : State) (f : FormatCtx) (mounted : Bool) :
    EngineKept s (formatEnter s f mounted) := by
  unfold formatEnter
  simp [EngineKept]

@[simp] theorem kept_formatCheckReport (s : State) (f : FormatCtx) (n : Nat) (l : Line) :
    EngineKept s (formatCheckReport s f n l) := by
  unfold formatCheckReport; try dsimp only
  repeat' split
  all_goals simp [EngineKept]

@[simp] theorem kept_startFormat (s : State) (expected newId : Word) :
    EngineKept s (startFormat s expected newId) := by
  unfold startFormat; try dsimp only
  repeat' split
  all_goals simp [EngineKept]

@[simp] theorem kept_runUnmount (s : State) : EngineKept s (runUnmount s) := by
  unfold runUnmount
  simp [EngineKept]

@[simp] theorem kept_haltEnd (s : State) (c : Ctx) : EngineKept s (haltEnd s c) := by
  unfold haltEnd; try dsimp only
  repeat' split
  all_goals simp [EngineKept]

@[simp] theorem kept_reclaimStopped (s : State) (st : Status) : EngineKept s (reclaimStopped s st) := by
  unfold reclaimStopped; try dsimp only
  repeat' split
  all_goals simp [EngineKept]

@[simp] theorem kept_haltCommand (s : State) : EngineKept s (haltCommand s) := by
  unfold haltCommand; try dsimp only
  repeat' split
  all_goals simp [EngineKept]

@[simp] theorem kept_haltReclaim (s : State) : EngineKept s (haltReclaim s) := by
  unfold haltReclaim; try dsimp only
  repeat' split
  all_goals simp [EngineKept]

theorem kept_postAll (s : State) (l : List QEntry) (r : Result) :
    EngineKept s (l.foldl (fun t q => postHost t q.tag r) s) := by
  induction l generalizing s with
  | nil => simp [EngineKept]
  | cons q l ih => rw [List.foldl_cons]; have h := ih (postHost s q.tag r); simp [EngineKept] at h ⊢; exact h

@[simp] theorem kept_flushQueue (s : State) : EngineKept s (flushQueue s) := by
  have h := kept_postAll s s.host.queue (Result.bare .halted)
  unfold flushQueue; simp [EngineKept] at h ⊢; exact h

@[simp] theorem kept_answerWaiting (s : State) (b : Bool) (status : Byte) :
    EngineKept s (answerWaiting s b status) := by
  unfold answerWaiting; try dsimp only
  repeat' split
  all_goals simp [EngineKept]

@[simp] theorem kept_answerBothWaiting (s : State) (status : Byte) : EngineKept s (answerBothWaiting s status) := by
  unfold answerBothWaiting
  simp [EngineKept]

@[simp] theorem kept_haltEntry (s : State) : EngineKept s (haltEntry s) := by
  unfold haltEntry
  simp [EngineKept]

@[simp] theorem kept_haltIfDue (s : State) : EngineKept s (haltIfDue s) := by
  unfold haltIfDue; try dsimp only
  repeat' split
  all_goals simp [EngineKept]

@[simp] theorem kept_commandReport (s : State) (loc : Loc) (rep : Report) :
    EngineKept s (commandReport s loc rep) := by
  unfold commandReport; try dsimp only
  repeat' split
  all_goals simp [EngineKept]

@[simp] theorem kept_onReport (s : State) (loc : Loc) (rep : Report) : EngineKept s (onReport s loc rep) := by
  unfold onReport; try dsimp only
  repeat' split
  all_goals simp [EngineKept]

@[simp] theorem kept_deliver (s : State) (loc : Loc) (rep : Report) : EngineKept s (deliver s loc rep) := by
  unfold deliver
  simp [EngineKept]

@[simp] theorem kept_settleRefused (n : Nat) (s : State) : EngineKept s (settleRefused n s) := by
  induction n generalizing s with
  | zero => simp [EngineKept, settleRefused]
  | succ n ih =>
    unfold settleRefused
    split
    · split
      · simp [EngineKept]
      · rename_i l c hs hl
        have h := ih (deliver { s with seqr := none } l (.programFault .refused))
        simp [EngineKept] at h ⊢; exact h
    · simp [EngineKept]

@[simp] theorem kept_checkThenAppend (s : State) : EngineKept s (checkThenAppend s) := by
  unfold checkThenAppend; try dsimp only
  repeat' split
  all_goals simp [EngineKept]

@[simp] theorem kept_startWrite (s : State) (p : Port) (key : Key) (member del : Bool) :
    EngineKept s (startWrite s p key member del) := by
  unfold startWrite; try dsimp only
  repeat' split
  all_goals simp [EngineKept]

@[simp] theorem kept_startBatchOpen (s : State) (p : Port) : EngineKept s (startBatchOpen s p) := by
  unfold startBatchOpen; try dsimp only
  repeat' split
  all_goals simp [EngineKept]

@[simp] theorem kept_startBatchCommit (s : State) (p : Port) : EngineKept s (startBatchCommit s p) := by
  unfold startBatchCommit; try dsimp only
  repeat' split
  all_goals simp [EngineKept]

@[simp] theorem kept_startBatchAbort (s : State) (p : Port) : EngineKept s (startBatchAbort s p) := by
  unfold startBatchAbort; try dsimp only
  repeat' split
  all_goals simp [EngineKept]

@[simp] theorem kept_startFreeze (s : State) (lo hi : Key) : EngineKept s (startFreeze s lo hi) := by
  unfold startFreeze; try dsimp only
  repeat' split
  all_goals simp [EngineKept]

@[simp] theorem kept_startMount (s : State) : EngineKept s (startMount s) := by
  unfold startMount; try dsimp only
  repeat' split
  all_goals simp [EngineKept]

@[simp] theorem kept_runCommand (s : State) (p : Port) (cmd : Cmd) : EngineKept s (runCommand s p cmd) := by
  unfold runCommand; try dsimp only
  repeat' split
  all_goals simp [EngineKept]

@[simp] theorem kept_execute (s : State) (c : Ctx) : EngineKept s (execute s c) := by
  unfold execute; try dsimp only
  repeat' split
  all_goals simp [EngineKept]

@[simp] theorem kept_takeHost (s : State) (q : QEntry) : EngineKept s (takeHost s q) := by
  unfold takeHost
  simp [EngineKept]

@[simp] theorem kept_takeMgmt (s : State) (b : Bool) : EngineKept s (takeMgmt s b) := by
  unfold takeMgmt; try dsimp only
  repeat' split
  all_goals simp [EngineKept]

@[simp] theorem kept_chooseHead (s : State) : EngineKept s (chooseHead s) := by
  unfold chooseHead; try dsimp only
  repeat' split
  all_goals simp [EngineKept]

@[simp] theorem kept_runGranted (s : State) : EngineKept s (runGranted s) := by
  unfold runGranted; try dsimp only
  repeat' split
  all_goals simp [EngineKept]

@[simp] theorem kept_arbiterGrant (s : State) : EngineKept s (arbiterGrant s) := by
  unfold arbiterGrant; try dsimp only
  repeat' split
  all_goals simp [EngineKept]

@[simp] theorem kept_waitSpaceResume (s : State) : EngineKept s (waitSpaceResume s) := by
  unfold waitSpaceResume; try dsimp only
  repeat' split
  all_goals simp [EngineKept]

end Sys2Proof.Machine
end

