-- ==== Sys2Proof/Laws/Alerts.lean ====
section
/-! SUPPORT. No unit of the store engine and no operation of the ports but an ALERT write clears an alert flag (R191), and none
but
a read of DIRCNT low changes the DIRCNT holding byte (R180): one lemma per operation, tagged simp. -/

namespace Sys2Proof.Machine

/-- A flag that is set stays set. -/
abbrev FlagsKept (s t : State) : Prop := ∀ i, s.alert.flags.getLsbD i = true → t.alert.flags.getLsbD i = true

@[simp] theorem flags_raise (s : State) (a : Alert) : FlagsKept s (raise s a) := by
  intro i h; simp [raise, h]

@[simp] theorem flags_stagingWrite (s : State) (b i : Nat) (v : Byte) : FlagsKept s (stagingWrite s b i v) := by
  unfold stagingWrite
  simp (maxDischargeDepth := 20) +contextual [FlagsKept]

@[simp] theorem flags_segUpd (s : State) (n : Nat) (f : SegEntry → SegEntry) : FlagsKept s (segUpd s n f) := by
  unfold segUpd; try dsimp only
  repeat' split
  all_goals simp (maxDischargeDepth := 20) +contextual [FlagsKept]

@[simp] theorem flags_setSegState (s : State) (n : Nat) (st : SegState) : FlagsKept s (setSegState s n st) := by
  unfold setSegState
  simp (maxDischargeDepth := 20) +contextual [FlagsKept]

@[simp] theorem flags_journalUpd (s : State) (n : Nat) (f : Journal → Journal) :
    FlagsKept s (journalUpd s n f) := by
  unfold journalUpd
  simp (maxDischargeDepth := 20) +contextual [FlagsKept]

@[simp] theorem flags_accountLive (s : State) (n e : Nat) : FlagsKept s (accountLive s n e) := by
  unfold accountLive
  simp (maxDischargeDepth := 20) +contextual [FlagsKept]

@[simp] theorem flags_accountDead (s : State) (n e : Nat) : FlagsKept s (accountDead s n e) := by
  unfold accountDead
  simp (maxDischargeDepth := 20) +contextual [FlagsKept]

@[simp] theorem flags_killLines (s : State) (n e : Nat) : FlagsKept s (killLines s n e) := by
  unfold killLines
  simp (maxDischargeDepth := 20) +contextual [FlagsKept]

@[simp] theorem flags_pinUp (s : State) (n : Nat) : FlagsKept s (pinUp s n) := by
  unfold pinUp
  simp (maxDischargeDepth := 20) +contextual [FlagsKept]

@[simp] theorem flags_clearPins (s : State) : FlagsKept s (clearPins s) := by
  unfold clearPins
  simp (maxDischargeDepth := 20) +contextual [FlagsKept]

@[simp] theorem flags_closeSegment (s : State) (n : Nat) : FlagsKept s (closeSegment s n) := by
  unfold closeSegment
  simp (maxDischargeDepth := 20) +contextual [FlagsKept]

@[simp] theorem flags_countFault (s : State) (n : Nat) : FlagsKept s (countFault s n) := by
  unfold countFault
  simp (maxDischargeDepth := 20) +contextual [FlagsKept]

@[simp] theorem flags_emptyTable (s : State) : FlagsKept s (emptyTable s) := by
  unfold emptyTable
  simp (maxDischargeDepth := 20) +contextual [FlagsKept]

@[simp] theorem flags_killPart (s : State) (p : Part) : FlagsKept s (killPart s p) := by
  unfold killPart
  simp (maxDischargeDepth := 20) +contextual [FlagsKept]

@[simp] theorem flags_killPart_opt (s : State) (o : Option Part) : FlagsKept s (killPart? s o) := by
  unfold killPart?; split <;> simp (maxDischargeDepth := 20) +contextual [FlagsKept]

@[simp] theorem flags_publishCommitted (s : State) (key : Key) (p : Part) :
    FlagsKept s (publishCommitted s key p) := by
  unfold publishCommitted
  simp (maxDischargeDepth := 20) +contextual [FlagsKept]

@[simp] theorem flags_publishPending (s : State) (key : Key) (p : Part) : FlagsKept s (publishPending s key p) := by
  unfold publishPending
  simp (maxDischargeDepth := 20) +contextual [FlagsKept]

@[simp] theorem flags_promoteKey (s : State) (key : Key) : FlagsKept s (promoteKey s key) := by
  unfold promoteKey; try dsimp only
  repeat' split
  all_goals simp (maxDischargeDepth := 20) +contextual [FlagsKept]

@[simp] theorem flags_promoteAll (s : State) (ms : List Member) : FlagsKept s (promoteAll s ms) := by
  unfold promoteAll
  induction ms generalizing s with
  | nil => simp (maxDischargeDepth := 20) +contextual [FlagsKept]
  | cons m ms ih =>
    rw [List.foldl_cons]
    have h := ih (promoteKey s m.key)
    simp +contextual [FlagsKept] at h ⊢
    exact fun i hi => h i (by simp +contextual [hi])

theorem flags_killAll (s : State) (ps : List Part) : FlagsKept s (ps.foldl killPart s) := by
  induction ps generalizing s with
  | nil => simp (maxDischargeDepth := 20) +contextual [FlagsKept]
  | cons p ps ih =>
    rw [List.foldl_cons]
    have h := ih (killPart s p)
    simp +contextual [FlagsKept] at h ⊢
    exact fun i hi => h i (by simp +contextual [hi])

@[simp] theorem flags_dropPending (s : State) : FlagsKept s (dropPending s) := by
  have h := flags_killAll s (s.dir.filterMap DirEntry.pending)
  unfold dropPending; simp +contextual [FlagsKept] at h ⊢; exact fun i hi => h i (by simp +contextual [hi])

@[simp] theorem flags_dropTombstone (s : State) (key : Key) : FlagsKept s (dropTombstone s key) := by
  unfold dropTombstone
  simp (maxDischargeDepth := 20) +contextual [FlagsKept]

@[simp] theorem flags_dirRepoint (s : State) (key : Key) (copy : Loc) : FlagsKept s (dirRepoint s key copy) := by
  unfold dirRepoint
  simp (maxDischargeDepth := 20) +contextual [FlagsKept]

@[simp] theorem flags_syncIdle (s : State) : FlagsKept s (syncIdle s) := by
  unfold syncIdle
  simp (maxDischargeDepth := 20) +contextual [FlagsKept]

@[simp] theorem flags_teardown (s : State) (own : Bool) : FlagsKept s (teardown s own) := by
  unfold teardown; try dsimp only
  repeat' split
  all_goals simp (maxDischargeDepth := 20) +contextual [FlagsKept]

@[simp] theorem flags_setTag (s : State) (t : Nat) (v : TagState) : FlagsKept s (setTag s t v) := by
  unfold setTag
  simp (maxDischargeDepth := 20) +contextual [FlagsKept]

@[simp] theorem flags_postHost (s : State) (t : Nat) (r : Result) : FlagsKept s (postHost s t r) := by
  unfold postHost
  simp (maxDischargeDepth := 20) +contextual [FlagsKept]

@[simp] theorem flags_setSlot (s : State) (b : Bool) (v : Slot) : FlagsKept s (setSlot s b v) := by
  unfold setSlot; try dsimp only
  repeat' split
  all_goals simp (maxDischargeDepth := 20) +contextual [FlagsKept]

@[simp] theorem flags_answerRunning (s : State) (b : Bool) (frame : List Byte) :
    FlagsKept s (answerRunning s b frame) := by
  unfold answerRunning; try dsimp only
  repeat' split
  all_goals simp (maxDischargeDepth := 20) +contextual [FlagsKept]

@[simp] theorem flags_postResult (s : State) (c : Ctx) (r : Result) : FlagsKept s (postResult s c r) := by
  unfold postResult; try dsimp only
  repeat' split
  all_goals simp (maxDischargeDepth := 20) +contextual [FlagsKept]

@[simp] theorem flags_complete (s : State) (r : Result) : FlagsKept s (complete s r) := by
  unfold complete; try dsimp only
  repeat' split
  all_goals simp (maxDischargeDepth := 20) +contextual [FlagsKept]

@[simp] theorem flags_completeFail (s : State) (st : Status) : FlagsKept s (completeFail s st) := by
  unfold completeFail; try dsimp only
  repeat' split
  all_goals simp (maxDischargeDepth := 20) +contextual [FlagsKept]

@[simp] theorem flags_modCtx (s : State) (f : Ctx → Ctx) : FlagsKept s (modCtx s f) := by
  unfold modCtx
  simp (maxDischargeDepth := 20) +contextual [FlagsKept]

@[simp] theorem flags_setStage (s : State) (st : Stage) : FlagsKept s (setStage s st) := by
  unfold setStage
  simp (maxDischargeDepth := 20) +contextual [FlagsKept]

@[simp] theorem flags_enterReadOnly (s : State) : FlagsKept s (enterReadOnly s) := by
  unfold enterReadOnly; try dsimp only
  repeat' split
  all_goals simp (maxDischargeDepth := 20) +contextual [FlagsKept]

@[simp] theorem flags_retireSegment (s : State) (n : Nat) : FlagsKept s (retireSegment s n) := by
  unfold retireSegment; try dsimp only
  repeat' split
  all_goals simp (maxDischargeDepth := 20) +contextual [FlagsKept]

@[simp] theorem flags_issue (s : State) (op : SeqOp) : FlagsKept s (issue s op) := by
  unfold issue; try dsimp only
  repeat' split
  all_goals simp (maxDischargeDepth := 20) +contextual [FlagsKept]

@[simp] theorem flags_prepIssue (s : State) (n : Nat) (p : PrepStage) (vid : Word) :
    FlagsKept s (prepIssue s n p vid) := by
  unfold prepIssue; try dsimp only
  repeat' split
  all_goals simp (maxDischargeDepth := 20) +contextual [FlagsKept]

@[simp] theorem flags_eraseEnded (s : State) (n : Nat) : FlagsKept s (eraseEnded s n) := by
  unfold eraseEnded; try dsimp only
  repeat' split
  all_goals simp (maxDischargeDepth := 20) +contextual [FlagsKept]

@[simp] theorem flags_segmentPrepared (s : State) (n : Nat) : FlagsKept s (segmentPrepared s n) := by
  unfold segmentPrepared
  simp (maxDischargeDepth := 20) +contextual [FlagsKept]

@[simp] theorem flags_prepReport (s : State) (n : Nat) (p : PrepStage) (vid : Word) (rep : Report) :
    FlagsKept s (prepReport s n p vid rep).1 := by
  unfold prepReport; try dsimp only
  repeat' split
  all_goals simp (maxDischargeDepth := 20) +contextual [FlagsKept]

@[simp] theorem flags_takeEpoch (s : State) : FlagsKept s (takeEpoch s) := by
  unfold takeEpoch; try dsimp only
  repeat' split
  all_goals simp (maxDischargeDepth := 20) +contextual [FlagsKept]

@[simp] theorem flags_closeOpen (s : State) : FlagsKept s (closeOpen s) := by
  unfold closeOpen; try dsimp only
  repeat' split
  all_goals simp (maxDischargeDepth := 20) +contextual [FlagsKept]

@[simp] theorem flags_startOpening (s : State) (n : Nat) (failed : Option Nat) :
    FlagsKept s (startOpening s n failed).1 := by
  unfold startOpening
  simp (maxDischargeDepth := 20) +contextual [FlagsKept]

@[simp] theorem flags_openReport (s : State) (o : Opening) (rep : Report) : FlagsKept s (openReport s o rep).1 := by
  unfold openReport; try dsimp only
  repeat' split
  all_goals simp (maxDischargeDepth := 20) +contextual [FlagsKept]

@[simp] theorem flags_assign (s : State) (l : Loc) : FlagsKept s (assign s l) := by
  unfold assign; try dsimp only
  repeat' split
  all_goals simp (maxDischargeDepth := 20) +contextual [FlagsKept]

@[simp] theorem flags_loseBatch (s : State) : FlagsKept s (loseBatch s) := by
  unfold loseBatch; try dsimp only
  repeat' split
  all_goals simp (maxDischargeDepth := 20) +contextual [FlagsKept]

@[simp] theorem flags_waitOrFull (s : State) : FlagsKept s (waitOrFull s) := by
  unfold waitOrFull; try dsimp only
  repeat' split
  all_goals simp (maxDischargeDepth := 20) +contextual [FlagsKept]

@[simp] theorem flags_admitCommand (s : State) (failed : Option Nat) : FlagsKept s (admitCommand s failed) := by
  unfold admitCommand; try dsimp only
  repeat' split
  all_goals simp (maxDischargeDepth := 20) +contextual [FlagsKept]

@[simp] theorem flags_abandonRecord (s : State) : FlagsKept s (abandonRecord s) := by
  unfold abandonRecord; try dsimp only
  repeat' split
  all_goals simp (maxDischargeDepth := 20) +contextual [FlagsKept]

@[simp] theorem flags_commitBatch (s : State) (c : Ctx) : FlagsKept s (commitBatch s c) := by
  unfold commitBatch; try dsimp only
  repeat' split
  all_goals simp (maxDischargeDepth := 20) +contextual [FlagsKept]

@[simp] theorem flags_publish (s : State) (c : Ctx) : FlagsKept s (publish s c) := by
  cases h : c.cmd <;> simp only [publish, h]
  case put => split <;> simp (maxDischargeDepth := 20) +contextual [FlagsKept]
  case delete => split <;> simp (maxDischargeDepth := 20) +contextual [FlagsKept]
  all_goals simp (maxDischargeDepth := 20) +contextual [FlagsKept]

@[simp] theorem flags_appendDone (s : State) (c : Ctx) : FlagsKept s (appendDone s c) := by
  unfold appendDone; try dsimp only
  repeat' split
  all_goals simp (maxDischargeDepth := 20) +contextual [FlagsKept]

@[simp] theorem flags_appendFault (s : State) (c : Ctx) : FlagsKept s (appendFault s c) := by
  unfold appendFault; try dsimp only
  repeat' split
  all_goals simp (maxDischargeDepth := 20) +contextual [FlagsKept]

@[simp] theorem flags_openingNext (r : State × OpenNext) (c : Ctx) (o : Opening) :
    FlagsKept r.1 (openingNext r c o) := by
  unfold openingNext; try dsimp only
  repeat' split
  all_goals simp (maxDischargeDepth := 20) +contextual [FlagsKept]

@[simp] theorem flags_appendReport (s : State) (c : Ctx) (rep : Report) : FlagsKept s (appendReport s c rep) := by
  unfold appendReport; try dsimp only
  repeat' split
  all_goals simp (maxDischargeDepth := 20) +contextual [FlagsKept]

@[simp] theorem flags_readContent (s : State) (l : Line) : FlagsKept s (readContent s l).2 := by
  unfold readContent; split <;> simp (maxDischargeDepth := 20) +contextual [FlagsKept]

@[simp] theorem flags_modJob (s : State) (f : ReadJob → ReadJob) : FlagsKept s (modJob s f) := by
  unfold modJob
  simp (maxDischargeDepth := 20) +contextual [FlagsKept]

@[simp] theorem flags_stagingWriteList (s : State) (b i : Nat) (v : List Byte) :
    FlagsKept s (stagingWriteList s b i v) := by
  induction v generalizing s i with
  | nil => simp (maxDischargeDepth := 20) +contextual [FlagsKept, stagingWriteList]
  | cons v vs ih => have h := ih (stagingWrite s b i v) (i + 1); simp (maxDischargeDepth := 20) +contextual [FlagsKept,
      stagingWriteList] at h ⊢; exact h

@[simp] theorem flags_placeBytes (s : State) (c : Ctx) (buf i : Nat) (v : List Byte) :
    FlagsKept s (placeBytes s c buf i v) := by
  unfold placeBytes; try dsimp only
  repeat' split
  all_goals simp (maxDischargeDepth := 20) +contextual [FlagsKept]

@[simp] theorem flags_startGet (s : State) (key : Key) : FlagsKept s (startGet s key) := by
  unfold startGet; try dsimp only
  repeat' split
  all_goals simp (maxDischargeDepth := 20) +contextual [FlagsKept]

@[simp] theorem flags_getReport (s : State) (c : Ctx) (buf : Nat) (l : Line) :
    FlagsKept s (getReport s c buf l) := by
  unfold getReport; try dsimp only
  repeat' split
  all_goals simp (maxDischargeDepth := 20) +contextual [FlagsKept]

@[simp] theorem flags_listNext (s : State) (key : Key) (p : Part) : FlagsKept s (listNext s key p) := by
  unfold listNext
  simp (maxDischargeDepth := 20) +contextual [FlagsKept]

@[simp] theorem flags_startList (s : State) (after : Key) : FlagsKept s (startList s after) := by
  unfold startList; try dsimp only
  repeat' split
  all_goals simp (maxDischargeDepth := 20) +contextual [FlagsKept]

@[simp] theorem flags_listReport (s : State) (c : Ctx) (buf count : Nat) (l : Line) :
    FlagsKept s (listReport s c buf count l) := by
  unfold listReport; try dsimp only
  repeat' split
  all_goals simp (maxDischargeDepth := 20) +contextual [FlagsKept]

@[simp] theorem flags_modRc (s : State) (f : Reclaim → Reclaim) : FlagsKept s (modRc s f) := by
  unfold modRc
  simp (maxDischargeDepth := 20) +contextual [FlagsKept]

@[simp] theorem flags_startVictim (s : State) (v : Nat) : FlagsKept s (startVictim s v) := by
  unfold startVictim
  simp (maxDischargeDepth := 20) +contextual [FlagsKept]

@[simp] theorem flags_returnVictim (s : State) (v : Nat) : FlagsKept s (returnVictim s v) := by
  unfold returnVictim
  simp (maxDischargeDepth := 20) +contextual [FlagsKept]

@[simp] theorem flags_tellTrigger (s : State) (res : Result) : FlagsKept s (tellTrigger s res) := by
  unfold tellTrigger; try dsimp only
  repeat' split
  all_goals simp (maxDischargeDepth := 20) +contextual [FlagsKept]

@[simp] theorem flags_victimLeaves (s : State) (r : Reclaim) (e : VictimEnd) :
    FlagsKept s (victimLeaves s r e) := by
  unfold victimLeaves; try dsimp only
  repeat' split
  all_goals simp (maxDischargeDepth := 20) +contextual [FlagsKept]

@[simp] theorem flags_releaseStep (s : State) : FlagsKept s (releaseStep s) := by
  unfold releaseStep
  simp (maxDischargeDepth := 20) +contextual [FlagsKept]

@[simp] theorem flags_passRecord (s : State) (e : Nat) : FlagsKept s (passRecord s e) := by
  unfold passRecord
  simp (maxDischargeDepth := 20) +contextual [FlagsKept]

@[simp] theorem flags_endWalk (s : State) : FlagsKept s (endWalk s) := by
  unfold endWalk
  simp (maxDischargeDepth := 20) +contextual [FlagsKept]

@[simp] theorem flags_dropRecord (s : State) (h : Hdr) (l : Loc) : FlagsKept s (dropRecord s h l) := by
  unfold dropRecord; try dsimp only
  repeat' split
  all_goals simp (maxDischargeDepth := 20) +contextual [FlagsKept]

@[simp] theorem flags_placeCopy (s : State) (a : Attempt) (l : Loc) : FlagsKept s (placeCopy s a l) := by
  unfold placeCopy
  simp (maxDischargeDepth := 20) +contextual [FlagsKept]

@[simp] theorem flags_admitCopy (s : State) (r : Reclaim) (a : Attempt) (failed : Option Nat) :
    FlagsKept s (admitCopy s r a failed) := by
  unfold admitCopy; try dsimp only
  repeat' split
  all_goals simp (maxDischargeDepth := 20) +contextual [FlagsKept]

@[simp] theorem flags_buildCopy (s : State) (r : Reclaim) (a : Attempt) : FlagsKept s (buildCopy s r a) := by
  unfold buildCopy
  simp (maxDischargeDepth := 20) +contextual [FlagsKept]

@[simp] theorem flags_startCopy (s : State) (r : Reclaim) (h : Hdr) (l : Loc) :
    FlagsKept s (startCopy s r h l) := by
  unfold startCopy; try dsimp only
  repeat' split
  all_goals simp (maxDischargeDepth := 20) +contextual [FlagsKept]

@[simp] theorem flags_copyData (s : State) (r : Reclaim) (a : Attempt) (k : Nat) (l : Line) :
    FlagsKept s (copyData s r a k l) := by
  unfold copyData; try dsimp only
  repeat' split
  all_goals simp (maxDischargeDepth := 20) +contextual [FlagsKept]

@[simp] theorem flags_repoint (s : State) (a : Attempt) : FlagsKept s (repoint s a) := by
  unfold repoint; try dsimp only
  repeat' split
  all_goals simp (maxDischargeDepth := 20) +contextual [FlagsKept]

@[simp] theorem flags_copyComplete (s : State) (r : Reclaim) (a : Attempt) : FlagsKept s (copyComplete s r a) := by
  unfold copyComplete; try dsimp only
  repeat' split
  all_goals simp (maxDischargeDepth := 20) +contextual [FlagsKept]

@[simp] theorem flags_copyDone (s : State) (r : Reclaim) (a : Attempt) (k : Nat) :
    FlagsKept s (copyDone s r a k) := by
  unfold copyDone; try dsimp only
  repeat' split
  all_goals simp (maxDischargeDepth := 20) +contextual [FlagsKept]

@[simp] theorem flags_copyFault (s : State) (r : Reclaim) (a : Attempt) : FlagsKept s (copyFault s r a) := by
  unfold copyFault; try dsimp only
  repeat' split
  all_goals simp (maxDischargeDepth := 20) +contextual [FlagsKept]

@[simp] theorem flags_copyOpening (x : State × OpenNext) (r : Reclaim) (a : Attempt) (o : Opening) :
    FlagsKept x.1 (copyOpening x r a o) := by
  unfold copyOpening; try dsimp only
  repeat' split
  all_goals simp (maxDischargeDepth := 20) +contextual [FlagsKept]

@[simp] theorem flags_walkHeader (s : State) (r : Reclaim) (l : Line) : FlagsKept s (walkHeader s r l) := by
  unfold walkHeader; try dsimp only
  repeat' split
  all_goals simp (maxDischargeDepth := 20) +contextual [FlagsKept]

@[simp] theorem flags_finishReport (s : State) (r : Reclaim) (p : PrepStage) (rep : Report) :
    FlagsKept s (finishReport s r p rep) := by
  unfold finishReport; try dsimp only
  repeat' split
  all_goals simp (maxDischargeDepth := 20) +contextual [FlagsKept]

@[simp] theorem flags_reclaimReport (s : State) (r : Reclaim) (rep : Report) :
    FlagsKept s (reclaimReport s r rep) := by
  unfold reclaimReport; try dsimp only
  repeat' split
  all_goals simp (maxDischargeDepth := 20) +contextual [FlagsKept]

@[simp] theorem flags_walkStep (s : State) (r : Reclaim) : FlagsKept s (walkStep s r) := by
  unfold walkStep; try dsimp only
  repeat' split
  all_goals simp (maxDischargeDepth := 20) +contextual [FlagsKept]

@[simp] theorem flags_grantWalk (s : State) : FlagsKept s (grantWalk s) := by
  unfold grantWalk; try dsimp only
  repeat' split
  all_goals simp (maxDischargeDepth := 20) +contextual [FlagsKept]

@[simp] theorem flags_grantFinish (s : State) : FlagsKept s (grantFinish s) := by
  unfold grantFinish; try dsimp only
  repeat' split
  all_goals simp (maxDischargeDepth := 20) +contextual [FlagsKept]

@[simp] theorem flags_reclaimWalkStep (s : State) : FlagsKept s (reclaimWalkStep s) := by
  unfold reclaimWalkStep; try dsimp only
  repeat' split
  all_goals simp (maxDischargeDepth := 20) +contextual [FlagsKept]

@[simp] theorem flags_reclaimFinishStep (s : State) : FlagsKept s (reclaimFinishStep s) := by
  unfold reclaimFinishStep; try dsimp only
  repeat' split
  all_goals simp (maxDischargeDepth := 20) +contextual [FlagsKept]

@[simp] theorem flags_startReclaim (s : State) : FlagsKept s (startReclaim s) := by
  unfold startReclaim; try dsimp only
  repeat' split
  all_goals simp (maxDischargeDepth := 20) +contextual [FlagsKept]

@[simp] theorem flags_modMu (s : State) (f : MountUnit → MountUnit) : FlagsKept s (modMu s f) := by
  unfold modMu
  simp (maxDischargeDepth := 20) +contextual [FlagsKept]

@[simp] theorem flags_emptyTables (s : State) : FlagsKept s (emptyTables s) := by
  unfold emptyTables
  simp (maxDischargeDepth := 20) +contextual [FlagsKept]

@[simp] theorem flags_mountStart (s : State) : FlagsKept s (mountStart s) := by
  unfold mountStart
  simp (maxDischargeDepth := 20) +contextual [FlagsKept]

@[simp] theorem flags_tellMounter (s : State) (r : Result) : FlagsKept s (tellMounter s r) := by
  unfold tellMounter; try dsimp only
  repeat' split
  all_goals simp (maxDischargeDepth := 20) +contextual [FlagsKept]

@[simp] theorem flags_mountEnd (s : State) (m : MountResult) : FlagsKept s (mountEnd s m) := by
  unfold mountEnd; try dsimp only
  repeat' split
  all_goals simp (maxDischargeDepth := 20) +contextual [FlagsKept]

@[simp] theorem flags_settleNext (s : State) : FlagsKept s (settleNext s) := by
  unfold settleNext; try dsimp only
  repeat' split
  all_goals simp (maxDischargeDepth := 20) +contextual [FlagsKept]

@[simp] theorem flags_settleReport (s : State) (rep : Report) : FlagsKept s (settleReport s rep) := by
  unfold settleReport; try dsimp only
  repeat' split
  all_goals simp (maxDischargeDepth := 20) +contextual [FlagsKept]

@[simp] theorem flags_account (s : State) : FlagsKept s (account s) := by
  unfold account
  simp (maxDischargeDepth := 20) +contextual [FlagsKept]

@[simp] theorem flags_replayEnd (s : State) : FlagsKept s (replayEnd s) := by
  unfold replayEnd; try dsimp only
  repeat' split
  all_goals simp (maxDischargeDepth := 20) +contextual [FlagsKept]

@[simp] theorem flags_replayNext (s : State) : FlagsKept s (replayNext s) := by
  unfold replayNext; try dsimp only
  repeat' split
  all_goals simp (maxDischargeDepth := 20) +contextual [FlagsKept]

@[simp] theorem flags_applyPart (s : State) (key : Key) (p : Part) : FlagsKept s (applyPart s key p) := by
  unfold applyPart; try dsimp only
  repeat' split
  all_goals simp (maxDischargeDepth := 20) +contextual [FlagsKept]

@[simp] theorem flags_replayJudged (s : State) (f : FoundRec) (after : List Line) :
    FlagsKept s (replayJudged s f after) := by
  unfold replayJudged; try dsimp only
  repeat' split
  all_goals simp (maxDischargeDepth := 20) +contextual [FlagsKept]

@[simp] theorem flags_replayReport (s : State) (l : Line) : FlagsKept s (replayReport s l) := by
  unfold replayReport; try dsimp only
  repeat' split
  all_goals simp (maxDischargeDepth := 20) +contextual [FlagsKept]

@[simp] theorem flags_collectEnd (s : State) : FlagsKept s (collectEnd s) := by
  unfold collectEnd
  simp (maxDischargeDepth := 20) +contextual [FlagsKept]

@[simp] theorem flags_scanAt (s : State) (l : Loc) : FlagsKept s (scanAt s l) := by
  unfold scanAt
  simp (maxDischargeDepth := 20) +contextual [FlagsKept]

@[simp] theorem flags_scanSegmentEnd (s : State) (n wp : Nat) (stop : Bool) :
    FlagsKept s (scanSegmentEnd s n wp stop) := by
  unfold scanSegmentEnd; try dsimp only
  repeat' split
  all_goals simp (maxDischargeDepth := 20) +contextual [FlagsKept]

@[simp] theorem flags_scanAdvance (s : State) (l : Loc) (e : Nat) : FlagsKept s (scanAdvance s l e) := by
  unfold scanAdvance; try dsimp only
  repeat' split
  all_goals simp (maxDischargeDepth := 20) +contextual [FlagsKept]

@[simp] theorem flags_scanHeader (s : State) (l : Loc) (c : Line) : FlagsKept s (scanHeader s l c) := by
  unfold scanHeader; try dsimp only
  repeat' split
  all_goals simp (maxDischargeDepth := 20) +contextual [FlagsKept]

@[simp] theorem flags_enterCommit (s : State) (f : FoundRec) (bid : Word) : FlagsKept s (enterCommit s f bid) := by
  unfold enterCommit
  simp (maxDischargeDepth := 20) +contextual [FlagsKept]

@[simp] theorem flags_collectJudged (s : State) (f : FoundRec) (after : List Line) :
    FlagsKept s (collectJudged s f after) := by
  unfold collectJudged; try dsimp only
  repeat' split
  all_goals simp (maxDischargeDepth := 20) +contextual [FlagsKept]

@[simp] theorem flags_collectReport (s : State) (l : Line) : FlagsKept s (collectReport s l) := by
  unfold collectReport; try dsimp only
  repeat' split
  all_goals simp (maxDischargeDepth := 20) +contextual [FlagsKept]

@[simp] theorem flags_surveyVerdict (s : State) : FlagsKept s (surveyVerdict s) := by
  unfold surveyVerdict; try dsimp only
  repeat' split
  all_goals simp (maxDischargeDepth := 20) +contextual [FlagsKept]

@[simp] theorem flags_surveyNext (s : State) (n : Nat) : FlagsKept s (surveyNext s n) := by
  unfold surveyNext; try dsimp only
  repeat' split
  all_goals simp (maxDischargeDepth := 20) +contextual [FlagsKept]

@[simp] theorem flags_addEntry (s : State) (n : Nat) (st : SegState) (ec : Nat) (known : Bool) :
    FlagsKept s (addEntry s n st ec known) := by
  unfold addEntry
  simp (maxDischargeDepth := 20) +contextual [FlagsKept]

@[simp] theorem flags_surveyLine0 (s : State) (n : Nat) (l : Line) : FlagsKept s (surveyLine0 s n l) := by
  unfold surveyLine0; try dsimp only
  repeat' split
  all_goals simp (maxDischargeDepth := 20) +contextual [FlagsKept]

@[simp] theorem flags_surveyLine1 (s : State) (n : Nat) (l : Line) : FlagsKept s (surveyLine1 s n l) := by
  unfold surveyLine1; try dsimp only
  repeat' split
  all_goals simp (maxDischargeDepth := 20) +contextual [FlagsKept]

@[simp] theorem flags_surveyReport (s : State) (loc : Loc) (l : Line) : FlagsKept s (surveyReport s loc l) := by
  unfold surveyReport; try dsimp only
  repeat' split
  all_goals simp (maxDischargeDepth := 20) +contextual [FlagsKept]

@[simp] theorem flags_mountReport (s : State) (loc : Loc) (rep : Report) : FlagsKept s (mountReport s loc rep) := by
  unfold mountReport; try dsimp only
  repeat' split
  all_goals simp (maxDischargeDepth := 20) +contextual [FlagsKept]

@[simp] theorem flags_setFu (s : State) (f : FormatCtx) : FlagsKept s (setFu s f) := by
  unfold setFu
  simp (maxDischargeDepth := 20) +contextual [FlagsKept]

@[simp] theorem flags_formatEnd (s : State) : FlagsKept s (formatEnd s) := by
  unfold formatEnd; try dsimp only
  repeat' split
  all_goals simp (maxDischargeDepth := 20) +contextual [FlagsKept]

@[simp] theorem flags_step2Next (s : State) (f : FormatCtx) : FlagsKept s (step2Next s f) := by
  unfold step2Next; try dsimp only
  repeat' split
  all_goals simp (maxDischargeDepth := 20) +contextual [FlagsKept]

@[simp] theorem flags_step1Next (s : State) (f : FormatCtx) : FlagsKept s (step1Next s f) := by
  unfold step1Next; try dsimp only
  repeat' split
  all_goals simp (maxDischargeDepth := 20) +contextual [FlagsKept]

@[simp] theorem flags_step1Opened (s : State) (f : FormatCtx) (n : Nat) : FlagsKept s (step1Opened s f n) := by
  unfold step1Opened
  simp (maxDischargeDepth := 20) +contextual [FlagsKept]

@[simp] theorem flags_formatPrepared (s : State) (f : FormatCtx) (n : Nat) (first : Bool) :
    FlagsKept s (formatPrepared s f n first) := by
  unfold formatPrepared; try dsimp only
  repeat' split
  all_goals simp (maxDischargeDepth := 20) +contextual [FlagsKept]

@[simp] theorem flags_formatRetired (s : State) (f : FormatCtx) (n : Nat) (first : Bool) :
    FlagsKept s (formatRetired s f n first) := by
  unfold formatRetired; try dsimp only
  repeat' split
  all_goals simp (maxDischargeDepth := 20) +contextual [FlagsKept]

@[simp] theorem flags_formatStage (s : State) (f : FormatCtx) (n : Nat) (first : Bool) (p : PrepStage) :
    FlagsKept s (formatStage s f n first p) := by
  unfold formatStage; try dsimp only
  repeat' split
  all_goals simp (maxDischargeDepth := 20) +contextual [FlagsKept]

@[simp] theorem flags_formatSegment (s : State) (f : FormatCtx) (n : Nat) (first : Bool) (p : PrepStage) (rep : Report) :
    FlagsKept s (formatSegment s f n first p rep) := by
  unfold formatSegment; try dsimp only
  repeat' split
  all_goals simp (maxDischargeDepth := 20) +contextual [FlagsKept]

@[simp] theorem flags_formatReport (s : State) (f : FormatCtx) (rep : Report) :
    FlagsKept s (formatReport s f rep) := by
  unfold formatReport; try dsimp only
  repeat' split
  all_goals simp (maxDischargeDepth := 20) +contextual [FlagsKept]

@[simp] theorem flags_formatEnter (s : State) (f : FormatCtx) (mounted : Bool) :
    FlagsKept s (formatEnter s f mounted) := by
  unfold formatEnter
  simp (maxDischargeDepth := 20) +contextual [FlagsKept]

@[simp] theorem flags_formatCheckReport (s : State) (f : FormatCtx) (n : Nat) (l : Line) :
    FlagsKept s (formatCheckReport s f n l) := by
  unfold formatCheckReport; try dsimp only
  repeat' split
  all_goals simp (maxDischargeDepth := 20) +contextual [FlagsKept]

@[simp] theorem flags_startFormat (s : State) (expected newId : Word) :
    FlagsKept s (startFormat s expected newId) := by
  unfold startFormat; try dsimp only
  repeat' split
  all_goals simp (maxDischargeDepth := 20) +contextual [FlagsKept]

@[simp] theorem flags_runUnmount (s : State) : FlagsKept s (runUnmount s) := by
  unfold runUnmount
  simp (maxDischargeDepth := 20) +contextual [FlagsKept]

@[simp] theorem flags_haltEnd (s : State) (c : Ctx) : FlagsKept s (haltEnd s c) := by
  unfold haltEnd; try dsimp only
  repeat' split
  all_goals simp (maxDischargeDepth := 20) +contextual [FlagsKept]

@[simp] theorem flags_reclaimStopped (s : State) (st : Status) : FlagsKept s (reclaimStopped s st) := by
  unfold reclaimStopped; try dsimp only
  repeat' split
  all_goals simp (maxDischargeDepth := 20) +contextual [FlagsKept]

@[simp] theorem flags_haltCommand (s : State) : FlagsKept s (haltCommand s) := by
  unfold haltCommand; try dsimp only
  repeat' split
  all_goals simp (maxDischargeDepth := 20) +contextual [FlagsKept]

@[simp] theorem flags_haltReclaim (s : State) : FlagsKept s (haltReclaim s) := by
  unfold haltReclaim; try dsimp only
  repeat' split
  all_goals simp (maxDischargeDepth := 20) +contextual [FlagsKept]

theorem flags_postAll (s : State) (l : List QEntry) (r : Result) :
    FlagsKept s (l.foldl (fun t q => postHost t q.tag r) s) := by
  induction l generalizing s with
  | nil => simp (maxDischargeDepth := 20) +contextual [FlagsKept]
  | cons q l ih =>
    rw [List.foldl_cons]
    have h := ih (postHost s q.tag r)
    simp +contextual [FlagsKept] at h ⊢
    exact fun i hi => h i (by simp +contextual [hi])

@[simp] theorem flags_flushQueue (s : State) : FlagsKept s (flushQueue s) := by
  have h := flags_postAll s s.host.queue (Result.bare .halted)
  unfold flushQueue; simp +contextual [FlagsKept] at h ⊢; exact fun i hi => h i (by simp +contextual [hi])

@[simp] theorem flags_answerWaiting (s : State) (b : Bool) (status : Byte) :
    FlagsKept s (answerWaiting s b status) := by
  unfold answerWaiting; try dsimp only
  repeat' split
  all_goals simp (maxDischargeDepth := 20) +contextual [FlagsKept]

@[simp] theorem flags_answerBothWaiting (s : State) (status : Byte) : FlagsKept s (answerBothWaiting s status) := by
  unfold answerBothWaiting
  simp (maxDischargeDepth := 20) +contextual [FlagsKept]

@[simp] theorem flags_haltEntry (s : State) : FlagsKept s (haltEntry s) := by
  unfold haltEntry
  simp (maxDischargeDepth := 20) +contextual [FlagsKept]

@[simp] theorem flags_haltIfDue (s : State) : FlagsKept s (haltIfDue s) := by
  unfold haltIfDue; try dsimp only
  repeat' split
  all_goals simp (maxDischargeDepth := 20) +contextual [FlagsKept]

@[simp] theorem flags_commandReport (s : State) (loc : Loc) (rep : Report) :
    FlagsKept s (commandReport s loc rep) := by
  unfold commandReport; try dsimp only
  repeat' split
  all_goals simp (maxDischargeDepth := 20) +contextual [FlagsKept]

@[simp] theorem flags_onReport (s : State) (loc : Loc) (rep : Report) : FlagsKept s (onReport s loc rep) := by
  unfold onReport; try dsimp only
  repeat' split
  all_goals simp (maxDischargeDepth := 20) +contextual [FlagsKept]

@[simp] theorem flags_deliver (s : State) (loc : Loc) (rep : Report) : FlagsKept s (deliver s loc rep) := by
  unfold deliver
  simp (maxDischargeDepth := 20) +contextual [FlagsKept]

@[simp] theorem flags_settleRefused (n : Nat) (s : State) : FlagsKept s (settleRefused n s) := by
  induction n generalizing s with
  | zero => simp (maxDischargeDepth := 20) +contextual [FlagsKept, settleRefused]
  | succ n ih =>
    unfold settleRefused
    split
    · split
      · simp (maxDischargeDepth := 20) +contextual [FlagsKept]
      · rename_i l c hs hl; have h := ih (deliver { s with seqr := none } l (.programFault .refused)); simp +contextual
          [FlagsKept] at h ⊢; exact fun i hi => h i (by simp +contextual [hi])
    · simp (maxDischargeDepth := 20) +contextual [FlagsKept]

@[simp] theorem flags_checkThenAppend (s : State) : FlagsKept s (checkThenAppend s) := by
  unfold checkThenAppend; try dsimp only
  repeat' split
  all_goals simp (maxDischargeDepth := 20) +contextual [FlagsKept]

@[simp] theorem flags_startWrite (s : State) (p : Port) (key : Key) (member del : Bool) :
    FlagsKept s (startWrite s p key member del) := by
  unfold startWrite; try dsimp only
  repeat' split
  all_goals simp (maxDischargeDepth := 20) +contextual [FlagsKept]

@[simp] theorem flags_startBatchOpen (s : State) (p : Port) : FlagsKept s (startBatchOpen s p) := by
  unfold startBatchOpen; try dsimp only
  repeat' split
  all_goals simp (maxDischargeDepth := 20) +contextual [FlagsKept]

@[simp] theorem flags_startBatchCommit (s : State) (p : Port) : FlagsKept s (startBatchCommit s p) := by
  unfold startBatchCommit; try dsimp only
  repeat' split
  all_goals simp (maxDischargeDepth := 20) +contextual [FlagsKept]

@[simp] theorem flags_startBatchAbort (s : State) (p : Port) : FlagsKept s (startBatchAbort s p) := by
  unfold startBatchAbort; try dsimp only
  repeat' split
  all_goals simp (maxDischargeDepth := 20) +contextual [FlagsKept]

@[simp] theorem flags_startFreeze (s : State) (lo hi : Key) : FlagsKept s (startFreeze s lo hi) := by
  unfold startFreeze; try dsimp only
  repeat' split
  all_goals simp (maxDischargeDepth := 20) +contextual [FlagsKept]

@[simp] theorem flags_startMount (s : State) : FlagsKept s (startMount s) := by
  unfold startMount; try dsimp only
  repeat' split
  all_goals simp (maxDischargeDepth := 20) +contextual [FlagsKept]

@[simp] theorem flags_runCommand (s : State) (p : Port) (cmd : Cmd) : FlagsKept s (runCommand s p cmd) := by
  unfold runCommand; try dsimp only
  repeat' split
  all_goals simp (maxDischargeDepth := 20) +contextual [FlagsKept]

@[simp] theorem flags_execute (s : State) (c : Ctx) : FlagsKept s (execute s c) := by
  unfold execute; try dsimp only
  repeat' split
  all_goals simp (maxDischargeDepth := 20) +contextual [FlagsKept]

@[simp] theorem flags_takeHost (s : State) (q : QEntry) : FlagsKept s (takeHost s q) := by
  unfold takeHost
  simp (maxDischargeDepth := 20) +contextual [FlagsKept]

@[simp] theorem flags_takeMgmt (s : State) (b : Bool) : FlagsKept s (takeMgmt s b) := by
  unfold takeMgmt; try dsimp only
  repeat' split
  all_goals simp (maxDischargeDepth := 20) +contextual [FlagsKept]

@[simp] theorem flags_chooseHead (s : State) : FlagsKept s (chooseHead s) := by
  unfold chooseHead; try dsimp only
  repeat' split
  all_goals simp (maxDischargeDepth := 20) +contextual [FlagsKept]

@[simp] theorem flags_runGranted (s : State) : FlagsKept s (runGranted s) := by
  unfold runGranted; try dsimp only
  repeat' split
  all_goals simp (maxDischargeDepth := 20) +contextual [FlagsKept]

@[simp] theorem flags_arbiterGrant (s : State) : FlagsKept s (arbiterGrant s) := by
  unfold arbiterGrant; try dsimp only
  repeat' split
  all_goals simp (maxDischargeDepth := 20) +contextual [FlagsKept]

@[simp] theorem flags_waitSpaceResume (s : State) : FlagsKept s (waitSpaceResume s) := by
  unfold waitSpaceResume; try dsimp only
  repeat' split
  all_goals simp (maxDischargeDepth := 20) +contextual [FlagsKept]

/-! ### The ports -/

/-- A flag that is set stays set, and the DIRCNT holding byte stands (R180). -/
abbrev WindowKept (s t : State) : Prop :=
  (∀ i, s.alert.flags.getLsbD i = true → t.alert.flags.getLsbD i = true) ∧ t.host.dircntHold = s.host.dircntHold

@[simp] theorem window_setXfer (s : State) (x : Option Xfer) : WindowKept s (setXfer s x) := by
  unfold setXfer
  simp (maxDischargeDepth := 20) +contextual [WindowKept]

@[simp] theorem window_endMgmtBatch (s : State) : WindowKept s (endMgmtBatch s) := by
  unfold endMgmtBatch; try dsimp only
  repeat' split
  all_goals simp (maxDischargeDepth := 20) +contextual [WindowKept]

@[simp] theorem window_sessionEnd (s : State) (status : Byte) : WindowKept s (sessionEnd s status) := by
  unfold sessionEnd; try dsimp only
  repeat' split
  all_goals simp (maxDischargeDepth := 20) +contextual [WindowKept]

@[simp] theorem window_freeReceiving (s : State) (b : Bool) : WindowKept s (freeReceiving s b) := by
  unfold freeReceiving; try dsimp only
  repeat' split
  all_goals simp (maxDischargeDepth := 20) +contextual [WindowKept]

@[simp] theorem window_portDisable (s : State) : WindowKept s (portDisable s) := by
  unfold portDisable; try dsimp only
  repeat' split
  all_goals simp (maxDischargeDepth := 20) +contextual [WindowKept]

@[simp] theorem window_answerSlot (s : State) (b : Bool) (arrival : Nat) (tag status : Byte) (payload : List Byte) :
    WindowKept s (answerSlot s b arrival tag status payload) := by
  unfold answerSlot
  simp (maxDischargeDepth := 20) +contextual [WindowKept]

@[simp] theorem window_acceptFrame (s : State) (b : Bool) (arrival : Nat) (bytes : List Byte) (r : Request) :
    WindowKept s (acceptFrame s b arrival bytes r) := by
  unfold acceptFrame; try dsimp only
  repeat' split
  all_goals simp (maxDischargeDepth := 20) +contextual [WindowKept]

@[simp] theorem window_frameEnd (s : State) (b : Bool) : WindowKept s (frameEnd s b) := by
  unfold frameEnd; try dsimp only
  repeat' split
  all_goals simp (maxDischargeDepth := 20) +contextual [WindowKept]

@[simp] theorem window_ack (s : State) (v : Bool) : WindowKept s (ack s v) := by
  unfold ack
  simp (maxDischargeDepth := 20) +contextual [WindowKept]

@[simp] theorem window_writeByte (s : State) (v : Byte) : WindowKept s (writeByte s v) := by
  unfold writeByte; try dsimp only
  repeat' split
  all_goals simp (maxDischargeDepth := 20) +contextual [WindowKept]

@[simp] theorem window_writeBytes (s : State) (l : List Byte) : WindowKept s (writeBytes s l) := by
  unfold writeBytes
  induction l generalizing s with
  | nil => simp [WindowKept]
  | cons v vs ih =>
    rw [List.foldl_cons]
    have h := ih (writeByte s v)
    simp (maxDischargeDepth := 20) +contextual only [WindowKept, window_writeByte] at h ⊢
    simp (maxDischargeDepth := 20) +contextual [h, window_writeByte]

@[simp] theorem window_beginWrite (s : State) (data : List Byte) : WindowKept s (beginWrite s data) := by
  unfold beginWrite
  simp (maxDischargeDepth := 20) +contextual [WindowKept]

@[simp] theorem window_endWrite (s : State) : WindowKept s (endWrite s) := by
  unfold endWrite; try dsimp only
  repeat' split
  all_goals simp (maxDischargeDepth := 20) +contextual [WindowKept]

@[simp] theorem window_clockBytes (s : State) (n : Nat) : WindowKept s (clockBytes s n) := by
  unfold clockBytes; try dsimp only
  repeat' split
  all_goals simp (maxDischargeDepth := 20) +contextual [WindowKept]

@[simp] theorem window_freeAnswered (s : State) (b : Bool) : WindowKept s (freeAnswered s b) := by
  unfold freeAnswered; split
  all_goals simp (maxDischargeDepth := 20) +contextual [WindowKept]

@[simp] theorem window_endRead (s : State) : WindowKept s (endRead s) := by
  unfold endRead; try dsimp only
  repeat' split
  all_goals simp (maxDischargeDepth := 20) +contextual [WindowKept]

@[simp] theorem window_beginRead (s : State) (n : Nat) : WindowKept s (beginRead s n) := by
  unfold beginRead
  simp (maxDischargeDepth := 20) +contextual [WindowKept]

@[simp] theorem window_endTransfer (s : State) : WindowKept s (endTransfer s) := by
  unfold endTransfer
  repeat' split
  all_goals simp (maxDischargeDepth := 20) +contextual [WindowKept]

@[simp] theorem window_addressByte (s : State) (addr : BitVec 7) : WindowKept s (addressByte s addr) := by
  unfold addressByte
  simp (maxDischargeDepth := 20) +contextual [WindowKept]

@[simp] theorem window_busWrite (s : State) (x : WriteXfer) : WindowKept s (busWrite s x) := by
  cases x <;> simp only [busWrite] <;> split
  all_goals simp (maxDischargeDepth := 20) +contextual [WindowKept]

@[simp] theorem window_sendFrame (s : State) (addr : BitVec 7) (body : List Byte) :
    WindowKept s (sendFrame s addr body) := by
  unfold sendFrame
  simp (maxDischargeDepth := 20) +contextual [WindowKept]

@[simp] theorem window_busRead (s : State) (x : ReadXfer) : WindowKept s (busRead s x) := by
  cases x <;> simp only [busRead] <;> split
  all_goals simp (maxDischargeDepth := 20) +contextual [WindowKept]

@[simp] theorem window_stallExpiry (s : State) : WindowKept s (stallExpiry s) := by
  unfold stallExpiry; try dsimp only
  repeat' split
  all_goals simp (maxDischargeDepth := 20) +contextual [WindowKept]

@[simp] theorem window_sessionLapse (s : State) : WindowKept s (sessionLapse s) := by
  unfold sessionLapse; try dsimp only
  repeat' split
  all_goals simp (maxDischargeDepth := 20) +contextual [WindowKept]

@[simp] theorem window_setBufOwner (s : State) (b : Nat) (o : Option Nat) : WindowKept s (setBufOwner s b o) := by
  unfold setBufOwner
  simp (maxDischargeDepth := 20) +contextual [WindowKept]

@[simp] theorem window_holdBuffer (s : State) (t : Nat) (o : Option Nat) : WindowKept s (holdBuffer s t o) := by
  cases o <;> simp [holdBuffer, WindowKept, setBufOwner]

@[simp] theorem window_acceptSubmit (s : State) (t : Nat) (c : Cmd) : WindowKept s (acceptSubmit s t c) := by
  unfold acceptSubmit; dsimp only
  simp (maxDischargeDepth := 20) +contextual [WindowKept]

@[simp] theorem window_submit (s : State) : WindowKept s (submit s) := by
  unfold submit; try dsimp only
  repeat' split
  all_goals simp (maxDischargeDepth := 20) +contextual [WindowKept]

@[simp] theorem window_submitArgs (s : State) (f : ArgRegs → ArgRegs) : WindowKept s (submitArgs s f) := by
  unfold submitArgs
  simp (maxDischargeDepth := 20) +contextual [WindowKept]

@[simp] theorem window_popCompletion (s : State) : WindowKept s (popCompletion s) := by
  unfold popCompletion; try dsimp only
  repeat' split
  all_goals simp (maxDischargeDepth := 20) +contextual [WindowKept]

@[simp] theorem window_removeQueued (s : State) (t : Nat) : WindowKept s (removeQueued s t) := by
  unfold removeQueued
  simp (maxDischargeDepth := 20) +contextual [WindowKept]

@[simp] theorem window_abortInFlight (s : State) (c : Ctx) : WindowKept s (abortInFlight s c).2 := by
  unfold abortInFlight
  repeat' split
  all_goals simp (maxDischargeDepth := 20) +contextual [WindowKept]

@[simp] theorem window_abortAnswer (s : State) (t : Nat) : WindowKept s (abortAnswer s t).2 := by
  unfold abortAnswer
  repeat' split
  all_goals simp (maxDischargeDepth := 20) +contextual [WindowKept]

@[simp] theorem window_hostAbort (s : State) (v : Byte) : WindowKept s (hostAbort s v) := by
  unfold hostAbort
  simp (maxDischargeDepth := 20) +contextual [WindowKept]

@[simp] theorem window_advancePtr (s : State) : WindowKept s (advancePtr s) := by
  unfold advancePtr
  simp (maxDischargeDepth := 20) +contextual [WindowKept]

@[simp] theorem window_readBufData (s : State) : WindowKept s (readBufData s) := by
  unfold readBufData
  simp (maxDischargeDepth := 20) +contextual [WindowKept]

@[simp] theorem window_writeBufData (s : State) (v : Byte) : WindowKept s (writeBufData s v) := by
  unfold writeBufData; try dsimp only
  repeat' split
  all_goals simp (maxDischargeDepth := 20) +contextual [WindowKept]

@[simp] theorem window_setMask (s : State) (v : Byte) : WindowKept s (setMask s v) := by
  unfold setMask
  simp (maxDischargeDepth := 20) +contextual [WindowKept]

@[simp] theorem window_setRecthr (s : State) (v : Byte) : WindowKept s (setRecthr s v) := by
  unfold setRecthr
  simp (maxDischargeDepth := 20) +contextual [WindowKept]

@[simp] theorem window_setHostwt (s : State) (v : Byte) : WindowKept s (setHostwt s v) := by
  unfold setHostwt
  simp (maxDischargeDepth := 20) +contextual [WindowKept]

@[simp] theorem window_batchIdleExpires (s : State) : WindowKept s (batchIdleExpires s) := by
  unfold batchIdleExpires; try dsimp only
  repeat' split
  all_goals simp (maxDischargeDepth := 20) +contextual [WindowKept]

@[simp] theorem window_leaveHalted (s : State) : WindowKept s (leaveHalted s) := by
  unfold leaveHalted; try dsimp only
  repeat' split
  all_goals simp (maxDischargeDepth := 20) +contextual [WindowKept]

@[simp] theorem window_recoveryExpires (s : State) : WindowKept s (recoveryExpires s) := by
  unfold recoveryExpires; try dsimp only
  repeat' split
  all_goals simp (maxDischargeDepth := 20) +contextual [WindowKept]

@[simp] theorem window_powerWarning (s : State) : WindowKept s (powerWarning s) := by
  unfold powerWarning
  simp (maxDischargeDepth := 20) +contextual [WindowKept]

@[simp] theorem window_powerGood (s : State) : WindowKept s (powerGood s) := by
  unfold powerGood; try dsimp only
  repeat' split
  all_goals simp (maxDischargeDepth := 20) +contextual [WindowKept]

end Sys2Proof.Machine
end

