-- ==== Sys2Proof/Laws/Bus.lean ====
section
/-! SUPPORT. What a whole transfer on the two-wire bus comes to: the slot a write takes and the bytes it leaves there, the
bytes a read sends. -/

namespace Sys2Proof.Machine

/-- The data bytes after the first, into a slot that has room for them (R197). -/
theorem writeBytes_room (vs : List Byte) : ∀ (u : State) (b : Bool) (a : Nat) (bs : List Byte),
    u.mgmt.xfer = some (.write b) → slotOf u b = .receiving a bs false → bs.length + vs.length ≤ 247 →
    writeBytes u vs = setSlot { u with pins := { u.pins with
      sdaAcks := u.pins.sdaAcks ++ List.replicate vs.length true } } b (.receiving a (bs ++ vs) false) := by
  induction vs with
  | nil =>
    intro u b a bs hx hs hl
    simp only [writeBytes, List.foldl_nil, List.length_nil, List.replicate_zero, List.append_nil]
    cases b <;> simp only [slotOf, Bool.false_eq_true, if_false, if_true] at hs <;>
      simp only [setSlot, Bool.false_eq_true, if_false, if_true, ← hs]
  | cons v vs ih =>
    intro u b a bs hx hs hl
    simp only [List.length_cons] at hl
    have hw : writeByte u v = setSlot { u with pins := { u.pins with sdaAcks := u.pins.sdaAcks ++ [true] } } b
        (.receiving a (bs ++ [v]) false) := by
      unfold writeByte
      rw [hx]
      simp only [hs, Slot.store, Slot.takes]
      have : bs.length < 247 := by omega
      simp only [this, if_true, decide_true]
      cases b <;> rfl
    show writeBytes (writeByte u v) vs = _
    rw [hw, ih _ b a (bs ++ [v]) (by cases b <;> exact hx) (by cases b <;> rfl) (by simp; omega)]
    cases b <;> simp [setSlot, List.replicate_succ]

/-- An address byte that no transfer in progress precedes (R196). -/
theorem addressByte_free {s : State} (addr : BitVec 7) (hx : s.mgmt.xfer = none) :
    addressByte s addr = { s with pins := { s.pins with addrAck := addr == targetAddr s } } := by
  simp [addressByte, endTransfer, reading, writing, hx]

/-- The part acknowledges its own address. -/
theorem addressByte_own {s : State} {addr : BitVec 7} (hf : busFree s addr) :
    addressByte s addr = { s with pins := { s.pins with addrAck := true } } := by
  rw [addressByte_free addr hf.2.1, hf.2.2]; simp [targetAddr]

/-- A whole write transfer of at most 247 bytes that finds a slot (R196, R197, R199). -/
theorem busWrite_taken {s : State} {addr : BitVec 7} {b : Bool} (data : List Byte) (hf : busFree s addr)
    (hm : s.ctl.mgmten = true) (hn : nextSlot s b) (h0 : data ≠ []) (hl : data.length ≤ 247) :
    busWrite s (.whole addr data) =
      frameEnd (slotTaken s b data.length (fun a => .receiving a data false)) b := by
  have hx := hf.2.1
  simp only [busWrite, addressByte_own hf, if_true]
  cases data with
  | nil => exact absurd rfl h0
  | cons v vs =>
    have hfree : freeSlot s = some b := by
      unfold freeSlot
      obtain ⟨h1, h2⟩ := hn
      cases b
      · simp only [slotOf, Bool.false_eq_true, if_false] at h1; simp [h1]
      · simp only [slotOf, Bool.false_eq_true, if_false, if_true] at h1 h2; simp [h1, h2]
    have e1 : beginWrite { s with pins := { s.pins with addrAck := true } } (v :: vs) = writeBytes (setXfer (setSlot
        { s with
          mgmt := { s.mgmt with arrivals := s.mgmt.arrivals + 1, xfer := some .writeStart }
          pins := { s.pins with sdaAcks := [true], addrAck := true } } b
        (.receiving (s.mgmt.arrivals + 1) [v] false)) (some (.write b))) vs := by
      show writeBytes (writeByte _ v) vs = _
      congr 1
      unfold writeByte
      have : freeSlot { s with
        mgmt := { s.mgmt with xfer := some .writeStart }, pins := { s.pins with sdaAcks := [], addrAck := true } } =
          some b := hfree
      simp only [hm, if_true, this]
      cases b <;> rfl
    rw [e1, writeBytes_room vs _ b _ [v] rfl (by cases b <;> rfl) (by simpa [Nat.add_comm] using hl)]
    unfold endWrite slotTaken setXfer
    have : ∀ w : State, w.mgmt.xfer = none → ({ w with mgmt := { w.mgmt with xfer := none } } : State) = w := by
      intro w h; rw [← h]
    cases b <;> simp [setSlot, List.replicate_succ, hx]

end Sys2Proof.Machine
end

