-- ==== Sys2Proof/Laws/Memory.lean ====
section
/-! SUPPORT. The laws of the two addressed stores: reading what was written, leaving the rest alone, and the canonical form
that every operation keeps. -/

namespace Sys2Proof.Machine

variable {α : Type} [DecidableEq α]

/-! ### Reading after writing -/

theorem Memory.read_write_same (d : α) (m : List (Nat × α)) (a : Nat) (v : α) (lo : Nat)
    (h : Memory.wfFrom d lo m = true) : Memory.read d (Memory.write d m a v) a = v := by
  induction m generalizing lo with
  | nil => by_cases hv : v = d <;> simp [Memory.write, Memory.read, hv]
  | cons c rest ih =>
    obtain ⟨k, w⟩ := c
    simp only [Memory.wfFrom, Bool.and_eq_true, decide_eq_true_eq] at h
    obtain ⟨⟨-, hw⟩, hr⟩ := h
    have absent : ∀ (m : List (Nat × α)) (lo b : Nat), Memory.wfFrom d lo m = true → b < lo → Memory.read d m b = d := by
      intro m
      induction m with
      | nil => intros; rfl
      | cons c rest ih =>
        intro lo b hm hb
        simp only [Memory.wfFrom, Bool.and_eq_true, decide_eq_true_eq] at hm
        rw [Memory.read, if_neg (by omega)]
        exact ih (c.1 + 1) b hm.2 (by omega)
    unfold Memory.write
    split
    · rename_i hlt
      split
      · rename_i hv
        rw [Memory.read, if_neg (by omega), hv]
        exact absent rest (k + 1) a hr (by omega)
      · simp [Memory.read]
    · split
      · rename_i hlt hak
        subst hak
        split
        · rename_i hv
          rw [hv]; exact absent rest (a + 1) a hr (by omega)
        · simp [Memory.read]
      · rename_i hlt hne
        rw [Memory.read, if_neg (by omega)]
        exact ih (k + 1) hr

theorem Memory.read_write_other (d : α) (m : List (Nat × α)) (a b : Nat) (v : α) (hab : b ≠ a) :
    Memory.read d (Memory.write d m a v) b = Memory.read d m b := by
  induction m with
  | nil => by_cases hv : v = d <;> simp [Memory.write, Memory.read, hv, hab.symm]
  | cons c rest ih =>
    obtain ⟨k, w⟩ := c
    unfold Memory.write
    split
    · split
      · rfl
      · rw [Memory.read, if_neg (Ne.symm hab)]
    · split
      · rename_i hlt hak
        subst hak
        split
        · rw [Memory.read, if_neg (Ne.symm hab)]
        · rw [Memory.read, if_neg (Ne.symm hab), Memory.read, if_neg (Ne.symm hab)]
      · rw [Memory.read, Memory.read, ih]

omit [DecidableEq α] in
theorem Memory.read_clear (d : α) (p : Nat → Bool) (m : List (Nat × α)) (a : Nat) :
    Memory.read d (Memory.clear p m) a = if p a then d else Memory.read d m a := by
  induction m with
  | nil => simp [Memory.clear, Memory.read]
  | cons c rest ih =>
    obtain ⟨k, w⟩ := c
    unfold Memory.clear at ih ⊢
    by_cases hp : p k = true
    · rw [List.filter_cons_of_neg (by simp [hp]), ih, Memory.read]
      by_cases hk : k = a
      · subst hk; simp [hp]
      · rw [if_neg hk]
    · rw [List.filter_cons_of_pos (by simp [hp]), Memory.read, Memory.read]
      by_cases hk : k = a
      · subst hk; simp [hp]
      · rw [if_neg hk, if_neg hk, ih]

/-! ### The canonical form -/

theorem Memory.wfFrom_mono (d : α) (m : List (Nat × α)) {lo lo' : Nat} (hle : lo' ≤ lo)
    (h : Memory.wfFrom d lo m = true) : Memory.wfFrom d lo' m = true := by
  cases m with
  | nil => rfl
  | cons c rest =>
    simp only [Memory.wfFrom, Bool.and_eq_true, decide_eq_true_eq] at h ⊢
    exact ⟨⟨by omega, h.1.2⟩, h.2⟩

theorem Memory.wfFrom_write (d : α) (m : List (Nat × α)) (a : Nat) (v : α) (lo : Nat) (ha : lo ≤ a)
    (h : Memory.wfFrom d lo m = true) : Memory.wfFrom d lo (Memory.write d m a v) = true := by
  induction m generalizing lo with
  | nil => by_cases hv : v = d <;> simp [Memory.write, Memory.wfFrom, hv, ha]
  | cons c rest ih =>
    obtain ⟨k, w⟩ := c
    have h0 := h
    simp only [Memory.wfFrom, Bool.and_eq_true, decide_eq_true_eq] at h
    obtain ⟨⟨hlo, hw⟩, hr⟩ := h
    unfold Memory.write
    split
    · split
      · exact h0
      · rename_i hlt hv
        simp only [Memory.wfFrom, Bool.and_eq_true, decide_eq_true_eq]
        exact ⟨⟨ha, hv⟩, ⟨by omega, hw⟩, hr⟩
    · split
      · rename_i hlt hak
        subst hak
        split
        · exact Memory.wfFrom_mono d rest (by omega) hr
        · rename_i hv
          simp only [Memory.wfFrom, Bool.and_eq_true, decide_eq_true_eq]
          exact ⟨⟨ha, hv⟩, hr⟩
      · simp only [Memory.wfFrom, Bool.and_eq_true, decide_eq_true_eq]
        exact ⟨⟨hlo, hw⟩, ih (k + 1) (by omega) hr⟩

/-- A write keeps the canonical form. -/
@[simp] theorem Memory.wf_write (d : α) (m : List (Nat × α)) (a : Nat) (v : α) (h : Memory.wf d m = true) :
    Memory.wf d (Memory.write d m a v) = true := Memory.wfFrom_write d m a v 0 (Nat.zero_le a) h

theorem Memory.wfFrom_clear (d : α) (p : Nat → Bool) (m : List (Nat × α)) (lo : Nat)
    (h : Memory.wfFrom d lo m = true) : Memory.wfFrom d lo (Memory.clear p m) = true := by
  induction m generalizing lo with
  | nil => rfl
  | cons c rest ih =>
    obtain ⟨k, w⟩ := c
    simp only [Memory.wfFrom, Bool.and_eq_true, decide_eq_true_eq] at h
    unfold Memory.clear at ih ⊢
    by_cases hp : p k = true
    · rw [List.filter_cons_of_neg (by simp [hp])]
      exact ih lo (Memory.wfFrom_mono d rest (by omega) h.2)
    · rw [List.filter_cons_of_pos (by simp [hp])]
      simp only [Memory.wfFrom, Bool.and_eq_true, decide_eq_true_eq]
      exact ⟨h.1, ih (k + 1) h.2⟩

/-- Clearing keeps the canonical form. -/
@[simp] theorem Memory.wf_clear (d : α) (p : Nat → Bool) (m : List (Nat × α)) (h : Memory.wf d m = true) :
    Memory.wf d (Memory.clear p m) = true := Memory.wfFrom_clear d p m 0 h

/-! ### The record array -/

/-- The array of a state is in its canonical form. -/
abbrev arrayWf (s : State) : Prop := ArrayOk s.array

theorem lineKey_inj {l m : Loc} (hl : inArray l = true) (hm : inArray m = true) (h : lineKey l = lineKey m) : l = m := by
  obtain ⟨a, b⟩ := l
  obtain ⟨c, d⟩ := m
  simp only [inArray, lineKey, Bool.and_eq_true, decide_eq_true_eq] at *
  have : a = c ∧ b = d := by omega
  simp [this]

theorem lineAt_setLine_same (s : State) (l : Loc) (v : Line) (hw : arrayWf s) (h : inArray l = true) :
    lineAt (setLine s l v) l = v := by
  simp only [lineAt, setLine, h, if_true]
  exact Memory.read_write_same _ _ _ _ 0 hw

theorem lineAt_setLine_other (s : State) (l m : Loc) (v : Line) (h : m ≠ l) :
    lineAt (setLine s l v) m = lineAt s m := by
  unfold lineAt
  split
  · rename_i hm
    unfold setLine
    split
    · rename_i hl
      exact Memory.read_write_other _ _ _ _ _ (fun e => h (lineKey_inj hm hl e))
    · rfl
  · rfl

theorem lineAt_eraseSegment (s : State) (n : Nat) (l : Loc) (h : inArray l = true) :
    lineAt (eraseSegment s n) l = if l.seg = n then .erased else lineAt s l := by
  have hk : lineKey l / 256 = l.seg := by
    simp only [inArray, Bool.and_eq_true, decide_eq_true_eq] at h
    simp only [lineKey]; omega
  simp only [lineAt, h, if_true, eraseSegment, Memory.read_clear, inSegment, hk, beq_iff_eq]

/-- Two states with one array show the same lines. -/
theorem lineAt_congr {s t : State} (h : t.array = s.array) (l : Loc) : lineAt t l = lineAt s l := by
  simp only [lineAt, h]

@[simp] theorem arrayWf_setLine (s : State) (l : Loc) (v : Line) (h : arrayWf s) : arrayWf (setLine s l v) := by
  unfold setLine
  split
  · exact Memory.wf_write _ _ _ _ h
  · exact h

@[simp] theorem arrayWf_eraseSegment (s : State) (n : Nat) (h : arrayWf s) : arrayWf (eraseSegment s n) :=
  Memory.wf_clear _ _ _ h

theorem arrayWf_tear (n : Nat) (mask : BitVec 256) (ks : List Nat) (s : State) (h : arrayWf s) :
    arrayWf (ks.foldl (fun t k => if mask.getLsbD k then setLine t ⟨n, k⟩ .torn else t) s) := by
  induction ks generalizing s with
  | nil => exact h
  | cons k ks ih =>
    rw [List.foldl_cons]
    split
    · exact ih _ (arrayWf_setLine s _ _ h)
    · exact ih _ h

@[simp] theorem arrayWf_tearLines (s : State) (n : Nat) (mask : BitVec 256) (h : arrayWf s) :
    arrayWf (tearLines s n mask) := arrayWf_tear n mask _ s h

@[simp] theorem arrayWf_partialErase (s : State) (n : Nat) (h : arrayWf s) : arrayWf (partialErase s n) := by
  have e : (partialErase s n).array = (tearLines (eraseSegment s n) n (Config.freeErase s.free)).array := by
    simp only [partialErase]
  simp only [arrayWf, e]
  exact arrayWf_tearLines _ n _ (arrayWf_eraseSegment s n h)

theorem lineAt_tear_other (n : Nat) (mask : BitVec 256) (ks : List Nat) (s : State) (l : Loc) (h : l.seg ≠ n) :
    lineAt (ks.foldl (fun t k => if mask.getLsbD k then setLine t ⟨n, k⟩ .torn else t) s) l = lineAt s l := by
  induction ks generalizing s with
  | nil => rfl
  | cons k ks ih =>
    rw [List.foldl_cons, ih]
    split
    · exact lineAt_setLine_other s _ l _ (fun e => h (by rw [e]))
    · rfl

theorem lineAt_tear_in (n : Nat) (mask : BitVec 256) (ks : List Nat) (s : State) (l : Loc) (hw : arrayWf s)
    (hl : inArray l = true) (h : lineAt s l = .erased ∨ lineAt s l = .torn) :
    lineAt (ks.foldl (fun t k => if mask.getLsbD k then setLine t ⟨n, k⟩ .torn else t) s) l = .erased
    ∨ lineAt (ks.foldl (fun t k => if mask.getLsbD k then setLine t ⟨n, k⟩ .torn else t) s) l = .torn := by
  induction ks generalizing s with
  | nil => exact h
  | cons k ks ih =>
    rw [List.foldl_cons]
    split
    · refine ih _ (arrayWf_setLine s _ _ hw) ?_
      by_cases he : l = ⟨n, k⟩
      · subst he; exact Or.inr (lineAt_setLine_same s _ _ hw hl)
      · rw [lineAt_setLine_other s _ l _ he]; exact h
    · exact ih s hw h

/-- An erase that fails leaves each line of its segment ERASED or TORN (R7, R9), whatever the free value is. -/
theorem lineAt_partialErase_in (s : State) (n : Nat) (l : Loc) (hw : arrayWf s) (hl : inArray l = true)
    (hn : l.seg = n) : lineAt (partialErase s n) l = .erased ∨ lineAt (partialErase s n) l = .torn := by
  refine lineAt_tear_in n _ _ _ l (arrayWf_eraseSegment s n hw) hl (Or.inl ?_)
  rw [lineAt_eraseSegment s n l hl, if_pos hn]

/-- An erase that fails leaves every other segment alone. -/
theorem lineAt_partialErase_other (s : State) (n : Nat) (l : Loc) (hn : l.seg ≠ n) :
    lineAt (partialErase s n) l = lineAt s l := by
  have h := lineAt_tear_other n (Config.freeErase s.free) (List.range 256) (eraseSegment s n) l hn
  have e : lineAt (partialErase s n) l = lineAt (tearLines (eraseSegment s n) n (Config.freeErase s.free)) l := rfl
  rw [e]
  unfold tearLines
  rw [h]
  by_cases hl : inArray l = true
  · rw [lineAt_eraseSegment s n l hl, if_neg hn]
  · simp [lineAt, hl]

/-! ### The staging buffers -/

/-- The staging buffers of a state are in their canonical form. -/
abbrev stagingWf (s : State) : Prop := StagingOk s.staging

theorem stagingRead_write_same (s : State) (b i : Nat) (v : Byte) (h : stagingWf s) :
    stagingRead (stagingWrite s b i v) b i = v := Memory.read_write_same _ _ _ _ 0 h

theorem stagingRead_write_other (s : State) (b i c j : Nat) (v : Byte) (h : stagingAddr c j ≠ stagingAddr b i) :
    stagingRead (stagingWrite s b i v) c j = stagingRead s c j := Memory.read_write_other _ _ _ _ _ h

@[simp] theorem stagingWf_write (s : State) (b i : Nat) (v : Byte) (h : stagingWf s) :
    stagingWf (stagingWrite s b i v) := Memory.wf_write _ _ _ _ h

@[simp] theorem stagingWf_writeList (s : State) (b i : Nat) (l : List Byte) (h : stagingWf s) :
    stagingWf (stagingWriteList s b i l) := by
  induction l generalizing s i with
  | nil => exact h
  | cons v vs ih => exact ih _ _ (stagingWf_write s b i v h)

end Sys2Proof.Machine
end

