-- ==== Sys2Proof/Laws/Order.lean ====
section
/-! SUPPORT. The tables keep their order and the staging buffers their canonical form under every operation of the store
engine: the directory, the freeze list and the commit table (R48, R60, R125). One lemma per operation, tagged simp. -/

namespace Sys2Proof.Machine

/-! ### The tables themselves -/

theorem dirOk_put (k : Key) (f : DirEntry → DirEntry) (d : List DirEntry) (hk : ∀ e, (f e).key = e.key)
    (hp : ∀ e, (f e).committed.isSome = true ∨ (f e).pending.isSome = true) (h : DirOk d) : DirOk (dirPut k f d) := by
  have lower : ∀ (d : List DirEntry) (x : DirEntry), (∀ e ∈ d, x.key < e.key) → x.key < k →
      ∀ e ∈ dirPut k f d, x.key < e.key := by
    intro d
    induction d with
    | nil => intro x _ hx e he; simp only [dirPut, List.mem_singleton] at he; rw [he, hk]; exact hx
    | cons y ys ih =>
      intro x hall hx e he
      unfold dirPut at he
      split at he
      · rcases List.mem_cons.1 he with rfl | he
        · rw [hk]; exact hx
        · exact hall e he
      · split at he
        · rcases List.mem_cons.1 he with rfl | he
          · rw [hk]; exact hall y (List.mem_cons_self ..)
          · exact hall e (List.mem_cons_of_mem _ he)
        · rcases List.mem_cons.1 he with rfl | he
          · exact hall _ (List.mem_cons_self ..)
          · exact ih x (fun e he => hall e (List.mem_cons_of_mem _ he)) hx e he
  obtain ⟨ho, hparts⟩ := h
  constructor
  · induction d with
    | nil => simp [dirPut]
    | cons y ys ih =>
      rw [List.pairwise_cons] at ho
      unfold dirPut
      split
      · rename_i hlt
        rw [List.pairwise_cons]
        refine ⟨fun e he => ?_, List.pairwise_cons.2 ho⟩
        rw [hk]
        rcases List.mem_cons.1 he with rfl | he
        · exact hlt
        · exact BitVec.lt_trans hlt (ho.1 e he)
      · split
        · rw [List.pairwise_cons]
          exact ⟨fun e he => by rw [hk]; exact ho.1 e he, ho.2⟩
        · rename_i hnl hne
          rw [List.pairwise_cons]
          have hyk : y.key < k := by
            rw [BitVec.lt_def] at hnl ⊢
            have : k.toNat ≠ y.key.toNat := fun e => hne (BitVec.eq_of_toNat_eq e)
            omega
          exact ⟨lower ys y ho.1 hyk, ih ho.2 (fun e he => hparts e (List.mem_cons_of_mem _ he))⟩
  · clear ho lower
    induction d with
    | nil => intro e he; simp only [dirPut, List.mem_singleton] at he; rw [he]; exact hp _
    | cons y ys ih =>
      intro e he
      unfold dirPut at he
      split at he
      · rcases List.mem_cons.1 he with rfl | he
        · exact hp _
        · exact hparts e he
      · split at he
        · rcases List.mem_cons.1 he with rfl | he
          · exact hp _
          · exact hparts e (List.mem_cons_of_mem _ he)
        · rcases List.mem_cons.1 he with rfl | he
          · exact hparts _ (List.mem_cons_self ..)
          · exact ih (fun e he => hparts e (List.mem_cons_of_mem _ he)) e he

theorem dirOrder_map (f : DirEntry → DirEntry) (d : List DirEntry) (hk : ∀ e, (f e).key = e.key)
    (h : d.Pairwise (fun a b => a.key < b.key)) : (d.map f).Pairwise (fun a b => a.key < b.key) := by
  rw [List.pairwise_map]
  simpa only [hk] using h

theorem dirOk_map (k : Key) (f : DirEntry → DirEntry) (d : List DirEntry) (hk : ∀ e, (f e).key = e.key)
    (hp : ∀ e, (e.committed.isSome = true ∨ e.pending.isSome = true) →
      ((f e).committed.isSome = true ∨ (f e).pending.isSome = true)) (h : DirOk d) : DirOk (dirMap k f d) := by
  refine ⟨dirOrder_map _ d (fun e => ?_) h.1, fun e he => ?_⟩
  · split
    · exact hk e
    · rfl
  · obtain ⟨x, hx, rfl⟩ := List.mem_map.1 he
    split
    · exact hp x (h.2 x hx)
    · exact h.2 x hx

theorem dirOk_prune (d : List DirEntry) (h : d.Pairwise (fun a b => a.key < b.key)) : DirOk (dirPrune d) := by
  refine ⟨List.Pairwise.filter _ h, fun e he => ?_⟩
  simpa [dirPrune] using (List.mem_filter.1 he).2

theorem freezeOk_insert (x : FreezeEntry) (l : List FreezeEntry) (h : FreezeOk l) : FreezeOk (freezeInsert x l) := by
  have lower : ∀ (l : List FreezeEntry) (y : FreezeEntry),
      (∀ e ∈ l, y.lo < e.lo ∨ (y.lo = e.lo ∧ y.hi < e.hi)) → (y.lo < x.lo ∨ (y.lo = x.lo ∧ y.hi < x.hi)) →
      ∀ e ∈ freezeInsert x l, y.lo < e.lo ∨ (y.lo = e.lo ∧ y.hi < e.hi) := by
    intro l
    induction l with
    | nil => intro y _ hy e he; simp only [freezeInsert, List.mem_singleton] at he; rw [he]; exact hy
    | cons f fs ih =>
      intro y hall hy e he
      unfold freezeInsert at he
      split at he
      · rcases List.mem_cons.1 he with rfl | he
        · exact hy
        · exact hall e (List.mem_cons_of_mem _ he)
      · split at he
        · rcases List.mem_cons.1 he with rfl | he
          · exact hy
          · exact hall e he
        · rcases List.mem_cons.1 he with rfl | he
          · exact hall _ (List.mem_cons_self ..)
          · exact ih y (fun e he => hall e (List.mem_cons_of_mem _ he)) hy e he
  unfold FreezeOk at h ⊢
  induction l with
  | nil => simp [freezeInsert]
  | cons f fs ih =>
    rw [List.pairwise_cons] at h
    unfold freezeInsert
    split
    · rename_i he
      rw [List.pairwise_cons]
      exact ⟨fun e hm => by rw [he.1, he.2]; exact h.1 e hm, h.2⟩
    · rename_i hne
      split
      · rename_i hlt
        rw [List.pairwise_cons]
        refine ⟨fun e hm => ?_, List.pairwise_cons.2 h⟩
        rcases List.mem_cons.1 hm with rfl | hm
        · exact hlt
        · have := h.1 e hm
          simp only [BitVec.lt_def, ← BitVec.toNat_inj] at hlt this ⊢
          omega
      · rename_i hnl
        rw [List.pairwise_cons]
        refine ⟨lower fs f h.1 ?_, ih h.2⟩
        simp only [BitVec.lt_def, ← BitVec.toNat_inj] at hne hnl ⊢
        omega

theorem commitOk_insert (x : CommitEntry) (l : List CommitEntry) (h : CommitOk l) : CommitOk (commitInsert x l) := by
  have lower : ∀ (l : List CommitEntry) (y : CommitEntry), (∀ e ∈ l, y.bid < e.bid) → y.bid < x.bid →
      ∀ e ∈ commitInsert x l, y.bid < e.bid := by
    intro l
    induction l with
    | nil => intro y _ hy e he; simp only [commitInsert, List.mem_singleton] at he; rw [he]; exact hy
    | cons f fs ih =>
      intro y hall hy e he
      unfold commitInsert at he
      split at he
      · rcases List.mem_cons.1 he with rfl | he
        · exact hy
        · exact hall e (List.mem_cons_of_mem _ he)
      · split at he
        · rcases List.mem_cons.1 he with rfl | he
          · exact hy
          · exact hall e he
        · rcases List.mem_cons.1 he with rfl | he
          · exact hall _ (List.mem_cons_self ..)
          · exact ih y (fun e he => hall e (List.mem_cons_of_mem _ he)) hy e he
  unfold CommitOk at h ⊢
  induction l with
  | nil => simp [commitInsert]
  | cons f fs ih =>
    rw [List.pairwise_cons] at h
    unfold commitInsert
    split
    · rename_i he
      rw [List.pairwise_cons]
      exact ⟨fun e hm => by rw [he]; exact h.1 e hm, h.2⟩
    · rename_i hne
      split
      · rename_i hlt
        rw [List.pairwise_cons]
        refine ⟨fun e hm => ?_, List.pairwise_cons.2 h⟩
        rcases List.mem_cons.1 hm with rfl | hm
        · exact hlt
        · exact BitVec.lt_trans hlt (h.1 e hm)
      · rename_i hnl
        rw [List.pairwise_cons]
        refine ⟨lower fs f h.1 ?_, ih h.2⟩
        simp only [BitVec.lt_def, ← BitVec.toNat_inj] at hne hnl ⊢
        omega

@[simp] theorem dirOk_nil : DirOk [] := ⟨List.Pairwise.nil, by simp⟩

@[simp] theorem freezeOk_nil : FreezeOk [] := List.Pairwise.nil

@[simp] theorem commitOk_nil : CommitOk [] := List.Pairwise.nil

theorem freezeOk_map (f : FreezeEntry → FreezeEntry) (l : List FreezeEntry) (hf : ∀ x, (f x).lo = x.lo ∧ (f x).hi = x.hi)
    (h : FreezeOk l) : FreezeOk (l.map f) := by
  unfold FreezeOk at h ⊢
  rw [List.pairwise_map]
  simpa only [(hf _).1, (hf _).2] using h

theorem commitOk_map (f : CommitEntry → CommitEntry) (l : List CommitEntry) (hf : ∀ x, (f x).bid = x.bid)
    (h : CommitOk l) : CommitOk (l.map f) := by
  unfold CommitOk at h ⊢
  rw [List.pairwise_map]
  simpa only [hf] using h

/-! ### The operations of the engine -/

/-- The tables and the staging buffers stay in their form. -/
abbrev OrderKept (s t : State) : Prop :=
  (DirOk s.dir → DirOk t.dir) ∧ (FreezeOk s.freezes → FreezeOk t.freezes)
  ∧ (CommitOk s.commits → CommitOk t.commits) ∧ (StagingOk s.staging → StagingOk t.staging)

@[simp] theorem order_raise (s : State) (a : Alert) : OrderKept s (raise s a) := by simp [OrderKept, raise]

@[simp] theorem order_setLine (s : State) (l : Loc) (v : Line) : OrderKept s (setLine s l v) := by
  unfold setLine; try dsimp only
  repeat' split
  all_goals simp (maxDischargeDepth := 20) +contextual [OrderKept]

@[simp] theorem order_eraseSegment (s : State) (n : Nat) : OrderKept s (eraseSegment s n) := by
  unfold eraseSegment
  simp (maxDischargeDepth := 20) +contextual [OrderKept]

@[simp] theorem order_stagingWrite (s : State) (b i : Nat) (v : Byte) : OrderKept s (stagingWrite s b i v) := by
  exact ⟨fun h => h, fun h => h, fun h => h, fun h => stagingWf_write s b i v h⟩

@[simp] theorem order_stagingWriteList (s : State) (b i : Nat) (l : List Byte) :
    OrderKept s (stagingWriteList s b i l) := by
  induction l generalizing s i with
  | nil => simp [OrderKept, stagingWriteList]
  | cons v vs ih =>
    have h := ih (stagingWrite s b i v) (i + 1)
    exact ⟨fun a => h.1 (by simp (maxDischargeDepth := 20) [a]), fun a => h.2.1 (by simp (maxDischargeDepth := 20) [a]),
        fun a => h.2.2.1 (by simp (maxDischargeDepth := 20) [a]),
      fun a => h.2.2.2 (by simp (maxDischargeDepth := 20) [a])⟩

@[simp] theorem order_segUpd (s : State) (n : Nat) (f : SegEntry → SegEntry) : OrderKept s (segUpd s n f) := by
  unfold segUpd; try dsimp only
  repeat' split
  all_goals simp (maxDischargeDepth := 20) +contextual [OrderKept]

@[simp] theorem order_setSegState (s : State) (n : Nat) (st : SegState) : OrderKept s (setSegState s n st) := by
  unfold setSegState
  simp (maxDischargeDepth := 20) +contextual [OrderKept]

@[simp] theorem order_journalUpd (s : State) (n : Nat) (f : Journal → Journal) :
    OrderKept s (journalUpd s n f) := by
  unfold journalUpd
  simp (maxDischargeDepth := 20) +contextual [OrderKept]

@[simp] theorem order_accountLive (s : State) (n e : Nat) : OrderKept s (accountLive s n e) := by
  unfold accountLive
  simp (maxDischargeDepth := 20) +contextual [OrderKept]

@[simp] theorem order_accountDead (s : State) (n e : Nat) : OrderKept s (accountDead s n e) := by
  unfold accountDead
  simp (maxDischargeDepth := 20) +contextual [OrderKept]

@[simp] theorem order_killLines (s : State) (n e : Nat) : OrderKept s (killLines s n e) := by
  unfold killLines
  simp (maxDischargeDepth := 20) +contextual [OrderKept]

@[simp] theorem order_pinUp (s : State) (n : Nat) : OrderKept s (pinUp s n) := by
  unfold pinUp
  simp (maxDischargeDepth := 20) +contextual [OrderKept]

@[simp] theorem order_clearPins (s : State) : OrderKept s (clearPins s) := by
  unfold clearPins
  simp (maxDischargeDepth := 20) +contextual [OrderKept]

@[simp] theorem order_closeSegment (s : State) (n : Nat) : OrderKept s (closeSegment s n) := by
  unfold closeSegment
  simp (maxDischargeDepth := 20) +contextual [OrderKept]

@[simp] theorem order_countFault (s : State) (n : Nat) : OrderKept s (countFault s n) := by
  unfold countFault
  simp (maxDischargeDepth := 20) +contextual [OrderKept]

@[simp] theorem order_emptyTable (s : State) : OrderKept s (emptyTable s) := by
  unfold emptyTable
  simp (maxDischargeDepth := 20) +contextual [OrderKept]

@[simp] theorem order_killPart (s : State) (p : Part) : OrderKept s (killPart s p) := by
  unfold killPart
  simp (maxDischargeDepth := 20) +contextual [OrderKept]

@[simp] theorem order_killPart_opt (s : State) (o : Option Part) : OrderKept s (killPart? s o) := by
  unfold killPart?; split <;> simp (maxDischargeDepth := 20) +contextual [OrderKept]

@[simp] theorem dir_killPart (s : State) (p : Part) : (killPart s p).dir = s.dir := by
  unfold killPart killLines journalUpd segUpd; dsimp only; split <;> rfl

@[simp] theorem order_publishCommitted (s : State) (key : Key) (p : Part) : OrderKept s (publishCommitted s key p) := by
  unfold publishCommitted; dsimp only
  refine ⟨fun h => dirOk_put _ _ _ (fun _ => rfl) (fun _ => Or.inl rfl) h, ?_⟩
  simp (maxDischargeDepth := 20) +contextual

@[simp] theorem order_publishPending (s : State) (key : Key) (p : Part) : OrderKept s (publishPending s key p) := by
  unfold publishPending; dsimp only
  refine ⟨fun h => dirOk_put _ _ _ (fun _ => rfl) (fun _ => Or.inr rfl) h, ?_⟩
  simp (maxDischargeDepth := 20) +contextual

@[simp] theorem order_promoteKey (s : State) (key : Key) : OrderKept s (promoteKey s key) := by
  unfold promoteKey
  repeat' split
  · simp [OrderKept]
  · simp [OrderKept]
  · refine ⟨fun h => dirOk_map _ _ _ (fun _ => rfl) (fun _ _ => Or.inl rfl) h, ?_⟩
    simp (maxDischargeDepth := 20) +contextual

@[simp] theorem order_promoteAll (s : State) (ms : List Member) : OrderKept s (promoteAll s ms) := by
  unfold promoteAll
  induction ms generalizing s with
  | nil => simp [OrderKept]
  | cons m ms ih =>
    rw [List.foldl_cons]
    have h := ih (promoteKey s m.key)
    exact ⟨fun a => h.1 (by simp (maxDischargeDepth := 20) [a]), fun a => h.2.1 (by simp (maxDischargeDepth := 20) [a]),
        fun a => h.2.2.1 (by simp (maxDischargeDepth := 20) [a]),
      fun a => h.2.2.2 (by simp (maxDischargeDepth := 20) [a])⟩

theorem order_killAll (s : State) (ps : List Part) : OrderKept s (ps.foldl killPart s) := by
  induction ps generalizing s with
  | nil => simp [OrderKept]
  | cons p ps ih =>
    rw [List.foldl_cons]
    have h := ih (killPart s p)
    exact ⟨fun a => h.1 (by simp (maxDischargeDepth := 20) [a]), fun a => h.2.1 (by simp (maxDischargeDepth := 20) [a]),
        fun a => h.2.2.1 (by simp (maxDischargeDepth := 20) [a]),
      fun a => h.2.2.2 (by simp (maxDischargeDepth := 20) [a])⟩

@[simp] theorem order_dropPending (s : State) : OrderKept s (dropPending s) := by
  have h := order_killAll s (s.dir.filterMap DirEntry.pending)
  refine ⟨fun a => ?_, h.2⟩
  exact dirOk_prune _ (dirOrder_map _ _ (fun _ => rfl) a.1)

@[simp] theorem order_dropTombstone (s : State) (key : Key) : OrderKept s (dropTombstone s key) := by
  refine ⟨fun h => dirOk_prune _ (dirOrder_map _ _ (fun e => ?_) h.1), by simp [dropTombstone]⟩
  split <;> rfl

@[simp] theorem order_dirRepoint (s : State) (key : Key) (copy : Loc) : OrderKept s (dirRepoint s key copy) := by
  refine ⟨fun h => dirOk_map _ _ _ (fun _ => rfl) (fun e he => ?_) h, by simp [dirRepoint]⟩
  simpa using he

@[simp] theorem order_syncIdle (s : State) : OrderKept s (syncIdle s) := by
  unfold syncIdle
  simp (maxDischargeDepth := 20) +contextual [OrderKept]

@[simp] theorem order_teardown (s : State) (own : Bool) : OrderKept s (teardown s own) := by
  unfold teardown; try dsimp only
  repeat' split
  all_goals simp (maxDischargeDepth := 20) +contextual [OrderKept]

@[simp] theorem order_setTag (s : State) (t : Nat) (v : TagState) : OrderKept s (setTag s t v) := by
  unfold setTag
  simp (maxDischargeDepth := 20) +contextual [OrderKept]

@[simp] theorem order_postHost (s : State) (t : Nat) (r : Result) : OrderKept s (postHost s t r) := by
  unfold postHost
  simp (maxDischargeDepth := 20) +contextual [OrderKept]

@[simp] theorem order_setSlot (s : State) (b : Bool) (v : Slot) : OrderKept s (setSlot s b v) := by
  unfold setSlot; try dsimp only
  repeat' split
  all_goals simp (maxDischargeDepth := 20) +contextual [OrderKept]

@[simp] theorem order_answerRunning (s : State) (b : Bool) (frame : List Byte) :
    OrderKept s (answerRunning s b frame) := by
  unfold answerRunning; try dsimp only
  repeat' split
  all_goals simp (maxDischargeDepth := 20) +contextual [OrderKept]

@[simp] theorem order_postResult (s : State) (c : Ctx) (r : Result) : OrderKept s (postResult s c r) := by
  unfold postResult; try dsimp only
  repeat' split
  all_goals simp (maxDischargeDepth := 20) +contextual [OrderKept]

@[simp] theorem order_complete (s : State) (r : Result) : OrderKept s (complete s r) := by
  unfold complete; try dsimp only
  repeat' split
  all_goals simp (maxDischargeDepth := 20) +contextual [OrderKept]

@[simp] theorem order_completeFail (s : State) (st : Status) : OrderKept s (completeFail s st) := by
  unfold completeFail; try dsimp only
  repeat' split
  all_goals simp (maxDischargeDepth := 20) +contextual [OrderKept]

@[simp] theorem order_modCtx (s : State) (f : Ctx → Ctx) : OrderKept s (modCtx s f) := by
  unfold modCtx
  simp (maxDischargeDepth := 20) +contextual [OrderKept]

@[simp] theorem order_setStage (s : State) (st : Stage) : OrderKept s (setStage s st) := by
  unfold setStage
  simp (maxDischargeDepth := 20) +contextual [OrderKept]

@[simp] theorem order_enterReadOnly (s : State) : OrderKept s (enterReadOnly s) := by
  unfold enterReadOnly; try dsimp only
  repeat' split
  all_goals simp (maxDischargeDepth := 20) +contextual [OrderKept]

@[simp] theorem order_retireSegment (s : State) (n : Nat) : OrderKept s (retireSegment s n) := by
  unfold retireSegment; try dsimp only
  repeat' split
  all_goals simp (maxDischargeDepth := 20) +contextual [OrderKept]

@[simp] theorem order_issue (s : State) (op : SeqOp) : OrderKept s (issue s op) := by
  unfold issue; try dsimp only
  repeat' split
  all_goals simp (maxDischargeDepth := 20) +contextual [OrderKept]

@[simp] theorem order_prepIssue (s : State) (n : Nat) (p : PrepStage) (vid : Word) :
    OrderKept s (prepIssue s n p vid) := by
  unfold prepIssue; try dsimp only
  repeat' split
  all_goals simp (maxDischargeDepth := 20) +contextual [OrderKept]

@[simp] theorem order_eraseEnded (s : State) (n : Nat) : OrderKept s (eraseEnded s n) := by
  unfold eraseEnded; try dsimp only
  repeat' split
  all_goals simp (maxDischargeDepth := 20) +contextual [OrderKept]

@[simp] theorem order_segmentPrepared (s : State) (n : Nat) : OrderKept s (segmentPrepared s n) := by
  unfold segmentPrepared
  simp (maxDischargeDepth := 20) +contextual [OrderKept]

@[simp] theorem order_prepReport (s : State) (n : Nat) (p : PrepStage) (vid : Word) (rep : Report) :
    OrderKept s (prepReport s n p vid rep).1 := by
  unfold prepReport; try dsimp only
  repeat' split
  all_goals simp (maxDischargeDepth := 20) +contextual [OrderKept]

@[simp] theorem order_takeEpoch (s : State) : OrderKept s (takeEpoch s) := by
  unfold takeEpoch; try dsimp only
  repeat' split
  all_goals simp (maxDischargeDepth := 20) +contextual [OrderKept]

@[simp] theorem order_closeOpen (s : State) : OrderKept s (closeOpen s) := by
  unfold closeOpen; try dsimp only
  repeat' split
  all_goals simp (maxDischargeDepth := 20) +contextual [OrderKept]

@[simp] theorem order_startOpening (s : State) (n : Nat) (failed : Option Nat) :
    OrderKept s (startOpening s n failed).1 := by
  unfold startOpening
  simp (maxDischargeDepth := 20) +contextual [OrderKept]

@[simp] theorem order_openReport (s : State) (o : Opening) (rep : Report) : OrderKept s (openReport s o rep).1 := by
  unfold openReport; try dsimp only
  repeat' split
  all_goals simp (maxDischargeDepth := 20) +contextual [OrderKept]

@[simp] theorem order_assign (s : State) (l : Loc) : OrderKept s (assign s l) := by
  unfold assign; try dsimp only
  repeat' split
  all_goals simp (maxDischargeDepth := 20) +contextual [OrderKept]

@[simp] theorem order_loseBatch (s : State) : OrderKept s (loseBatch s) := by
  unfold loseBatch; try dsimp only
  repeat' split
  all_goals simp (maxDischargeDepth := 20) +contextual [OrderKept]

@[simp] theorem order_waitOrFull (s : State) : OrderKept s (waitOrFull s) := by
  unfold waitOrFull; try dsimp only
  repeat' split
  all_goals simp (maxDischargeDepth := 20) +contextual [OrderKept]

@[simp] theorem order_admitCommand (s : State) (failed : Option Nat) : OrderKept s (admitCommand s failed) := by
  unfold admitCommand; try dsimp only
  repeat' split
  all_goals simp (maxDischargeDepth := 20) +contextual [OrderKept]

@[simp] theorem order_abandonRecord (s : State) : OrderKept s (abandonRecord s) := by
  unfold abandonRecord; try dsimp only
  repeat' split
  all_goals simp (maxDischargeDepth := 20) +contextual [OrderKept]

@[simp] theorem order_commitBatch (s : State) (c : Ctx) : OrderKept s (commitBatch s c) := by
  unfold commitBatch
  split
  · simp (maxDischargeDepth := 20) +contextual [OrderKept]
  · refine ⟨by simp (maxDischargeDepth := 20) +contextual, by simp (maxDischargeDepth := 20) +contextual, fun a =>
      commitOk_insert _ _ (by simp (maxDischargeDepth := 20) [a]), by simp (maxDischargeDepth := 20) +contextual⟩

@[simp] theorem order_publish (s : State) (c : Ctx) : OrderKept s (publish s c) := by
  cases h : c.cmd <;> simp only [publish, h]
  case put => split <;> simp (maxDischargeDepth := 20) +contextual [OrderKept]
  case delete => split <;> simp (maxDischargeDepth := 20) +contextual [OrderKept]
  case freeze lo hi =>
    refine ⟨by simp (maxDischargeDepth := 20) +contextual, fun a => freezeOk_insert _ _ (by simp (maxDischargeDepth :=
        20) [a]), by simp (maxDischargeDepth := 20) +contextual, by simp (maxDischargeDepth := 20) +contextual⟩
  all_goals simp (maxDischargeDepth := 20) +contextual [OrderKept]

@[simp] theorem order_appendDone (s : State) (c : Ctx) : OrderKept s (appendDone s c) := by
  unfold appendDone; try dsimp only
  repeat' split
  all_goals simp (maxDischargeDepth := 20) +contextual [OrderKept]

@[simp] theorem order_appendFault (s : State) (c : Ctx) : OrderKept s (appendFault s c) := by
  unfold appendFault; try dsimp only
  repeat' split
  all_goals simp (maxDischargeDepth := 20) +contextual [OrderKept]

@[simp] theorem order_openingNext (r : State × OpenNext) (c : Ctx) (o : Opening) :
    OrderKept r.1 (openingNext r c o) := by
  unfold openingNext; try dsimp only
  repeat' split
  all_goals simp (maxDischargeDepth := 20) +contextual [OrderKept]

@[simp] theorem order_appendReport (s : State) (c : Ctx) (rep : Report) : OrderKept s (appendReport s c rep) := by
  unfold appendReport; try dsimp only
  repeat' split
  all_goals simp (maxDischargeDepth := 20) +contextual [OrderKept]

@[simp] theorem order_readContent (s : State) (l : Line) : OrderKept s (readContent s l).2 := by
  unfold readContent; split <;> simp [OrderKept]

@[simp] theorem order_modJob (s : State) (f : ReadJob → ReadJob) : OrderKept s (modJob s f) := by
  unfold modJob; simp (maxDischargeDepth := 20) +contextual [OrderKept]

@[simp] theorem order_placeBytes (s : State) (c : Ctx) (buf i : Nat) (v : List Byte) :
    OrderKept s (placeBytes s c buf i v) := by
  unfold placeBytes; try dsimp only
  repeat' split
  all_goals simp (maxDischargeDepth := 20) +contextual [OrderKept]

@[simp] theorem order_startGet (s : State) (key : Key) : OrderKept s (startGet s key) := by
  unfold startGet; try dsimp only
  repeat' split
  all_goals simp (maxDischargeDepth := 20) +contextual [OrderKept]

@[simp] theorem order_getReport (s : State) (c : Ctx) (buf : Nat) (l : Line) :
    OrderKept s (getReport s c buf l) := by
  unfold getReport; try dsimp only
  repeat' split
  all_goals simp (maxDischargeDepth := 20) +contextual [OrderKept]

@[simp] theorem order_listNext (s : State) (key : Key) (p : Part) : OrderKept s (listNext s key p) := by
  unfold listNext
  simp (maxDischargeDepth := 20) +contextual [OrderKept]

@[simp] theorem order_startList (s : State) (after : Key) : OrderKept s (startList s after) := by
  unfold startList; try dsimp only
  repeat' split
  all_goals simp (maxDischargeDepth := 20) +contextual [OrderKept]

@[simp] theorem order_listReport (s : State) (c : Ctx) (buf count : Nat) (l : Line) :
    OrderKept s (listReport s c buf count l) := by
  unfold listReport; try dsimp only
  repeat' split
  all_goals simp (maxDischargeDepth := 20) +contextual [OrderKept]

@[simp] theorem order_modRc (s : State) (f : Reclaim → Reclaim) : OrderKept s (modRc s f) := by
  unfold modRc
  simp (maxDischargeDepth := 20) +contextual [OrderKept]

@[simp] theorem order_startVictim (s : State) (v : Nat) : OrderKept s (startVictim s v) := by
  unfold startVictim
  simp (maxDischargeDepth := 20) +contextual [OrderKept]

@[simp] theorem order_returnVictim (s : State) (v : Nat) : OrderKept s (returnVictim s v) := by
  unfold returnVictim
  simp (maxDischargeDepth := 20) +contextual [OrderKept]

@[simp] theorem order_tellTrigger (s : State) (res : Result) : OrderKept s (tellTrigger s res) := by
  unfold tellTrigger; try dsimp only
  repeat' split
  all_goals simp (maxDischargeDepth := 20) +contextual [OrderKept]

@[simp] theorem order_victimLeaves (s : State) (r : Reclaim) (e : VictimEnd) :
    OrderKept s (victimLeaves s r e) := by
  unfold victimLeaves; try dsimp only
  repeat' split
  all_goals simp (maxDischargeDepth := 20) +contextual [OrderKept]

@[simp] theorem order_releaseStep (s : State) : OrderKept s (releaseStep s) := by
  unfold releaseStep
  simp (maxDischargeDepth := 20) +contextual [OrderKept]

@[simp] theorem order_passRecord (s : State) (e : Nat) : OrderKept s (passRecord s e) := by
  unfold passRecord
  simp (maxDischargeDepth := 20) +contextual [OrderKept]

@[simp] theorem order_endWalk (s : State) : OrderKept s (endWalk s) := by
  unfold endWalk
  simp (maxDischargeDepth := 20) +contextual [OrderKept]

@[simp] theorem order_dropRecord (s : State) (h : Hdr) (l : Loc) : OrderKept s (dropRecord s h l) := by
  unfold dropRecord; dsimp only
  split
  · simp (maxDischargeDepth := 20) +contextual [OrderKept]
  · refine ⟨by simp (maxDischargeDepth := 20) +contextual, by simp (maxDischargeDepth := 20) +contextual, fun a =>
      ?_, by simp (maxDischargeDepth := 20) +contextual⟩
    exact List.Pairwise.filter _ (show CommitOk (killLines s l.seg (extentOf h.len)).commits by simp (maxDischargeDepth :=
        20) [a])
  · simp (maxDischargeDepth := 20) +contextual [OrderKept]
  · simp (maxDischargeDepth := 20) +contextual [OrderKept]

@[simp] theorem order_placeCopy (s : State) (a : Attempt) (l : Loc) : OrderKept s (placeCopy s a l) := by
  unfold placeCopy
  simp (maxDischargeDepth := 20) +contextual [OrderKept]

@[simp] theorem order_admitCopy (s : State) (r : Reclaim) (a : Attempt) (failed : Option Nat) :
    OrderKept s (admitCopy s r a failed) := by
  unfold admitCopy; try dsimp only
  repeat' split
  all_goals simp (maxDischargeDepth := 20) +contextual [OrderKept]

@[simp] theorem order_buildCopy (s : State) (r : Reclaim) (a : Attempt) : OrderKept s (buildCopy s r a) := by
  unfold buildCopy
  simp (maxDischargeDepth := 20) +contextual [OrderKept]

@[simp] theorem order_startCopy (s : State) (r : Reclaim) (h : Hdr) (l : Loc) :
    OrderKept s (startCopy s r h l) := by
  unfold startCopy; try dsimp only
  repeat' split
  all_goals simp (maxDischargeDepth := 20) +contextual [OrderKept]

@[simp] theorem order_copyData (s : State) (r : Reclaim) (a : Attempt) (k : Nat) (l : Line) :
    OrderKept s (copyData s r a k l) := by
  unfold copyData; try dsimp only
  repeat' split
  all_goals simp (maxDischargeDepth := 20) +contextual [OrderKept]

@[simp] theorem order_repoint (s : State) (a : Attempt) : OrderKept s (repoint s a) := by
  unfold repoint
  split
  · simp (maxDischargeDepth := 20) +contextual [OrderKept]
  · simp (maxDischargeDepth := 20) +contextual [OrderKept]
  · exact ⟨fun h => h, fun h => h, fun h => commitOk_map _ _ (fun x => by split <;> rfl) h, fun h => h⟩
  · exact ⟨fun h => h, fun h => freezeOk_map _ _ (fun x => by split <;> exact ⟨rfl, rfl⟩) h, fun h => h, fun h => h⟩

@[simp] theorem order_copyComplete (s : State) (r : Reclaim) (a : Attempt) : OrderKept s (copyComplete s r a) := by
  unfold copyComplete; try dsimp only
  repeat' split
  all_goals simp (maxDischargeDepth := 20) +contextual [OrderKept]

@[simp] theorem order_copyDone (s : State) (r : Reclaim) (a : Attempt) (k : Nat) :
    OrderKept s (copyDone s r a k) := by
  unfold copyDone; try dsimp only
  repeat' split
  all_goals simp (maxDischargeDepth := 20) +contextual [OrderKept]

@[simp] theorem order_copyFault (s : State) (r : Reclaim) (a : Attempt) : OrderKept s (copyFault s r a) := by
  unfold copyFault; try dsimp only
  repeat' split
  all_goals simp (maxDischargeDepth := 20) +contextual [OrderKept]

@[simp] theorem order_copyOpening (x : State × OpenNext) (r : Reclaim) (a : Attempt) (o : Opening) :
    OrderKept x.1 (copyOpening x r a o) := by
  unfold copyOpening; try dsimp only
  repeat' split
  all_goals simp (maxDischargeDepth := 20) +contextual [OrderKept]

@[simp] theorem order_walkHeader (s : State) (r : Reclaim) (l : Line) : OrderKept s (walkHeader s r l) := by
  unfold walkHeader; try dsimp only
  repeat' split
  all_goals simp (maxDischargeDepth := 20) +contextual [OrderKept]

@[simp] theorem order_finishReport (s : State) (r : Reclaim) (p : PrepStage) (rep : Report) :
    OrderKept s (finishReport s r p rep) := by
  unfold finishReport; try dsimp only
  repeat' split
  all_goals simp (maxDischargeDepth := 20) +contextual [OrderKept]

@[simp] theorem order_reclaimReport (s : State) (r : Reclaim) (rep : Report) :
    OrderKept s (reclaimReport s r rep) := by
  unfold reclaimReport; try dsimp only
  repeat' split
  all_goals simp (maxDischargeDepth := 20) +contextual [OrderKept]

@[simp] theorem order_walkStep (s : State) (r : Reclaim) : OrderKept s (walkStep s r) := by
  unfold walkStep; try dsimp only
  repeat' split
  all_goals simp (maxDischargeDepth := 20) +contextual [OrderKept]

@[simp] theorem order_grantWalk (s : State) : OrderKept s (grantWalk s) := by
  unfold grantWalk; try dsimp only
  repeat' split
  all_goals simp (maxDischargeDepth := 20) +contextual [OrderKept]

@[simp] theorem order_grantFinish (s : State) : OrderKept s (grantFinish s) := by
  unfold grantFinish; try dsimp only
  repeat' split
  all_goals simp (maxDischargeDepth := 20) +contextual [OrderKept]

@[simp] theorem order_reclaimWalkStep (s : State) : OrderKept s (reclaimWalkStep s) := by
  unfold reclaimWalkStep; try dsimp only
  repeat' split
  all_goals simp (maxDischargeDepth := 20) +contextual [OrderKept]

@[simp] theorem order_reclaimFinishStep (s : State) : OrderKept s (reclaimFinishStep s) := by
  unfold reclaimFinishStep; try dsimp only
  repeat' split
  all_goals simp (maxDischargeDepth := 20) +contextual [OrderKept]

@[simp] theorem order_startReclaim (s : State) : OrderKept s (startReclaim s) := by
  unfold startReclaim; try dsimp only
  repeat' split
  all_goals simp (maxDischargeDepth := 20) +contextual [OrderKept]

@[simp] theorem order_modMu (s : State) (f : MountUnit → MountUnit) : OrderKept s (modMu s f) := by
  unfold modMu
  simp (maxDischargeDepth := 20) +contextual [OrderKept]

@[simp] theorem order_emptyTables (s : State) : OrderKept s (emptyTables s) := by
  unfold emptyTables
  simp (maxDischargeDepth := 20) +contextual [OrderKept]

@[simp] theorem order_mountStart (s : State) : OrderKept s (mountStart s) := by
  unfold mountStart
  simp (maxDischargeDepth := 20) +contextual [OrderKept]

@[simp] theorem order_tellMounter (s : State) (r : Result) : OrderKept s (tellMounter s r) := by
  unfold tellMounter; try dsimp only
  repeat' split
  all_goals simp (maxDischargeDepth := 20) +contextual [OrderKept]

@[simp] theorem order_mountEnd (s : State) (m : MountResult) : OrderKept s (mountEnd s m) := by
  unfold mountEnd; try dsimp only
  repeat' split
  all_goals simp (maxDischargeDepth := 20) +contextual [OrderKept]

@[simp] theorem order_settleNext (s : State) : OrderKept s (settleNext s) := by
  unfold settleNext; try dsimp only
  repeat' split
  all_goals simp (maxDischargeDepth := 20) +contextual [OrderKept]

@[simp] theorem order_settleReport (s : State) (rep : Report) : OrderKept s (settleReport s rep) := by
  unfold settleReport; try dsimp only
  repeat' split
  all_goals simp (maxDischargeDepth := 20) +contextual [OrderKept]

@[simp] theorem order_account (s : State) : OrderKept s (account s) := by
  unfold account
  simp (maxDischargeDepth := 20) +contextual [OrderKept]

@[simp] theorem order_replayEnd (s : State) : OrderKept s (replayEnd s) := by
  unfold replayEnd; try dsimp only
  repeat' split
  all_goals simp (maxDischargeDepth := 20) +contextual [OrderKept]

@[simp] theorem order_replayNext (s : State) : OrderKept s (replayNext s) := by
  unfold replayNext; try dsimp only
  repeat' split
  all_goals simp (maxDischargeDepth := 20) +contextual [OrderKept]

@[simp] theorem order_applyPart (s : State) (key : Key) (p : Part) : OrderKept s (applyPart s key p) := by
  unfold applyPart
  repeat' split
  all_goals first
    | exact ⟨fun h => dirOk_put _ _ _ (fun _ => rfl) (fun _ => Or.inl rfl) h, fun h => h, fun h => h, fun h => h⟩
    | exact ⟨fun h => dirOk_map _ _ _ (fun _ => rfl) (fun _ _ => Or.inl rfl) h, fun h => h, fun h => h, fun h => h⟩
    | simp [OrderKept]

@[simp] theorem order_replayJudged (s : State) (f : FoundRec) (after : List Line) :
    OrderKept s (replayJudged s f after) := by
  unfold replayJudged; try dsimp only
  repeat' split
  all_goals simp (maxDischargeDepth := 20) +contextual [OrderKept]

@[simp] theorem order_replayReport (s : State) (l : Line) : OrderKept s (replayReport s l) := by
  unfold replayReport; try dsimp only
  repeat' split
  all_goals simp (maxDischargeDepth := 20) +contextual [OrderKept]

@[simp] theorem order_collectEnd (s : State) : OrderKept s (collectEnd s) := by
  unfold collectEnd
  simp (maxDischargeDepth := 20) +contextual [OrderKept]

@[simp] theorem order_scanAt (s : State) (l : Loc) : OrderKept s (scanAt s l) := by
  unfold scanAt
  simp (maxDischargeDepth := 20) +contextual [OrderKept]

@[simp] theorem order_scanSegmentEnd (s : State) (n wp : Nat) (stop : Bool) :
    OrderKept s (scanSegmentEnd s n wp stop) := by
  unfold scanSegmentEnd; try dsimp only
  repeat' split
  all_goals simp (maxDischargeDepth := 20) +contextual [OrderKept]

@[simp] theorem order_scanAdvance (s : State) (l : Loc) (e : Nat) : OrderKept s (scanAdvance s l e) := by
  unfold scanAdvance; try dsimp only
  repeat' split
  all_goals simp (maxDischargeDepth := 20) +contextual [OrderKept]

@[simp] theorem order_scanHeader (s : State) (l : Loc) (c : Line) : OrderKept s (scanHeader s l c) := by
  unfold scanHeader; try dsimp only
  repeat' split
  all_goals simp (maxDischargeDepth := 20) +contextual [OrderKept]

@[simp] theorem order_enterCommit (s : State) (f : FoundRec) (bid : Word) : OrderKept s (enterCommit s f bid) := by
  unfold enterCommit modMu
  exact ⟨fun h => h, fun h => h, fun h => commitOk_insert _ _ h, fun h => h⟩

@[simp] theorem order_freezeFound (s : State) (x : FreezeEntry) :
    OrderKept s { s with freezes := freezeInsert x s.freezes } :=
  ⟨fun h => h, fun h => freezeOk_insert _ _ h, fun h => h, fun h => h⟩

@[simp] theorem order_collectJudged (s : State) (f : FoundRec) (after : List Line) :
    OrderKept s (collectJudged s f after) := by
  unfold collectJudged; dsimp only
  repeat' split
  all_goals simp (maxDischargeDepth := 20) +contextual [OrderKept, freezeOk_insert]

@[simp] theorem order_collectReport (s : State) (l : Line) : OrderKept s (collectReport s l) := by
  unfold collectReport; try dsimp only
  repeat' split
  all_goals simp (maxDischargeDepth := 20) +contextual [OrderKept]

@[simp] theorem order_surveyVerdict (s : State) : OrderKept s (surveyVerdict s) := by
  unfold surveyVerdict; try dsimp only
  repeat' split
  all_goals simp (maxDischargeDepth := 20) +contextual [OrderKept]

@[simp] theorem order_surveyNext (s : State) (n : Nat) : OrderKept s (surveyNext s n) := by
  unfold surveyNext; try dsimp only
  repeat' split
  all_goals simp (maxDischargeDepth := 20) +contextual [OrderKept]

@[simp] theorem order_addEntry (s : State) (n : Nat) (st : SegState) (ec : Nat) (known : Bool) :
    OrderKept s (addEntry s n st ec known) := by
  unfold addEntry
  simp (maxDischargeDepth := 20) +contextual [OrderKept]

@[simp] theorem order_surveyLine0 (s : State) (n : Nat) (l : Line) : OrderKept s (surveyLine0 s n l) := by
  unfold surveyLine0; try dsimp only
  repeat' split
  all_goals simp (maxDischargeDepth := 20) +contextual [OrderKept]

@[simp] theorem order_surveyLine1 (s : State) (n : Nat) (l : Line) : OrderKept s (surveyLine1 s n l) := by
  unfold surveyLine1; try dsimp only
  repeat' split
  all_goals simp (maxDischargeDepth := 20) +contextual [OrderKept]

@[simp] theorem order_surveyReport (s : State) (loc : Loc) (l : Line) : OrderKept s (surveyReport s loc l) := by
  unfold surveyReport; try dsimp only
  repeat' split
  all_goals simp (maxDischargeDepth := 20) +contextual [OrderKept]

@[simp] theorem order_mountReport (s : State) (loc : Loc) (rep : Report) : OrderKept s (mountReport s loc rep) := by
  unfold mountReport; try dsimp only
  repeat' split
  all_goals simp (maxDischargeDepth := 20) +contextual [OrderKept]

@[simp] theorem order_setFu (s : State) (f : FormatCtx) : OrderKept s (setFu s f) := by
  unfold setFu
  simp (maxDischargeDepth := 20) +contextual [OrderKept]

@[simp] theorem order_formatEnd (s : State) : OrderKept s (formatEnd s) := by
  unfold formatEnd; try dsimp only
  repeat' split
  all_goals simp (maxDischargeDepth := 20) +contextual [OrderKept]

@[simp] theorem order_step2Next (s : State) (f : FormatCtx) : OrderKept s (step2Next s f) := by
  unfold step2Next; try dsimp only
  repeat' split
  all_goals simp (maxDischargeDepth := 20) +contextual [OrderKept]

@[simp] theorem order_step1Next (s : State) (f : FormatCtx) : OrderKept s (step1Next s f) := by
  unfold step1Next; try dsimp only
  repeat' split
  all_goals simp (maxDischargeDepth := 20) +contextual [OrderKept]

@[simp] theorem order_step1Opened (s : State) (f : FormatCtx) (n : Nat) : OrderKept s (step1Opened s f n) := by
  unfold step1Opened
  simp (maxDischargeDepth := 20) +contextual [OrderKept]

@[simp] theorem order_formatPrepared (s : State) (f : FormatCtx) (n : Nat) (first : Bool) :
    OrderKept s (formatPrepared s f n first) := by
  unfold formatPrepared; try dsimp only
  repeat' split
  all_goals simp (maxDischargeDepth := 20) +contextual [OrderKept]

@[simp] theorem order_formatRetired (s : State) (f : FormatCtx) (n : Nat) (first : Bool) :
    OrderKept s (formatRetired s f n first) := by
  unfold formatRetired; try dsimp only
  repeat' split
  all_goals simp (maxDischargeDepth := 20) +contextual [OrderKept]

@[simp] theorem order_formatStage (s : State) (f : FormatCtx) (n : Nat) (first : Bool) (p : PrepStage) :
    OrderKept s (formatStage s f n first p) := by
  unfold formatStage; try dsimp only
  repeat' split
  all_goals simp (maxDischargeDepth := 20) +contextual [OrderKept]

@[simp] theorem order_formatSegment (s : State) (f : FormatCtx) (n : Nat) (first : Bool) (p : PrepStage) (rep : Report) :
    OrderKept s (formatSegment s f n first p rep) := by
  unfold formatSegment; try dsimp only
  repeat' split
  all_goals simp (maxDischargeDepth := 20) +contextual [OrderKept]

@[simp] theorem order_formatReport (s : State) (f : FormatCtx) (rep : Report) :
    OrderKept s (formatReport s f rep) := by
  unfold formatReport; try dsimp only
  repeat' split
  all_goals simp (maxDischargeDepth := 20) +contextual [OrderKept]

@[simp] theorem order_formatEnter (s : State) (f : FormatCtx) (mounted : Bool) :
    OrderKept s (formatEnter s f mounted) := by
  unfold formatEnter
  simp (maxDischargeDepth := 20) +contextual [OrderKept]

@[simp] theorem order_formatCheckReport (s : State) (f : FormatCtx) (n : Nat) (l : Line) :
    OrderKept s (formatCheckReport s f n l) := by
  unfold formatCheckReport; try dsimp only
  repeat' split
  all_goals simp (maxDischargeDepth := 20) +contextual [OrderKept]

@[simp] theorem order_startFormat (s : State) (expected newId : Word) :
    OrderKept s (startFormat s expected newId) := by
  unfold startFormat; try dsimp only
  repeat' split
  all_goals simp (maxDischargeDepth := 20) +contextual [OrderKept]

@[simp] theorem order_runUnmount (s : State) : OrderKept s (runUnmount s) := by
  unfold runUnmount
  simp (maxDischargeDepth := 20) +contextual [OrderKept]

@[simp] theorem order_haltEnd (s : State) (c : Ctx) : OrderKept s (haltEnd s c) := by
  unfold haltEnd; try dsimp only
  repeat' split
  all_goals simp (maxDischargeDepth := 20) +contextual [OrderKept]

@[simp] theorem order_reclaimStopped (s : State) (st : Status) : OrderKept s (reclaimStopped s st) := by
  unfold reclaimStopped; try dsimp only
  repeat' split
  all_goals simp (maxDischargeDepth := 20) +contextual [OrderKept]

@[simp] theorem order_haltCommand (s : State) : OrderKept s (haltCommand s) := by
  unfold haltCommand; try dsimp only
  repeat' split
  all_goals simp (maxDischargeDepth := 20) +contextual [OrderKept]

@[simp] theorem order_haltReclaim (s : State) : OrderKept s (haltReclaim s) := by
  unfold haltReclaim; try dsimp only
  repeat' split
  all_goals simp (maxDischargeDepth := 20) +contextual [OrderKept]

@[simp] theorem order_answerWaiting (s : State) (b : Bool) (status : Byte) :
    OrderKept s (answerWaiting s b status) := by
  unfold answerWaiting; try dsimp only
  repeat' split
  all_goals simp (maxDischargeDepth := 20) +contextual [OrderKept]

@[simp] theorem order_answerBothWaiting (s : State) (status : Byte) : OrderKept s (answerBothWaiting s status) := by
  unfold answerBothWaiting
  simp (maxDischargeDepth := 20) +contextual [OrderKept]

theorem order_postAll (s : State) (l : List QEntry) (r : Result) :
    OrderKept s (l.foldl (fun t q => postHost t q.tag r) s) := by
  induction l generalizing s with
  | nil => simp [OrderKept]
  | cons q l ih =>
    rw [List.foldl_cons]
    have h := ih (postHost s q.tag r)
    exact ⟨fun a => h.1 (by simp (maxDischargeDepth := 20) [a]), fun a => h.2.1 (by simp (maxDischargeDepth := 20) [a]),
        fun a => h.2.2.1 (by simp (maxDischargeDepth := 20) [a]),
      fun a => h.2.2.2 (by simp (maxDischargeDepth := 20) [a])⟩

@[simp] theorem order_flushQueue (s : State) : OrderKept s (flushQueue s) :=
  order_postAll s s.host.queue (Result.bare .halted)

@[simp] theorem order_haltEntry (s : State) : OrderKept s (haltEntry s) := by
  unfold haltEntry; simp (maxDischargeDepth := 20) +contextual [OrderKept]

@[simp] theorem order_haltIfDue (s : State) : OrderKept s (haltIfDue s) := by
  unfold haltIfDue; try dsimp only
  repeat' split
  all_goals simp (maxDischargeDepth := 20) +contextual [OrderKept]

@[simp] theorem order_commandReport (s : State) (loc : Loc) (rep : Report) :
    OrderKept s (commandReport s loc rep) := by
  unfold commandReport; try dsimp only
  repeat' split
  all_goals simp (maxDischargeDepth := 20) +contextual [OrderKept]

@[simp] theorem order_onReport (s : State) (loc : Loc) (rep : Report) : OrderKept s (onReport s loc rep) := by
  unfold onReport; try dsimp only
  repeat' split
  all_goals simp (maxDischargeDepth := 20) +contextual [OrderKept]

@[simp] theorem order_deliver (s : State) (loc : Loc) (rep : Report) : OrderKept s (deliver s loc rep) := by
  unfold deliver
  simp (maxDischargeDepth := 20) +contextual [OrderKept]

@[simp] theorem order_settleRefused (n : Nat) (s : State) : OrderKept s (settleRefused n s) := by
  induction n generalizing s with
  | zero => simp [OrderKept, settleRefused]
  | succ n ih =>
    unfold settleRefused
    split
    · split
      · simp [OrderKept]
      · rename_i l c hs hl
        have h := ih (deliver { s with seqr := none } l (.programFault .refused))
        exact ⟨fun a => h.1 (by simp (maxDischargeDepth := 20) [a]), fun a => h.2.1 (by simp (maxDischargeDepth := 20) [a]),
            fun a => h.2.2.1 (by simp (maxDischargeDepth := 20) [a]),
          fun a => h.2.2.2 (by simp (maxDischargeDepth := 20) [a])⟩
    · simp [OrderKept]

@[simp] theorem order_checkThenAppend (s : State) : OrderKept s (checkThenAppend s) := by
  unfold checkThenAppend
  repeat' split
  all_goals simp (maxDischargeDepth := 20) +contextual [OrderKept]

@[simp] theorem order_startWrite (s : State) (p : Port) (key : Key) (member del : Bool) :
    OrderKept s (startWrite s p key member del) := by
  unfold startWrite; try dsimp only
  repeat' split
  all_goals simp (maxDischargeDepth := 20) +contextual [OrderKept]

@[simp] theorem order_startBatchOpen (s : State) (p : Port) : OrderKept s (startBatchOpen s p) := by
  unfold startBatchOpen; try dsimp only
  repeat' split
  all_goals simp (maxDischargeDepth := 20) +contextual [OrderKept]

@[simp] theorem order_startBatchCommit (s : State) (p : Port) : OrderKept s (startBatchCommit s p) := by
  unfold startBatchCommit; try dsimp only
  repeat' split
  all_goals simp (maxDischargeDepth := 20) +contextual [OrderKept]

@[simp] theorem order_startBatchAbort (s : State) (p : Port) : OrderKept s (startBatchAbort s p) := by
  unfold startBatchAbort; try dsimp only
  repeat' split
  all_goals simp (maxDischargeDepth := 20) +contextual [OrderKept]

@[simp] theorem order_startFreeze (s : State) (lo hi : Key) : OrderKept s (startFreeze s lo hi) := by
  unfold startFreeze; try dsimp only
  repeat' split
  all_goals simp (maxDischargeDepth := 20) +contextual [OrderKept]

@[simp] theorem order_startMount (s : State) : OrderKept s (startMount s) := by
  unfold startMount; try dsimp only
  repeat' split
  all_goals simp (maxDischargeDepth := 20) +contextual [OrderKept]

@[simp] theorem order_runCommand (s : State) (p : Port) (cmd : Cmd) : OrderKept s (runCommand s p cmd) := by
  unfold runCommand; try dsimp only
  repeat' split
  all_goals simp (maxDischargeDepth := 20) +contextual [OrderKept]

@[simp] theorem order_execute (s : State) (c : Ctx) : OrderKept s (execute s c) := by
  unfold execute; try dsimp only
  repeat' split
  all_goals simp (maxDischargeDepth := 20) +contextual [OrderKept]

@[simp] theorem order_takeHost (s : State) (q : QEntry) : OrderKept s (takeHost s q) := by
  unfold takeHost
  simp (maxDischargeDepth := 20) +contextual [OrderKept]

@[simp] theorem order_takeMgmt (s : State) (b : Bool) : OrderKept s (takeMgmt s b) := by
  unfold takeMgmt; try dsimp only
  repeat' split
  all_goals simp (maxDischargeDepth := 20) +contextual [OrderKept]

@[simp] theorem order_chooseHead (s : State) : OrderKept s (chooseHead s) := by
  unfold chooseHead; try dsimp only
  repeat' split
  all_goals simp (maxDischargeDepth := 20) +contextual [OrderKept]

@[simp] theorem order_runGranted (s : State) : OrderKept s (runGranted s) := by
  unfold runGranted; try dsimp only
  repeat' split
  all_goals simp (maxDischargeDepth := 20) +contextual [OrderKept]

@[simp] theorem order_arbiterGrant (s : State) : OrderKept s (arbiterGrant s) := by
  unfold arbiterGrant; try dsimp only
  repeat' split
  all_goals simp (maxDischargeDepth := 20) +contextual [OrderKept]

@[simp] theorem order_waitSpaceResume (s : State) : OrderKept s (waitSpaceResume s) := by
  unfold waitSpaceResume; try dsimp only
  repeat' split
  all_goals simp (maxDischargeDepth := 20) +contextual [OrderKept]

end Sys2Proof.Machine
end

