-- ==== Sys2Proof/Laws/Tags.lean ====
section
/-! SUPPORT. The law of the tags (R181) and the law of the batch idle timer (R113) under every operation of the store engine.
One lemma per operation, tagged simp. -/

namespace Sys2Proof.Machine

/-- The law of the tags and the law of the batch idle timer stay. -/
abbrev TagsKept (s t : State) : Prop :=
  (TagLaw s.host.tags s.host.queue s.host.cplq (s.inflight.map Ctx.origin) →
    TagLaw t.host.tags t.host.queue t.host.cplq (t.inflight.map Ctx.origin))
  ∧ (IdleLaw (s.batch.map Batch.idle) (s.inflight.map Ctx.batchWork) s.host.queue s.mgmt.slotA s.mgmt.slotB →
    IdleLaw (t.batch.map Batch.idle) (t.inflight.map Ctx.batchWork) t.host.queue t.mgmt.slotA t.mgmt.slotB)

theorem TagsKept.trans {s t u : State} (h : TagsKept s t) (k : TagsKept t u) : TagsKept s u :=
  ⟨k.1 ∘ h.1, k.2 ∘ h.2⟩

@[simp] theorem tags_raise (s : State) (a : Alert) : TagsKept s (raise s a) := by simp [TagsKept, raise]

/-! ### The changes of the tag table -/

theorem getD_set_self {l : List TagState} {t : Nat} {v : TagState} (h : t < l.length) :
    (l.set t v).getD t .free = v := by simp [List.getD, h]

theorem getD_set_ne {l : List TagState} {t u : Nat} {v : TagState} (h : u ≠ t) :
    (l.set t v).getD u .free = l.getD u .free := by simp [List.getD, Ne.symm h]

theorem inRange_of_ne {l : List TagState} {t : Nat} (h : l.getD t .free ≠ .free) : t < l.length := by
  by_contra hc
  exact h (by simp [List.getD, List.getElem?_eq_none (Nat.le_of_not_lt hc)])

/-- A reset leaves no tag in use. -/
theorem TagLaw.fresh : TagLaw (List.replicate 16 .free) [] [] none := by
  refine ⟨by simp, by simp, by simp, by simp, fun t => ?_⟩
  have h : (List.replicate 16 TagState.free).getD t .free = .free := by
    simp only [List.getD, List.getElem?_replicate]
    split <;> rfl
  rw [h]; simp

/-- The command in flight completes: RUNNING to COMPLETED. -/
theorem TagLaw.finish {tags : List TagState} {q : List QEntry} {c : List Completion} {t : Nat} (r : Result)
    (h : TagLaw tags q c (some (.host t))) : TagLaw (tags.set t .completed) q (c ++ [⟨t, r⟩]) none := by
  obtain ⟨hl, hq, hqn, hcn, hall⟩ := h
  have hrun : tags.getD t .free = .running := ((hall t).2.1).2 rfl
  have hlt := inRange_of_ne (l := tags) (t := t) (by rw [hrun]; decide)
  refine ⟨by simpa using hl, hq, hqn, ?_, fun u => ?_⟩
  · rw [List.map_append, List.nodup_append]
    refine ⟨hcn, by simp, ?_⟩
    intro a ha b hb hab
    simp only [List.map_cons, List.map_nil, List.mem_singleton] at hb
    rw [hab, hb] at ha
    rw [((hall t).2.2).2 ha] at hrun
    cases hrun
  · by_cases hu : u = t
    · subst hu
      rw [getD_set_self hlt]
      have hnq : u ∉ q.map QEntry.tag := fun hm => by rw [((hall u).1).2 hm] at hrun; cases hrun
      simp [hnq]
    · rw [getD_set_ne hu]
      refine ⟨(hall u).1, ?_, ?_⟩
      · rw [(hall u).2.1]
        simp [Ne.symm hu]
      · rw [(hall u).2.2]
        simp [hu]

/-- A command of the management port leaves or enters flight. -/
theorem TagLaw.mgmt {tags : List TagState} {q : List QEntry} {c : List Completion} (b : Bool) (f : Byte) :
    TagLaw tags q c (some (.mgmt b f)) ↔ TagLaw tags q c none := by
  unfold TagLaw
  simp

/-- The arbiter grants the head of the queue: QUEUED to RUNNING. -/
theorem TagLaw.grant {tags : List TagState} {e : QEntry} {q : List QEntry} {c : List Completion}
    (h : TagLaw tags (e :: q) c none) : TagLaw (tags.set e.tag .running) q c (some (.host e.tag)) := by
  obtain ⟨hl, hq, hqn, hcn, hall⟩ := h
  have hqd : tags.getD e.tag .free = .queued := ((hall e.tag).1).2 (by simp)
  have hlt := inRange_of_ne (l := tags) (t := e.tag) (by rw [hqd]; decide)
  rw [List.map_cons, List.nodup_cons] at hqn
  refine ⟨by simpa using hl, by simp at hq; omega, hqn.2, hcn, fun u => ?_⟩
  by_cases hu : u = e.tag
  · subst hu
    rw [getD_set_self hlt]
    have hnc : e.tag ∉ c.map Completion.tag := fun hm => by rw [((hall e.tag).2.2).2 hm] at hqd; cases hqd
    simp only [reduceCtorEq, false_iff]
    exact ⟨hqn.1, trivial, hnc⟩
  · rw [getD_set_ne hu]
    refine ⟨?_, ?_, (hall u).2.2⟩
    · rw [(hall u).1, List.map_cons, List.mem_cons]
      simp [hu]
    · rw [(hall u).2.1]
      simp [Ne.symm hu]

/-- A submission is accepted: FREE to QUEUED. -/
theorem TagLaw.accept {tags : List TagState} {q : List QEntry} {c : List Completion} {run : Option Origin} (t : Nat)
    (cmd : Cmd) (ht : t < 16) (hf : tags.getD t .free = .free) (hq8 : q.length < 8) (h : TagLaw tags q c run) :
    TagLaw (tags.set t .queued) (q ++ [⟨t, cmd⟩]) c run := by
  obtain ⟨hl, hq, hqn, hcn, hall⟩ := h
  have hnq : t ∉ q.map QEntry.tag := fun hm => by rw [((hall t).1).2 hm] at hf; cases hf
  have hnc : t ∉ c.map Completion.tag := fun hm => by rw [((hall t).2.2).2 hm] at hf; cases hf
  have hnr : run ≠ some (.host t) := fun hm => by rw [((hall t).2.1).2 hm] at hf; cases hf
  refine ⟨by simpa using hl, by simp; omega, ?_, hcn, fun u => ?_⟩
  · rw [List.map_append, List.nodup_append]
    refine ⟨hqn, by simp, ?_⟩
    intro a ha b hb hab
    simp only [List.map_cons, List.map_nil, List.mem_singleton] at hb
    rw [hab, hb] at ha
    exact hnq ha
  · by_cases hu : u = t
    · subst hu
      rw [getD_set_self (by omega)]
      simp only [reduceCtorEq, false_iff, List.map_append, List.mem_append, List.map_cons, List.map_nil,
        List.mem_singleton, or_true]
      exact ⟨trivial, hnr, hnc⟩
    · rw [getD_set_ne hu]
      refine ⟨?_, (hall u).2.1, (hall u).2.2⟩
      rw [(hall u).1]
      simp [hu]

/-- A queued command is removed by an abort: QUEUED to COMPLETED. -/
theorem TagLaw.remove {tags : List TagState} {q : List QEntry} {c : List Completion} {run : Option Origin} (t : Nat)
    (r : Result) (hqd : tags.getD t .free = .queued) (h : TagLaw tags q c run) :
    TagLaw (tags.set t .completed) (q.filter (fun e => e.tag != t)) (c ++ [⟨t, r⟩]) run := by
  obtain ⟨hl, hq, hqn, hcn, hall⟩ := h
  have hlt := inRange_of_ne (l := tags) (t := t) (by rw [hqd]; decide)
  have hnc : t ∉ c.map Completion.tag := fun hm => by rw [((hall t).2.2).2 hm] at hqd; cases hqd
  have hnr : run ≠ some (.host t) := fun hm => by rw [((hall t).2.1).2 hm] at hqd; cases hqd
  refine ⟨by simpa using hl, le_trans (List.length_filter_le _ _) hq, ?_, ?_, fun u => ?_⟩
  · exact List.Nodup.sublist (List.Sublist.map _ List.filter_sublist) hqn
  · rw [List.map_append, List.nodup_append]
    refine ⟨hcn, by simp, ?_⟩
    intro a ha b hb hab
    simp only [List.map_cons, List.map_nil, List.mem_singleton] at hb
    rw [hab, hb] at ha
    exact hnc ha
  · by_cases hu : u = t
    · subst hu
      rw [getD_set_self hlt]
      simp [hnr]
    · rw [getD_set_ne hu]
      refine ⟨?_, (hall u).2.1, ?_⟩
      · rw [(hall u).1]
        constructor
        · intro hm
          obtain ⟨e, he, rfl⟩ := List.mem_map.1 hm
          exact List.mem_map.2 ⟨e, List.mem_filter.2 ⟨he, by simpa using hu⟩, rfl⟩
        · intro hm
          obtain ⟨e, he, rfl⟩ := List.mem_map.1 hm
          exact List.mem_map.2 ⟨e, (List.mem_filter.1 he).1, rfl⟩
      · rw [(hall u).2.2]
        simp [hu]

/-- The head of the queue is flushed by a halt: QUEUED to COMPLETED. -/
theorem TagLaw.flush {tags : List TagState} {e : QEntry} {q : List QEntry} {c : List Completion}
    {run : Option Origin} (r : Result) (h : TagLaw tags (e :: q) c run) :
    TagLaw (tags.set e.tag .completed) q (c ++ [⟨e.tag, r⟩]) run := by
  have hqd : tags.getD e.tag .free = .queued := ((h.2.2.2.2 e.tag).1).2 (by simp)
  have hn := h.2.2.1
  rw [List.map_cons, List.nodup_cons] at hn
  have hk := TagLaw.remove e.tag r hqd h
  rw [List.filter_cons_of_neg (by simp), List.filter_eq_self.2 ?_] at hk
  · exact hk
  · intro x hx
    have : x.tag ≠ e.tag := fun he => hn.1 (he ▸ List.mem_map.2 ⟨x, hx, rfl⟩)
    simpa using this

/-- The head completion is popped: COMPLETED to FREE. -/
theorem TagLaw.pop {tags : List TagState} {q : List QEntry} {e : Completion} {c : List Completion} {run : Option Origin}
    (h : TagLaw tags q (e :: c) run) : TagLaw (tags.set e.tag .free) q c run := by
  obtain ⟨hl, hq, hqn, hcn, hall⟩ := h
  have hcd : tags.getD e.tag .free = .completed := ((hall e.tag).2.2).2 (by simp)
  have hlt := inRange_of_ne (l := tags) (t := e.tag) (by rw [hcd]; decide)
  rw [List.map_cons, List.nodup_cons] at hcn
  refine ⟨by simpa using hl, hq, hqn, hcn.2, fun u => ?_⟩
  by_cases hu : u = e.tag
  · subst hu
    rw [getD_set_self hlt]
    have hnq : e.tag ∉ q.map QEntry.tag := fun hm => by rw [((hall e.tag).1).2 hm] at hcd; cases hcd
    have hnr : run ≠ some (.host e.tag) := fun hm => by rw [((hall e.tag).2.1).2 hm] at hcd; cases hcd
    simp only [reduceCtorEq, false_iff]
    exact ⟨hnq, hnr, hcn.1⟩
  · rw [getD_set_ne hu]
    refine ⟨(hall u).1, (hall u).2.1, ?_⟩
    rw [(hall u).2.2, List.map_cons, List.mem_cons]
    simp [hu]

/-! ### The batch idle timer -/

/-- With no batch open the timer is STOPPED. -/
@[simp] theorem IdleLaw.closed (w : Option (Port × Bool)) (q : List QEntry) (x y : Slot) : IdleLaw none w q x y :=
  fun _ _ h => nomatch h

theorem waitsBatch_iff (v : Slot) : v.waitsBatch = true ↔ batchWaits v := by
  cases v with
  | waiting a f =>
    cases e : frameCmd f <;> simp [Slot.waitsBatch, batchWaits, e]
  | _ => simp [Slot.waitsBatch, batchWaits]

theorem batchOutstanding_iff (s : State) (p : Port) :
    batchOutstanding s p = true
      ↔ batchWorkOf p (s.inflight.map Ctx.batchWork) s.host.queue s.mgmt.slotA s.mgmt.slotB := by
  unfold batchOutstanding batchWorkOf
  rw [Bool.or_eq_true]
  refine or_congr ?_ ?_
  · cases s.inflight <;> simp [Ctx.batchWork]
  · cases p <;> simp [waitsBatch_iff]

/-- The timer follows the owner's commands. -/
theorem idle_syncIdle (s : State) : idleOk (syncIdle s) := by
  intro p t h
  unfold syncIdle at h
  rw [Option.map_map, Option.map_eq_some_iff] at h
  obtain ⟨b, -, hb⟩ := h
  obtain ⟨rfl, rfl⟩ := Prod.mk.injEq .. ▸ hb
  have e := batchOutstanding_iff s b.owner
  change _ ↔ ¬ batchWorkOf b.owner (s.inflight.map Ctx.batchWork) s.host.queue s.mgmt.slotA s.mgmt.slotB
  rw [← e]
  dsimp only
  split <;> simp_all

/-- Two slots of which the same batch commands wait. -/
theorem IdleLaw.slots {b : Option (Port × IdleTimer)} {w : Option (Port × Bool)} {q : List QEntry} {x y u v : Slot}
    (hx : u.waitsBatch = x.waitsBatch) (hy : v.waitsBatch = y.waitsBatch) (h : IdleLaw b w q x y) : IdleLaw b w q u v := by
  have ex : batchWaits u ↔ batchWaits x := by rw [← waitsBatch_iff, ← waitsBatch_iff, hx]
  have ey : batchWaits v ↔ batchWaits y := by rw [← waitsBatch_iff, ← waitsBatch_iff, hy]
  intro p t hb
  rw [h p t hb]
  simp only [batchWorkOf, ex, ey]

/-! ### The operations -/

/-- A change of the context that keeps the origin. -/
@[simp] theorem tags_modCtx (s : State) (f : Ctx → Ctx) (hf : ∀ c, (f c).origin = c.origin ∧ (f c).cmd = c.cmd) :
    TagsKept s (modCtx s f) := by
  have e : (Ctx.origin ∘ f) = Ctx.origin := funext fun c => (hf c).1
  have g : (Ctx.batchWork ∘ f) = Ctx.batchWork := funext fun c => by simp [Ctx.batchWork, hf c]
  simp [TagsKept, modCtx, Option.map_map, e, g]

@[simp] theorem tags_stagingWrite (s : State) (b i : Nat) (v : Byte) : TagsKept s (stagingWrite s b i v) := by
  unfold stagingWrite
  simp (maxDischargeDepth := 20) +contextual [TagsKept]

@[simp] theorem tags_segUpd (s : State) (n : Nat) (f : SegEntry → SegEntry) : TagsKept s (segUpd s n f) := by
  unfold segUpd; try dsimp only
  repeat' split
  all_goals simp (maxDischargeDepth := 20) +contextual [TagsKept]

@[simp] theorem tags_setSegState (s : State) (n : Nat) (st : SegState) : TagsKept s (setSegState s n st) := by
  unfold setSegState
  simp (maxDischargeDepth := 20) +contextual [TagsKept]

@[simp] theorem tags_journalUpd (s : State) (n : Nat) (f : Journal → Journal) : TagsKept s (journalUpd s n f) := by
  unfold journalUpd
  simp (maxDischargeDepth := 20) +contextual [TagsKept]

@[simp] theorem tags_accountLive (s : State) (n e : Nat) : TagsKept s (accountLive s n e) := by
  unfold accountLive
  simp (maxDischargeDepth := 20) +contextual [TagsKept]

@[simp] theorem tags_accountDead (s : State) (n e : Nat) : TagsKept s (accountDead s n e) := by
  unfold accountDead
  simp (maxDischargeDepth := 20) +contextual [TagsKept]

@[simp] theorem tags_killLines (s : State) (n e : Nat) : TagsKept s (killLines s n e) := by
  unfold killLines
  simp (maxDischargeDepth := 20) +contextual [TagsKept]

@[simp] theorem tags_pinUp (s : State) (n : Nat) : TagsKept s (pinUp s n) := by
  unfold pinUp
  simp (maxDischargeDepth := 20) +contextual [TagsKept]

@[simp] theorem tags_clearPins (s : State) : TagsKept s (clearPins s) := by
  unfold clearPins
  simp (maxDischargeDepth := 20) +contextual [TagsKept]

@[simp] theorem tags_closeSegment (s : State) (n : Nat) : TagsKept s (closeSegment s n) := by
  unfold closeSegment
  simp (maxDischargeDepth := 20) +contextual [TagsKept]

@[simp] theorem tags_countFault (s : State) (n : Nat) : TagsKept s (countFault s n) := by
  unfold countFault
  simp (maxDischargeDepth := 20) +contextual [TagsKept]

@[simp] theorem tags_emptyTable (s : State) : TagsKept s (emptyTable s) := by
  unfold emptyTable
  simp (maxDischargeDepth := 20) +contextual [TagsKept]

@[simp] theorem tags_killPart (s : State) (p : Part) : TagsKept s (killPart s p) := by
  unfold killPart
  simp (maxDischargeDepth := 20) +contextual [TagsKept]

@[simp] theorem tags_killPart_opt (s : State) (o : Option Part) : TagsKept s (killPart? s o) := by
  unfold killPart?; split <;> simp +contextual [TagsKept]

@[simp] theorem tags_publishCommitted (s : State) (key : Key) (p : Part) :
    TagsKept s (publishCommitted s key p) := by
  unfold publishCommitted
  simp (maxDischargeDepth := 20) +contextual [TagsKept]

@[simp] theorem tags_publishPending (s : State) (key : Key) (p : Part) : TagsKept s (publishPending s key p) := by
  have e : (Batch.idle ∘ fun b : Batch => { b with members := b.members ++ [⟨key, p.loc, p.tomb⟩] }) = Batch.idle := rfl
  unfold publishPending
  simp (maxDischargeDepth := 20) +contextual [TagsKept, e]
  have b : ∀ (t : State) n f, (segUpd t n f).batch = t.batch := fun t n f => by unfold segUpd; dsimp only; split <;> rfl
  intro h
  have k := (tags_pinUp _ p.loc.seg).2 ((tags_accountLive s p.loc.seg (extentOf p.len)).2 h)
  have q : (pinUp (accountLive s p.loc.seg (extentOf p.len)) p.loc.seg).batch = s.batch := (b _ _ _).trans (b _ _ _)
  rwa [q] at k

@[simp] theorem tags_promoteKey (s : State) (key : Key) : TagsKept s (promoteKey s key) := by
  unfold promoteKey; try dsimp only
  repeat' split
  all_goals simp (maxDischargeDepth := 20) +contextual [TagsKept]

@[simp] theorem tags_promoteAll (s : State) (ms : List Member) : TagsKept s (promoteAll s ms) := by
  unfold promoteAll
  induction ms generalizing s with
  | nil => simp [TagsKept]
  | cons m ms ih =>
    rw [List.foldl_cons]
    exact (tags_promoteKey s m.key).trans (ih _)

theorem tags_killAll (s : State) (ps : List Part) : TagsKept s (ps.foldl killPart s) := by
  induction ps generalizing s with
  | nil => simp [TagsKept]
  | cons p ps ih =>
    rw [List.foldl_cons]
    exact (tags_killPart s p).trans (ih _)

@[simp] theorem tags_dropPending (s : State) : TagsKept s (dropPending s) := tags_killAll s _

@[simp] theorem tags_dropTombstone (s : State) (key : Key) : TagsKept s (dropTombstone s key) := by
  unfold dropTombstone
  simp (maxDischargeDepth := 20) +contextual [TagsKept]

@[simp] theorem tags_dirRepoint (s : State) (key : Key) (copy : Loc) : TagsKept s (dirRepoint s key copy) := by
  unfold dirRepoint
  simp (maxDischargeDepth := 20) +contextual [TagsKept]

@[simp] theorem tags_syncIdle (s : State) : TagsKept s (syncIdle s) := by
  refine ⟨?_, fun _ => idle_syncIdle s⟩
  unfold syncIdle
  simp

@[simp] theorem tags_teardown (s : State) (own : Bool) : TagsKept s (teardown s own) := by
  unfold teardown; try dsimp only
  repeat' split
  all_goals simp (maxDischargeDepth := 20) +contextual [TagsKept]

theorem tagLaw_setSlot (s : State) (b : Bool) (v : Slot)
    (h : TagLaw s.host.tags s.host.queue s.host.cplq (s.inflight.map Ctx.origin)) :
    TagLaw (setSlot s b v).host.tags (setSlot s b v).host.queue (setSlot s b v).host.cplq
      ((setSlot s b v).inflight.map Ctx.origin) := by
  unfold setSlot; split <;> exact h

/-- A slot takes a value that makes no batch command wait or cease to. -/
theorem tags_setSlot (s : State) (b : Bool) (v : Slot) (hv : v.waitsBatch = (slotOf s b).waitsBatch) :
    TagsKept s (setSlot s b v) := by
  refine ⟨tagLaw_setSlot s b v, fun h => ?_⟩
  unfold setSlot
  unfold slotOf at hv
  split
  · rename_i hb; rw [if_pos hb] at hv; exact h.slots rfl hv
  · rename_i hb; rw [if_neg hb] at hv; exact h.slots hv rfl

@[simp] theorem tags_answerRunning (s : State) (b : Bool) (frame : List Byte) : TagsKept s (answerRunning s b frame) := by
  unfold answerRunning
  split
  · rename_i hs; exact tags_setSlot s b _ (by rw [hs]; rfl)
  · exact ⟨id, id⟩

/-- The command in flight leaves flight with its result handed over. -/
theorem tags_postResult (s : State) (c : Ctx) (r : Result) (hc : s.inflight = some c)
    (h : TagLaw s.host.tags s.host.queue s.host.cplq (s.inflight.map Ctx.origin)) :
    TagLaw (postResult s c r).host.tags (postResult s c r).host.queue (postResult s c r).host.cplq none := by
  rw [hc, Option.map_some] at h
  unfold postResult
  split
  · rename_i t ho
    rw [ho] at h
    exact TagLaw.finish r h
  · rename_i b f ho
    rw [ho, TagLaw.mgmt] at h
    unfold answerRunning setSlot
    repeat' split
    all_goals exact h

/-- A command in flight that completes leaves the timer as its owner's commands say. -/
theorem idle_complete (s : State) (r : Result) (h : s.inflight.isSome = true) : idleOk (complete s r) := by
  unfold complete; dsimp only
  split
  · rename_i hc; rw [hc] at h; cases h
  · exact idle_syncIdle _

@[simp] theorem tags_complete (s : State) (r : Result) : TagsKept s (complete s r) := by
  cases hc : s.inflight with
  | none => unfold complete; simp [hc, TagsKept]
  | some c =>
    refine ⟨fun h => ?_, fun _ => idle_complete s r (by rw [hc]; rfl)⟩
    have hp := tags_postResult s c r hc h
    unfold complete; simp only [hc]
    repeat' split
    all_goals simp (maxDischargeDepth := 20) [hp]

@[simp] theorem tags_completeFail (s : State) (st : Status) : TagsKept s (completeFail s st) := by
  unfold completeFail; try dsimp only
  repeat' split
  all_goals simp (maxDischargeDepth := 20) +contextual [TagsKept]

@[simp] theorem tags_setStage (s : State) (st : Stage) : TagsKept s (setStage s st) := by
  unfold setStage
  simp (maxDischargeDepth := 20) +contextual [TagsKept]

@[simp] theorem tags_enterReadOnly (s : State) : TagsKept s (enterReadOnly s) := by
  unfold enterReadOnly; dsimp only
  repeat' split
  all_goals first
    | simp (maxDischargeDepth := 20) +contextual [TagsKept]

@[simp] theorem tags_retireSegment (s : State) (n : Nat) : TagsKept s (retireSegment s n) := by
  unfold retireSegment; try dsimp only
  repeat' split
  all_goals simp (maxDischargeDepth := 20) +contextual [TagsKept]

@[simp] theorem tags_issue (s : State) (op : SeqOp) : TagsKept s (issue s op) := by
  unfold issue; try dsimp only
  repeat' split
  all_goals simp (maxDischargeDepth := 20) +contextual [TagsKept]

@[simp] theorem tags_prepIssue (s : State) (n : Nat) (p : PrepStage) (vid : Word) :
    TagsKept s (prepIssue s n p vid) := by
  unfold prepIssue; try dsimp only
  repeat' split
  all_goals simp (maxDischargeDepth := 20) +contextual [TagsKept]

@[simp] theorem tags_eraseEnded (s : State) (n : Nat) : TagsKept s (eraseEnded s n) := by
  unfold eraseEnded; try dsimp only
  repeat' split
  all_goals simp (maxDischargeDepth := 20) +contextual [TagsKept]

@[simp] theorem tags_segmentPrepared (s : State) (n : Nat) : TagsKept s (segmentPrepared s n) := by
  unfold segmentPrepared
  simp (maxDischargeDepth := 20) +contextual [TagsKept]

@[simp] theorem tags_prepReport (s : State) (n : Nat) (p : PrepStage) (vid : Word) (rep : Report) :
    TagsKept s (prepReport s n p vid rep).1 := by
  unfold prepReport; try dsimp only
  repeat' split
  all_goals simp (maxDischargeDepth := 20) +contextual [TagsKept]

@[simp] theorem tags_takeEpoch (s : State) : TagsKept s (takeEpoch s) := by
  unfold takeEpoch; try dsimp only
  repeat' split
  all_goals simp (maxDischargeDepth := 20) +contextual [TagsKept]

@[simp] theorem tags_closeOpen (s : State) : TagsKept s (closeOpen s) := by
  unfold closeOpen; try dsimp only
  repeat' split
  all_goals simp (maxDischargeDepth := 20) +contextual [TagsKept]

@[simp] theorem tags_startOpening (s : State) (n : Nat) (failed : Option Nat) :
    TagsKept s (startOpening s n failed).1 := by
  unfold startOpening
  simp (maxDischargeDepth := 20) +contextual [TagsKept]

@[simp] theorem tags_openReport (s : State) (o : Opening) (rep : Report) : TagsKept s (openReport s o rep).1 := by
  unfold openReport; try dsimp only
  repeat' split
  all_goals simp (maxDischargeDepth := 20) +contextual [TagsKept]

@[simp] theorem tags_assign (s : State) (l : Loc) : TagsKept s (assign s l) := by
  unfold assign; try dsimp only
  repeat' split
  all_goals simp (maxDischargeDepth := 20) +contextual [TagsKept]

@[simp] theorem tags_loseBatch (s : State) : TagsKept s (loseBatch s) := by
  unfold loseBatch; try dsimp only
  repeat' split
  all_goals simp (maxDischargeDepth := 20) +contextual [TagsKept]

@[simp] theorem tags_waitOrFull (s : State) : TagsKept s (waitOrFull s) := by
  unfold waitOrFull; try dsimp only
  repeat' split
  all_goals simp (maxDischargeDepth := 20) +contextual [TagsKept]

@[simp] theorem tags_admitCommand (s : State) (failed : Option Nat) : TagsKept s (admitCommand s failed) := by
  unfold admitCommand; try dsimp only
  repeat' split
  all_goals simp (maxDischargeDepth := 20) +contextual [TagsKept]

@[simp] theorem tags_abandonRecord (s : State) : TagsKept s (abandonRecord s) := by
  unfold abandonRecord; try dsimp only
  repeat' split
  all_goals simp (maxDischargeDepth := 20) +contextual [TagsKept]

@[simp] theorem tags_commitBatch (s : State) (c : Ctx) : TagsKept s (commitBatch s c) := by
  unfold commitBatch; try dsimp only
  repeat' split
  all_goals simp (maxDischargeDepth := 20) +contextual [TagsKept]

@[simp] theorem tags_publish (s : State) (c : Ctx) : TagsKept s (publish s c) := by
  cases h : c.cmd <;> simp only [publish, h]
  case put => split <;> simp (maxDischargeDepth := 20) +contextual [TagsKept]
  case delete => split <;> simp (maxDischargeDepth := 20) +contextual [TagsKept]
  all_goals simp (maxDischargeDepth := 20) +contextual [TagsKept]

@[simp] theorem tags_appendDone (s : State) (c : Ctx) : TagsKept s (appendDone s c) := by
  unfold appendDone; try dsimp only
  repeat' split
  all_goals simp (maxDischargeDepth := 20) +contextual [TagsKept]

@[simp] theorem tags_appendFault (s : State) (c : Ctx) : TagsKept s (appendFault s c) := by
  unfold appendFault; try dsimp only
  repeat' split
  all_goals simp (maxDischargeDepth := 20) +contextual [TagsKept]

@[simp] theorem tags_openingNext (r : State × OpenNext) (c : Ctx) (o : Opening) :
    TagsKept r.1 (openingNext r c o) := by
  unfold openingNext; try dsimp only
  repeat' split
  all_goals simp (maxDischargeDepth := 20) +contextual [TagsKept]

@[simp] theorem tags_appendReport (s : State) (c : Ctx) (rep : Report) : TagsKept s (appendReport s c rep) := by
  unfold appendReport; try dsimp only
  repeat' split
  all_goals simp (maxDischargeDepth := 20) +contextual [TagsKept]

@[simp] theorem tags_modJob (s : State) (f : ReadJob → ReadJob) : TagsKept s (modJob s f) := by
  unfold modJob
  simp (maxDischargeDepth := 20) +contextual [TagsKept]

@[simp] theorem tags_readContent (s : State) (l : Line) : TagsKept s (readContent s l).2 := by
  unfold readContent; split <;> simp [TagsKept]

@[simp] theorem tags_stagingWriteList (s : State) (b i : Nat) (l : List Byte) :
    TagsKept s (stagingWriteList s b i l) := by
  induction l generalizing s i with
  | nil => simp [TagsKept, stagingWriteList]
  | cons v vs ih => exact (tags_stagingWrite s b i v).trans (ih _ _)

@[simp] theorem tags_placeBytes (s : State) (c : Ctx) (buf i : Nat) (v : List Byte) :
    TagsKept s (placeBytes s c buf i v) := by
  unfold placeBytes; try dsimp only
  repeat' split
  all_goals simp (maxDischargeDepth := 20) +contextual [TagsKept]

@[simp] theorem tags_startGet (s : State) (key : Key) : TagsKept s (startGet s key) := by
  unfold startGet; try dsimp only
  repeat' split
  all_goals simp (maxDischargeDepth := 20) +contextual [TagsKept]

@[simp] theorem tags_getReport (s : State) (c : Ctx) (buf : Nat) (l : Line) : TagsKept s (getReport s c buf l) := by
  unfold getReport; try dsimp only
  repeat' split
  all_goals simp (maxDischargeDepth := 20) +contextual [TagsKept]

@[simp] theorem tags_listNext (s : State) (key : Key) (p : Part) : TagsKept s (listNext s key p) := by
  unfold listNext
  simp (maxDischargeDepth := 20) +contextual [TagsKept]

@[simp] theorem tags_startList (s : State) (after : Key) : TagsKept s (startList s after) := by
  unfold startList; try dsimp only
  repeat' split
  all_goals simp (maxDischargeDepth := 20) +contextual [TagsKept]

@[simp] theorem tags_listReport (s : State) (c : Ctx) (buf count : Nat) (l : Line) :
    TagsKept s (listReport s c buf count l) := by
  unfold listReport; try dsimp only
  repeat' split
  all_goals simp (maxDischargeDepth := 20) +contextual [TagsKept]

@[simp] theorem tags_modRc (s : State) (f : Reclaim → Reclaim) : TagsKept s (modRc s f) := by
  unfold modRc
  simp (maxDischargeDepth := 20) +contextual [TagsKept]

@[simp] theorem tags_startVictim (s : State) (v : Nat) : TagsKept s (startVictim s v) := by
  unfold startVictim
  simp (maxDischargeDepth := 20) +contextual [TagsKept]

@[simp] theorem tags_returnVictim (s : State) (v : Nat) : TagsKept s (returnVictim s v) := by
  unfold returnVictim
  simp (maxDischargeDepth := 20) +contextual [TagsKept]

@[simp] theorem tags_tellTrigger (s : State) (res : Result) : TagsKept s (tellTrigger s res) := by
  unfold tellTrigger; try dsimp only
  repeat' split
  all_goals simp (maxDischargeDepth := 20) +contextual [TagsKept]

@[simp] theorem tags_victimLeaves (s : State) (r : Reclaim) (e : VictimEnd) : TagsKept s (victimLeaves s r e) := by
  unfold victimLeaves; try dsimp only
  repeat' split
  all_goals simp (maxDischargeDepth := 20) +contextual [TagsKept]

@[simp] theorem tags_releaseStep (s : State) : TagsKept s (releaseStep s) := by
  unfold releaseStep
  simp (maxDischargeDepth := 20) +contextual [TagsKept]

@[simp] theorem tags_passRecord (s : State) (e : Nat) : TagsKept s (passRecord s e) := by
  unfold passRecord
  simp (maxDischargeDepth := 20) +contextual [TagsKept]

@[simp] theorem tags_endWalk (s : State) : TagsKept s (endWalk s) := by
  unfold endWalk
  simp (maxDischargeDepth := 20) +contextual [TagsKept]

@[simp] theorem tags_dropRecord (s : State) (h : Hdr) (l : Loc) : TagsKept s (dropRecord s h l) := by
  unfold dropRecord; try dsimp only
  repeat' split
  all_goals simp (maxDischargeDepth := 20) +contextual [TagsKept]

@[simp] theorem tags_placeCopy (s : State) (a : Attempt) (l : Loc) : TagsKept s (placeCopy s a l) := by
  unfold placeCopy
  simp (maxDischargeDepth := 20) +contextual [TagsKept]

@[simp] theorem tags_admitCopy (s : State) (r : Reclaim) (a : Attempt) (failed : Option Nat) :
    TagsKept s (admitCopy s r a failed) := by
  unfold admitCopy; try dsimp only
  repeat' split
  all_goals simp (maxDischargeDepth := 20) +contextual [TagsKept]

@[simp] theorem tags_buildCopy (s : State) (r : Reclaim) (a : Attempt) : TagsKept s (buildCopy s r a) := by
  unfold buildCopy
  simp (maxDischargeDepth := 20) +contextual [TagsKept]

@[simp] theorem tags_startCopy (s : State) (r : Reclaim) (h : Hdr) (l : Loc) : TagsKept s (startCopy s r h l) := by
  unfold startCopy; try dsimp only
  repeat' split
  all_goals simp (maxDischargeDepth := 20) +contextual [TagsKept]

@[simp] theorem tags_copyData (s : State) (r : Reclaim) (a : Attempt) (k : Nat) (l : Line) :
    TagsKept s (copyData s r a k l) := by
  unfold copyData; try dsimp only
  repeat' split
  all_goals simp (maxDischargeDepth := 20) +contextual [TagsKept]

@[simp] theorem tags_repoint (s : State) (a : Attempt) : TagsKept s (repoint s a) := by
  unfold repoint; try dsimp only
  repeat' split
  all_goals simp (maxDischargeDepth := 20) +contextual [TagsKept]

@[simp] theorem tags_copyComplete (s : State) (r : Reclaim) (a : Attempt) : TagsKept s (copyComplete s r a) := by
  unfold copyComplete; try dsimp only
  repeat' split
  all_goals simp (maxDischargeDepth := 20) +contextual [TagsKept]

@[simp] theorem tags_copyDone (s : State) (r : Reclaim) (a : Attempt) (k : Nat) :
    TagsKept s (copyDone s r a k) := by
  unfold copyDone; try dsimp only
  repeat' split
  all_goals simp (maxDischargeDepth := 20) +contextual [TagsKept]

@[simp] theorem tags_copyFault (s : State) (r : Reclaim) (a : Attempt) : TagsKept s (copyFault s r a) := by
  unfold copyFault; try dsimp only
  repeat' split
  all_goals simp (maxDischargeDepth := 20) +contextual [TagsKept]

@[simp] theorem tags_copyOpening (x : State × OpenNext) (r : Reclaim) (a : Attempt) (o : Opening) :
    TagsKept x.1 (copyOpening x r a o) := by
  unfold copyOpening; try dsimp only
  repeat' split
  all_goals simp (maxDischargeDepth := 20) +contextual [TagsKept]

@[simp] theorem tags_walkHeader (s : State) (r : Reclaim) (l : Line) : TagsKept s (walkHeader s r l) := by
  unfold walkHeader; try dsimp only
  repeat' split
  all_goals simp (maxDischargeDepth := 20) +contextual [TagsKept]

@[simp] theorem tags_finishReport (s : State) (r : Reclaim) (p : PrepStage) (rep : Report) :
    TagsKept s (finishReport s r p rep) := by
  unfold finishReport; try dsimp only
  repeat' split
  all_goals simp (maxDischargeDepth := 20) +contextual [TagsKept]

@[simp] theorem tags_reclaimReport (s : State) (r : Reclaim) (rep : Report) :
    TagsKept s (reclaimReport s r rep) := by
  unfold reclaimReport; try dsimp only
  repeat' split
  all_goals simp (maxDischargeDepth := 20) +contextual [TagsKept]

@[simp] theorem tags_walkStep (s : State) (r : Reclaim) : TagsKept s (walkStep s r) := by
  unfold walkStep; try dsimp only
  repeat' split
  all_goals simp (maxDischargeDepth := 20) +contextual [TagsKept]

@[simp] theorem tags_grantWalk (s : State) : TagsKept s (grantWalk s) := by
  unfold grantWalk; try dsimp only
  repeat' split
  all_goals simp (maxDischargeDepth := 20) +contextual [TagsKept]

@[simp] theorem tags_grantFinish (s : State) : TagsKept s (grantFinish s) := by
  unfold grantFinish; try dsimp only
  repeat' split
  all_goals simp (maxDischargeDepth := 20) +contextual [TagsKept]

@[simp] theorem tags_reclaimWalkStep (s : State) : TagsKept s (reclaimWalkStep s) := by
  unfold reclaimWalkStep; try dsimp only
  repeat' split
  all_goals simp (maxDischargeDepth := 20) +contextual [TagsKept]

@[simp] theorem tags_reclaimFinishStep (s : State) : TagsKept s (reclaimFinishStep s) := by
  unfold reclaimFinishStep; try dsimp only
  repeat' split
  all_goals simp (maxDischargeDepth := 20) +contextual [TagsKept]

@[simp] theorem tags_startReclaim (s : State) : TagsKept s (startReclaim s) := by
  unfold startReclaim; try dsimp only
  repeat' split
  all_goals simp (maxDischargeDepth := 20) +contextual [TagsKept]

@[simp] theorem tags_modMu (s : State) (f : MountUnit → MountUnit) : TagsKept s (modMu s f) := by
  unfold modMu
  simp (maxDischargeDepth := 20) +contextual [TagsKept]

@[simp] theorem tags_emptyTables (s : State) : TagsKept s (emptyTables s) := by
  unfold emptyTables
  simp (maxDischargeDepth := 20) +contextual [TagsKept]

@[simp] theorem tags_mountStart (s : State) : TagsKept s (mountStart s) := by
  unfold mountStart
  simp (maxDischargeDepth := 20) +contextual [TagsKept]

@[simp] theorem tags_tellMounter (s : State) (r : Result) : TagsKept s (tellMounter s r) := by
  unfold tellMounter; try dsimp only
  repeat' split
  all_goals simp (maxDischargeDepth := 20) +contextual [TagsKept]

@[simp] theorem tags_mountEnd (s : State) (m : MountResult) : TagsKept s (mountEnd s m) := by
  unfold mountEnd; try dsimp only
  repeat' split
  all_goals simp (maxDischargeDepth := 20) +contextual [TagsKept]

@[simp] theorem tags_settleNext (s : State) : TagsKept s (settleNext s) := by
  unfold settleNext; try dsimp only
  repeat' split
  all_goals simp (maxDischargeDepth := 20) +contextual [TagsKept]

@[simp] theorem tags_settleReport (s : State) (rep : Report) : TagsKept s (settleReport s rep) := by
  unfold settleReport; try dsimp only
  repeat' split
  all_goals simp (maxDischargeDepth := 20) +contextual [TagsKept]

@[simp] theorem tags_account (s : State) : TagsKept s (account s) := by
  unfold account
  simp (maxDischargeDepth := 20) +contextual [TagsKept]

@[simp] theorem tags_replayEnd (s : State) : TagsKept s (replayEnd s) := by
  unfold replayEnd; try dsimp only
  repeat' split
  all_goals simp (maxDischargeDepth := 20) +contextual [TagsKept]

@[simp] theorem tags_replayNext (s : State) : TagsKept s (replayNext s) := by
  unfold replayNext; try dsimp only
  repeat' split
  all_goals simp (maxDischargeDepth := 20) +contextual [TagsKept]

@[simp] theorem tags_applyPart (s : State) (key : Key) (p : Part) : TagsKept s (applyPart s key p) := by
  unfold applyPart; try dsimp only
  repeat' split
  all_goals simp (maxDischargeDepth := 20) +contextual [TagsKept]

@[simp] theorem tags_replayJudged (s : State) (f : FoundRec) (after : List Line) :
    TagsKept s (replayJudged s f after) := by
  unfold replayJudged; try dsimp only
  repeat' split
  all_goals simp (maxDischargeDepth := 20) +contextual [TagsKept]

@[simp] theorem tags_replayReport (s : State) (l : Line) : TagsKept s (replayReport s l) := by
  unfold replayReport; try dsimp only
  repeat' split
  all_goals simp (maxDischargeDepth := 20) +contextual [TagsKept]

@[simp] theorem tags_collectEnd (s : State) : TagsKept s (collectEnd s) := by
  unfold collectEnd
  simp (maxDischargeDepth := 20) +contextual [TagsKept]

@[simp] theorem tags_scanAt (s : State) (l : Loc) : TagsKept s (scanAt s l) := by
  unfold scanAt
  simp (maxDischargeDepth := 20) +contextual [TagsKept]

@[simp] theorem tags_scanSegmentEnd (s : State) (n wp : Nat) (stop : Bool) :
    TagsKept s (scanSegmentEnd s n wp stop) := by
  unfold scanSegmentEnd; try dsimp only
  repeat' split
  all_goals simp (maxDischargeDepth := 20) +contextual [TagsKept]

@[simp] theorem tags_scanAdvance (s : State) (l : Loc) (e : Nat) : TagsKept s (scanAdvance s l e) := by
  unfold scanAdvance; try dsimp only
  repeat' split
  all_goals simp (maxDischargeDepth := 20) +contextual [TagsKept]

@[simp] theorem tags_scanHeader (s : State) (l : Loc) (c : Line) : TagsKept s (scanHeader s l c) := by
  unfold scanHeader; try dsimp only
  repeat' split
  all_goals simp (maxDischargeDepth := 20) +contextual [TagsKept]

@[simp] theorem tags_enterCommit (s : State) (f : FoundRec) (bid : Word) : TagsKept s (enterCommit s f bid) := by
  unfold enterCommit
  simp (maxDischargeDepth := 20) +contextual [TagsKept]

@[simp] theorem tags_collectJudged (s : State) (f : FoundRec) (after : List Line) :
    TagsKept s (collectJudged s f after) := by
  unfold collectJudged; try dsimp only
  repeat' split
  all_goals simp (maxDischargeDepth := 20) +contextual [TagsKept]

@[simp] theorem tags_collectReport (s : State) (l : Line) : TagsKept s (collectReport s l) := by
  unfold collectReport; try dsimp only
  repeat' split
  all_goals simp (maxDischargeDepth := 20) +contextual [TagsKept]

@[simp] theorem tags_surveyVerdict (s : State) : TagsKept s (surveyVerdict s) := by
  unfold surveyVerdict; try dsimp only
  repeat' split
  all_goals simp (maxDischargeDepth := 20) +contextual [TagsKept]

@[simp] theorem tags_surveyNext (s : State) (n : Nat) : TagsKept s (surveyNext s n) := by
  unfold surveyNext; try dsimp only
  repeat' split
  all_goals simp (maxDischargeDepth := 20) +contextual [TagsKept]

@[simp] theorem tags_addEntry (s : State) (n : Nat) (st : SegState) (ec : Nat) (known : Bool) :
    TagsKept s (addEntry s n st ec known) := by
  unfold addEntry
  simp (maxDischargeDepth := 20) +contextual [TagsKept]

@[simp] theorem tags_surveyLine0 (s : State) (n : Nat) (l : Line) : TagsKept s (surveyLine0 s n l) := by
  unfold surveyLine0; try dsimp only
  repeat' split
  all_goals simp (maxDischargeDepth := 20) +contextual [TagsKept]

@[simp] theorem tags_surveyLine1 (s : State) (n : Nat) (l : Line) : TagsKept s (surveyLine1 s n l) := by
  unfold surveyLine1; try dsimp only
  repeat' split
  all_goals simp (maxDischargeDepth := 20) +contextual [TagsKept]

@[simp] theorem tags_surveyReport (s : State) (loc : Loc) (l : Line) : TagsKept s (surveyReport s loc l) := by
  unfold surveyReport; try dsimp only
  repeat' split
  all_goals simp (maxDischargeDepth := 20) +contextual [TagsKept]

@[simp] theorem tags_mountReport (s : State) (loc : Loc) (rep : Report) : TagsKept s (mountReport s loc rep) := by
  unfold mountReport; try dsimp only
  repeat' split
  all_goals simp (maxDischargeDepth := 20) +contextual [TagsKept]

@[simp] theorem tags_setFu (s : State) (f : FormatCtx) : TagsKept s (setFu s f) := by
  unfold setFu
  simp (maxDischargeDepth := 20) +contextual [TagsKept]

@[simp] theorem tags_formatEnd (s : State) : TagsKept s (formatEnd s) := by
  unfold formatEnd; try dsimp only
  repeat' split
  all_goals simp (maxDischargeDepth := 20) +contextual [TagsKept]

@[simp] theorem tags_step2Next (s : State) (f : FormatCtx) : TagsKept s (step2Next s f) := by
  unfold step2Next; try dsimp only
  repeat' split
  all_goals simp (maxDischargeDepth := 20) +contextual [TagsKept]

@[simp] theorem tags_step1Next (s : State) (f : FormatCtx) : TagsKept s (step1Next s f) := by
  unfold step1Next; try dsimp only
  repeat' split
  all_goals simp (maxDischargeDepth := 20) +contextual [TagsKept]

@[simp] theorem tags_step1Opened (s : State) (f : FormatCtx) (n : Nat) : TagsKept s (step1Opened s f n) := by
  unfold step1Opened
  simp (maxDischargeDepth := 20) +contextual [TagsKept]

@[simp] theorem tags_formatPrepared (s : State) (f : FormatCtx) (n : Nat) (first : Bool) :
    TagsKept s (formatPrepared s f n first) := by
  unfold formatPrepared; try dsimp only
  repeat' split
  all_goals simp (maxDischargeDepth := 20) +contextual [TagsKept]

@[simp] theorem tags_formatRetired (s : State) (f : FormatCtx) (n : Nat) (first : Bool) :
    TagsKept s (formatRetired s f n first) := by
  unfold formatRetired; try dsimp only
  repeat' split
  all_goals simp (maxDischargeDepth := 20) +contextual [TagsKept]

@[simp] theorem tags_formatStage (s : State) (f : FormatCtx) (n : Nat) (first : Bool) (p : PrepStage) :
    TagsKept s (formatStage s f n first p) := by
  unfold formatStage; try dsimp only
  repeat' split
  all_goals simp (maxDischargeDepth := 20) +contextual [TagsKept]

@[simp] theorem tags_formatSegment (s : State) (f : FormatCtx) (n : Nat) (first : Bool) (p : PrepStage) (rep : Report) :
    TagsKept s (formatSegment s f n first p rep) := by
  unfold formatSegment; try dsimp only
  repeat' split
  all_goals simp (maxDischargeDepth := 20) +contextual [TagsKept]

@[simp] theorem tags_formatReport (s : State) (f : FormatCtx) (rep : Report) :
    TagsKept s (formatReport s f rep) := by
  unfold formatReport; try dsimp only
  repeat' split
  all_goals simp (maxDischargeDepth := 20) +contextual [TagsKept]

@[simp] theorem tags_formatEnter (s : State) (f : FormatCtx) (mounted : Bool) :
    TagsKept s (formatEnter s f mounted) := by
  unfold formatEnter
  simp (maxDischargeDepth := 20) +contextual [TagsKept]

@[simp] theorem tags_formatCheckReport (s : State) (f : FormatCtx) (n : Nat) (l : Line) :
    TagsKept s (formatCheckReport s f n l) := by
  unfold formatCheckReport; try dsimp only
  repeat' split
  all_goals simp (maxDischargeDepth := 20) +contextual [TagsKept]

@[simp] theorem tags_startFormat (s : State) (expected newId : Word) :
    TagsKept s (startFormat s expected newId) := by
  unfold startFormat; try dsimp only
  repeat' split
  all_goals simp (maxDischargeDepth := 20) +contextual [TagsKept]

@[simp] theorem tags_runUnmount (s : State) : TagsKept s (runUnmount s) := by
  unfold runUnmount
  simp (maxDischargeDepth := 20) +contextual [TagsKept]

@[simp] theorem tags_haltEnd (s : State) (c : Ctx) : TagsKept s (haltEnd s c) := by
  unfold haltEnd; try dsimp only
  repeat' split
  all_goals simp (maxDischargeDepth := 20) +contextual [TagsKept]

@[simp] theorem tags_reclaimStopped (s : State) (st : Status) : TagsKept s (reclaimStopped s st) := by
  unfold reclaimStopped; try dsimp only
  repeat' split
  all_goals simp (maxDischargeDepth := 20) +contextual [TagsKept]

@[simp] theorem tags_haltCommand (s : State) : TagsKept s (haltCommand s) := by
  unfold haltCommand; try dsimp only
  repeat' split
  all_goals simp (maxDischargeDepth := 20) +contextual [TagsKept]

@[simp] theorem tags_haltReclaim (s : State) : TagsKept s (haltReclaim s) := by
  unfold haltReclaim; try dsimp only
  repeat' split
  all_goals simp (maxDischargeDepth := 20) +contextual [TagsKept]

theorem tagLaw_answerWaiting (s : State) (b : Bool) (status : Byte)
    (h : TagLaw s.host.tags s.host.queue s.host.cplq (s.inflight.map Ctx.origin)) :
    TagLaw (answerWaiting s b status).host.tags (answerWaiting s b status).host.queue (answerWaiting s b status).host.cplq
      ((answerWaiting s b status).inflight.map Ctx.origin) := by
  unfold answerWaiting; split
  · exact tagLaw_setSlot _ _ _ h
  · exact h

theorem tagLaw_answerBothWaiting (s : State) (status : Byte)
    (h : TagLaw s.host.tags s.host.queue s.host.cplq (s.inflight.map Ctx.origin)) :
    TagLaw (answerBothWaiting s status).host.tags (answerBothWaiting s status).host.queue
      (answerBothWaiting s status).host.cplq ((answerBothWaiting s status).inflight.map Ctx.origin) :=
  tagLaw_answerWaiting _ _ _ (tagLaw_answerWaiting _ _ _ h)

theorem tagLaw_flushQueue (s : State) (h : TagLaw s.host.tags s.host.queue s.host.cplq (s.inflight.map Ctx.origin)) :
    TagLaw (flushQueue s).host.tags (flushQueue s).host.queue (flushQueue s).host.cplq
      ((flushQueue s).inflight.map Ctx.origin) := by
  have main : ∀ (l : List QEntry) (t : State), TagLaw t.host.tags l t.host.cplq (t.inflight.map Ctx.origin) →
      TagLaw (l.foldl (fun t q => postHost t q.tag (Result.bare .halted)) t).host.tags []
        (l.foldl (fun t q => postHost t q.tag (Result.bare .halted)) t).host.cplq
        ((l.foldl (fun t q => postHost t q.tag (Result.bare .halted)) t).inflight.map Ctx.origin) := by
    intro l
    induction l with
    | nil => intro t h; exact h
    | cons q l ih =>
      intro t h
      rw [List.foldl_cons]
      exact ih _ (TagLaw.flush _ h)
  exact main s.host.queue s h

@[simp] theorem tags_haltEntry (s : State) : TagsKept s (haltEntry s) := by
  refine ⟨fun h => ?_, fun _ => idle_syncIdle _⟩
  unfold haltEntry
  refine (tags_syncIdle _).1 (tagLaw_answerBothWaiting _ _ (tagLaw_flushQueue _ ?_))
  exact (tags_haltReclaim _).1 ((tags_haltCommand _).1 ((tags_raise _ _).1 h))

@[simp] theorem tags_haltIfDue (s : State) : TagsKept s (haltIfDue s) := by
  unfold haltIfDue; try dsimp only
  repeat' split
  all_goals simp (maxDischargeDepth := 20) +contextual [TagsKept]

@[simp] theorem tags_commandReport (s : State) (loc : Loc) (rep : Report) :
    TagsKept s (commandReport s loc rep) := by
  unfold commandReport; try dsimp only
  repeat' split
  all_goals simp (maxDischargeDepth := 20) +contextual [TagsKept]

@[simp] theorem tags_onReport (s : State) (loc : Loc) (rep : Report) : TagsKept s (onReport s loc rep) := by
  unfold onReport; try dsimp only
  repeat' split
  all_goals simp (maxDischargeDepth := 20) +contextual [TagsKept]

@[simp] theorem tags_deliver (s : State) (loc : Loc) (rep : Report) : TagsKept s (deliver s loc rep) := by
  unfold deliver
  simp (maxDischargeDepth := 20) +contextual [TagsKept]

@[simp] theorem tags_settleRefused (n : Nat) (s : State) : TagsKept s (settleRefused n s) := by
  induction n generalizing s with
  | zero => simp [TagsKept, settleRefused]
  | succ n ih =>
    unfold settleRefused
    split
    · split
      · simp [TagsKept]
      · rename_i l c hs hl
        exact (tags_deliver { s with seqr := none } l (.programFault .refused)).trans (ih _)
    · simp [TagsKept]

@[simp] theorem tags_checkThenAppend (s : State) : TagsKept s (checkThenAppend s) := by
  unfold checkThenAppend; try dsimp only
  repeat' split
  all_goals simp (maxDischargeDepth := 20) +contextual [TagsKept]

@[simp] theorem tags_startWrite (s : State) (p : Port) (key : Key) (member del : Bool) :
    TagsKept s (startWrite s p key member del) := by
  unfold startWrite; try dsimp only
  repeat' split
  all_goals simp (maxDischargeDepth := 20) +contextual [TagsKept]

theorem tags_startBatchOpen (s : State) (p : Port) (hc : s.inflight.isSome = true) : TagsKept s (startBatchOpen s p) := by
  unfold startBatchOpen
  repeat' split
  case isFalse.isFalse.isFalse =>
    exact ⟨fun h => (tags_complete { s with eng.seqCtr := _, batch := _ } _).1 h, fun _ => idle_complete _ _ hc⟩
  all_goals simp (maxDischargeDepth := 20) +contextual [TagsKept]

@[simp] theorem tags_startBatchCommit (s : State) (p : Port) : TagsKept s (startBatchCommit s p) := by
  have e : TagsKept s { s with batch := none } := ⟨id, fun _ => IdleLaw.closed _ _ _ _⟩
  unfold startBatchCommit
  repeat' split
  case h_2.isFalse.isTrue => exact e.trans (tags_complete _ _)
  all_goals simp (maxDischargeDepth := 20) +contextual [TagsKept]

@[simp] theorem tags_startBatchAbort (s : State) (p : Port) : TagsKept s (startBatchAbort s p) := by
  unfold startBatchAbort; try dsimp only
  repeat' split
  all_goals simp (maxDischargeDepth := 20) +contextual [TagsKept]

@[simp] theorem tags_startFreeze (s : State) (lo hi : Key) : TagsKept s (startFreeze s lo hi) := by
  unfold startFreeze; try dsimp only
  repeat' split
  all_goals simp (maxDischargeDepth := 20) +contextual [TagsKept]

@[simp] theorem tags_startMount (s : State) : TagsKept s (startMount s) := by
  unfold startMount; try dsimp only
  repeat' split
  all_goals simp (maxDischargeDepth := 20) +contextual [TagsKept]

theorem tags_runCommand (s : State) (p : Port) (cmd : Cmd) (hc : s.inflight.isSome = true) :
    TagsKept s (runCommand s p cmd) := by
  cases cmd
  case batchOpen => exact tags_startBatchOpen s p hc
  all_goals simp (maxDischargeDepth := 20) +contextual [runCommand, TagsKept]

theorem tags_execute (s : State) (c : Ctx) (hc : s.inflight.isSome = true) : TagsKept s (execute s c) := by
  unfold execute
  split
  · exact tags_completeFail s _
  · exact tags_runCommand s _ _ hc

/-- The host head is granted with no command in flight. -/
theorem tags_takeHost (s : State) (q : QEntry) (hq : hostHead s = some q) (hn : s.inflight = none) :
    TagsKept s (takeHost s q) := by
  obtain ⟨rest, hr⟩ : ∃ rest, s.host.queue = q :: rest := by
    unfold hostHead at hq
    cases hs : s.host.queue with
    | nil => rw [hs] at hq; cases hq
    | cons a l => rw [hs] at hq; cases hq; exact ⟨l, rfl⟩
  constructor <;> intro h <;> rw [hn, Option.map_none, hr] at h
  · unfold takeHost setTag
    simp only [hr, List.tail_cons, newCtx, Option.map_some]
    exact TagLaw.grant h
  · unfold takeHost setTag
    simp only [hr, List.tail_cons, newCtx, Option.map_some]
    intro p t hb
    rw [h p t hb]
    cases p <;> simp [batchWorkOf, Ctx.batchWork, Origin.port]

/-- The management head is granted with no command in flight. -/
theorem tags_takeMgmt (s : State) (b : Bool) (hn : s.inflight = none) : TagsKept s (takeMgmt s b) := by
  unfold takeMgmt
  split
  · rename_i a f hs
    split
    · rename_i cmd hf
      constructor <;> intro h <;> rw [hn, Option.map_none] at h
      · unfold setSlot
        split <;> simpa [newCtx] using (TagLaw.mgmt _ _).2 h
      · intro p t hb
        have hb' : s.batch.map Batch.idle = some (p, t) := by
          revert hb; unfold setSlot; split <;> exact id
        rw [h p t hb']
        have ha : ∀ a g, ¬ batchWaits (.running a g) := fun a g ⟨_, _, _, e, _⟩ => nomatch e
        have hw : batchWaits (.waiting a f) ↔ cmd.isBatch = true := by
          simp [batchWaits, hf]
        unfold slotOf at hs
        cases b <;> cases p <;> simp_all [setSlot, batchWorkOf, newCtx, Ctx.batchWork, Origin.port, or_comm]
    · simp [TagsKept]
  · simp [TagsKept]

theorem tags_chooseHead (s : State) (hn : s.inflight = none) : TagsKept s (chooseHead s) := by
  unfold chooseHead
  split
  · rename_i q b hq hb
    split
    · exact tags_takeHost s q hq hn
    · exact tags_takeMgmt s b hn
  · rename_i q hq _
    exact tags_takeHost s q hq hn
  · rename_i b _ hb
    exact tags_takeMgmt s b hn
  · simp [TagsKept]

@[simp] theorem tags_runGranted (s : State) : TagsKept s (runGranted s) := by
  unfold runGranted
  split
  · rename_i c hc
    exact (tags_execute s c (by rw [hc]; rfl)).trans (tags_settleRefused 8 _)
  · simp [TagsKept]

@[simp] theorem tags_arbiterGrant (s : State) : TagsKept s (arbiterGrant s) := by
  unfold arbiterGrant
  split
  · rename_i hg
    have hn : s.inflight = none := by
      simp only [commandGranted, Bool.and_eq_true, Option.isNone_iff_eq_none] at hg
      exact hg.1.2
    exact (tags_chooseHead s hn).trans (tags_runGranted _)
  · simp [TagsKept]

@[simp] theorem tags_waitSpaceResume (s : State) : TagsKept s (waitSpaceResume s) := by
  unfold waitSpaceResume; try dsimp only
  repeat' split
  all_goals simp (maxDischargeDepth := 20) +contextual [TagsKept]

end Sys2Proof.Machine
end

