-- ==== Sys2Proof/Laws/Ports.lean ====
section
/-! SUPPORT. The laws of the device under the end of an array operation, the resets, and every operation of the two ports:
the array and the waiting commands are left alone, the tables, the tags and the settings keep their form. -/

namespace Sys2Proof.Machine

/-- The array and the waiting commands stand, and the laws of the tables, the tags and the settings stay. -/
abbrev TablesKept (s t : State) : Prop :=
  t.array = s.array ∧ t.pending = s.pending ∧ (DirOk s.dir → DirOk t.dir) ∧ (FreezeOk s.freezes → FreezeOk t.freezes)
  ∧ (CommitOk s.commits → CommitOk t.commits) ∧ (StagingOk s.staging → StagingOk t.staging)
  ∧ (SettingsOk s.ctl → SettingsOk t.ctl)
  ∧ (TagLaw s.host.tags s.host.queue s.host.cplq (s.inflight.map Ctx.origin) →
      TagLaw t.host.tags t.host.queue t.host.cplq (t.inflight.map Ctx.origin))

/-- The same, and the law of the batch idle timer stays. -/
abbrev LawsKept (s t : State) : Prop :=
  t.array = s.array ∧ t.pending = s.pending ∧ (DirOk s.dir → DirOk t.dir) ∧ (FreezeOk s.freezes → FreezeOk t.freezes)
  ∧ (CommitOk s.commits → CommitOk t.commits) ∧ (StagingOk s.staging → StagingOk t.staging)
  ∧ (SettingsOk s.ctl → SettingsOk t.ctl)
  ∧ (TagLaw s.host.tags s.host.queue s.host.cplq (s.inflight.map Ctx.origin) →
      TagLaw t.host.tags t.host.queue t.host.cplq (t.inflight.map Ctx.origin))
  ∧ (IdleLaw (s.batch.map Batch.idle) (s.inflight.map Ctx.batchWork) s.host.queue s.mgmt.slotA s.mgmt.slotB →
      IdleLaw (t.batch.map Batch.idle) (t.inflight.map Ctx.batchWork) t.host.queue t.mgmt.slotA t.mgmt.slotB)

theorem LawsKept.of {s t : State} (h : TablesKept s t) (k : idleOk s → idleOk t) : LawsKept s t :=
  ⟨h.1, h.2.1, h.2.2.1, h.2.2.2.1, h.2.2.2.2.1, h.2.2.2.2.2.1, h.2.2.2.2.2.2.1, h.2.2.2.2.2.2.2, k⟩

theorem LawsKept.idle {s t : State} (h : LawsKept s t) : idleOk s → idleOk t := h.2.2.2.2.2.2.2.2

/-! ### The slots in which a batch command waits -/

/-- The same slots hold a waiting batch command. -/
def WaitsKept (s t : State) : Prop := ∀ b, (slotOf t b).waitsBatch = (slotOf s b).waitsBatch

theorem WaitsKept.of_mgmt {s t : State} (h : t.mgmt = s.mgmt) : WaitsKept s t := fun b => by unfold slotOf; rw [h]

theorem WaitsKept.trans {s t u : State} (h : WaitsKept s t) (k : WaitsKept t u) : WaitsKept s u :=
  fun b => (k b).trans (h b)

theorem slotOf_setSlot (s : State) (b c : Bool) (v : Slot) :
    slotOf (setSlot s b v) c = if c = b then v else slotOf s c := by
  cases b <;> cases c <;> rfl

theorem waits_setSlot (s : State) (b : Bool) (v : Slot) (h : v.waitsBatch = (slotOf s b).waitsBatch) :
    WaitsKept s (setSlot s b v) := fun c => by
  rw [slotOf_setSlot]; split
  · rename_i e; rw [e, h]
  · rfl

theorem mgmt_killPart (s : State) (p : Part) : (killPart s p).mgmt = s.mgmt := by
  unfold killPart killLines journalUpd segUpd; dsimp only; split <;> rfl

theorem mgmt_dropPending (s : State) : (dropPending s).mgmt = s.mgmt := by
  have main : ∀ (l : List Part) (t : State), (l.foldl killPart t).mgmt = t.mgmt := fun l => by
    induction l with
    | nil => intro t; rfl
    | cons p l ih => intro t; exact (ih _).trans (mgmt_killPart t p)
  exact main _ s

theorem mgmt_teardown (s : State) (own : Bool) : (teardown s own).mgmt = s.mgmt := by
  unfold teardown
  split
  · rfl
  · dsimp only; split <;> exact mgmt_dropPending s

theorem waits_complete (s : State) (r : Result) : WaitsKept s (complete s r) := by
  have hp : ∀ c, WaitsKept s (postResult s c r) := fun c => by
    unfold postResult
    split
    · exact .of_mgmt rfl
    · unfold answerRunning
      split
      · rename_i h; exact waits_setSlot _ _ _ (by rw [h]; rfl)
      · exact fun _ => rfl
  unfold complete
  split
  · exact fun _ => rfl
  · rename_i c _
    refine (hp c).trans (.of_mgmt ?_)
    dsimp only [syncIdle]
    split
    · exact mgmt_teardown _ _
    · rfl

theorem waits_completeFail (s : State) (st : Status) : WaitsKept s (completeFail s st) := by
  unfold completeFail; split
  · exact fun _ => rfl
  · exact waits_complete s _

theorem waits_endMgmtBatch (s : State) : WaitsKept s (endMgmtBatch s) := by
  have t : ∀ u own, WaitsKept u (teardown u own) := fun u own => .of_mgmt (mgmt_teardown u own)
  unfold endMgmtBatch loseBatch
  repeat' split
  all_goals first
    | exact t _ _
    | exact (t _ _).trans (waits_completeFail _ _)
    | exact (t _ _).trans (.of_mgmt rfl)
    | exact waits_completeFail _ _
    | exact .of_mgmt rfl

/-- No slot waits once both WAITING slots are answered. -/
theorem answerBothWaiting_waits (s : State) (st : Byte) (b : Bool) :
    (slotOf (answerBothWaiting s st) b).waitsBatch = false := by
  have one : ∀ u c, (slotOf (answerWaiting u c st) c).waitsBatch = false := fun u c => by
    unfold answerWaiting
    split
    · rw [slotOf_setSlot, if_pos rfl]; rfl
    · rename_i h
      cases e : slotOf u c with
      | waiting a f => exact absurd e (h a f)
      | _ => rfl
  have other : ∀ u c, slotOf (answerWaiting u c st) (!c) = slotOf u (!c) := fun u c => by
    unfold answerWaiting
    split
    · rw [slotOf_setSlot, if_neg (by cases c <;> simp)]
    · rfl
  cases b
  · have h := other (answerWaiting s false st) true
    rw [Bool.not_true] at h
    rw [answerBothWaiting, h]; exact one s false
  · exact one _ true

theorem sessionEnd_waits (s : State) (st : Byte) (b : Bool) : (slotOf (sessionEnd s st) b).waitsBatch = false := by
  unfold sessionEnd
  change (slotOf (if _ then _ else _) b).waitsBatch = false
  split
  · rw [waits_endMgmtBatch]; exact answerBothWaiting_waits _ _ b
  · exact answerBothWaiting_waits _ _ b

/-! ### The end of an operation and the resets -/

/-- The values after a reset meet every law. -/
@[simp] theorem stagingOk_nil : StagingOk [] := rfl

@[simp] theorem settingsOk_reset : SettingsOk Control.reset := by
  simp [SettingsOk, Control.reset]

@[simp] theorem laws_clearVolatile (s : State) : LawsKept s (clearVolatile s) := by
  simp only [LawsKept, clearVolatile, State.reset, HostPort.reset, Option.map_none]
  exact ⟨trivial, trivial, fun _ => dirOk_nil, fun _ => freezeOk_nil, fun _ => commitOk_nil, fun _ => stagingOk_nil,
    fun _ => settingsOk_reset, fun _ => TagLaw.fresh, fun _ => IdleLaw.closed _ _ _ _⟩

@[simp] theorem laws_leaveReset (s : State) : LawsKept s (leaveReset s) := by
  unfold leaveReset; dsimp only
  repeat' split
  all_goals simp (maxDischargeDepth := 20) +contextual [LawsKept]

@[simp] theorem laws_softReset (s : State) : LawsKept s (softReset s) := by
  unfold softReset
  simp (maxDischargeDepth := 20) +contextual [LawsKept]

@[simp] theorem laws_opEnds (s : State) (loc : Loc) (rep : Report) : LawsKept s (opEnds s loc rep) := by
  unfold opEnds; dsimp only
  split
  all_goals simp (maxDischargeDepth := 20) +contextual [LawsKept]

@[simp] theorem laws_setXfer (s : State) (x : Option Xfer) : LawsKept s (setXfer s x) := by
  unfold setXfer
  simp (maxDischargeDepth := 20) +contextual [LawsKept]

@[simp] theorem laws_endMgmtBatch (s : State) : LawsKept s (endMgmtBatch s) := by
  unfold endMgmtBatch; try dsimp only
  repeat' split
  all_goals simp (maxDischargeDepth := 20) +contextual [LawsKept]

@[simp] theorem laws_sessionEnd (s : State) (status : Byte) : LawsKept s (sessionEnd s status) := by
  refine .of ?_ fun _ => idle_syncIdle _
  unfold sessionEnd; dsimp only
  split
  all_goals simp (maxDischargeDepth := 20) +contextual [TablesKept, tagLaw_answerBothWaiting]

/-- A slot takes a value that makes no batch command wait or cease to. -/
theorem laws_setSlot (s : State) (b : Bool) (v : Slot) (h : v.waitsBatch = (slotOf s b).waitsBatch) :
    LawsKept s (setSlot s b v) :=
  .of (by simp (maxDischargeDepth := 20) +contextual [TablesKept, tagLaw_setSlot]) (tags_setSlot s b v h).2

@[simp] theorem laws_freeReceiving (s : State) (b : Bool) : LawsKept s (freeReceiving s b) := by
  unfold freeReceiving; split
  · rename_i h; exact laws_setSlot s b _ (by rw [h]; rfl)
  · simp [LawsKept]

@[simp] theorem laws_portDisable (s : State) : LawsKept s (portDisable s) := by
  have h : ∀ u st, LawsKept u (syncIdle (answerBothWaiting u st)) := fun u st =>
    .of (by simp (maxDischargeDepth := 20) +contextual [TablesKept, tagLaw_answerBothWaiting]) fun _ => idle_syncIdle _
  unfold portDisable; dsimp only
  repeat' split
  all_goals simp (maxDischargeDepth := 20) +contextual [LawsKept, h]

theorem laws_answerSlot (s : State) (b : Bool) (arrival : Nat) (tag status : Byte) (payload : List Byte)
    (h : (slotOf s b).waitsBatch = false) : LawsKept s (answerSlot s b arrival tag status payload) :=
  laws_setSlot s b _ h.symm

theorem LawsKept.trans {s t u : State} (h : LawsKept s t) (k : LawsKept t u) : LawsKept s u :=
  ⟨k.1.trans h.1, k.2.1.trans h.2.1, k.2.2.1 ∘ h.2.2.1, k.2.2.2.1 ∘ h.2.2.2.1, k.2.2.2.2.1 ∘ h.2.2.2.2.1,
    k.2.2.2.2.2.1 ∘ h.2.2.2.2.2.1, k.2.2.2.2.2.2.1 ∘ h.2.2.2.2.2.2.1, k.2.2.2.2.2.2.2.1 ∘ h.2.2.2.2.2.2.2.1,
    k.idle ∘ h.idle⟩

theorem laws_acceptFrame (s : State) (b : Bool) (arrival : Nat) (bytes : List Byte) (r : Request)
    (h : (slotOf s b).waitsBatch = false) : LawsKept s (acceptFrame s b arrival bytes r) := by
  unfold acceptFrame
  split
  · split
    · exact laws_answerSlot s b _ _ _ _ h
    · exact laws_answerSlot (raise { s with mgmt.session := true } .session) b _ _ _ _ h
  · split
    · exact (laws_sessionEnd s _).trans (laws_answerSlot _ b _ _ _ _ (sessionEnd_waits s _ b))
    · exact laws_answerSlot s b _ _ _ _ h
  · exact laws_answerSlot s b _ _ _ _ h
  · exact laws_answerSlot s b _ _ _ _ h
  · exact .of (by simp (maxDischargeDepth := 20) +contextual [TablesKept, tagLaw_setSlot]) fun _ => idle_syncIdle _

@[simp] theorem laws_frameEnd (s : State) (b : Bool) : LawsKept s (frameEnd s b) := by
  unfold frameEnd
  split
  · rename_i h
    have hw : (slotOf s b).waitsBatch = false := by rw [h]; rfl
    split
    · exact laws_answerSlot s b _ _ _ _ hw
    · exact laws_acceptFrame s b _ _ _ hw
  · simp [LawsKept]

@[simp] theorem laws_ack (s : State) (v : Bool) : LawsKept s (ack s v) := by
  unfold ack
  simp (maxDischargeDepth := 20) +contextual [LawsKept]

theorem freeSlot_free {s : State} {b : Bool} (h : freeSlot s = some b) : slotOf s b = .free := by
  unfold freeSlot at h
  split at h
  · cases h; assumption
  split at h
  · cases h; assumption
  · cases h

@[simp] theorem laws_writeByte (s : State) (v : Byte) : LawsKept s (writeByte s v) := by
  unfold writeByte
  split
  · split
    · rename_i b hb
      have hf : slotOf s b = .free := by
        split at hb
        · exact freeSlot_free hb
        · cases hb
      exact laws_setSlot { s with mgmt.arrivals := s.mgmt.arrivals + 1 } b _ (by
        change _ = (slotOf s b).waitsBatch; rw [hf]; rfl)
    · simp (maxDischargeDepth := 20) +contextual [LawsKept]
  · rename_i b _
    refine laws_setSlot s b _ ?_
    cases slotOf s b <;> simp only [Slot.store]
    split <;> rfl
  all_goals simp (maxDischargeDepth := 20) +contextual [LawsKept]

@[simp] theorem laws_writeBytes (s : State) (l : List Byte) : LawsKept s (writeBytes s l) := by
  unfold writeBytes
  induction l generalizing s with
  | nil => simp [LawsKept]
  | cons v vs ih =>
    rw [List.foldl_cons]
    have h := ih (writeByte s v)
    simp (maxDischargeDepth := 20) +contextual only [LawsKept, laws_writeByte] at h ⊢
    simp (maxDischargeDepth := 20) +contextual [h, laws_writeByte]

@[simp] theorem laws_beginWrite (s : State) (data : List Byte) : LawsKept s (beginWrite s data) := by
  unfold beginWrite
  simp (maxDischargeDepth := 20) +contextual [LawsKept]

@[simp] theorem laws_endWrite (s : State) : LawsKept s (endWrite s) := by
  unfold endWrite; try dsimp only
  repeat' split
  all_goals simp (maxDischargeDepth := 20) +contextual [LawsKept]

@[simp] theorem laws_clockBytes (s : State) (n : Nat) : LawsKept s (clockBytes s n) := by
  unfold clockBytes; try dsimp only
  repeat' split
  all_goals simp (maxDischargeDepth := 20) +contextual [LawsKept]

@[simp] theorem laws_freeAnswered (s : State) (b : Bool) : LawsKept s (freeAnswered s b) := by
  unfold freeAnswered; split
  · rename_i h; exact laws_setSlot s b _ (by rw [h]; rfl)
  · simp [LawsKept]

@[simp] theorem laws_endRead (s : State) : LawsKept s (endRead s) := by
  unfold endRead; try dsimp only
  repeat' split
  all_goals simp (maxDischargeDepth := 20) +contextual [LawsKept]

@[simp] theorem laws_beginRead (s : State) (n : Nat) : LawsKept s (beginRead s n) := by
  unfold beginRead
  simp (maxDischargeDepth := 20) +contextual [LawsKept]

@[simp] theorem laws_endTransfer (s : State) : LawsKept s (endTransfer s) := by
  unfold endTransfer
  repeat' split
  all_goals simp (maxDischargeDepth := 20) +contextual [LawsKept]

@[simp] theorem laws_addressByte (s : State) (addr : BitVec 7) : LawsKept s (addressByte s addr) := by
  unfold addressByte
  simp (maxDischargeDepth := 20) +contextual [LawsKept]

@[simp] theorem laws_busWrite (s : State) (x : WriteXfer) : LawsKept s (busWrite s x) := by
  cases x <;> simp only [busWrite] <;> split
  all_goals simp (maxDischargeDepth := 20) +contextual [LawsKept]

@[simp] theorem laws_sendFrame (s : State) (addr : BitVec 7) (body : List Byte) :
    LawsKept s (sendFrame s addr body) := by
  unfold sendFrame
  simp (maxDischargeDepth := 20) +contextual [LawsKept]

@[simp] theorem laws_busRead (s : State) (x : ReadXfer) : LawsKept s (busRead s x) := by
  cases x <;> simp only [busRead] <;> split
  all_goals simp (maxDischargeDepth := 20) +contextual [LawsKept]

@[simp] theorem laws_stallExpiry (s : State) : LawsKept s (stallExpiry s) := by
  unfold stallExpiry; try dsimp only
  repeat' split
  all_goals simp (maxDischargeDepth := 20) +contextual [LawsKept]

@[simp] theorem laws_sessionLapse (s : State) : LawsKept s (sessionLapse s) := by
  unfold sessionLapse; try dsimp only
  repeat' split
  all_goals simp (maxDischargeDepth := 20) +contextual [LawsKept]

@[simp] theorem laws_setBufOwner (s : State) (b : Nat) (o : Option Nat) : LawsKept s (setBufOwner s b o) := by
  unfold setBufOwner
  simp (maxDischargeDepth := 20) +contextual [LawsKept]

theorem laws_acceptSubmit (s : State) (t : Nat) (c : Cmd) (ht : t < 16) (hf : tagState s t = .free)
    (hq : s.host.queue.length < 8) : LawsKept s (acceptSubmit s t c) := by
  have hb : (holdBuffer s t c.buffer?).host.tags = s.host.tags ∧ (holdBuffer s t c.buffer?).host.queue = s.host.queue
      ∧ (holdBuffer s t c.buffer?).host.cplq = s.host.cplq ∧ (holdBuffer s t c.buffer?).inflight = s.inflight := by
    unfold holdBuffer; split <;> exact ⟨rfl, rfl, rfl, rfl⟩
  have hk : EngineKept s { holdBuffer s t c.buffer? with host := s.host } := by
    unfold holdBuffer; split <;> simp [EngineKept, setBufOwner]
  have ho : OrderKept s (holdBuffer s t c.buffer?) := by
    unfold holdBuffer; split <;> simp [OrderKept, setBufOwner]
  simp [EngineKept] at hk
  refine ⟨by simp [acceptSubmit, setTag, hk], by simp [acceptSubmit, setTag, hk],
    fun h => (order_syncIdle _).1 (ho.1 h), fun h => (order_syncIdle _).2.1 (ho.2.1 h),
    fun h => (order_syncIdle _).2.2.1 (ho.2.2.1 h), fun h => (order_syncIdle _).2.2.2 (ho.2.2.2 h),
    by simp [acceptSubmit, setTag, hk], fun h => ?_, fun _ => idle_syncIdle _⟩
  have ha := TagLaw.accept t c ht hf hq h
  rw [← hb.1, ← hb.2.1, ← hb.2.2.1, ← hb.2.2.2] at ha
  unfold acceptSubmit
  exact (tags_syncIdle _).1 ha

theorem submitResult_accepted {s : State} {t : Nat} {c : Cmd} (h : submitResult s t c = accepted) :
    hostArgsOk c = true ∧ (c.buffer?.map (bufferHeld s)).getD false = false ∧ s.host.queue.length < 8
    ∧ tagState s t = .free ∧ s.eng.store ≠ .halted := by
  unfold submitResult at h
  split at h
  · exact absurd h (by decide)
  split at h
  · exact absurd h (by decide)
  split at h
  · exact absurd h (by decide)
  split at h
  · exact absurd h (by decide)
  split at h
  · exact absurd h (by decide)
  rename_i h1 h2 h3 h4 h5
  exact ⟨by simpa using h1, by simpa using h2, by omega, by simpa using h4, h5⟩

theorem tagNo_lt (a : ArgRegs) : a.tagNo < 16 := by
  unfold ArgRegs.tagNo
  have : (a.tag &&& 0x0F).toNat ≤ 15 := by
    rw [BitVec.toNat_and]; exact Nat.and_le_right
  omega

@[simp] theorem laws_submit (s : State) : LawsKept s (submit s) := by
  unfold submit
  split
  · simp [LawsKept]
  · dsimp only
    split
    · rename_i c hc hr
      have h := submitResult_accepted hr
      exact laws_acceptSubmit s _ c (tagNo_lt _) h.2.2.2.1 h.2.2.1
    · simp [LawsKept]

@[simp] theorem laws_submitArgs (s : State) (f : ArgRegs → ArgRegs) : LawsKept s (submitArgs s f) := by
  unfold submitArgs
  simp (maxDischargeDepth := 20) +contextual [LawsKept]

@[simp] theorem laws_popCompletion (s : State) : LawsKept s (popCompletion s) := by
  unfold popCompletion
  split
  · simp [LawsKept]
  · rename_i c rest hc
    refine ⟨rfl, rfl, fun h => h, fun h => h, fun h => h, fun h => h, fun h => h, fun h => ?_, fun h => h⟩
    rw [hc] at h
    exact TagLaw.pop h

theorem laws_removeQueued (s : State) (t : Nat) (hq : tagState s t = .queued) : LawsKept s (removeQueued s t) := by
  refine ⟨by simp [removeQueued], by simp [removeQueued], by simp +contextual [removeQueued],
    by simp +contextual [removeQueued], by simp +contextual [removeQueued], by simp +contextual [removeQueued],
    by simp +contextual [removeQueued], fun h => ?_, fun _ => idle_syncIdle _⟩
  unfold removeQueued
  exact (tags_syncIdle _).1 (TagLaw.remove t (Result.bare .aborted) hq h)

@[simp] theorem laws_abortInFlight (s : State) (c : Ctx) : LawsKept s (abortInFlight s c).2 := by
  unfold abortInFlight
  repeat' split
  all_goals simp (maxDischargeDepth := 20) +contextual [LawsKept]

@[simp] theorem laws_abortAnswer (s : State) (t : Nat) : LawsKept s (abortAnswer s t).2 := by
  unfold abortAnswer
  split
  · simp [LawsKept]
  · simp [LawsKept]
  · rename_i hq
    split
    · split
      · simp [LawsKept]
      · exact laws_removeQueued s t hq
    · simp [LawsKept]
  · split
    · simp (maxDischargeDepth := 20) +contextual [LawsKept]
    · simp [LawsKept]

@[simp] theorem laws_hostAbort (s : State) (v : Byte) : LawsKept s (hostAbort s v) := by
  unfold hostAbort
  simp (maxDischargeDepth := 20) +contextual [LawsKept]

@[simp] theorem laws_advancePtr (s : State) : LawsKept s (advancePtr s) := by
  unfold advancePtr
  simp (maxDischargeDepth := 20) +contextual [LawsKept]

@[simp] theorem laws_readBufData (s : State) : LawsKept s (readBufData s) := by
  unfold readBufData
  simp (maxDischargeDepth := 20) +contextual [LawsKept]

@[simp] theorem laws_writeBufData (s : State) (v : Byte) : LawsKept s (writeBufData s v) := by
  unfold writeBufData; try dsimp only
  repeat' split
  all_goals simp (maxDischargeDepth := 20) +contextual [LawsKept]

@[simp] theorem laws_readDircntLow (s : State) : LawsKept s (readDircntLow s) := by
  unfold readDircntLow
  simp (maxDischargeDepth := 20) +contextual [LawsKept]

@[simp] theorem laws_clearAlerts (s : State) (v : Byte) : LawsKept s (clearAlerts s v) := by
  unfold clearAlerts
  simp (maxDischargeDepth := 20) +contextual [LawsKept]

@[simp] theorem laws_setMask (s : State) (v : Byte) : LawsKept s (setMask s v) := by
  unfold setMask
  simp (maxDischargeDepth := 20) +contextual [LawsKept]

@[simp] theorem laws_setRecthr (s : State) (v : Byte) : LawsKept s (setRecthr s v) := by
  refine ⟨rfl, rfl, fun h => h, fun h => h, fun h => h, fun h => h, fun h => ?_, fun h => h, fun h => h⟩
  obtain ⟨-, -, h3, h4⟩ := h
  simp only [SettingsOk, setRecthr, clamp]
  omega

@[simp] theorem laws_setHostwt (s : State) (v : Byte) : LawsKept s (setHostwt s v) := by
  refine ⟨rfl, rfl, fun h => h, fun h => h, fun h => h, fun h => h, fun h => ?_, fun h => h, fun h => h⟩
  obtain ⟨h1, h2, -, -⟩ := h
  simp only [SettingsOk, setHostwt, clamp]
  omega

theorem settingsOk_bits (c : Control) (a b d : Bool) :
    SettingsOk { c with cinten := a, bgren := b, mgmten := d } ↔ SettingsOk c := Iff.rfl

theorem settingsOk_srst (c : Control) (a : Bool) : SettingsOk { c with srst := a } ↔ SettingsOk c := Iff.rfl

@[simp] theorem laws_requestSoftReset (s : State) : LawsKept s (requestSoftReset s) := by
  unfold requestSoftReset; dsimp only
  split
  all_goals simp (maxDischargeDepth := 20) +contextual [LawsKept, settingsOk_srst]

@[simp] theorem laws_writeControl (s : State) (v : Byte) : LawsKept s (writeControl s v) := by
  unfold writeControl; dsimp only
  repeat' split
  all_goals simp (maxDischargeDepth := 20) +contextual [LawsKept, settingsOk_bits]

@[simp] theorem laws_hostWrite (s : State) (off : Nat) (v : Byte) : LawsKept s (hostWrite s off v) := by
  unfold hostWrite; try dsimp only
  repeat' split
  all_goals simp (maxDischargeDepth := 20) +contextual [LawsKept]

@[simp] theorem laws_batchIdleExpires (s : State) : LawsKept s (batchIdleExpires s) := by
  unfold batchIdleExpires; try dsimp only
  repeat' split
  all_goals simp (maxDischargeDepth := 20) +contextual [LawsKept]

@[simp] theorem laws_leaveHalted (s : State) : LawsKept s (leaveHalted s) := by
  unfold leaveHalted; try dsimp only
  repeat' split
  all_goals simp (maxDischargeDepth := 20) +contextual [LawsKept]

@[simp] theorem laws_recoveryExpires (s : State) : LawsKept s (recoveryExpires s) := by
  unfold recoveryExpires; try dsimp only
  repeat' split
  all_goals simp (maxDischargeDepth := 20) +contextual [LawsKept]

@[simp] theorem laws_powerWarning (s : State) : LawsKept s (powerWarning s) := by
  unfold powerWarning
  simp (maxDischargeDepth := 20) +contextual [LawsKept]

@[simp] theorem laws_powerGood (s : State) : LawsKept s (powerGood s) := by
  unfold powerGood; try dsimp only
  repeat' split
  all_goals simp (maxDischargeDepth := 20) +contextual [LawsKept]

end Sys2Proof.Machine
end

