-- ==== Sys2Proof/Laws/Segments.lean ====
section
/-! SUPPORT. The laws of the segment table (R25, R39) under the work of the store engine: what each unit leaves when it ends,
waits
or goes on with its next operation. -/

namespace Sys2Proof.Machine

/-! ### The laws of a table -/

theorem From.lawful {b t : List SegEntry} (h : From b t) (k : lawfulTable b) : lawfulTable t := fun e he j hj => by
  obtain ⟨o, ho, -, hf⟩ := h.origin e he
  cases hs : e.st <;> rw [hs] at hj hf <;> simp only [SegState.journal?, Option.some.injEq, reduceCtorEq] at hj
  all_goals
    subst hj
    obtain ⟨i, hi, hl⟩ := hf
    exact hl (k o ho i (by first | exact hi | (rw [hi]; rfl)))

theorem From.noneOpen {b t : List SegEntry} (h : From b t) (k : noneOpen b) : noneOpen t := fun e he j hj => by
  obtain ⟨o, ho, -, hf⟩ := h.origin e he
  rw [hj] at hf
  obtain ⟨i, hi, -⟩ := hf
  exact k o ho i hi

theorem From.oneOpen {b t : List SegEntry} (h : From b t) (k : oneOpen b) : oneOpen t := fun e he x hx i j hi hj => by
  obtain ⟨o, ho, hn, hf⟩ := h.origin e he
  obtain ⟨p, hp, hm, hg⟩ := h.origin x hx
  rw [hi] at hf
  rw [hj] at hg
  obtain ⟨a, ha, -⟩ := hf
  obtain ⟨c, hc, -⟩ := hg
  rw [← hn, ← hm]
  exact k o ho p hp a c ha hc

theorem From.victimOnly {b t : List SegEntry} {c : Option Reclaim} (h : From b t) (k : victimOnly c b) :
    victimOnly c t := fun e he j hj => by
  obtain ⟨o, ho, hn, hf⟩ := h.origin e he
  rw [hj] at hf
  obtain ⟨i, hi, -⟩ := hf
  rw [← hn]
  exact k o ho i hi

/-- A table without journal segments keeps every law. -/
theorem lawful_none {t : List SegEntry} (h : ∀ e ∈ t, e.st.journal? = none) :
    lawfulTable t ∧ noneOpen t ∧ ∀ c, victimOnly c t := by
  refine ⟨fun e he j hj => ?_, fun e he j hj => ?_, fun c e he j hj => ?_⟩
  · rw [h e he] at hj; cases hj
  · have := h e he; rw [hj] at this; cases this
  · have := h e he; rw [hj] at this; cases this

theorem noneOpen.one {t : List SegEntry} (h : noneOpen t) : oneOpen t := fun e he _ _ i _ hi _ => absurd hi (h e he i)

/-- The laws of the table with the counts rebuilt. -/
structure Balanced (s : State) : Prop where
  lawful : lawfulTable s.sm.table
  one : oneOpen s.sm.table
  victim : victimOnly s.rc.ctx s.sm.table

theorem Balanced.from {s t : State} (h : Balanced s) (hf : From s.sm.table t.sm.table) (hr : t.rc.ctx = s.rc.ctx) :
    Balanced t := ⟨hf.lawful h.lawful, hf.oneOpen h.one, hr ▸ hf.victimOnly h.victim⟩

/-- With the array released, or held where no segment is being opened. -/
theorem Balanced.segments {s : State} (h : Balanced s) (ho : openingUnderWay s → noneOpen s.sm.table)
    (hm : s.holder ≠ .mount) (hh : s.eng.store = .halted → s.holder = .none) : segmentsLawful s :=
  ⟨.inr h.lawful, h.one, ho, h.victim, fun k => absurd k hm, hh⟩

theorem Balanced.released {s : State} (h : Balanced s) (hn : s.holder = .none) : segmentsLawful s :=
  h.segments (by simp [openingUnderWay, hn]) (by simp [hn]) fun _ => hn

/-- With no mount at work and no halted mount the counts are rebuilt. -/
theorem segmentsLawful.balanced {s : State} (h : segmentsLawful s) (hm : s.holder ≠ .mount)
    (hs : s.eng.store = .halted → s.eng.prior ≠ some .mounting) : Balanced s := by
  refine ⟨h.1.resolve_left ?_, h.2.1, h.2.2.2.1⟩
  rintro (⟨k, -⟩ | ⟨k, l⟩)
  · exact hm k
  · exact hs k l

theorem segmentsLawful.held {s : State} (h : segmentsLawful s) (hn : s.holder ≠ .none) : s.eng.store ≠ .halted :=
  fun k => hn (h.2.2.2.2.2 k)

/-! ### Operations that leave the work where it stands -/

/-- The bounds at which the work of `s` stands. -/
def boundsOf (s : State) : Bounds :=
  { holder := s.holder, stage := fun g => ∃ c, s.inflight = some c ∧ c.stage = g, rc := s.rc.ctx, fu := s.fu,
    phase := s.mu.phase, store := fun st => st = s.eng.store ∨ (s.eng.store = .ready ∧ st = .readOnly), prior := s.eng.prior,
    sinks := fun h => by
      rcases h with h | ⟨h, -⟩
      · exact .inr ⟨h.symm, rfl⟩
      · exact .inr ⟨h, rfl⟩ }

theorem within_self (s : State) :
    Within (boundsOf s) s.holder s.eng.store s.eng.prior s.inflight s.rc.ctx s.fu s.mu.phase :=
  ⟨.inl rfl, fun c hc => ⟨c, hc, rfl⟩, rfl, rfl, rfl, .inl rfl, rfl⟩

/-- `t` within the bounds of `s`. -/
abbrev Stays (s t : State) : Prop :=
  Within (boundsOf s) t.holder t.eng.store t.eng.prior t.inflight t.rc.ctx t.fu t.mu.phase

theorem Stays.opening {s t : State} (h : Stays s t) (k : openingUnderWay t) : openingUnderWay s := by
  have hh : t.holder ≠ .none → s.holder = t.holder := fun hn => by
    rcases h.holder with e | ⟨-, e⟩
    · exact e.symm
    · exact absurd e hn
  rcases k with ⟨k1, c, o, k2, k3, k4⟩ | ⟨k1, r, o, k2, k3, k4⟩ | ⟨k1, k2⟩ | ⟨k1, f, n, k2, k3⟩
  · obtain ⟨d, hd, hg⟩ := h.stage c k2
    exact .inl ⟨(hh (by simp [k1])).trans k1, d, o, hd, hg.trans k3, k4⟩
  · exact .inr (.inl ⟨(hh (by simp [k1])).trans k1, r, o, h.rc.symm.trans k2, k3, k4⟩)
  · exact .inr (.inr (.inl ⟨(hh (by simp [k1])).trans k1, fun e => k2 (h.phase.trans e)⟩))
  · exact .inr (.inr (.inr ⟨(hh (by simp [k1])).trans k1, f, n, h.fu.symm.trans k2, k3⟩))

theorem Stays.unsettled {s t : State} (h : Stays s t) (k : mountUnsettled s) : mountUnsettled t := by
  rcases k with ⟨k1, k2⟩ | ⟨k1, k2⟩
  · refine .inl ⟨?_, h.phase ▸ k2⟩
    rcases h.holder with e | ⟨e, -⟩
    · exact e.trans k1
    · have : s.holder = .command := e
      rw [k1] at this; cases this
  · refine .inr ⟨?_, h.prior.trans k2⟩
    rcases h.store with e | ⟨e, -⟩
    · exact e.trans k1
    · rw [k1] at e; cases e

/-- The laws stay through an operation that leaves the work where it stands. -/
theorem segments_stay {s t : State} (h : segmentsLawful s) (hf : From s.sm.table t.sm.table) (hw : Stays s t) :
    segmentsLawful t := by
  obtain ⟨h1, h2, h3, h4, h5, h6⟩ := h
  refine ⟨?_, hf.oneOpen h2, fun k => hf.noneOpen (h3 (hw.opening k)), ?_, fun k => ?_, fun k => ?_⟩
  · exact h1.imp hw.unsettled hf.lawful
  · exact hw.rc ▸ hf.victimOnly h4
  · have hs : s.holder = .mount := by
      rcases hw.holder with e | ⟨-, e⟩
      · exact e.symm.trans k
      · rw [k] at e; cases e
    refine ⟨?_, hw.rc.trans (h5 hs).2⟩
    rcases hw.store with e | ⟨e, -⟩
    · exact e.trans (h5 hs).1
    · rw [(h5 hs).1] at e; cases e
  · have hs : s.eng.store = .halted := by
      rcases hw.store with e | ⟨-, e⟩
      · exact e.symm.trans k
      · rw [k] at e; cases e
    rcases hw.holder with e | ⟨-, e⟩
    · exact e.trans (h6 hs)
    · exact e

/-- The laws of a table without journal segments, with the array held by no mount past its start. -/
theorem segments_empty {s : State} (h : ∀ e ∈ s.sm.table, e.st.journal? = none)
    (hm : s.holder = .mount → s.eng.store = .mounting ∧ s.rc.ctx = none) (hh : s.eng.store = .halted → s.holder = .none) :
    segmentsLawful s := by
  obtain ⟨h1, h2, h3⟩ := lawful_none h
  exact ⟨.inr h1, h2.one, fun _ => h2, h3 _, hm, hh⟩

/-! ### A command's append -/

/-- The command in flight, or none, has the array; the counts are rebuilt; the store is not halted. -/
structure Commanding (s : State) : Prop where
  base : Balanced s
  holder : s.holder = .none ∨ s.holder = .command
  running : s.eng.store ≠ .halted

theorem Commanding.stay {s t : State} (h : Commanding s) (hf : From s.sm.table t.sm.table) (hw : Stays s t) :
    Commanding t := by
  refine ⟨h.base.from hf hw.rc, ?_, fun k => ?_⟩
  · rcases hw.holder with e | ⟨-, e⟩
    · exact e ▸ h.holder
    · exact .inl e
  · rcases hw.store with e | ⟨-, e⟩
    · exact h.running (e.symm.trans k)
    · rw [k] at e; cases e

theorem Commanding.segments {s : State} (h : Commanding s)
    (ho : ∀ c o, s.inflight = some c → c.stage = .admission o → o.prep = none → noneOpen s.sm.table) :
    segmentsLawful s := by
  refine h.base.segments (fun k => ?_) ?_ (fun k => absurd k h.running)
  · rcases k with ⟨-, c, o, k2, k3, k4⟩ | ⟨k, -⟩ | ⟨k, -⟩ | ⟨k, -⟩
    · exact ho c o k2 k3 k4
    all_goals rcases h.holder with e | e <;> rw [k] at e <;> cases e
  · rcases h.holder with e | e <;> rw [e] <;> decide

theorem segmentsLawful.commanding {s : State} (h : segmentsLawful s) (hh : s.holder = .none ∨ s.holder = .command)
    (hr : s.eng.store ≠ .halted) : Commanding s :=
  ⟨h.balanced (by rcases hh with e | e <;> rw [e] <;> decide) fun k => absurd k hr, hh, hr⟩

theorem complete_ended (s : State) (r : Result) : (complete s r).inflight = none := by
  unfold complete; dsimp only
  split
  · assumption
  · rename_i c hc
    have k : ∀ t : State, t.inflight = none → Within { boundsOf t with stage := fun _ => False }
        t.holder t.eng.store t.eng.prior t.inflight t.rc.ctx t.fu t.mu.phase :=
      fun t ht => ⟨.inl rfl, fun c hc => absurd (ht.symm.trans hc) (by simp), rfl, rfl, rfl, .inl rfl, rfl⟩
    have e : ∀ t : State, t.inflight = none → (teardown t false).inflight = none := fun t ht =>
      Option.eq_none_iff_forall_ne_some.2 fun c hc => (work_teardown t false (k t ht)).stage c hc
    split
    · exact e _ rfl
    · rfl

theorem completeFail_ended (s : State) (st : Status) : (completeFail s st).inflight = none := by
  unfold completeFail
  split
  · assumption
  · exact complete_ended _ _

theorem segments_complete {s : State} (h : Commanding s) (r : Result) : segmentsLawful (complete s r) :=
  (h.stay (from_complete s r (From.refl _)) (work_complete s r (within_self s))).segments
    fun c o k => by rw [complete_ended] at k; cases k

theorem segments_completeFail {s : State} (h : Commanding s) (st : Status) : segmentsLawful (completeFail s st) :=
  (h.stay (from_completeFail s st (From.refl _)) (work_completeFail s st (within_self s))).segments
    fun c o k => by rw [completeFail_ended] at k; cases k

/-- What `issue` leaves alone. -/
theorem issue_work (s : State) (op : SeqOp) :
    (issue s op).sm = s.sm ∧ (issue s op).holder = s.holder ∧ (issue s op).eng = s.eng ∧ (issue s op).inflight = s.inflight
    ∧ (issue s op).rc = s.rc ∧ (issue s op).fu = s.fu ∧ (issue s op).mu = s.mu := by
  unfold issue; split <;> exact ⟨rfl, rfl, rfl, rfl, rfl, rfl, rfl⟩

/-- A state that differs from `s` in what the laws of the table do not read. -/
theorem segments_congr {s t : State} (h : segmentsLawful s) (h1 : t.sm.table = s.sm.table) (h2 : t.holder = s.holder)
    (h3 : t.eng.store = s.eng.store) (h4 : t.eng.prior = s.eng.prior) (h5 : t.inflight = s.inflight)
    (h6 : t.rc.ctx = s.rc.ctx) (h7 : t.fu = s.fu) (h8 : t.mu = s.mu) : segmentsLawful t := by
  unfold segmentsLawful mountUnsettled openingUnderWay at h ⊢
  rw [h1, h2, h3, h4, h5, h6, h7, h8]
  exact h

theorem segments_issue {s : State} (op : SeqOp) (h : segmentsLawful s) : segmentsLawful (issue s op) := by
  obtain ⟨h1, h2, h3, h4, h5, h6, h7⟩ := issue_work s op
  exact segments_congr h (by rw [h1]) h2 (by rw [h3]) (by rw [h3]) h4 (by rw [h5]) h6 h7

theorem segments_assign {s : State} (h : Commanding s) (l : Loc) : segmentsLawful (assign s l) := by
  unfold assign
  split
  · rename_i hn
    exact h.segments fun c o k => by rw [hn] at k; cases k
  · rename_i c hc
    apply segments_issue
    have hb : ∀ u : State, u = (match c.seq with | some _ => s | none => { s with eng.seqCtr := s.eng.seqCtr + 1 }) →
        u.sm = s.sm ∧ u.rc = s.rc ∧ u.eng.store = s.eng.store := by
      rintro u rfl; split <;> exact ⟨rfl, rfl, rfl⟩
    obtain ⟨e1, e2, e3⟩ := hb _ rfl
    refine Commanding.segments ⟨⟨?_, ?_, ?_⟩, .inr rfl, ?_⟩ ?_
    · exact e1.symm ▸ h.base.lawful
    · exact e1.symm ▸ h.base.one
    · exact e1.symm ▸ e2.symm ▸ h.base.victim
    · exact fun k => h.running (e3.symm.trans k)
    · intro d o k k2
      simp only [modCtx, Option.map_eq_some_iff] at k
      obtain ⟨x, -, rfl⟩ := k
      cases k2

/-! ### Openings -/

theorem openSegment_none {s : State} (h : openSegment s = none) : noneOpen s.sm.table := fun e he j hj => by
  have := List.findSome?_eq_none_iff.1 h e he
  rw [hj] at this; cases this

theorem openSegment_some {s : State} {n : Nat} {j : Journal} (h : openSegment s = some (n, j)) :
    ∃ e ∈ s.sm.table, e.num = n ∧ e.st = .opened j := by
  obtain ⟨e, he, hx⟩ := List.exists_of_findSome?_eq_some h
  refine ⟨e, he, ?_⟩
  split at hx
  · rename_i i hi
    cases hx
    exact ⟨rfl, hi⟩
  · cases hx

/-- The table after a change of segment `n`. -/
theorem segUpd_table (s : State) (n : Nat) (f : SegEntry → SegEntry) :
    (segUpd s n f).sm.table = s.sm.table.map (fun e => if e.num = n then f e else e) := by
  unfold segUpd; dsimp only; split <;> rfl

/-- Once the OPEN segment is closed none is OPEN. -/
theorem closeOpen_none {s : State} (h : oneOpen s.sm.table) : noneOpen (closeOpen s).sm.table := by
  unfold closeOpen
  split
  · rename_i n j hs
    obtain ⟨x, hx, rfl, hj⟩ := openSegment_some hs
    intro e he i hi
    unfold closeSegment at he
    rw [segUpd_table] at he
    obtain ⟨o, ho, rfl⟩ := List.mem_map.1 he
    split at hi
    · cases h2 : o.st <;> rw [h2] at hi <;> simp [SegState.close] at hi
    · rename_i hne
      exact hne (h o ho x hx i j hi hj)
  · rename_i hs
    exact openSegment_none hs

theorem startOpening_none {s : State} (h : oneOpen s.sm.table) (n : Nat) (failed : Option Nat) :
    noneOpen (startOpening s n failed).1.sm.table := by
  have e : (startOpening s n failed).1.sm.table = (closeOpen s).sm.table := by
    unfold startOpening; dsimp only
    rw [(issue_work _ _).1]
    unfold takeEpoch; split <;> rfl
  rw [e]; exact closeOpen_none h

/-- A segment is OPEN after its opening line, with the others as they were. -/
theorem Balanced.opened {s : State} (h : Balanced s) (hn : noneOpen s.sm.table) (n : Nat) (ep : Word) :
    Balanced (setSegState s n (.opened ⟨ep, 2, 0, 0, 0⟩)) := by
  have ht : (setSegState s n (.opened ⟨ep, 2, 0, 0, 0⟩)).sm.table =
      s.sm.table.map (fun e => if e.num = n then { e with st := .opened ⟨ep, 2, 0, 0, 0⟩ } else e) :=
    segUpd_table s n fun e => { e with st := .opened ⟨ep, 2, 0, 0, 0⟩ }
  have hr : (setSegState s n (.opened ⟨ep, 2, 0, 0, 0⟩)).rc.ctx = s.rc.ctx := by
    unfold setSegState segUpd; dsimp only; split <;> rfl
  have key : ∀ e ∈ (setSegState s n (.opened ⟨ep, 2, 0, 0, 0⟩)).sm.table,
      (e.num = n ∧ e.st = .opened ⟨ep, 2, 0, 0, 0⟩) ∨ e ∈ s.sm.table := by
    rw [ht]
    intro e he
    obtain ⟨o, ho, rfl⟩ := List.mem_map.1 he
    split
    · rename_i hm; exact .inl ⟨hm, rfl⟩
    · exact .inr ho
  refine ⟨fun e he j hj => ?_, fun e he x hx i j hi hj => ?_, fun e he j hj => ?_⟩
  · rcases key e he with ⟨-, k⟩ | k
    · rw [k] at hj; cases hj; rfl
    · exact h.lawful e k j hj
  · rcases key e he with ⟨k, -⟩ | k
    · rcases key x hx with ⟨l, -⟩ | l
      · rw [k, l]
      · exact absurd hj (hn x l j)
    · exact absurd hi (hn e k i)
  · rcases key e he with ⟨-, k⟩ | k
    · rw [k] at hj; cases hj
    · rw [hr]; exact h.victim e k j hj

/-- An opening's report: the segment is OPEN, or the state stays within its bounds. -/
theorem openReport_cases (s : State) (o : Opening) (rep : Report) :
    (o.prep = none ∧ openReport s o rep = (setSegState s o.seg (.opened ⟨o.epoch, 2, 0, 0, 0⟩), .opened))
    ∨ (From s.sm.table (openReport s o rep).1.sm.table ∧ Stays s (openReport s o rep).1
      ∧ (openReport s o rep).2 ≠ .opened
      ∧ ((openReport s o rep).2 = .going o ∨ o.prep ≠ none ∨ ∃ p, (openReport s o rep).2 = .going { o with prep := some p })
      ∧ ∀ o', (openReport s o rep).2 = .going o' → o'.prep = none → o.prep = none) := by
  have hw := work_openReport (w := boundsOf s) s o rep (within_self s)
  unfold openReport at hw ⊢
  split
  · rename_i hp
    split
    · exact .inl ⟨hp, rfl⟩
    · rename_i c
      refine .inr ⟨from_prepIssue _ _ _ _ (from_setDirty _ _ (from_countFault s _ (From.refl _))), ?_, ?_, ?_, ?_⟩
      · rw [hp] at hw; exact hw
      · intro h; cases h
      · exact .inr (.inr ⟨.erase, rfl⟩)
      · intro o' _ _; exact hp
    · refine .inr ⟨From.refl _, within_self s, ?_, .inl rfl, ?_⟩
      · intro h; cases h
      · intro o' _ _; exact hp
  · rename_i p hp
    have hf := from_prepReport s o.seg p s.eng.volId rep (From.refl s.sm.table)
    have hk := work_prepReport (w := boundsOf s) s o.seg p s.eng.volId rep (within_self s)
    dsimp only
    split
    · refine .inr ⟨hf, hk, ?_, .inr (.inl ?_), ?_⟩
      · intro h; cases h
      · intro h; rw [h] at hp; cases hp
      · intro o' h h2; cases h; cases h2
    · refine .inr ⟨hf, hk, ?_, .inr (.inl ?_), ?_⟩
      · dsimp only; split <;> intro h <;> cases h
      · intro h; rw [h] at hp; cases hp
      · intro o' h h2; dsimp only at h; split at h <;> cases h

/-! ### Admission of a command's append -/

theorem segments_loseBatch {s : State} (h : Commanding s) : segmentsLawful (loseBatch s) := by
  unfold loseBatch
  split
  · rename_i hn
    exact h.segments fun c o k => by rw [hn] at k; cases k
  · split
    · exact segments_completeFail
        (h.stay (from_teardown s false (From.refl _)) (work_teardown s false (within_self s))) _
    · exact segments_completeFail h _

theorem segments_waitOrFull {s : State} (h : Commanding s) : segmentsLawful (waitOrFull s) := by
  unfold waitOrFull
  split
  · exact Balanced.released ⟨h.base.lawful, h.base.one, h.base.victim⟩ rfl
  · exact segments_completeFail h _

theorem segments_admitCommand {s : State} (h : Commanding s) (failed : Option Nat) :
    segmentsLawful (admitCommand s failed) := by
  unfold admitCommand
  split
  · rename_i hn
    exact h.segments fun c o k => by rw [hn] at k; cases k
  · split
    · exact segments_assign h _
    · rename_i n _
      have k := h.stay (from_startOpening s n failed (From.refl _)) (work_startOpening s n failed (within_self s))
      have hn := startOpening_none h.base.one n failed
      dsimp only
      exact Commanding.segments ⟨⟨k.base.lawful, k.base.one, k.base.victim⟩, .inr rfl, k.running⟩ fun _ _ _ _ _ => hn
    · exact segments_completeFail
        (h.stay (from_enterReadOnly s (From.refl _)) (work_enterReadOnly s (within_self s))) _
    · exact segments_waitOrFull h

theorem segments_checkThenAppend {s : State} (h : Commanding s) : segmentsLawful (checkThenAppend s) := by
  unfold checkThenAppend
  split
  · exact segments_completeFail
      (h.stay (from_enterReadOnly s (From.refl _)) (work_enterReadOnly s (within_self s))) _
  · exact segments_admitCommand h none

/-! ### Reports of a command's append -/

/-- A halt is due at once: the sequencer is IDLE and the request stands. -/
structure HaltDue (s : State) : Prop where
  base : Balanced s
  holder : s.holder ≠ .mount
  running : s.eng.store ≠ .halted
  request : s.eng.haltReq = true
  idle : s.seqr = none

theorem segments_setStage {s : State} (h : Commanding s) (g : Stage)
    (hg : ∀ o, g = .admission o → o.prep = none → noneOpen s.sm.table) : segmentsLawful (setStage s g) :=
  Commanding.segments ⟨⟨h.base.lawful, h.base.one, h.base.victim⟩, h.holder, h.running⟩ fun c o k k2 k3 => by
    simp only [setStage, modCtx, Option.map_eq_some_iff] at k
    obtain ⟨x, -, rfl⟩ := k
    exact hg o k2 k3

theorem segments_appendDone {s : State} (h : Commanding s) (c : Ctx) : segmentsLawful (appendDone s c) := by
  have ha : Commanding (abandonRecord s) :=
    h.stay (from_abandonRecord s (From.refl _)) (work_abandonRecord s (within_self s))
  unfold appendDone; dsimp only
  split
  · exact segments_completeFail ha _
  split
  · exact segments_completeFail ha _
  split
  · exact segments_complete (h.stay (from_publish s c (From.refl _)) (work_publish s c (within_self s))) _
  · apply segments_issue
    refine segments_setStage h _ fun o ho => ?_
    unfold stageOfLine at ho
    split at ho
    · cases ho
    split at ho <;> cases ho

theorem segments_appendFault {s : State} (h : Commanding s) (c : Ctx) : segmentsLawful (appendFault s c) := by
  have ha : Commanding (closeSegment (abandonRecord (countFault s c.place.seg)) c.place.seg) :=
    h.stay (from_closeSegment _ _ (from_abandonRecord _ (from_countFault s _ (From.refl _))))
      (work_closeSegment _ _ (work_abandonRecord _ (work_countFault s _ (within_self s))))
  unfold appendFault; dsimp only
  split
  · exact segments_completeFail ha _
  split
  · exact segments_completeFail ha _
  split
  · exact segments_completeFail ha _
  split
  · exact segments_completeFail ha _
  · apply segments_admitCommand
    exact ha.stay (from_modCtx _ _ (From.refl _)) (work_modCtx _ _ (fun _ => rfl) (within_self _))

/-- The opening of a command's append goes on. -/
theorem segments_openingNext {s : State} (h : Commanding s) (c : Ctx) (o : Opening) (rep : Report)
    (hc : s.inflight = some c) (hs : c.stage = .admission o) (hn : o.prep = none → noneOpen s.sm.table)
    (hq : s.seqr = none) :
    segmentsLawful (openingNext (openReport s o rep) c o) ∨ HaltDue (openingNext (openReport s o rep) c o) := by
  rcases openReport_cases s o rep with ⟨hp, he⟩ | ⟨hf, hw, ho, hg, hk⟩
  · rw [he]
    have hb : Commanding (setSegState s o.seg (.opened ⟨o.epoch, 2, 0, 0, 0⟩)) := by
      have hw := work_setSegState (w := boundsOf s) s o.seg (.opened ⟨o.epoch, 2, 0, 0, 0⟩) (within_self s)
      refine ⟨h.base.opened (hn hp) o.seg o.epoch, ?_, fun k => ?_⟩
      · rcases hw.holder with e | ⟨-, e⟩
        · exact e ▸ h.holder
        · exact .inl e
      · rcases hw.store with e | ⟨-, e⟩
        · exact h.running (e.symm.trans k)
        · rw [k] at e; cases e
    unfold openingNext; dsimp only
    split
    · exact .inl (segments_completeFail hb _)
    split
    · exact .inl (segments_loseBatch hb)
    split
    · rename_i hr
      refine .inr ⟨hb.base, ?_, hb.running, hr, ?_⟩
      · rcases hb.holder with e | e <;> rw [e] <;> decide
      · unfold setSegState segUpd; dsimp only; split <;> exact hq
    · exact .inl (segments_assign hb _)
  · have hb : Commanding (openReport s o rep).1 := h.stay hf hw
    generalize hr : openReport s o rep = r at *
    obtain ⟨u, n⟩ := r
    dsimp only at hb hf hw ho hg hk
    cases n with
    | going o' => exact .inl (segments_setStage hb _ fun p hp hpn => by cases hp; exact hf.noneOpen (hn (hk o' rfl hpn)))
    | opened => exact absurd rfl ho
    | retry =>
      have hp : o.prep ≠ none := by
        rcases hg with e | e | ⟨p, e⟩
        · cases e
        · exact e
        · cases e
      unfold openingNext; dsimp only
      split
      · exact .inl (segments_completeFail hb _)
      split
      · exact .inl (segments_loseBatch hb)
      split
      · refine .inl (hb.segments fun d p k k2 k3 => ?_)
        obtain ⟨x, hx, hxs⟩ := hw.stage d k
        rw [hc] at hx; cases hx
        rw [hs, k2] at hxs; cases hxs
        exact absurd k3 hp
      · exact .inl (segments_admitCommand hb _)
    | failed =>
      have hp : o.prep ≠ none := by
        rcases hg with e | e | ⟨p, e⟩
        · cases e
        · exact e
        · cases e
      unfold openingNext; dsimp only
      split
      · exact .inl (segments_completeFail hb _)
      split
      · exact .inl (segments_loseBatch hb)
      split
      · refine .inl (hb.segments fun d p k k2 k3 => ?_)
        obtain ⟨x, hx, hxs⟩ := hw.stage d k
        rw [hc] at hx; cases hx
        rw [hs, k2] at hxs; cases hxs
        exact absurd k3 hp
      · exact .inl (segments_completeFail
          (hb.stay (from_modCtx _ Ctx.openFailed (From.refl _))
            (work_modCtx _ Ctx.openFailed (fun _ => rfl) (within_self _))) _)

/-- A report for the append of the command in flight. -/
theorem segments_appendReport {s : State} (h : segmentsLawful s) (hh : s.holder = .command) (c : Ctx)
    (hc : s.inflight = some c) (rep : Report) (hq : s.seqr = none) :
    segmentsLawful (appendReport s c rep) ∨ HaltDue (appendReport s c rep) := by
  have hb := h.commanding (.inr hh) (h.held (by simp [hh]))
  unfold appendReport
  split
  · rename_i o ho
    exact segments_openingNext hb c o rep hc ho (fun hp => h.2.2.1 (.inl ⟨hh, c, o, hc, ho, hp⟩)) hq
  · split
    · exact .inl (segments_appendDone hb c)
    · exact .inl (segments_appendFault hb c)
    · exact .inl h

/-! ### FORMAT -/

theorem segments_formatEnd {s : State} (h : Balanced s) : segmentsLawful (formatEnd s) := by
  unfold formatEnd; dsimp only
  refine segments_complete ⟨?_, .inl ?_, ?_⟩ _
  · split <;> exact ⟨h.lawful, h.one, h.victim⟩
  · split <;> rfl
  · split
    · simp
    · simp [raise]

/-- FORMAT has the array and has issued its next operation. -/
theorem formatting_segments {s : State} (h : Balanced s) (hh : s.holder = .format) (hr : s.eng.store ≠ .halted)
    (ho : ∀ f n, s.fu = some f → ((∃ p, f.phase = .step1 n p) ∨ f.phase = .step1Open n) → noneOpen s.sm.table) :
    segmentsLawful s := by
  refine h.segments (fun k => ?_) (by simp [hh]) fun k => absurd k hr
  rcases k with ⟨k, -⟩ | ⟨k, -⟩ | ⟨k, -⟩ | ⟨-, f, n, k2, k3⟩
  · rw [hh] at k; cases k
  · rw [hh] at k; cases k
  · rw [hh] at k; cases k
  · exact ho f n k2 k3

theorem segments_step1Next {s : State} (f : FormatCtx) (h : Balanced s) (hn : noneOpen s.sm.table)
    (hh : s.holder = .format) (hr : s.eng.store ≠ .halted) : segmentsLawful (step1Next s f) := by
  unfold step1Next
  split
  · exact segments_formatEnd h
  · apply segments_issue
    exact formatting_segments ⟨h.lawful, h.one, h.victim⟩ hh hr fun _ _ _ _ => hn

theorem segments_step2Next {s : State} (f : FormatCtx) (h : Balanced s) (hh : s.holder = .format)
    (hr : s.eng.store ≠ .halted) : segmentsLawful (step2Next s f) := by
  unfold step2Next
  split
  · exact segments_formatEnd h
  · apply segments_issue
    refine formatting_segments ⟨h.lawful, h.one, h.victim⟩ hh hr fun g m k k2 => ?_
    cases k
    rcases k2 with ⟨p, k2⟩ | k2 <;> cases k2

theorem formatTable_journal (s : State) (f : FormatCtx) (m : Bool) : ∀ e ∈ formatTable s f m, e.st.journal? = none := by
  intro e he
  obtain ⟨n, -, rfl⟩ := List.mem_map.1 he
  rfl

theorem segments_formatEnter (s : State) (f : FormatCtx) (m : Bool) : segmentsLawful (formatEnter s f m) := by
  unfold formatEnter; dsimp only
  obtain ⟨h1, h2, h3⟩ := lawful_none (formatTable_journal s f m)
  exact segments_step1Next _ ⟨h1, h2.one, h3 _⟩ h2 rfl (by simp)

theorem segments_formatCheckReport {s : State} (h : segmentsLawful s) (hh : s.holder = .command) (f : FormatCtx) (n : Nat)
    (l : Line) : segmentsLawful (formatCheckReport s f n l) := by
  have hb := h.commanding (.inr hh) (h.held (by simp [hh]))
  have hc : ∀ g : FormatCtx, segmentsLawful (setFu s g) := fun g =>
    Commanding.segments ⟨⟨hb.base.lawful, hb.base.one, hb.base.victim⟩, hb.holder, hb.running⟩
      fun c o k k2 k3 => h.2.2.1 (.inl ⟨hh, c, o, k, k2, k3⟩)
  have hd : ∀ st, segmentsLawful (completeFail { s with fu := none } st) := fun st =>
    segments_completeFail (s := { s with fu := none })
      ⟨⟨hb.base.lawful, hb.base.one, hb.base.victim⟩, hb.holder, hb.running⟩ st
  unfold formatCheckReport; dsimp only
  repeat' split
  all_goals first
    | exact segments_issue _ (hc _)
    | exact hd _
    | exact segments_formatEnter s _ false

/-- What the report of a FORMAT's operation finds. -/
structure Formatting (s : State) : Prop where
  base : Balanced s
  holder : s.holder = .format
  running : s.eng.store ≠ .halted

theorem Formatting.stay {s t : State} (h : Formatting s) (hf : From s.sm.table t.sm.table) (hw : Stays s t) :
    Formatting t := by
  refine ⟨h.base.from hf hw.rc, ?_, fun k => ?_⟩
  · rcases hw.holder with e | ⟨e, -⟩
    · exact e.trans h.holder
    · have : s.holder = .command := e
      rw [h.holder] at this; cases this
  · rcases hw.store with e | ⟨-, e⟩
    · exact h.running (e.symm.trans k)
    · rw [k] at e; cases e

theorem segments_formatStage {s : State} (h : Formatting s) (f : FormatCtx) (n : Nat) (first : Bool) (p : PrepStage)
    (hn : first = true → noneOpen s.sm.table) : segmentsLawful (formatStage s f n first p) := by
  have key : ∀ g, segmentsLawful (setFu s { f with phase := if first then .step1 n g else .step2 n g }) := fun g =>
    formatting_segments ⟨h.base.lawful, h.base.one, h.base.victim⟩ h.holder h.running fun x m k k2 => by
      cases k
      cases first with
      | true => exact hn rfl
      | false => rcases k2 with ⟨q, k2⟩ | k2 <;> cases k2
  unfold formatStage prepIssue
  split <;> exact segments_issue _ (key _)

theorem segments_formatRetired {s : State} (h : Formatting s) (f : FormatCtx) (n : Nat) (first : Bool)
    (hn : first = true → noneOpen s.sm.table) : segmentsLawful (formatRetired s f n first) := by
  have hf := from_retireSegment s n (From.refl s.sm.table)
  have k := h.stay hf (work_retireSegment s n (within_self s))
  unfold formatRetired
  split
  · rename_i hfirst
    exact segments_step1Next f k.base (hf.noneOpen (hn hfirst)) k.holder k.running
  · exact segments_step2Next f k.base k.holder k.running

theorem segments_formatPrepared {s : State} (h : Formatting s) (f : FormatCtx) (n : Nat) (first : Bool)
    (hn : first = true → noneOpen s.sm.table) : segmentsLawful (formatPrepared s f n first) := by
  unfold formatPrepared
  split
  · rename_i hfirst
    have hf := from_markKnown s n (From.refl s.sm.table)
    have k := h.stay hf (work_segUpd s n _ (within_self s))
    apply segments_issue
    exact formatting_segments ⟨k.base.lawful, k.base.one, k.base.victim⟩ k.holder k.running
      fun _ _ _ _ => hf.noneOpen (hn hfirst)
  · have k := h.stay (from_segmentPrepared s n (From.refl s.sm.table)) (work_segmentPrepared s n (within_self s))
    exact segments_step2Next f k.base k.holder k.running

theorem segments_formatSegment {s : State} (h : Formatting s) (hl : segmentsLawful s) (f : FormatCtx) (n : Nat)
    (first : Bool) (p : PrepStage) (rep : Report) (hn : first = true → noneOpen s.sm.table) :
    segmentsLawful (formatSegment s f n first p rep) := by
  have he := from_eraseEnded s n (From.refl s.sm.table)
  have ke := h.stay he (work_eraseEnded s n (within_self s))
  have hc := from_countFault s n (From.refl s.sm.table)
  have kc := h.stay hc (work_countFault s n (within_self s))
  have hm := from_markKnown s n (From.refl s.sm.table)
  have km := h.stay hm (work_segUpd s n _ (within_self s))
  unfold formatSegment
  split
  · exact segments_formatStage ke f n first _ fun k => he.noneOpen (hn k)
  · exact segments_formatStage ke f n first _ fun k => he.noneOpen (hn k)
  · exact segments_formatPrepared h f n first hn
  · exact segments_formatStage kc f n first _ fun k => hc.noneOpen (hn k)
  · split
    · exact segments_formatStage h f n first _ hn
    · exact segments_formatRetired h f n first hn
  · exact segments_formatRetired km f n first fun k => hm.noneOpen (hn k)
  · exact segments_formatRetired kc f n first fun k => hc.noneOpen (hn k)
  · exact hl

/-- A report for a FORMAT in FORMATTING. -/
theorem segments_formatReport {s : State} (h : segmentsLawful s) (hh : s.holder = .format) (f : FormatCtx)
    (hf : s.fu = some f) (rep : Report) : segmentsLawful (formatReport s f rep) := by
  have hr := h.held (by simp [hh])
  have k : Formatting s := ⟨h.balanced (by simp [hh]) fun e => absurd e hr, hh, hr⟩
  unfold formatReport
  split
  · exact h
  · rename_i n p hp
    exact segments_formatSegment k h f n true p rep fun _ => h.2.2.1 (.inr (.inr (.inr ⟨hh, f, n, hf, .inl ⟨p, hp⟩⟩)))
  · exact segments_formatSegment k h f _ false _ rep (by simp)
  · rename_i n hp
    have hn : noneOpen s.sm.table := h.2.2.1 (.inr (.inr (.inr ⟨hh, f, n, hf, .inr hp⟩)))
    split
    · unfold step1Opened; dsimp only
      have kb : Balanced { s with sm.nextEpoch := 2 } := ⟨k.base.lawful, k.base.one, k.base.victim⟩
      have ho := kb.opened hn n 1
      have hw := work_setSegState (w := boundsOf s) { s with sm.nextEpoch := 2 } n (.opened ⟨1, 2, 0, 0, 0⟩) (within_self s)
      refine segments_step2Next _ ho ?_ fun e => ?_
      · rcases hw.holder with e | ⟨e, -⟩
        · exact e.trans hh
        · have : s.holder = .command := e
          rw [hh] at this; cases this
      · rcases hw.store with e2 | ⟨-, e2⟩
        · exact hr (e2.symm.trans e)
        · rw [e] at e2; cases e2
    · have hc := from_countFault s n (From.refl s.sm.table)
      exact segments_formatStage (k.stay hc (work_countFault s n (within_self s))) f n true _ fun _ => hc.noneOpen hn
    · exact h

/-! ### Reclaim -/

theorem Balanced.ofRc {s : State} (h : Balanced s) (f : Reclaim → Reclaim) (hf : ∀ r, (f r).victim = r.victim) :
    Balanced (modRc s f) := by
  refine ⟨h.lawful, h.one, fun e he j hj => ?_⟩
  obtain ⟨r, hr, hv⟩ := h.victim e he j hj
  exact ⟨f r, by simp [modRc, hr], hv.trans (hf r).symm⟩

theorem segments_releaseStep {s : State} (h : Balanced s) : segmentsLawful (releaseStep s) :=
  Balanced.released (s := releaseStep s)
    (by have k := h.ofRc (fun r => { r with step := .idle, attempt := none }) fun _ => rfl
        exact ⟨k.lawful, k.one, k.victim⟩) rfl

theorem segments_passRecord {s : State} (h : Balanced s) (e : Nat) : segmentsLawful (passRecord s e) :=
  segments_releaseStep (h.ofRc _ fun _ => rfl)

theorem segments_endWalk {s : State} (h : Balanced s) : segmentsLawful (endWalk s) :=
  segments_releaseStep (h.ofRc _ fun _ => rfl)

/-- A reclaim step has the array. -/
structure Stepping (s : State) : Prop where
  base : Balanced s
  holder : s.holder = .reclaim
  running : s.eng.store ≠ .halted

theorem Stepping.stay {s t : State} (h : Stepping s) (hf : From s.sm.table t.sm.table) (hw : Stays s t) :
    Stepping t := by
  refine ⟨h.base.from hf hw.rc, ?_, fun k => ?_⟩
  · rcases hw.holder with e | ⟨e, -⟩
    · exact e.trans h.holder
    · have : s.holder = .command := e
      rw [h.holder] at this; cases this
  · rcases hw.store with e | ⟨-, e⟩
    · exact h.running (e.symm.trans k)
    · rw [k] at e; cases e

theorem Stepping.ofRc {s : State} (h : Stepping s) (f : Reclaim → Reclaim) (hf : ∀ r, (f r).victim = r.victim) :
    Stepping (modRc s f) := ⟨h.base.ofRc f hf, h.holder, h.running⟩

theorem Stepping.segments {s : State} (h : Stepping s)
    (ho : ∀ r o, s.rc.ctx = some r → r.step = .admission o → o.prep = none → noneOpen s.sm.table) :
    segmentsLawful s := by
  have hh := h.holder
  refine h.base.segments (fun k => ?_) (by simp [hh]) fun k => absurd k h.running
  rcases k with ⟨k, -⟩ | ⟨-, r, o, k2, k3, k4⟩ | ⟨k, -⟩ | ⟨k, -⟩
  · rw [hh] at k; cases k
  · exact ho r o k2 k3 k4
  · rw [hh] at k; cases k
  · rw [hh] at k; cases k

/-- A step that is no admission. -/
theorem Stepping.goesOn {s : State} (h : Stepping s) (f : Reclaim → Reclaim) (hf : ∀ r, (f r).victim = r.victim)
    (hs : ∀ r o, (f r).step = .admission o → o.prep = none → noneOpen s.sm.table) : segmentsLawful (modRc s f) :=
  (h.ofRc f hf).segments fun r o k k2 k3 => by
    simp only [modRc, Option.map_eq_some_iff] at k
    obtain ⟨x, -, rfl⟩ := k
    exact hs x o k2 k3

/-- The trigger is told with the array free. -/
theorem segments_tellTrigger {s : State} (h : Balanced s) (hh : s.holder = .none) (hr : s.eng.store ≠ .halted)
    (res : Result) : segmentsLawful (tellTrigger s res) := by
  have k : Commanding s := ⟨h, .inl hh, hr⟩
  unfold tellTrigger
  repeat' split
  · exact h.released hh
  · exact segments_complete k _
  · exact segments_completeFail k _
  · exact segments_setStage k _ fun o ho => by cases ho
  · exact h.released hh

/-- A returned victim leaves none RECLAIMING. -/
theorem returnVictim_none {s : State} {r : Reclaim} (h : victimOnly (some r) s.sm.table) :
    victimOnly none (returnVictim s r.victim).sm.table := by
  intro e he j hj
  exfalso
  unfold returnVictim at he
  rw [segUpd_table] at he
  obtain ⟨o, ho, rfl⟩ := List.mem_map.1 he
  split at hj
  · dsimp only at hj
    split at hj
    · cases hj
    · rename_i hne; exact hne _ hj
  · rename_i hne
    obtain ⟨x, hx, hv⟩ := h o ho j hj
    cases hx
    exact hne hv

/-- The victim leaves RECLAIMING. -/
theorem segments_victimLeaves {s : State} (h : Stepping s) (r : Reclaim) (hr : ∃ x, s.rc.ctx = some x ∧ x.victim = r.victim)
    (e : VictimEnd) (he : e = .freed ∨ e = .retired → victimOnly none s.sm.table) :
    segmentsLawful (victimLeaves s r e) := by
  obtain ⟨x, hx, hv⟩ := hr
  have hvo : victimOnly (some x) s.sm.table := hx ▸ h.base.victim
  have hret := returnVictim_none hvo
  rw [hv] at hret
  have key : ∀ t : State, From s.sm.table t.sm.table → victimOnly none t.sm.table → t.rc.ctx = none → t.holder = .none →
      t.eng.store ≠ .halted → ∀ res, segmentsLawful (tellTrigger t res) := fun t hf hvn ht hh hs res =>
    segments_tellTrigger ⟨hf.lawful h.base.lawful, hf.oneOpen h.base.one, ht ▸ hvn⟩ hh hs res
  have hrf : From s.sm.table (returnVictim s r.victim).sm.table := from_returnVictim s _ (From.refl _)
  have hw := work_returnVictim (w := boundsOf { s with rc.ctx := none, holder := .none })
    { s with rc.ctx := none, holder := .none } r.victim (within_self { s with rc.ctx := none, holder := .none })
  have ht : (returnVictim { s with rc.ctx := none, holder := .none } r.victim).sm.table
      = (returnVictim s r.victim).sm.table := by
    unfold returnVictim; rw [segUpd_table, segUpd_table]
  have none_of : ∀ {st : StoreState}, (st = s.eng.store ∨ (s.eng.store = .ready ∧ st = .readOnly)) → st ≠ .halted := by
    rintro st (rfl | ⟨-, rfl⟩)
    · exact h.running
    · decide
  have hnone : ∀ {q : Holder}, (q = Holder.none ∨ (Holder.none = Holder.command ∧ q = Holder.none)) → q = Holder.none := by
    rintro q (k | ⟨-, k⟩) <;> exact k
  unfold victimLeaves
  cases e with
  | freed =>
    exact key { s with rc.ctx := none, holder := .none } (From.refl _) (he (.inl rfl)) rfl rfl h.running _
  | retired =>
    exact key { s with rc.ctx := none, holder := .none } (From.refl _) (he (.inr rfl)) rfl rfl h.running _
  | copyFaulted => exact key _ (ht ▸ hrf) (ht ▸ hret) hw.rc (hnone hw.holder) (none_of hw.store) _
  | noSegment =>
    have hf := from_enterReadOnly (returnVictim { s with rc.ctx := none, holder := .none } r.victim)
      (From.refl (returnVictim { s with rc.ctx := none, holder := .none } r.victim).sm.table)
    have hx := work_enterReadOnly _ hw
    rw [ht] at hf
    exact key _ (hrf.trans hf) (hf.victimOnly hret) hx.rc (hnone hx.holder) (none_of hx.store) _

theorem segments_placeCopy {s : State} (h : Stepping s) (a : Attempt) (l : Loc) : segmentsLawful (placeCopy s a l) := by
  unfold placeCopy
  apply segments_issue
  exact Stepping.goesOn h (fun r => { r with attempt := some { a with place := l }, step := .program 0 }) (fun _ =>
      rfl) fun r o k => by cases k

theorem segments_admitCopy {s : State} (h : Stepping s) (r : Reclaim) (hr : ∃ x, s.rc.ctx = some x ∧ x.victim = r.victim)
    (a : Attempt) (failed : Option Nat) : segmentsLawful (admitCopy s r a failed) := by
  unfold admitCopy
  split
  · exact segments_releaseStep h.base
  split
  · exact segments_placeCopy h a _
  · rename_i n _
    have k := h.stay (from_startOpening s n failed (From.refl _)) (work_startOpening s n failed (within_self s))
    refine Stepping.goesOn k (fun r => { r with attempt := some a, step := .admission (startOpening s n failed).2 })
      (fun _ => rfl) fun _ _ _ _ => startOpening_none h.base.one n failed
  · exact segments_victimLeaves h r hr _ (by simp)
  · exact segments_victimLeaves h r hr _ (by simp)

/-- The context's victim stands through a change of its other fields. -/
theorem victim_modRc {s : State} {v : Nat} (hr : ∃ x, s.rc.ctx = some x ∧ x.victim = v) (f : Reclaim → Reclaim)
    (hf : ∀ r, (f r).victim = r.victim) : ∃ x, (modRc s f).rc.ctx = some x ∧ x.victim = v := by
  obtain ⟨x, hx, hv⟩ := hr
  exact ⟨f x, by simp [modRc, hx], (hf x).trans hv⟩

theorem victim_stays {s t : State} {v : Nat} (hr : ∃ x, s.rc.ctx = some x ∧ x.victim = v) (hw : Stays s t) :
    ∃ x, t.rc.ctx = some x ∧ x.victim = v := by
  obtain ⟨x, hx, hv⟩ := hr
  exact ⟨x, hw.rc.trans hx, hv⟩

theorem segments_buildCopy {s : State} (h : Stepping s) (r : Reclaim) (hr : ∃ x, s.rc.ctx = some x ∧ x.victim = r.victim)
    (a : Attempt) : segmentsLawful (buildCopy s r a) := by
  unfold buildCopy
  apply segments_admitCopy
  · apply h.ofRc; intro r; rfl
  · apply victim_modRc hr; intro r; rfl

theorem segments_walkHeader {s : State} (h : Stepping s) (r : Reclaim) (hr : ∃ x, s.rc.ctx = some x ∧ x.victim = r.victim)
    (l : Line) : segmentsLawful (walkHeader s r l) := by
  unfold walkHeader; dsimp only
  split
  · exact segments_endWalk h.base
  · split
    · exact segments_passRecord h.base _
    · exact segments_passRecord
        (h.stay (from_dropRecord s _ _ (From.refl _)) (work_dropRecord s _ _ (within_self s))).base _
    · unfold startCopy; dsimp only
      split
      · exact segments_buildCopy h r hr _
      · apply segments_issue
        apply h.goesOn
        · intro r; rfl
        · intro r o k; cases k

theorem segments_copyData {s : State} (h : Stepping s) (r : Reclaim) (hr : ∃ x, s.rc.ctx = some x ∧ x.victim = r.victim)
    (a : Attempt) (k : Nat) (l : Line) : segmentsLawful (copyData s r a k l) := by
  have hw := work_readContent (w := boundsOf s) s l (within_self s)
  have hs := h.stay (from_readContent s l (From.refl _)) hw
  unfold copyData; dsimp only
  split
  · apply segments_issue
    apply hs.goesOn
    · intro r; rfl
    · intro r o k; cases k
  · exact segments_buildCopy hs r (victim_stays hr hw) _

theorem segments_copyDone {s : State} (h : Stepping s) (r : Reclaim) (a : Attempt) (k : Nat) :
    segmentsLawful (copyDone s r a k) := by
  unfold copyDone
  split
  · apply segments_issue
    apply h.goesOn
    · intro r; rfl
    · intro r o k; cases k
  · unfold copyComplete; dsimp only
    apply segments_passRecord
    apply Balanced.ofRc
    rotate_left
    · intro r; rfl
    split
    · exact (h.stay (from_killLines _ _ _ (from_accountLive _ _ _ (from_repoint s a (From.refl _))))
        (work_killLines _ _ _ (work_accountLive _ _ _ (work_repoint s a (within_self s))))).base
    · exact (h.stay (from_accountDead s _ _ (From.refl _)) (work_accountDead s _ _ (within_self s))).base

theorem segments_copyFault {s : State} (h : Stepping s) (r : Reclaim) (hr : ∃ x, s.rc.ctx = some x ∧ x.victim = r.victim)
    (a : Attempt) : segmentsLawful (copyFault s r a) := by
  have hw := work_closeSegment (w := boundsOf s) _ a.place.seg (work_accountDead _ a.place.seg (extentOf a.hdr.len)
    (work_countFault s a.place.seg (within_self s)))
  have k := h.stay (from_closeSegment _ a.place.seg (from_accountDead _ a.place.seg (extentOf a.hdr.len)
    (from_countFault s a.place.seg (From.refl _)))) hw
  have kr := victim_stays hr hw
  unfold copyFault; dsimp only
  split
  · exact segments_releaseStep k.base
  split
  · exact segments_victimLeaves k r kr _ (by simp)
  · obtain ⟨x, hx, hv⟩ := kr
    apply segments_admitCopy
    · refine ⟨⟨k.base.lawful, k.base.one, ?_⟩, k.holder, k.running⟩
      intro e he j hj
      obtain ⟨y, hy, hyv⟩ := k.base.victim e he j hj
      rw [hx] at hy; cases hy
      exact ⟨{ r with copyRetried := true, attempt := some { a with retried := true } }, rfl, hyv.trans hv⟩
    · exact ⟨{ r with copyRetried := true, attempt := some { a with retried := true } }, rfl, rfl⟩

/-- An opening made for a copy goes on. -/
theorem segments_copyOpening {s : State} (h : Stepping s) (r : Reclaim) (hr : ∃ x, s.rc.ctx = some x ∧ x.victim = r.victim)
    (a : Attempt) (o : Opening) (rep : Report) (hn : o.prep = none → noneOpen s.sm.table) :
    segmentsLawful (copyOpening (openReport s o rep) r a o) := by
  rcases openReport_cases s o rep with ⟨hp, he⟩ | ⟨hf, hw, ho, hg, hk⟩
  · rw [he]
    have hw := work_setSegState (w := boundsOf s) s o.seg (.opened ⟨o.epoch, 2, 0, 0, 0⟩) (within_self s)
    have hb : Stepping (setSegState s o.seg (.opened ⟨o.epoch, 2, 0, 0, 0⟩)) := by
      refine ⟨h.base.opened (hn hp) o.seg o.epoch, ?_, fun k => ?_⟩
      · rcases hw.holder with e | ⟨e, -⟩
        · exact e.trans h.holder
        · have : s.holder = .command := e
          rw [h.holder] at this; cases this
      · rcases hw.store with e | ⟨-, e⟩
        · exact h.running (e.symm.trans k)
        · rw [k] at e; cases e
    unfold copyOpening; dsimp only
    split
    · exact segments_releaseStep hb.base
    · exact segments_placeCopy hb a _
  · have hb : Stepping (openReport s o rep).1 := h.stay hf hw
    have kr := victim_stays hr hw
    generalize openReport s o rep = x at *
    obtain ⟨u, n⟩ := x
    cases n with
    | going o' =>
      apply hb.goesOn
      · intro r; rfl
      · intro q p hp hpn; cases hp; exact hf.noneOpen (hn (hk o' rfl hpn))
    | opened => exact absurd rfl ho
    | retry => exact segments_admitCopy hb r kr a _
    | failed => exact segments_victimLeaves hb r kr _ (by simp)

/-- A segment that has left the preparation sequence is not RECLAIMING. -/
theorem prepReport_done {s : State} {n : Nat} {p : PrepStage} {vid : Word} {rep : Report}
    (h : (prepReport s n p vid rep).2 = none) :
    ∀ e ∈ (prepReport s n p vid rep).1.sm.table, e.num = n → ∀ j, e.st ≠ .reclaiming j := by
  have hr : ∀ t : State, ∀ e ∈ (retireSegment t n).sm.table, e.num = n → ∀ j, e.st ≠ .reclaiming j := by
    intro t e he hn j hj
    have hf : From (setSegState t n .retired).sm.table (retireSegment t n).sm.table := by
      unfold retireSegment; dsimp only
      split
      · exact from_enterReadOnly _ (From.refl _)
      · exact From.refl _
    obtain ⟨o, ho, hm, hs⟩ := hf.origin e he
    rw [hj] at hs
    obtain ⟨i, hi, -⟩ := hs
    unfold setSegState at ho
    rw [segUpd_table] at ho
    obtain ⟨x, -, rfl⟩ := List.mem_map.1 ho
    split at hi
    · cases hi
    · rename_i hne
      rw [if_neg hne] at hm
      exact hne (hm.trans hn)
  have hf : ∀ e ∈ (segmentPrepared s n).sm.table, e.num = n → ∀ j, e.st ≠ .reclaiming j := by
    intro e he hn j hj
    unfold segmentPrepared at he
    rw [segUpd_table] at he
    obtain ⟨x, -, rfl⟩ := List.mem_map.1 he
    split at hj
    · cases hj
    · rename_i hne
      rw [if_neg hne] at hn
      exact hne hn
  unfold prepReport at h ⊢
  dsimp only at h ⊢
  split
  all_goals try split
  all_goals first
    | exact hr _
    | exact hf
    | (exfalso; revert h; simp; done)
    | skip
  all_goals simp_all

theorem segments_finishReport {s : State} (h : Stepping s) (r : Reclaim) (hr : s.rc.ctx = some r) (p : PrepStage)
    (rep : Report) : segmentsLawful (finishReport s r p rep) := by
  have hw := work_prepReport (w := boundsOf s) s r.victim p s.eng.volId rep (within_self s)
  have k := h.stay (from_prepReport s r.victim p s.eng.volId rep (From.refl _)) hw
  unfold finishReport; dsimp only
  split
  · apply k.goesOn
    · intro r; rfl
    · intro r o e; cases e
  · rename_i hn
    have hd := prepReport_done hn
    refine segments_victimLeaves k r ⟨r, hw.rc.trans hr, rfl⟩ _ fun _ e he j hj => ?_
    obtain ⟨x, hx, hv⟩ := k.base.victim e he j hj
    rw [hw.rc.trans hr] at hx; cases hx
    exact absurd hj (hd e he hv j)

/-- A report for the reclaim step that holds the array. -/
theorem segments_reclaimReport {s : State} (h : segmentsLawful s) (hh : s.holder = .reclaim) (r : Reclaim)
    (hr : s.rc.ctx = some r) (rep : Report) : segmentsLawful (reclaimReport s r rep) := by
  have hs := h.held (by simp [hh])
  have k : Stepping s := ⟨h.balanced (by simp [hh]) fun e => absurd e hs, hh, hs⟩
  have hx : ∃ x, s.rc.ctx = some x ∧ x.victim = r.victim := ⟨r, hr, rfl⟩
  unfold reclaimReport
  split
  · exact segments_walkHeader k r hx _
  · exact segments_copyData k r hx _ _ _
  · rename_i o a q ho ha
    exact segments_copyOpening k r hx _ _ _ fun hp => h.2.2.1 (.inr (.inl ⟨hh, r, _, hr, ‹_›, hp⟩))
  · exact segments_copyDone k r _ _
  · exact segments_copyFault k r hx _
  · exact segments_finishReport k r hr _ _
  · exact h

/-- The array is free, the counts are rebuilt, the store is not halted. -/
structure Free (s : State) : Prop where
  base : Balanced s
  holder : s.holder = .none
  running : s.eng.store ≠ .halted

theorem segments_walkStep {s : State} (h : Balanced s) (hr : s.eng.store ≠ .halted) (r : Reclaim) :
    segmentsLawful (walkStep s r) := by
  unfold walkStep
  split
  · exact segments_endWalk h
  · apply segments_issue
    have k := h.ofRc (fun r => { r with step := .header }) fun _ => rfl
    refine Stepping.segments ⟨⟨k.lawful, k.one, k.victim⟩, rfl, hr⟩ fun x o e e2 => ?_
    simp only [modRc, Option.map_eq_some_iff] at e
    obtain ⟨y, -, rfl⟩ := e
    cases e2

/-- A victim is taken while none stands. -/
theorem Balanced.startVictim {s : State} (h : Balanced s) (hn : s.rc.ctx = none) (v : Nat) : Balanced (startVictim s v) := by
  have nr : ∀ e ∈ s.sm.table, ∀ j, e.st ≠ .reclaiming j := fun e he j hj => by
    obtain ⟨r, hr, -⟩ := h.victim e he j hj
    rw [hn] at hr; cases hr
  have key : ∀ e ∈ (Machine.startVictim s v).sm.table, ∃ o ∈ s.sm.table, o.num = e.num
      ∧ (e.st = o.st ∨ (e.num = v ∧ ∃ j, o.st = .closed j ∧ e.st = .reclaiming j)) := by
    intro e he
    have : e ∈ (segUpd s v (fun e => { e with st := match e.st with
      | .closed j => .reclaiming j
      | st => st })).sm.table := he
    rw [segUpd_table] at this
    obtain ⟨o, ho, rfl⟩ := List.mem_map.1 this
    refine ⟨o, ho, ?_⟩
    split
    · rename_i hv
      refine ⟨rfl, ?_⟩
      cases hs : o.st with
      | closed j => exact .inr ⟨hv, j, rfl, rfl⟩
      | free => exact .inl rfl
      | opened j => exact .inl rfl
      | reclaiming j => exact .inl rfl
      | dirty => exact .inl rfl
      | retired => exact .inl rfl
    · exact ⟨rfl, .inl rfl⟩
  refine ⟨fun e he j hj => ?_, fun e he x hx i j hi hj => ?_, fun e he j hj => ?_⟩
  · obtain ⟨o, ho, -, k | ⟨-, i, k, k2⟩⟩ := key e he
    · exact h.lawful o ho j (k ▸ hj)
    · rw [k2] at hj
      refine h.lawful o ho j ?_
      rw [k]; exact hj
  · obtain ⟨o, ho, hn1, k | ⟨-, y, -, k2⟩⟩ := key e he
    · obtain ⟨p, hp, hn2, l | ⟨-, y, -, l2⟩⟩ := key x hx
      · rw [← hn1, ← hn2]; exact h.one o ho p hp i j (k ▸ hi) (l ▸ hj)
      · rw [l2] at hj; cases hj
    · rw [k2] at hi; cases hi
  · obtain ⟨o, ho, -, k | ⟨hv, -⟩⟩ := key e he
    · exact absurd (k ▸ hj) (nr o ho j)
    · exact ⟨⟨v, .walk, 2, 0, false, none, .idle⟩, rfl, hv⟩

theorem startVictim_store (s : State) (v : Nat) :
    (startVictim s v).eng = s.eng ∧ (startVictim s v).holder = s.holder := by
  unfold startVictim segUpd; dsimp only; split <;> exact ⟨rfl, rfl⟩

theorem segments_grantWalk {s : State} (h : Free s) : segmentsLawful (grantWalk s) := by
  unfold grantWalk
  split
  · split
    · exact segments_walkStep h.base h.running _
    · exact h.base.released h.holder
  · rename_i hn
    split
    · split
      · exact segments_walkStep (h.base.startVictim hn _) (by rw [(startVictim_store s _).1]; exact h.running) _
      · exact h.base.released h.holder
    · exact h.base.released h.holder

theorem segments_grantFinish {s : State} (h : Free s) : segmentsLawful (grantFinish s) := by
  unfold grantFinish
  split
  · rename_i r hr
    split
    · have key : segmentsLawful { modRc s (fun x => { x with step := .finish x.finishStage }) with holder := .reclaim } := by
        have k := h.base.ofRc (fun x => { x with step := .finish x.finishStage }) fun _ => rfl
        refine Stepping.segments ⟨⟨k.lawful, k.one, k.victim⟩, rfl, h.running⟩ fun x o e e2 => ?_
        simp only [modRc, Option.map_eq_some_iff] at e
        obtain ⟨y, -, rfl⟩ := e
        cases e2
      unfold prepIssue
      split <;> exact segments_issue _ key
    · exact h.base.released h.holder
  · exact h.base.released h.holder

theorem stepGranted_free {s : State} (h : segmentsLawful s) (hg : stepGranted s = true) : Free s := by
  unfold stepGranted at hg
  simp only [Bool.and_eq_true] at hg
  obtain ⟨⟨ha, hs⟩, -⟩ := hg
  have hh : s.holder = .none := by simp [arrayFree] at ha; exact ha.1.1.1.2
  have hr : s.eng.store ≠ .halted := by
    intro k
    simp [serving, k] at hs
  exact ⟨h.balanced (by simp [hh]) fun e => absurd e hr, hh, hr⟩

theorem segments_reclaimWalkStep {s : State} (h : segmentsLawful s) : segmentsLawful (reclaimWalkStep s) := by
  unfold reclaimWalkStep
  split
  · exact segments_grantWalk (stepGranted_free h ‹_›)
  · exact h

theorem segments_reclaimFinishStep {s : State} (h : segmentsLawful s) : segmentsLawful (reclaimFinishStep s) := by
  unfold reclaimFinishStep
  split
  · exact segments_grantFinish (stepGranted_free h ‹_›)
  · exact h

/-! ### Mount -/

/-- The end of a mount with its table empty or its counts rebuilt. -/
theorem segments_mountEnd {s : State} (m : MountResult) (h : m = .ok → Balanced s) :
    segmentsLawful (mountEnd s m) := by
  have hst : storeAfterMount s m ≠ .halted := by
    unfold storeAfterMount
    cases m <;> dsimp only <;> first | decide | (split <;> decide)
  have key : ∀ u : State, Balanced u → u.holder = .none → u.eng.store ≠ .halted → ∀ r, segmentsLawful (tellMounter u r) := by
    intro u hb hh hr r
    unfold tellMounter
    repeat' split
    · exact segments_complete ⟨hb, .inl hh, hr⟩ r
    · exact hb.released hh
    · exact hb.released hh
  unfold mountEnd; dsimp only
  by_cases hm : m = .ok
  · have hb := h hm
    rw [if_pos hm]
    apply key
    · split <;> exact ⟨hb.lawful, hb.one, hb.victim⟩
    · split <;> rfl
    · split <;> exact hst
  · obtain ⟨k1, k2, k3⟩ := lawful_none (t := []) (fun e he => absurd he List.not_mem_nil)
    rw [if_neg hm]
    apply key
    · split <;> exact ⟨k1, k2.one, k3 _⟩
    · split <;> rfl
    · split <;> exact hst

/-- A mount before SETTLE. -/
structure Surveying (s : State) : Prop where
  noOpen : noneOpen s.sm.table
  victim : victimOnly none s.sm.table
  holder : s.holder = .mount
  store : s.eng.store = .mounting
  phase : s.mu.phase ≠ .settle
  ctx : s.rc.ctx = none

theorem segmentsLawful.surveying {s : State} (h : segmentsLawful s) (hh : s.holder = .mount) (hp : s.mu.phase ≠ .settle) :
    Surveying s := by
  obtain ⟨h5, h6⟩ := h.2.2.2.2.1 hh
  exact ⟨h.2.2.1 (.inr (.inr (.inl ⟨hh, hp⟩))), h6 ▸ h.2.2.2.1, hh, h5, hp, h6⟩

theorem Surveying.segments {s : State} (h : Surveying s) : segmentsLawful s :=
  ⟨.inl (.inl ⟨h.holder, h.phase⟩), h.noOpen.one, fun _ => h.noOpen, h.ctx ▸ h.victim, fun _ => ⟨h.store, h.ctx⟩,
    fun k => by rw [h.store] at k; cases k⟩

/-- A change of the table that makes no segment OPEN or RECLAIMING. -/
theorem Surveying.table {s t : State} (h : Surveying s)
    (ht : ∀ e ∈ t.sm.table, (∀ j, e.st ≠ .opened j ∧ e.st ≠ .reclaiming j) ∨ ∃ o ∈ s.sm.table,
      (∀ j, e.st = .opened j → ∃ i, o.st = .opened i) ∧ (∀ j, e.st = .reclaiming j → ∃ i, o.st = .reclaiming i))
    (hh : t.holder = s.holder) (hs : t.eng.store = s.eng.store) (hp : t.mu.phase ≠ .settle) (hc : t.rc.ctx = s.rc.ctx) :
    Surveying t := by
  refine ⟨fun e he j hj => ?_, fun e he j hj => ?_, hh.trans h.holder, hs.trans h.store, hp, hc.trans h.ctx⟩
  · rcases ht e he with k | ⟨o, ho, k, -⟩
    · exact (k j).1 hj
    · obtain ⟨i, hi⟩ := k j hj
      exact h.noOpen o ho i hi
  · rcases ht e he with k | ⟨o, ho, -, k⟩
    · exact absurd hj (k j).2
    · obtain ⟨i, hi⟩ := k j hj
      obtain ⟨r, hr, -⟩ := h.victim o ho i hi
      cases hr

theorem Surveying.same {s t : State} (h : Surveying s) (ht : t.sm.table = s.sm.table) (hh : t.holder = s.holder)
    (hs : t.eng.store = s.eng.store) (hp : t.mu.phase ≠ .settle) (hc : t.rc.ctx = s.rc.ctx) : Surveying t :=
  h.table (fun e he => .inr ⟨e, ht ▸ he, fun j hj => ⟨j, hj⟩, fun j hj => ⟨j, hj⟩⟩) hh hs hp hc

/-- A mount in SETTLE. -/
structure Settling (s : State) : Prop where
  base : Balanced s
  holder : s.holder = .mount
  store : s.eng.store = .mounting
  ctx : s.rc.ctx = none

theorem Settling.segments {s : State} (h : Settling s) (hp : s.mu.phase = .settle) : segmentsLawful s := by
  refine ⟨.inr h.base.lawful, h.base.one, fun k => ?_, h.base.victim, fun _ => ⟨h.store, h.ctx⟩,
    fun k => by rw [h.store] at k; cases k⟩
  have hh := h.holder
  rcases k with ⟨k, -⟩ | ⟨k, -⟩ | ⟨-, k⟩ | ⟨k, -⟩
  · rw [hh] at k; cases k
  · rw [hh] at k; cases k
  · exact absurd hp k
  · rw [hh] at k; cases k

theorem segments_settleNext {s : State} (h : Settling s) : segmentsLawful (settleNext s) := by
  unfold settleNext
  split
  · rename_i e _
    have key : segmentsLawful (modMu s (fun m => { m with phase := .settle, settling := some (e.num, .erase) })) :=
      Settling.segments ⟨⟨h.base.lawful, h.base.one, h.base.victim⟩, h.holder, h.store, h.ctx⟩ rfl
    unfold prepIssue
    exact segments_issue _ key
  · exact segments_mountEnd _ fun _ => ⟨h.base.lawful, h.base.one, h.base.victim⟩

theorem segments_settleReport {s : State} (h : segmentsLawful s) (hh : s.holder = .mount) (hp : s.mu.phase = .settle)
    (rep : Report) : segmentsLawful (settleReport s rep) := by
  obtain ⟨h5, h6⟩ := h.2.2.2.2.1 hh
  have hb : Balanced s := by
    refine ⟨h.1.resolve_left ?_, h.2.1, h.2.2.2.1⟩
    rintro (⟨-, k⟩ | ⟨k, -⟩)
    · exact k hp
    · rw [h5] at k; cases k
  unfold settleReport
  split
  · exact h
  · rename_i n p _
    have hw := work_prepReport (w := boundsOf s) s n p s.mu.foundVid rep (within_self s)
    have hf := from_prepReport s n p s.mu.foundVid rep (From.refl s.sm.table)
    have k : Settling (prepReport s n p s.mu.foundVid rep).1 := by
      refine ⟨hb.from hf hw.rc, ?_, ?_, hw.rc.trans h6⟩
      · rcases hw.holder with e | ⟨e, -⟩
        · exact e.trans hh
        · have : s.holder = .command := e
          rw [hh] at this; cases this
      · rcases hw.store with e | ⟨e, -⟩
        · exact e.trans h5
        · rw [h5] at e; cases e
    dsimp only
    split
    · exact Settling.segments ⟨⟨k.base.lawful, k.base.one, k.base.victim⟩, k.holder, k.store, k.ctx⟩ (hw.phase.trans hp)
    · exact segments_settleNext k

theorem segments_account {s : State} (h : Surveying s) : segmentsLawful (account s) := by
  have key : ∀ e ∈ s.sm.table, ∀ j, (accountState s e.num e.st).journal? = some j →
      j.lawful ∧ ((accountState s e.num e.st = .opened j ∧ newestJournal s = some e.num) ∨ accountState s e.num e.st =
          .closed j) := by
    intro e he j hj
    cases hs : e.st with
    | closed i =>
      rw [hs] at hj
      unfold accountState at hj ⊢
      dsimp only at hj ⊢
      split at hj
      · rename_i hc
        cases hj
        rw [if_pos hc]
        refine ⟨?_, .inl ⟨rfl, hc.1⟩⟩
        simp only [Journal.lawful, Journal.accounted]; omega
      · rename_i hc
        cases hj
        rw [if_neg hc]
        refine ⟨?_, .inr rfl⟩
        simp only [Journal.lawful, Journal.accounted]; omega
    | opened i => exact absurd hs (h.noOpen e he i)
    | reclaiming i =>
      obtain ⟨r, hr, -⟩ := h.victim e he i hs
      cases hr
    | free => rw [hs] at hj; cases hj
    | dirty => rw [hs] at hj; cases hj
    | retired => rw [hs] at hj; cases hj
  unfold account
  refine segments_settleNext ⟨⟨fun e he j hj => ?_, fun e he x hx i j hi hj => ?_, fun e he j hj => ?_⟩, h.holder,
    h.store, h.ctx⟩
  · obtain ⟨o, ho, rfl⟩ := List.mem_map.1 he
    exact (key o ho j hj).1
  · obtain ⟨o, ho, rfl⟩ := List.mem_map.1 he
    obtain ⟨p, hp, rfl⟩ := List.mem_map.1 hx
    obtain ⟨-, ⟨-, k⟩ | k⟩ := key o ho i (by rw [show accountState s o.num o.st = .opened i from hi]; rfl)
    · obtain ⟨-, ⟨-, l⟩ | l⟩ := key p hp j (by rw [show accountState s p.num p.st = .opened j from hj]; rfl)
      · exact Option.some.inj (k.symm.trans l)
      · rw [show accountState s p.num p.st = .opened j from hj] at l; cases l
    · rw [show accountState s o.num o.st = .opened i from hi] at k; cases k
  · obtain ⟨o, ho, rfl⟩ := List.mem_map.1 he
    have hj' : accountState s o.num o.st = .reclaiming j := hj
    obtain ⟨-, ⟨k, -⟩ | k⟩ := key o ho j (by rw [hj']; rfl)
    · rw [hj'] at k; cases k
    · rw [hj'] at k; cases k

theorem segments_replayNext {s : State} (h : Surveying s) : segmentsLawful (replayNext s) := by
  unfold replayNext
  split
  · unfold replayEnd; dsimp only
    apply segments_account
    exact h.same rfl rfl rfl (by simp [modMu]) rfl
  · apply segments_issue
    exact Surveying.segments (h.same rfl rfl rfl h.phase rfl)

theorem segments_replayReport {s : State} (h : Surveying s) (l : Line) : segmentsLawful (replayReport s l) := by
  unfold replayReport
  split
  · exact h.segments
  · rename_i j _
    dsimp only
    split
    · apply segments_issue
      exact Surveying.segments (h.same rfl rfl rfl h.phase rfl)
    · have k : Surveying (modMu s (fun m => { m with judge := none })) := h.same rfl rfl rfl h.phase rfl
      unfold replayJudged
      split
      · split
        · exact segments_mountEnd _ (by simp)
        · apply segments_replayNext
          unfold applyPart
          split
          · exact k.same rfl rfl rfl k.phase rfl
          · split
            · exact k.same rfl rfl rfl k.phase rfl
            split
            · exact k.same rfl rfl rfl k.phase rfl
            · exact k
      · exact segments_replayNext k

theorem segments_scanAt {s : State} (h : Surveying s) (l : Loc) : segmentsLawful (scanAt s l) := by
  unfold scanAt
  apply segments_issue
  exact Surveying.segments (h.same rfl rfl rfl h.phase rfl)

theorem segments_scanSegmentEnd {s : State} (h : Surveying s) (n wp : Nat) (stop : Bool) :
    segmentsLawful (scanSegmentEnd s n wp stop) := by
  have hj : Surveying (journalUpd s n (fun j => { j with wp := wp })) := by
    have hw := work_journalUpd (w := boundsOf s) s n (fun j => { j with wp := wp }) (within_self s)
    refine h.table (fun e he => ?_) ?_ ?_ (fun k => h.phase (hw.phase.symm.trans k)) hw.rc
    · unfold journalUpd at he
      rw [segUpd_table] at he
      obtain ⟨o, ho, rfl⟩ := List.mem_map.1 he
      refine .inr ⟨o, ho, ?_⟩
      split
      · cases o.st <;> simp [SegState.mapJournal]
      · exact ⟨fun j hj => ⟨j, hj⟩, fun j hj => ⟨j, hj⟩⟩
    · unfold journalUpd segUpd; dsimp only; split <;> rfl
    · unfold journalUpd segUpd; dsimp only; split <;> rfl
  have key : ∀ u : State, Surveying u → segmentsLawful (match nextJournal u n with
      | some k => scanAt u ⟨k, 2⟩
      | none => collectEnd u) := by
    intro u hu
    split
    · exact segments_scanAt hu _
    · unfold collectEnd
      apply segments_replayNext
      exact hu.same rfl rfl rfl (by simp [modMu]) rfl
  unfold scanSegmentEnd; dsimp only
  refine key _ ?_
  split
  · exact hj.same rfl rfl rfl hj.phase rfl
  · exact hj

theorem segments_scanAdvance {s : State} (h : Surveying s) (l : Loc) (e : Nat) : segmentsLawful (scanAdvance s l e) := by
  unfold scanAdvance
  split
  · exact segments_scanAt h _
  · exact segments_scanSegmentEnd h _ _ _

theorem segments_collectReport {s : State} (h : Surveying s) (l : Line) : segmentsLawful (collectReport s l) := by
  unfold collectReport
  split
  · rename_i j _
    dsimp only
    split
    · apply segments_issue
      exact Surveying.segments (h.same rfl rfl rfl h.phase rfl)
    · have k : Surveying (modMu s (fun m => { m with judge := none })) := h.same rfl rfl rfl h.phase rfl
      unfold collectJudged; dsimp only
      split
      · split
        · split
          · exact segments_mountEnd _ (by simp)
          · apply segments_scanAdvance
            exact k.same rfl rfl rfl k.phase rfl
        · split
          · exact segments_mountEnd _ (by simp)
          · apply segments_scanAdvance
            exact k.same rfl rfl rfl k.phase rfl
      · exact segments_scanAdvance k _ _
  · split
    · rename_i p _
      unfold scanHeader; dsimp only
      split
      · split
        · exact segments_scanSegmentEnd h _ _ _
        · exact segments_scanSegmentEnd h _ _ _
      · split
        · split
          · apply segments_issue
            exact Surveying.segments (h.same rfl rfl rfl h.phase rfl)
          · apply segments_scanAdvance
            exact h.same rfl rfl rfl h.phase rfl
        · exact segments_scanSegmentEnd h _ _ _
    · exact h.segments

theorem segments_surveyNext {s : State} (h : Surveying s) (n : Nat) : segmentsLawful (surveyNext s n) := by
  unfold surveyNext
  split
  · exact segments_issue _ h.segments
  · unfold surveyVerdict; dsimp only
    repeat' split
    · exact segments_mountEnd _ (by simp)
    · exact segments_mountEnd _ (by simp)
    · exact segments_mountEnd _ (by simp)
    · apply segments_scanAt
      refine h.table (fun e he => ?_) rfl rfl (by simp [modMu]) rfl
      obtain ⟨o, ho, rfl⟩ := List.mem_map.1 he
      refine .inr ⟨o, ho, ?_⟩
      split <;> exact ⟨fun j hj => ⟨j, hj⟩, fun j hj => ⟨j, hj⟩⟩
    · exact segments_mountEnd _ (by simp)

theorem Surveying.add {s : State} (h : Surveying s) (n : Nat) (st : SegState) (ec : Nat) (known : Bool)
    (hs : ∀ j, st ≠ .opened j ∧ st ≠ .reclaiming j) : Surveying (addEntry s n st ec known) := by
  refine h.table (fun e he => ?_) rfl rfl h.phase rfl
  rcases List.mem_append.1 he with k | k
  · exact .inr ⟨e, k, fun j hj => ⟨j, hj⟩, fun j hj => ⟨j, hj⟩⟩
  · obtain rfl := List.mem_singleton.1 k
    exact .inl hs

theorem segments_surveyReport {s : State} (h : Surveying s) (loc : Loc) (l : Line) :
    segmentsLawful (surveyReport s loc l) := by
  unfold surveyReport
  split
  · unfold surveyLine0
    split
    · exact segments_surveyNext (h.add _ _ _ _ (by simp)) _
    · exact segments_surveyNext (h.add _ _ _ _ (by simp)) _
    · apply segments_surveyNext
      exact h.same rfl rfl rfl h.phase rfl
    · exact segments_surveyNext (h.add _ _ _ _ (by simp)) _
    · rename_i vid _ _
      apply segments_issue
      refine Surveying.segments (h.same rfl rfl rfl ?_ rfl)
      show (noteVid s.mu vid).phase ≠ _
      unfold noteVid
      repeat' split
      all_goals exact h.phase
  · unfold surveyLine1
    split
    · exact h.segments
    · have k := h.add loc.seg (surveyState ‹_› l) ‹_› true (by
        unfold surveyState
        intro j
        repeat' split
        all_goals simp)
      apply segments_surveyNext
      exact k.same rfl rfl rfl k.phase rfl

/-- A report for the mount. -/
theorem segments_mountReport {s : State} (h : segmentsLawful s) (hh : s.holder = .mount) (loc : Loc) (rep : Report) :
    segmentsLawful (mountReport s loc rep) := by
  unfold mountReport
  split
  · rename_i hp; exact segments_surveyReport (h.surveying hh (by rw [hp]; decide)) _ _
  · rename_i hp; exact segments_collectReport (h.surveying hh (by rw [hp]; decide)) _
  · rename_i hp; exact segments_replayReport (h.surveying hh (by rw [hp]; decide)) _
  · rename_i hp; exact segments_settleReport h hh hp _
  · exact h

/-! ### Halts and reports -/

theorem haltReclaim_victim (s : State) : ∀ r, s.rc.ctx = some r → ∃ x, (haltReclaim s).rc.ctx = some x ∧ x.victim = r.victim := by
  intro r hr
  have key : ∀ t : State, t.rc = s.rc → ∃ x, (releaseStep t).rc.ctx = some x ∧ x.victim = r.victim := by
    intro t ht
    exact ⟨{ r with step := .idle, attempt := none }, by simp [releaseStep, modRc, ht, hr], rfl⟩
  unfold haltReclaim
  rw [hr]
  dsimp only
  split
  · exact ⟨r, hr, rfl⟩
  · exact key _ (by unfold accountDead journalUpd segUpd; dsimp only; split <;> rfl)
  · exact key _ rfl

theorem haltReclaim_eng (s : State) : (haltReclaim s).eng = s.eng ∧ (haltReclaim s).inflight = s.inflight
    ∧ (haltReclaim s).mu = s.mu := by
  unfold haltReclaim
  repeat' split
  · exact ⟨rfl, rfl, rfl⟩
  · exact ⟨rfl, rfl, rfl⟩
  · unfold accountDead journalUpd segUpd; dsimp only; split <;> exact ⟨rfl, rfl, rfl⟩
  · exact ⟨rfl, rfl, rfl⟩

/-- The entry to HALTED: nothing holds the array, and the victim and the counts stand. -/
theorem segments_haltEntry {s : State} (h1 : mountUnsettled s ∨ lawfulTable s.sm.table) (h2 : oneOpen s.sm.table)
    (h3 : victimOnly s.rc.ctx s.sm.table) (h4 : s.holder = .mount → s.eng.store = .mounting)
    (h5 : s.eng.store ≠ .halted) : segmentsLawful (haltEntry s) := by
  have hf := from_haltEntry s (From.refl s.sm.table)
  let s1 : State := raise { s with eng.prior := some s.eng.store, eng.store := .halted } .halt
  let s2 : State := { haltReclaim (haltCommand s1) with holder := .none, fu := none }
  have hu : haltEntry s = syncIdle (answerBothWaiting (flushQueue s2) Status.halted.code) := rfl
  have w1 := work_haltCommand (w := boundsOf s1) s1 (within_self s1)
  have w2 : Stays s2 (haltEntry s) := by
    rw [hu]
    exact work_syncIdle _ (work_answerBothWaiting _ _ (work_flushQueue s2 (within_self s2)))
  have hh : (haltEntry s).holder = .none := by
    rcases w2.holder with e | ⟨-, e⟩
    · exact e
    · exact e
  have e1 : (haltCommand s1).eng.store = .halted := by
    rcases w1.store with e | ⟨e, -⟩
    · exact e
    · cases e
  have e2 : s2.eng.store = .halted := by
    show (haltReclaim (haltCommand s1)).eng.store = .halted
    rw [(haltReclaim_eng _).1]; exact e1
  have e3 : (haltEntry s).eng.store = .halted := by
    rcases w2.store with e | ⟨e, -⟩
    · exact e.trans e2
    · rw [e2] at e; cases e
  have p2 : s2.eng.prior = some s.eng.store := by
    show (haltReclaim (haltCommand s1)).eng.prior = some s.eng.store
    rw [(haltReclaim_eng _).1]; exact w1.prior
  refine ⟨?_, hf.oneOpen h2, fun k => ?_, fun e he j hj => ?_, fun k => ?_, fun _ => hh⟩
  · rcases h1 with (⟨k, -⟩ | ⟨k, -⟩) | k
    · exact .inl (.inr ⟨e3, (w2.prior.trans p2).trans (by rw [h4 k])⟩)
    · exact absurd k h5
    · exact .inr (hf.lawful k)
  · simp only [openingUnderWay, hh] at k
    simp at k
  · obtain ⟨r, hr, hv⟩ := hf.victimOnly h3 e he j hj
    obtain ⟨x, hx, hxv⟩ := haltReclaim_victim (haltCommand s1) r (w1.rc.trans hr)
    exact ⟨x, w2.rc.trans hx, hv.trans hxv.symm⟩
  · rw [hh] at k; cases k

theorem segments_haltIfDue {s : State} (h : segmentsLawful s) : segmentsLawful (haltIfDue s) := by
  unfold haltIfDue
  split
  · rename_i hc
    simp only [Bool.and_eq_true, bne_iff_ne, ne_eq] at hc
    exact segments_haltEntry h.1 h.2.1 h.2.2.2.1 (fun k => (h.2.2.2.2.1 k).1) hc.2
  · exact h

theorem HaltDue.halts {s : State} (h : HaltDue s) : segmentsLawful (haltIfDue s) := by
  have hr := h.running
  unfold haltIfDue
  rw [if_pos (by simp [h.request, h.idle, hr])]
  exact segments_haltEntry (.inr h.base.lawful) h.base.one h.base.victim (fun k => absurd k h.holder) hr

/-- A report to the unit that holds the array, and the halt that may follow. -/
theorem segments_deliver {s : State} (h : segmentsLawful s) (hq : s.seqr = none) (loc : Loc) (rep : Report) :
    segmentsLawful (deliver s loc rep) := by
  unfold deliver onReport
  split
  · exact segments_haltIfDue h
  · rename_i hh
    have hs := h.held (by simp [hh])
    unfold commandReport
    split
    · exact segments_haltIfDue h
    · rename_i c hc
      have stay : ∀ t, From s.sm.table t.sm.table → Stays s t → segmentsLawful (haltIfDue t) := fun t hf hw =>
        segments_haltIfDue (segments_stay h hf hw)
      repeat' split
      · exact stay _ (from_getReport s c _ _ (From.refl _)) (work_getReport s c _ _ (within_self s))
      · exact stay _ (from_listReport s c _ _ _ (From.refl _)) (work_listReport s c _ _ _ (within_self s))
      · exact segments_haltIfDue (segments_formatCheckReport h hh _ _ _)
      · exact segments_haltIfDue h
      · exact segments_haltIfDue h
      · exact segments_haltIfDue h
      · rcases segments_appendReport h hh c hc _ hq with k | k
        · exact segments_haltIfDue k
        · exact k.halts
  · rename_i hh
    split
    · exact segments_haltIfDue (segments_reclaimReport h hh _ ‹_› rep)
    · exact segments_haltIfDue h
  · rename_i hh
    exact segments_haltIfDue (segments_mountReport h hh loc rep)
  · rename_i hh
    split
    · exact segments_haltIfDue (segments_formatReport h hh _ ‹_› rep)
    · exact segments_haltIfDue h

theorem segments_settleRefused (n : Nat) {s : State} (h : segmentsLawful s) : segmentsLawful (settleRefused n s) := by
  induction n generalizing s with
  | zero => exact h
  | succ n ih =>
    unfold settleRefused
    split
    · split
      · exact h
      · exact ih (segments_deliver (s := { s with seqr := none }) h rfl _ _)
    · exact h

/-! ### Resets, halts and the end of an operation -/

theorem segments_clearVolatile (s : State) : segmentsLawful (clearVolatile s) := by
  refine segments_empty (fun e he => absurd he List.not_mem_nil) (fun k => ?_) fun k => ?_
  · cases k
  · cases k

theorem segments_mountStart (s : State) : segmentsLawful (mountStart s) := by
  unfold mountStart
  apply segments_issue
  exact segments_empty (fun e he => absurd he List.not_mem_nil) (fun _ => ⟨rfl, rfl⟩) fun k => by cases k

theorem segments_leaveReset {s : State} (h : segmentsLawful s) : segmentsLawful (leaveReset s) := by
  unfold leaveReset; dsimp only
  apply segments_haltIfDue
  repeat' split
  all_goals first
    | exact segments_mountStart _
    | exact h

theorem segments_softReset (s : State) : segmentsLawful (softReset s) := segments_leaveReset (segments_clearVolatile s)

theorem segments_opEnds {s : State} (h : segmentsLawful s) (loc : Loc) (rep : Report) :
    segmentsLawful (opEnds s loc rep) := by
  unfold opEnds; dsimp only
  split
  · exact segments_softReset _
  · exact segments_settleRefused 8 (segments_deliver (s := { s with seqr := none }) h rfl loc rep)

theorem segments_leaveHalted {s : State} (h : segmentsLawful s) (hs : s.eng.store = .halted) :
    segmentsLawful (leaveHalted s) := by
  have hh := h.2.2.2.2.2 hs
  unfold leaveHalted
  split
  · exact segments_mountStart _
  · exact segments_mountStart _
  · rename_i st h1 h2 hp
    have hb := h.balanced (by simp [hh]) fun _ => by rw [hp]; rintro ⟨⟩; exact h1 rfl
    exact Balanced.released (s := { s with eng.store := st, eng.prior := none }) ⟨hb.lawful, hb.one, hb.victim⟩ hh
  · exact h

theorem segments_recoveryExpires {s : State} (h : segmentsLawful s) : segmentsLawful (recoveryExpires s) := by
  unfold recoveryExpires
  split
  · dsimp only
    split
    · rename_i hs
      exact segments_leaveHalted (s := { s with eng.haltReq := false, eng.recovery := false }) h hs
    · exact h
  · exact h

/-! ### Grants -/

theorem segments_startFormat {s : State} (h : Commanding s) (e n : Word) : segmentsLawful (startFormat s e n) := by
  unfold startFormat; dsimp only
  split
  · split
    · exact segments_formatEnter _ _ _
    · exact segments_completeFail h _
  split
  · apply segments_issue
    exact segments_setStage (s := { s with fu := some ⟨n, .check 0, [], [], []⟩, holder := .command })
      ⟨⟨h.base.lawful, h.base.one, h.base.victim⟩, .inr rfl, h.running⟩ .format fun o ho => by cases ho
  · exact segments_completeFail h _

theorem segments_runUnmount {s : State} (h : Commanding s) : segmentsLawful (runUnmount s) := by
  obtain ⟨k1, k2, k3⟩ := lawful_none (t := []) (fun e he => absurd he List.not_mem_nil)
  have k := h.stay (from_teardown s false (From.refl _)) (work_teardown s false (within_self s))
  unfold runUnmount
  apply segments_complete
  exact ⟨⟨k1, k2.one, k3 _⟩, k.holder, by simp⟩

theorem segments_startMount {s : State} (h : Commanding s) : segmentsLawful (startMount s) := by
  unfold startMount
  split
  · exact segments_complete h _
  · exact segments_mountStart _

theorem segments_startReclaim {s : State} (h : Commanding s) : segmentsLawful (startReclaim s) := by
  unfold startReclaim
  split
  · exact segments_setStage h _ fun o ho => by cases ho
  · rename_i hn
    split
    · rename_i v _
      obtain ⟨e1, e2⟩ := startVictim_store s v
      exact segments_setStage ⟨h.base.startVictim hn v, e2 ▸ h.holder, e1 ▸ h.running⟩ _ fun o ho => by cases ho
    · exact segments_complete h _

theorem segments_startGet {s : State} (h : Commanding s) (key : Key) : segmentsLawful (startGet s key) := by
  unfold startGet
  split
  · exact segments_complete h _
  · split
    · exact segments_complete h _
    · rename_i p _ _
      apply segments_issue
      exact segments_setStage
        (s := { modJob s (fun j => { j with loc := p.loc, len := p.len, seq := p.seq, k := 1, placed := 0 }) with
          holder := .command })
        ⟨⟨h.base.lawful, h.base.one, h.base.victim⟩, .inr rfl, h.running⟩ .read fun o ho => by cases ho

theorem segments_startList {s : State} (h : Commanding s) (after : Key) : segmentsLawful (startList s after) := by
  unfold startList
  split
  · exact segments_complete h _
  · rename_i k p _
    unfold listNext
    apply segments_issue
    have e := segments_setStage (s := { modJob s (fun j => { j with placed := 0 }) with holder := .command })
      ⟨⟨h.base.lawful, h.base.one, h.base.victim⟩, .inr rfl, h.running⟩ .read fun o ho => by cases ho
    exact segments_stay e (From.refl _) (work_modJob _ _ (within_self _))

/-- A command that has passed its state check. -/
theorem segments_runCommand {s : State} (h : Commanding s) (p : Port) (c : Cmd) : segmentsLawful (runCommand s p c) := by
  have kt : ∀ own, Commanding (teardown s own) := fun own =>
    h.stay (from_teardown s own (From.refl _)) (work_teardown s own (within_self s))
  have kr : Commanding (enterReadOnly s) :=
    h.stay (from_enterReadOnly s (From.refl _)) (work_enterReadOnly s (within_self s))
  unfold runCommand
  cases c with
  | put key len buf m =>
    show segmentsLawful (startWrite s p key m false)
    unfold startWrite
    split
    · exact segments_completeFail h _
    · exact segments_checkThenAppend h
  | delete key m =>
    show segmentsLawful (startWrite s p key m true)
    unfold startWrite
    split
    · exact segments_completeFail h _
    · exact segments_checkThenAppend h
  | get key buf => exact segments_startGet h _
  | stat key => exact segments_complete h _
  | list after buf n => exact segments_startList h _
  | batchOpen =>
    show segmentsLawful (startBatchOpen s p)
    unfold startBatchOpen
    repeat' split
    · exact segments_completeFail h _
    · exact segments_completeFail h _
    · exact segments_completeFail kr _
    · exact segments_complete
        (s := { s with eng.seqCtr := s.eng.seqCtr + 1, batch := some ⟨p, s.eng.seqCtr, [], .running⟩ })
        ⟨⟨h.base.lawful, h.base.one, h.base.victim⟩, h.holder, h.running⟩ _
  | batchCommit =>
    show segmentsLawful (startBatchCommit s p)
    unfold startBatchCommit
    repeat' split
    · exact segments_completeFail h _
    · exact segments_completeFail h _
    · exact segments_complete (s := { s with batch := none })
        ⟨⟨h.base.lawful, h.base.one, h.base.victim⟩, h.holder, h.running⟩ _
    · exact segments_checkThenAppend h
  | batchAbort =>
    show segmentsLawful (startBatchAbort s p)
    unfold startBatchAbort
    repeat' split
    · exact segments_completeFail h _
    · exact segments_completeFail h _
    · exact segments_complete (kt true) _
  | freeze lo hi =>
    show segmentsLawful (startFreeze s lo hi)
    unfold startFreeze
    repeat' split
    · exact segments_complete h _
    · exact segments_completeFail h _
    · exact segments_completeFail h _
    · exact segments_checkThenAppend h
  | mount => exact segments_startMount h
  | unmount => exact segments_runUnmount h
  | format e n => exact segments_startFormat h _ _
  | reclaim => exact segments_startReclaim h

theorem segments_execute {s : State} (h : Commanding s) (c : Ctx) : segmentsLawful (execute s c) := by
  unfold execute
  split
  · exact segments_completeFail h _
  · exact segments_runCommand h _ _

theorem Commanding.chooseHead {s : State} (h : Commanding s) : Commanding (chooseHead s) := by
  have key : ∀ t : State, t.sm = s.sm → t.rc = s.rc → t.holder = s.holder → t.eng.store = s.eng.store → Commanding t := by
    intro t e1 e2 e3 e4
    exact ⟨⟨e1 ▸ h.base.lawful, e1 ▸ h.base.one, e1 ▸ e2 ▸ h.base.victim⟩, e3 ▸ h.holder, e4 ▸ h.running⟩
  have km : ∀ b, (takeMgmt s b).sm = s.sm ∧ (takeMgmt s b).rc = s.rc ∧ (takeMgmt s b).holder = s.holder
      ∧ (takeMgmt s b).eng = s.eng := by
    intro b
    unfold takeMgmt setSlot
    repeat' split
    all_goals exact ⟨rfl, rfl, rfl, rfl⟩
  unfold Machine.chooseHead
  split
  · split
    · exact key _ rfl rfl rfl rfl
    · obtain ⟨e1, e2, e3, e4⟩ := km ‹_›
      exact key _ e1 e2 e3 (by rw [← e4])
  · exact key _ rfl rfl rfl rfl
  · obtain ⟨e1, e2, e3, e4⟩ := km ‹_›
    exact key _ e1 e2 e3 (by rw [← e4])
  · exact h

theorem segments_arbiterGrant {s : State} (h : segmentsLawful s) : segmentsLawful (arbiterGrant s) := by
  unfold arbiterGrant
  split
  · rename_i hg
    simp only [commandGranted, Bool.and_eq_true, arrayFree, beq_iff_eq] at hg
    have hh : s.holder = .none := hg.1.1.1.1.1.2
    have hr : s.eng.store ≠ .halted := by
      intro k
      simp [serving, k] at hg
    have k := Commanding.chooseHead (h.commanding (.inl hh) hr)
    unfold runGranted
    split
    · exact segments_settleRefused 8 (segments_execute k _)
    · rename_i hn
      exact k.segments fun c o e => by rw [hn] at e; cases e
  · exact h

theorem segments_waitSpaceResume {s : State} (h : segmentsLawful s) : segmentsLawful (waitSpaceResume s) := by
  unfold waitSpaceResume
  split
  · rename_i hg
    simp only [Bool.and_eq_true, arrayFree, beq_iff_eq] at hg
    have hh : s.holder = .none := hg.1.1.1.1.1.2
    have hr : s.eng.store ≠ .halted := by
      intro k
      simp [serving, k] at hg
    have k := h.commanding (.inl hh) hr
    exact segments_settleRefused 8 (segments_admitCommand (s := setStage s .check)
      ⟨⟨k.base.lawful, k.base.one, k.base.victim⟩, k.holder, k.running⟩ none)
  · exact h

/-! ### CONTROL, host writes and the pins -/

theorem segments_requestSoftReset {s : State} (h : segmentsLawful s) : segmentsLawful (requestSoftReset s) := by
  unfold requestSoftReset; dsimp only
  split
  · exact segments_softReset _
  · exact h

theorem segments_writeControl {s : State} (h : segmentsLawful s) (v : Byte) : segmentsLawful (writeControl s v) := by
  have hp : ∀ t : State, segmentsLawful t → segmentsLawful (portDisable t) := fun t ht =>
    segments_stay ht (from_portDisable t (From.refl _)) (work_portDisable t (within_self t))
  unfold writeControl; dsimp only
  repeat' split
  all_goals first
    | exact segments_requestSoftReset (hp _ h)
    | exact segments_requestSoftReset h
    | exact hp _ h
    | exact h

/-- A host write of any location. -/
theorem segments_hostWrite {s : State} (h : segmentsLawful s) (off : Nat) (v : Byte) : segmentsLawful (hostWrite s off v) := by
  have stay : ∀ t, From s.sm.table t.sm.table → Stays s t → segmentsLawful t := fun t hf hw => segments_stay h hf hw
  unfold hostWrite
  split
  · exact h
  · exact h
  · exact segments_writeControl h v
  · exact h
  · exact h
  · exact stay _ (from_submit s (From.refl _)) (work_submit s (within_self s))
  · exact stay _ (from_popCompletion s (From.refl _)) (work_popCompletion s (within_self s))
  · exact stay _ (from_hostAbort s v (From.refl _)) (work_hostAbort s v (within_self s))
  · exact h
  · exact h
  · exact stay _ (from_writeBufData s v (From.refl _)) (work_writeBufData s v (within_self s))
  · exact h

theorem segments_powerWarning {s : State} (h : segmentsLawful s) : segmentsLawful (powerWarning s) := by
  unfold powerWarning
  exact segments_haltIfDue h

theorem segments_powerOn (s : State) (amount : Bool) (madr : BitVec 2) : segmentsLawful (powerOn s amount madr) := by
  have h : segmentsLawful (latchStraps (resetBegins s) amount madr) := segments_clearVolatile (interrupt s)
  unfold powerOn; dsimp only
  split
  · exact h
  · exact segments_leaveReset h

theorem segments_resetPinHigh {s : State} (h : segmentsLawful s) (amount : Bool) (madr : BitVec 2) :
    segmentsLawful (resetPinHigh s amount madr) := by
  unfold resetPinHigh
  split
  · exact segments_leaveReset (s := latchStraps { s with pins.resetLow := false } amount madr) h
  · exact h

theorem segments_resetPinLow {s : State} (h : segmentsLawful s) : segmentsLawful (resetPinLow s) := by
  unfold resetPinLow
  split
  · exact h
  · exact segments_clearVolatile _

end Sys2Proof.Machine
end

