-- ==== Sys2Proof/Laws/Tables.lean ====
section
/-! SUPPORT. What a change of one entry does to a lookup in the tables: the segment table, the directory, the freeze list and
the commit table; and the journal order of the segment table. -/

namespace Sys2Proof.Machine

/-! ### The segment table -/

/-- A change of entry `n` changes the table and at most the alerts. -/
theorem segUpd_changes (s : State) (n : Nat) (f : SegEntry → SegEntry) : ∃ a, segUpd s n f =
    { s with sm := { s.sm with table := s.sm.table.map (fun e => if e.num = n then f e else e) }, alert := a } := by
  unfold segUpd; simp only; split
  · exact ⟨_, rfl⟩
  · exact ⟨s.alert, rfl⟩

/-- A change that makes no FREE segment another raises no SPACE. -/
theorem segUpd_quiet {s : State} (n : Nat) (f : SegEntry → SegEntry)
    (h : ∀ e ∈ s.sm.table, e.num = n → e.isFree = true → (f e).isFree = true) :
    segUpd s n f = { s with sm.table := s.sm.table.map (fun e => if e.num = n then f e else e) } := by
  unfold segUpd
  rw [if_neg]
  rintro ⟨h1, h2⟩
  have : freeCount s ≤ freeCount { s with sm.table := s.sm.table.map (fun e => if e.num = n then f e else e) } := by
    unfold freeCount
    show _ ≤ (s.sm.table.map _).countP _
    rw [List.countP_map]
    apply List.countP_mono_left
    intro x hx hf
    simp only [Function.comp]
    split
    · rename_i hn; exact h x hx hn hf
    · exact hf
  omega

theorem segEntry_segUpd (s : State) (n m : Nat) (f : SegEntry → SegEntry) (hf : ∀ e, (f e).num = e.num) :
    segEntry (segUpd s n f) m = (segEntry s m).map (fun e => if e.num = n then f e else e) := by
  obtain ⟨a, h⟩ := segUpd_changes s n f
  rw [h]
  unfold segEntry
  show (s.sm.table.map _).find? _ = _
  rw [List.find?_map]
  congr 1
  apply congrArg (fun p => s.sm.table.find? p)
  funext e
  simp only [Function.comp]
  split <;> simp [hf]

theorem segEntry_num {s : State} {m : Nat} {e : SegEntry} (h : segEntry s m = some e) : e.num = m := by
  unfold segEntry at h; simpa using List.find?_some h

theorem SegState.journal_mapJournal (st : SegState) (f : Journal → Journal) : (st.mapJournal f).journal? = st.journal?.map f := by
  cases st <;> rfl

/-- A change of the journal fields of segment `n`, segment by segment. -/
theorem journalOf_journalUpd (s : State) (n m : Nat) (f : Journal → Journal) :
    journalOf (journalUpd s n f) m = (journalOf s m).map (fun j => if m = n then f j else j) := by
  unfold journalOf journalUpd
  rw [segEntry_segUpd _ _ _ _ (by intro; rfl)]
  cases h : segEntry s m with
  | none => rfl
  | some e =>
    have := segEntry_num h
    simp only [Option.map_some, Option.bind_some]
    rw [this]
    split
    · simp [SegState.journal_mapJournal]
    · simp

theorem isFree_mapJournal (f : Journal → Journal) (e : SegEntry) :
    ({ e with st := e.st.mapJournal f } : SegEntry).isFree = e.isFree := by
  cases h : e.st <;> simp [SegEntry.isFree, SegState.mapJournal, h]

theorem table_nodup {s : State} (h : tableOrdered s) : (s.sm.table.map SegEntry.num).Nodup := h.imp Nat.ne_of_lt

/-- An entry of an ordered table is the one its number looks up. -/
theorem segEntry_of_mem {s : State} (hO : tableOrdered s) {e : SegEntry} (he : e ∈ s.sm.table) : segEntry s e.num = some e := by
  have key : ∀ t : List SegEntry, (t.map SegEntry.num).Nodup → e ∈ t → t.find? (fun x => x.num == e.num) = some e := by
    intro t
    induction t with
    | nil => intro _ h; cases h
    | cons a as ih =>
      intro ho hm
      rw [List.map_cons, List.nodup_cons] at ho
      rw [List.find?_cons]
      rcases List.mem_cons.1 hm with rfl | hm
      · simp
      · have : (a.num == e.num) = false := by
          rw [beq_eq_false_iff_ne]; intro h; exact ho.1 (h ▸ List.mem_map_of_mem hm)
        rw [this]; exact ih ho.2 hm
  exact key _ (table_nodup hO) he

/-- The table stays ordered when every entry keeps its number. -/
theorem tableOrdered_map {s t : State} (f : SegEntry → SegEntry) (hf : ∀ e, (f e).num = e.num)
    (ht : t.sm.table = s.sm.table.map f) (h : tableOrdered s) : tableOrdered t := by
  unfold tableOrdered
  rw [ht, List.map_map, show SegEntry.num ∘ f = SegEntry.num from funext hf]
  exact h

/-! ### The journal order (R22, R161) -/

theorem orderInsert_perm (x : Nat × Journal) (l : List (Nat × Journal)) : (orderInsert x l).Perm (x :: l) := by
  induction l with
  | nil => exact List.Perm.refl _
  | cons y rest ih =>
    unfold orderInsert
    split
    · exact List.Perm.refl _
    · exact (ih.cons y).trans (List.Perm.swap x y rest)

theorem orderInsert_sorted (x : Nat × Journal) (l : List (Nat × Journal)) (h : l.Pairwise (fun a b => a.2.epoch ≤ b.2.epoch)) :
    (orderInsert x l).Pairwise (fun a b => a.2.epoch ≤ b.2.epoch) := by
  induction l with
  | nil => simp [orderInsert]
  | cons y rest ih =>
    rw [List.pairwise_cons] at h
    unfold orderInsert
    split
    · rename_i hlt
      rw [List.pairwise_cons]
      refine ⟨fun z hz => ?_, by rw [List.pairwise_cons]; exact h⟩
      rcases List.mem_cons.1 hz with rfl | hz
      · exact BitVec.le_of_lt hlt
      · exact BitVec.le_trans (BitVec.le_of_lt hlt) (h.1 z hz)
    · rename_i hlt
      rw [List.pairwise_cons]
      refine ⟨fun z hz => ?_, ih h.2⟩
      rcases List.mem_cons.1 ((orderInsert_perm x rest).mem_iff.1 hz) with rfl | hz
      · exact BitVec.not_lt.1 hlt
      · exact h.1 z hz

theorem journalOrder_perm (s : State) : (journalOrder s).Perm (journals s) := by
  unfold journalOrder
  induction journals s with
  | nil => exact List.Perm.refl _
  | cons a as ih => rw [List.foldr_cons]; exact (orderInsert_perm _ _).trans (ih.cons a)

theorem journalOrder_sorted (s : State) : (journalOrder s).Pairwise (fun a b => a.2.epoch ≤ b.2.epoch) := by
  unfold journalOrder
  induction journals s with
  | nil => simp
  | cons a as ih => rw [List.foldr_cons]; exact orderInsert_sorted _ _ ih

theorem mem_journals {s : State} (hO : tableOrdered s) (n : Nat) (j : Journal) :
    (n, j) ∈ journals s ↔ journalOf s n = some j := by
  unfold journals
  rw [List.mem_filterMap]
  constructor
  · rintro ⟨e, he, h⟩
    cases hj : e.st.journal? with
    | none => rw [hj] at h; cases h
    | some i =>
      rw [hj] at h; cases h
      unfold journalOf; rw [segEntry_of_mem hO he]; exact hj
  · intro h
    unfold journalOf at h
    cases he : segEntry s n with
    | none => rw [he] at h; cases h
    | some e =>
      rw [he] at h
      refine ⟨e, List.mem_of_find?_eq_some he, ?_⟩
      have : e.st.journal? = some j := h
      rw [this, segEntry_num he]; rfl

theorem mem_journalOrder {s : State} (hO : tableOrdered s) (n : Nat) (j : Journal) :
    (n, j) ∈ journalOrder s ↔ journalOf s n = some j := by
  rw [(journalOrder_perm s).mem_iff]; exact mem_journals hO n j

theorem journals_nodup {s : State} (hO : tableOrdered s) : ((journals s).map Prod.fst).Nodup := by
  have : ((journals s).map Prod.fst).Sublist (s.sm.table.map SegEntry.num) := by
    unfold journals
    induction s.sm.table with
    | nil => simp
    | cons a as ih =>
      cases h : a.st.journal? with
      | none => rw [List.filterMap_cons]; simp only [h, Option.map_none, List.map_cons]; exact ih.cons _
      | some j => rw [List.filterMap_cons]; simp only [h, Option.map_some, List.map_cons]; exact ih.cons_cons _
  exact this.nodup (table_nodup hO)

theorem sameEpochs_of_ne {l : List (Nat × Journal)} (h : l.Pairwise (fun a b => a.2.epoch ≠ b.2.epoch)) :
    sameEpochs l = false := by
  induction l with
  | nil => rfl
  | cons a as ih =>
    rw [List.pairwise_cons] at h
    unfold sameEpochs
    rw [ih h.2, Bool.or_false, List.any_eq_false]
    intro x hx
    have := h.1 x hx
    simpa using fun e => this e.symm

theorem sameEpochs_of_eq {l : List (Nat × Journal)} {a b : Nat × Journal} (ha : a ∈ l) (hb : b ∈ l) (hne : a ≠ b)
    (he : a.2.epoch = b.2.epoch) : sameEpochs l = true := by
  induction l with
  | nil => cases ha
  | cons x xs ih =>
    unfold sameEpochs
    rw [Bool.or_eq_true, List.any_eq_true]
    rcases List.mem_cons.1 ha with rfl | ha
    · rcases List.mem_cons.1 hb with rfl | hb
      · exact absurd rfl hne
      · exact .inl ⟨b, hb, by simp [he]⟩
    · rcases List.mem_cons.1 hb with rfl | hb
      · exact .inl ⟨a, ‹_›, by simp [he]⟩
      · exact .inr (ih ‹_› ‹_›)

/-- Two segments of a journal order have different epochs. -/
theorem inJournalOrder_ne {s : State} {q : List Nat} (h : inJournalOrder s q) {a b : Nat} {i j : Journal}
    (ha : journalOf s a = some i) (hb : journalOf s b = some j) (hne : a ≠ b) : i.epoch ≠ j.epoch := by
  have m1 := (h.1 a).2 ⟨i, ha⟩
  have m2 := (h.1 b).2 ⟨j, hb⟩
  have := h.2
  clear h
  induction q with
  | nil => cases m1
  | cons x xs ih =>
    rw [List.pairwise_cons] at this
    rcases List.mem_cons.1 m1 with rfl | m1
    · rcases List.mem_cons.1 m2 with rfl | m2
      · exact absurd rfl hne
      · obtain ⟨i', j', h1, h2, h3⟩ := this.1 b m2
        rw [ha] at h1; rw [hb] at h2; cases h1; cases h2
        exact fun e => by rw [e] at h3; exact BitVec.lt_irrefl _ h3
    · rcases List.mem_cons.1 m2 with rfl | m2
      · obtain ⟨i', j', h1, h2, h3⟩ := this.1 a ‹_›
        rw [hb] at h1; rw [ha] at h2; cases h1; cases h2
        exact fun e => by rw [e] at h3; exact BitVec.lt_irrefl _ h3
      · exact ih m1 m2 this.2

/-- The order SURVEY computes is the journal order, where there is one. -/
theorem journalOrder_eq {s : State} (hO : tableOrdered s) {q : List Nat} (h : inJournalOrder s q) :
    (journalOrder s).map Prod.fst = q ∧ sameEpochs (journalOrder s) = false := by
  have hnd : ((journalOrder s).map Prod.fst).Nodup :=
    ((journalOrder_perm s).map Prod.fst).nodup_iff.2 (journals_nodup hO)
  have hstrict : (journalOrder s).Pairwise (fun a b => a.2.epoch < b.2.epoch) := by
    refine ((journalOrder_sorted s).and (List.pairwise_map.1 hnd)).imp_of_mem ?_
    rintro ⟨a, i⟩ ⟨b, j⟩ ha hb ⟨hle, hne⟩
    have := inJournalOrder_ne h ((mem_journalOrder hO a i).1 ha) ((mem_journalOrder hO b j).1 hb) hne
    exact BitVec.lt_def.2 (Nat.lt_of_le_of_ne (BitVec.le_def.1 hle) (fun e => this (BitVec.eq_of_toNat_eq e)))
  refine ⟨?_, sameEpochs_of_ne (hstrict.imp (fun h e => by rw [e] at h; exact BitVec.lt_irrefl _ h))⟩
  refine List.Perm.eq_of_pairwise
    (le := fun a b => ∃ i j, journalOf s a = some i ∧ journalOf s b = some j ∧ i.epoch < j.epoch) ?_ ?_ h.2 ?_
  · rintro a b _ _ ⟨i, j, h1, h2, h3⟩ ⟨i', j', h4, h5, h6⟩
    rw [h1] at h5; rw [h2] at h4; cases h4; cases h5
    exact absurd h6 (BitVec.lt_asymm h3)
  · rw [List.pairwise_map]
    refine hstrict.imp_of_mem ?_
    rintro ⟨a, i⟩ ⟨b, j⟩ ha hb hlt
    exact ⟨i, j, (mem_journalOrder hO a i).1 ha, (mem_journalOrder hO b j).1 hb, hlt⟩
  · rw [List.perm_ext_iff_of_nodup hnd (h.2.imp (fun {a b} ⟨i, j, h1, h2, h3⟩ e => by
      subst e; rw [h1] at h2; cases h2; exact BitVec.lt_irrefl _ h3))]
    intro n
    rw [h.1, List.mem_map]
    constructor
    · rintro ⟨⟨m, j⟩, hm, rfl⟩; exact ⟨j, (mem_journalOrder hO m j).1 hm⟩
    · rintro ⟨j, hj⟩; exact ⟨(n, j), (mem_journalOrder hO n j).2 hj, rfl⟩

/-! ### The directory, the freeze list and the commit table -/

/-- What a put gives its key, and that it leaves every other. -/
theorem dirLookup_put (k : Key) (f : DirEntry → DirEntry) (d : List DirEntry) (hd : d.Pairwise (fun a b => a.key < b.key))
    (hf : ∀ e, (f e).key = e.key) :
    dirLookup (dirPut k f d) k = some (f ((dirLookup d k).getD ⟨k, none, none⟩))
    ∧ ∀ x, x ≠ k → dirLookup (dirPut k f d) x = dirLookup d x := by
  induction d with
  | nil =>
    constructor
    · simp [dirPut, dirLookup, hf]
    · intro x hx; simp [dirPut, dirLookup, hf]; intro h; exact hx (by rw [h])
  | cons e rest ih =>
    rw [List.pairwise_cons] at hd
    obtain ⟨h1, h2⟩ := hd
    unfold dirPut
    split
    · rename_i hlt
      have hnone : dirLookup (e :: rest) k = none := by
        unfold dirLookup; rw [List.find?_eq_none]
        intro y hy
        rcases List.mem_cons.1 hy with rfl | hy
        · simp; intro h; rw [h] at hlt; exact absurd hlt (by simp)
        · have := h1 y hy; simp; intro h; rw [h] at this; exact absurd (BitVec.lt_trans hlt this) (by simp)
      rw [hnone]
      constructor
      · unfold dirLookup; rw [List.find?_cons_of_pos (by simp [hf])]; rfl
      · intro x hx; unfold dirLookup; rw [List.find?_cons_of_neg (by simp [hf]; exact fun h => hx h.symm)]
    · split
      · rename_i _ heq
        constructor
        · unfold dirLookup
          rw [List.find?_cons_of_pos (by simp [hf, heq]), List.find?_cons_of_pos (by simp [heq])]; rfl
        · intro x hx; unfold dirLookup
          rw [List.find?_cons_of_neg (by simp [hf, ← heq]; exact fun h => hx h.symm),
            List.find?_cons_of_neg (by simp [← heq]; exact fun h => hx h.symm)]
      · rename_i hn1 hn2
        have hne : (e.key == k) = false := by simpa using fun h => hn2 h.symm
        obtain ⟨i1, i2⟩ := ih h2
        constructor
        · unfold dirLookup at i1 ⊢
          simp only [List.find?_cons, hne]; exact i1
        · intro x hx
          unfold dirLookup at i2 ⊢
          simp only [List.find?_cons]; rw [i2 x hx]

/-- A change of one key's entry, key by key. -/
theorem dirLookup_map (k x : Key) (f : DirEntry → DirEntry) (d : List DirEntry) (hf : ∀ e, (f e).key = e.key) :
    dirLookup (dirMap k f d) x = (dirLookup d x).map (fun e => if x = k then f e else e) := by
  unfold dirLookup dirMap
  induction d with
  | nil => rfl
  | cons a as ih =>
    simp only [List.map_cons, List.find?_cons]
    have h1 : (if a.key = k then f a else a).key = a.key := by split <;> simp [hf]
    rw [h1]
    cases h : a.key == x with
    | true =>
      have : a.key = x := by simpa using h
      simp [this]
    | false => exact ih

/-- An inserted commit entry replaces the one with its batch id. -/
theorem mem_commitInsert (c x : CommitEntry) (l : List CommitEntry) (h : CommitOk l) :
    c ∈ commitInsert x l ↔ c = x ∨ (c ∈ l ∧ c.bid ≠ x.bid) := by
  induction l with
  | nil => simp [commitInsert]
  | cons a as ih =>
    obtain ⟨h1, h2⟩ := List.pairwise_cons.1 h
    have later : ∀ y : CommitEntry, x.bid = a.bid ∨ x.bid < a.bid → y ∈ as → y.bid ≠ x.bid := by
      intro y hx hy e
      have := h1 y hy
      rw [e] at this
      rcases hx with hx | hx
      · rw [hx] at this; exact BitVec.lt_irrefl _ this
      · exact BitVec.lt_asymm hx this
    unfold commitInsert
    split
    · rename_i he
      simp only [List.mem_cons]
      constructor
      · rintro (rfl | hc)
        · exact .inl rfl
        · exact .inr ⟨.inr hc, later c (.inl he) hc⟩
      · rintro (rfl | ⟨rfl | hc, hn⟩)
        · exact .inl rfl
        · exact absurd he.symm hn
        · exact .inr hc
    · split
      · rename_i he hlt
        simp only [List.mem_cons]
        constructor
        · rintro (rfl | rfl | hc)
          · exact .inl rfl
          · exact .inr ⟨.inl rfl, fun e => he e.symm⟩
          · exact .inr ⟨.inr hc, later c (.inr hlt) hc⟩
        · rintro (rfl | ⟨hc, _⟩)
          · exact .inl rfl
          · exact .inr hc
      · rename_i he _
        simp only [List.mem_cons, ih h2]
        constructor
        · rintro (rfl | rfl | ⟨hc, hn⟩)
          · exact .inr ⟨.inl rfl, fun e => he e.symm⟩
          · exact .inl rfl
          · exact .inr ⟨.inr hc, hn⟩
        · rintro (rfl | ⟨rfl | hc, hn⟩)
          · exact .inr (.inl rfl)
          · exact .inl rfl
          · exact .inr (.inr ⟨hc, hn⟩)

/-- An inserted freeze range replaces the one with its bounds. -/
theorem mem_freezeInsert (c x : FreezeEntry) (l : List FreezeEntry) (h : FreezeOk l) :
    c ∈ freezeInsert x l ↔ c = x ∨ (c ∈ l ∧ ¬ (c.lo = x.lo ∧ c.hi = x.hi)) := by
  induction l with
  | nil => simp [freezeInsert]
  | cons a as ih =>
    obtain ⟨h1, h2⟩ := List.pairwise_cons.1 h
    have later : ∀ y : FreezeEntry, (x.lo = a.lo ∧ x.hi = a.hi) ∨ (x.lo < a.lo ∨ (x.lo = a.lo ∧ x.hi < a.hi)) →
        y ∈ as → ¬ (y.lo = x.lo ∧ y.hi = x.hi) := by
      rintro y hx hy ⟨e1, e2⟩
      have := h1 y hy
      simp only [BitVec.lt_def] at this hx
      rw [e1, e2] at this
      rcases hx with ⟨a1, a2⟩ | a1 | ⟨a1, a2⟩
      · rw [a1, a2] at this; omega
      · rcases this with h | ⟨h, _⟩
        · omega
        · rw [h] at a1; omega
      · rw [a1] at this; omega
    unfold freezeInsert
    split
    · rename_i he
      simp only [List.mem_cons]
      constructor
      · rintro (rfl | hc)
        · exact .inl rfl
        · exact .inr ⟨.inr hc, later c (.inl he) hc⟩
      · rintro (rfl | ⟨rfl | hc, hn⟩)
        · exact .inl rfl
        · exact absurd ⟨he.1.symm, he.2.symm⟩ hn
        · exact .inr hc
    · split
      · rename_i he hlt
        simp only [List.mem_cons]
        constructor
        · rintro (rfl | rfl | hc)
          · exact .inl rfl
          · exact .inr ⟨.inl rfl, fun e => he ⟨e.1.symm, e.2.symm⟩⟩
          · exact .inr ⟨.inr hc, later c (.inr hlt) hc⟩
        · rintro (rfl | ⟨hc, _⟩)
          · exact .inl rfl
          · exact .inr hc
      · rename_i he _
        simp only [List.mem_cons, ih h2]
        constructor
        · rintro (rfl | rfl | ⟨hc, hn⟩)
          · exact .inr ⟨.inl rfl, fun e => he ⟨e.1.symm, e.2.symm⟩⟩
          · exact .inl rfl
          · exact .inr ⟨.inr hc, hn⟩
        · rintro (rfl | ⟨rfl | hc, hn⟩)
          · exact .inr (.inl rfl)
          · exact .inl rfl
          · exact .inr (.inr ⟨hc, hn⟩)

theorem hasRange_iff (l : List FreezeEntry) (lo hi : Key) : hasRange l lo hi = true ↔ ∃ x ∈ l, x.lo = lo ∧ x.hi = hi := by
  simp [hasRange]

end Sys2Proof.Machine
end

