-- ==== Sys2Proof/Laws/Capacity.lean ====
section
/-! SUPPORT. The limits of the tables (R48, R60, R110, R111, R125), the agreement of the pending parts with the member list (R50,
R111) and the sequence counter above every sequence the tables name (R70), under every operation. One lemma per operation. -/

namespace Sys2Proof.Machine

/-! ### Lists -/

theorem dirHas_sub {d e : List DirEntry} (h : ∀ x ∈ e, ∃ y ∈ d, ∀ p, (x.committed = some p ∨ x.pending = some p) →
    (y.committed = some p ∨ y.pending = some p)) (p : Part) (hp : dirHas e p) : dirHas d p := by
  obtain ⟨x, hx, k⟩ := hp
  obtain ⟨y, hy, m⟩ := h x hx
  exact ⟨y, hy, m p k⟩

theorem dirLookup_mem {d : List DirEntry} {k : Key} {e : DirEntry} (h : dirLookup d k = some e) : e ∈ d ∧ e.key = k :=
  ⟨List.mem_of_find?_eq_some h, by simpa using List.find?_some h⟩

theorem dirLookup_none {d : List DirEntry} {k : Key} : dirLookup d k = none ↔ k ∉ d.map DirEntry.key := by
  simp [dirLookup]

/-- An entry of an ordered directory is the one its key looks up. -/
theorem dirLookup_of_mem {d : List DirEntry} (h : d.Pairwise (fun a b => a.key < b.key)) {e : DirEntry} (he : e ∈ d) :
    dirLookup d e.key = some e := by
  induction d with
  | nil => cases he
  | cons a as ih =>
    rw [List.pairwise_cons] at h
    unfold dirLookup at ih ⊢
    rw [List.find?_cons]
    rcases List.mem_cons.1 he with rfl | he
    · simp
    · have : (a.key == e.key) = false := by
        rw [beq_eq_false_iff_ne]; intro k
        have := h.1 e he
        rw [k] at this; exact BitVec.lt_irrefl _ this
      rw [this]; exact ih h.2 he

theorem dirPut_length (k : Key) (f : DirEntry → DirEntry) (d : List DirEntry) (hd : d.Pairwise (fun a b => a.key < b.key)) :
    (dirPut k f d).length = d.length + if dirLookup d k = none then 1 else 0 := by
  induction d with
  | nil => rfl
  | cons e rest ih =>
    rw [List.pairwise_cons] at hd
    unfold dirPut
    split
    · rename_i hlt
      have : dirLookup (e :: rest) k = none := by
        rw [dirLookup_none, List.map_cons, List.mem_cons, not_or]
        refine ⟨fun h => by rw [h] at hlt; exact BitVec.lt_irrefl _ hlt, fun h => ?_⟩
        obtain ⟨y, hy, rfl⟩ := List.mem_map.1 h
        exact BitVec.lt_asymm (hd.1 y hy) hlt
      rw [if_pos this]; rfl
    · split
      · rename_i heq
        rw [if_neg (by simp [dirLookup, heq])]; rfl
      · rename_i hne
        have : dirLookup (e :: rest) k = dirLookup rest k := by
          unfold dirLookup; rw [List.find?_cons, beq_eq_false_iff_ne.2 fun h => hne h.symm]
        rw [this, List.length_cons, ih hd.2, List.length_cons]; omega

/-- The entries after a put: the changed one, and the others. -/
theorem mem_dirPut (k : Key) (f : DirEntry → DirEntry) (d : List DirEntry) (hd : d.Pairwise (fun a b => a.key < b.key))
    (e : DirEntry) :
    e ∈ dirPut k f d ↔ e = f ((dirLookup d k).getD ⟨k, none, none⟩) ∨ (e ∈ d ∧ e.key ≠ k) := by
  induction d with
  | nil => simp [dirPut, dirLookup]
  | cons a rest ih =>
    rw [List.pairwise_cons] at hd
    unfold dirPut
    split
    · rename_i hlt
      have hn : ∀ y ∈ a :: rest, y.key ≠ k := by
        intro y hy h
        rcases List.mem_cons.1 hy with rfl | hy
        · rw [h] at hlt; exact BitVec.lt_irrefl _ hlt
        · have := hd.1 y hy; rw [h] at this; exact BitVec.lt_asymm this hlt
      have : dirLookup (a :: rest) k = none := by
        rw [dirLookup_none]; intro h
        obtain ⟨y, hy, h⟩ := List.mem_map.1 h
        exact hn y hy h
      rw [this, List.mem_cons]
      exact ⟨fun h => h.imp id fun h => ⟨h, hn e h⟩, fun h => h.imp id And.left⟩
    · split
      · rename_i heq
        have : dirLookup (a :: rest) k = some a := by simp [dirLookup, heq]
        rw [this, List.mem_cons, List.mem_cons, Option.getD_some]
        have hn : ∀ y ∈ rest, y.key ≠ k := by
          intro y hy h
          have := hd.1 y hy; rw [h, heq] at this; exact BitVec.lt_irrefl _ this
        constructor
        · rintro (h | h)
          · exact .inl h
          · exact .inr ⟨.inr h, hn e h⟩
        · rintro (h | ⟨rfl | h, h2⟩)
          · exact .inl h
          · exact absurd heq.symm h2
          · exact .inr h
      · rename_i hne
        have : dirLookup (a :: rest) k = dirLookup rest k := by
          unfold dirLookup; rw [List.find?_cons, beq_eq_false_iff_ne.2 fun h => hne h.symm]
        rw [this, List.mem_cons, List.mem_cons, ih hd.2]
        constructor
        · rintro (rfl | h | ⟨h, h2⟩)
          · exact .inr ⟨.inl rfl, fun h => hne h.symm⟩
          · exact .inl h
          · exact .inr ⟨.inr h, h2⟩
        · rintro (h | ⟨rfl | h, h2⟩)
          · exact .inr (.inl h)
          · exact .inl rfl
          · exact .inr (.inr ⟨h, h2⟩)

theorem commitInsert_length (x : CommitEntry) (l : List CommitEntry) :
    (commitInsert x l).length ≤ l.length + 1
    ∧ ((l.any fun c => c.bid == x.bid) = true → CommitOk l → (commitInsert x l).length = l.length) := by
  induction l with
  | nil => simp [commitInsert]
  | cons a as ih =>
    unfold commitInsert
    split
    · exact ⟨by simp, fun _ _ => by simp⟩
    · split
      · rename_i hne hlt
        refine ⟨by simp, fun h ho => ?_⟩
        exfalso
        rw [List.any_eq_true] at h
        obtain ⟨y, hy, k⟩ := h
        simp only [beq_iff_eq] at k
        rcases List.mem_cons.1 hy with rfl | hy
        · exact hne k.symm
        · have := (List.pairwise_cons.1 ho).1 y hy
          rw [k] at this; exact BitVec.lt_asymm this hlt
      · rename_i hne _
        refine ⟨by simp only [List.length_cons]; omega, fun h ho => ?_⟩
        rw [List.any_cons, Bool.or_eq_true] at h
        have k : (a.bid == x.bid) = false := beq_eq_false_iff_ne.2 fun h => hne h.symm
        rw [k] at h
        simp only [List.length_cons]
        rw [ih.2 (h.resolve_left (by simp)) (List.pairwise_cons.1 ho).2]

theorem freezeInsert_length (x : FreezeEntry) (l : List FreezeEntry) :
    (freezeInsert x l).length ≤ l.length + 1
    ∧ (hasRange l x.lo x.hi = true → FreezeOk l → (freezeInsert x l).length = l.length) := by
  induction l with
  | nil => simp [freezeInsert, hasRange]
  | cons a as ih =>
    unfold freezeInsert
    split
    · exact ⟨by simp, fun _ _ => by simp⟩
    · split
      · rename_i hne hlt
        refine ⟨by simp, fun h ho => ?_⟩
        exfalso
        obtain ⟨y, hy, k1, k2⟩ := (hasRange_iff _ _ _).1 h
        rcases List.mem_cons.1 hy with rfl | hy
        · exact hne ⟨k1.symm, k2.symm⟩
        · have := (List.pairwise_cons.1 ho).1 y hy
          rw [k1, k2] at this
          rcases this with t | ⟨t, u⟩ <;> rcases hlt with v | ⟨v, w⟩
          · exact BitVec.lt_asymm t v
          · rw [v] at t; exact BitVec.lt_irrefl _ t
          · rw [t] at v; exact BitVec.lt_irrefl _ v
          · exact BitVec.lt_asymm u w
      · rename_i hne _
        refine ⟨by simp only [List.length_cons]; omega, fun h ho => ?_⟩
        have k : hasRange as x.lo x.hi = true := by
          obtain ⟨y, hy, k1, k2⟩ := (hasRange_iff _ _ _).1 h
          rcases List.mem_cons.1 hy with rfl | hy
          · exact absurd ⟨k1.symm, k2.symm⟩ hne
          · exact (hasRange_iff _ _ _).2 ⟨y, hy, k1, k2⟩
        simp only [List.length_cons]
        rw [ih.2 k (List.pairwise_cons.1 ho).2]

/-! ### The laws over the tables -/

/-- The directory with its pending parts dropped (R54). -/
abbrev dropped (d : List DirEntry) : List DirEntry := dirPrune (d.map (fun e => { e with pending := none }))

theorem mem_dropped {d : List DirEntry} {e : DirEntry} :
    e ∈ dropped d ↔ ∃ x ∈ d, x.committed.isSome = true ∧ e = { x with pending := none } := by
  simp only [dropped, dirPrune, List.mem_filter, List.mem_map]
  constructor
  · rintro ⟨⟨x, hx, rfl⟩, h⟩; exact ⟨x, hx, by simpa using h, rfl⟩
  · rintro ⟨x, hx, h, rfl⟩; exact ⟨⟨x, hx, rfl⟩, by simpa using h⟩

theorem dirHas_dropped {d : List DirEntry} {p : Part} (h : dirHas (dropped d) p) : dirHas d p := by
  refine dirHas_sub (fun x hx => ?_) p h
  obtain ⟨y, hy, -, rfl⟩ := mem_dropped.1 hx
  exact ⟨y, hy, fun p k => k.imp id (by simp)⟩

theorem dropped_keys (d : List DirEntry) : ((dropped d).map DirEntry.key).Sublist (d.map DirEntry.key) := by
  have : (d.map (fun e => { e with pending := none })).map DirEntry.key = d.map DirEntry.key := by
    rw [List.map_map]; rfl
  rw [← this]; exact (List.filter_sublist).map _

/-- A batch ends with its pending parts dropped. -/
theorem TableLaw.drop {d : List DirEntry} {f : List FreezeEntry} {c : List CommitEntry} {b : Option Batch} {st : StoreState}
    {p : Option StoreState} {q : Word} (h : TableLaw d f c b st p q) : TableLaw (dropped d) f c none st p q := by
  refine ⟨⟨dirOk_prune _ (dirOrder_map _ _ (fun _ => rfl) h.order.1.1), h.order.2⟩, ⟨?_, h.limits.2⟩, by simp, by simp,
    fun e he r hr => ?_, h.below.imp id fun k => ⟨fun p hp => k.1 p (dirHas_dropped hp), by simp⟩, h.counting, fun _ => rfl⟩
  · have := (dropped_keys d).length_le
    simp only [List.length_map] at this
    exact Nat.le_trans this h.limits.1
  · obtain ⟨x, -, -, rfl⟩ := mem_dropped.1 he
    cases hr

/-- A batch without members is closed. -/
theorem TableLaw.close {d : List DirEntry} {f : List FreezeEntry} {c : List CommitEntry} {x : Batch} {st : StoreState}
    {p : Option StoreState} {q : Word} (h : TableLaw d f c (some x) st p q) (hx : x.members = []) :
    TableLaw d f c none st p q := by
  refine ⟨h.order, h.limits, by simp, by simp, fun e he r hr => ?_, h.below.imp id fun k => ⟨k.1, by simp⟩, h.counting,
    fun _ => rfl⟩
  obtain ⟨y, m, hy, hm, -⟩ := h.pending e he r hr
  cases hy; rw [hx] at hm; cases hm

/-- The timer of the batch does not matter. -/
theorem TableLaw.timer {d : List DirEntry} {f : List FreezeEntry} {c : List CommitEntry} {b : Option Batch} {st : StoreState}
    {p : Option StoreState} {q : Word} (h : TableLaw d f c b st p q) (g : Batch → IdleTimer) :
    TableLaw d f c (b.map fun x => { x with timer := g x }) st p q := by
  cases b with
  | none => exact h
  | some x =>
    refine ⟨h.order, h.limits, ?_, ?_, fun e he r hr => ?_, h.below.imp id fun k => ⟨k.1, ?_⟩, h.counting, fun k => ?_⟩
    · rintro _ ⟨⟩; exact h.batch x rfl
    · rintro _ ⟨⟩; exact h.listed x rfl
    · obtain ⟨y, m, hy, hm⟩ := h.pending e he r hr
      cases hy; exact ⟨_, m, rfl, hm⟩
    · rintro _ ⟨⟩; exact k.2 x rfl
    · cases h.closed k

/-- The volume stays mounted, or stays not mounted. -/
theorem TableLaw.state {d : List DirEntry} {f : List FreezeEntry} {c : List CommitEntry} {b : Option Batch}
    {st st' : StoreState} {p p' : Option StoreState} {q : Word} (h : TableLaw d f c b st p q)
    (hm : volumeMounted st' p' ↔ volumeMounted st p) : TableLaw d f c b st' p' q :=
  ⟨h.order, h.limits, h.batch, h.listed, h.pending, h.below, fun k => h.counting (hm.1 k), fun k => h.closed fun j => k (hm.2 j)⟩

theorem TableLaw.notZero {d : List DirEntry} {f : List FreezeEntry} {c : List CommitEntry} {b : Option Batch} {st : StoreState}
    {p : Option StoreState} {q : Word} (h : TableLaw d f c b st p q) (hm : st = .ready ∨ st = .readOnly) : q ≠ 0 :=
  h.counting (hm.imp id .inl)

/-- Empty tables, without a batch, in a store without a volume. -/
theorem TableLaw.empty {st : StoreState} {p : Option StoreState} (hm : ¬ volumeMounted st p) : TableLaw [] [] [] none st p 0 :=
  ⟨⟨dirOk_nil, freezeOk_nil, commitOk_nil⟩, by simp, by simp, by simp, by simp, .inl rfl, fun k => absurd k hm, fun _ => rfl⟩

theorem below_succ {x q : Word} (hq : q ≠ 0xFFFFFFFF#32) (h : x < q ∨ x = q) : x < q + 1 := by
  have h1 : q.toNat ≠ 0xFFFFFFFF := fun e => hq (BitVec.eq_of_toNat_eq e)
  have := q.isLt
  have e : (1 : Word).toNat = 1 := rfl
  rw [BitVec.lt_def, BitVec.toNat_add, e, Nat.mod_eq_of_lt (by omega)]
  rcases h with h | h
  · have := BitVec.lt_def.1 h; omega
  · rw [h]; omega

theorem succ_ne {q : Word} (hq : q ≠ 0xFFFFFFFF#32) : q + 1 ≠ 0 := by
  have := below_succ hq (.inr rfl)
  intro e; rw [e] at this; exact absurd this (by simp [BitVec.lt_def])

/-- The counter rises past the sequence it gives. -/
theorem TableLaw.count {d : List DirEntry} {f : List FreezeEntry} {c : List CommitEntry} {b : Option Batch} {st : StoreState}
    {p : Option StoreState} {q : Word} (h : TableLaw d f c b st p q) (hq : q ≠ 0xFFFFFFFF#32) (h0 : q ≠ 0) :
    TableLaw d f c b st p (q + 1) := by
  obtain k := h.below.resolve_left h0
  exact ⟨h.order, h.limits, h.batch, h.listed, h.pending,
    .inr ⟨fun p hp => below_succ hq (.inl (k.1 p hp)), fun x hx => below_succ hq (.inl (k.2 x hx))⟩, fun _ => succ_ne hq,
      h.closed⟩

/-- BATCH_OPEN: the batch takes the sequence the counter gives. -/
theorem TableLaw.opens {d : List DirEntry} {f : List FreezeEntry} {c : List CommitEntry} {st : StoreState}
    {p : Option StoreState} {q : Word} (h : TableLaw d f c none st p q) (hq : q ≠ 0xFFFFFFFF#32)
    (hm : st = .ready ∨ st = .readOnly)
    (hc : c.length < 64) (o : Port) (t : IdleTimer) : TableLaw d f c (some ⟨o, q, [], t⟩) st p (q + 1) := by
  have h0 := h.notZero hm
  have k := (h.count hq h0).below.resolve_left (succ_ne hq)
  refine ⟨h.order, h.limits, ?_, ?_, fun e he r hr => ?_, .inr ⟨k.1, ?_⟩, fun _ => succ_ne hq, fun k => absurd (hm.imp id .inl) k⟩
  · rintro _ ⟨⟩; exact ⟨by simp, by simp, hc⟩
  · rintro _ ⟨⟩ m hm; cases hm
  · obtain ⟨_, _, hy, _⟩ := h.pending e he r hr; cases hy
  · rintro _ ⟨⟩; exact below_succ hq (.inr rfl)

/-- The directory changes entry by entry without a new sequence, and keeps its pending parts. -/
theorem TableLaw.entries {d e : List DirEntry} {f : List FreezeEntry} {c : List CommitEntry} {b : Option Batch} {st : StoreState}
    {p : Option StoreState} {q : Word} (h : TableLaw d f c b st p q) (ho : DirOk e) (hl : e.length ≤ d.length)
    (hs : ∀ r, dirHas e r → ∃ r', dirHas d r' ∧ r'.seq = r.seq)
    (hp : ∀ k r, (∃ x ∈ e, x.key = k ∧ x.pending = some r) ↔ ∃ x ∈ d, x.key = k ∧ x.pending = some r) :
    TableLaw e f c b st p q := by
  refine ⟨⟨ho, h.order.2⟩, ⟨Nat.le_trans hl h.limits.1, h.limits.2⟩, h.batch, fun x hx m hm => ?_, fun x hx r hr => ?_,
    h.below.imp id fun k => ⟨fun r hr => ?_, k.2⟩, h.counting, h.closed⟩
  · obtain ⟨y, hy, r, hr, k⟩ := h.listed x hx m hm
    obtain ⟨z, hz, hk, hr'⟩ := (hp y.key r).2 ⟨y, hy, rfl, hr⟩
    exact ⟨z, hz, r, hr', hk ▸ k⟩
  · obtain ⟨y, hy, hk, hr'⟩ := (hp x.key r).1 ⟨x, hx, rfl, hr⟩
    exact hk ▸ h.pending y hy r hr'
  · obtain ⟨r', hr', e⟩ := hs r hr
    rw [← e]; exact k.1 r' hr'

/-- Publish committed (R51), with a sequence below the counter and room for a new entry. -/
theorem TableLaw.publish {d : List DirEntry} {f : List FreezeEntry} {c : List CommitEntry} {b : Option Batch} {st : StoreState}
    {pr : Option StoreState} {q : Word} (h : TableLaw d f c b st pr q) (k : Key) (p : Part)
    (hl : dirLookup d k = none → d.length < 512) (hq : q = 0 ∨ p.seq < q) :
    TableLaw (dirPut k (fun e => { e with committed := some p }) d) f c b st pr q := by
  have ho := h.order.1.1
  have mem := mem_dirPut k (fun e => { e with committed := some p }) d ho
  refine ⟨⟨dirOk_put _ _ _ (fun _ => rfl) (fun _ => .inl rfl) h.order.1, h.order.2⟩, ⟨?_, h.limits.2⟩, h.batch,
    fun x hx m hm => ?_, fun e he r hr => ?_, ?_, h.counting, h.closed⟩
  · rw [dirPut_length _ _ _ ho]
    split
    · rename_i hn; have := hl hn; omega
    · exact h.limits.1
  · obtain ⟨e, he, r, hr, hm⟩ := h.listed x hx m hm
    by_cases hk : e.key = k
    · have := dirLookup_of_mem ho he
      rw [hk] at this
      exact ⟨_, (mem _).2 (.inl rfl), r, by rw [this]; exact hr, by rw [this]; exact hm⟩
    · exact ⟨e, (mem e).2 (.inr ⟨he, hk⟩), r, hr, hm⟩
  · rcases (mem e).1 he with rfl | ⟨he, -⟩
    · cases hd : dirLookup d k with
      | none => rw [hd] at hr; cases hr
      | some y => rw [hd] at hr; exact h.pending y (dirLookup_mem hd).1 r hr
    · exact h.pending e he r hr
  · rcases h.below with h0 | hb
    · exact .inl h0
    rcases hq with h0 | hq
    · exact .inl h0
    refine .inr ⟨fun r hr => ?_, hb.2⟩
    obtain ⟨e, he, hr⟩ := hr
    rcases (mem e).1 he with rfl | ⟨he, -⟩
    · rcases hr with hr | hr
      · cases hr; exact hq
      · cases hd : dirLookup d k with
        | none => rw [hd] at hr; cases hr
        | some y => rw [hd] at hr; exact hb.1 r ⟨y, (dirLookup_mem hd).1, .inr hr⟩
    · exact hb.1 r ⟨e, he, hr⟩

/-- Publish pending (R52, R102) of a key that the member list does not name. -/
theorem TableLaw.publishMember {d : List DirEntry} {f : List FreezeEntry} {c : List CommitEntry} {x : Batch} {st : StoreState}
    {pr : Option StoreState} {q : Word} (h : TableLaw d f c (some x) st pr q) (k : Key) (p : Part)
    (hl : dirLookup d k = none → d.length < 512) (hq : q = 0 ∨ p.seq < q) (hm : x.members.length < 8)
    (hk : k ∉ x.members.map Member.key) :
    TableLaw (dirPut k (fun e => { e with pending := some p }) d) f c
      (some { x with members := x.members ++ [⟨k, p.loc, p.tomb⟩] }) st pr q := by
  have ho := h.order.1.1
  have mem := mem_dirPut k (fun e => { e with pending := some p }) d ho
  refine ⟨⟨dirOk_put _ _ _ (fun _ => rfl) (fun _ => .inr rfl) h.order.1, h.order.2⟩, ⟨?_, h.limits.2⟩, ?_,
    ?_, fun e he r hr => ?_, ?_, h.counting, fun j => by cases h.closed j⟩
  · rw [dirPut_length _ _ _ ho]
    split
    · rename_i hn; have := hl hn; omega
    · exact h.limits.1
  · rintro _ ⟨⟩
    obtain ⟨-, hn, hc⟩ := h.batch x rfl
    refine ⟨by simp only [List.length_append, List.length_cons, List.length_nil]; omega, ?_, hc⟩
    rw [List.map_append, List.nodup_append]
    refine ⟨hn, by simp, fun a ha b hb e => ?_⟩
    simp only [List.map_cons, List.map_nil, List.mem_singleton] at hb
    rw [e, hb] at ha; exact hk ha
  · rintro _ ⟨⟩ m hm
    rcases List.mem_append.1 hm with hm | hm
    · obtain ⟨e, he, r, hr, hmk⟩ := h.listed x rfl m hm
      have hne : e.key ≠ k := fun j => hk (j ▸ hmk.1 ▸ List.mem_map_of_mem hm)
      exact ⟨e, (mem e).2 (.inr ⟨he, hne⟩), r, hr, hmk⟩
    · cases List.mem_singleton.1 hm
      refine ⟨_, (mem _).2 (.inl rfl), p, rfl, ?_, rfl, rfl⟩
      show k = ((dirLookup d k).getD ⟨k, none, none⟩).key
      cases hd : dirLookup d k with
      | none => rfl
      | some y => exact (dirLookup_mem hd).2.symm
  · rcases (mem e).1 he with rfl | ⟨he, -⟩
    · cases hr
      refine ⟨_, ⟨k, p.loc, p.tomb⟩, rfl, by simp, ?_, rfl, rfl⟩
      show k = ((dirLookup d k).getD ⟨k, none, none⟩).key
      cases hd : dirLookup d k with
      | none => rfl
      | some y => exact (dirLookup_mem hd).2.symm
    · obtain ⟨y, m, hy, hm, hmk⟩ := h.pending e he r hr
      cases hy
      exact ⟨_, m, rfl, List.mem_append_left _ hm, hmk⟩
  · rcases h.below with h0 | hb
    · exact .inl h0
    rcases hq with h0 | hq
    · exact .inl h0
    refine .inr ⟨fun r hr => ?_, ?_⟩
    · obtain ⟨e, he, hr⟩ := hr
      rcases (mem e).1 he with rfl | ⟨he, -⟩
      · rcases hr with hr | hr
        · cases hd : dirLookup d k with
          | none => rw [hd] at hr; cases hr
          | some y => rw [hd] at hr; exact hb.1 r ⟨y, (dirLookup_mem hd).1, .inl hr⟩
        · cases hr; exact hq
      · exact hb.1 r ⟨e, he, hr⟩
    · rintro _ ⟨⟩; exact hb.2 x rfl

theorem TableLaw.freeze {d : List DirEntry} {f g : List FreezeEntry} {c : List CommitEntry} {b : Option Batch} {st : StoreState}
    {p : Option StoreState} {q : Word} (h : TableLaw d f c b st p q) (ho : FreezeOk g) (hl : g.length ≤ 4) :
    TableLaw d g c b st p q :=
  ⟨⟨h.order.1, ho, h.order.2.2⟩, ⟨h.limits.1, hl, h.limits.2.2⟩, h.batch, h.listed, h.pending, h.below, h.counting, h.closed⟩

theorem TableLaw.commits {d : List DirEntry} {f : List FreezeEntry} {c e : List CommitEntry} {b : Option Batch} {st : StoreState}
    {p : Option StoreState} {q : Word} (h : TableLaw d f c b st p q) (ho : CommitOk e) (hl : e.length ≤ 64)
    (hb : b = none ∨ e.length ≤ c.length) : TableLaw d f e b st p q := by
  refine ⟨⟨h.order.1, h.order.2.1, ho⟩, ⟨h.limits.1, h.limits.2.1, hl⟩, fun x hx => ?_, h.listed, h.pending, h.below, h.counting,
    h.closed⟩
  obtain ⟨h1, h2, h3⟩ := h.batch x hx
  rcases hb with rfl | hb
  · cases hx
  · exact ⟨h1, h2, Nat.lt_of_le_of_lt hb h3⟩

theorem promotedPart_seq (s : State) (o : Option Part) (p : Part) : (promotedPart s o p).seq = p.seq := by
  cases o <;> rfl

/-- The promotion of a key: it has no pending part after, and every part keeps its sequence. -/
theorem promoteKey_dir (s : State) (k : Key) (ho : DirOk s.dir) :
    (promoteKey s k).dir.length = s.dir.length
    ∧ (∀ p, dirHas (promoteKey s k).dir p → ∃ r, dirHas s.dir r ∧ r.seq = p.seq)
    ∧ ∀ e ∈ (promoteKey s k).dir, e.pending.isSome = true →
        e.key ≠ k ∧ ∃ x ∈ s.dir, x.key = e.key ∧ x.pending.isSome = true := by
  unfold promoteKey
  split
  · rename_i hn
    rw [dirLookup_none] at hn
    exact ⟨rfl, fun p hp => ⟨p, hp, rfl⟩, fun e he hp => ⟨fun h => hn (h ▸ List.mem_map_of_mem he), e, he, rfl, hp⟩⟩
  · rename_i y hy
    obtain ⟨hm, hk⟩ := dirLookup_mem hy
    split
    · rename_i hn
      refine ⟨rfl, fun p hp => ⟨p, hp, rfl⟩, fun e he hp => ⟨fun h => ?_, e, he, rfl, hp⟩⟩
      have := dirLookup_of_mem ho.1 he
      rw [h, hy] at this; cases this
      rw [hn] at hp; cases hp
    · rename_i p hp
      refine ⟨by simp [dirMap], ?_, ?_⟩
      · rintro r ⟨e, he, hr⟩
        simp only [dirMap, List.mem_map] at he
        obtain ⟨x, hx, rfl⟩ := he
        split at hr
        · rcases hr with hr | hr
          · cases hr; exact ⟨p, ⟨y, hm, .inr hp⟩, (promotedPart_seq _ _ _).symm⟩
          · cases hr
        · exact ⟨r, ⟨x, hx, hr⟩, rfl⟩
      · intro e he hs
        simp only [dirMap, List.mem_map] at he
        obtain ⟨x, hx, rfl⟩ := he
        split at hs
        · cases hs
        · rename_i hne
          rw [if_neg hne]; exact ⟨hne, x, hx, rfl, hs⟩

theorem promoteAll_dir (ms : List Member) (s : State) (ho : DirOk s.dir) :
    (promoteAll s ms).dir.length = s.dir.length
    ∧ (∀ p, dirHas (promoteAll s ms).dir p → ∃ r, dirHas s.dir r ∧ r.seq = p.seq)
    ∧ ∀ e ∈ (promoteAll s ms).dir, e.pending.isSome = true →
        e.key ∉ ms.map Member.key ∧ ∃ x ∈ s.dir, x.key = e.key ∧ x.pending.isSome = true := by
  induction ms generalizing s with
  | nil => exact ⟨rfl, fun p hp => ⟨p, hp, rfl⟩, fun e he hp => ⟨by simp, e, he, rfl, hp⟩⟩
  | cons m ms ih =>
    obtain ⟨a1, a2, a3⟩ := promoteKey_dir s m.key ho
    obtain ⟨b1, b2, b3⟩ := ih (promoteKey s m.key) ((order_promoteKey s m.key).1 ho)
    refine ⟨b1.trans a1, fun p hp => ?_, fun e he hp => ?_⟩
    · obtain ⟨r, hr, k⟩ := b2 p hp
      obtain ⟨r', hr', k'⟩ := a2 r hr
      exact ⟨r', hr', k'.trans k⟩
    · obtain ⟨hn, x, hx, hk, hs⟩ := b3 e he hp
      obtain ⟨hne, y, hy, hk', hs'⟩ := a3 x hx hs
      refine ⟨?_, y, hy, hk'.trans hk, hs'⟩
      rw [List.map_cons, List.mem_cons, not_or]
      exact ⟨hk ▸ hne, hn⟩

/-- The batch's members are promoted and the batch closes (R53, R119). -/
theorem TableLaw.promote {s : State} {f : List FreezeEntry} {c : List CommitEntry} {x : Batch} {st : StoreState}
    {pr : Option StoreState} {q : Word} (h : TableLaw s.dir f c (some x) st pr q) (e : CommitEntry) :
    TableLaw (promoteAll s x.members).dir f (commitInsert e c) none st pr q := by
  obtain ⟨h1, h2, h3⟩ := promoteAll_dir x.members s h.order.1
  have hc := (h.batch x rfl).2.2
  have hn := (commitInsert_length e c).1
  refine ⟨⟨(order_promoteAll s x.members).1 h.order.1, h.order.2.1, commitOk_insert e c h.order.2.2⟩,
    ⟨h1 ▸ h.limits.1, h.limits.2.1, by omega⟩, by simp, by simp, fun y hy r hr => ?_,
    h.below.imp id fun k => ⟨fun p hp => ?_, by simp⟩, h.counting, fun _ => rfl⟩
  · exfalso
    obtain ⟨k1, z, hz, k2, k3⟩ := h3 y hy (by rw [hr]; rfl)
    obtain ⟨r', hr'⟩ := Option.isSome_iff_exists.1 k3
    obtain ⟨w, m, hw, hm, hk, -⟩ := h.pending z hz r' hr'
    cases hw
    exact k1 (k2 ▸ hk ▸ List.mem_map_of_mem hm)
  · obtain ⟨r, hr, k'⟩ := h2 p hp
    rw [← k']; exact k.1 r hr

/-! ### The laws over the work and the command in flight -/

theorem WorkLaw.parts {h : Holder} {d e : List DirEntry} {st : StoreState} {q : Word} {m : MountUnit} (k : WorkLaw h d st q m)
    (hs : ∀ r, dirHas e r → ∃ r', dirHas d r' ∧ r'.seq = r.seq) (hn : d = [] → e = []) : WorkLaw h e st q m := by
  refine ⟨fun j => ⟨(k.1 j).1, (k.1 j).2.imp id fun ⟨a, b, c, g, l⟩ => ⟨a, b, c, fun p hp => ?_, l⟩⟩,
    fun j => ⟨(k.2 j).1, hn (k.2 j).2⟩⟩
  obtain ⟨r', hr', e⟩ := hs p hp
  rw [← e]; exact g r' hr'

theorem WorkLaw.drop {h : Holder} {d : List DirEntry} {st : StoreState} {q : Word} {m : MountUnit} (k : WorkLaw h d st q m) :
    WorkLaw h (dropped d) st q m :=
  k.parts (fun r hr => ⟨r, dirHas_dropped hr, rfl⟩) fun e => by rw [e]; rfl

/-- A store that serves commands does no mount and no FORMAT. -/
theorem WorkLaw.serving {h : Holder} {d : List DirEntry} {st : StoreState} {q : Word} {m : MountUnit} (k : WorkLaw h d st q m)
    (hs : st = .ready ∨ st = .readOnly) : h ≠ .mount ∧ h ≠ .format := by
  constructor
  · intro e; have := (k.1 e).1; rcases hs with h | h <;> rw [h] at this <;> cases this
  · intro e; have := (k.2 e).1; rcases hs with h | h <;> rw [h] at this <;> cases this

/-- Neither a mount nor a FORMAT holds the array. -/
theorem WorkLaw.idle {h : Holder} {d : List DirEntry} {st : StoreState} {q : Word} {m : MountUnit}
    (hs : h ≠ .mount ∧ h ≠ .format) : WorkLaw h d st q m := ⟨fun e => absurd e hs.1, fun e => absurd e hs.2⟩

@[simp] theorem workLaw_none (d : List DirEntry) (st : StoreState) (q : Word) (m : MountUnit) : WorkLaw .none d st q m :=
  .idle (by decide)

@[simp] theorem workLaw_command (d : List DirEntry) (st : StoreState) (q : Word) (m : MountUnit) : WorkLaw .command d st q m :=
  .idle (by decide)

@[simp] theorem workLaw_reclaim (d : List DirEntry) (st : StoreState) (q : Word) (m : MountUnit) : WorkLaw .reclaim d st q m :=
  .idle (by decide)

@[simp] theorem roomLaw_none (d : List DirEntry) (f : List FreezeEntry) (b : Option Batch) (st : StoreState) (q : Word)
    (h : Holder) : RoomLaw d f b st q h none := fun c h => by cases h

/-- Room in a directory whose keys are some of those that were there. -/
theorem room_keys {d e : List DirEntry} (h : (e.map DirEntry.key).Sublist (d.map DirEntry.key)) (hl : d.length ≤ 512) (k : Key)
    (hk : dirLookup d k = none → d.length < 512) (he : dirLookup e k = none) : e.length < 512 := by
  have hle := h.length_le
  simp only [List.length_map] at hle
  by_cases hd : dirLookup d k = none
  · have := hk hd; omega
  · rw [dirLookup_none] at hd he
    have : e.length ≠ d.length := fun hq => by
      have := h.eq_of_length (by simp [hq])
      rw [this] at he; exact hd he
    omega

section

variable {d e : List DirEntry} {f : List FreezeEntry} {b : Option Batch} {st st' : StoreState} {q : Word} {h h' : Holder}
  {i : Option Ctx}

theorem RoomLaw.dir (k : RoomLaw d f b st q h i) (hs : (e.map DirEntry.key).Sublist (d.map DirEntry.key)) (hl : d.length ≤ 512) :
    RoomLaw e f b st q h i := fun c hc => ⟨(k c hc).1, fun ha =>
  have ⟨h1, h2, h3, h4, h5, h6⟩ := (k c hc).2 ha
  ⟨h1, h2, h3, h4, fun k hk => ⟨room_keys hs hl k (h5 k hk).1, (h5 k hk).2⟩, h6⟩⟩

theorem RoomLaw.timer (k : RoomLaw d f b st q h i) (g : Batch → IdleTimer) :
    RoomLaw d f (b.map fun x => { x with timer := g x }) st q h i := fun c hc => ⟨(k c hc).1, fun ha =>
  have ⟨h1, h2, h3, h4, h5, h6⟩ := (k c hc).2 ha
  ⟨h1, h2, h3, h4, fun k hk => ⟨(h5 k hk).1, fun hm hb => by
    obtain ⟨x, hx, j⟩ := (h5 k hk).2 hm hb
    exact ⟨{ x with timer := g x }, by rw [hx]; rfl, j⟩⟩, h6⟩⟩

/-- The batch ends under a command that is no member write, or has lost it. -/
theorem RoomLaw.drop (k : RoomLaw d f b st q h i) (hl : d.length ≤ 512)
    (hi : ∀ c, i = some c → c.cmd.isMember = true → c.batchLost = true) : RoomLaw (dropped d) f none st q h i :=
  fun c hc => ⟨(k c hc).1, fun ha =>
  have ⟨h1, h2, h3, h4, h5, h6⟩ := (k c hc).2 ha
  ⟨h1, h2, h3, h4, fun k hk => ⟨room_keys (dropped_keys d) hl k (h5 k hk).1, fun hm hb => by
    rw [hi c hc hm] at hb; cases hb⟩, h6⟩⟩

/-- A change of the context in flight that keeps what the law reads. -/
theorem RoomLaw.ctx (k : RoomLaw d f b st q h i) (g : Ctx → Ctx) (hg : ∀ c, i = some c → (g c).origin = c.origin
      ∧ (g c).cmd = c.cmd ∧ (g c).seq = c.seq ∧ (placesRecord h (g c).stage → placesRecord h c.stage ∨ c.cmd.appends = true)
      ∧ ((g c).stage = c.stage ∨ (g c).stage ≠ .format) ∧ ((g c).batchLost = c.batchLost ∨ (g c).batchLost = true)) :
    RoomLaw d f b st q h (i.map g) := fun c hc => by
  obtain ⟨x, hx, rfl⟩ := Option.map_eq_some_iff.1 hc
  obtain ⟨g1, g2, g3, g6, g4, g5⟩ := hg x hx
  rw [g1, g2, g3]
  refine ⟨fun hp => (g6 hp).elim (k x hx).1 id, fun ha => ?_⟩
  obtain ⟨h1, h2, h3, h4, h5, h6⟩ := (k x hx).2 ha
  refine ⟨h1, ?_, h3, h4, fun k hk => ⟨(h5 k hk).1, fun hm hb => (h5 k hk).2 hm ?_⟩, h6⟩
  · rcases g4 with e | e
    · rw [e]; exact h2
    · exact e
  · rcases g5 with e | e
    · rw [← e]; exact hb
    · rw [e] at hb; cases hb

/-- Another state of the store in which it serves commands. -/
theorem RoomLaw.state (k : RoomLaw d f b st q h i) (hs : st' = .ready ∨ st' = .readOnly) : RoomLaw d f b st' q h i :=
  fun c hc => ⟨(k c hc).1, fun ha => ⟨hs, ((k c hc).2 ha).2⟩⟩

/-- The array goes to no command. -/
theorem RoomLaw.release (k : RoomLaw d f b st q h i) (hh : h' ≠ .command) : RoomLaw d f b st q h' i :=
  fun c hc => ⟨fun hp => (k c hc).1 (by
    cases hs : c.stage <;> rw [hs] at hp <;> first | exact absurd hp hh | exact hp), (k c hc).2⟩

end

end Sys2Proof.Machine
end

