-- ==== Sys2Proof/Laws/CapacityKept.lean ====
section
/-! SUPPORT. The laws of the tables under the operations of the engine and the ports: one lemma per operation, tagged simp where
it holds without a premise. -/

namespace Sys2Proof.Machine

/-- The laws of the tables, of the work and of the command in flight stay. -/
abbrev LimitsKept (s t : State) : Prop :=
  (TableLaw s.dir s.freezes s.commits s.batch s.eng.store s.eng.prior s.eng.seqCtr →
    TableLaw t.dir t.freezes t.commits t.batch t.eng.store t.eng.prior t.eng.seqCtr)
  ∧ (WorkLaw s.holder s.dir s.eng.store s.eng.seqCtr s.mu → WorkLaw t.holder t.dir t.eng.store t.eng.seqCtr t.mu)
  ∧ (TableLaw s.dir s.freezes s.commits s.batch s.eng.store s.eng.prior s.eng.seqCtr →
    RoomLaw s.dir s.freezes s.batch s.eng.store s.eng.seqCtr s.holder s.inflight →
    RoomLaw t.dir t.freezes t.batch t.eng.store t.eng.seqCtr t.holder t.inflight)

theorem LimitsKept.trans {s t u : State} (h : LimitsKept s t) (k : LimitsKept t u) : LimitsKept s u :=
  ⟨fun a => k.1 (h.1 a), fun a => k.2.1 (h.2.1 a), fun a b => k.2.2 (h.1 a) (h.2.2 a b)⟩

theorem LimitsKept.refl (s : State) : LimitsKept s s := ⟨id, id, fun _ => id⟩

@[simp] theorem limits_raise (s : State) (a : Alert) : LimitsKept s (raise s a) := .refl s

@[simp] theorem limits_setTag (s : State) (t : Nat) (v : TagState) : LimitsKept s (setTag s t v) := .refl _

@[simp] theorem limits_postHost (s : State) (t : Nat) (r : Result) : LimitsKept s (postHost s t r) := .refl _

@[simp] theorem limits_stagingWrite (s : State) (b i : Nat) (v : Byte) : LimitsKept s (stagingWrite s b i v) := by
  unfold stagingWrite
  simp (maxDischargeDepth := 20) +contextual [LimitsKept]

@[simp] theorem limits_stagingWriteList (s : State) (b i : Nat) (l : List Byte) :
    LimitsKept s (stagingWriteList s b i l) := by
  induction l generalizing s i with
  | nil => simp [LimitsKept, stagingWriteList]
  | cons v vs ih => exact (limits_stagingWrite s b i v).trans (ih _ (i + 1))

@[simp] theorem limits_segUpd (s : State) (n : Nat) (f : SegEntry → SegEntry) : LimitsKept s (segUpd s n f) := by
  unfold segUpd; try dsimp only
  repeat' split
  all_goals simp (maxDischargeDepth := 20) +contextual [LimitsKept]

@[simp] theorem limits_setSegState (s : State) (n : Nat) (st : SegState) : LimitsKept s (setSegState s n st) := by
  unfold setSegState
  simp (maxDischargeDepth := 20) +contextual [LimitsKept]

@[simp] theorem limits_journalUpd (s : State) (n : Nat) (f : Journal → Journal) : LimitsKept s (journalUpd s n f) := by
  unfold journalUpd
  simp (maxDischargeDepth := 20) +contextual [LimitsKept]

@[simp] theorem limits_accountLive (s : State) (n e : Nat) : LimitsKept s (accountLive s n e) := by
  unfold accountLive
  simp (maxDischargeDepth := 20) +contextual [LimitsKept]

@[simp] theorem limits_accountDead (s : State) (n e : Nat) : LimitsKept s (accountDead s n e) := by
  unfold accountDead
  simp (maxDischargeDepth := 20) +contextual [LimitsKept]

@[simp] theorem limits_killLines (s : State) (n e : Nat) : LimitsKept s (killLines s n e) := by
  unfold killLines
  simp (maxDischargeDepth := 20) +contextual [LimitsKept]

@[simp] theorem limits_pinUp (s : State) (n : Nat) : LimitsKept s (pinUp s n) := by
  unfold pinUp
  simp (maxDischargeDepth := 20) +contextual [LimitsKept]

@[simp] theorem limits_clearPins (s : State) : LimitsKept s (clearPins s) := by
  unfold clearPins
  simp (maxDischargeDepth := 20) +contextual [LimitsKept]

@[simp] theorem limits_closeSegment (s : State) (n : Nat) : LimitsKept s (closeSegment s n) := by
  unfold closeSegment
  simp (maxDischargeDepth := 20) +contextual [LimitsKept]

@[simp] theorem limits_countFault (s : State) (n : Nat) : LimitsKept s (countFault s n) := by
  unfold countFault
  simp (maxDischargeDepth := 20) +contextual [LimitsKept]

@[simp] theorem limits_emptyTable (s : State) : LimitsKept s (emptyTable s) := by
  unfold emptyTable
  simp (maxDischargeDepth := 20) +contextual [LimitsKept]

@[simp] theorem limits_killPart (s : State) (p : Part) : LimitsKept s (killPart s p) := by
  unfold killPart
  simp (maxDischargeDepth := 20) +contextual [LimitsKept]

@[simp] theorem limits_killPart_opt (s : State) (o : Option Part) : LimitsKept s (killPart? s o) := by
  unfold killPart?
  split
  · exact limits_killPart _ _
  · exact .refl _

theorem limits_killAll (s : State) (ps : List Part) : LimitsKept s (ps.foldl killPart s) := by
  induction ps generalizing s with
  | nil => simp [LimitsKept]
  | cons p ps ih =>
    rw [List.foldl_cons]
    exact (limits_killPart s p).trans (ih _)

@[simp] theorem limits_syncIdle (s : State) : LimitsKept s (syncIdle s) :=
  ⟨fun h => h.timer _, id, fun _ h => h.timer _⟩

theorem limits_thenSync {s t : State} (h : LimitsKept s t) : LimitsKept s (syncIdle t) := h.trans (limits_syncIdle t)

@[simp] theorem limits_setSlot (s : State) (b : Bool) (v : Slot) : LimitsKept s (setSlot s b v) := by
  unfold setSlot; try dsimp only
  repeat' split
  all_goals simp (maxDischargeDepth := 20) +contextual [LimitsKept]

@[simp] theorem limits_answerRunning (s : State) (b : Bool) (frame : List Byte) :
    LimitsKept s (answerRunning s b frame) := by
  unfold answerRunning; try dsimp only
  repeat' split
  all_goals simp (maxDischargeDepth := 20) +contextual [LimitsKept]

@[simp] theorem limits_postResult (s : State) (c : Ctx) (r : Result) : LimitsKept s (postResult s c r) := by
  unfold postResult; try dsimp only
  split
  · exact .refl _
  · simp (maxDischargeDepth := 20) +contextual [LimitsKept]

/-- What a teardown changes (R123). -/
theorem teardown_changes (s : State) (own : Bool) : (s.batch = none ∧ teardown s own = s) ∨ ∃ m a,
    teardown s own = { s with sm := m, alert := a, dir := dropped s.dir, batch := none } := by
  have key : ∀ (ps : List Part) (t : State), ∃ m a, ps.foldl killPart t = { t with sm := m, alert := a } := by
    intro ps
    induction ps with
    | nil => intro t; exact ⟨t.sm, t.alert, rfl⟩
    | cons p ps ih =>
      intro t
      obtain ⟨a, ha⟩ := segUpd_changes t p.loc.seg (fun e => { e with st := e.st.mapJournal (fun j =>
        { j with live := j.live - min (extentOf p.len) j.live, dead := j.dead + min (extentOf p.len) j.live }) })
      obtain ⟨m, b, hb⟩ := ih (killPart t p)
      refine ⟨m, b, ?_⟩
      rw [List.foldl_cons, hb]
      unfold killPart killLines journalUpd
      rw [ha]
  unfold teardown
  cases hb : s.batch with
  | none => exact .inl ⟨rfl, rfl⟩
  | some x =>
    refine .inr ?_
    obtain ⟨m, a, hk⟩ := key (s.dir.filterMap DirEntry.pending) s
    dsimp only
    unfold dropPending clearPins
    rw [hk]
    split
    · exact ⟨_, _, rfl⟩
    · exact ⟨_, _, rfl⟩

theorem table_teardown (s : State) (own : Bool) :
    TableLaw s.dir s.freezes s.commits s.batch s.eng.store s.eng.prior s.eng.seqCtr →
    TableLaw (teardown s own).dir (teardown s own).freezes (teardown s own).commits (teardown s own).batch
      (teardown s own).eng.store (teardown s own).eng.prior (teardown s own).eng.seqCtr := fun h => by
  rcases teardown_changes s own with ⟨-, e⟩ | ⟨m, a, e⟩ <;> rw [e]
  · exact h
  · exact h.drop

theorem workLaw_teardown (s : State) (own : Bool) :
    WorkLaw s.holder s.dir s.eng.store s.eng.seqCtr s.mu →
    WorkLaw (teardown s own).holder (teardown s own).dir (teardown s own).eng.store (teardown s own).eng.seqCtr
      (teardown s own).mu := fun h => by
  rcases teardown_changes s own with ⟨-, e⟩ | ⟨m, a, e⟩ <;> rw [e]
  · exact h
  · exact h.drop

/-- A teardown under a command that is no member write, or has lost the batch. -/
theorem room_teardown (s : State) (own : Bool) (hl : s.dir.length ≤ 512)
    (hi : ∀ c, s.inflight = some c → c.cmd.isMember = true → c.batchLost = true) :
    RoomLaw s.dir s.freezes s.batch s.eng.store s.eng.seqCtr s.holder s.inflight →
    RoomLaw (teardown s own).dir (teardown s own).freezes (teardown s own).batch (teardown s own).eng.store
      (teardown s own).eng.seqCtr (teardown s own).holder (teardown s own).inflight := fun h => by
  rcases teardown_changes s own with ⟨-, e⟩ | ⟨m, a, e⟩ <;> rw [e]
  · exact h
  · exact h.drop hl hi

/-- The command in flight ends; nothing need be known of its room. -/
theorem limits_ended (s : State) (r : Result) :
    (TableLaw s.dir s.freezes s.commits s.batch s.eng.store s.eng.prior s.eng.seqCtr →
      TableLaw (complete s r).dir (complete s r).freezes (complete s r).commits (complete s r).batch (complete s r).eng.store
        (complete s r).eng.prior (complete s r).eng.seqCtr)
    ∧ (WorkLaw s.holder s.dir s.eng.store s.eng.seqCtr s.mu →
      WorkLaw (complete s r).holder (complete s r).dir (complete s r).eng.store (complete s r).eng.seqCtr (complete s r).mu) := by
  unfold complete; dsimp only
  split
  · exact ⟨id, id⟩
  · rename_i c hc
    have hp := limits_postResult s c r
    have hw : ∀ {h : Holder} {d st q m}, WorkLaw h d st q m → WorkLaw (if h = .command then .none else h) d st q m := by
      intro h d st q m k
      split
      · exact workLaw_none _ _ _ _
      · exact k
    split
    · exact ⟨fun h => (limits_syncIdle _).1 (table_teardown _ false (hp.1 h)),
        fun h => (limits_syncIdle _).2.1 (workLaw_teardown _ false (hw (hp.2.1 h)))⟩
    · exact ⟨fun h => (limits_syncIdle _).1 (hp.1 h), fun h => (limits_syncIdle _).2.1 (hw (hp.2.1 h))⟩

theorem room_ended {s : State} (h : s.inflight = none) :
    RoomLaw s.dir s.freezes s.batch s.eng.store s.eng.seqCtr s.holder s.inflight := by rw [h]; exact roomLaw_none _ _ _ _ _ _

@[simp] theorem limits_complete (s : State) (r : Result) : LimitsKept s (complete s r) :=
  ⟨(limits_ended s r).1, (limits_ended s r).2, fun _ _ => room_ended (complete_ended s r)⟩

@[simp] theorem room_complete (s : State) (r : Result) : RoomLaw (complete s r).dir (complete s r).freezes (complete s r).batch
    (complete s r).eng.store (complete s r).eng.seqCtr (complete s r).holder (complete s r).inflight :=
      room_ended (complete_ended s r)

@[simp] theorem limits_completeFail (s : State) (st : Status) : LimitsKept s (completeFail s st) := by
  unfold completeFail; try dsimp only
  repeat' split
  all_goals simp (maxDischargeDepth := 20) +contextual [LimitsKept]

@[simp] theorem room_completeFail (s : State) (st : Status) : RoomLaw (completeFail s st).dir (completeFail s st).freezes
    (completeFail s st).batch (completeFail s st).eng.store (completeFail s st).eng.seqCtr (completeFail s st).holder
      (completeFail s st).inflight :=
  room_ended (completeFail_ended s st)

/-- A change of the context in flight that keeps what the laws read. -/
theorem limits_modCtx (s : State) (g : Ctx → Ctx) (hg : ∀ c, s.inflight = some c → (g c).origin = c.origin ∧ (g c).cmd = c.cmd
    ∧ (g c).seq = c.seq ∧ (placesRecord s.holder (g c).stage → placesRecord s.holder c.stage ∨ c.cmd.appends = true)
    ∧ ((g c).stage = c.stage ∨ (g c).stage ≠ .format) ∧ ((g c).batchLost = c.batchLost ∨ (g c).batchLost = true)) :
    LimitsKept s (modCtx s g) := ⟨id, id, fun _ h => h.ctx g hg⟩

/-- The stage of an appending command changes. -/
theorem limits_setStage (s : State) (st : Stage) (h : st ≠ .format)
    (ha : ∀ c, s.inflight = some c → placesRecord s.holder st → placesRecord s.holder c.stage ∨ c.cmd.appends = true) :
    LimitsKept s (setStage s st) :=
  limits_modCtx s _ fun c hc => ⟨rfl, rfl, rfl, ha c hc, .inr h, .inl rfl⟩

/-- The array goes to no command. -/
theorem limits_release (s : State) (h : Holder) (h1 : h = .none ∨ h = .reclaim) : LimitsKept s { s with holder := h } :=
  ⟨id, fun _ => .idle (by rcases h1 with rfl | rfl <;> simp), fun _ k => k.release (by rcases h1 with rfl | rfl <;> simp)⟩

@[simp] theorem limits_enterReadOnly (s : State) : LimitsKept s (enterReadOnly s) := by
  unfold enterReadOnly; dsimp only
  split
  · exact ⟨id, id, fun _ => id⟩
  · rename_i hr
    have hr := not_not.1 hr
    let t : State := raise { s with eng.store := .readOnly } .rdOnly
    have kt : LimitsKept s t :=
      ⟨fun h => h.state (st := s.eng.store) (st' := .readOnly) (by simp [volumeMounted, hr]),
        fun h => .idle (h.serving (.inl hr)), fun _ h => h.state (.inr rfl)⟩
    have km : LimitsKept s (modCtx t fun c => { c with tearDue := true }) :=
      kt.trans (limits_modCtx t _ fun _ _ => ⟨rfl, rfl, rfl, .inl, .inl rfl, .inl rfl⟩)
    split
    · rename_i hi
      have hi : t.inflight = none := hi
      exact ⟨fun h => table_teardown t false (kt.1 h), fun h => workLaw_teardown t false (kt.2.1 h),
        fun h k => room_teardown t false (kt.1 h).limits.1 (fun c hc => by rw [hi] at hc; cases hc) (kt.2.2 h k)⟩
    · split
      · exact km.trans (limits_completeFail _ _)
      · exact km

@[simp] theorem limits_retireSegment (s : State) (n : Nat) : LimitsKept s (retireSegment s n) := by
  unfold retireSegment; try dsimp only
  repeat' split
  all_goals simp (maxDischargeDepth := 20) +contextual [LimitsKept]

@[simp] theorem limits_issue (s : State) (op : SeqOp) : LimitsKept s (issue s op) := by
  unfold issue; try dsimp only
  repeat' split
  all_goals simp (maxDischargeDepth := 20) +contextual [LimitsKept]

@[simp] theorem limits_prepIssue (s : State) (n : Nat) (p : PrepStage) (vid : Word) :
    LimitsKept s (prepIssue s n p vid) := by
  unfold prepIssue; try dsimp only
  repeat' split
  all_goals simp (maxDischargeDepth := 20) +contextual [LimitsKept]

@[simp] theorem limits_eraseEnded (s : State) (n : Nat) : LimitsKept s (eraseEnded s n) := by
  unfold eraseEnded; try dsimp only
  repeat' split
  all_goals simp (maxDischargeDepth := 20) +contextual [LimitsKept]

@[simp] theorem limits_segmentPrepared (s : State) (n : Nat) : LimitsKept s (segmentPrepared s n) := by
  unfold segmentPrepared
  simp (maxDischargeDepth := 20) +contextual [LimitsKept]

@[simp] theorem limits_prepReport (s : State) (n : Nat) (p : PrepStage) (vid : Word) (rep : Report) :
    LimitsKept s (prepReport s n p vid rep).1 := by
  unfold prepReport; try dsimp only
  repeat' split
  all_goals simp (maxDischargeDepth := 20) +contextual [LimitsKept]

@[simp] theorem limits_takeEpoch (s : State) : LimitsKept s (takeEpoch s) := by
  unfold takeEpoch; try dsimp only
  repeat' split
  all_goals simp (maxDischargeDepth := 20) +contextual [LimitsKept]

@[simp] theorem limits_closeOpen (s : State) : LimitsKept s (closeOpen s) := by
  unfold closeOpen; try dsimp only
  repeat' split
  all_goals simp (maxDischargeDepth := 20) +contextual [LimitsKept]

@[simp] theorem limits_startOpening (s : State) (n : Nat) (failed : Option Nat) :
    LimitsKept s (startOpening s n failed).1 := by
  unfold startOpening
  simp (maxDischargeDepth := 20) +contextual [LimitsKept]

@[simp] theorem limits_openReport (s : State) (o : Opening) (rep : Report) : LimitsKept s (openReport s o rep).1 := by
  unfold openReport; try dsimp only
  repeat' split
  all_goals simp (maxDischargeDepth := 20) +contextual [LimitsKept]

@[simp] theorem limits_loseBatch (s : State) : LimitsKept s (loseBatch s) := by
  unfold loseBatch
  split
  · exact ⟨id, id, fun _ => id⟩
  · have k := limits_completeFail
    split
    · exact ⟨fun h => (k _ _).1 (table_teardown s false h), fun h => (k _ _).2.1 (workLaw_teardown s false h),
        fun _ _ => room_completeFail _ _⟩
    · exact k _ _

theorem limits_waitOrFull (s : State) (ha : ∀ c, s.inflight = some c → c.cmd.appends = true) :
    LimitsKept s (waitOrFull s) := by
  unfold waitOrFull
  split
  · exact (limits_setStage s _ (by simp) fun c hc _ => .inr (ha c hc)).trans (limits_release _ .none (.inl rfl))
  · exact limits_completeFail _ _

@[simp] theorem limits_abandonRecord (s : State) : LimitsKept s (abandonRecord s) := by
  unfold abandonRecord; try dsimp only
  repeat' split
  all_goals simp (maxDischargeDepth := 20) +contextual [LimitsKept]

@[simp] theorem limits_readContent (s : State) (l : Line) : LimitsKept s (readContent s l).2 := by
  unfold readContent; split <;> simp [LimitsKept]

@[simp] theorem limits_modJob (s : State) (f : ReadJob → ReadJob) : LimitsKept s (modJob s f) :=
  limits_modCtx s _ fun _ _ => ⟨rfl, rfl, rfl, .inl, .inl rfl, .inl rfl⟩

@[simp] theorem limits_placeBytes (s : State) (c : Ctx) (buf i : Nat) (v : List Byte) :
    LimitsKept s (placeBytes s c buf i v) := by
  unfold placeBytes; try dsimp only
  repeat' split
  all_goals simp (maxDischargeDepth := 20) +contextual [LimitsKept]

@[simp] theorem limits_getReport (s : State) (c : Ctx) (buf : Nat) (l : Line) :
    LimitsKept s (getReport s c buf l) := by
  unfold getReport; try dsimp only
  repeat' split
  all_goals simp (maxDischargeDepth := 20) +contextual [LimitsKept]

@[simp] theorem limits_listNext (s : State) (key : Key) (p : Part) : LimitsKept s (listNext s key p) := by
  unfold listNext
  simp (maxDischargeDepth := 20) +contextual [LimitsKept]

@[simp] theorem limits_listReport (s : State) (c : Ctx) (buf count : Nat) (l : Line) :
    LimitsKept s (listReport s c buf count l) := by
  unfold listReport; try dsimp only
  repeat' split
  all_goals simp (maxDischargeDepth := 20) +contextual [LimitsKept]

@[simp] theorem limits_modRc (s : State) (f : Reclaim → Reclaim) : LimitsKept s (modRc s f) := by
  unfold modRc
  simp (maxDischargeDepth := 20) +contextual [LimitsKept]

@[simp] theorem limits_startVictim (s : State) (v : Nat) : LimitsKept s (startVictim s v) := by
  unfold startVictim
  simp (maxDischargeDepth := 20) +contextual [LimitsKept]

@[simp] theorem limits_returnVictim (s : State) (v : Nat) : LimitsKept s (returnVictim s v) := by
  unfold returnVictim
  simp (maxDischargeDepth := 20) +contextual [LimitsKept]

@[simp] theorem limits_tellTrigger (s : State) (res : Result) : LimitsKept s (tellTrigger s res) := by
  unfold tellTrigger
  split
  · exact .refl _
  · rename_i c hc
    split
    · exact limits_complete _ _
    · rename_i hw
      split
      · exact limits_completeFail _ _
      · exact limits_setStage _ _ (by simp) fun d hd _ => .inl (by rw [hc] at hd; cases hd; rw [hw]; trivial)
    · exact .refl _

@[simp] theorem limits_victimLeaves (s : State) (r : Reclaim) (e : VictimEnd) :
    LimitsKept s (victimLeaves s r e) := by
  have k : LimitsKept s { s with rc.ctx := none, holder := .none } := limits_release s .none (.inl rfl)
  have kr := fun t => limits_returnVictim t r.victim
  unfold victimLeaves; dsimp only
  split
  · exact k.trans (limits_tellTrigger _ _)
  · exact k.trans (limits_tellTrigger _ _)
  · exact ((k.trans (kr _)).trans (limits_enterReadOnly _)).trans (limits_tellTrigger _ _)
  · exact (k.trans (kr _)).trans (limits_tellTrigger _ _)

@[simp] theorem limits_releaseStep (s : State) : LimitsKept s (releaseStep s) := by
  unfold releaseStep
  exact (limits_modRc s _).trans (limits_release _ .none (.inl rfl))

@[simp] theorem limits_passRecord (s : State) (e : Nat) : LimitsKept s (passRecord s e) := by
  unfold passRecord
  simp (maxDischargeDepth := 20) +contextual [LimitsKept]

@[simp] theorem limits_endWalk (s : State) : LimitsKept s (endWalk s) := by
  unfold endWalk
  simp (maxDischargeDepth := 20) +contextual [LimitsKept]

/-- The directory changes entry by entry: no new sequence, the pending parts and the order of the keys kept. -/
theorem limits_entries {s t : State} (ho : DirOk s.dir → DirOk t.dir)
    (hk : (t.dir.map DirEntry.key).Sublist (s.dir.map DirEntry.key))
    (hs : ∀ r, dirHas t.dir r → ∃ r', dirHas s.dir r' ∧ r'.seq = r.seq)
    (hp : ∀ k r, (∃ x ∈ t.dir, x.key = k ∧ x.pending = some r) ↔ ∃ x ∈ s.dir, x.key = k ∧ x.pending = some r)
    (he : t = { s with dir := t.dir, rc := t.rc }) : LimitsKept s t := by
  have hl := hk.length_le
  simp only [List.length_map] at hl
  rw [he]
  refine ⟨fun h => h.entries (ho h.order.1) hl hs hp, fun h => h.parts hs fun e => ?_, fun h k => k.dir hk h.limits.1⟩
  rw [e] at hl; exact List.length_eq_zero_iff.1 (Nat.le_zero.1 hl)

@[simp] theorem limits_dropTombstone (s : State) (key : Key) : LimitsKept s (dropTombstone s key) := by
  have hm : ∀ x, x ∈ (dropTombstone s key).dir → ∃ y ∈ s.dir, x = if y.key = key then { y with committed := none } else y := by
    intro x hx
    obtain ⟨y, hy, e⟩ := List.mem_map.1 (List.mem_filter.1 hx).1
    exact ⟨y, hy, e.symm⟩
  refine limits_entries (order_dropTombstone s key).1 ?_ (fun r => ?_) (fun k r => ⟨?_, ?_⟩) rfl
  · have : (s.dir.map fun e => if e.key = key then { e with committed := none } else e).map DirEntry.key
        = s.dir.map DirEntry.key := by
      rw [List.map_map]; apply List.map_congr_left; intro e _; simp only [Function.comp]; split <;> rfl
    rw [← this]; exact (List.filter_sublist).map _
  · rintro ⟨x, hx, h⟩
    obtain ⟨y, hy, rfl⟩ := hm x hx
    refine ⟨r, ⟨y, hy, ?_⟩, rfl⟩
    split at h
    · exact .inr (h.resolve_left (by simp))
    · exact h
  · rintro ⟨x, hx, h1, h2⟩
    obtain ⟨y, hy, rfl⟩ := hm x hx
    refine ⟨y, hy, ?_, ?_⟩
    · split at h1 <;> exact h1
    · split at h2 <;> exact h2
  · rintro ⟨y, hy, h1, h2⟩
    refine ⟨if y.key = key then { y with committed := none } else y, ?_, ?_, ?_⟩
    · refine List.mem_filter.2 ⟨List.mem_map.2 ⟨y, hy, rfl⟩, ?_⟩
      split <;> simp [h2]
    · split <;> exact h1
    · split <;> exact h2

@[simp] theorem limits_dirRepoint (s : State) (key : Key) (copy : Loc) : LimitsKept s (dirRepoint s key copy) := by
  let g : DirEntry → DirEntry := fun e => if e.key = key then
    { e with committed := e.committed.map (fun p => { p with loc := copy, shadowed := false }) } else e
  have gk : ∀ e, (g e).key = e.key ∧ (g e).pending = e.pending := by intro e; simp only [g]; split <;> exact ⟨rfl, rfl⟩
  have hd : (dirRepoint s key copy).dir = s.dir.map g := rfl
  refine limits_entries (order_dirRepoint s key copy).1 ?_ (fun r => ?_) (fun k r => ?_) rfl
  · rw [hd, List.map_map, show DirEntry.key ∘ g = DirEntry.key from funext fun e => (gk e).1]
  · rintro ⟨x, hx, h⟩
    rw [hd] at hx
    obtain ⟨y, hy, rfl⟩ := List.mem_map.1 hx
    rw [(gk y).2] at h
    rcases h with h | h
    · simp only [g] at h
      split at h
      · obtain ⟨p, hp, rfl⟩ := Option.map_eq_some_iff.1 h
        exact ⟨p, ⟨y, hy, .inl hp⟩, rfl⟩
      · exact ⟨r, ⟨y, hy, .inl h⟩, rfl⟩
    · exact ⟨r, ⟨y, hy, .inr h⟩, rfl⟩
  · rw [hd]
    constructor
    · rintro ⟨x, hx, h1, h2⟩
      obtain ⟨y, hy, rfl⟩ := List.mem_map.1 hx
      exact ⟨y, hy, (gk y).1 ▸ h1, (gk y).2 ▸ h2⟩
    · rintro ⟨y, hy, h1, h2⟩
      exact ⟨g y, List.mem_map_of_mem hy, (gk y).1.trans h1, (gk y).2.trans h2⟩

/-- The commit table changes without growing. -/
theorem limits_commits {s t : State} (ho : CommitOk s.commits → CommitOk t.commits) (hl : t.commits.length ≤ s.commits.length)
    (he : t = { s with commits := t.commits, rc := t.rc }) : LimitsKept s t := by
  rw [he]
  exact ⟨fun h => h.commits (ho h.order.2.2) (Nat.le_trans hl h.limits.2.2) (.inr hl), id, fun _ => id⟩

@[simp] theorem limits_dropRecord (s : State) (h : Hdr) (l : Loc) : LimitsKept s (dropRecord s h l) := by
  have k := limits_killLines s l.seg (extentOf h.len)
  unfold dropRecord; dsimp only
  split
  · exact k.trans (limits_dropTombstone _ _)
  · exact k.trans (limits_commits (t := { killLines s l.seg (extentOf h.len) with
      commits := _, rc := _ }) (fun o => List.Pairwise.filter _ o) (List.length_filter_le ..) rfl)
  · exact k
  · exact k

@[simp] theorem limits_placeCopy (s : State) (a : Attempt) (l : Loc) : LimitsKept s (placeCopy s a l) := by
  unfold placeCopy
  simp (maxDischargeDepth := 20) +contextual [LimitsKept]

@[simp] theorem limits_admitCopy (s : State) (r : Reclaim) (a : Attempt) (failed : Option Nat) :
    LimitsKept s (admitCopy s r a failed) := by
  unfold admitCopy; try dsimp only
  repeat' split
  all_goals simp (maxDischargeDepth := 20) +contextual [LimitsKept]

@[simp] theorem limits_buildCopy (s : State) (r : Reclaim) (a : Attempt) : LimitsKept s (buildCopy s r a) := by
  unfold buildCopy
  simp (maxDischargeDepth := 20) +contextual [LimitsKept]

@[simp] theorem limits_startCopy (s : State) (r : Reclaim) (h : Hdr) (l : Loc) :
    LimitsKept s (startCopy s r h l) := by
  unfold startCopy; try dsimp only
  repeat' split
  all_goals simp (maxDischargeDepth := 20) +contextual [LimitsKept]

@[simp] theorem limits_copyData (s : State) (r : Reclaim) (a : Attempt) (k : Nat) (l : Line) :
    LimitsKept s (copyData s r a k l) := by
  unfold copyData; try dsimp only
  repeat' split
  all_goals simp (maxDischargeDepth := 20) +contextual [LimitsKept]

@[simp] theorem limits_repoint (s : State) (a : Attempt) : LimitsKept s (repoint s a) := by
  unfold repoint
  split
  · exact limits_dirRepoint _ _ _
  · exact limits_dirRepoint _ _ _
  · exact limits_commits (t := { s with commits := _ }) (commitOk_map _ _ fun x => by split <;> rfl) (by simp) rfl
  · refine ⟨fun h => h.freeze (freezeOk_map _ _ (fun x => by split <;> exact ⟨rfl, rfl⟩) h.order.2.1)
      (by simpa using h.limits.2.1),
      id, fun _ h c hc => ⟨(h c hc).1, fun ha => ?_⟩⟩
    obtain ⟨h1, h2, h3, h4, h5, h6⟩ := (h c hc).2 ha
    exact ⟨h1, h2, h3, h4, h5, by simpa using h6⟩

@[simp] theorem limits_copyComplete (s : State) (r : Reclaim) (a : Attempt) : LimitsKept s (copyComplete s r a) := by
  unfold copyComplete; try dsimp only
  repeat' split
  all_goals simp (maxDischargeDepth := 20) +contextual [LimitsKept]

@[simp] theorem limits_copyDone (s : State) (r : Reclaim) (a : Attempt) (k : Nat) :
    LimitsKept s (copyDone s r a k) := by
  unfold copyDone; try dsimp only
  repeat' split
  all_goals simp (maxDischargeDepth := 20) +contextual [LimitsKept]

@[simp] theorem limits_copyFault (s : State) (r : Reclaim) (a : Attempt) : LimitsKept s (copyFault s r a) := by
  unfold copyFault; try dsimp only
  repeat' split
  all_goals simp (maxDischargeDepth := 20) +contextual [LimitsKept]

@[simp] theorem limits_copyOpening (x : State × OpenNext) (r : Reclaim) (a : Attempt) (o : Opening) :
    LimitsKept x.1 (copyOpening x r a o) := by
  unfold copyOpening; try dsimp only
  repeat' split
  all_goals simp (maxDischargeDepth := 20) +contextual [LimitsKept]

@[simp] theorem limits_walkHeader (s : State) (r : Reclaim) (l : Line) : LimitsKept s (walkHeader s r l) := by
  unfold walkHeader; try dsimp only
  repeat' split
  all_goals simp (maxDischargeDepth := 20) +contextual [LimitsKept]

@[simp] theorem limits_finishReport (s : State) (r : Reclaim) (p : PrepStage) (rep : Report) :
    LimitsKept s (finishReport s r p rep) := by
  unfold finishReport; try dsimp only
  repeat' split
  all_goals simp (maxDischargeDepth := 20) +contextual [LimitsKept]

@[simp] theorem limits_reclaimReport (s : State) (r : Reclaim) (rep : Report) :
    LimitsKept s (reclaimReport s r rep) := by
  unfold reclaimReport; try dsimp only
  repeat' split
  all_goals simp (maxDischargeDepth := 20) +contextual [LimitsKept]

@[simp] theorem limits_walkStep (s : State) (r : Reclaim) : LimitsKept s (walkStep s r) := by
  unfold walkStep
  split
  · exact limits_endWalk s
  · exact ((limits_modRc s _).trans (limits_release _ .reclaim (.inr rfl))).trans (limits_issue _ _)

@[simp] theorem limits_grantWalk (s : State) : LimitsKept s (grantWalk s) := by
  unfold grantWalk; try dsimp only
  repeat' split
  all_goals simp (maxDischargeDepth := 20) +contextual [LimitsKept]

@[simp] theorem limits_grantFinish (s : State) : LimitsKept s (grantFinish s) := by
  unfold grantFinish
  split
  · split
    · exact ((limits_modRc s _).trans (limits_release _ .reclaim (.inr rfl))).trans (limits_prepIssue _ _ _ _)
    · exact .refl _
  · exact .refl _

@[simp] theorem limits_reclaimWalkStep (s : State) : LimitsKept s (reclaimWalkStep s) := by
  unfold reclaimWalkStep; try dsimp only
  repeat' split
  all_goals simp (maxDischargeDepth := 20) +contextual [LimitsKept]

@[simp] theorem limits_reclaimFinishStep (s : State) : LimitsKept s (reclaimFinishStep s) := by
  unfold reclaimFinishStep; try dsimp only
  repeat' split
  all_goals simp (maxDischargeDepth := 20) +contextual [LimitsKept]

@[simp] theorem limits_answerWaiting (s : State) (b : Bool) (status : Byte) :
    LimitsKept s (answerWaiting s b status) := by
  unfold answerWaiting; try dsimp only
  repeat' split
  all_goals simp (maxDischargeDepth := 20) +contextual [LimitsKept]

@[simp] theorem limits_answerBothWaiting (s : State) (status : Byte) : LimitsKept s (answerBothWaiting s status) := by
  unfold answerBothWaiting
  simp (maxDischargeDepth := 20) +contextual [LimitsKept]

@[simp] theorem limits_setXfer (s : State) (x : Option Xfer) : LimitsKept s (setXfer s x) := by
  unfold setXfer
  simp (maxDischargeDepth := 20) +contextual [LimitsKept]

theorem limits_endMgmtBatch (s : State) (ho : ownsBatch s .mgmt = true) : LimitsKept s (endMgmtBatch s) := by
  have kt := table_teardown s false
  have kw := workLaw_teardown s false
  unfold endMgmtBatch
  split
  · rename_i hi
    exact ⟨kt, kw, fun h => room_teardown s false h.limits.1 fun c hc => by rw [hi] at hc; cases hc⟩
  · rename_i c hi
    split
    · split
      · exact ⟨fun h => (limits_completeFail _ _).1 (kt h), fun h => (limits_completeFail _ _).2.1 (kw h),
          fun _ _ => room_completeFail _ _⟩
      · refine ⟨kt, kw, fun h k => ?_⟩
        have k' := k.ctx (fun c => { c with batchLost := true }) fun _ _ => ⟨rfl, rfl, rfl, .inl, .inl rfl, .inr rfl⟩
        have hd := k'.drop h.limits.1 fun c hc _ => by
          obtain ⟨x, -, rfl⟩ := Option.map_eq_some_iff.1 hc; rfl
        unfold modCtx
        rcases teardown_changes s false with ⟨-, e⟩ | ⟨m, a, e⟩ <;> rw [e]
        · exact k'
        · exact hd
    · rename_i hn
      split
      · split
        · exact limits_loseBatch s
        · exact limits_modCtx s _ fun _ _ => ⟨rfl, rfl, rfl, .inl, .inl rfl, .inr rfl⟩
        · exact limits_modCtx s _ fun _ _ => ⟨rfl, rfl, rfl, .inl, .inl rfl, .inl rfl⟩
      · refine ⟨kt, kw, fun h k => room_teardown s false h.limits.1 (fun d hd hm => ?_) k⟩
        rw [hi] at hd; cases hd
        by_contra hb
        rw [Bool.not_eq_true] at hb
        have hw : c.cmd.appends = true ∧ ∃ key, c.cmd.writes = some key := by
          cases hc : c.cmd <;> rw [hc] at hm <;> simp [Cmd.isMember] at hm <;> exact ⟨rfl, _, rfl⟩
        obtain ⟨key, hkey⟩ := hw.2
        obtain ⟨x, hx, hxo, -⟩ := (((k c hi).2 hw.1).2.2.2.2.1 key hkey).2 hm hb
        simp only [ownsBatch, hx] at ho
        rw [hxo] at ho
        exact hn ⟨by simpa using ho, hm⟩

@[simp] theorem limits_sessionEnd (s : State) (status : Byte) : LimitsKept s (sessionEnd s status) := by
  have k : LimitsKept s (answerBothWaiting (raise { s with mgmt.session := false } .session) status) :=
    limits_answerBothWaiting (raise { s with mgmt.session := false } .session) status
  unfold sessionEnd; dsimp only
  split
  · rename_i h
    exact (k.trans (limits_endMgmtBatch _ h)).trans (limits_syncIdle _)
  · exact k.trans (limits_syncIdle _)

@[simp] theorem limits_freeReceiving (s : State) (b : Bool) : LimitsKept s (freeReceiving s b) := by
  unfold freeReceiving; try dsimp only
  repeat' split
  all_goals simp (maxDischargeDepth := 20) +contextual [LimitsKept]

@[simp] theorem limits_portDisable (s : State) : LimitsKept s (portDisable s) := by
  unfold portDisable; try dsimp only
  repeat' split
  all_goals simp (maxDischargeDepth := 20) +contextual [LimitsKept]

@[simp] theorem limits_answerSlot (s : State) (b : Bool) (arrival : Nat) (tag status : Byte) (payload : List Byte) :
    LimitsKept s (answerSlot s b arrival tag status payload) := by
  unfold answerSlot
  simp (maxDischargeDepth := 20) +contextual [LimitsKept]

@[simp] theorem limits_acceptFrame (s : State) (b : Bool) (arrival : Nat) (bytes : List Byte) (r : Request) :
    LimitsKept s (acceptFrame s b arrival bytes r) := by
  unfold acceptFrame; try dsimp only
  repeat' split
  all_goals simp (maxDischargeDepth := 20) +contextual [LimitsKept]

@[simp] theorem limits_frameEnd (s : State) (b : Bool) : LimitsKept s (frameEnd s b) := by
  unfold frameEnd; try dsimp only
  repeat' split
  all_goals simp (maxDischargeDepth := 20) +contextual [LimitsKept]

@[simp] theorem limits_ack (s : State) (v : Bool) : LimitsKept s (ack s v) := by
  unfold ack
  simp (maxDischargeDepth := 20) +contextual [LimitsKept]

@[simp] theorem limits_writeByte (s : State) (v : Byte) : LimitsKept s (writeByte s v) := by
  unfold writeByte; try dsimp only
  repeat' split
  all_goals simp (maxDischargeDepth := 20) +contextual [LimitsKept]

@[simp] theorem limits_writeBytes (s : State) (l : List Byte) : LimitsKept s (writeBytes s l) := by
  unfold writeBytes
  induction l generalizing s with
  | nil => simp [LimitsKept]
  | cons v vs ih =>
    rw [List.foldl_cons]
    have h := ih (writeByte s v)
    simp (maxDischargeDepth := 20) +contextual only [LimitsKept] at h ⊢
    simp (maxDischargeDepth := 20) +contextual [h, limits_writeByte]

@[simp] theorem limits_beginWrite (s : State) (data : List Byte) : LimitsKept s (beginWrite s data) := by
  unfold beginWrite
  simp (maxDischargeDepth := 20) +contextual [LimitsKept]

@[simp] theorem limits_endWrite (s : State) : LimitsKept s (endWrite s) := by
  unfold endWrite; try dsimp only
  repeat' split
  all_goals simp (maxDischargeDepth := 20) +contextual [LimitsKept]

@[simp] theorem limits_clockBytes (s : State) (n : Nat) : LimitsKept s (clockBytes s n) := by
  unfold clockBytes; try dsimp only
  repeat' split
  all_goals simp (maxDischargeDepth := 20) +contextual [LimitsKept]

@[simp] theorem limits_freeAnswered (s : State) (b : Bool) : LimitsKept s (freeAnswered s b) := by
  unfold freeAnswered; split
  all_goals simp (maxDischargeDepth := 20) +contextual [LimitsKept]

@[simp] theorem limits_endRead (s : State) : LimitsKept s (endRead s) := by
  unfold endRead; try dsimp only
  repeat' split
  all_goals simp (maxDischargeDepth := 20) +contextual [LimitsKept]

@[simp] theorem limits_beginRead (s : State) (n : Nat) : LimitsKept s (beginRead s n) := by
  unfold beginRead
  simp (maxDischargeDepth := 20) +contextual [LimitsKept]

@[simp] theorem limits_endTransfer (s : State) : LimitsKept s (endTransfer s) := by
  unfold endTransfer
  repeat' split
  all_goals simp (maxDischargeDepth := 20) +contextual [LimitsKept]

@[simp] theorem limits_addressByte (s : State) (addr : BitVec 7) : LimitsKept s (addressByte s addr) := by
  unfold addressByte
  simp (maxDischargeDepth := 20) +contextual [LimitsKept]

@[simp] theorem limits_busWrite (s : State) (x : WriteXfer) : LimitsKept s (busWrite s x) := by
  cases x <;> simp only [busWrite] <;> split
  all_goals simp (maxDischargeDepth := 20) +contextual [LimitsKept]

@[simp] theorem limits_sendFrame (s : State) (addr : BitVec 7) (body : List Byte) :
    LimitsKept s (sendFrame s addr body) := by
  unfold sendFrame
  simp (maxDischargeDepth := 20) +contextual [LimitsKept]

@[simp] theorem limits_busRead (s : State) (x : ReadXfer) : LimitsKept s (busRead s x) := by
  cases x <;> simp only [busRead] <;> split
  all_goals simp (maxDischargeDepth := 20) +contextual [LimitsKept]

@[simp] theorem limits_stallExpiry (s : State) : LimitsKept s (stallExpiry s) := by
  unfold stallExpiry; try dsimp only
  repeat' split
  all_goals simp (maxDischargeDepth := 20) +contextual [LimitsKept]

@[simp] theorem limits_sessionLapse (s : State) : LimitsKept s (sessionLapse s) := by
  unfold sessionLapse; try dsimp only
  repeat' split
  all_goals simp (maxDischargeDepth := 20) +contextual [LimitsKept]

@[simp] theorem limits_setBufOwner (s : State) (b : Nat) (o : Option Nat) : LimitsKept s (setBufOwner s b o) := by
  unfold setBufOwner
  simp (maxDischargeDepth := 20) +contextual [LimitsKept]

@[simp] theorem limits_acceptSubmit (s : State) (t : Nat) (c : Cmd) : LimitsKept s (acceptSubmit s t c) := by
  unfold acceptSubmit holdBuffer setBufOwner
  split <;> exact limits_thenSync ⟨id, id, fun _ => id⟩

@[simp] theorem limits_submit (s : State) : LimitsKept s (submit s) := by
  unfold submit
  split
  · exact .refl _
  · dsimp only
    split
    · exact limits_acceptSubmit s _ _
    · exact .refl _

@[simp] theorem limits_submitArgs (s : State) (f : ArgRegs → ArgRegs) : LimitsKept s (submitArgs s f) := by
  unfold submitArgs
  simp (maxDischargeDepth := 20) +contextual [LimitsKept]

@[simp] theorem limits_popCompletion (s : State) : LimitsKept s (popCompletion s) := by
  unfold popCompletion; split <;> exact .refl _

@[simp] theorem limits_removeQueued (s : State) (t : Nat) : LimitsKept s (removeQueued s t) := by
  unfold removeQueued
  exact limits_thenSync (limits_postHost _ t (Result.bare .aborted))

@[simp] theorem limits_reclaimStopped (s : State) (st : Status) : LimitsKept s (reclaimStopped s st) := by
  unfold reclaimStopped; try dsimp only
  repeat' split
  all_goals simp (maxDischargeDepth := 20) +contextual [LimitsKept]

@[simp] theorem limits_abortInFlight (s : State) (c : Ctx) : LimitsKept s (abortInFlight s c).2 := by
  have k := limits_modCtx s (fun c => { c with stopping := true }) fun _ _ => ⟨rfl, rfl, rfl, .inl, .inl rfl, .inl rfl⟩
  unfold abortInFlight
  repeat' split
  all_goals first
    | exact k
    | simp (maxDischargeDepth := 20) +contextual [LimitsKept]

@[simp] theorem limits_abortAnswer (s : State) (t : Nat) : LimitsKept s (abortAnswer s t).2 := by
  unfold abortAnswer
  repeat' split
  all_goals first
    | exact .refl _
    | exact limits_removeQueued _ _
    | exact limits_abortInFlight _ _

@[simp] theorem limits_hostAbort (s : State) (v : Byte) : LimitsKept s (hostAbort s v) := by
  unfold hostAbort
  simp (maxDischargeDepth := 20) +contextual [LimitsKept]

@[simp] theorem limits_advancePtr (s : State) : LimitsKept s (advancePtr s) := by
  unfold advancePtr
  simp (maxDischargeDepth := 20) +contextual [LimitsKept]

@[simp] theorem limits_readBufData (s : State) : LimitsKept s (readBufData s) := by
  unfold readBufData
  simp (maxDischargeDepth := 20) +contextual [LimitsKept]

@[simp] theorem limits_writeBufData (s : State) (v : Byte) : LimitsKept s (writeBufData s v) := by
  unfold writeBufData; try dsimp only
  repeat' split
  all_goals simp (maxDischargeDepth := 20) +contextual [LimitsKept]

@[simp] theorem limits_readDircntLow (s : State) : LimitsKept s (readDircntLow s) := by
  unfold readDircntLow
  simp (maxDischargeDepth := 20) +contextual [LimitsKept]

@[simp] theorem limits_clearAlerts (s : State) (v : Byte) : LimitsKept s (clearAlerts s v) := by
  unfold clearAlerts
  simp (maxDischargeDepth := 20) +contextual [LimitsKept]

@[simp] theorem limits_setMask (s : State) (v : Byte) : LimitsKept s (setMask s v) := by
  unfold setMask
  simp (maxDischargeDepth := 20) +contextual [LimitsKept]

@[simp] theorem limits_setRecthr (s : State) (v : Byte) : LimitsKept s (setRecthr s v) := .refl _

@[simp] theorem limits_setHostwt (s : State) (v : Byte) : LimitsKept s (setHostwt s v) := .refl _

@[simp] theorem limits_powerGood (s : State) : LimitsKept s (powerGood s) := by
  unfold powerGood; try dsimp only
  repeat' split
  all_goals simp (maxDischargeDepth := 20) +contextual [LimitsKept]

theorem limits_postAll (s : State) (l : List QEntry) (r : Result) :
    LimitsKept s (l.foldl (fun t q => postHost t q.tag r) s) := by
  induction l generalizing s with
  | nil => exact .refl _
  | cons q l ih => exact ih (postHost s q.tag r)

@[simp] theorem limits_flushQueue (s : State) : LimitsKept s (flushQueue s) :=
  limits_postAll s s.host.queue (Result.bare .halted)

end Sys2Proof.Machine
end

