-- ==== Sys2Proof/Laws/CapacitySteps.lean ====
section
/-! SUPPORT. The laws of the tables through the append of a command, the grant, the mount, the FORMAT, the halt and the
resets: one lemma per operation, with what it needs to know of the state. -/

namespace Sys2Proof.Machine

theorem LimitsKept.keeps {s t : State} (k : LimitsKept s t) (h : tablesLawful s) : tablesLawful t :=
  ⟨k.1 h.1, k.2.1 h.2.1, k.2.2 h.1 h.2.2⟩

/-- The laws of the tables and of the work, without the command in flight's. -/
abbrev tablesBase (s : State) : Prop :=
  TableLaw s.dir s.freezes s.commits s.batch s.eng.store s.eng.prior s.eng.seqCtr
  ∧ WorkLaw s.holder s.dir s.eng.store s.eng.seqCtr s.mu

theorem tablesLawful.base {s : State} (h : tablesLawful s) : tablesBase s := ⟨h.1, h.2.1⟩

theorem LimitsKept.base {s t : State} (k : LimitsKept s t) (h : tablesBase s) : tablesBase t := ⟨k.1 h.1, k.2.1 h.2⟩

/-- The command in flight ends: nothing need be known of its room. -/
theorem tables_complete {s : State} (h : tablesBase s) (r : Result) : tablesLawful (complete s r) :=
  ⟨(limits_complete s r).1 h.1, (limits_complete s r).2.1 h.2, room_complete s r⟩

theorem tables_completeFail {s : State} (h : tablesBase s) (st : Status) : tablesLawful (completeFail s st) :=
  ⟨(limits_completeFail s st).1 h.1, (limits_completeFail s st).2.1 h.2, room_completeFail s st⟩

/-- Every command in flight appends. -/
abbrev appending (s : State) : Prop := ∀ c, s.inflight = some c → c.cmd.appends = true

/-- No command in flight appends, and none places a record for a holder of the array that is no command. -/
abbrev noAppend (s : State) : Prop := ∀ c, s.inflight = some c → ¬ placesRecord .none c.stage ∧ c.cmd.appends = false

theorem noAppend.room {i : Option Ctx} (k : ∀ c, i = some c → ¬ placesRecord .none c.stage ∧ c.cmd.appends = false)
    {d : List DirEntry} {f : List FreezeEntry} {b : Option Batch} {st : StoreState} {q : Word} {h : Holder} (hh : h ≠ .command) :
    RoomLaw d f b st q h i := fun c hc => by
  obtain ⟨k1, k2⟩ := k c hc
  refine ⟨fun hp => absurd ?_ k1, fun ha => by rw [k2] at ha; cases ha⟩
  cases hs : c.stage <;> rw [hs] at hp <;> first | exact absurd hp hh | exact hp

/-- In a store that serves no commands, no command in flight appends. -/
theorem tablesLawful.noneAppends {s : State} (h : tablesLawful s) (hs : s.eng.store ≠ .ready ∧ s.eng.store ≠ .readOnly) :
    noAppend s := fun c hc => by
  have ha : c.cmd.appends = false := by
    by_contra hb
    rcases ((h.2.2 c hc).2 (by simpa using hb)).1 with e | e
    · exact hs.1 e
    · exact hs.2 e
  refine ⟨fun hp => ?_, ha⟩
  have := (h.2.2.release (h' := .none) (by decide) c hc).1 hp
  rw [ha] at this; cases this

/-! ### Changes of the segment table and the alerts alone -/

/-- `t` differs from `s` in the segment table and the alerts at most. -/
abbrev SegOnly (s t : State) : Prop := ∃ m a, t = { s with sm := m, alert := a }

theorem SegOnly.trans {s t u : State} (h : SegOnly s t) (k : SegOnly t u) : SegOnly s u := by
  obtain ⟨m, a, rfl⟩ := h; obtain ⟨n, b, rfl⟩ := k; exact ⟨n, b, rfl⟩

theorem segOnly_segUpd (s : State) (n : Nat) (f : SegEntry → SegEntry) : SegOnly s (segUpd s n f) := by
  obtain ⟨a, h⟩ := segUpd_changes s n f; exact ⟨_, a, h⟩

theorem segOnly_journalUpd (s : State) (n : Nat) (f : Journal → Journal) : SegOnly s (journalUpd s n f) := segOnly_segUpd _ _ _

theorem segOnly_killPart (s : State) (o : Option Part) : SegOnly s (killPart? s o) := by
  unfold killPart?; split
  · exact segOnly_journalUpd _ _ _
  · exact ⟨s.sm, s.alert, rfl⟩

theorem segOnly_countFault (s : State) (n : Nat) : SegOnly s (countFault s n) :=
  (segOnly_segUpd s n _).trans ⟨_, _, rfl⟩

theorem segOnly_abandon (s : State) : SegOnly s (abandonRecord s) := by
  unfold abandonRecord; split
  · exact ⟨s.sm, s.alert, rfl⟩
  · exact segOnly_journalUpd _ _ _

theorem promoteAll_changes (ms : List Member) (s : State) :
    ∃ m a, promoteAll s ms = { s with sm := m, alert := a, dir := (promoteAll s ms).dir } := by
  have key : ∀ (t : State) (k : Key), ∃ m a d, promoteKey t k = { t with sm := m, alert := a, dir := d } := by
    intro t k
    unfold promoteKey
    repeat' split
    · exact ⟨t.sm, t.alert, t.dir, rfl⟩
    · exact ⟨t.sm, t.alert, t.dir, rfl⟩
    · obtain ⟨m, a, e⟩ := segOnly_killPart t (Option.getD (dirLookup t.dir k) ⟨k, none, none⟩).committed
      simp only [‹dirLookup t.dir k = some _›, Option.getD_some] at e
      rw [e]; exact ⟨m, a, _, rfl⟩
  induction ms generalizing s with
  | nil => exact ⟨s.sm, s.alert, rfl⟩
  | cons x ms ih =>
    obtain ⟨m, a, d, e⟩ := key s x.key
    obtain ⟨n, b, e'⟩ := ih (promoteKey s x.key)
    refine ⟨n, b, ?_⟩
    show promoteAll (promoteKey s x.key) ms = { s with sm := n, alert := b, dir := (promoteAll (promoteKey s x.key) ms).dir }
    rw [e', e]

/-! ### The append of a command -/

/-- The sequence the command in flight has taken is below a counter that is not 0. -/
theorem seq_below {s : State} (h : tablesLawful s) {c : Ctx} (hc : s.inflight = some c) (ha : c.cmd.appends = true) :
    c.seq.getD 0 < s.eng.seqCtr := by
  obtain ⟨h1, -, -, h4, -⟩ := (h.2.2 c hc).2 ha
  cases hs : c.seq with
  | some x => exact h4 x hs
  | none =>
    have h0 := h.1.notZero h1
    rw [BitVec.lt_def]
    have : s.eng.seqCtr.toNat ≠ 0 := fun e => h0 (BitVec.eq_of_toNat_eq (by simpa using e))
    show (0 : Word).toNat < _
    have : (0 : Word).toNat = 0 := rfl
    omega

theorem tables_assign {s : State} (h : tablesLawful s) (ha : appending s) (l : Loc) : tablesLawful (assign s l) := by
  unfold assign
  cases hi : s.inflight with
  | none => exact h
  | some c =>
    have hca := ha c hi
    obtain ⟨h1, h2, h3, h4, h5, h6⟩ := (h.2.2 c hi).2 hca
    have h0 := h.1.notZero h1
    dsimp only
    refine (limits_issue _ _).keeps ?_
    cases hs : c.seq with
    | none =>
      have hq := h3 hs
      refine ⟨h.1.count hq h0, workLaw_command _ _ _ _, fun d hd => ?_⟩
      simp only [modCtx, Option.map_some, Option.some.injEq] at hd
      subst hd
      exact ⟨fun _ => hca, fun _ => ⟨h1, by simp, by simp, fun x hx => by cases hx; exact below_succ hq (.inr rfl), h5, h6⟩⟩
    | some x =>
      refine ⟨h.1, workLaw_command _ _ _ _, fun d hd => ?_⟩
      simp only [modCtx, hi, Option.map_some, Option.some.injEq] at hd
      subst hd
      exact ⟨fun _ => hca, fun _ => ⟨h1, by simp, by simp, fun y hy => by cases hy; exact h4 x hs, h5, h6⟩⟩

theorem startOpening_inflight (s : State) (n : Nat) (failed : Option Nat) :
    (startOpening s n failed).1.inflight = s.inflight := by
  have h1 : ∀ t : State, (takeEpoch t).inflight = t.inflight := fun t => by unfold takeEpoch; split <;> rfl
  have h2 : (closeOpen s).inflight = s.inflight := by
    unfold closeOpen; split
    · obtain ⟨a, e⟩ := segUpd_changes s _ (fun e => { e with st := e.st.close })
      unfold closeSegment; rw [e]
    · rfl
  unfold startOpening
  dsimp only
  rw [(issue_work _ _).2.2.2.1, h1, h2]

theorem tables_admitCommand {s : State} (h : tablesLawful s) (ha : appending s) (failed : Option Nat) :
    tablesLawful (admitCommand s failed) := by
  unfold admitCommand
  cases hi : s.inflight with
  | none => exact h
  | some c =>
    dsimp only
    split
    · exact tables_assign h ha _
    · rename_i n _
      have k := (limits_startOpening s n failed).keeps h
      refine ⟨k.1, workLaw_command _ _ _ _, fun d hd => ?_⟩
      obtain ⟨x, hx, rfl⟩ : ∃ x, (startOpening s n failed).1.inflight = some x
          ∧ { x with stage := .admission (startOpening s n failed).2 } = d := Option.map_eq_some_iff.1 hd
      rw [startOpening_inflight, hi] at hx
      cases hx
      refine ⟨fun _ => ha c hi, fun hca => ?_⟩
      obtain ⟨h1, h2, h3, h4, h5, h6⟩ := (k.2.2 c ((startOpening_inflight s n failed).trans hi)).2 hca
      exact ⟨h1, by simp, h3, h4, h5, h6⟩
    · exact ((limits_enterReadOnly s).trans (limits_completeFail _ _)).keeps h
    · exact (limits_waitOrFull s ha).keeps h

theorem segOnly_accountLive (s : State) (n e : Nat) : SegOnly s (accountLive s n e) := segOnly_journalUpd _ _ _

/-- Publish committed (R51): the laws with the part's sequence below the counter and room for a new entry. -/
theorem base_publishCommitted {s : State} (h : tablesBase s) (hs : s.eng.store = .ready ∨ s.eng.store = .readOnly) (k : Key)
    (p : Part) (hl : dirLookup s.dir k = none → s.dir.length < 512) (hq : p.seq < s.eng.seqCtr) :
    tablesBase (publishCommitted s k p) := by
  obtain ⟨m, a, e⟩ := (segOnly_accountLive s p.loc.seg (extentOf p.len)).trans
    (segOnly_killPart (accountLive s p.loc.seg (extentOf p.len)) ((dirLookup s.dir k).bind DirEntry.committed))
  unfold publishCommitted
  simp only [e]
  exact ⟨h.1.publish k p hl (.inr hq), .idle (h.2.serving hs)⟩

/-- Publish pending (R52, R102): the laws with the part's sequence below the counter and room in the open batch. -/
theorem base_publishPending {s : State} (h : tablesBase s) (hs : s.eng.store = .ready ∨ s.eng.store = .readOnly) (k : Key)
    (p : Part) (hl : dirLookup s.dir k = none → s.dir.length < 512) (hq : p.seq < s.eng.seqCtr) {x : Batch}
    (hx : s.batch = some x) (hm : x.members.length < 8) (hk : k ∉ x.members.map Member.key) :
    tablesBase (publishPending s k p) := by
  obtain ⟨m, a, e⟩ : SegOnly s (pinUp (accountLive s p.loc.seg (extentOf p.len)) p.loc.seg) :=
    (segOnly_accountLive s p.loc.seg (extentOf p.len)).trans (segOnly_journalUpd _ _ _)
  unfold publishPending
  simp only [e, hx, Option.map_some]
  exact ⟨(hx ▸ h.1).publishMember k p hl (.inr hq) hm hk, .idle (h.2.serving hs)⟩

theorem base_commitBatch {s : State} (h : tablesBase s) (hs : s.eng.store = .ready ∨ s.eng.store = .readOnly) (c : Ctx) :
    tablesBase (commitBatch s c) := by
  unfold commitBatch
  cases hx : s.batch with
  | none => exact (limits_accountDead s _ _).base h
  | some x =>
    obtain ⟨m, a, e⟩ := segOnly_accountLive s c.place.seg c.lines.length
    have kt : TableLaw (accountLive s c.place.seg c.lines.length).dir s.freezes s.commits (some x) s.eng.store s.eng.prior
        s.eng.seqCtr := by rw [e, ← hx]; exact h.1
    have kp := kt.promote ⟨x.bid, c.place⟩
    obtain ⟨n, b, e'⟩ := promoteAll_changes x.members (accountLive s c.place.seg c.lines.length)
    simp only [clearPins]
    generalize promoteAll (accountLive s c.place.seg c.lines.length) x.members = t at kp e' ⊢
    rw [e] at e'
    generalize t.dir = d at kp e'
    subst e'
    exact ⟨kp, .idle (h.2.serving hs)⟩

/-- What PUBLISH makes of the tables. -/
theorem base_publish {s : State} (h : tablesLawful s) {c : Ctx} (hc : s.inflight = some c) (ha : c.cmd.appends = true)
    (hb : c.batchLost = false) : tablesBase (publish s c) := by
  obtain ⟨h1, h2, h3, h4, h5, h6⟩ := (h.2.2 c hc).2 ha
  have hq := seq_below h hc ha
  have member : ∀ k (p : Part), p.seq = c.seq.getD 0 → c.cmd.writes = some k → c.cmd.isMember = true →
      tablesBase (publishPending s k p) := by
    intro k p hp hk hm
    obtain ⟨x, hx, -, hl, hn⟩ := (h5 k hk).2 hm hb
    exact base_publishPending h.base h1 k p (h5 k hk).1 (hp ▸ hq) hx hl hn
  have plain : ∀ k (p : Part), p.seq = c.seq.getD 0 → c.cmd.writes = some k → tablesBase (publishCommitted s k p) :=
    fun k p hp hk => base_publishCommitted h.base h1 k p (h5 k hk).1 (hp ▸ hq)
  cases hcmd : c.cmd <;> simp only [publish, hcmd]
  case put k n b m =>
    split
    · rename_i hm
      exact member k _ rfl (by rw [hcmd]; rfl) (by rw [hcmd]; exact hm)
    · exact plain k _ rfl (by rw [hcmd]; rfl)
  case delete k m =>
    split
    · rename_i hm
      exact member k _ rfl (by rw [hcmd]; rfl) (by rw [hcmd]; exact hm)
    · exact plain k _ rfl (by rw [hcmd]; rfl)
  case freeze lo hi =>
    obtain ⟨m, a, e⟩ := segOnly_accountLive s c.place.seg c.lines.length
    simp only [e]
    have hl := (freezeInsert_length ⟨lo, hi, c.place⟩ s.freezes).1
    have := h6 lo hi hcmd
    exact ⟨h.1.freeze (freezeOk_insert _ _ h.1.order.2.1) (Nat.le_trans hl this), .idle (h.2.1.serving h1)⟩
  case batchCommit => exact base_commitBatch h.base h1 c
  all_goals exact h.base

theorem tables_appendDone {s : State} (h : tablesLawful s) {c : Ctx} (hc : s.inflight = some c) (ha : c.cmd.appends = true) :
    tablesLawful (appendDone s c) := by
  unfold appendDone; dsimp only
  split
  · exact ((limits_abandonRecord s).trans (limits_completeFail _ _)).keeps h
  split
  · exact ((limits_abandonRecord s).trans (limits_completeFail _ _)).keeps h
  rename_i hb
  split
  · exact tables_complete (base_publish h hc ha (by simpa using hb)) _
  · refine ((limits_setStage s _ ?_ fun d hd _ => .inr ?_).trans (limits_issue _ _)).keeps h
    · unfold stageOfLine; repeat' split
      all_goals simp
    · rw [hc] at hd; cases hd; exact ha

theorem tables_appendFault {s : State} (h : tablesLawful s) {c : Ctx} (hc : s.inflight = some c) (ha : c.cmd.appends = true) :
    tablesLawful (appendFault s c) := by
  have ho : SegOnly s (closeSegment (abandonRecord (countFault s c.place.seg)) c.place.seg) :=
    ((segOnly_countFault s _).trans (segOnly_abandon _)).trans (segOnly_segUpd _ _ _)
  unfold appendFault
  obtain ⟨m, a, e⟩ := ho
  rw [e]
  have k : tablesLawful { s with sm := m, alert := a } := h
  dsimp only
  split
  · exact (limits_completeFail _ _).keeps k
  split
  · exact (limits_completeFail _ _).keeps k
  split
  · exact (limits_completeFail _ _).keeps k
  split
  · exact (limits_completeFail _ _).keeps k
  refine tables_admitCommand ((limits_modCtx _ (fun c => { c with retried := true }) fun _ _ =>
    ⟨rfl, rfl, rfl, .inl, .inl rfl, .inl rfl⟩).keeps k) ?_ none
  intro d hd
  obtain ⟨x, hx, rfl⟩ := Option.map_eq_some_iff.1 hd
  have hx : s.inflight = some x := hx
  rw [hc] at hx; cases hx; exact ha

/-- An opening for the command in flight goes on from `r`, in which every command in flight appends. -/
theorem tables_openingNext {r : State × OpenNext} (h : tablesLawful r.1) (ha : appending r.1) (c : Ctx) (o : Opening) :
    tablesLawful (openingNext r c o) := by
  unfold openingNext
  split
  · exact (limits_setStage _ _ (by simp) fun d hd _ => .inr (ha d hd)).keeps h
  split
  · exact (limits_completeFail _ _).keeps h
  split
  · exact (limits_loseBatch _).keeps h
  split
  · exact h
  split
  · exact tables_assign h ha _
  · exact tables_admitCommand h ha _
  · exact ((limits_modCtx _ Ctx.openFailed fun _ _ => ⟨rfl, rfl, rfl, .inl, .inl rfl, .inl rfl⟩).trans
      (limits_completeFail _ _)).keeps h

theorem tables_appendReport {s : State} (h : tablesLawful s) {c : Ctx} (hc : s.inflight = some c) (ha : c.cmd.appends = true)
    (rep : Report) : tablesLawful (appendReport s c rep) := by
  unfold appendReport
  split
  · rename_i o hs
    have k := (limits_openReport s o rep).keeps h
    refine tables_openingNext k (fun d hd => ?_) c o
    obtain ⟨x, hx, hg⟩ := (work_openReport s o rep (within_self s)).stage d hd
    rw [hc] at hx; cases hx
    exact (k.2.2 d hd).1 (by rw [← hg, hs]; trivial)
  · split
    · exact tables_appendDone h hc ha
    · exact tables_appendFault h hc ha
    · exact h

/-! ### The start and the end of a mount -/

theorem limits_mountStart {s : State} (hb : s.batch = none) (hn : noAppend s) : tablesLawful (mountStart s) := by
  unfold mountStart
  refine (limits_issue _ _).keeps ⟨?_, ⟨fun _ => ⟨rfl, .inr ⟨by simp, rfl, by simp [MountUnit.reset], ?_, ?_, ?_⟩⟩, fun h => by
    cases h⟩, noAppend.room hn fun e => by cases e⟩
  · show TableLaw [] [] [] s.batch _ _ 0
    rw [hb]; exact .empty (by simp [volumeMounted])
  · rintro p ⟨e, he, -⟩; cases he
  · rintro r (hr | hr) <;> cases hr
  · intro j hj; cases hj

theorem usable_state (s : State) (m : MountResult) : storeAfterMount s m ≠ .halted := by
  unfold storeAfterMount
  repeat' split
  all_goals simp

/-- A mount ends. With result OK the sequence counter has been set. -/
theorem tables_mountEnd {s : State} (ht : TableLaw s.dir s.freezes s.commits s.batch s.eng.store s.eng.prior s.eng.seqCtr)
    (hb : s.batch = none) (hn : noAppend s) (m : MountResult) (hq : m = .ok → s.eng.seqCtr ≠ 0) :
      tablesLawful (mountEnd s m) := by
  have key : ∀ t : State, TableLaw t.dir t.freezes t.commits t.batch t.eng.store t.eng.prior t.eng.seqCtr → t.holder = .none →
      t.inflight = s.inflight → ∀ r, tablesLawful (tellMounter t r) := by
    intro t k1 k2 k3 r
    have kw : tablesBase t := ⟨k1, by rw [k2]; exact workLaw_none _ _ _ _⟩
    unfold tellMounter
    split
    · split
      · exact tables_complete kw r
      · exact ⟨kw.1, kw.2, noAppend.room (k3 ▸ hn) (by rw [k2]; decide)⟩
    · exact ⟨kw.1, kw.2, noAppend.room (k3 ▸ hn) (by rw [k2]; decide)⟩
  unfold mountEnd
  by_cases hm : m = .ok
  · have : TableLaw s.dir s.freezes s.commits s.batch (storeAfterMount s m) s.eng.prior s.eng.seqCtr :=
      ⟨ht.order, ht.limits, ht.batch, ht.listed, ht.pending, ht.below, fun _ => hq hm, fun _ => hb⟩
    simp only [if_pos hm]
    refine key _ ?_ ?_ ?_ _ <;> split <;> first | exact this | rfl
  · have hs : ¬ volumeMounted (storeAfterMount s m) s.eng.prior := by
      cases m <;> simp [storeAfterMount, volumeMounted] at hm ⊢
    have : TableLaw [] [] [] s.batch (storeAfterMount s m) s.eng.prior 0 := by rw [hb]; exact .empty hs
    simp only [if_neg hm]
    refine key _ ?_ ?_ ?_ _ <;> split <;> first | exact this | rfl

/-! ### A mount under way -/

/-- A mount holds the array in MOUNTING. -/
theorem tablesLawful.mounting {s : State} (h : tablesLawful s) (hh : s.holder = .mount) :
    s.eng.store = .mounting ∧ s.batch = none ∧ noAppend s := by
  have hs := (h.2.1.1 hh).1
  refine ⟨hs, h.1.closed (by simp [volumeMounted, hs]), h.noneAppends (by simp [hs])⟩

/-- A mount that has not set the sequence counter. -/
structure Scanning (s : State) : Prop where
  table : TableLaw s.dir s.freezes s.commits s.batch s.eng.store s.eng.prior s.eng.seqCtr
  holder : s.holder = .mount
  store : s.eng.store = .mounting
  batch : s.batch = none
  room : noAppend s
  counter : s.eng.seqCtr = 0
  highest : s.mu.highest ≠ some 0xFFFFFFFF
  parts : ∀ p, dirHas s.dir p → s.mu.covers p.seq
  records : ∀ r, (r ∈ s.mu.found ∨ r ∈ s.mu.todo) → s.mu.covers r.hdr.seq
  judged : ∀ j, s.mu.judge = some j → s.mu.covers j.record.hdr.seq

theorem tablesLawful.scanning {s : State} (h : tablesLawful s) (hh : s.holder = .mount) (hp : s.mu.phase ≠ .settle) :
    Scanning s := by
  obtain ⟨h1, h2, h3⟩ := h.mounting hh
  obtain ⟨k1, k2, k3, k4, k5⟩ := (((h.2.1.1 hh).2).resolve_left fun k => hp k.1).2
  exact ⟨h.1, hh, h1, h2, h3, k1, k2, k3, k4, k5⟩

theorem Scanning.law {s : State} (h : Scanning s) (hp : s.mu.phase ≠ .settle) : tablesLawful s :=
  ⟨h.table, ⟨fun _ => ⟨h.store, .inr ⟨hp, h.counter, h.highest, h.parts, h.records, h.judged⟩⟩, fun k => by
    rw [h.holder] at k; cases k⟩, noAppend.room h.room (by rw [h.holder]; decide)⟩

/-- The mount unit changes; every header it keeps is covered. -/
theorem Scanning.mu {s : State} (h : Scanning s) (g : MountUnit → MountUnit) (h1 : (g s.mu).highest ≠ some 0xFFFFFFFF)
    (h2 : ∀ q, s.mu.covers q → (g s.mu).covers q) (h3 : ∀ r, (r ∈ (g s.mu).found ∨ r ∈ (g s.mu).todo) → (g s.mu).covers r.hdr.seq)
    (h4 : ∀ j, (g s.mu).judge = some j → (g s.mu).covers j.record.hdr.seq) : Scanning (modMu s g) :=
  ⟨h.table, h.holder, h.store, h.batch, h.room, h.counter, h1, fun p hp => h2 _ (h.parts p hp), h3, h4⟩

/-- Of the mount unit only what the laws do not read changes. -/
theorem Scanning.aside {s : State} (h : Scanning s) (g : MountUnit → MountUnit) (h1 : (g s.mu).highest = s.mu.highest)
    (h2 : (g s.mu).found = s.mu.found) (h3 : (g s.mu).todo = s.mu.todo) (h4 : (g s.mu).judge = s.mu.judge) :
    Scanning (modMu s g) := by
  have hc : ∀ q, s.mu.covers q → (g s.mu).covers q := fun q hq => by unfold MountUnit.covers; rw [h1]; exact hq
  exact h.mu g (h1 ▸ h.highest) hc (fun r hr => hc _ (h.records r (by rw [h2, h3] at hr; exact hr)))
    fun j hj => hc _ (h.judged j (h4 ▸ hj))

theorem Scanning.segments {s t : State} (h : Scanning s) (k : SegOnly s t) : Scanning t := by
  obtain ⟨m, a, rfl⟩ := k
  exact ⟨h.table, h.holder, h.store, h.batch, h.room, h.counter, h.highest, h.parts, h.records, h.judged⟩

theorem Scanning.ends {s : State} (h : Scanning s) (m : MountResult) (hm : m ≠ .ok) : tablesLawful (mountEnd s m) :=
  tables_mountEnd h.table h.batch h.room m fun e => absurd e hm

theorem Scanning.issue {s : State} (h : Scanning s) (hp : s.mu.phase ≠ .settle) (op : SeqOp) :
    tablesLawful (Machine.issue s op) := (limits_issue s op).keeps (h.law hp)

/-- The mount goes on with its DIRTY segments, its counter set. -/
theorem tables_settleNext {s : State} (ht : TableLaw s.dir s.freezes s.commits s.batch s.eng.store s.eng.prior s.eng.seqCtr)
    (hh : s.holder = .mount) (hs : s.eng.store = .mounting) (hb : s.batch = none) (hn : noAppend s) (hq : s.eng.seqCtr ≠ 0) :
    tablesLawful (settleNext s) := by
  unfold settleNext
  split
  · exact (limits_prepIssue _ _ _ _).keeps ⟨ht, ⟨fun _ => ⟨hs, .inl ⟨rfl, hq⟩⟩, fun k => by
      rw [show (modMu s _).holder = s.holder from rfl, hh] at k; cases k⟩,
      noAppend.room hn (by rw [show (modMu s _).holder = s.holder from rfl, hh]; decide)⟩
  · exact tables_mountEnd (s := modMu s _) ht hb hn .ok fun _ => hq

theorem tables_settleReport {s : State} (h : tablesLawful s) (hh : s.holder = .mount) (hp : s.mu.phase = .settle) (rep : Report) :
    tablesLawful (settleReport s rep) := by
  unfold settleReport
  split
  · exact h
  · rename_i n p _
    have k := (limits_prepReport s n p s.mu.foundVid rep).keeps h
    have w := work_prepReport s n p s.mu.foundVid rep (within_self s)
    have hh' : (prepReport s n p s.mu.foundVid rep).1.holder = .mount := by
      rcases w.holder with e | ⟨e, -⟩
      · exact e.trans hh
      · exact absurd (hh.symm.trans e) (by decide)
    have hp' : (prepReport s n p s.mu.foundVid rep).1.mu.phase = .settle := w.phase.trans hp
    obtain ⟨h1, h2, h3⟩ := k.mounting hh'
    have hq := ((k.2.1.1 hh').2.resolve_right fun j => j.1 hp').2
    dsimp only
    split
    · refine ⟨k.1, ⟨fun _ => ⟨h1, .inl ⟨hp', hq⟩⟩, fun e => ?_⟩, k.2.2⟩
      rw [show (modMu (prepReport s n p s.mu.foundVid rep).1 _).holder
        = (prepReport s n p s.mu.foundVid rep).1.holder from rfl, hh'] at e
      cases e
    · exact tables_settleNext k.1 hh' h1 h2 h3 hq

/-- The counter is set above the highest sequence found (R165), and so above every part. -/
theorem tables_replayEnd {s : State} (h : Scanning s) : tablesLawful (replayEnd s) := by
  unfold replayEnd account
  have hq : (match s.mu.highest with | some h => h + 1 | none => 1 : Word) ≠ 0 := by
    split
    · rename_i x hx
      exact succ_ne fun e => h.highest (by rw [hx, e]; rfl)
    · decide
  refine tables_settleNext ?_ h.holder h.store h.batch h.room hq
  have hm : ¬ volumeMounted s.eng.store s.eng.prior := by simp [volumeMounted, h.store]
  refine ⟨h.table.order, h.table.limits, h.table.batch, h.table.listed, h.table.pending, .inr ⟨fun p hp => ?_, fun x hx => ?_⟩,
    fun k => absurd k hm, h.table.closed⟩
  · obtain ⟨x, hx, hle⟩ := h.parts p hp
    show p.seq < (match s.mu.highest with | some h => h + 1 | none => 1 : Word)
    rw [hx]
    have hne : x ≠ 0xFFFFFFFF#32 := fun e => h.highest (by rw [hx, e]; rfl)
    have := below_succ hne (.inr (rfl : x = x))
    rw [BitVec.lt_def] at this ⊢
    rw [BitVec.le_def] at hle
    exact Nat.lt_of_le_of_lt hle this
  · have hx : s.batch = some x := hx
    rw [h.batch] at hx; cases hx

theorem tables_replayNext {s : State} (h : Scanning s) (hp : s.mu.phase ≠ .settle) : tablesLawful (replayNext s) := by
  unfold replayNext
  split
  · exact tables_replayEnd h
  · rename_i r rest ht
    refine Scanning.issue (h.mu _ h.highest (fun _ => id) (fun x hx => h.records x ?_) fun j hj => ?_) (by exact hp) _
    · rcases hx with hx | hx
      · exact .inl hx
      · exact .inr (by rw [ht]; exact List.mem_cons_of_mem _ hx)
    · cases hj; exact h.records r (.inr (by rw [ht]; exact List.mem_cons_self ..))

/-- REPLAY applies a record whose sequence is covered, with room for a new entry (R164). -/
theorem Scanning.apply {s : State} (h : Scanning s) (k : Key) (p : Part) (hc : s.mu.covers p.seq)
    (hl : dirLookup s.dir k = none → s.dir.length < 512) : Scanning (applyPart s k p) := by
  have put : Scanning { s with dir := dirPut k (fun e => { e with committed := some p }) s.dir } := by
    refine ⟨h.table.publish k p hl (.inl h.counter), h.holder, h.store, h.batch, h.room, h.counter, h.highest, fun r hr => ?_,
      h.records, h.judged⟩
    obtain ⟨e, he, hr⟩ := hr
    rcases (mem_dirPut k _ s.dir h.table.order.1.1 e).1 he with rfl | ⟨he, -⟩
    · rcases hr with hr | hr
      · cases hr; exact hc
      · cases hd : dirLookup s.dir k with
        | none => rw [hd] at hr; cases hr
        | some y => rw [hd] at hr; exact h.parts r ⟨y, (dirLookup_mem hd).1, .inr hr⟩
    · exact h.parts r ⟨e, he, hr⟩
  unfold applyPart
  split
  · exact put
  · rename_i o ho
    split
    · exact put
    · split
      · obtain ⟨y, hy, hyo⟩ := Option.bind_eq_some_iff.1 ho
        let g : DirEntry → DirEntry := fun e => if e.key = k then { e with committed := some { o with shadowed := true } } else e
        have gk : ∀ e, (g e).key = e.key ∧ (g e).pending = e.pending := by
          intro e; simp only [g]; split <;> exact ⟨rfl, rfl⟩
        have hd : dirMap k (fun e => { e with committed := some { o with shadowed := true } }) s.dir = s.dir.map g := rfl
        have hs : ∀ r, dirHas (s.dir.map g) r → ∃ r', dirHas s.dir r' ∧ r'.seq = r.seq := by
          rintro r ⟨x, hx, hr⟩
          obtain ⟨z, hz, rfl⟩ := List.mem_map.1 hx
          rw [(gk z).2] at hr
          rcases hr with hr | hr
          · simp only [g] at hr
            split at hr
            · cases hr; exact ⟨o, ⟨y, (dirLookup_mem hy).1, .inl hyo⟩, rfl⟩
            · exact ⟨r, ⟨z, hz, .inl hr⟩, rfl⟩
          · exact ⟨r, ⟨z, hz, .inr hr⟩, rfl⟩
        rw [hd]
        refine ⟨h.table.entries (hd ▸ dirOk_map _ _ _ (fun _ => rfl) (fun _ _ => .inl rfl) h.table.order.1) (by simp) hs
          (fun k r => ⟨?_, ?_⟩), h.holder, h.store, h.batch, h.room, h.counter, h.highest, fun r hr => ?_, h.records, h.judged⟩
        · rintro ⟨x, hx, h1, h2⟩
          obtain ⟨z, hz, rfl⟩ := List.mem_map.1 hx
          exact ⟨z, hz, (gk z).1 ▸ h1, (gk z).2 ▸ h2⟩
        · rintro ⟨z, hz, h1, h2⟩
          exact ⟨g z, List.mem_map_of_mem hz, (gk z).1.trans h1, (gk z).2.trans h2⟩
        · obtain ⟨r', hr', e⟩ := hs r hr
          rw [← e]; exact h.parts r' hr'
      · exact h

theorem applyPart_mu (s : State) (k : Key) (p : Part) : (applyPart s k p).mu = s.mu := by
  unfold applyPart; repeat' split
  all_goals rfl

theorem tables_replayReport {s : State} (h : Scanning s) (hp : s.mu.phase ≠ .settle) (l : Line) :
    tablesLawful (replayReport s l) := by
  unfold replayReport
  cases hj : s.mu.judge with
  | none => exact h.law hp
  | some j =>
    dsimp only
    split
    · refine Scanning.issue (h.mu _ h.highest (fun _ => id) h.records fun x hx => ?_) (by exact hp) _
      cases hx; exact h.judged j hj
    · have k : Scanning (modMu s fun m => { m with judge := none }) :=
        h.mu _ h.highest (fun _ => id) h.records fun x hx => by cases hx
      unfold replayJudged
      split
      · split
        · exact k.ends _ (by decide)
        · rename_i hf
          refine tables_replayNext (k.apply _ _ (h.judged j hj) fun hn => ?_) (by rw [applyPart_mu]; exact hp)
          simpa [hn] using hf
      · exact tables_replayNext k hp

/-! ### COLLECT and SURVEY -/

theorem tables_collectEnd {s : State} (h : Scanning s) : tablesLawful (collectEnd s) := by
  unfold collectEnd
  exact tables_replayNext (h.mu _ h.highest (fun _ => id) (fun r hr => h.records r (.inl (hr.elim id id))) h.judged) (by
    simp [modMu])

theorem tables_scanAt {s : State} (h : Scanning s) (hp : s.mu.phase ≠ .settle) (l : Loc) : tablesLawful (scanAt s l) := by
  unfold scanAt
  exact (h.aside (fun m => { m with scan := some l }) rfl rfl rfl rfl).issue hp _

theorem tables_scanSegmentEnd {s : State} (h : Scanning s) (hp : s.mu.phase ≠ .settle) (n wp : Nat) (stop : Bool) :
    tablesLawful (scanSegmentEnd s n wp stop) := by
  have k := h.segments (segOnly_journalUpd s n fun j => { j with wp := wp })
  have kp : (journalUpd s n fun j => { j with wp := wp }).mu = s.mu := by
    obtain ⟨m, a, e⟩ := segOnly_journalUpd s n fun j => { j with wp := wp }
    rw [e]
  have k2 : ∀ t : State, Scanning t → t.mu.phase ≠ .settle →
      tablesLawful (match nextJournal t n with | some k => scanAt t ⟨k, 2⟩ | none => collectEnd t) := by
    intro t ht htp
    split
    · exact tables_scanAt ht htp _
    · exact tables_collectEnd ht
  unfold scanSegmentEnd
  refine k2 _ ?_ ?_
  · split
    · exact k.aside (fun m => { m with stopped := m.stopped ++ [n] }) rfl rfl rfl rfl
    · exact k
  · split
    · show (journalUpd s n fun j => { j with wp := wp }).mu.phase ≠ .settle
      rw [kp]; exact hp
    · rw [kp]; exact hp

theorem tables_scanAdvance {s : State} (h : Scanning s) (hp : s.mu.phase ≠ .settle) (l : Loc) (e : Nat) :
    tablesLawful (scanAdvance s l e) := by
  unfold scanAdvance
  split
  · exact tables_scanAt h hp _
  · exact tables_scanSegmentEnd h hp _ _ _

theorem covers_raised (m : MountUnit) (q : Word) : (raiseHighest m q).covers q
    ∧ ∀ x, m.covers x → (raiseHighest m q).covers x := by
  unfold MountUnit.covers raiseHighest
  cases hm : m.highest with
  | none => exact ⟨⟨q, rfl, BitVec.le_refl _⟩, fun x hx => by obtain ⟨_, e, _⟩ := hx; cases e⟩
  | some y =>
    dsimp only
    split
    · rename_i hlt
      refine ⟨⟨q, rfl, BitVec.le_refl _⟩, fun x hx => ?_⟩
      obtain ⟨_, e, hle⟩ := hx; cases e
      exact ⟨q, rfl, BitVec.le_trans hle (BitVec.le_of_lt hlt)⟩
    · rename_i hlt
      exact ⟨⟨y, rfl, BitVec.not_lt.1 hlt⟩, fun x hx => hx⟩

theorem tables_scanHeader {s : State} (h : Scanning s) (hp : s.mu.phase ≠ .settle) (l : Loc) (c : Line) :
    tablesLawful (scanHeader s l c) := by
  unfold scanHeader
  split
  · split
    · exact tables_scanSegmentEnd h hp _ _ _
    · exact tables_scanSegmentEnd h hp _ _ _
  · rename_i hd _
    split
    · rename_i hs
      obtain ⟨c1, c2⟩ := covers_raised s.mu hd.seq
      have hne : hd.seq ≠ 0xFFFFFFFF#32 := by
        simp only [scannable, Bool.and_eq_true, bne_iff_ne, ne_eq] at hs; exact hs.2
      have hh : (raiseHighest s.mu hd.seq).highest ≠ some 0xFFFFFFFF := by
        unfold raiseHighest
        cases hm : s.mu.highest with
        | none => simpa using hne
        | some y =>
          dsimp only
          split
          · simpa using hne
          · rw [← hm]; exact h.highest
      have k : Scanning (modMu s fun m => raiseHighest m hd.seq) :=
        h.mu _ hh c2 (fun r hr => c2 _ (h.records r hr)) fun j hj => c2 _ (h.judged j hj)
      dsimp only
      split
      · refine Scanning.issue (k.mu _ hh (fun _ => id) k.records fun j hj => ?_) (by exact hp) _
        cases hj; exact c1
      · refine tables_scanAdvance (k.mu _ hh (fun _ => id) (fun r hr => ?_) k.judged) (by exact hp) _ _
        rcases hr with hr | hr
        · rcases List.mem_append.1 hr with hr | hr
          · exact k.records r (.inl hr)
          · cases List.mem_singleton.1 hr; exact c1
        · exact k.records r (.inr hr)
    · exact tables_scanSegmentEnd h hp _ _ _

theorem tables_collectReport {s : State} (h : Scanning s) (hp : s.mu.phase ≠ .settle) (l : Line) :
    tablesLawful (collectReport s l) := by
  unfold collectReport
  cases hj : s.mu.judge with
  | none =>
    dsimp only
    split
    · exact tables_scanHeader h hp _ _
    · exact h.law hp
  | some j =>
    dsimp only
    split
    · refine Scanning.issue (h.mu _ h.highest (fun _ => id) h.records fun x hx => ?_) (by exact hp) _
      cases hx; exact h.judged j hj
    · have k : Scanning (modMu s fun m => { m with judge := none }) :=
        h.mu _ h.highest (fun _ => id) h.records fun x hx => by cases hx
      unfold collectJudged
      dsimp only
      split
      · split
        · split
          · exact k.ends _ (by decide)
          · rename_i hf
            generalize hb : word32At _ 0 = bid at hf ⊢
            unfold enterCommit
            refine tables_scanAdvance (Scanning.aside (s := { modMu s _ with commits := _ })
              ⟨k.table.commits (commitOk_insert _ _ k.table.order.2.2) ?_ (.inl k.batch), k.holder, k.store, k.batch, k.room,
                k.counter, k.highest, k.parts, k.records, k.judged⟩ _ rfl rfl rfl rfl) (by exact hp) _ _
            obtain ⟨l1, l2⟩ := commitInsert_length ⟨bid, j.record.loc⟩ s.commits
            have hf : ¬ ((!s.commits.any fun c => c.bid == bid) && decide (64 ≤ s.commits.length)) = true := hf
            cases ha : (s.commits.any fun c => c.bid == bid) with
            | true => exact (l2 ha k.table.order.2.2).trans_le k.table.limits.2.2
            | false => rw [ha] at hf; simp at hf; exact Nat.le_trans l1 hf
        · split
          · exact k.ends _ (by decide)
          · rename_i hf
            refine tables_scanAdvance (s := { modMu s _ with freezes := _ })
              ⟨k.table.freeze (freezeOk_insert _ _ k.table.order.2.1) ?_, k.holder, k.store, k.batch, k.room,
                k.counter, k.highest, k.parts, k.records, k.judged⟩ (by exact hp) _ _
            generalize word16At _ 0 = lo at hf ⊢
            generalize word16At _ 2 = hi at hf ⊢
            obtain ⟨l1, l2⟩ := freezeInsert_length ⟨lo, hi, j.record.loc⟩ s.freezes
            have hf : ¬ ((!hasRange s.freezes lo hi) && decide (4 ≤ s.freezes.length)) = true := hf
            cases ha : hasRange s.freezes lo hi with
            | true => exact (l2 ha k.table.order.2.1).trans_le k.table.limits.2.1
            | false => rw [ha] at hf; simp at hf; exact Nat.le_trans l1 hf
      · exact tables_scanAdvance k hp _ _

theorem tables_surveyNext {s : State} (h : Scanning s) (hp : s.mu.phase ≠ .settle) (n : Nat) : tablesLawful (surveyNext s n) := by
  unfold surveyNext
  split
  · exact h.issue hp _
  · unfold surveyVerdict
    dsimp only
    repeat' split
    · exact h.ends _ (by decide)
    · exact h.ends _ (by decide)
    · exact h.ends _ (by decide)
    · refine tables_scanAt ?_ ?_ _
      · refine Scanning.aside (s := { s with sm := _ }) ?_ _ rfl rfl rfl rfl
        exact ⟨h.table, h.holder, h.store, h.batch, h.room, h.counter, h.highest, h.parts, h.records, h.judged⟩
      · simp [modMu]
    · exact h.ends _ (by decide)

theorem tables_surveyReport {s : State} (h : Scanning s) (hp : s.mu.phase ≠ .settle) (loc : Loc) (l : Line) :
    tablesLawful (surveyReport s loc l) := by
  have add : ∀ {t : State} n st ec b, Scanning t → Scanning (addEntry t n st ec b) := fun n st ec b k =>
    k.segments ⟨_, _, rfl⟩
  have hv : ∀ (m : MountUnit) v, (noteVid m v).phase = m.phase ∧ (noteVid m v).highest = m.highest
      ∧ (noteVid m v).found = m.found ∧ (noteVid m v).todo = m.todo ∧ (noteVid m v).judge = m.judge := by
    intro m v; unfold noteVid; repeat' split
    all_goals exact ⟨rfl, rfl, rfl, rfl, rfl⟩
  unfold surveyReport
  split
  · unfold surveyLine0
    split
    · exact tables_surveyNext (add _ _ _ _ h) hp _
    · exact tables_surveyNext (add _ _ _ _ h) hp _
    · exact tables_surveyNext (h.aside _ rfl rfl rfl rfl) (by exact hp) _
    · exact tables_surveyNext (add _ _ _ _ h) hp _
    · rename_i vid ec _
      obtain ⟨v1, v2, v3, v4, v5⟩ := hv s.mu vid
      exact (h.aside (fun m => { noteVid m vid with line0 := some (vid, ec) }) v2 v3 v4 v5).issue
        (by simp only [modMu, v1]; exact hp) _
  · unfold surveyLine1
    split
    · exact h.law hp
    · exact tables_surveyNext ((add _ _ _ _ h).aside _ rfl rfl rfl rfl) (by exact hp) _

theorem tables_mountReport {s : State} (h : tablesLawful s) (hh : s.holder = .mount) (loc : Loc) (rep : Report) :
    tablesLawful (mountReport s loc rep) := by
  unfold mountReport
  split
  · rename_i hp
    have hp : s.mu.phase ≠ .settle := by rw [hp]; decide
    exact tables_surveyReport (h.scanning hh hp) hp _ _
  · rename_i hp
    have hp : s.mu.phase ≠ .settle := by rw [hp]; decide
    exact tables_collectReport (h.scanning hh hp) hp _
  · rename_i hp
    have hp : s.mu.phase ≠ .settle := by rw [hp]; decide
    exact tables_replayReport (h.scanning hh hp) hp _
  · rename_i hp
    exact tables_settleReport h hh hp _
  · exact h

end Sys2Proof.Machine
end

