-- ==== Sys2Proof/Laws/CapacityRun.lean ====
section
/-! SUPPORT. The laws of the tables through FORMAT, the halt, the reports, the grants, the resets and the host's writes: one lemma
per operation. -/

namespace Sys2Proof.Machine

/-! ### FORMAT -/

/-- A FORMAT keeps the array. -/
theorem formatting_stays {s t : State} (w : Stays s t) (hh : s.holder = .format) : t.holder = .format := by
  rcases w.holder with e | ⟨e, -⟩
  · exact e.trans hh
  · exact absurd (hh.symm.trans e) (by decide)

theorem tables_formatEnd {s : State} (h : tablesLawful s) (hh : s.holder = .format) : tablesLawful (formatEnd s) := by
  obtain ⟨hs, hd⟩ := h.2.1.2 hh
  have hb : s.batch = none := h.1.closed (by simp [volumeMounted, hs])
  have key : ∀ st, TableLaw s.dir s.freezes s.commits s.batch st s.eng.prior 1 := fun st => by
    refine ⟨h.1.order, h.1.limits, h.1.batch, h.1.listed, h.1.pending, .inr ⟨fun p hp => ?_, fun x hx => ?_⟩, fun _ => by decide,
      fun _ => hb⟩
    · obtain ⟨e, he, -⟩ := hp; rw [hd] at he; cases he
    · rw [hb] at hx; cases hx
  unfold formatEnd
  refine tables_complete ?_ _
  split
  · exact ⟨key _, workLaw_none _ _ _ _⟩
  · exact ⟨key _, workLaw_none _ _ _ _⟩

theorem tables_step1Next {s : State} (h : tablesLawful s) (hh : s.holder = .format) (f : FormatCtx) :
    tablesLawful (step1Next s f) := by
  unfold step1Next
  split
  · exact tables_formatEnd h hh
  · exact (limits_issue _ _).keeps (s := setFu s _) h

theorem tables_step2Next {s : State} (h : tablesLawful s) (hh : s.holder = .format) (f : FormatCtx) :
    tablesLawful (step2Next s f) := by
  unfold step2Next
  split
  · exact tables_formatEnd h hh
  · exact (limits_issue _ _).keeps (s := setFu s _) h

theorem tables_formatRetired {s : State} (h : tablesLawful s) (hh : s.holder = .format) (f : FormatCtx) (n : Nat) (first : Bool) :
    tablesLawful (formatRetired s f n first) := by
  have k := (limits_retireSegment s n).keeps h
  have hk := formatting_stays (work_retireSegment s n (within_self s)) hh
  unfold formatRetired
  split
  · exact tables_step1Next k hk _
  · exact tables_step2Next k hk _

theorem tables_formatReport {s : State} (h : tablesLawful s) (hh : s.holder = .format) (f : FormatCtx) (rep : Report) :
    tablesLawful (formatReport s f rep) := by
  have stage : ∀ {t : State} n first p, tablesLawful t → tablesLawful (formatStage t f n first p) := fun n first p k =>
    (limits_prepIssue _ _ _ _).keeps (s := setFu _ _) k
  have seg : ∀ n first p, tablesLawful (formatSegment s f n first p rep) := by
    intro n first p
    unfold formatSegment
    split
    · exact stage _ _ _ ((limits_eraseEnded s n).keeps h)
    · exact stage _ _ _ ((limits_eraseEnded s n).keeps h)
    · unfold formatPrepared
      split
      · exact (limits_issue _ _).keeps (s := setFu (markKnown s n) _) ((limits_segUpd s n _).keeps h)
      · exact tables_step2Next ((limits_segmentPrepared s n).keeps h)
          (formatting_stays (work_segmentPrepared s n (within_self s)) hh) _
    · exact stage _ _ _ ((limits_countFault s n).keeps h)
    · split
      · exact stage _ _ _ h
      · exact tables_formatRetired h hh _ _ _
    · exact tables_formatRetired ((limits_segUpd s n _).keeps h) (formatting_stays (work_segUpd s n _ (within_self s)) hh) _ _ _
    · exact tables_formatRetired ((limits_countFault s n).keeps h)
        (formatting_stays (work_countFault s n (within_self s)) hh) _ _ _
    · exact h
  unfold formatReport
  split
  · exact h
  · exact seg _ _ _
  · exact seg _ _ _
  · rename_i n _
    split
    · unfold step1Opened
      exact tables_step2Next ((limits_setSegState { s with sm.nextEpoch := 2 } n _).keeps h)
        (formatting_stays (work_setSegState { s with sm.nextEpoch := 2 } n _ (within_self s)) hh) _
    · exact stage _ _ _ ((limits_countFault s n).keeps h)
    · exact h

theorem tables_formatEnter {s : State} (hn : ∀ c, s.inflight = some c → c.cmd.appends = false) (f : FormatCtx) (m : Bool) :
    tablesLawful (formatEnter s f m) := by
  have hb : (teardown s false).batch = none ∧ (teardown s false).inflight = s.inflight := by
    rcases teardown_changes s false with ⟨e1, e2⟩ | ⟨m, a, e⟩
    · rw [e2]; exact ⟨e1, rfl⟩
    · rw [e]; exact ⟨rfl, rfl⟩
  unfold formatEnter
  refine tables_step1Next ⟨?_, ⟨fun e => Holder.noConfusion e, fun _ => ⟨rfl, rfl⟩⟩, fun c hc => ?_⟩ rfl _
  · show TableLaw [] [] [] (teardown s false).batch .formatting _ 0
    rw [hb.1]
    exact .empty (by simp [volumeMounted])
  · obtain ⟨x, hx, rfl⟩ : ∃ x, (teardown s false).inflight = some x ∧ { x with stage := .format } = c :=
      Option.map_eq_some_iff.1 hc
    rw [hb.2] at hx
    refine ⟨fun hp => False.elim hp, fun ha => ?_⟩
    have := hn x hx
    rw [show x.cmd.appends = true from ha] at this; cases this

theorem tables_formatCheckReport {s : State} (h : tablesLawful s) {c : Ctx} (hc : s.inflight = some c) (hg : c.stage = .format)
    (f : FormatCtx) (n : Nat) (l : Line) : tablesLawful (formatCheckReport s f n l) := by
  have hn : ∀ d, s.inflight = some d → d.cmd.appends = false := fun d hd => by
    rw [hc] at hd; cases hd
    by_contra hb
    exact ((h.2.2 c hc).2 (by simpa using hb)).2.1 hg
  unfold formatCheckReport
  dsimp only
  split
  · exact (limits_issue _ _).keeps (s := setFu s _) h
  · repeat' split
    all_goals first
      | exact (limits_completeFail _ _).keeps (s := { s with fu := none }) h
      | exact tables_formatEnter hn _ _

/-! ### The entry to HALTED -/

@[simp] theorem limits_haltEnd (s : State) (c : Ctx) : LimitsKept s (haltEnd s c) := by
  unfold haltEnd
  repeat' split
  · exact limits_completeFail _ _
  · exact limits_loseBatch _
  · exact limits_completeFail _ _

theorem loseBatch_ended (s : State) : (loseBatch s).inflight = none := by
  unfold loseBatch
  split
  · assumption
  · exact completeFail_ended _ _

theorem haltEnd_ended (s : State) (c : Ctx) : (haltEnd s c).inflight = none := by
  unfold haltEnd
  repeat' split
  · exact completeFail_ended _ _
  · exact loseBatch_ended _
  · exact completeFail_ended _ _

@[simp] theorem limits_haltCommand (s : State) : LimitsKept s (haltCommand s) := by
  unfold haltCommand
  split
  · exact .refl _
  · split
    · exact (limits_abandonRecord s).trans (limits_haltEnd _ _)
    · exact (limits_abandonRecord s).trans (limits_haltEnd _ _)
    · exact (limits_abandonRecord s).trans (limits_haltEnd _ _)
    · exact limits_complete _ _
    · exact limits_reclaimStopped _ _
    · exact limits_haltEnd _ _

theorem haltCommand_ended (s : State) : (haltCommand s).inflight = none := by
  unfold haltCommand
  split
  · assumption
  · split
    · exact haltEnd_ended _ _
    · exact haltEnd_ended _ _
    · exact haltEnd_ended _ _
    · exact complete_ended _ _
    · unfold reclaimStopped; split
      · exact complete_ended _ _
      · exact completeFail_ended _ _
    · exact haltEnd_ended _ _

@[simp] theorem limits_haltReclaim (s : State) : LimitsKept s (haltReclaim s) := by
  unfold haltReclaim
  repeat' split
  · exact .refl _
  · exact .refl _
  · exact (limits_accountDead s _ _).trans (limits_releaseStep _)
  · exact limits_releaseStep _

theorem tables_haltEntry {s : State} (h : tablesBase s) (hs : s.eng.store ≠ .halted) : tablesLawful (haltEntry s) := by
  let s1 : State := raise { s with eng.prior := some s.eng.store, eng.store := .halted } .halt
  have k1 : TableLaw s1.dir s1.freezes s1.commits s1.batch s1.eng.store s1.eng.prior s1.eng.seqCtr :=
    h.1.state (st' := .halted) (p' := some s.eng.store) (by simp [volumeMounted, hs])
  have k2 := ((limits_haltCommand s1).trans (limits_haltReclaim _)).1 k1
  let s3 : State := { haltReclaim (haltCommand s1) with holder := .none, fu := none }
  have k3 : tablesLawful s3 := ⟨k2, workLaw_none _ _ _ _, room_ended (by
    show (haltReclaim (haltCommand s1)).inflight = none
    rw [(haltReclaim_eng _).2.1]; exact haltCommand_ended s1)⟩
  exact (((limits_flushQueue s3).trans (limits_answerBothWaiting _ _)).trans (limits_syncIdle _)).keeps k3

theorem tables_haltIfDue {s : State} (h : tablesLawful s) : tablesLawful (haltIfDue s) := by
  unfold haltIfDue
  split
  · rename_i hc
    simp only [Bool.and_eq_true, bne_iff_ne, ne_eq] at hc
    exact tables_haltEntry h.base hc.2
  · exact h

/-! ### Reports -/

theorem tables_commandReport {s : State} (h : tablesLawful s) (hh : s.holder = .command) (loc : Loc) (rep : Report) :
    tablesLawful (commandReport s loc rep) := by
  unfold commandReport
  split
  · exact h
  · rename_i c hc
    split
    · exact (limits_getReport s c _ _).keeps h
    · exact (limits_listReport s c _ _ _).keeps h
    · rename_i hg _
      split
      · exact tables_formatCheckReport h hc (by assumption) _ _ _
      · exact h
    · exact h
    · exact h
    · rename_i h1 h2 h3 h4 h5
      refine tables_appendReport h hc ((h.2.2 c hc).1 ?_) _
      rw [hh]
      cases hg : c.stage <;> trivial

theorem tables_deliver {s : State} (h : tablesLawful s) (loc : Loc) (rep : Report) : tablesLawful (deliver s loc rep) := by
  unfold deliver
  apply tables_haltIfDue
  unfold onReport
  split
  · exact h
  · exact tables_commandReport h ‹_› loc rep
  · split
    · exact (limits_reclaimReport s _ rep).keeps h
    · exact h
  · exact tables_mountReport h ‹_› loc rep
  · split
    · exact tables_formatReport h ‹_› _ rep
    · exact h

theorem tables_settleRefused (n : Nat) {s : State} (h : tablesLawful s) : tablesLawful (settleRefused n s) := by
  induction n generalizing s with
  | zero => exact h
  | succ n ih =>
    unfold settleRefused
    split
    · split
      · exact h
      · exact ih (tables_deliver (s := { s with seqr := none }) h _ _)
    · exact h

/-! ### Resets, the end of a halt and the end of an operation -/

theorem tables_clearVolatile (s : State) : tablesLawful (clearVolatile s) :=
  ⟨.empty (by simp [volumeMounted, clearVolatile, Engine.reset]), workLaw_none _ _ _ _, roomLaw_none _ _ _ _ _ _⟩

theorem tables_leaveReset {s : State} (h : tablesLawful s) (hb : s.batch = none) (hi : s.inflight = none) :
    tablesLawful (leaveReset s) := by
  have hn : noAppend s := fun c hc => by rw [hi] at hc; cases hc
  unfold leaveReset; dsimp only
  apply tables_haltIfDue
  by_cases hp : s.pins.pfwLow = true
  · simp only [if_pos hp]
    split
    · exact limits_mountStart hb hn
    · exact h
  · simp only [if_neg hp]
    split
    · exact limits_mountStart hb hn
    · exact h

theorem tables_softReset (s : State) : tablesLawful (softReset s) := tables_leaveReset (tables_clearVolatile s) rfl rfl

theorem tables_opEnds {s : State} (h : tablesLawful s) (loc : Loc) (rep : Report) : tablesLawful (opEnds s loc rep) := by
  unfold opEnds; dsimp only
  split
  · exact tables_softReset _
  · exact tables_settleRefused 8 (tables_deliver (s := { s with seqr := none }) h loc rep)

theorem tables_leaveHalted {s : State} (h : tablesLawful s) (hs : s.eng.store = .halted) : tablesLawful (leaveHalted s) := by
  have hn := h.noneAppends (by simp [hs])
  have start : ∀ p, s.eng.prior = some p → p ≠ .ready → p ≠ .readOnly → tablesLawful (mountStart { s with eng.prior := none }) :=
    fun p hp h1 h2 => limits_mountStart (h.1.closed (by simp [volumeMounted, hs, hp, h1, h2])) hn
  unfold leaveHalted
  split
  · exact start _ ‹_› (by decide) (by decide)
  · exact start _ ‹_› (by decide) (by decide)
  · rename_i st _ _ hp
    have hw : s.holder ≠ .mount ∧ s.holder ≠ .format :=
      ⟨fun e => (by rw [(h.2.1.1 e).1] at hs; cases hs), fun e => (by rw [(h.2.1.2 e).1] at hs; cases hs)⟩
    refine ⟨h.1.state (by rw [hp, hs]; cases st <;> simp [volumeMounted]), .idle hw, fun c hc => ⟨(h.2.2 c hc).1, fun ha => ?_⟩⟩
    rw [(hn c hc).2] at ha; cases ha
  · exact h

theorem tables_recoveryExpires {s : State} (h : tablesLawful s) : tablesLawful (recoveryExpires s) := by
  unfold recoveryExpires
  split
  · dsimp only
    split
    · rename_i hs
      exact tables_leaveHalted (s := { s with eng.haltReq := false, eng.recovery := false }) h hs
    · exact h
  · exact h

theorem tables_powerWarning {s : State} (h : tablesLawful s) : tablesLawful (powerWarning s) :=
  tables_haltIfDue (s := { s with pins.pfwLow := true, eng.haltReq := true, eng.recovery := false }) h

theorem tables_powerOn (s : State) (amount : Bool) (madr : BitVec 2) : tablesLawful (powerOn s amount madr) := by
  have h : tablesLawful (latchStraps (resetBegins s) amount madr) := tables_clearVolatile (interrupt s)
  unfold powerOn; dsimp only
  split
  · exact h
  · exact tables_leaveReset h rfl rfl

theorem tables_resetPinLow {s : State} (h : tablesLawful s) : tablesLawful (resetPinLow s) := by
  unfold resetPinLow
  split
  · exact h
  · exact tables_clearVolatile _

theorem tables_resetPinHigh {s : State} (h : tablesLawful s) (hb : s.pins.resetLow = true → s.batch = none ∧ s.inflight = none)
    (amount : Bool) (madr : BitVec 2) : tablesLawful (resetPinHigh s amount madr) := by
  unfold resetPinHigh
  split
  · rename_i hl
    exact tables_leaveReset (s := latchStraps { s with pins.resetLow := false } amount madr) h (hb hl).1 (hb hl).2
  · exact h

/-! ### Grants -/

/-- A command that has been granted (R77). -/
structure Granted (s : State) (c : Ctx) : Prop where
  base : tablesBase s
  inflight : s.inflight = some c
  fresh : ∃ o cmd, c = newCtx o cmd
  holder : s.holder = .none
  state : s.eng.store = .ready ∨ s.eng.store = .readOnly ∨ s.eng.store = .unmounted ∨ s.eng.store = .failed

theorem Granted.only {s : State} {c : Ctx} (h : Granted s c) : ∀ d, s.inflight = some d → d = c := fun d hd => by
  rw [h.inflight] at hd; cases hd; rfl

/-- The room of an appending command that has passed its checks. -/
theorem tables_checkThenAppend {s : State} {c : Ctx} (h : Granted s c) (ha : c.cmd.appends = true) (hs : s.eng.store = .ready)
    (hw : ∀ k, c.cmd.writes = some k → (dirLookup s.dir k = none → s.dir.length < 512) ∧ (c.cmd.isMember = true →
      ∃ x, s.batch = some x ∧ x.owner = c.origin.port ∧ x.members.length < 8 ∧ k ∉ x.members.map Member.key))
    (hf : ∀ lo hi, c.cmd = .freeze lo hi → s.freezes.length < 4) : tablesLawful (checkThenAppend s) := by
  unfold checkThenAppend
  split
  · exact tables_completeFail ((limits_enterReadOnly s).base h.base) _
  · rename_i hq
    have hq : s.eng.seqCtr ≠ 0xFFFFFFFF := by simpa [seqExhausted] using hq
    refine tables_admitCommand ⟨h.base.1, h.base.2, fun d hd => ?_⟩ (fun d hd => h.only d hd ▸ ha) none
    cases h.only d hd
    obtain ⟨o, cmd, rfl⟩ := h.fresh
    exact ⟨fun _ => ha, fun _ => ⟨.inl hs, by simp [newCtx], fun _ => hq, by simp [newCtx], fun k hk =>
      ⟨(hw k hk).1, fun hm _ => (hw k hk).2 hm⟩, hf⟩⟩

theorem tables_startWrite {s : State} {c : Ctx} (h : Granted s c) (hs : s.eng.store = .ready) (key : Key) (m del : Bool)
    (hc : c.cmd.appends = true ∧ c.cmd.writes = some key ∧ c.cmd.isMember = m) :
    tablesLawful (startWrite s c.origin.port key m del) := by
  obtain ⟨ha, hk, hm⟩ := hc
  unfold startWrite
  split
  · exact tables_completeFail h.base _
  · rename_i hck
    unfold writeCheck at hck
    rw [if_neg (by rintro hx; rw [if_pos hx] at hck; cases hck)] at hck
    have hheld : isHeld s key = false := by
      by_contra hb; rw [if_pos (by simpa using hb)] at hck; cases hck
    rw [if_neg (by simp [hheld])] at hck
    have ho := h.base.1.order.1.1
    refine tables_checkThenAppend h ha hs (fun k hk' => ?_) fun lo hi hf => ?_
    · rw [hk] at hk'; cases hk'
      refine ⟨fun hn => ?_, fun hmem => ?_⟩
      · split at hck
        · cases hck
        · cases del with
          | true =>
            have : presentPart s key = none := by simp [presentPart, hn]
            simp [this] at hck
          | false =>
            simp [hn] at hck
            omega
      · rw [hm] at hmem
        subst hmem
        rw [if_pos rfl] at hck
        cases hmc : memberCheck s c.origin.port with
        | some st => rw [hmc] at hck; cases hck
        | none =>
          unfold memberCheck at hmc
          cases hx : s.batch with
          | none => rw [hx] at hmc; cases hmc
          | some x =>
            rw [hx] at hmc
            dsimp only at hmc
            split at hmc
            · cases hmc
            · rename_i hown
              split at hmc
              · cases hmc
              · rename_i hl
                refine ⟨x, rfl, not_not.1 hown, Nat.lt_of_not_le hl, fun hin => ?_⟩
                obtain ⟨e, he, hek⟩ := List.mem_map.1 hin
                obtain ⟨y, hy, r, hr, hrec⟩ := h.base.1.listed x hx e he
                have := dirLookup_of_mem ho hy
                rw [← hrec.1, hek] at this
                simp [isHeld, this, DirEntry.held, hr] at hheld
    · rw [hf] at hk; cases hk

/-- A command in flight that does not append, at a stage at which it places no record. -/
theorem room_quiet {i : Option Ctx} {h : Holder} (k : ∀ c, i = some c → ¬ placesRecord h c.stage ∧ c.cmd.appends = false)
    (d : List DirEntry) (f : List FreezeEntry) (b : Option Batch) (st : StoreState) (q : Word) : RoomLaw d f b st q h i :=
  fun c hc => ⟨fun hp => absurd hp (k c hc).1, fun ha => by rw [(k c hc).2] at ha; cases ha⟩

theorem Granted.law {s : State} {c : Ctx} (h : Granted s c) (ha : c.cmd.appends = false) : tablesLawful s :=
  ⟨h.base.1, h.base.2, room_quiet (fun d hd => by
    cases h.only d hd
    obtain ⟨o, cmd, rfl⟩ := h.fresh
    rw [h.holder]
    exact ⟨by simp [newCtx, placesRecord], ha⟩) _ _ _ _ _⟩

/-- The command begins to read. -/
theorem Granted.reads {s t : State} {c : Ctx} (h : Granted s c) (ha : c.cmd.appends = false) (st : Stage)
    (hst : st = .read ∨ st = .format) (g : ReadJob → ReadJob)
    (ht : t = { setStage (modJob s g) st with holder := .command, fu := t.fu }) : tablesLawful t := by
  rw [ht]
  refine ⟨h.base.1, workLaw_command _ _ _ _, room_quiet (fun d hd => ?_) _ _ _ _ _⟩
  obtain ⟨x, hx, rfl⟩ := Option.map_eq_some_iff.1 hd
  obtain ⟨y, hy, rfl⟩ := Option.map_eq_some_iff.1 hx
  cases h.only y hy
  exact ⟨by rcases hst with rfl | rfl <;> exact id, ha⟩

theorem tables_startGet {s : State} {c : Ctx} (h : Granted s c) (ha : c.cmd.appends = false) (k : Key) :
    tablesLawful (startGet s k) := by
  unfold startGet
  split
  · exact (limits_complete _ _).keeps (h.law ha)
  · split
    · exact (limits_complete _ _).keeps (h.law ha)
    · exact (limits_issue _ _).keeps (h.reads ha .read (.inl rfl) _ rfl)

theorem tables_startList {s : State} {c : Ctx} (h : Granted s c) (ha : c.cmd.appends = false) (k : Key) :
    tablesLawful (startList s k) := by
  unfold startList
  split
  · exact (limits_complete _ _).keeps (h.law ha)
  · exact (limits_listNext _ _ _).keeps (h.reads ha .read (.inl rfl) _ rfl)

theorem tables_startReclaim {s : State} {c : Ctx} (h : Granted s c) (ha : c.cmd.appends = false) :
    tablesLawful (startReclaim s) := by
  have key : ∀ t : State, tablesLawful t → t.holder = .none → tablesLawful (setStage t .reclaim) := fun t k hh =>
    (limits_setStage t .reclaim (by decide) fun c hc hp => by rw [hh] at hp; cases hp).keeps k
  unfold startReclaim
  split
  · exact key s (h.law ha) h.holder
  · split
    · refine key _ ((limits_startVictim s _).keeps (h.law ha)) ?_
      rw [← h.holder]
      unfold startVictim segUpd
      dsimp only
      split <;> rfl
    · exact (limits_complete _ _).keeps (h.law ha)

theorem tables_startBatchOpen {s : State} {c : Ctx} (h : Granted s c) (hs : s.eng.store = .ready) (p : Port) :
    tablesLawful (startBatchOpen s p) := by
  unfold startBatchOpen
  repeat' split
  · exact tables_completeFail h.base _
  · exact tables_completeFail h.base _
  · exact tables_completeFail ((limits_enterReadOnly s).base h.base) _
  · rename_i h1 h2 h3
    have hb : s.batch = none := by simpa using h1
    have ht := h.base.1
    rw [hb] at ht
    refine tables_complete ⟨ht.opens (by simpa [seqExhausted] using h3) (.inl hs) (by omega) p .running, ?_⟩ _
    rw [show (State.holder _) = s.holder from rfl, h.holder]; exact workLaw_none _ _ _ _

theorem tables_startBatchCommit {s : State} {c : Ctx} (h : Granted s c) (hs : s.eng.store = .ready) (hc : c.cmd = .batchCommit)
    (p : Port) : tablesLawful (startBatchCommit s p) := by
  unfold startBatchCommit
  split
  · exact tables_completeFail h.base _
  · rename_i b hb
    split
    · exact tables_completeFail h.base _
    · split
      · rename_i he
        have ht := h.base.1
        rw [hb] at ht
        exact tables_complete (s := { s with batch := none }) ⟨ht.close (by simpa using he), h.base.2⟩ _
      · refine tables_checkThenAppend h (by rw [hc]; rfl) hs (fun k hk => ?_) fun lo hi hf => ?_
        · rw [hc] at hk; cases hk
        · rw [hc] at hf; cases hf

theorem tables_startBatchAbort {s : State} {c : Ctx} (h : Granted s c) (p : Port) : tablesLawful (startBatchAbort s p) := by
  unfold startBatchAbort
  split
  · exact tables_completeFail h.base _
  · split
    · exact tables_completeFail h.base _
    · exact tables_complete ⟨table_teardown s true h.base.1, workLaw_teardown s true h.base.2⟩ _

theorem tables_startFreeze {s : State} {c : Ctx} (h : Granted s c) (hs : s.eng.store = .ready) {lo hi : Key}
    (hc : c.cmd = .freeze lo hi) : tablesLawful (startFreeze s lo hi) := by
  unfold startFreeze
  repeat' split
  · exact tables_complete h.base _
  · exact tables_completeFail h.base _
  · exact tables_completeFail h.base _
  · rename_i h1 h2 h3
    refine tables_checkThenAppend h (by rw [hc]; rfl) hs (fun k hk => ?_) fun _ _ _ => Nat.lt_of_not_le h2
    rw [hc] at hk; cases hk

theorem tables_startMount {s : State} {c : Ctx} (h : Granted s c) (ha : c.cmd.appends = false) : tablesLawful (startMount s) := by
  unfold startMount
  split
  · exact (limits_complete _ _).keeps (h.law ha)
  · rename_i hs
    have hn : s.eng.store ≠ .ready ∧ s.eng.store ≠ .readOnly := by
      constructor <;> intro e <;> exact hs (by simp [serving, e])
    refine limits_mountStart (s := setStage s .mount) ?_ fun d hd => ?_
    · refine h.base.1.closed ?_
      rcases h.state with e | e | e | e
      · exact absurd e hn.1
      · exact absurd e hn.2
      · simp [volumeMounted, e]
      · simp [volumeMounted, e]
    · obtain ⟨x, hx, rfl⟩ := Option.map_eq_some_iff.1 hd
      cases h.only x hx
      exact ⟨by simp [placesRecord], ha⟩

theorem tables_runUnmount {s : State} {c : Ctx} (h : Granted s c) : tablesLawful (runUnmount s) := by
  have hb : (teardown s false).batch = none ∧ (teardown s false).holder = .none := by
    rcases teardown_changes s false with ⟨e1, e2⟩ | ⟨m, a, e⟩
    · rw [e2]; exact ⟨e1, h.holder⟩
    · rw [e]; exact ⟨rfl, h.holder⟩
  unfold runUnmount
  refine tables_complete ⟨?_, ?_⟩ _
  · show TableLaw [] [] [] (teardown s false).batch .unmounted _ 0
    rw [hb.1]; exact .empty (by simp [volumeMounted])
  · show WorkLaw (teardown s false).holder _ _ _ _
    rw [hb.2]; exact workLaw_none _ _ _ _

theorem tables_startFormat {s : State} {c : Ctx} (h : Granted s c) (ha : c.cmd.appends = false) (e n : Word) :
    tablesLawful (startFormat s e n) := by
  unfold startFormat; dsimp only
  split
  · split
    · exact tables_formatEnter (fun d hd => by cases h.only d hd; exact ha) _ _
    · exact (limits_completeFail _ _).keeps (h.law ha)
  · split
    · refine (limits_issue _ _).keeps (h.reads ha .format (.inr rfl) id ?_)
      simp [setStage, modJob, modCtx, setFu]
    · exact (limits_completeFail _ _).keeps (h.law ha)

/-- A command that only a READY store serves passes its state check there alone (R67). -/
theorem stateCheck_ready {st : StoreState} {c : Cmd} (h : stateCheck st c = none) (h1 : stateCheck .readOnly c ≠ none)
    (h2 : stateCheck .unmounted c ≠ none) : st = .ready := by
  cases st
  · exact absurd h h2
  · exact absurd h h2
  · rfl
  · exact absurd h h1
  · exact absurd h h2
  · exact absurd h h2
  · exact absurd h h2

theorem tables_runCommand {s : State} {c : Ctx} (h : Granted s c) (hk : stateCheck s.eng.store c.cmd = none) :
    tablesLawful (runCommand s c.origin.port c.cmd) := by
  unfold runCommand
  split <;> rename_i hc <;> rw [hc] at hk
  · exact tables_startWrite h (stateCheck_ready hk nofun nofun) _ _ _ (by rw [hc]; exact ⟨rfl, rfl, rfl⟩)
  · exact tables_startWrite h (stateCheck_ready hk nofun nofun) _ _ _ (by rw [hc]; exact ⟨rfl, rfl, rfl⟩)
  · exact tables_startGet h (by rw [hc]; rfl) _
  · exact (limits_complete _ _).keeps (h.law (by rw [hc]; rfl))
  · exact tables_startList h (by rw [hc]; rfl) _
  · exact tables_startBatchOpen h (stateCheck_ready hk nofun nofun) _
  · exact tables_startBatchCommit h (stateCheck_ready hk nofun nofun) hc _
  · exact tables_startBatchAbort h _
  · exact tables_startFreeze h (stateCheck_ready hk nofun nofun) hc
  · exact tables_startMount h (by rw [hc]; rfl)
  · exact tables_runUnmount h
  · exact tables_startFormat h (by rw [hc]; rfl) _ _
  · exact tables_startReclaim h (by rw [hc]; rfl)

theorem tables_execute {s : State} {c : Ctx} (h : Granted s c) : tablesLawful (execute s c) := by
  unfold execute
  split
  · exact tables_completeFail h.base _
  · exact tables_runCommand h (by assumption)

/-- The head that is chosen is in flight, fresh; nothing else of the engine changes but the run count. -/
theorem granted_chooseHead {s : State} (h : tablesLawful s) (hi : s.inflight = none) (hh : s.holder = .none)
    (hs : s.eng.store = .ready ∨ s.eng.store = .readOnly ∨ s.eng.store = .unmounted ∨ s.eng.store = .failed) {c : Ctx}
    (hc : (chooseHead s).inflight = some c) : Granted (chooseHead s) c := by
  have host : ∀ q n, (takeHost s q).inflight = some c → Granted { takeHost s q with eng.runCount := n } c := fun q n e => by
    refine ⟨h.base, e, ?_, hh, hs⟩
    cases e; exact ⟨_, _, rfl⟩
  have mgmt : ∀ b n, (takeMgmt s b).inflight = some c → Granted { takeMgmt s b with eng.runCount := n } c := fun b n e => by
    unfold takeMgmt at e ⊢
    split at e
    · rename_i a f hsl
      dsimp only
      split at e
      · rename_i cmd hf
        refine ⟨?_, e, ?_, ?_, ?_⟩
        · cases b <;> exact h.base
        · cases e; exact ⟨_, _, rfl⟩
        · cases b <;> exact hh
        · cases b <;> exact hs
      · rw [hi] at e; cases e
    · rw [hi] at e; cases e
  revert hc
  unfold chooseHead
  split
  · split
    · exact host _ _
    · exact mgmt _ _
  · exact host _ _
  · exact mgmt _ _
  · intro hc; rw [hi] at hc; cases hc

theorem limits_chooseHead_none {s : State} (h : tablesLawful s) (hc : (chooseHead s).inflight = none) :
    tablesLawful (chooseHead s) := by
  have mgmt : ∀ b n, (takeMgmt s b).inflight = none → tablesLawful { takeMgmt s b with eng.runCount := n } := fun b n e => by
    unfold takeMgmt at e ⊢
    split at e
    · dsimp only
      split at e
      · cases e
      · exact h
    · exact h
  revert hc
  unfold chooseHead
  split
  · split
    · intro hc; cases hc
    · exact mgmt _ _
  · intro hc; cases hc
  · exact mgmt _ _
  · exact fun _ => h

theorem tables_arbiterGrant {s : State} (h : tablesLawful s) : tablesLawful (arbiterGrant s) := by
  unfold arbiterGrant
  split
  · rename_i hg
    simp only [commandGranted, arrayFree, serving, Bool.and_eq_true, Bool.or_eq_true, beq_iff_eq, Option.isNone_iff_eq_none] at hg
    obtain ⟨⟨h1, h2⟩, h3⟩ := hg
    unfold runGranted
    split
    · exact tables_settleRefused 8 (tables_execute (granted_chooseHead h h2 h1.1.1.1.2 (by tauto) (by assumption)))
    · exact limits_chooseHead_none h (by assumption)
  · exact h

theorem tables_waitSpaceResume {s : State} (h : tablesLawful s) : tablesLawful (waitSpaceResume s) := by
  unfold waitSpaceResume
  split
  · rename_i hr
    simp only [Bool.and_eq_true] at hr
    have ha : appending s := fun c hc => by
      have hs := hr.2
      rw [resumable, hc] at hs
      exact (h.2.2 c hc).1 (by rw [show c.stage = .waitSpace true by simpa using hs]; trivial)
    refine tables_settleRefused 8 (tables_admitCommand
      ((limits_setStage s .check (by decide) fun c hc _ => .inr (ha c hc)).keeps h) (fun d hd => ?_) none)
    obtain ⟨c, hc, rfl⟩ := Option.map_eq_some_iff.1 (show s.inflight.map _ = some d from hd)
    exact ha c hc
  · exact h

/-! ### The batch idle timer, the CONTROL register and the end of an array operation -/

/-- While the idle timer runs, no command of the batch's owner is in flight that writes a member (R113). -/
theorem tables_batchIdleExpires {s : State} (h : tablesLawful s) (hi : idleOk s) : tablesLawful (batchIdleExpires s) := by
  unfold batchIdleExpires
  split
  · rename_i hr
    refine ⟨table_teardown s false h.1, workLaw_teardown s false h.2.1, room_teardown s false h.1.limits.1 (fun c hc hm => ?_)
      h.2.2⟩
    by_contra hl
    unfold idleRunning at hr
    cases hb : s.batch with
    | none => rw [hb] at hr; cases hr
    | some x =>
      rw [hb] at hr
      have ha : c.cmd.appends = true := by cases hk : c.cmd <;> rw [hk] at hm <;> first | rfl | cases hm
      obtain ⟨k, hk⟩ : ∃ k, c.cmd.writes = some k := by
        cases hk : c.cmd <;> rw [hk] at hm <;> first | exact ⟨_, rfl⟩ | cases hm
      obtain ⟨y, hy, ho, -⟩ := (((h.2.2 c hc).2 ha).2.2.2.2.1 k hk).2 hm (by simpa using hl)
      rw [hb] at hy; cases hy
      refine ((hi x.owner x.timer (by rw [hb]; rfl)).1 (by simpa using hr)) (.inl ?_)
      have : c.cmd.isBatch = true := by cases hq : c.cmd <;> rw [hq] at hm <;> first | exact hm | cases hm
      rw [hc, ho, Option.map_some, Ctx.batchWork, this]
  · exact h

theorem tables_requestSoftReset {s : State} (h : tablesLawful s) : tablesLawful (requestSoftReset s) := by
  unfold requestSoftReset; dsimp only
  split
  · exact tables_softReset _
  · exact h

theorem tables_writeControl {s : State} (h : tablesLawful s) (v : Byte) : tablesLawful (writeControl s v) := by
  let s1 : State := { s with ctl.cinten := v.getLsbD 0, ctl.bgren := v.getLsbD 1, ctl.mgmten := v.getLsbD 2 }
  have h1 : tablesLawful s1 := h
  have h2 : tablesLawful (if s.ctl.mgmten && !v.getLsbD 2 then portDisable s1 else s1) := by
    split
    · exact (limits_portDisable _).keeps h1
    · exact h1
  have key : ∀ u, tablesLawful u → tablesLawful (if v.getLsbD 7 && !u.ctl.srst then requestSoftReset u else u) := fun u k => by
    split
    · exact tables_requestSoftReset k
    · exact k
  exact key _ h2

theorem tables_hostWrite {s : State} (h : tablesLawful s) (off : Nat) (v : Byte) : tablesLawful (hostWrite s off v) := by
  unfold hostWrite
  split
  · exact (limits_clearAlerts _ _).keeps h
  · exact (limits_setMask _ _).keeps h
  · exact tables_writeControl h v
  · exact (limits_setRecthr _ _).keeps h
  · exact (limits_setHostwt _ _).keeps h
  · exact (limits_submit _).keeps h
  · exact (limits_popCompletion _).keeps h
  · exact (limits_hostAbort _ _).keeps h
  · exact h
  · exact h
  · exact (limits_writeBufData _ _).keeps h
  · exact h

end Sys2Proof.Machine
end

