-- ==== Sys2Proof/Laws/Close.lean ====
section
/-! SUPPORT. What a completion, a teardown and the end of the management session leave alone: the array sequencer, the engine's
items, the array, the freeze list, the commit table, the units, the buffers, the pins and the host queue. One lemma per
operation, tagged simp. -/

namespace Sys2Proof.Machine

/-- The items that closing a command, a batch or a session leaves alone. -/
abbrev CloseKept (s t : State) : Prop :=
  t.seqr = s.seqr ∧ t.eng = s.eng ∧ t.freezes = s.freezes ∧ t.commits = s.commits ∧ t.rc = s.rc ∧ t.mu = s.mu
  ∧ t.fu = s.fu ∧ t.staging = s.staging ∧ t.host.queue = s.host.queue ∧ t.free = s.free ∧ t.ctl = s.ctl
  ∧ t.array = s.array ∧ t.pins = s.pins ∧ t.pending = s.pending

@[simp] theorem close_raise (s : State) (a : Alert) : CloseKept s (raise s a) := by simp [CloseKept, raise]

@[simp] theorem close_segUpd (s : State) (n : Nat) (f : SegEntry → SegEntry) : CloseKept s (segUpd s n f) := by
  unfold segUpd; try dsimp only
  repeat' split
  all_goals simp [CloseKept]

@[simp] theorem close_journalUpd (s : State) (n : Nat) (f : Journal → Journal) :
    CloseKept s (journalUpd s n f) := by
  unfold journalUpd
  simp [CloseKept]

@[simp] theorem close_killLines (s : State) (n e : Nat) : CloseKept s (killLines s n e) := by
  unfold killLines
  simp [CloseKept]

@[simp] theorem close_clearPins (s : State) : CloseKept s (clearPins s) := by
  unfold clearPins
  simp [CloseKept]

@[simp] theorem close_killPart (s : State) (p : Part) : CloseKept s (killPart s p) := by
  unfold killPart
  simp [CloseKept]

theorem close_killAll (s : State) (ps : List Part) : CloseKept s (ps.foldl killPart s) := by
  induction ps generalizing s with
  | nil => simp [CloseKept]
  | cons p ps ih => rw [List.foldl_cons]; have h := ih (killPart s p); simp [CloseKept] at h ⊢; exact h

@[simp] theorem close_dropPending (s : State) : CloseKept s (dropPending s) := by
  have h := close_killAll s (s.dir.filterMap DirEntry.pending)
  unfold dropPending; simp [CloseKept] at h ⊢; exact h

@[simp] theorem close_syncIdle (s : State) : CloseKept s (syncIdle s) := by
  unfold syncIdle
  simp [CloseKept]

@[simp] theorem close_teardown (s : State) (own : Bool) : CloseKept s (teardown s own) := by
  unfold teardown; try dsimp only
  repeat' split
  all_goals simp [CloseKept]

@[simp] theorem close_setTag (s : State) (t : Nat) (v : TagState) : CloseKept s (setTag s t v) := by
  unfold setTag
  simp [CloseKept]

@[simp] theorem close_postHost (s : State) (t : Nat) (r : Result) : CloseKept s (postHost s t r) := by
  unfold postHost
  simp [CloseKept]

@[simp] theorem close_setSlot (s : State) (b : Bool) (v : Slot) : CloseKept s (setSlot s b v) := by
  unfold setSlot; try dsimp only
  repeat' split
  all_goals simp [CloseKept]

@[simp] theorem close_answerRunning (s : State) (b : Bool) (frame : List Byte) :
    CloseKept s (answerRunning s b frame) := by
  unfold answerRunning; try dsimp only
  repeat' split
  all_goals simp [CloseKept]

@[simp] theorem close_postResult (s : State) (c : Ctx) (r : Result) : CloseKept s (postResult s c r) := by
  unfold postResult; try dsimp only
  repeat' split
  all_goals simp [CloseKept]

@[simp] theorem close_complete (s : State) (r : Result) : CloseKept s (complete s r) := by
  unfold complete; try dsimp only
  repeat' split
  all_goals simp [CloseKept]

@[simp] theorem close_completeFail (s : State) (st : Status) : CloseKept s (completeFail s st) := by
  unfold completeFail; try dsimp only
  repeat' split
  all_goals simp [CloseKept]

@[simp] theorem close_modCtx (s : State) (f : Ctx → Ctx) : CloseKept s (modCtx s f) := by
  unfold modCtx
  simp [CloseKept]

@[simp] theorem close_loseBatch (s : State) : CloseKept s (loseBatch s) := by
  unfold loseBatch; try dsimp only
  repeat' split
  all_goals simp [CloseKept]

@[simp] theorem close_answerWaiting (s : State) (b : Bool) (status : Byte) :
    CloseKept s (answerWaiting s b status) := by
  unfold answerWaiting; try dsimp only
  repeat' split
  all_goals simp [CloseKept]

@[simp] theorem close_answerBothWaiting (s : State) (status : Byte) : CloseKept s (answerBothWaiting s status) := by
  unfold answerBothWaiting
  simp [CloseKept]

@[simp] theorem close_setXfer (s : State) (x : Option Xfer) : CloseKept s (setXfer s x) := by
  unfold setXfer
  simp [CloseKept]

@[simp] theorem close_endMgmtBatch (s : State) : CloseKept s (endMgmtBatch s) := by
  unfold endMgmtBatch; try dsimp only
  repeat' split
  all_goals simp [CloseKept]

@[simp] theorem close_sessionEnd (s : State) (status : Byte) : CloseKept s (sessionEnd s status) := by
  unfold sessionEnd; try dsimp only
  repeat' split
  all_goals simp [CloseKept]

@[simp] theorem close_freeReceiving (s : State) (b : Bool) : CloseKept s (freeReceiving s b) := by
  unfold freeReceiving; try dsimp only
  repeat' split
  all_goals simp [CloseKept]

@[simp] theorem close_portDisable (s : State) : CloseKept s (portDisable s) := by
  unfold portDisable; try dsimp only
  repeat' split
  all_goals simp [CloseKept]

@[simp] theorem close_answerSlot (s : State) (b : Bool) (arrival : Nat) (tag status : Byte) (payload : List Byte) :
    CloseKept s (answerSlot s b arrival tag status payload) := by
  unfold answerSlot
  simp [CloseKept]

@[simp] theorem close_sessionLapse (s : State) : CloseKept s (sessionLapse s) := by
  unfold sessionLapse; try dsimp only
  repeat' split
  all_goals simp [CloseKept]

@[simp] theorem close_batchIdleExpires (s : State) : CloseKept s (batchIdleExpires s) := by
  unfold batchIdleExpires; try dsimp only
  repeat' split
  all_goals simp [CloseKept]

end Sys2Proof.Machine
end

