-- ==== Sys2Proof/Laws/Grant.lean ====
section
/-! SUPPORT. What a grant of a head comes to: the command it puts in flight, and its end when the command completes at
the grant. -/

namespace Sys2Proof.Machine

/-- The store is in a state in which commands are granted (R66). -/
def granting (s : State) : Prop :=
  s.eng.store = .ready ∨ s.eng.store = .readOnly ∨ s.eng.store = .unmounted ∨ s.eng.store = .failed

/-- A standing head has a command that is granted. -/
theorem chooseHead_alone {s : State} {h : Head} (k : h.standsIn s) : chooseHead s = grantedWith s h (freshCtx h) := by
  unfold chooseHead hostHead
  cases h with
  | host q => rw [k.1, k.2]; rfl
  | mgmt b a f c =>
    obtain ⟨h1, h2, h3, h4⟩ := k
    rw [h1, h2]
    simp only [List.head?_nil, takeMgmt, h3, h4]
    cases b <;> rfl

/-- ARBITER_GRANT with one head: its command runs in a fresh context. -/
theorem grant_head {s : State} {h : Head} (k : headAlone s h) (hg : granting s) :
    exec .arbiterGrant s = .next (settleRefused 8 (execute (grantedWith s h (freshCtx h)) (freshCtx h))) := by
  obtain ⟨⟨h1, h2, h3, h4, h5⟩, h6, h7⟩ := k
  have hc : commandGranted s = true := by
    unfold commandGranted arrayFree serving
    rcases hg with h | h | h | h <;> simp [h1, h2, h3, h4, h5, h6, h]
  simp only [exec, execArbiterGrant, takeEvent, h1, Bool.false_eq_true, if_false, arbiterGrant, hc, if_true,
    chooseHead_alone h7]
  rfl

/-- The payload that the port sends is the one R202 and R207 lay out. -/
theorem payloadOf_eq (c : Cmd) (r : Result) (out : List Byte) : payloadOf c r out = answerPayload c r out := by
  cases c <;> rfl

/-- A command that completes at its grant. -/
theorem complete_granted {s : State} {h : Head} {c : Ctx} (r : Result) (ho : c.origin = h.origin) (hc : c.cmd = h.cmd)
    (hj : c.job.out = []) (ht : c.tearDue = false) (hh : s.holder = .none) :
    complete (grantedWith s h c) r = answeredAtGrant s h r := by
  cases h with
  | host q =>
    have ho' : c.origin = .host q.tag := ho
    simp only [complete, grantedWith, postResult, ho', ht, postHost, setTag, Bool.false_eq_true, if_false, hh,
      answeredAtGrant, Head.grantHost, Head.answerHost, List.set_set]
    split <;> rfl
  | mgmt b a f d =>
    have ho' : c.origin = .mgmt b (f.getD 1 0) := ho
    have hc' : c.cmd = d := hc
    simp only [complete, postResult, grantedWith, ho', hc', hj, ht, answerRunning, Head.grantMgmt, Bool.false_eq_true,
      if_false, answeredAtGrant, Head.answerMgmt, payloadOf_eq, answerFrame, slotPut]
    cases b <;> simp only [slotOf, setSlot, Bool.false_eq_true, if_false, if_true, hh] <;> split <;> rfl

/-- A state with the sequencer IDLE has no refused program. -/
theorem settle_idle {n : Nat} {s : State} (h : s.seqr = none) : settleRefused n s = s := by
  cases n with
  | zero => rfl
  | succ n => unfold settleRefused; rw [h]

/-- A program issued to an ERASED line stands. -/
theorem settle_erased {n : Nat} {s : State} {l : Loc} {c : LineBits} (h : s.seqr = some (.program l c))
    (he : lineAt s l = .erased) : settleRefused n s = s := by
  cases n with
  | zero => rfl
  | succ n => unfold settleRefused; rw [h]; simp only [he, if_true]

/-- A read or an erase stands. -/
theorem settle_other {n : Nat} {s : State} (h : ∀ l c, s.seqr ≠ some (.program l c)) : settleRefused n s = s := by
  cases n with
  | zero => rfl
  | succ n =>
    unfold settleRefused
    split
    · rename_i l c hc; exact absurd hc (h l c)
    · rfl

/-- A completion that no teardown waits for: the ports, the context, the array and the idle timer, and nothing else. -/
theorem complete_ports {s : State} {c : Ctx} (r : Result) (hi : s.inflight = some c) (ht : c.tearDue = false) :
    complete s r = syncIdle (answeredCmd s c r) := by
  simp only [answeredCmd, complete, hi, ht, Bool.false_eq_true, if_false, postResult, hostHanded, mgmtHanded, payloadOf_eq,
    answerRunning]
  cases c.origin with
  | host t => rfl
  | mgmt b ftag =>
    dsimp only
    cases b <;> simp only [slotOf, setSlot, Bool.false_eq_true, if_false, if_true] <;> split <;> simp_all [slotPut, answerFrame]

/-- Ports that have been handed a result as above have been handed it as the statements say. -/
theorem handedTo_of {s u : State} {c : Ctx} {r : Result} (hh : u.host = hostHanded s.host c r)
    (hm : u.mgmt = mgmtHanded s.mgmt c r) : handedTo s u c r c.job.out := by
  unfold handedTo
  unfold hostHanded at hh
  unfold mgmtHanded at hm
  cases ho : c.origin with
  | host t => rw [ho] at hh hm; dsimp only at hh hm ⊢; exact ⟨by rw [hh], by rw [hh], hm⟩
  | mgmt b ftag =>
    rw [ho] at hh hm
    dsimp only at hh hm ⊢
    refine ⟨hh, fun a f hs => ?_⟩
    unfold slotOf at hs ⊢
    rw [hs] at hm
    dsimp only at hm
    rw [hm]
    cases b <;> exact ⟨rfl, rfl⟩

/-- A command that is decided at its grant, its effect apart: it completes, and the port is handed its result. -/
theorem grant_done {s : State} {h : Head} (k : headAlone s h) (hg : granting s) (r : Result)
    (e : execute (grantedWith s h (freshCtx h)) (freshCtx h) = complete (grantedWith s h (freshCtx h)) r) :
    exec .arbiterGrant s = .next (answeredAtGrant s h r) := by
  rw [grant_head k hg, e, complete_granted r rfl rfl rfl rfl k.1.2.2.1]
  exact congrArg _ (settle_idle k.1.2.1)

/-- In READY every command passes the state check (R67). -/
theorem execute_ready {s : State} {h : Head} (hr : s.eng.store = .ready) :
    execute (grantedWith s h (freshCtx h)) (freshCtx h) = runCommand (grantedWith s h (freshCtx h)) h.port h.cmd := by
  have e : (grantedWith s h (freshCtx h)).eng.store = .ready := hr
  unfold execute
  rw [e]
  cases h <;> rfl

/-- A command that ends with a status other than HALTED and READ_ONLY carries its consumed sequence. -/
theorem Ctx.endSeq_carried (c : Ctx) {st : Status} (h1 : st ≠ .halted) (h2 : st ≠ .readOnly) : c.endSeq st = c.seq.getD 0 := by
  have k : c.carriesSeq st = true := by
    unfold Ctx.carriesSeq
    cases c.cmd <;> simp only [beq_eq_false_iff_ne.2 h2, bne_iff_ne.2 h1, Bool.false_and, Bool.not_false, Bool.and_self]
  unfold Ctx.endSeq
  cases c.seq with
  | none => rfl
  | some q => exact if_pos k

/-- The sequence field of a HALTED completion. -/
theorem Ctx.endSeq_halted (c : Ctx) : c.endSeq .halted = haltedSeq c := by
  unfold Ctx.endSeq haltedSeq Ctx.carriesSeq
  cases hs : c.seq <;> cases hc : c.cmd <;> simp

end Sys2Proof.Machine
end

