-- ==== Sys2Proof/Laws/Halt.lean ====
section
/-! SUPPORT. What the entry to HALTED and the end of a reset come to, in the terms of the statements (R83, R84, R86, R87). -/

namespace Sys2Proof.Machine

theorem mountStart_begun (s : State) (h : s.eng.haltReq = false) : mountStart s = mountBegun s := by
  simp [mountStart, mountBegun, emptyTables, emptyTable, issue, h]

theorem haltIfDue_unasked (s : State) (h : s.eng.haltReq = false) : haltIfDue s = s := by
  unfold haltIfDue; simp [h]

theorem mountBegun_unasked (s : State) (h : s.eng.haltReq = false) : haltIfDue (mountBegun s) = mountBegun s := by
  unfold haltIfDue; simp [mountBegun, h]

theorem leaveReset_high (s : State) (h : s.eng.haltReq = false) (hp : s.pins.pfwLow = false) :
    leaveReset s = if s.eng.amount then mountBegun s else s := by
  unfold leaveReset; simp only [hp, Bool.false_eq_true, if_false]
  split
  · rw [mountStart_begun s h, mountBegun_unasked s h]
  · exact haltIfDue_unasked s h

theorem answerBothWaiting_none (s : State) (st) (h : ∀ b a f, slotOf s b ≠ .waiting a f) : answerBothWaiting s st = s := by
  have e : ∀ b, answerWaiting s b st = s := by
    intro b; unfold answerWaiting; split
    · rename_i a f hh; exact absurd hh (h b a f)
    · rfl
  unfold answerBothWaiting; rw [e, e]

/-- The record of the state left, and the HALT alert (R84). -/
def enteringHalt (u : State) : State :=
  raise { u with eng := { u.eng with prior := some u.eng.store, store := .halted } } .halt

/-- A quiet state at its entry to HALTED. -/
theorem haltEntry_quiet (s : State) (h : quiet s) : haltEntry s = haltedQuietly s := by
  obtain ⟨h1, h2, h3, h4⟩ := h
  show syncIdle (answerBothWaiting (flushQueue { haltReclaim (haltCommand (enteringHalt s)) with holder := .none, fu :=
      none })
    Status.halted.code) = _
  have e1 : haltCommand (enteringHalt s) = enteringHalt s := by
    unfold haltCommand; simp [enteringHalt, raise, h1]
  have e2 : haltReclaim (enteringHalt s) = enteringHalt s := by
    unfold haltReclaim; simp [enteringHalt, raise, h2]
  rw [e1, e2]
  have e3 : ∀ x : State, x.host.queue = [] → flushQueue x = x := by
    intro x hx; unfold flushQueue; simp only [hx, List.foldl_nil]
    rw [← hx]
  rw [e3 _ (by exact h3), answerBothWaiting_none _ _ (by exact h4)]
  rfl

/-- The end of a reset in a state with nothing in progress, at either level of PFW#. -/
theorem leaveReset_over (s : State) (h : s.eng.haltReq = false)
    (hq : s.pins.pfwLow = true → quiet s ∧ s.seqr = none ∧ s.eng.store ≠ .halted) :
    leaveReset s = resetOver s := by
  cases hp : s.pins.pfwLow
  · rw [leaveReset_high s h hp]; simp [resetOver, hp]
  · obtain ⟨q, hs, hst⟩ := hq hp
    unfold leaveReset resetOver
    simp only [hp, if_true]
    by_cases ha : s.eng.amount = true
    rotate_left
    · rw [if_neg ha, if_neg ha]
      unfold haltIfDue; rw [if_pos (by simp [hs, hst])]
      exact haltEntry_quiet _ q
    · rw [if_pos ha, if_pos ha]
      have : mountStart { s with eng := { s.eng with haltReq := true } } =
          { mountBegun { s with eng := { s.eng with haltReq := true } } with seqr := none } := by
        simp [mountStart, issue, mountBegun, emptyTables, emptyTable, hs]
      refine Eq.trans (congrArg haltIfDue this) ?_
      unfold haltIfDue; rw [if_pos (by simp [mountBegun])]
      exact haltEntry_quiet _ ⟨q.1, rfl, q.2.2⟩

/-- The end of a reset that has cleared every volatile item. -/
theorem leaveReset_cleared (s : State) : leaveReset (cleared s) = resetOver (cleared s) := by
  apply leaveReset_over _ rfl
  intro _
  refine ⟨⟨rfl, rfl, rfl, ?_⟩, rfl, by simp [cleared, State.reset, Engine.reset]⟩
  intro b a f; cases b <;> simp [slotOf, cleared, State.reset, MgmtPort.reset]

theorem postHost_fold (l : List QEntry) (r : Result) : ∀ s : State,
    l.foldl (fun t q => postHost t q.tag r) s = { s with host := { s.host with
    tags := l.foldl (fun x q => x.set q.tag .completed) s.host.tags, cplq := s.host.cplq ++ l.map (fun q => ⟨q.tag,
        r⟩) } } := by
  induction l with
  | nil => intro s; simp
  | cons q l ih => intro s; rw [List.foldl_cons, ih]; simp [postHost, setTag]

theorem answerWaiting_halted (s : State) (b : Bool) :
    answerWaiting s b Status.halted.code = setSlot s b (haltedSlot (slotOf s b)) := by
  unfold answerWaiting
  cases b
  · simp only [slotOf, Bool.false_eq_true, if_false]
    cases ha : s.mgmt.slotA
    case waiting a f => rfl
    all_goals (simp only [haltedSlot, setSlot, Bool.false_eq_true, if_false, ← ha])
  · simp only [slotOf, if_true]
    cases ha : s.mgmt.slotB
    case waiting a f => rfl
    all_goals (simp only [haltedSlot, setSlot, if_true, ← ha])

theorem answerBothWaiting_halted (s : State) : answerBothWaiting s Status.halted.code =
    { s with mgmt := { s.mgmt with slotA := haltedSlot s.mgmt.slotA, slotB := haltedSlot s.mgmt.slotB } } := by
  unfold answerBothWaiting; rw [answerWaiting_halted, answerWaiting_halted]; rfl

theorem haltReclaim_kept (s : State) (h : noCopyLine s) : haltReclaim s =
    { s with rc := { s.rc with ctx := s.rc.ctx.map haltedReclaim }, holder := (haltReclaim s).holder } := by
  unfold haltReclaim
  split
  · rename_i h0; simp only [h0, Option.map_none]; rw [← h0]
  · rename_i r h0
    split
    · rename_i p hs; simp only [h0, Option.map_some, haltedReclaim, hs]; rw [← h0]
    · rename_i k a hs _; exact absurd hs (h r k h0)
    · rename_i h1 h2
      simp only [releaseStep, modRc, h0, Option.map_some, haltedReclaim]

/-- The entry to HALTED once the command in flight has been settled (R84). -/
def afterCommand (s : State) : State :=
  syncIdle (answerBothWaiting (flushQueue { haltReclaim s with holder := .none, fu := none }) Status.halted.code)

/-- What that entry leaves of the work of the ports and of reclaim, where no line of a copy is being programmed. -/
def workSettled (s : State) : State := { s with
    holder := .none, fu := none
    rc := { s.rc with ctx := s.rc.ctx.map haltedReclaim }
    host := { s.host with
      queue := []
      tags := s.host.queue.foldl (fun l q => l.set q.tag .completed) s.host.tags
      cplq := s.host.cplq ++ s.host.queue.map (fun q => ⟨q.tag, ⟨.halted, 0, 0, 0, false, false, false⟩⟩) }
    mgmt := { s.mgmt with slotA := haltedSlot s.mgmt.slotA, slotB := haltedSlot s.mgmt.slotB } }

theorem afterCommand_eq (s : State) (h : noCopyLine s) : afterCommand s = syncIdle (workSettled s) := by
  unfold afterCommand
  rw [answerBothWaiting_halted]
  unfold flushQueue
  rw [haltReclaim_kept _ h]
  simp only [postHost_fold]
  rfl

theorem haltEntry_eq (s : State) : haltEntry s = afterCommand (haltCommand (enteringHalt s)) := rfl

theorem haltedWith_eq (s : State) : haltedWith s = syncIdle (workSettled (enteringHalt s)) := rfl

theorem afterCommand_sync (s : State) (h : noCopyLine s) : afterCommand (syncIdle s) = afterCommand s := by
  rw [afterCommand_eq _ h, afterCommand_eq (syncIdle s) (by exact h)]
  have : workSettled (syncIdle s) = { workSettled s with batch := (syncIdle s).batch } := rfl
  rw [this]
  unfold syncIdle
  congr 1
  show Option.map _ (Option.map _ s.batch) = Option.map _ s.batch
  rw [Option.map_map]
  rfl

/-- The entry to HALTED with a command in flight that has no record in progress: it completes with the result of R84. -/
theorem haltEntry_command (u : State) (hn : noCopyLine u) (c : Ctx) (r : Result) (hc : u.inflight = some c) (hu : c.unstopped)
    (hr : haltedResult u c r) : haltEntry u = haltedWith (answeredCmd u c r) := by
  obtain ⟨h3, h4, h5⟩ := hu
  rw [haltEntry_eq]
  have key : haltCommand (enteringHalt u) = syncIdle (enteringHalt (answeredCmd u c r)) := by
    have hc' : (enteringHalt u).inflight = some c := hc
    have fin : complete (enteringHalt u) r = syncIdle (enteringHalt (answeredCmd u c r)) := complete_ports r hc' h5
    rw [← fin]
    unfold haltCommand
    rw [hc']
    rcases hr with ⟨⟨b, hb⟩ | ⟨b, hb⟩ | hb | hb, rfl⟩ | ⟨hb, x, hx, rfl⟩ | ⟨hb, ⟨k, f, hk⟩, rfl⟩ | ⟨hb, ⟨k, f, n, hk⟩, rfl⟩
    · simp only [hb, haltEnd, h3, h4, Bool.false_eq_true, if_false, completeFail, hc', Ctx.failure, Ctx.endSeq_halted]
    · simp only [hb, haltEnd, h3, h4, Bool.false_eq_true, if_false, completeFail, hc', Ctx.failure, Ctx.endSeq_halted]
    · simp only [hb, haltEnd, h3, h4, Bool.false_eq_true, if_false, completeFail, hc', Ctx.failure, Ctx.endSeq_halted]
    · simp only [hb, haltEnd, h3, h4, Bool.false_eq_true, if_false, completeFail, hc', Ctx.failure, Ctx.endSeq_halted]
    · have hx' : (enteringHalt u).rc.ctx = some x := hx
      simp only [hb, reclaimStopped, hx', reclaimResult]
    · simp only [hb, readResult, hk, h3, Bool.false_eq_true, if_false]
    · simp only [hb, readResult, hk, h3, Bool.false_eq_true, if_false]
  show afterCommand (haltCommand (enteringHalt u)) = _
  rw [key, afterCommand_sync _ (by exact hn), afterCommand_eq _ (by exact hn), haltedWith_eq]

/-- The entry to HALTED with no command in flight. -/
theorem haltEntry_idle (u : State) (hn : noCopyLine u) (hc : u.inflight = none) : haltEntry u = haltedWith u := by
  rw [haltEntry_eq]
  show afterCommand (haltCommand (enteringHalt u)) = _
  have : haltCommand (enteringHalt u) = enteringHalt u := by
    unfold haltCommand
    have : (enteringHalt u).inflight = none := hc
    rw [this]
  rw [this, afterCommand_eq _ (by exact hn), haltedWith_eq]

end Sys2Proof.Machine
end

