-- ==== Sys2Proof/Laws/HaltReports.lean ====
section
/-! SUPPORT. A unit that acts on a report under a halt request does what it would do without one, but issues no operation
(R83): one lemma per operation of the units of a command's reads, of a mount and of a FORMAT. -/

namespace Sys2Proof.Machine

/-! ### An operation commutes with the halt request -/

theorem held_raise (s : State) (a) : raise (heldBack s) a = heldBack (raise s a) := rfl

theorem held_issue (s : State) (op) : issue (heldBack s) op = heldBack (issue s op) := by
  unfold issue; cases s.eng.haltReq <;> rfl

theorem held_modMu (s : State) (f) : modMu (heldBack s) f = heldBack (modMu s f) := rfl

theorem held_modCtx (s : State) (f) : modCtx (heldBack s) f = heldBack (modCtx s f) := rfl

theorem held_modJob (s : State) (f) : modJob (heldBack s) f = heldBack (modJob s f) := rfl

theorem held_setStage (s : State) (f) : setStage (heldBack s) f = heldBack (setStage s f) := rfl

theorem held_setFu (s : State) (f) : setFu (heldBack s) f = heldBack (setFu s f) := rfl

theorem held_emptyTables (s : State) : emptyTables (heldBack s) = heldBack (emptyTables s) := rfl

theorem held_ite {p : Prop} [Decidable p] (a b : State) : (if p then heldBack a else heldBack b) = heldBack
    (if p then a else b) := by split <;> rfl

theorem held_foldl {α} (f : State → α → State) (hf : ∀ s a, f (heldBack s) a = heldBack (f s a)) (l : List α) (s : State) :
    l.foldl f (heldBack s) = heldBack (l.foldl f s) := by
  induction l generalizing s with
  | nil => rfl
  | cons a l ih => rw [List.foldl_cons, List.foldl_cons, hf, ih]

theorem held_segUpd (s : State) (n f) : segUpd (heldBack s) n f = heldBack (segUpd s n f) := by
  have key : ∀ (p : Prop) [Decidable p] (t : State), (if p then raise (heldBack t) .spaceLow else heldBack t) = heldBack
      (if p then raise t .spaceLow else t) := by
    intro p _ t; split <;> rfl
  exact key _ { s with sm.table := s.sm.table.map (fun e => if e.num = n then f e else e) }

theorem held_journalUpd (s : State) (n f) : journalUpd (heldBack s) n f = heldBack (journalUpd s n f) := held_segUpd s n _

theorem held_setSeg (s : State) (n f) : setSegState (heldBack s) n f = heldBack (setSegState s n f) := held_segUpd s n _

theorem held_killPart (s : State) (p) : killPart (heldBack s) p = heldBack (killPart s p) := held_segUpd s _ _

theorem held_killPart_opt (s : State) (p) : killPart? (heldBack s) p = heldBack (killPart? s p) := by
  cases p; rfl; exact held_killPart s _

theorem held_accountLive (s : State) (n e) : accountLive (heldBack s) n e = heldBack (accountLive s n e) := held_segUpd s _ _

theorem held_accountDead (s : State) (n e) : accountDead (heldBack s) n e = heldBack (accountDead s n e) := held_segUpd s _ _

theorem held_pinUp (s : State) (n) : pinUp (heldBack s) n = heldBack (pinUp s n) := held_segUpd s _ _

theorem held_clearPins (s : State) : clearPins (heldBack s) = heldBack (clearPins s) := rfl

theorem held_dropPending (s : State) : dropPending (heldBack s) = heldBack (dropPending s) := by
  unfold dropPending
  have : ((heldBack s).dir.filterMap DirEntry.pending).foldl killPart (heldBack s) = heldBack
      ((s.dir.filterMap DirEntry.pending).foldl killPart s) := held_foldl _ held_killPart _ s
  rw [this]; rfl

theorem held_teardown (s : State) (o) : teardown (heldBack s) o = heldBack (teardown s o) := by
  unfold teardown
  have : (heldBack s).batch = s.batch := rfl
  rw [this]
  split
  · rfl
  · simp only [held_dropPending, held_clearPins]; split <;> rfl

theorem held_setSlot (s : State) (b v) : setSlot (heldBack s) b v = heldBack (setSlot s b v) := by cases b <;> rfl

theorem held_postResult (s : State) (c r) : postResult (heldBack s) c r = heldBack (postResult s c r) := by
  unfold postResult; split
  · rfl
  · unfold answerRunning
    have : ∀ b, slotOf (heldBack s) b = slotOf s b := fun b => by cases b <;> rfl
    rw [this]; split
    · exact held_setSlot _ _ _
    · rfl

theorem held_syncIdle (s : State) : syncIdle (heldBack s) = heldBack (syncIdle s) := rfl

theorem held_complete (s : State) (r) : complete (heldBack s) r = heldBack (complete s r) := by
  unfold complete
  have : (heldBack s).inflight = s.inflight := rfl
  rw [this]; split
  · rfl
  · rename_i c hc
    simp only [held_postResult]
    split
    · rename_i h
      refine Eq.trans (congrArg syncIdle (held_teardown { postResult s c r with inflight := none, holder := if
          (postResult s c r).holder = .command then .none else (postResult s c r).holder } false)) ?_
      rfl
    · rfl

theorem held_completeFail (s : State) (r) : completeFail (heldBack s) r = heldBack (completeFail s r) := by
  unfold completeFail
  have : (heldBack s).inflight = s.inflight := rfl
  rw [this]; split
  · rfl
  · exact held_complete _ _

theorem held_staging (s : State) (b i v) : stagingWriteList (heldBack s) b i v = heldBack (stagingWriteList s b i v) := by
  induction v generalizing s i with
  | nil => rfl
  | cons x v ih => exact ih (stagingWrite s b i x) (i + 1)

theorem held_place (s : State) (c b i v) : placeBytes (heldBack s) c b i v = heldBack (placeBytes s c b i v) := by
  unfold placeBytes; split
  · exact held_staging _ _ _ _
  · rfl

theorem held_readContent (s : State) (l) : readContent (heldBack s) l = ((readContent s l).1, heldBack
    (readContent s l).2) := by
  unfold readContent; cases l <;> rfl

theorem held_getReport (s : State) (c b l) : getReport (heldBack s) c b l = heldBack (getReport s c b l) := by
  unfold getReport
  simp only [held_readContent, held_place, held_modJob, held_issue, held_complete, held_ite]

theorem held_listReport (s : State) (c b n l) : listReport (heldBack s) c b n l = heldBack (listReport s c b n l) := by
  unfold listReport listNext
  have : (heldBack s).dir = s.dir := rfl
  simp only [held_place, held_modJob, held_issue, held_complete, this]
  split
  · rfl
  · split <;> simp only [held_ite]

theorem held_formatEnd (s : State) : formatEnd (heldBack s) = heldBack (formatEnd s) := by
  unfold formatEnd
  have : usableCount (heldBack s) = usableCount s := rfl
  simp only [this]
  cases decide (4 ≤ usableCount s)
  · exact held_complete (raise { s with eng := { s.eng with seqCtr := 1, store := .readOnly }, fu := none, holder :=
        .none } .rdOnly) _
  · exact held_complete { s with eng := { s.eng with seqCtr := 1, store := .ready }, fu := none, holder := .none } _

theorem held_step1Next (s : State) (f) : step1Next (heldBack s) f = heldBack (step1Next s f) := by
  unfold step1Next; split
  · exact held_formatEnd s
  · simp only [held_setFu, held_issue]

theorem held_formatEnter (s : State) (f m) : formatEnter (heldBack s) f m = heldBack (formatEnter s f m) := by
  unfold formatEnter
  simp only [held_teardown, held_setStage]
  exact held_step1Next { setStage (teardown s false) .format with
        eng.store := .formatting, eng.seqCtr := 0, eng.volId := f.newId, rc := ⟨none, 0, 0⟩, dir := [], freezes := [],
        commits := [], sm := ⟨formatTable s f m, 0, false⟩, holder := .format } _

theorem held_formatCheck (s : State) (f n l) : formatCheckReport (heldBack s) f n l = heldBack
    (formatCheckReport s f n l) := by
  unfold formatCheckReport
  cases classify0 l
  all_goals
    dsimp only
    split
    · simp only [held_setFu, held_issue]
    · split
      · exact held_completeFail { s with fu := none } _
      · exact held_formatEnter _ _ _

theorem held_tell (s : State) (r) : tellMounter (heldBack s) r = heldBack (tellMounter s r) := by
  unfold tellMounter
  have : (heldBack s).inflight = s.inflight := rfl
  rw [this]; split
  · split
    · exact held_complete _ _
    · rfl
  · rfl

def mountEnded (s : State) (m : MountResult) (st : StoreState) : State :=
  let s1 := if m = .ok then { s with eng.volId := s.mu.foundVid } else emptyTables s
  let s2 : State := { s1 with eng.store := st, eng.mountRes := m, holder := .none, mu := { s1.mu with phase := .idle } }
  let s3 := raise s2 .mounted
  if st = .readOnly then raise s3 .rdOnly else s3

theorem held_me4 (s m st) : mountEnded (heldBack s) m st = heldBack (mountEnded s m st) := by
  by_cases hm : m = .ok <;> by_cases hs : st = .readOnly <;> simp only [mountEnded, hm, hs, if_true, if_false] <;> rfl

theorem held_mountEnd (s : State) (m) : mountEnd (heldBack s) m = heldBack (mountEnd s m) := by
  show tellMounter (mountEnded (heldBack s) m (storeAfterMount s m)) (mountResult (mountEnded (heldBack s) m
      (storeAfterMount s m)) m) = _
  rw [held_me4]
  exact held_tell _ _

theorem held_prepIssue (s : State) (n p v) : prepIssue (heldBack s) n p v = heldBack (prepIssue s n p v) := by
  unfold prepIssue
  have : eraseCountOf (heldBack s) n = eraseCountOf s n := rfl
  simp only [this]
  split <;> exact held_issue _ _

theorem held_settleNext (s : State) : settleNext (heldBack s) = heldBack (settleNext s) := by
  unfold settleNext
  have : (heldBack s).sm = s.sm := rfl
  rw [this]; split
  · rename_i e _
    rw [held_modMu]; exact held_prepIssue _ _ _ _
  · rw [held_modMu]; exact held_mountEnd _ _

theorem held_account (s : State) : account (heldBack s) = heldBack (account s) :=
  held_settleNext { s with sm.table := s.sm.table.map (fun e => { e with st := accountState s e.num e.st }) }

theorem held_replayEnd (s : State) : replayEnd (heldBack s) = heldBack (replayEnd s) := by
  unfold replayEnd
  exact held_account (modMu { s with eng.seqCtr := match s.mu.highest with
    | some h => h + 1
    | none => 1 } (fun m => { m with phase := .account }))

theorem held_replayNext (s : State) : replayNext (heldBack s) = heldBack (replayNext s) := by
  unfold replayNext
  have : (heldBack s).mu = s.mu := rfl
  rw [this]; split
  · exact held_replayEnd s
  · simp only [held_modMu, held_issue]

theorem held_applyPart (s : State) (k p) : applyPart (heldBack s) k p = heldBack (applyPart s k p) := by
  unfold applyPart
  have : (heldBack s).dir = s.dir := rfl
  rw [this]; split
  · rfl
  · split
    · rfl
    · split <;> rfl

theorem held_replayJudged (s : State) (f a) : replayJudged (heldBack s) f a = heldBack (replayJudged s f a) := by
  unfold replayJudged
  have e : applicable (heldBack s) f a = applicable s f a := rfl
  have d : (heldBack s).dir = s.dir := rfl
  simp only [e, d, held_mountEnd, held_applyPart, held_replayNext, held_ite]

theorem held_replayReport (s : State) (l) : replayReport (heldBack s) l = heldBack (replayReport s l) := by
  unfold replayReport
  have : (heldBack s).mu = s.mu := rfl
  rw [this]; split
  · rfl
  · simp only [held_modMu, held_issue, held_replayJudged, held_ite]

theorem held_collectEnd (s : State) : collectEnd (heldBack s) = heldBack (collectEnd s) := by
  unfold collectEnd; rw [held_modMu]; exact held_replayNext _

theorem held_scanAt (s : State) (l) : scanAt (heldBack s) l = heldBack (scanAt s l) := by
  unfold scanAt; rw [held_modMu, held_issue]

theorem held_segEnd (s : State) (n wp st) : scanSegmentEnd (heldBack s) n wp st = heldBack (scanSegmentEnd s n wp st) := by
  unfold scanSegmentEnd
  simp only [held_journalUpd, held_modMu, held_ite]
  generalize (if st then _ else _ : State) = y
  have : nextJournal (heldBack y) n = nextJournal y n := rfl
  rw [this]; split
  · exact held_scanAt _ _
  · exact held_collectEnd _

theorem held_scanAdvance (s : State) (l e) : scanAdvance (heldBack s) l e = heldBack (scanAdvance s l e) := by
  unfold scanAdvance; simp only [held_scanAt, held_segEnd, held_ite]

theorem held_scanHeader (s : State) (l c) : scanHeader (heldBack s) l c = heldBack (scanHeader s l c) := by
  unfold scanHeader; split
  · simp only [held_segEnd, held_ite]
  · simp only [held_segEnd, held_modMu, held_issue, held_scanAdvance, held_ite]

theorem held_enterCommit (s : State) (f b) : enterCommit (heldBack s) f b = heldBack (enterCommit s f b) := rfl

theorem held_collectJudged (s : State) (f a) : collectJudged (heldBack s) f a = heldBack (collectJudged s f a) := by
  unfold collectJudged
  have d : (heldBack s).commits = s.commits := rfl
  have e : (heldBack s).freezes = s.freezes := rfl
  have g : ∀ x n, scanAdvance { heldBack s with freezes := x } f.loc n = heldBack (scanAdvance { s with freezes :=
      x } f.loc n) := fun x n => held_scanAdvance { s with freezes := x } _ _
  dsimp only
  rw [d, e]
  split
  · split
    · simp only [held_mountEnd, held_enterCommit, held_scanAdvance, held_ite]
    · split
      · exact held_mountEnd _ _
      · exact g _ _
  · exact held_scanAdvance _ _ _

theorem held_collectReport (s : State) (l) : collectReport (heldBack s) l = heldBack (collectReport s l) := by
  unfold collectReport
  have : (heldBack s).mu = s.mu := rfl
  rw [this]; split
  · simp only [held_modMu, held_issue, held_collectJudged, held_ite]
  · split
    · exact held_scanHeader _ _ _
    · rfl

theorem held_verdict (s : State) : surveyVerdict (heldBack s) = heldBack (surveyVerdict s) := by
  unfold surveyVerdict
  have a : journalOrder (heldBack s) = journalOrder s := rfl
  have b : (heldBack s).mu = s.mu := rfl
  have c : (heldBack s).sm = s.sm := rfl
  simp only [a, b, c]
  split
  · exact held_mountEnd _ _
  · split
    · exact held_mountEnd _ _
    · split
      · exact held_mountEnd _ _
      · split
        · have key : ∀ (x : SegMgr) g l, scanAt (modMu { heldBack s with sm := x } g) l = heldBack (scanAt
              (modMu { s with sm := x } g) l) := fun x g l => held_scanAt (modMu { s with sm := x } g) l
          exact key _ _ _
        · exact held_mountEnd _ _

theorem held_surveyNext (s : State) (n) : surveyNext (heldBack s) n = heldBack (surveyNext s n) := by
  unfold surveyNext; simp only [held_issue, held_verdict, held_ite]

theorem held_addEntry (s : State) (n a b c) : addEntry (heldBack s) n a b c = heldBack (addEntry s n a b c) := rfl

theorem held_survey (s : State) (loc l) : surveyReport (heldBack s) loc l = heldBack (surveyReport s loc l) := by
  unfold surveyReport surveyLine0 surveyLine1
  have b : (heldBack s).mu = s.mu := rfl
  simp only [b, held_addEntry, held_modMu, held_issue, held_surveyNext]
  split
  · split <;> rfl
  · split <;> rfl

theorem held_mount (s : State) (loc l) (h : s.mu.phase ≠ .settle) : mountReport (heldBack s) loc (.readDone l) = heldBack
    (mountReport s loc (.readDone l)) := by
  unfold mountReport
  have b : (heldBack s).mu = s.mu := rfl
  rw [b]
  cases hp : s.mu.phase
  case settle => exact absurd hp h
  all_goals first | rfl | exact held_survey _ _ _ | exact held_collectReport _ _ | exact held_replayReport _ _

/-! ### What the units keep while no halt is requested -/

/-- No halt is requested, no program is in progress, the store is not HALTED and no line of a copy is in hand. -/
def Quieted (s : State) : Prop := s.eng.haltReq = false ∧ (∀ l c, s.seqr ≠ some
    (.program l c)) ∧ s.eng.store ≠ .halted ∧ noCopyLine s

theorem quieted_read (s : State) (l) (h : Quieted s) : Quieted (issue s (.read l)) := by
  unfold issue; split
  · exact h
  · exact ⟨h.1, by simp, h.2.2⟩

theorem quieted_erase (s : State) (l) (h : Quieted s) : Quieted (issue s (.erase l)) := by
  unfold issue; split
  · exact h
  · exact ⟨h.1, by simp, h.2.2⟩

theorem quieted_ite {p : Prop} [Decidable p] (a b : State) (ha : Quieted a) (hb : Quieted b) : Quieted
    (if p then a else b) := by split <;> assumption

theorem quieted_foldl {α} (f : State → α → State) (hf : ∀ s a, Quieted s → Quieted (f s a)) (l : List α) (s : State) (h :
    Quieted s) : Quieted (l.foldl f s) := by
  induction l generalizing s with
  | nil => exact h
  | cons a l ih => exact ih _ (hf s a h)

theorem quieted_segUpd (s : State) (n f) (h : Quieted s) : Quieted (segUpd s n f) := by
  unfold segUpd; exact quieted_ite _ _ h h

theorem quieted_killPart (s : State) (p) (h : Quieted s) : Quieted (killPart s p) := quieted_segUpd s _ _ h

theorem quieted_killPart_opt (s : State) (p) (h : Quieted s) : Quieted (killPart? s p) := by
  cases p; exact h; exact quieted_killPart s _ h

theorem quieted_dropPending (s : State) (h : Quieted s) : Quieted (dropPending s) :=
    quieted_foldl killPart quieted_killPart _ s h

theorem quieted_teardown (s : State) (o) (h : Quieted s) : Quieted (teardown s o) := by
  unfold teardown; split
  · exact h
  · exact quieted_ite _ _ (quieted_dropPending s h) (quieted_dropPending s h)

theorem quieted_setSlot (s : State) (b v) (h : Quieted s) : Quieted (setSlot s b v) := by cases b <;> exact h

theorem quieted_postResult (s : State) (c r) (h : Quieted s) : Quieted (postResult s c r) := by
  unfold postResult; split
  · exact h
  · unfold answerRunning; split
    · exact quieted_setSlot _ _ _ h
    · exact h

theorem quieted_complete (s : State) (r) (h : Quieted s) : Quieted (complete s r) := by
  unfold complete; split
  · exact h
  · rename_i c hc
    show Quieted (if c.tearDue then teardown { postResult s c r with inflight := none, holder := if
        (postResult s c r).holder = .command then .none else
            (postResult s c r).holder } false else { postResult s c r with inflight := none, holder := if
                (postResult s c r).holder = .command then .none else (postResult s c r).holder })
    exact quieted_ite _ _ (quieted_teardown _ _ (quieted_postResult s c r h)) (quieted_postResult s c r h)

theorem quieted_completeFail (s : State) (r) (h : Quieted s) : Quieted (completeFail s r) := by
  unfold completeFail; split
  · exact h
  · exact quieted_complete _ _ h

theorem quieted_staging (s : State) (b i v) (h : Quieted s) : Quieted (stagingWriteList s b i v) := by
  induction v generalizing s i with
  | nil => exact h
  | cons x v ih => exact ih (stagingWrite s b i x) (i + 1) h

theorem quieted_place (s : State) (c b i v) (h : Quieted s) : Quieted (placeBytes s c b i v) := by
  unfold placeBytes; split
  · exact quieted_staging _ _ _ _ h
  · exact h

theorem quieted_readContent (s : State) (l) (h : Quieted s) : Quieted (readContent s l).2 := by
  unfold readContent; cases l <;> exact h

theorem quieted_getReport (s : State) (c b l) (h : Quieted s) : Quieted (getReport s c b l) := by
  unfold getReport
  refine quieted_ite _ _ (quieted_complete _ _ h) (quieted_ite _ _ (quieted_read _ _ ?_) (quieted_complete _ _ ?_))
  all_goals exact quieted_place _ _ _ _ _ (quieted_readContent _ _ h)

theorem quieted_listReport (s : State) (c b n l) (h : Quieted s) : Quieted (listReport s c b n l) := by
  unfold listReport listNext
  refine quieted_ite _ _ (quieted_complete _ _ h) ?_
  dsimp only; split
  · exact quieted_complete _ _ (quieted_place _ _ _ _ _ h)
  · exact quieted_ite _ _ (quieted_read _ _ (quieted_place _ _ _ _ _ h)) (quieted_complete _ _ (quieted_place _ _ _ _ _ h))

theorem quieted_formatEnd (s : State) (h : Quieted s) : Quieted (formatEnd s) := by
  unfold formatEnd
  apply quieted_complete
  dsimp only
  cases decide (4 ≤ usableCount s) <;> exact ⟨h.1, h.2.1, by simp [raise], h.2.2.2⟩

theorem quieted_step1Next (s : State) (f) (h : Quieted s) : Quieted (step1Next s f) := by
  unfold step1Next; split
  · exact quieted_formatEnd s h
  · exact quieted_erase _ _ h

theorem quieted_formatEnter (s : State) (f m) (h : Quieted s) : Quieted (formatEnter s f m) := by
  unfold formatEnter
  apply quieted_step1Next
  have := quieted_teardown s false h
  exact ⟨this.1, this.2.1, by simp, by intro r k hr; cases hr⟩

theorem quieted_formatCheck (s : State) (f n l) (h : Quieted s) : Quieted (formatCheckReport s f n l) := by
  unfold formatCheckReport
  cases classify0 l
  all_goals
    dsimp only
    split
    · exact quieted_read _ _ h
    · split
      · exact quieted_completeFail _ _ h
      · exact quieted_formatEnter _ _ _ h

theorem quieted_tell (s : State) (r) (h : Quieted s) : Quieted (tellMounter s r) := by
  unfold tellMounter; split
  · exact quieted_ite _ _ (quieted_complete _ _ h) h
  · exact h

theorem quieted_mountEnd (s : State) (m) (h : Quieted s) : Quieted (mountEnd s m) := by
  show Quieted (tellMounter (mountEnded s m (storeAfterMount s m)) (mountResult (mountEnded s m (storeAfterMount s m)) m))
  apply quieted_tell
  have : storeAfterMount s m ≠ .halted := by unfold storeAfterMount; split <;> [split; skip; skip] <;> simp
  generalize storeAfterMount s m = st at this
  by_cases hm : m = .ok <;> by_cases hs : st = .readOnly <;> simp only [mountEnded, hm, hs, if_true,
      if_false] <;> exact ⟨h.1, h.2.1, by first | exact this | (simp [raise, emptyTables]), h.2.2.2⟩

theorem quieted_settleNext (s : State) (h : Quieted s) : Quieted (settleNext s) := by
  unfold settleNext; split
  · exact quieted_erase _ _ h
  · exact quieted_mountEnd _ _ h

theorem quieted_account (s : State) (h : Quieted s) : Quieted (account s) := quieted_settleNext _ h

theorem quieted_replayEnd (s : State) (h : Quieted s) : Quieted (replayEnd s) := quieted_account _ h

theorem quieted_replayNext (s : State) (h : Quieted s) : Quieted (replayNext s) := by
  unfold replayNext; split
  · exact quieted_replayEnd s h
  · exact quieted_read _ _ h

theorem quieted_applyPart (s : State) (k p) (h : Quieted s) : Quieted (applyPart s k p) := by
  unfold applyPart; split
  · exact h
  · exact quieted_ite _ _ h (quieted_ite _ _ h h)

theorem quieted_replayJudged (s : State) (f a) (h : Quieted s) : Quieted (replayJudged s f a) := by
  unfold replayJudged
  exact quieted_ite _ _ (quieted_ite _ _ (quieted_mountEnd _ _ h) (quieted_replayNext _ (quieted_applyPart _ _ _ h)))
      (quieted_replayNext _ h)

theorem quieted_replayReport (s : State) (l) (h : Quieted s) : Quieted (replayReport s l) := by
  unfold replayReport; split
  · exact h
  · exact quieted_ite _ _ (quieted_read _ _ h) (quieted_replayJudged _ _ _ h)

theorem quieted_segEnd (s : State) (n wp st) (h : Quieted s) : Quieted (scanSegmentEnd s n wp st) := by
  have : Quieted (journalUpd s n (fun j => { j with wp := wp })) := quieted_segUpd _ _ _ h
  unfold scanSegmentEnd
  dsimp only
  generalize hy : (if st then _ else _ : State) = y
  have hy' : Quieted y := by rw [← hy]; exact quieted_ite _ _ this this
  split
  · exact quieted_read _ _ hy'
  · exact quieted_replayNext _ hy'

theorem quieted_scanAdvance (s : State) (l e) (h : Quieted s) : Quieted (scanAdvance s l e) := by
  unfold scanAdvance; exact quieted_ite _ _ (quieted_read _ _ h) (quieted_segEnd _ _ _ _ h)

theorem quieted_scanHeader (s : State) (l c) (h : Quieted s) : Quieted (scanHeader s l c) := by
  unfold scanHeader; split
  · exact quieted_ite _ _ (quieted_segEnd _ _ _ _ h) (quieted_segEnd _ _ _ _ h)
  · exact quieted_ite _ _ (quieted_ite _ _ (quieted_read _ _ h) (quieted_scanAdvance _ _ _ h)) (quieted_segEnd _ _ _ _ h)

theorem quieted_collectJudged (s : State) (f a) (h : Quieted s) : Quieted (collectJudged s f a) := by
  unfold collectJudged
  exact quieted_ite _ _ (quieted_ite _ _ (quieted_ite _ _ (quieted_mountEnd _ _ h) (quieted_scanAdvance _ _ _ h))
      (quieted_ite _ _ (quieted_mountEnd _ _ h) (quieted_scanAdvance _ _ _ h))) (quieted_scanAdvance _ _ _ h)

theorem quieted_collectReport (s : State) (l) (h : Quieted s) : Quieted (collectReport s l) := by
  unfold collectReport; split
  · exact quieted_ite _ _ (quieted_read _ _ h) (quieted_collectJudged _ _ _ h)
  · split
    · exact quieted_scanHeader _ _ _ h
    · exact h

theorem quieted_verdict (s : State) (h : Quieted s) : Quieted (surveyVerdict s) := by
  unfold surveyVerdict
  dsimp only
  refine quieted_ite _ _ (quieted_mountEnd _ _ h) (quieted_ite _ _ (quieted_mountEnd _ _ h) (quieted_ite _ _
      (quieted_mountEnd _ _ h) ?_))
  split
  · exact quieted_read _ _ h
  · exact quieted_mountEnd _ _ h

theorem quieted_surveyNext (s : State) (n) (h : Quieted s) : Quieted (surveyNext s n) := by
  unfold surveyNext; exact quieted_ite _ _ (quieted_read _ _ h) (quieted_verdict _ h)

theorem quieted_survey (s : State) (loc l) (h : Quieted s) : Quieted (surveyReport s loc l) := by
  unfold surveyReport surveyLine0 surveyLine1
  split
  · split
    all_goals first | exact quieted_read _ _ h | exact quieted_surveyNext _ _ h
  · split
    · exact h
    · exact quieted_surveyNext _ _ h

theorem quieted_mount (s : State) (loc l) (hp : s.mu.phase ≠ .settle) (h : Quieted s) : Quieted (mountReport s loc
    (.readDone l)) := by
  unfold mountReport
  cases hp2 : s.mu.phase
  case settle => exact absurd hp2 hp
  all_goals
    first | exact h | exact quieted_survey _ _ _ h | exact quieted_collectReport _ _ h | exact quieted_replayReport _ _ h

/-- A read of a command or of a mount before SETTLE. -/
theorem held_read (x : State) (loc l) (hx : (x.holder = .command ∧ ∃ c, x.inflight = some c ∧ (c.stage = .read ∨ c.stage =
    .format))
    ∨ (x.holder = .mount ∧ x.mu.phase ≠ .settle)) (h : Quieted x) :
    onReport (heldBack x) loc (.readDone l) = heldBack (onReport x loc (.readDone l)) ∧ Quieted (onReport x loc
        (.readDone l)) := by
  rcases hx with ⟨hh, c, hc, hs⟩ | ⟨hh, hp⟩
  · have e : ∀ y : State, y.holder = .command → onReport y loc (.readDone l) = commandReport y loc (.readDone l) := by
      intro y hy; unfold onReport; rw [hy]
    rw [e _ (by exact hh), e x hh]
    have hc' : (heldBack x).inflight = some c := hc
    have hfu : (heldBack x).fu = x.fu := rfl
    unfold commandReport
    rw [hc, hc', hfu]
    rcases hs with hs | hs
    · simp only [hs]
      cases hcm : c.cmd <;> simp only
      all_goals first
        | exact ⟨held_getReport _ _ _ _, quieted_getReport _ _ _ _ h⟩
        | exact ⟨held_listReport _ _ _ _ _, quieted_listReport _ _ _ _ _ h⟩
        | exact ⟨trivial, h⟩
    · simp only [hs]
      split
      · exact ⟨held_formatCheck _ _ _ _, quieted_formatCheck _ _ _ _ h⟩
      · exact ⟨rfl, h⟩
  · have e : ∀ y : State, y.holder = .mount → onReport y loc (.readDone l) = mountReport y loc (.readDone l) := by
      intro y hy; unfold onReport; rw [hy]
    rw [e _ (by exact hh), e x hh]
    exact ⟨held_mount _ _ _ hp, quieted_mount _ _ _ hp h⟩

theorem held_eraseEnded (s : State) (n) : eraseEnded (heldBack s) n = heldBack (eraseEnded s n) := by
  unfold eraseEnded
  have a : lowestEpoch (heldBack s) = lowestEpoch s := rfl
  have key : ∀ y : State, { heldBack y with rc := { (heldBack y).rc with droppedTombs := 0, droppedCommits := 0 } } =
      heldBack { y with rc := { y.rc with droppedTombs := 0, droppedCommits := 0 } } := fun _ => rfl
  dsimp only
  rw [a, held_segUpd]
  split
  · exact key _
  · rfl

theorem held_countFault (s : State) (n) : countFault (heldBack s) n = heldBack (countFault s n) := by
  unfold countFault; rw [held_segUpd, held_raise]

theorem held_enterReadOnly (s : State) : enterReadOnly (heldBack s) = heldBack (enterReadOnly s) := by
  unfold enterReadOnly
  have a : (heldBack s).eng.store = s.eng.store := rfl
  rw [a]
  split
  · rfl
  · have key : ∀ y : State, (match (heldBack y).inflight with
        | none => teardown (heldBack y) false
        | some c =>
          match c.stage with
          | .waitSpace _ => completeFail (modCtx (heldBack y) (fun c => { c with tearDue := true })) .readOnly
          | _ => modCtx (heldBack y) (fun c => { c with tearDue := true })) = heldBack (match y.inflight with
        | none => teardown y false
        | some c =>
          match c.stage with
          | .waitSpace _ => completeFail (modCtx y (fun c => { c with tearDue := true })) .readOnly
          | _ => modCtx y (fun c => { c with tearDue := true })) := by
      intro y
      have : (heldBack y).inflight = y.inflight := rfl
      rw [this]
      split
      · exact held_teardown _ _
      · split
        · rw [held_modCtx, held_completeFail]
        · rfl
    exact key (raise { s with eng := { s.eng with store := .readOnly } } .rdOnly)

theorem held_retire (s : State) (n) : retireSegment (heldBack s) n = heldBack (retireSegment s n) := by
  unfold retireSegment
  have a : ∀ y : State, usableCount (heldBack y) = usableCount y := fun _ => rfl
  dsimp only
  rw [a, held_setSeg, held_raise, a, held_enterReadOnly]
  split <;> rfl

theorem held_prep (s : State) (n p v rep) : prepReport (heldBack s) n p v rep = (heldBack (prepReport s n p v rep).1,
    (prepReport s n p v rep).2) := by
  have rp : ∀ y : State, ∀ m, retirePendingOf (heldBack y) m = retirePendingOf y m := fun _ _ => rfl
  unfold prepReport
  cases p <;> cases rep <;> dsimp only
  all_goals first
    | rfl
    | (rw [held_eraseEnded, rp, held_prepIssue])
    | (rw [held_eraseEnded, held_prepIssue])
    | (show (segUpd _ _ _, _) = _; rw [held_segUpd]; rfl)
    | (rw [held_countFault, held_setSeg, rp, held_prepIssue])
    | (split <;> [rw [held_prepIssue]; rw [held_retire]])
    | (unfold markKnown; rw [held_segUpd, held_retire])
    | (rw [held_countFault, held_retire])

theorem held_settleReport (s : State) (rep) : settleReport (heldBack s) rep = heldBack (settleReport s rep) := by
  unfold settleReport
  have : (heldBack s).mu = s.mu := rfl
  rw [this]; split
  · rfl
  · dsimp only
    rw [held_prep]
    dsimp only
    split
    · rfl
    · exact held_settleNext _

theorem held_step2Next (s : State) (f) : step2Next (heldBack s) f = heldBack (step2Next s f) := by
  unfold step2Next; split
  · exact held_formatEnd s
  · rw [held_setFu, held_issue]

theorem held_formatStage (s : State) (f n b p) : formatStage (heldBack s) f n b p = heldBack (formatStage s f n b p) := by
  unfold formatStage
  have : (heldBack s).eng.volId = s.eng.volId := rfl
  rw [this, held_setFu, held_prepIssue]

theorem held_formatRetired (s : State) (f n b) : formatRetired (heldBack s) f n b = heldBack (formatRetired s f n b) := by
  unfold formatRetired; rw [held_retire, held_step1Next, held_step2Next]; split <;> rfl

theorem held_formatPrepared (s : State) (f n b) : formatPrepared (heldBack s) f n b = heldBack (formatPrepared s f n b) := by
  unfold formatPrepared segmentPrepared markKnown
  have : (heldBack s).eng.volId = s.eng.volId := rfl
  rw [this, held_segUpd, held_segUpd, held_setFu, held_issue, held_step2Next]; split <;> rfl

theorem held_formatSegment (s : State) (f n b p rep) : formatSegment (heldBack s) f n b p rep = heldBack
    (formatSegment s f n b p rep) := by
  unfold formatSegment
  cases p <;> cases rep <;> dsimp only
  all_goals first
    | rfl
    | rw [held_eraseEnded, held_formatStage]
    | rw [held_formatPrepared]
    | rw [held_countFault, held_formatStage]
    | (split <;> [rw [held_formatStage]; rw [held_formatRetired]])
    | (unfold markKnown; rw [held_segUpd, held_formatRetired])
    | rw [held_countFault, held_formatRetired]

theorem held_formatReport (s : State) (f rep) : formatReport (heldBack s) f rep = heldBack (formatReport s f rep) := by
  unfold formatReport
  split
  · rfl
  · exact held_formatSegment _ _ _ _ _ _
  · exact held_formatSegment _ _ _ _ _ _
  · cases rep <;> dsimp only
    · unfold step1Opened
      have key : ∀ (y : State) n st g, step2Next (setSegState { heldBack y with sm := { (heldBack y).sm with nextEpoch :=
          2 } } n st) g = heldBack (step2Next (setSegState { y with sm := { y.sm with nextEpoch := 2 } } n st) g) := by
        intro y n st g
        rw [show ({ heldBack y with sm := { (heldBack y).sm with nextEpoch := 2 } } : State) = heldBack { y with sm :=
            { y.sm with nextEpoch := 2 } } from rfl, held_setSeg, held_step2Next]
      exact key _ _ _ _
    · rw [held_countFault, held_formatStage]

/-- The same, with a program in progress only to an ERASED line. -/
def Issuing (s : State) : Prop := s.eng.haltReq = false ∧ (∀ l c, s.seqr = some (.program l c) → lineAt s l =
    .erased) ∧ s.eng.store ≠ .halted ∧ noCopyLine s

theorem Quieted.issuing {s : State} (h : Quieted s) : Issuing s := ⟨h.1, fun l c e => absurd e (h.2.1 l c), h.2.2⟩

theorem issuing_prog (s : State) (l c) (h : Quieted s) (he : lineAt s l = .erased) : Issuing (issue s (.program l c)) := by
  unfold issue; rw [if_neg (by rw [h.1]; simp)]
  refine ⟨h.1, fun m d e => ?_, h.2.2⟩
  cases e; exact he

theorem issuing_prepIssue (s : State) (n p v) (h : Quieted s) (he : (p = .spare ∨ p = .retireProg) → lineAt s ⟨n, 0⟩ =
    .erased) : Issuing (prepIssue s n p v) := by
  unfold prepIssue
  cases p
  · exact Quieted.issuing (quieted_erase _ _ h)
  · exact issuing_prog _ _ _ h (he (.inl rfl))
  · exact Quieted.issuing (quieted_read _ _ h)
  · exact issuing_prog _ _ _ h (he (.inr rfl))

theorem quieted_eraseEnded (s : State) (n) (h : Quieted s) : Quieted (eraseEnded s n) := by
  unfold eraseEnded; exact quieted_ite _ _ (quieted_segUpd _ _ _ h) (quieted_segUpd _ _ _ h)

theorem quieted_countFault (s : State) (n) (h : Quieted s) : Quieted (countFault s n) := quieted_segUpd s n _ h

theorem quieted_enterReadOnly (s : State) (h : Quieted s) : Quieted (enterReadOnly s) := by
  unfold enterReadOnly
  refine quieted_ite _ _ h ?_
  have key : ∀ y : State, Quieted y → Quieted (match y.inflight with
        | none => teardown y false
        | some c =>
          match c.stage with
          | .waitSpace _ => completeFail (modCtx y (fun c => { c with tearDue := true })) .readOnly
          | _ => modCtx y (fun c => { c with tearDue := true })) := by
    intro y hy
    split
    · exact quieted_teardown _ _ hy
    · split
      · exact quieted_completeFail _ _ hy
      · exact hy
  exact key (raise { s with eng := { s.eng with store := .readOnly } } .rdOnly) ⟨h.1, h.2.1, by simp [raise], h.2.2.2⟩

theorem quieted_retire (s : State) (n) (h : Quieted s) : Quieted (retireSegment s n) := by
  unfold retireSegment
  exact quieted_ite _ _ (quieted_enterReadOnly _ (quieted_segUpd s n _ h)) (quieted_segUpd s n _ h)

theorem segUpd_array (s : State) (n f) : (segUpd s n f).array = s.array := by unfold segUpd; dsimp only; split <;> rfl

theorem eraseEnded_array (s : State) (n) : (eraseEnded s n).array = s.array :=
    by unfold eraseEnded; dsimp only; split <;> exact segUpd_array _ _ _

/-- Line 0 of segment `n` is ERASED where the report `rep` of stage `p` makes a program to it follow. -/
def lineReady (s : State) (n : Nat) (p : PrepStage) (rep : Report) : Prop :=
  (p = .erase → rep = .eraseDone → lineAt s ⟨n, 0⟩ = .erased) ∧ (p = .retireRead → rep = .readDone .erased → lineAt s ⟨n,
      0⟩ = .erased)

theorem quieted_prep (s : State) (n p v rep) (h : Quieted s) (hr : lineReady s n p rep) :
    Issuing (prepReport s n p v rep).1 ∧ ((prepReport s n p v rep).2 = none → Quieted (prepReport s n p v rep).1) := by
  unfold prepReport
  cases p <;> cases rep <;> dsimp only
  case erase.eraseDone =>
    refine ⟨issuing_prepIssue _ _ _ _ (quieted_eraseEnded _ _ h) (fun _ => ?_), by simp⟩
    rw [lineAt_congr (eraseEnded_array s n) ⟨n, 0⟩]; exact hr.1 rfl rfl
  case erase.eraseFault => exact ⟨issuing_prepIssue _ _ _ _ (quieted_eraseEnded _ _ h) (by simp), by simp⟩
  case spare.programDone => exact ⟨Quieted.issuing (quieted_segUpd _ _ _ h), fun _ => quieted_segUpd _ _ _ h⟩
  case spare.programFault =>
    refine ⟨issuing_prepIssue _ _ _ _ (quieted_segUpd _ _ _ (quieted_countFault _ _ h)) (fun hq => ?_), by simp⟩
    split at hq <;> simp at hq
  case retireRead.readDone l =>
    split
    · rename_i hl; subst hl
      exact ⟨issuing_prepIssue _ _ _ _ h (fun _ => hr.2 rfl rfl), by simp⟩
    · exact ⟨Quieted.issuing (quieted_retire _ _ h), fun _ => quieted_retire _ _ h⟩
  case retireProg.programDone => exact ⟨Quieted.issuing (quieted_retire _ _ (quieted_segUpd _ _ _ h)),
      fun _ => quieted_retire _ _ (quieted_segUpd _ _ _ h)⟩
  case retireProg.programFault => exact ⟨Quieted.issuing (quieted_retire _ _ (quieted_countFault _ _ h)),
      fun _ => quieted_retire _ _ (quieted_countFault _ _ h)⟩
  all_goals exact ⟨Quieted.issuing h, by simp⟩

theorem quieted_settleReport (s : State) (rep) (h : Quieted s) (hr : ∀ n p, s.mu.settling = some (n, p) →
    lineReady s n p rep) : Issuing (settleReport s rep) := by
  unfold settleReport
  split
  · exact Quieted.issuing h
  · rename_i n p hs
    have := quieted_prep s n p s.mu.foundVid rep h (hr n p hs)
    dsimp only
    split
    · exact this.1
    · rename_i hq; exact Quieted.issuing (quieted_settleNext _ (this.2 hq))

theorem quieted_step2Next (s : State) (f) (h : Quieted s) : Quieted (step2Next s f) := by
  unfold step2Next; split
  · exact quieted_formatEnd s h
  · exact quieted_erase _ _ h

theorem quieted_formatRetired (s : State) (f n b) (h : Quieted s) : Quieted (formatRetired s f n b) := by
  unfold formatRetired; exact quieted_ite _ _ (quieted_step1Next _ _ (quieted_retire _ _ h)) (quieted_step2Next _ _
      (quieted_retire _ _ h))

theorem issuing_formatStage (s : State) (f n b p) (h : Quieted s) (he : (p = .spare ∨ p = .retireProg) → lineAt s ⟨n, 0⟩ =
    .erased) : Issuing (formatStage s f n b p) :=
  issuing_prepIssue _ _ _ _ h he

theorem quieted_formatSegment (s : State) (f n b p rep) (h : Quieted s) (hr : lineReady s n p rep) (h1 : b = true → p =
    .spare → lineAt s ⟨n, 1⟩ = .erased) :
    Issuing (formatSegment s f n b p rep) := by
  unfold formatSegment
  cases p <;> cases rep <;> dsimp only
  case erase.eraseDone =>
    refine issuing_formatStage _ _ _ _ _ (quieted_eraseEnded _ _ h) (fun _ => ?_)
    rw [lineAt_congr (eraseEnded_array s n) ⟨n, 0⟩]; exact hr.1 rfl rfl
  case erase.eraseFault => exact issuing_formatStage _ _ _ _ _ (quieted_eraseEnded _ _ h) (by simp)
  case spare.programDone =>
    unfold formatPrepared
    cases b
    · exact Quieted.issuing (quieted_step2Next _ _ (quieted_segUpd _ _ _ h))
    · refine issuing_prog _ _ _ (quieted_segUpd s n _ h) ?_
      show lineAt (setFu (segUpd s n _) _) _ = _
      rw [lineAt_congr (by exact segUpd_array s n _) ⟨n, 1⟩]; exact h1 rfl rfl
  case spare.programFault => exact issuing_formatStage _ _ _ _ _ (quieted_countFault _ _ h) (by simp)
  case retireRead.readDone l =>
    split
    · rename_i hl; subst hl; exact issuing_formatStage _ _ _ _ _ h (fun _ => hr.2 rfl rfl)
    · exact Quieted.issuing (quieted_formatRetired _ _ _ _ h)
  case retireProg.programDone => exact Quieted.issuing (quieted_formatRetired _ _ _ _ (quieted_segUpd _ _ _ h))
  case retireProg.programFault => exact Quieted.issuing (quieted_formatRetired _ _ _ _ (quieted_countFault _ _ h))
  all_goals exact Quieted.issuing h

theorem quieted_step1Opened (s : State) (f n rep) (h : Quieted s) (hf : f.phase = .step1Open n) : Issuing
    (formatReport s f rep) := by
  unfold formatReport
  rw [hf]
  cases rep <;> dsimp only
  case programDone => exact Quieted.issuing (quieted_step2Next _ _ (quieted_segUpd { s with sm := { s.sm with
      nextEpoch := 2 } } _ _ h))
  case programFault => exact issuing_formatStage _ _ _ _ _ (quieted_countFault _ _ h) (by simp)
  all_goals exact Quieted.issuing h

theorem lineReady_of (x : State) (n : Nat) (p : PrepStage) (rep : Report) (h1 : rep = .eraseDone → p = .erase →
    lineAt x ⟨n, 0⟩ = .erased)
    (h2 : ∀ y, rep = .readDone y → p = .retireRead → y = lineAt x ⟨n, 0⟩) : lineReady x n p rep :=
  ⟨fun a b => h1 b a, fun a b => (h2 _ b a).symm⟩

/-- The end of an operation under a halt request: the unit acts on it as it would without one, and HALTED follows. -/
theorem halted_after_report (s w : State) (i : Instr) (x : State) (loc : Loc) (rep : Report)
    (b1 : exec i s = .next (settleRefused 8 (deliver (heldBack x) loc rep)))
    (b2 : exec i { s with eng := { s.eng with haltReq := false } } = .next (settleRefused 8 (deliver x loc rep)))
    (p1 : onReport (heldBack x) loc rep = heldBack (onReport x loc rep)) (p2 : Issuing (onReport x loc rep))
    (hw : exec i { s with eng := { s.eng with haltReq := false } } = .next w) :
    (w.inflight = none → exec i s = .next (haltedWith (heldBack w)))
    ∧ ∀ (c : Ctx) (r : Result), w.inflight = some c → c.unstopped → haltedResult w c r →
      exec i s = .next (haltedWith (answeredCmd (heldBack w) c r)) := by
  have hwe : w = onReport x loc rep := by
    rw [b2] at hw
    have : deliver x loc rep = onReport x loc rep := haltIfDue_unasked _ p2.1
    rw [this] at hw
    have se : settleRefused 8 (onReport x loc rep) = onReport x loc rep := by
      unfold settleRefused
      split
      · rename_i l c hl; rw [if_pos (p2.2.1 l c hl)]
      · rfl
    rw [se] at hw
    cases hw; rfl
  have base : exec i s = .next (settleRefused 8 (haltEntry (heldBack w))) := by
    rw [b1]; unfold deliver
    rw [p1, ← hwe]
    congr 2
    unfold haltIfDue
    have : w.eng.store ≠ .halted := by rw [hwe]; exact p2.2.2.1
    rw [if_pos (by simp [heldBack, this])]
  have hnw : noCopyLine (heldBack w) := by rw [hwe]; exact p2.2.2.2
  have fin : ∀ y : State, y.seqr = none → settleRefused 8 (haltedWith y) = haltedWith y := fun y hy => settle_idle
      (by exact hy)
  refine ⟨fun hi => ?_, fun c r hi hu hr => ?_⟩
  · rw [base, haltEntry_idle _ hnw (by exact hi), fin _ rfl]
  · rw [base, haltEntry_command _ hnw c r (by exact hi) hu (by exact hr), fin _ rfl]

/-! ### PUBLISH -/

theorem held_publishCommitted (s : State) (k p) : publishCommitted (heldBack s) k p = heldBack (publishCommitted s k p) := by
  unfold publishCommitted
  have e : (heldBack s).dir = s.dir := rfl
  have key : ∀ (y : State) d, { heldBack y with dir := d } = heldBack { y with dir := d } := fun _ _ => rfl
  dsimp only
  rw [e, held_accountLive, held_killPart_opt]; exact key _ _

theorem held_publishPending (s : State) (k p) : publishPending (heldBack s) k p = heldBack (publishPending s k p) := by
  unfold publishPending
  have e : (heldBack s).dir = s.dir := rfl
  have e2 : (heldBack s).batch = s.batch := rfl
  have key : ∀ (y : State) d b, { heldBack y with dir := d, batch := b } = heldBack { y with dir := d, batch := b } :=
      fun _ _ _ => rfl
  dsimp only
  rw [e, e2, held_accountLive, held_pinUp]; exact key _ _ _

theorem held_promote (x : State) (k : Member) : promoteKey (heldBack x) k.key = heldBack (promoteKey x k.key) := by
  unfold promoteKey
  have e : (heldBack x).dir = x.dir := rfl
  have key : ∀ (y : State) d, { heldBack y with dir := d } = heldBack { y with dir := d } := fun _ _ => rfl
  rw [e]; split
  · rfl
  · split
    · rfl
    · rw [held_killPart_opt]; exact key _ _

theorem held_commitBatch (s : State) (c) : commitBatch (heldBack s) c = heldBack (commitBatch s c) := by
  unfold commitBatch
  have e : (heldBack s).batch = s.batch := rfl
  have key : ∀ (y : State) x, { heldBack y with commits := commitInsert x (heldBack y).commits, batch := none } =
      heldBack { y with commits := commitInsert x y.commits, batch := none } := fun _ _ => rfl
  have pa : ∀ (ms : List Member) (x : State), promoteAll (heldBack x) ms = heldBack (promoteAll x ms) := by
    intro ms x; exact held_foldl (fun t (m : Member) => promoteKey t m.key) held_promote ms x
  rw [e]; split
  · exact held_accountDead _ _ _
  · dsimp only
    rw [held_accountLive, pa, held_clearPins]; exact key _ _

theorem held_publish (s : State) (c) : publish (heldBack s) c = heldBack (publish s c) := by
  unfold publish
  have key : ∀ (y : State) x, { heldBack y with freezes := freezeInsert x (heldBack y).freezes } = heldBack { y with
      freezes := freezeInsert x y.freezes } := fun _ _ => rfl
  cases c.cmd
  case put => dsimp only; rw [held_publishPending, held_publishCommitted, held_ite]
  case delete => dsimp only; rw [held_publishPending, held_publishCommitted, held_ite]
  case freeze => dsimp only; rw [held_accountLive]; exact key _ _
  case batchCommit => exact held_commitBatch _ _
  all_goals rfl

/-- PUBLISH changes the tables and the alerts only. -/
theorem publish_induct (P : State → Prop)
    (hP : ∀ (s : State) sm al d b cm f, P s →
      P { s with sm := sm, alert := al, dir := d, batch := b, commits := cm, freezes := f })
    (s : State) (c : Ctx) (h : P s) : P (publish s c) := by
  have su : ∀ (y : State) n f, P y → P (segUpd y n f) := by
    intro y n f hy; unfold segUpd; dsimp only; split
    · exact hP y _ _ y.dir y.batch y.commits y.freezes hy
    · exact hP y _ y.alert y.dir y.batch y.commits y.freezes hy
  have kp : ∀ (y : State) p, P y → P (killPart? y p) := by
    intro y p hy; cases p; exact hy; exact su _ _ _ hy
  have al : ∀ n e, P (accountLive s n e) := fun n e => su _ _ _ h
  have pc : ∀ k p, P (publishCommitted s k p) := fun k p => by
    unfold publishCommitted; dsimp only
    have hk := kp (accountLive s p.loc.seg (extentOf p.len)) ((dirLookup s.dir k).bind DirEntry.committed) (al _ _)
    generalize killPart? _ _ = y at hk ⊢
    exact hP y y.sm y.alert _ y.batch y.commits y.freezes hk
  have pp : ∀ k p, P (publishPending s k p) := fun k p => by
    unfold publishPending; dsimp only
    have hk : P (pinUp (accountLive s p.loc.seg (extentOf p.len)) p.loc.seg) := su _ _ _ (al _ _)
    generalize pinUp _ _ = y at hk ⊢
    exact hP y y.sm y.alert _ _ y.commits y.freezes hk
  have pk : ∀ (ms : List Member) (y : State), P y → P (promoteAll y ms) := by
    intro ms; induction ms with
    | nil => intro y hy; exact hy
    | cons m ms ih =>
      intro y hy
      refine ih (promoteKey y m.key) ?_
      unfold promoteKey; split
      · exact hy
      · split
        · exact hy
        · rename_i e _ _ p _
          have hk := kp y e.committed hy
          dsimp only
          generalize hz : killPart? y e.committed = z at hk ⊢
          exact hP z z.sm z.alert _ z.batch z.commits z.freezes hk
  unfold publish
  cases c.cmd
  case put => dsimp only; split <;> first | exact pp _ _ | exact pc _ _
  case delete => dsimp only; split <;> first | exact pp _ _ | exact pc _ _
  case freeze =>
    dsimp only
    have hk := al c.place.seg c.lines.length
    generalize accountLive _ _ _ = y at hk ⊢
    exact hP y y.sm y.alert y.dir y.batch y.commits _ hk
  case batchCommit =>
    dsimp only
    unfold commitBatch; split
    · exact su _ _ _ h
    · rename_i b _
      have hk := pk b.members _ (al c.place.seg c.lines.length)
      dsimp only
      generalize promoteAll _ _ = y at hk ⊢
      exact hP y _ y.alert y.dir none _ y.freezes hk
  all_goals exact h

end Sys2Proof.Machine
end

