-- ==== Sys2Proof/Laws/Lines.lean ====
section
/-! SUPPORT. The bytes of a line: a line built from sixteen bytes holds them in order, and the fields of one, two, three or
four bytes are read as they were written. -/

namespace Sys2Proof.Machine

theorem extract_low (acc : LineBits) (b : Byte) : ((acc <<< 8) ||| b.setWidth 128).extractLsb' 0 8 = b := by
  apply BitVec.eq_of_getLsbD_eq
  intro i hi
  simp only [BitVec.getLsbD_extractLsb', BitVec.getLsbD_or, BitVec.getLsbD_shiftLeft, BitVec.getLsbD_setWidth]
  simp [hi]
  omega

theorem extract_high (acc : LineBits) (b : Byte) (k : Nat) (hk : 8 ≤ k) (hk2 : k ≤ 120) :
    ((acc <<< 8) ||| b.setWidth 128).extractLsb' k 8 = acc.extractLsb' (k - 8) 8 := by
  apply BitVec.eq_of_getLsbD_eq
  intro i hi
  simp only [BitVec.getLsbD_extractLsb', BitVec.getLsbD_or, BitVec.getLsbD_shiftLeft, BitVec.getLsbD_setWidth]
  have h1 : k + i < 128 := by omega
  have h2 : ¬ k + i < 8 := by omega
  have h3 : b.getLsbD (k + i) = false := BitVec.getLsbD_of_ge _ _ (by omega)
  have h4 : k + i - 8 = k - 8 + i := by omega
  simp [hi, h1, h2, h3, h4]

/-- A line holds the sixteen bytes it was built from, in order (R206). -/
theorem lineBytes_packLine (l : List Byte) (h : l.length = 16) : lineBytes (packLine l) = l := by
  match l, h with
  | [b0, b1, b2, b3, b4, b5, b6, b7, b8, b9, b10, b11, b12, b13, b14, b15], _ =>
    have hr : List.range 16 = [0, 1, 2, 3, 4, 5, 6, 7, 8, 9, 10, 11, 12, 13, 14, 15] := rfl
    unfold lineBytes packLine
    rw [hr]
    simp only [List.foldl_cons, List.foldl_nil, List.map_cons, List.map_nil, byteAt, List.getD_cons_zero,
      List.getD_cons_succ]
    simp only [Nat.reduceSub, Nat.reduceMul, Nat.mul_zero, Nat.sub_self, extract_low, extract_high, Nat.reduceLeDiff]

/-- The fourteen bytes of a sealed line and its check (R22, R206). -/
theorem lineBytes_sealed (l : List Byte) (h : l.length = 14) : lineBytes (sealedLine l) = l ++ be16 (crc16 l) :=
  lineBytes_packLine _ (by simp [be16, h])

theorem word16_be16 (k : BitVec 16) : k.extractLsb' 8 8 ++ k.extractLsb' 0 8 = k := by
  apply BitVec.eq_of_getLsbD_eq
  intro i hi
  simp only [BitVec.getLsbD_append, BitVec.getLsbD_extractLsb']
  by_cases h : i < 8
  · simp [h]
  · have h8 : i - 8 < 8 := by omega
    simp [h, h8]; congr 1; omega

theorem word32_be32 (w : Word) :
    w.extractLsb' 24 8 ++ w.extractLsb' 16 8 ++ w.extractLsb' 8 8 ++ w.extractLsb' 0 8 = w := by
  apply BitVec.eq_of_getLsbD_eq
  intro i hi
  simp only [BitVec.getLsbD_append, BitVec.getLsbD_extractLsb']
  by_cases h : i < 8
  · simp [h]
  · by_cases h2 : i - 8 < 8
    · simp [h, h2]; congr 1; omega
    · by_cases h3 : i - 8 - 8 < 8
      · simp [h, h2, h3]; congr 1; omega
      · have h4 : i - 8 - 8 - 8 < 8 := by omega
        simp [h, h2, h3, h4]; congr 1; omega

theorem word24_be24 (n : Nat) (h : n < 2 ^ 24) :
    ((BitVec.ofNat 24 n).extractLsb' 16 8 ++ (BitVec.ofNat 24 n).extractLsb' 8 8
      ++ (BitVec.ofNat 24 n).extractLsb' 0 8).toNat = n := by
  have e : (BitVec.ofNat 24 n).extractLsb' 16 8 ++ (BitVec.ofNat 24 n).extractLsb' 8 8
      ++ (BitVec.ofNat 24 n).extractLsb' 0 8 = BitVec.ofNat 24 n := by
    generalize BitVec.ofNat 24 n = w
    apply BitVec.eq_of_getLsbD_eq
    intro i hi
    simp only [BitVec.getLsbD_append, BitVec.getLsbD_extractLsb']
    by_cases h : i < 8
    · simp [h]
    · by_cases h2 : i - 8 < 8
      · simp [h, h2]; congr 1; omega
      · have h3 : i - 8 - 8 < 8 := by omega
        simp [h, h2, h3]; congr 1; omega
  rw [e, BitVec.toNat_ofNat, Nat.mod_eq_of_lt h]

/-- Any sealed line passes its check (R22). -/
theorem lineCheck_sealed (l : List Byte) (h : l.length = 14) : lineCheck (lineBytes (sealedLine l)) = true := by
  rw [lineBytes_sealed l h]
  have e : (l ++ be16 (crc16 l)).take 14 = l := by rw [← h]; simp
  have e2 : word16At (l ++ be16 (crc16 l)) 14 = crc16 l := by
    unfold word16At byteAt
    simp only [List.getD_eq_getElem?_getD]
    rw [List.getElem?_append_right (by omega), List.getElem?_append_right (by omega)]
    simp only [h]
    exact word16_be16 _
  unfold lineCheck
  rw [e, e2]; simp

end Sys2Proof.Machine
end

