-- ==== Sys2Proof/Laws/Mount.lean ====
section
/-! SUPPORT. What the operations of a mount and of FORMAT come to (chapter 9): one lemma per operation, in the terms that
Safety.lean gives the phases. -/

namespace Sys2Proof.Machine

/-! ### Lines 0 and 1, and what follows a report -/

theorem setLine_changes (s : State) (l : Loc) (v : Line) : ∃ m, setLine s l v = { s with array := m } := by
  unfold setLine; split
  · exact ⟨_, rfl⟩
  · exact ⟨s.array, rfl⟩

/-- What R20 makes of a line 0 is what SURVEY and the volume check read. -/
theorem classify0_of_reads {x : Line} {y : Line0} (h : line0Reads x y) : classify0 x = y := by
  rcases h with ⟨rfl, rfl⟩ | ⟨rfl, rfl⟩ | ⟨c, rfl, h⟩
  · rfl
  · rfl
  · simp only at h
    unfold classify0 formatMark lineCheck roleSpare roleRetired
    simp only
    rcases h with ⟨h1, rfl⟩ | ⟨h1, h2, rfl⟩ | ⟨h1, ⟨h2, h3, h4⟩, h5, rfl⟩ | ⟨h1, ⟨h2, h3, h4⟩, h5, rfl⟩
    · rw [if_pos h1]
    · rw [if_neg (by simpa using h1)]
      by_cases a : crc16 (List.take 14 (lineBytes c)) = word16At (lineBytes c) 14
      · by_cases b : word32At (lineBytes c) 5 = 0#32
        · rw [if_pos (by simp [a, b])]
        · rw [if_neg (by simp [a, b])]
          have : ¬ (byteAt (lineBytes c) 4 = 0x5A ∨ byteAt (lineBytes c) 4 = 0xA5) := fun hh => h2 ⟨a, hh, b⟩
          rw [if_neg (fun hh => this (.inl hh)), if_neg (fun hh => this (.inr hh))]
      · rw [if_pos (by simp [a])]
    · rw [if_neg (by simpa using h1), if_neg (by simp [h2, h4]), if_pos h5]
    · rw [if_neg (by simpa using h1), if_neg (by simp [h2, h4]), if_neg (by rw [h5]; decide), if_pos h5]

/-- What R21, R27 and R160 make of a line 1 is the state SURVEY enters, and the mismatched epoch it notes. -/
theorem survey_of_gives {vid stray stray' : Word} {x : Line} {st : SegState} (h : line1Gives vid stray x st stray') :
    surveyState vid x = st ∧ strayAfter stray vid x = stray' := by
  rcases h with ⟨rfl, rfl, rfl⟩ | ⟨rfl, rfl, rfl⟩ | ⟨c, rfl, h⟩
  · exact ⟨rfl, rfl⟩
  · exact ⟨rfl, rfl⟩
  · simp only at h
    unfold surveyState strayAfter laterEpoch classify1 openMark lineCheck
    simp only
    by_cases v : word32At (lineBytes c) 0 = 0x4F70B2E9#32 ∧ crc16 ((lineBytes c).take 14) = word16At (lineBytes c) 14
        ∧ word32At (lineBytes c) 4 ≠ 0#32
    · rw [if_neg (by simp [v.1, v.2.1, v.2.2])]
      by_cases e : word32At (lineBytes c) 8 = vid
      · rcases h with ⟨_, _, rfl, rfl⟩ | ⟨_, h, _⟩ | ⟨h, _⟩
        · simp [e]
        · exact absurd e h
        · exact absurd v h
      · rcases h with ⟨_, h, _⟩ | ⟨_, _, rfl, rfl⟩ | ⟨h, _⟩
        · exact absurd h e
        · simp [e]
        · exact absurd v h
    · rw [if_pos (by by_contra k; apply v; simpa [and_assoc] using k)]
      rcases h with ⟨h, _⟩ | ⟨h, _⟩ | ⟨_, rfl, rfl⟩
      · exact absurd h v
      · exact absurd h v
      · exact ⟨rfl, rfl⟩

/-- What follows a report at the end of an operation: the entry to HALTED if one waits, and the end of a refused program. -/
def reported (x : State) : Out := .next (settleRefused 8 (haltIfDue x))

/-- Without a halt request, a report that leaves no program in progress ends there. -/
theorem reported_eq {X : State} (h : X.eng.haltReq = false) (hs : ∀ l c, X.seqr ≠ some (.program l c)) :
    reported X = .next X := by
  unfold reported
  have : haltIfDue X = X := by simp [haltIfDue, h]
  rw [this]
  congr 1
  unfold settleRefused
  split
  · rename_i l c hh; exact absurd hh (hs l c)
  · rfl

theorem reported_idle {X : State} (h : X.eng.haltReq = false) (hs : X.seqr = none) : reported X = .next X :=
  reported_eq h (by rw [hs]; intro l c h; cases h)

/-- Nor does a program issued to an ERASED line. -/
theorem reported_erased {X : State} {l : Loc} {c : LineBits} (h : X.eng.haltReq = false) (hs : X.seqr = some (.program l c))
    (he : lineAt X l = .erased) : reported X = .next X := by
  unfold reported
  have : haltIfDue X = X := by simp [haltIfDue, h]
  rw [this]
  congr 1
  exact settle_erased hs he

/-- A MOUNT command in flight is told the result. -/
theorem tellMounter_tells {s : State} (r : Result) (hq : s.seqr = none) (hh : s.eng.haltReq = false) (_hn : s.holder = .none) :
    mounterTold s r (reported (tellMounter s r)) := by
  refine ⟨fun hi => ?_, fun c t hi hst ho ht => ?_⟩
  · have : tellMounter s r = s := by unfold tellMounter; rw [hi]
    rw [this]; exact reported_idle hh hq
  · have : tellMounter s r = syncIdle (answeredHost s t r) := by
      unfold tellMounter complete postResult
      rw [hi]
      simp only [hst, if_true, ho, ht, Bool.false_eq_true, if_false]
      rfl
    rw [this]
    exact reported_idle hh hq

/-- The failing end of a mount. -/
theorem mountEnd_fails {s : State} (m : MountResult) (hm : m ≠ .ok) (hh : s.eng.haltReq = false) (hq : s.seqr = none) :
    mountFails s m (reported (mountEnd s m)) := by
  unfold mountFails mountEnd
  have hst : storeAfterMount s m = if m = .blank then .unmounted else .failed := by
    cases m <;> first | exact absurd rfl hm | rfl
  have hne : storeAfterMount s m ≠ .readOnly := by rw [hst]; split <;> simp
  have hr : ∀ x, mountResult x m = ⟨.notReady, 0, 0, 0, false, false, false⟩ := by
    intro x; cases m <;> first | exact absurd rfl hm | rfl
  simp only [hr]
  rw [if_neg hne, if_neg hm, hst]
  have e : (raise { emptyTables s with
    eng := { (emptyTables s).eng with store := if m = .blank then StoreState.unmounted else .failed, mountRes := m }
    holder := .none, mu := { (emptyTables s).mu with phase := .idle } } .mounted) = { s with
    eng := { s.eng with store := if m = .blank then .unmounted else .failed, mountRes := m, seqCtr := 0, volId := 0 }
    sm := ⟨[], 0, false⟩, dir := [], freezes := [], commits := [], holder := .none, seqr := none
    mu := { s.mu with phase := .idle }, alert := { s.alert with flags := s.alert.flags ||| 0x01 } } := by
    simp only [raise, emptyTables, emptyTable, Alert.mask, ← hq]
  exact e ▸ tellMounter_tells _ (by rw [e]) (by rw [e]; exact hh) (by rw [e])

/-- The end of a mount whose result is OK. -/
theorem mountEnd_succeeds {s : State} (hh : s.eng.haltReq = false) (hq : s.seqr = none) :
    mountSucceeds s (reported (mountEnd (modMu s (fun m => { m with phase := .settle, settling := none })) .ok)) := by
  unfold mountSucceeds
  by_cases h4 : 4 ≤ usableCount s
  · have h4' : 4 ≤ usableCount (modMu s (fun m => { m with phase := .settle, settling := none })) := h4
    have ee : mountEnd (modMu s (fun m => { m with phase := .settle, settling := none })) .ok = tellMounter { s with
    eng := { s.eng with store := .ready, mountRes := .ok, volId := s.mu.foundVid }
    holder := .none, seqr := none, mu := { s.mu with phase := .idle, settling := none }
    alert := { s.alert with flags := s.alert.flags ||| 0x01 } } ⟨.ok, 0, s.mu.foundVid, usableCount s, false, false, false⟩ := by
      unfold mountEnd
      simp only [storeAfterMount, h4', if_true]
      rw [if_neg (by simp)]
      simp only [raise, modMu, mountResult, Alert.mask, ← hq]
      rfl
    simp only [h4, if_true]
    rw [ee]
    exact tellMounter_tells _ rfl hh rfl
  · have h4' : ¬ 4 ≤ usableCount (modMu s (fun m => { m with phase := .settle, settling := none })) := h4
    have ee : mountEnd (modMu s (fun m => { m with phase := .settle, settling := none })) .ok = tellMounter { s with
    eng := { s.eng with store := .readOnly, mountRes := .ok, volId := s.mu.foundVid }
    holder := .none, seqr := none, mu := { s.mu with phase := .idle, settling := none }
    alert := { s.alert with flags := s.alert.flags ||| 0x01 ||| 0x80 } }
      ⟨.ok, 0, s.mu.foundVid, usableCount s, false, false, false⟩ := by
      unfold mountEnd
      simp only [storeAfterMount, h4', if_true, if_false]
      simp only [raise, modMu, mountResult, Alert.mask, ← hq]
      rfl
    simp only [h4, if_false]
    rw [ee]
    exact tellMounter_tells _ rfl hh rfl

/-- SETTLE, from one segment to the next. -/
theorem settleNext_goes {s : State} (hO : tableOrdered s) (hh : s.eng.haltReq = false) (hq : s.seqr = none) :
    settleGoesOn s (reported (settleNext s)) := by
  refine ⟨fun n hn hmin => ?_, fun hn => ?_⟩
  · obtain ⟨e, he, hen, hes⟩ := hn
    have hf : s.sm.table.find? SegEntry.isDirty = some e := by
      have key : ∀ t : List SegEntry, (t.map SegEntry.num).Pairwise (· < ·) → e ∈ t →
          (∀ m, (∃ x ∈ t, x.num = m ∧ x.st = .dirty) → e.num ≤ m) → t.find? SegEntry.isDirty = some e := by
        intro t
        induction t with
        | nil => intro _ h; cases h
        | cons a as ih =>
          intro ho hm hmn
          rw [List.map_cons, List.pairwise_cons] at ho
          rw [List.find?_cons]
          rcases List.mem_cons.1 hm with rfl | hm
          · have : e.isDirty = true := by simp [SegEntry.isDirty, hes]
            rw [this]
          · have : a.isDirty = false := by
              rw [Bool.eq_false_iff]; intro ha
              have h1 := hmn a.num ⟨a, List.mem_cons_self, rfl, by simpa [SegEntry.isDirty] using ha⟩
              have h2 := ho.1 e.num (List.mem_map_of_mem hm)
              omega
            rw [this]
            exact ih ho.2 hm (fun m ⟨x, hx, h⟩ => hmn m ⟨x, List.mem_cons_of_mem _ hx, h⟩)
      exact key _ hO he (by rw [hen]; exact hmin)
    have : settleNext s = { s with
        mu := { s.mu with phase := .settle, settling := some (n, .erase) }, seqr := some (.erase n) } := by
      unfold settleNext; rw [hf]
      simp only [prepIssue, issue, modMu, hen, hh, Bool.false_eq_true, if_false]
    rw [this]
    exact reported_eq hh (by simp)
  · have hf : s.sm.table.find? SegEntry.isDirty = none := by
      rw [List.find?_eq_none]
      intro x hx hd
      exact hn x.num ⟨x, hx, rfl, by simpa [SegEntry.isDirty] using hd⟩
    have : settleNext s = mountEnd (modMu s (fun m => { m with phase := .settle, settling := none })) .ok := by
      unfold settleNext; rw [hf]
    rw [this]
    exact mountEnd_succeeds hh hq

theorem namedLines_eq (s : State) (n : Nat) : namedLines s n = recordLinesNamed s n := by
  unfold namedLines recordLinesNamed
  congr 1
  congr 1
  · induction s.dir with
    | nil => rfl
    | cons a as ih =>
      cases h : a.committed with
      | none => simp only [List.filterMap_cons, h, List.map_cons, List.sum_cons, Nat.zero_add]; exact ih
      | some p => simp only [List.filterMap_cons, h, List.map_cons, List.sum_cons]; rw [ih]; rfl
  · congr 1
    apply List.map_congr_left
    intro c _
    split
    · cases s.mu.extents.find? (fun x => x.1 == c.bid) <;> rfl
    · rfl

/-- The end of REPLAY, ACCOUNT and the beginning of SETTLE. -/
theorem replayEnd_ends {s : State} (hO : tableOrdered s) (hh : s.eng.haltReq = false) (hq : s.seqr = none) :
    replayEnds s (reported (replayEnd s)) := by
  intro hwp hno
  unfold replayEnd account
  generalize hu : modMu { s with eng.seqCtr := match s.mu.highest with
    | some h => h + 1
    | none => 1 } (fun m => { m with phase := .account }) = u
  obtain ⟨T, hT⟩ : ∃ T : List SegEntry, T = s.sm.table.map (fun e => { e with st := stateAccounted s e.num e.st }) := ⟨_, rfl⟩
  rw [← hT]
  have ht : u.sm.table.map (fun e => { e with st := accountState u e.num e.st }) = T := by
    rw [hT]
    have : u.sm.table = s.sm.table := by rw [← hu]; rfl
    rw [this]
    apply List.map_congr_left
    intro e he
    congr 1
    cases hs : e.st with
    | closed j =>
      have h2 := hwp e.num j ⟨e, he, rfl, hs⟩
      have hn : namedLines u e.num = recordLinesNamed s e.num := by rw [namedLines_eq, ← hu]; rfl
      have hnew : newestJournal u = s.mu.order.getLast? := by rw [← hu]; rfl
      have hstp : u.mu.stopped = s.mu.stopped := by rw [← hu]; rfl
      simp only [accountState, stateAccounted, journalAccounted, hn, hnew, hstp]
      split
      · simp only [Journal.accounted]; congr 2; omega
      · simp only [Journal.accounted]
    | _ => rfl
  rw [ht]
  have : ({ u with sm.table := T } : State) = { s with
    eng := { s.eng with seqCtr := match s.mu.highest with | some h => h + 1 | none => 1 }
    sm := { s.sm with table := T }
    mu := { s.mu with phase := .account } } := by rw [← hu]; rfl
  rw [this]
  refine settleNext_goes ?_ hh hq
  unfold tableOrdered
  show (T.map SegEntry.num).Pairwise _
  rw [hT, List.map_map]; exact hO

/-- REPLAY, from one record to the next. -/
theorem replayNext_goes {s : State} (hO : tableOrdered s) (hh : s.eng.haltReq = false) (hq : s.seqr = none) :
    replayGoesOn s (reported (replayNext s)) := by
  refine ⟨fun f rest ht => ?_, fun ht => ?_⟩
  · have : replayNext s = { s with
    mu := { s.mu with todo := rest, judge := some ⟨f, []⟩ }, seqr := some (.read ⟨f.loc.seg, f.loc.line + 1⟩) } := by
      unfold replayNext; rw [ht]
      simp only [issue, modMu, hh, Bool.false_eq_true, if_false]; rfl
    rw [this]; exact reported_eq hh (by simp)
  · have : replayNext s = replayEnd s := by unfold replayNext; rw [ht]
    rw [this]; exact replayEnd_ends hO hh hq

/-- What applying a record gives the directory (R164): the committed part of its key, unless a record with a higher sequence
stands there; every other key as before. -/
theorem applyPart_gives (s : State) (key : Key) (p : Part) (hd : DirOk s.dir) : ∃ d, applyPart s key p = { s with dir := d }
    ∧ DirOk d ∧ (∀ k, k ≠ key → dirLookup d k = dirLookup s.dir k)
    ∧ ((∀ o, committedOf s key = some o → o.seq ≤ p.seq) → committedOf { s with dir := d } key = some p)
    ∧ ∀ o, committedOf s key = some o → p.seq < o.seq →
      committedOf { s with dir := d } key = some { o with shadowed := o.shadowed || o.tomb } := by
  have hput := dirLookup_put key (fun e => { e with committed := some p }) s.dir hd.1 (fun _ => rfl)
  have hok : DirOk (dirPut key (fun e => { e with committed := some p }) s.dir) :=
    dirOk_put _ _ _ (fun _ => rfl) (fun _ => .inl rfl) hd
  have hc : (dirLookup s.dir key).bind DirEntry.committed = committedOf s key := by
    unfold committedOf; cases dirLookup s.dir key <;> rfl
  have mine : committedOf { s with dir := dirPut key (fun e => { e with committed := some p }) s.dir } key = some p := by
    simp only [committedOf, hput.1]
  unfold applyPart
  rw [hc]
  cases h : committedOf s key with
  | none => exact ⟨_, rfl, hok, hput.2, fun _ => mine, fun _ h => by cases h⟩
  | some o =>
    simp only
    by_cases hle : o.seq ≤ p.seq
    · rw [if_pos hle]
      refine ⟨_, rfl, hok, hput.2, fun _ => mine, fun x hx hlt => ?_⟩
      cases hx; exact absurd hle (BitVec.not_le.2 hlt)
    · rw [if_neg hle]
      have older : ¬ ∀ x, some o = some x → x.seq ≤ p.seq := fun h => hle (h o rfl)
      by_cases ht : o.tomb = true
      · rw [if_pos ht]
        have hmap := fun k => dirLookup_map key k (fun e => { e with committed := some { o with shadowed := true } }) s.dir
          (fun _ => rfl)
        refine ⟨_, rfl, dirOk_map _ _ _ (fun _ => rfl) (fun _ _ => .inl rfl) hd, fun k hk => ?_, fun h => absurd h older,
          fun x hx _ => ?_⟩
        · rw [hmap]; simp [hk]
        · cases hx
          unfold committedOf at h ⊢
          simp only
          rw [hmap]
          cases hl : dirLookup s.dir key with
          | none => rw [hl] at h; cases h
          | some e => simp [ht]
      · rw [if_neg ht]
        refine ⟨s.dir, rfl, hd, fun _ _ => rfl, fun h => absurd h older, fun x hx _ => ?_⟩
        cases hx
        have : committedOf { s with dir := s.dir } key = some o := h
        rw [this]
        obtain ⟨o1, o2, o3, o4, o5⟩ := o
        simp_all

theorem scanAt_reads {s : State} (l : Loc) (hh : s.eng.haltReq = false) :
    reported (scanAt s l) = .next { s with mu := { s.mu with scan := some l }, seqr := some (.read l) } := by
  have : scanAt s l = { s with mu := { s.mu with scan := some l }, seqr := some (.read l) } := by
    unfold scanAt; simp only [issue, modMu, hh, Bool.false_eq_true, if_false]
  rw [this]; exact reported_eq hh (by simp)

/-- COLLECT, from one segment to the next. -/
theorem scanSegmentEnd_scanned {s : State} (n wp : Nat) (stop : Bool) (hO : tableOrdered s) (hh : s.eng.haltReq = false)
    (hq : s.seqr = none) : segmentScanned s n wp stop (reported (scanSegmentEnd s n wp stop)) := by
  intro before rest ho hnb u
  have hj : journalUpd s n (fun j => { j with wp := wp }) = { s with
    sm := { s.sm with table := s.sm.table.map (fun e => if e.num = n then
      { e with st := e.st.mapJournal (fun j => { j with wp := wp }) } else e) } } :=
    segUpd_quiet n _ (fun e _ _ h => by rw [isFree_mapJournal]; exact h)
  have h2 : (if stop then modMu (journalUpd s n (fun j => { j with wp := wp })) (fun m => { m with stopped := m.stopped ++ [n] })
      else journalUpd s n (fun j => { j with wp := wp })) = u := by
    rw [hj]; cases stop <;> simp [modMu, u]
  have hnext : nextJournal u n = rest.head? := by
    have : u.mu.order = before ++ n :: rest := ho
    unfold nextJournal
    rw [this]
    have : (before ++ n :: rest).dropWhile (fun k => k != n) = n :: rest := by
      clear this ho h2 hj
      clear u
      induction before with
      | nil => simp
      | cons a as ih =>
        rw [List.cons_append, List.dropWhile_cons]
        have : (a != n) = true := by simp; intro e; exact hnb (by rw [e]; simp)
        rw [this, if_pos rfl]; exact ih (fun h => hnb (List.mem_cons_of_mem _ h))
    rw [this]; rfl
  have hO' : tableOrdered u := by
    exact tableOrdered_map (fun e => if e.num = n then { e with st := e.st.mapJournal (fun j => { j with wp := wp }) } else e)
      (fun x => by split <;> rfl) rfl hO
  have base : scanSegmentEnd s n wp stop = (match nextJournal u n with | some k => scanAt u ⟨k, 2⟩ | none => collectEnd u) := by
    rw [← h2]; rfl
  rw [hnext] at base
  refine ⟨fun k more hr => ?_, fun hr => ?_⟩
  · rw [base, hr]; exact scanAt_reads (s := u) _ hh
  · rw [base, hr]
    exact replayNext_goes hO' hh hq

/-- COLLECT, from one record to the next. -/
theorem scanAdvance_goes {s : State} (l : Loc) (e : Nat) (hO : tableOrdered s) (hh : s.eng.haltReq = false) (hq : s.seqr = none) :
    scanGoesOn s l e (reported (scanAdvance s l e)) := by
  refine ⟨fun h => ?_, fun h => ?_⟩
  · unfold scanAdvance; rw [if_pos h, scanAt_reads _ hh]; rfl
  · unfold scanAdvance; rw [if_neg (by omega)]; exact scanSegmentEnd_scanned _ _ _ hO hh hq

/-- The highest KNOWN erase count. -/
theorem highestKnown_eq (t : List SegEntry) (est : Nat) (h1 : ∃ e ∈ t, e.known = true ∧ e.eraseCount = est)
    (h2 : ∀ e ∈ t, e.known = true → e.eraseCount ≤ est) : highestKnown t = est := by
  have key : ∀ (t : List SegEntry) (m : Nat), m ≤ est → (∀ e ∈ t, e.known = true → e.eraseCount ≤ est) →
      (m = est ∨ ∃ e ∈ t, e.known = true ∧ e.eraseCount = est) →
      t.foldl (fun m e => if e.known then max m e.eraseCount else m) m = est := by
    intro t
    induction t with
    | nil => rintro m _ _ (h | ⟨_, h, _⟩); exact h; cases h
    | cons a as ih =>
      intro m hm hle hx
      rw [List.foldl_cons]
      refine ih _ ?_ (fun e he => hle e (List.mem_cons_of_mem _ he)) ?_
      · split
        · rename_i hk; exact max_le hm (hle a List.mem_cons_self hk)
        · exact hm
      · rcases hx with rfl | ⟨e, he, hk, hc⟩
        · left; split
          · rename_i hk; exact max_eq_left (hle a List.mem_cons_self hk)
          · rfl
        · rcases List.mem_cons.1 he with rfl | he
          · left; rw [if_pos hk, hc]; exact max_eq_right hm
          · exact .inr ⟨e, he, hk, hc⟩
  exact key t 0 (Nat.zero_le _) h2 (.inr h1)

/-- SURVEY's verdict. -/
theorem surveyVerdict_ends {s : State} (hO : tableOrdered s) (hh : s.eng.haltReq = false) (hq : s.seqr = none) :
    surveyEnds s (reported (surveyVerdict s)) := by
  refine ⟨fun hf => ?_, fun hf hm => ?_, fun hf hm =>
    ⟨fun a b i j hne ha hb he => ?_, fun hn => ?_, fun first rest last top est ho hl ht h1 h2 => ?_⟩⟩
  · unfold surveyVerdict; simp only [hf, if_true]; exact mountEnd_fails _ (by simp) hh hq
  · unfold surveyVerdict; simp only [hf, hm, if_true, Bool.false_eq_true, if_false]; exact mountEnd_fails _ (by simp) hh hq
  · have : sameEpochs (journalOrder s) = true :=
      sameEpochs_of_eq ((mem_journalOrder hO a i).2 ha) ((mem_journalOrder hO b j).2 hb) (by intro e; cases e; exact hne rfl) he
    unfold surveyVerdict; simp only [hf, hm, this, if_true, Bool.false_eq_true, if_false]; exact mountEnd_fails _ (by simp) hh hq
  · have : journalOrder s = [] := by
      rw [List.eq_nil_iff_forall_not_mem]
      rintro ⟨n, j⟩ h
      have := (mem_journalOrder hO n j).1 h; rw [hn] at this; cases this
    unfold surveyVerdict; simp only [hf, hm, this, Bool.false_eq_true, if_false]
    exact mountEnd_fails _ (by simp) hh hq
  · obtain ⟨hfst, hsame⟩ := journalOrder_eq hO ho
    have hlast : (journalOrder s).getLast? = some (last, top) := by
      cases hg : (journalOrder s).getLast? with
      | none => rw [List.getLast?_eq_none_iff] at hg; rw [hg] at hfst; cases hfst
      | some x =>
        have e1 : ((journalOrder s).map Prod.fst).getLast? = some x.1 := by rw [List.getLast?_map, hg]; rfl
        rw [hfst, hl] at e1
        have hm : x ∈ journalOrder s := List.mem_of_getLast? hg
        have := (mem_journalOrder hO x.1 x.2).1 hm
        cases e1
        rw [ht] at this; cases this; rfl
    obtain ⟨jf, hhead⟩ : ∃ jf, (journalOrder s).head? = some (first, jf) := by
      cases hg : journalOrder s with
      | nil => rw [hg] at hfst; cases hfst
      | cons x xs => rw [hg] at hfst; simp only [List.map_cons] at hfst; injection hfst with e _; exact ⟨x.2, by rw [← e]; rfl⟩
    unfold surveyVerdict
    simp only [hf, hm, hsame, Bool.false_eq_true, if_false, hlast, hhead]
    rw [highestKnown_eq _ est h1 h2, hfst, scanAt_reads _ (by exact hh)]
    congr 1
    have e2 : ∀ e : SegEntry, (if (e.isDirty && !e.known) = true then { e with eraseCount := est } else e) =
        if e.st = .dirty ∧ e.known = false then { e with eraseCount := est } else e := by
      intro e; simp [SegEntry.isDirty]
    simp only [e2, modMu, epochAfter, laterEpoch]
    obtain ⟨hi, e3⟩ : ∃ hi, (if top.epoch < s.mu.strayEpoch then s.mu.strayEpoch else top.epoch) = hi := ⟨_, rfl⟩
    simp only [e3]
    by_cases hx : hi = 0xFFFFFFFF#32
    · simp [hx, hf, hm]
    · simp [hx, hf, hm]

/-- SURVEY, from one segment to the next. -/
theorem surveyNext_goes {s : State} (n : Nat) (hO : tableOrdered s) (hh : s.eng.haltReq = false) (hq : s.seqr = none) :
    surveyGoesOn s n (reported (surveyNext s n)) := by
  refine ⟨fun h => ?_, fun h => ?_⟩
  · have : surveyNext s n = { s with seqr := some (.read ⟨n + 1, 0⟩) } := by
      unfold surveyNext; rw [if_pos (by omega)]; simp [issue, hh]
    rw [this]; exact reported_eq hh (by simp)
  · have : surveyNext s n = surveyVerdict s := by unfold surveyNext; rw [if_neg (by omega)]
    rw [this]; exact surveyVerdict_ends hO hh hq

theorem tableOrdered_entered {s : State} {n : Nat} {st : SegState} {ec : Nat} {k : Bool} (hO : tableOrdered s)
    (hl : ∀ e ∈ s.sm.table, e.num < n) : tableOrdered (entered s n st ec k) := by
  unfold tableOrdered entered
  simp only [List.map_append]
  rw [List.pairwise_append]
  refine ⟨hO, by simp, ?_⟩
  intro a ha b hb
  obtain ⟨e, he, rfl⟩ := List.mem_map.1 ha
  simp at hb; subst hb; exact hl e he

/-! ### Preparation sequences of DIRTY segments -/

theorem byte_or_zero (x : Byte) : x ||| 0 = x := by simp

/-- The entry of segment `n` is DIRTY. -/
def dirtyAt (s : State) (n : Nat) : Prop := ∀ e ∈ s.sm.table, e.num = n → e.st = .dirty

theorem dirtyAt_free {s : State} {n : Nat} (h : dirtyAt s n) : ∀ e ∈ s.sm.table, e.num = n → e.isFree = false := by
  intro e he hn; simp [SegEntry.isFree, h e he hn]

theorem dirtyAt_of {s : State} {n : Nat} {e : SegEntry} (hO : tableOrdered s) (he : segEntry s n = some e)
    (hs : e.st = .dirty) : dirtyAt s n := by
  intro x hx hn
  have := segEntry_of_mem hO hx
  rw [hn, he] at this; cases this; exact hs

theorem dirtyAt_entryNow {s : State} {n : Nat} {g : SegEntry → SegEntry} {b : Byte} (h : dirtyAt s n)
    (hg : ∀ e, e.num = n → e.st = .dirty → (g e).st = .dirty) : dirtyAt (entryNow s n g b) n := by
  intro e he hn
  obtain ⟨x, hx, rfl⟩ := List.mem_map.1 (show e ∈ s.sm.table.map _ from he)
  by_cases hxn : x.num = n
  · rw [if_pos hxn]; exact hg x hxn (h x hx hxn)
  · rw [if_neg hxn] at hn; exact absurd hn hxn

theorem segUpd_dirty {s : State} {n : Nat} (f : SegEntry → SegEntry) (h : dirtyAt s n) :
    segUpd s n f = { s with sm.table := s.sm.table.map (fun e => if e.num = n then f e else e) } :=
  segUpd_quiet n f (fun e he hn hf => by rw [dirtyAt_free h e he hn] at hf; cases hf)

/-- A retirement of a DIRTY segment outside READY. -/
theorem retireSegment_eq {s : State} {n : Nat} (h : dirtyAt s n) (hs : s.eng.store ≠ .ready) (hq : s.seqr = none) :
    retireSegment s n = entryNow s n (fun x => { x with st := .retired }) 0x04 := by
  unfold retireSegment
  have : raise (setSegState s n .retired) .fault = entryNow s n (fun x => { x with st := .retired }) 0x04 := by
    unfold setSegState; rw [segUpd_dirty _ h]
    simp only [raise, Alert.mask, entryNow, ← hq]
  simp only [this]
  split
  · unfold enterReadOnly; rw [if_pos (by exact hs)]
  · rfl

/-- A fault counted on a DIRTY segment. -/
theorem countFault_eq {s : State} {n : Nat} (h : dirtyAt s n) (hq : s.seqr = none) :
    countFault s n = entryNow s n faultCounted 0x04 := by
  unfold countFault; rw [segUpd_dirty _ h]
  simp only [raise, Alert.mask, entryNow, ← hq]; rfl

theorem entryNow_entryNow (s : State) (n : Nat) (g h : SegEntry → SegEntry) (a b : Byte) (hg : ∀ e, (g e).num = e.num) :
    entryNow (entryNow s n g a) n h b = entryNow s n (fun e => h (g e)) (a ||| b) := by
  unfold entryNow
  simp only [List.map_map]
  rw [BitVec.or_assoc]
  congr 3
  funext e
  simp only [Function.comp]
  by_cases hn : e.num = n
  · simp [hn, hg]
  · simp [hn]

/-- A fault on the RETIRED line, or a fault in FORMAT: counted, and the segment retired. -/
theorem retire_after_fault {s : State} {n : Nat} (h : dirtyAt s n) (hs : s.eng.store ≠ .ready) (hq : s.seqr = none) :
    retireSegment (countFault s n) n = entryNow s n (fun x => { faultCounted x with st := .retired }) 0x04 := by
  rw [countFault_eq h hq, retireSegment_eq (dirtyAt_entryNow h (by intro e _ he; exact he)) (by exact hs) (by rfl),
      entryNow_entryNow _ _ _ _ _ _ (by intro e; rfl)]
  rfl

/-- A RETIRED line that was programmed retires the segment with a KNOWN count. -/
theorem retire_after_retired_line {s : State} {n : Nat} (h : dirtyAt s n) (hs : s.eng.store ≠ .ready) (hq : s.seqr = none) :
    retireSegment (markKnown s n) n = entryNow s n (fun x => { x with st := .retired, known := true }) 0x04 := by
  have : markKnown s n = entryNow s n (fun e => { e with known := true }) 0 := by
    unfold markKnown; rw [segUpd_dirty _ h]; simp only [entryNow, byte_or_zero, ← hq]
  rw [this, retireSegment_eq (dirtyAt_entryNow h (by intro e _ he; exact he)) (by exact hs) (by rfl),
      entryNow_entryNow _ _ _ _ _ _ (by intro e; rfl)]
  rfl

/-- A SPARE line that was programmed leaves the segment FREE with a KNOWN count. -/
theorem segmentPrepared_eq {s : State} {n : Nat} (h : dirtyAt s n) (hq : s.seqr = none) :
    segmentPrepared s n = entryNow s n (fun x => { x with st := .free, known := true }) 0 := by
  unfold segmentPrepared; rw [segUpd_dirty _ h]; simp only [entryNow, byte_or_zero, ← hq]

theorem tableOrdered_entryNow {s : State} {n : Nat} {g : SegEntry → SegEntry} {b : Byte} (hO : tableOrdered s)
    (hg : ∀ e, (g e).num = e.num) : tableOrdered (entryNow s n g b) :=
  tableOrdered_map (fun e => if e.num = n then g e else e) (fun x => by split; exact hg x; rfl) rfl hO

/-- The two ends of a program of the work unit `h`. -/
theorem program_reports {s : State} {l : Loc} {c : LineBits} {h : Holder} (ho : operating s h (.program l c)) :
    ∃ m m2, setLine s l (.good c) = { s with array := m } ∧ setLine s l .torn = { s with array := m2 }
    ∧ exec .programDone s = reported (onReport { s with array := m, seqr := none } l .programDone)
    ∧ exec .programDeadlineExpiry s = reported (onReport { s with array := m2, seqr := none } l (.programFault .expired)) := by
  obtain ⟨h1, h2, h3, h4, h5⟩ := ho
  obtain ⟨m, hm⟩ := setLine_changes s l (.good c)
  obtain ⟨m2, hm2⟩ := setLine_changes s l .torn
  refine ⟨m, m2, hm, hm2, ?_, ?_⟩
  · simp only [exec, execProgramDone, takeEvent, h1, Bool.false_eq_true, if_false, programDone, h5, opEnds, hm, h2]
    rfl
  · simp only [exec, execProgramDeadlineExpiry, takeEvent, h1, Bool.false_eq_true, if_false, programExpires, h5, opEnds, hm2, h2]
    rfl

/-- The end of a read of the work unit `h`. -/
theorem operating_read {s : State} {l : Loc} {h : Holder} (ho : operating s h (.read l)) :
    exec .readDone s = reported (onReport { s with seqr := none } l (.readDone (lineAt s l))) := by
  obtain ⟨h1, h2, h3, h4, h5⟩ := ho
  simp only [exec, execReadDone, takeEvent, h1, Bool.false_eq_true, if_false, readDone, h5, opEnds, h2]
  rfl

/-! ### FORMAT -/

/-- The highest of the erase counts that the volume check read. -/
theorem foldl_max_eq (l : List Nat) (top : Nat) (h1 : top ∈ l) (h2 : ∀ x ∈ l, x ≤ top) : l.foldl max 0 = top := by
  have key : ∀ (l : List Nat) (m : Nat), m ≤ top → (∀ x ∈ l, x ≤ top) → (m = top ∨ top ∈ l) → l.foldl max m = top := by
    intro l
    induction l with
    | nil => rintro m _ _ (h | h); exact h; cases h
    | cons a as ih =>
      intro m hm hle hx
      rw [List.foldl_cons]
      refine ih _ (max_le hm (hle a List.mem_cons_self)) (fun x hx => hle x (List.mem_cons_of_mem _ hx)) ?_
      rcases hx with rfl | hx
      · exact .inl (max_eq_left (hle a List.mem_cons_self))
      · rcases List.mem_cons.1 hx with rfl | hx
        · exact .inl (max_eq_right hm)
        · exact .inr hx
  exact key l 0 (Nat.zero_le _) h2 (.inr h1)

/-- The end of FORMAT. -/
theorem formatEnd_ends {s : State} (hh : s.eng.haltReq = false) (hq : s.seqr = none) : formatEnds s (reported (formatEnd s)) := by
  intro c t hi ho ht good
  by_cases h4 : 4 ≤ usableCount s
  · have hg : good = true := decide_eq_true h4
    have : formatEnd s = syncIdle (answeredHost { s with
      eng := { s.eng with seqCtr := 1, store := .ready }, fu := none, holder := .none
      seqr := none } t ⟨.ok, 0, s.eng.volId, usableCount s, false, false, false⟩) := by
      unfold formatEnd
      simp only [h4, decide_true, if_true]
      unfold complete
      simp only [hi, postResult, ho, ht, Bool.false_eq_true, if_false]
      rw [← hq]; rfl
    rw [this, reported_idle (by exact hh) (by rfl), hg]; rfl
  · have hg : good = false := decide_eq_false h4
    have : formatEnd s = syncIdle (answeredHost { s with
      eng := { s.eng with seqCtr := 1, store := .readOnly }, fu := none, holder := .none
      seqr := none, alert := { s.alert with flags := s.alert.flags ||| 0x80 } } t
      ⟨.mediaFault, 0, s.eng.volId, usableCount s, false, false, false⟩) := by
      unfold formatEnd
      simp only [h4, decide_false, Bool.false_eq_true, if_false]
      unfold complete
      simp only [raise, hi, postResult, ho, ht, Bool.false_eq_true, if_false]
      rw [← hq]; rfl
    rw [this, reported_idle (by exact hh) (by rfl), hg]; rfl

/-- FORMAT, from one candidate to the next. -/
theorem formatNext_goes {s : State} (f : FormatCtx) (first : Bool) (hh : s.eng.haltReq = false) (hq : s.seqr = none) :
    formatGoesOn s f first (reported (if first then step1Next s f else step2Next s f)) := by
  refine ⟨fun n rest ht => ?_, fun ht => ?_⟩
  · have : (if first then step1Next s f else step2Next s f) = { s with
      fu := some { f with todo := rest, phase := if first then .step1 n .erase else .step2 n .erase }
      seqr := some (.erase n) } := by
      cases first <;> simp [step1Next, step2Next, ht, issue, setFu, hh]
    rw [this]; exact reported_eq hh (by simp)
  · have : (if first then step1Next s f else step2Next s f) = formatEnd s := by
      cases first <;> simp [step1Next, step2Next, ht]
    rw [this]; exact formatEnd_ends hh hq

/-- The volume check, from one segment to the next. -/
theorem formatCheck_eq {s : State} {f : FormatCtx} {n : Nat} {x : Line} {y : Line0} (hy : line0Reads x y) :
    formatCheckReport s f n x =
  if n + 1 < 64 then issue (setFu s { checkedLine f y with phase := .check (n + 1) }) (.read ⟨n + 1, 0⟩)
  else if (checkedLine f y).ids.contains f.newId then completeFail { s with fu := none } .wrongVolume
  else formatEnter s (checkedLine f y) false := by
  unfold formatCheckReport; rw [classify0_of_reads hy]; cases y <;> rfl

end Sys2Proof.Machine
end

