-- ==== Sys2Proof/Laws/State.lean ====
section
/-! SUPPORT. One lemma per field per update of State, each true by rfl: what a plain update leaves alone, and what `issue`
and `setSlot` leave alone. -/

namespace Sys2Proof.Machine


/-! `raise` writes `alert` only. -/

@[simp] theorem raise_array (s : State) (a : Alert) : (raise s a).array = s.array := rfl
@[simp] theorem raise_seqr (s : State) (a : Alert) : (raise s a).seqr = s.seqr := rfl
@[simp] theorem raise_sm (s : State) (a : Alert) : (raise s a).sm = s.sm := rfl
@[simp] theorem raise_dir (s : State) (a : Alert) : (raise s a).dir = s.dir := rfl
@[simp] theorem raise_freezes (s : State) (a : Alert) : (raise s a).freezes = s.freezes := rfl
@[simp] theorem raise_batch (s : State) (a : Alert) : (raise s a).batch = s.batch := rfl
@[simp] theorem raise_commits (s : State) (a : Alert) : (raise s a).commits = s.commits := rfl
@[simp] theorem raise_eng (s : State) (a : Alert) : (raise s a).eng = s.eng := rfl
@[simp] theorem raise_inflight (s : State) (a : Alert) : (raise s a).inflight = s.inflight := rfl
@[simp] theorem raise_holder (s : State) (a : Alert) : (raise s a).holder = s.holder := rfl
@[simp] theorem raise_rc (s : State) (a : Alert) : (raise s a).rc = s.rc := rfl
@[simp] theorem raise_mu (s : State) (a : Alert) : (raise s a).mu = s.mu := rfl
@[simp] theorem raise_fu (s : State) (a : Alert) : (raise s a).fu = s.fu := rfl
@[simp] theorem raise_host (s : State) (a : Alert) : (raise s a).host = s.host := rfl
@[simp] theorem raise_staging (s : State) (a : Alert) : (raise s a).staging = s.staging := rfl
@[simp] theorem raise_ctl (s : State) (a : Alert) : (raise s a).ctl = s.ctl := rfl
@[simp] theorem raise_mgmt (s : State) (a : Alert) : (raise s a).mgmt = s.mgmt := rfl
@[simp] theorem raise_pins (s : State) (a : Alert) : (raise s a).pins = s.pins := rfl
@[simp] theorem raise_free (s : State) (a : Alert) : (raise s a).free = s.free := rfl
@[simp] theorem raise_pending (s : State) (a : Alert) : (raise s a).pending = s.pending := rfl

/-! `setTag` writes `host` only. -/

@[simp] theorem setTag_array (s : State) (t : Nat) (v : TagState) : (setTag s t v).array = s.array := rfl
@[simp] theorem setTag_seqr (s : State) (t : Nat) (v : TagState) : (setTag s t v).seqr = s.seqr := rfl
@[simp] theorem setTag_sm (s : State) (t : Nat) (v : TagState) : (setTag s t v).sm = s.sm := rfl
@[simp] theorem setTag_dir (s : State) (t : Nat) (v : TagState) : (setTag s t v).dir = s.dir := rfl
@[simp] theorem setTag_freezes (s : State) (t : Nat) (v : TagState) : (setTag s t v).freezes = s.freezes := rfl
@[simp] theorem setTag_batch (s : State) (t : Nat) (v : TagState) : (setTag s t v).batch = s.batch := rfl
@[simp] theorem setTag_commits (s : State) (t : Nat) (v : TagState) : (setTag s t v).commits = s.commits := rfl
@[simp] theorem setTag_eng (s : State) (t : Nat) (v : TagState) : (setTag s t v).eng = s.eng := rfl
@[simp] theorem setTag_inflight (s : State) (t : Nat) (v : TagState) : (setTag s t v).inflight = s.inflight := rfl
@[simp] theorem setTag_holder (s : State) (t : Nat) (v : TagState) : (setTag s t v).holder = s.holder := rfl
@[simp] theorem setTag_rc (s : State) (t : Nat) (v : TagState) : (setTag s t v).rc = s.rc := rfl
@[simp] theorem setTag_mu (s : State) (t : Nat) (v : TagState) : (setTag s t v).mu = s.mu := rfl
@[simp] theorem setTag_fu (s : State) (t : Nat) (v : TagState) : (setTag s t v).fu = s.fu := rfl
@[simp] theorem setTag_staging (s : State) (t : Nat) (v : TagState) : (setTag s t v).staging = s.staging := rfl
@[simp] theorem setTag_alert (s : State) (t : Nat) (v : TagState) : (setTag s t v).alert = s.alert := rfl
@[simp] theorem setTag_ctl (s : State) (t : Nat) (v : TagState) : (setTag s t v).ctl = s.ctl := rfl
@[simp] theorem setTag_mgmt (s : State) (t : Nat) (v : TagState) : (setTag s t v).mgmt = s.mgmt := rfl
@[simp] theorem setTag_pins (s : State) (t : Nat) (v : TagState) : (setTag s t v).pins = s.pins := rfl
@[simp] theorem setTag_free (s : State) (t : Nat) (v : TagState) : (setTag s t v).free = s.free := rfl
@[simp] theorem setTag_pending (s : State) (t : Nat) (v : TagState) : (setTag s t v).pending = s.pending := rfl

/-! `setBufOwner` writes `host` only. -/

@[simp] theorem setBufOwner_array (s : State) (b : Nat) (o : Option Nat) : (setBufOwner s b o).array = s.array := rfl
@[simp] theorem setBufOwner_seqr (s : State) (b : Nat) (o : Option Nat) : (setBufOwner s b o).seqr = s.seqr := rfl
@[simp] theorem setBufOwner_sm (s : State) (b : Nat) (o : Option Nat) : (setBufOwner s b o).sm = s.sm := rfl
@[simp] theorem setBufOwner_dir (s : State) (b : Nat) (o : Option Nat) : (setBufOwner s b o).dir = s.dir := rfl
@[simp] theorem setBufOwner_freezes (s : State) (b : Nat) (o : Option Nat) : (setBufOwner s b o).freezes = s.freezes := rfl
@[simp] theorem setBufOwner_batch (s : State) (b : Nat) (o : Option Nat) : (setBufOwner s b o).batch = s.batch := rfl
@[simp] theorem setBufOwner_commits (s : State) (b : Nat) (o : Option Nat) : (setBufOwner s b o).commits = s.commits := rfl
@[simp] theorem setBufOwner_eng (s : State) (b : Nat) (o : Option Nat) : (setBufOwner s b o).eng = s.eng := rfl
@[simp] theorem setBufOwner_inflight (s : State) (b : Nat) (o : Option Nat) : (setBufOwner s b o).inflight = s.inflight := rfl
@[simp] theorem setBufOwner_holder (s : State) (b : Nat) (o : Option Nat) : (setBufOwner s b o).holder = s.holder := rfl
@[simp] theorem setBufOwner_rc (s : State) (b : Nat) (o : Option Nat) : (setBufOwner s b o).rc = s.rc := rfl
@[simp] theorem setBufOwner_mu (s : State) (b : Nat) (o : Option Nat) : (setBufOwner s b o).mu = s.mu := rfl
@[simp] theorem setBufOwner_fu (s : State) (b : Nat) (o : Option Nat) : (setBufOwner s b o).fu = s.fu := rfl
@[simp] theorem setBufOwner_staging (s : State) (b : Nat) (o : Option Nat) : (setBufOwner s b o).staging = s.staging := rfl
@[simp] theorem setBufOwner_alert (s : State) (b : Nat) (o : Option Nat) : (setBufOwner s b o).alert = s.alert := rfl
@[simp] theorem setBufOwner_ctl (s : State) (b : Nat) (o : Option Nat) : (setBufOwner s b o).ctl = s.ctl := rfl
@[simp] theorem setBufOwner_mgmt (s : State) (b : Nat) (o : Option Nat) : (setBufOwner s b o).mgmt = s.mgmt := rfl
@[simp] theorem setBufOwner_pins (s : State) (b : Nat) (o : Option Nat) : (setBufOwner s b o).pins = s.pins := rfl
@[simp] theorem setBufOwner_free (s : State) (b : Nat) (o : Option Nat) : (setBufOwner s b o).free = s.free := rfl
@[simp] theorem setBufOwner_pending (s : State) (b : Nat) (o : Option Nat) : (setBufOwner s b o).pending = s.pending := rfl

/-! `advancePtr` writes `host` only. -/

@[simp] theorem advancePtr_array (s : State) : (advancePtr s).array = s.array := rfl
@[simp] theorem advancePtr_seqr (s : State) : (advancePtr s).seqr = s.seqr := rfl
@[simp] theorem advancePtr_sm (s : State) : (advancePtr s).sm = s.sm := rfl
@[simp] theorem advancePtr_dir (s : State) : (advancePtr s).dir = s.dir := rfl
@[simp] theorem advancePtr_freezes (s : State) : (advancePtr s).freezes = s.freezes := rfl
@[simp] theorem advancePtr_batch (s : State) : (advancePtr s).batch = s.batch := rfl
@[simp] theorem advancePtr_commits (s : State) : (advancePtr s).commits = s.commits := rfl
@[simp] theorem advancePtr_eng (s : State) : (advancePtr s).eng = s.eng := rfl
@[simp] theorem advancePtr_inflight (s : State) : (advancePtr s).inflight = s.inflight := rfl
@[simp] theorem advancePtr_holder (s : State) : (advancePtr s).holder = s.holder := rfl
@[simp] theorem advancePtr_rc (s : State) : (advancePtr s).rc = s.rc := rfl
@[simp] theorem advancePtr_mu (s : State) : (advancePtr s).mu = s.mu := rfl
@[simp] theorem advancePtr_fu (s : State) : (advancePtr s).fu = s.fu := rfl
@[simp] theorem advancePtr_staging (s : State) : (advancePtr s).staging = s.staging := rfl
@[simp] theorem advancePtr_alert (s : State) : (advancePtr s).alert = s.alert := rfl
@[simp] theorem advancePtr_ctl (s : State) : (advancePtr s).ctl = s.ctl := rfl
@[simp] theorem advancePtr_mgmt (s : State) : (advancePtr s).mgmt = s.mgmt := rfl
@[simp] theorem advancePtr_pins (s : State) : (advancePtr s).pins = s.pins := rfl
@[simp] theorem advancePtr_free (s : State) : (advancePtr s).free = s.free := rfl
@[simp] theorem advancePtr_pending (s : State) : (advancePtr s).pending = s.pending := rfl

/-! `setXfer` writes `mgmt` only. -/

@[simp] theorem setXfer_array (s : State) (x : Option Xfer) : (setXfer s x).array = s.array := rfl
@[simp] theorem setXfer_seqr (s : State) (x : Option Xfer) : (setXfer s x).seqr = s.seqr := rfl
@[simp] theorem setXfer_sm (s : State) (x : Option Xfer) : (setXfer s x).sm = s.sm := rfl
@[simp] theorem setXfer_dir (s : State) (x : Option Xfer) : (setXfer s x).dir = s.dir := rfl
@[simp] theorem setXfer_freezes (s : State) (x : Option Xfer) : (setXfer s x).freezes = s.freezes := rfl
@[simp] theorem setXfer_batch (s : State) (x : Option Xfer) : (setXfer s x).batch = s.batch := rfl
@[simp] theorem setXfer_commits (s : State) (x : Option Xfer) : (setXfer s x).commits = s.commits := rfl
@[simp] theorem setXfer_eng (s : State) (x : Option Xfer) : (setXfer s x).eng = s.eng := rfl
@[simp] theorem setXfer_inflight (s : State) (x : Option Xfer) : (setXfer s x).inflight = s.inflight := rfl
@[simp] theorem setXfer_holder (s : State) (x : Option Xfer) : (setXfer s x).holder = s.holder := rfl
@[simp] theorem setXfer_rc (s : State) (x : Option Xfer) : (setXfer s x).rc = s.rc := rfl
@[simp] theorem setXfer_mu (s : State) (x : Option Xfer) : (setXfer s x).mu = s.mu := rfl
@[simp] theorem setXfer_fu (s : State) (x : Option Xfer) : (setXfer s x).fu = s.fu := rfl
@[simp] theorem setXfer_host (s : State) (x : Option Xfer) : (setXfer s x).host = s.host := rfl
@[simp] theorem setXfer_staging (s : State) (x : Option Xfer) : (setXfer s x).staging = s.staging := rfl
@[simp] theorem setXfer_alert (s : State) (x : Option Xfer) : (setXfer s x).alert = s.alert := rfl
@[simp] theorem setXfer_ctl (s : State) (x : Option Xfer) : (setXfer s x).ctl = s.ctl := rfl
@[simp] theorem setXfer_pins (s : State) (x : Option Xfer) : (setXfer s x).pins = s.pins := rfl
@[simp] theorem setXfer_free (s : State) (x : Option Xfer) : (setXfer s x).free = s.free := rfl
@[simp] theorem setXfer_pending (s : State) (x : Option Xfer) : (setXfer s x).pending = s.pending := rfl

/-! `ack` writes `pins` only. -/

@[simp] theorem ack_array (s : State) (v : Bool) : (ack s v).array = s.array := rfl
@[simp] theorem ack_seqr (s : State) (v : Bool) : (ack s v).seqr = s.seqr := rfl
@[simp] theorem ack_sm (s : State) (v : Bool) : (ack s v).sm = s.sm := rfl
@[simp] theorem ack_dir (s : State) (v : Bool) : (ack s v).dir = s.dir := rfl
@[simp] theorem ack_freezes (s : State) (v : Bool) : (ack s v).freezes = s.freezes := rfl
@[simp] theorem ack_batch (s : State) (v : Bool) : (ack s v).batch = s.batch := rfl
@[simp] theorem ack_commits (s : State) (v : Bool) : (ack s v).commits = s.commits := rfl
@[simp] theorem ack_eng (s : State) (v : Bool) : (ack s v).eng = s.eng := rfl
@[simp] theorem ack_inflight (s : State) (v : Bool) : (ack s v).inflight = s.inflight := rfl
@[simp] theorem ack_holder (s : State) (v : Bool) : (ack s v).holder = s.holder := rfl
@[simp] theorem ack_rc (s : State) (v : Bool) : (ack s v).rc = s.rc := rfl
@[simp] theorem ack_mu (s : State) (v : Bool) : (ack s v).mu = s.mu := rfl
@[simp] theorem ack_fu (s : State) (v : Bool) : (ack s v).fu = s.fu := rfl
@[simp] theorem ack_host (s : State) (v : Bool) : (ack s v).host = s.host := rfl
@[simp] theorem ack_staging (s : State) (v : Bool) : (ack s v).staging = s.staging := rfl
@[simp] theorem ack_alert (s : State) (v : Bool) : (ack s v).alert = s.alert := rfl
@[simp] theorem ack_ctl (s : State) (v : Bool) : (ack s v).ctl = s.ctl := rfl
@[simp] theorem ack_mgmt (s : State) (v : Bool) : (ack s v).mgmt = s.mgmt := rfl
@[simp] theorem ack_free (s : State) (v : Bool) : (ack s v).free = s.free := rfl
@[simp] theorem ack_pending (s : State) (v : Bool) : (ack s v).pending = s.pending := rfl

/-! `modCtx` writes `inflight` only. -/

@[simp] theorem modCtx_array (s : State) (f : Ctx → Ctx) : (modCtx s f).array = s.array := rfl
@[simp] theorem modCtx_seqr (s : State) (f : Ctx → Ctx) : (modCtx s f).seqr = s.seqr := rfl
@[simp] theorem modCtx_sm (s : State) (f : Ctx → Ctx) : (modCtx s f).sm = s.sm := rfl
@[simp] theorem modCtx_dir (s : State) (f : Ctx → Ctx) : (modCtx s f).dir = s.dir := rfl
@[simp] theorem modCtx_freezes (s : State) (f : Ctx → Ctx) : (modCtx s f).freezes = s.freezes := rfl
@[simp] theorem modCtx_batch (s : State) (f : Ctx → Ctx) : (modCtx s f).batch = s.batch := rfl
@[simp] theorem modCtx_commits (s : State) (f : Ctx → Ctx) : (modCtx s f).commits = s.commits := rfl
@[simp] theorem modCtx_eng (s : State) (f : Ctx → Ctx) : (modCtx s f).eng = s.eng := rfl
@[simp] theorem modCtx_holder (s : State) (f : Ctx → Ctx) : (modCtx s f).holder = s.holder := rfl
@[simp] theorem modCtx_rc (s : State) (f : Ctx → Ctx) : (modCtx s f).rc = s.rc := rfl
@[simp] theorem modCtx_mu (s : State) (f : Ctx → Ctx) : (modCtx s f).mu = s.mu := rfl
@[simp] theorem modCtx_fu (s : State) (f : Ctx → Ctx) : (modCtx s f).fu = s.fu := rfl
@[simp] theorem modCtx_host (s : State) (f : Ctx → Ctx) : (modCtx s f).host = s.host := rfl
@[simp] theorem modCtx_staging (s : State) (f : Ctx → Ctx) : (modCtx s f).staging = s.staging := rfl
@[simp] theorem modCtx_alert (s : State) (f : Ctx → Ctx) : (modCtx s f).alert = s.alert := rfl
@[simp] theorem modCtx_ctl (s : State) (f : Ctx → Ctx) : (modCtx s f).ctl = s.ctl := rfl
@[simp] theorem modCtx_mgmt (s : State) (f : Ctx → Ctx) : (modCtx s f).mgmt = s.mgmt := rfl
@[simp] theorem modCtx_pins (s : State) (f : Ctx → Ctx) : (modCtx s f).pins = s.pins := rfl
@[simp] theorem modCtx_free (s : State) (f : Ctx → Ctx) : (modCtx s f).free = s.free := rfl
@[simp] theorem modCtx_pending (s : State) (f : Ctx → Ctx) : (modCtx s f).pending = s.pending := rfl

/-! `setStage` writes `inflight` only. -/

@[simp] theorem setStage_array (s : State) (st : Stage) : (setStage s st).array = s.array := rfl
@[simp] theorem setStage_seqr (s : State) (st : Stage) : (setStage s st).seqr = s.seqr := rfl
@[simp] theorem setStage_sm (s : State) (st : Stage) : (setStage s st).sm = s.sm := rfl
@[simp] theorem setStage_dir (s : State) (st : Stage) : (setStage s st).dir = s.dir := rfl
@[simp] theorem setStage_freezes (s : State) (st : Stage) : (setStage s st).freezes = s.freezes := rfl
@[simp] theorem setStage_batch (s : State) (st : Stage) : (setStage s st).batch = s.batch := rfl
@[simp] theorem setStage_commits (s : State) (st : Stage) : (setStage s st).commits = s.commits := rfl
@[simp] theorem setStage_eng (s : State) (st : Stage) : (setStage s st).eng = s.eng := rfl
@[simp] theorem setStage_holder (s : State) (st : Stage) : (setStage s st).holder = s.holder := rfl
@[simp] theorem setStage_rc (s : State) (st : Stage) : (setStage s st).rc = s.rc := rfl
@[simp] theorem setStage_mu (s : State) (st : Stage) : (setStage s st).mu = s.mu := rfl
@[simp] theorem setStage_fu (s : State) (st : Stage) : (setStage s st).fu = s.fu := rfl
@[simp] theorem setStage_host (s : State) (st : Stage) : (setStage s st).host = s.host := rfl
@[simp] theorem setStage_staging (s : State) (st : Stage) : (setStage s st).staging = s.staging := rfl
@[simp] theorem setStage_alert (s : State) (st : Stage) : (setStage s st).alert = s.alert := rfl
@[simp] theorem setStage_ctl (s : State) (st : Stage) : (setStage s st).ctl = s.ctl := rfl
@[simp] theorem setStage_mgmt (s : State) (st : Stage) : (setStage s st).mgmt = s.mgmt := rfl
@[simp] theorem setStage_pins (s : State) (st : Stage) : (setStage s st).pins = s.pins := rfl
@[simp] theorem setStage_free (s : State) (st : Stage) : (setStage s st).free = s.free := rfl
@[simp] theorem setStage_pending (s : State) (st : Stage) : (setStage s st).pending = s.pending := rfl

/-! `modRc` writes `rc` only. -/

@[simp] theorem modRc_array (s : State) (f : Reclaim → Reclaim) : (modRc s f).array = s.array := rfl
@[simp] theorem modRc_seqr (s : State) (f : Reclaim → Reclaim) : (modRc s f).seqr = s.seqr := rfl
@[simp] theorem modRc_sm (s : State) (f : Reclaim → Reclaim) : (modRc s f).sm = s.sm := rfl
@[simp] theorem modRc_dir (s : State) (f : Reclaim → Reclaim) : (modRc s f).dir = s.dir := rfl
@[simp] theorem modRc_freezes (s : State) (f : Reclaim → Reclaim) : (modRc s f).freezes = s.freezes := rfl
@[simp] theorem modRc_batch (s : State) (f : Reclaim → Reclaim) : (modRc s f).batch = s.batch := rfl
@[simp] theorem modRc_commits (s : State) (f : Reclaim → Reclaim) : (modRc s f).commits = s.commits := rfl
@[simp] theorem modRc_eng (s : State) (f : Reclaim → Reclaim) : (modRc s f).eng = s.eng := rfl
@[simp] theorem modRc_inflight (s : State) (f : Reclaim → Reclaim) : (modRc s f).inflight = s.inflight := rfl
@[simp] theorem modRc_holder (s : State) (f : Reclaim → Reclaim) : (modRc s f).holder = s.holder := rfl
@[simp] theorem modRc_mu (s : State) (f : Reclaim → Reclaim) : (modRc s f).mu = s.mu := rfl
@[simp] theorem modRc_fu (s : State) (f : Reclaim → Reclaim) : (modRc s f).fu = s.fu := rfl
@[simp] theorem modRc_host (s : State) (f : Reclaim → Reclaim) : (modRc s f).host = s.host := rfl
@[simp] theorem modRc_staging (s : State) (f : Reclaim → Reclaim) : (modRc s f).staging = s.staging := rfl
@[simp] theorem modRc_alert (s : State) (f : Reclaim → Reclaim) : (modRc s f).alert = s.alert := rfl
@[simp] theorem modRc_ctl (s : State) (f : Reclaim → Reclaim) : (modRc s f).ctl = s.ctl := rfl
@[simp] theorem modRc_mgmt (s : State) (f : Reclaim → Reclaim) : (modRc s f).mgmt = s.mgmt := rfl
@[simp] theorem modRc_pins (s : State) (f : Reclaim → Reclaim) : (modRc s f).pins = s.pins := rfl
@[simp] theorem modRc_free (s : State) (f : Reclaim → Reclaim) : (modRc s f).free = s.free := rfl
@[simp] theorem modRc_pending (s : State) (f : Reclaim → Reclaim) : (modRc s f).pending = s.pending := rfl

/-! `modMu` writes `mu` only. -/

@[simp] theorem modMu_array (s : State) (f : MountUnit → MountUnit) : (modMu s f).array = s.array := rfl
@[simp] theorem modMu_seqr (s : State) (f : MountUnit → MountUnit) : (modMu s f).seqr = s.seqr := rfl
@[simp] theorem modMu_sm (s : State) (f : MountUnit → MountUnit) : (modMu s f).sm = s.sm := rfl
@[simp] theorem modMu_dir (s : State) (f : MountUnit → MountUnit) : (modMu s f).dir = s.dir := rfl
@[simp] theorem modMu_freezes (s : State) (f : MountUnit → MountUnit) : (modMu s f).freezes = s.freezes := rfl
@[simp] theorem modMu_batch (s : State) (f : MountUnit → MountUnit) : (modMu s f).batch = s.batch := rfl
@[simp] theorem modMu_commits (s : State) (f : MountUnit → MountUnit) : (modMu s f).commits = s.commits := rfl
@[simp] theorem modMu_eng (s : State) (f : MountUnit → MountUnit) : (modMu s f).eng = s.eng := rfl
@[simp] theorem modMu_inflight (s : State) (f : MountUnit → MountUnit) : (modMu s f).inflight = s.inflight := rfl
@[simp] theorem modMu_holder (s : State) (f : MountUnit → MountUnit) : (modMu s f).holder = s.holder := rfl
@[simp] theorem modMu_rc (s : State) (f : MountUnit → MountUnit) : (modMu s f).rc = s.rc := rfl
@[simp] theorem modMu_fu (s : State) (f : MountUnit → MountUnit) : (modMu s f).fu = s.fu := rfl
@[simp] theorem modMu_host (s : State) (f : MountUnit → MountUnit) : (modMu s f).host = s.host := rfl
@[simp] theorem modMu_staging (s : State) (f : MountUnit → MountUnit) : (modMu s f).staging = s.staging := rfl
@[simp] theorem modMu_alert (s : State) (f : MountUnit → MountUnit) : (modMu s f).alert = s.alert := rfl
@[simp] theorem modMu_ctl (s : State) (f : MountUnit → MountUnit) : (modMu s f).ctl = s.ctl := rfl
@[simp] theorem modMu_mgmt (s : State) (f : MountUnit → MountUnit) : (modMu s f).mgmt = s.mgmt := rfl
@[simp] theorem modMu_pins (s : State) (f : MountUnit → MountUnit) : (modMu s f).pins = s.pins := rfl
@[simp] theorem modMu_free (s : State) (f : MountUnit → MountUnit) : (modMu s f).free = s.free := rfl
@[simp] theorem modMu_pending (s : State) (f : MountUnit → MountUnit) : (modMu s f).pending = s.pending := rfl

/-! `setFu` writes `fu` only. -/

@[simp] theorem setFu_array (s : State) (f : FormatCtx) : (setFu s f).array = s.array := rfl
@[simp] theorem setFu_seqr (s : State) (f : FormatCtx) : (setFu s f).seqr = s.seqr := rfl
@[simp] theorem setFu_sm (s : State) (f : FormatCtx) : (setFu s f).sm = s.sm := rfl
@[simp] theorem setFu_dir (s : State) (f : FormatCtx) : (setFu s f).dir = s.dir := rfl
@[simp] theorem setFu_freezes (s : State) (f : FormatCtx) : (setFu s f).freezes = s.freezes := rfl
@[simp] theorem setFu_batch (s : State) (f : FormatCtx) : (setFu s f).batch = s.batch := rfl
@[simp] theorem setFu_commits (s : State) (f : FormatCtx) : (setFu s f).commits = s.commits := rfl
@[simp] theorem setFu_eng (s : State) (f : FormatCtx) : (setFu s f).eng = s.eng := rfl
@[simp] theorem setFu_inflight (s : State) (f : FormatCtx) : (setFu s f).inflight = s.inflight := rfl
@[simp] theorem setFu_holder (s : State) (f : FormatCtx) : (setFu s f).holder = s.holder := rfl
@[simp] theorem setFu_rc (s : State) (f : FormatCtx) : (setFu s f).rc = s.rc := rfl
@[simp] theorem setFu_mu (s : State) (f : FormatCtx) : (setFu s f).mu = s.mu := rfl
@[simp] theorem setFu_host (s : State) (f : FormatCtx) : (setFu s f).host = s.host := rfl
@[simp] theorem setFu_staging (s : State) (f : FormatCtx) : (setFu s f).staging = s.staging := rfl
@[simp] theorem setFu_alert (s : State) (f : FormatCtx) : (setFu s f).alert = s.alert := rfl
@[simp] theorem setFu_ctl (s : State) (f : FormatCtx) : (setFu s f).ctl = s.ctl := rfl
@[simp] theorem setFu_mgmt (s : State) (f : FormatCtx) : (setFu s f).mgmt = s.mgmt := rfl
@[simp] theorem setFu_pins (s : State) (f : FormatCtx) : (setFu s f).pins = s.pins := rfl
@[simp] theorem setFu_free (s : State) (f : FormatCtx) : (setFu s f).free = s.free := rfl
@[simp] theorem setFu_pending (s : State) (f : FormatCtx) : (setFu s f).pending = s.pending := rfl

/-! `latchStraps` writes `eng` only. -/

@[simp] theorem latchStraps_array (s : State) (a : Bool) (m : BitVec 2) : (latchStraps s a m).array = s.array := rfl
@[simp] theorem latchStraps_seqr (s : State) (a : Bool) (m : BitVec 2) : (latchStraps s a m).seqr = s.seqr := rfl
@[simp] theorem latchStraps_sm (s : State) (a : Bool) (m : BitVec 2) : (latchStraps s a m).sm = s.sm := rfl
@[simp] theorem latchStraps_dir (s : State) (a : Bool) (m : BitVec 2) : (latchStraps s a m).dir = s.dir := rfl
@[simp] theorem latchStraps_freezes (s : State) (a : Bool) (m : BitVec 2) : (latchStraps s a m).freezes = s.freezes := rfl
@[simp] theorem latchStraps_batch (s : State) (a : Bool) (m : BitVec 2) : (latchStraps s a m).batch = s.batch := rfl
@[simp] theorem latchStraps_commits (s : State) (a : Bool) (m : BitVec 2) : (latchStraps s a m).commits = s.commits := rfl
@[simp] theorem latchStraps_inflight (s : State) (a : Bool) (m : BitVec 2) : (latchStraps s a m).inflight = s.inflight := rfl
@[simp] theorem latchStraps_holder (s : State) (a : Bool) (m : BitVec 2) : (latchStraps s a m).holder = s.holder := rfl
@[simp] theorem latchStraps_rc (s : State) (a : Bool) (m : BitVec 2) : (latchStraps s a m).rc = s.rc := rfl
@[simp] theorem latchStraps_mu (s : State) (a : Bool) (m : BitVec 2) : (latchStraps s a m).mu = s.mu := rfl
@[simp] theorem latchStraps_fu (s : State) (a : Bool) (m : BitVec 2) : (latchStraps s a m).fu = s.fu := rfl
@[simp] theorem latchStraps_host (s : State) (a : Bool) (m : BitVec 2) : (latchStraps s a m).host = s.host := rfl
@[simp] theorem latchStraps_staging (s : State) (a : Bool) (m : BitVec 2) : (latchStraps s a m).staging = s.staging := rfl
@[simp] theorem latchStraps_alert (s : State) (a : Bool) (m : BitVec 2) : (latchStraps s a m).alert = s.alert := rfl
@[simp] theorem latchStraps_ctl (s : State) (a : Bool) (m : BitVec 2) : (latchStraps s a m).ctl = s.ctl := rfl
@[simp] theorem latchStraps_mgmt (s : State) (a : Bool) (m : BitVec 2) : (latchStraps s a m).mgmt = s.mgmt := rfl
@[simp] theorem latchStraps_pins (s : State) (a : Bool) (m : BitVec 2) : (latchStraps s a m).pins = s.pins := rfl
@[simp] theorem latchStraps_free (s : State) (a : Bool) (m : BitVec 2) : (latchStraps s a m).free = s.free := rfl
@[simp] theorem latchStraps_pending (s : State) (a : Bool) (m : BitVec 2) : (latchStraps s a m).pending = s.pending := rfl

/-! `stagingWrite` writes `staging` only. -/

@[simp] theorem stagingWrite_array (s : State) (b i : Nat) (v : Byte) : (stagingWrite s b i v).array = s.array := rfl
@[simp] theorem stagingWrite_seqr (s : State) (b i : Nat) (v : Byte) : (stagingWrite s b i v).seqr = s.seqr := rfl
@[simp] theorem stagingWrite_sm (s : State) (b i : Nat) (v : Byte) : (stagingWrite s b i v).sm = s.sm := rfl
@[simp] theorem stagingWrite_dir (s : State) (b i : Nat) (v : Byte) : (stagingWrite s b i v).dir = s.dir := rfl
@[simp] theorem stagingWrite_freezes (s : State) (b i : Nat) (v : Byte) : (stagingWrite s b i v).freezes = s.freezes := rfl
@[simp] theorem stagingWrite_batch (s : State) (b i : Nat) (v : Byte) : (stagingWrite s b i v).batch = s.batch := rfl
@[simp] theorem stagingWrite_commits (s : State) (b i : Nat) (v : Byte) : (stagingWrite s b i v).commits = s.commits := rfl
@[simp] theorem stagingWrite_eng (s : State) (b i : Nat) (v : Byte) : (stagingWrite s b i v).eng = s.eng := rfl
@[simp] theorem stagingWrite_inflight (s : State) (b i : Nat) (v : Byte) : (stagingWrite s b i v).inflight = s.inflight := rfl
@[simp] theorem stagingWrite_holder (s : State) (b i : Nat) (v : Byte) : (stagingWrite s b i v).holder = s.holder := rfl
@[simp] theorem stagingWrite_rc (s : State) (b i : Nat) (v : Byte) : (stagingWrite s b i v).rc = s.rc := rfl
@[simp] theorem stagingWrite_mu (s : State) (b i : Nat) (v : Byte) : (stagingWrite s b i v).mu = s.mu := rfl
@[simp] theorem stagingWrite_fu (s : State) (b i : Nat) (v : Byte) : (stagingWrite s b i v).fu = s.fu := rfl
@[simp] theorem stagingWrite_host (s : State) (b i : Nat) (v : Byte) : (stagingWrite s b i v).host = s.host := rfl
@[simp] theorem stagingWrite_alert (s : State) (b i : Nat) (v : Byte) : (stagingWrite s b i v).alert = s.alert := rfl
@[simp] theorem stagingWrite_ctl (s : State) (b i : Nat) (v : Byte) : (stagingWrite s b i v).ctl = s.ctl := rfl
@[simp] theorem stagingWrite_mgmt (s : State) (b i : Nat) (v : Byte) : (stagingWrite s b i v).mgmt = s.mgmt := rfl
@[simp] theorem stagingWrite_pins (s : State) (b i : Nat) (v : Byte) : (stagingWrite s b i v).pins = s.pins := rfl
@[simp] theorem stagingWrite_free (s : State) (b i : Nat) (v : Byte) : (stagingWrite s b i v).free = s.free := rfl
@[simp] theorem stagingWrite_pending (s : State) (b i : Nat) (v : Byte) : (stagingWrite s b i v).pending = s.pending := rfl

/-! `eraseSegment` writes `array` only. -/

@[simp] theorem eraseSegment_seqr (s : State) (n : Nat) : (eraseSegment s n).seqr = s.seqr := rfl
@[simp] theorem eraseSegment_sm (s : State) (n : Nat) : (eraseSegment s n).sm = s.sm := rfl
@[simp] theorem eraseSegment_dir (s : State) (n : Nat) : (eraseSegment s n).dir = s.dir := rfl
@[simp] theorem eraseSegment_freezes (s : State) (n : Nat) : (eraseSegment s n).freezes = s.freezes := rfl
@[simp] theorem eraseSegment_batch (s : State) (n : Nat) : (eraseSegment s n).batch = s.batch := rfl
@[simp] theorem eraseSegment_commits (s : State) (n : Nat) : (eraseSegment s n).commits = s.commits := rfl
@[simp] theorem eraseSegment_eng (s : State) (n : Nat) : (eraseSegment s n).eng = s.eng := rfl
@[simp] theorem eraseSegment_inflight (s : State) (n : Nat) : (eraseSegment s n).inflight = s.inflight := rfl
@[simp] theorem eraseSegment_holder (s : State) (n : Nat) : (eraseSegment s n).holder = s.holder := rfl
@[simp] theorem eraseSegment_rc (s : State) (n : Nat) : (eraseSegment s n).rc = s.rc := rfl
@[simp] theorem eraseSegment_mu (s : State) (n : Nat) : (eraseSegment s n).mu = s.mu := rfl
@[simp] theorem eraseSegment_fu (s : State) (n : Nat) : (eraseSegment s n).fu = s.fu := rfl
@[simp] theorem eraseSegment_host (s : State) (n : Nat) : (eraseSegment s n).host = s.host := rfl
@[simp] theorem eraseSegment_staging (s : State) (n : Nat) : (eraseSegment s n).staging = s.staging := rfl
@[simp] theorem eraseSegment_alert (s : State) (n : Nat) : (eraseSegment s n).alert = s.alert := rfl
@[simp] theorem eraseSegment_ctl (s : State) (n : Nat) : (eraseSegment s n).ctl = s.ctl := rfl
@[simp] theorem eraseSegment_mgmt (s : State) (n : Nat) : (eraseSegment s n).mgmt = s.mgmt := rfl
@[simp] theorem eraseSegment_pins (s : State) (n : Nat) : (eraseSegment s n).pins = s.pins := rfl
@[simp] theorem eraseSegment_free (s : State) (n : Nat) : (eraseSegment s n).free = s.free := rfl
@[simp] theorem eraseSegment_pending (s : State) (n : Nat) : (eraseSegment s n).pending = s.pending := rfl

/-! `clearPins` writes `sm` only. -/

@[simp] theorem clearPins_array (s : State) : (clearPins s).array = s.array := rfl
@[simp] theorem clearPins_seqr (s : State) : (clearPins s).seqr = s.seqr := rfl
@[simp] theorem clearPins_dir (s : State) : (clearPins s).dir = s.dir := rfl
@[simp] theorem clearPins_freezes (s : State) : (clearPins s).freezes = s.freezes := rfl
@[simp] theorem clearPins_batch (s : State) : (clearPins s).batch = s.batch := rfl
@[simp] theorem clearPins_commits (s : State) : (clearPins s).commits = s.commits := rfl
@[simp] theorem clearPins_eng (s : State) : (clearPins s).eng = s.eng := rfl
@[simp] theorem clearPins_inflight (s : State) : (clearPins s).inflight = s.inflight := rfl
@[simp] theorem clearPins_holder (s : State) : (clearPins s).holder = s.holder := rfl
@[simp] theorem clearPins_rc (s : State) : (clearPins s).rc = s.rc := rfl
@[simp] theorem clearPins_mu (s : State) : (clearPins s).mu = s.mu := rfl
@[simp] theorem clearPins_fu (s : State) : (clearPins s).fu = s.fu := rfl
@[simp] theorem clearPins_host (s : State) : (clearPins s).host = s.host := rfl
@[simp] theorem clearPins_staging (s : State) : (clearPins s).staging = s.staging := rfl
@[simp] theorem clearPins_alert (s : State) : (clearPins s).alert = s.alert := rfl
@[simp] theorem clearPins_ctl (s : State) : (clearPins s).ctl = s.ctl := rfl
@[simp] theorem clearPins_mgmt (s : State) : (clearPins s).mgmt = s.mgmt := rfl
@[simp] theorem clearPins_pins (s : State) : (clearPins s).pins = s.pins := rfl
@[simp] theorem clearPins_free (s : State) : (clearPins s).free = s.free := rfl
@[simp] theorem clearPins_pending (s : State) : (clearPins s).pending = s.pending := rfl

/-! `emptyTable` writes `sm` only. -/

@[simp] theorem emptyTable_array (s : State) : (emptyTable s).array = s.array := rfl
@[simp] theorem emptyTable_seqr (s : State) : (emptyTable s).seqr = s.seqr := rfl
@[simp] theorem emptyTable_dir (s : State) : (emptyTable s).dir = s.dir := rfl
@[simp] theorem emptyTable_freezes (s : State) : (emptyTable s).freezes = s.freezes := rfl
@[simp] theorem emptyTable_batch (s : State) : (emptyTable s).batch = s.batch := rfl
@[simp] theorem emptyTable_commits (s : State) : (emptyTable s).commits = s.commits := rfl
@[simp] theorem emptyTable_eng (s : State) : (emptyTable s).eng = s.eng := rfl
@[simp] theorem emptyTable_inflight (s : State) : (emptyTable s).inflight = s.inflight := rfl
@[simp] theorem emptyTable_holder (s : State) : (emptyTable s).holder = s.holder := rfl
@[simp] theorem emptyTable_rc (s : State) : (emptyTable s).rc = s.rc := rfl
@[simp] theorem emptyTable_mu (s : State) : (emptyTable s).mu = s.mu := rfl
@[simp] theorem emptyTable_fu (s : State) : (emptyTable s).fu = s.fu := rfl
@[simp] theorem emptyTable_host (s : State) : (emptyTable s).host = s.host := rfl
@[simp] theorem emptyTable_staging (s : State) : (emptyTable s).staging = s.staging := rfl
@[simp] theorem emptyTable_alert (s : State) : (emptyTable s).alert = s.alert := rfl
@[simp] theorem emptyTable_ctl (s : State) : (emptyTable s).ctl = s.ctl := rfl
@[simp] theorem emptyTable_mgmt (s : State) : (emptyTable s).mgmt = s.mgmt := rfl
@[simp] theorem emptyTable_pins (s : State) : (emptyTable s).pins = s.pins := rfl
@[simp] theorem emptyTable_free (s : State) : (emptyTable s).free = s.free := rfl
@[simp] theorem emptyTable_pending (s : State) : (emptyTable s).pending = s.pending := rfl

/-! `clearAlerts` writes `alert` only. -/

@[simp] theorem clearAlerts_array (s : State) (v : Byte) : (clearAlerts s v).array = s.array := rfl
@[simp] theorem clearAlerts_seqr (s : State) (v : Byte) : (clearAlerts s v).seqr = s.seqr := rfl
@[simp] theorem clearAlerts_sm (s : State) (v : Byte) : (clearAlerts s v).sm = s.sm := rfl
@[simp] theorem clearAlerts_dir (s : State) (v : Byte) : (clearAlerts s v).dir = s.dir := rfl
@[simp] theorem clearAlerts_freezes (s : State) (v : Byte) : (clearAlerts s v).freezes = s.freezes := rfl
@[simp] theorem clearAlerts_batch (s : State) (v : Byte) : (clearAlerts s v).batch = s.batch := rfl
@[simp] theorem clearAlerts_commits (s : State) (v : Byte) : (clearAlerts s v).commits = s.commits := rfl
@[simp] theorem clearAlerts_eng (s : State) (v : Byte) : (clearAlerts s v).eng = s.eng := rfl
@[simp] theorem clearAlerts_inflight (s : State) (v : Byte) : (clearAlerts s v).inflight = s.inflight := rfl
@[simp] theorem clearAlerts_holder (s : State) (v : Byte) : (clearAlerts s v).holder = s.holder := rfl
@[simp] theorem clearAlerts_rc (s : State) (v : Byte) : (clearAlerts s v).rc = s.rc := rfl
@[simp] theorem clearAlerts_mu (s : State) (v : Byte) : (clearAlerts s v).mu = s.mu := rfl
@[simp] theorem clearAlerts_fu (s : State) (v : Byte) : (clearAlerts s v).fu = s.fu := rfl
@[simp] theorem clearAlerts_host (s : State) (v : Byte) : (clearAlerts s v).host = s.host := rfl
@[simp] theorem clearAlerts_staging (s : State) (v : Byte) : (clearAlerts s v).staging = s.staging := rfl
@[simp] theorem clearAlerts_ctl (s : State) (v : Byte) : (clearAlerts s v).ctl = s.ctl := rfl
@[simp] theorem clearAlerts_mgmt (s : State) (v : Byte) : (clearAlerts s v).mgmt = s.mgmt := rfl
@[simp] theorem clearAlerts_pins (s : State) (v : Byte) : (clearAlerts s v).pins = s.pins := rfl
@[simp] theorem clearAlerts_free (s : State) (v : Byte) : (clearAlerts s v).free = s.free := rfl
@[simp] theorem clearAlerts_pending (s : State) (v : Byte) : (clearAlerts s v).pending = s.pending := rfl

/-! `setMask` writes `alert` only. -/

@[simp] theorem setMask_array (s : State) (v : Byte) : (setMask s v).array = s.array := rfl
@[simp] theorem setMask_seqr (s : State) (v : Byte) : (setMask s v).seqr = s.seqr := rfl
@[simp] theorem setMask_sm (s : State) (v : Byte) : (setMask s v).sm = s.sm := rfl
@[simp] theorem setMask_dir (s : State) (v : Byte) : (setMask s v).dir = s.dir := rfl
@[simp] theorem setMask_freezes (s : State) (v : Byte) : (setMask s v).freezes = s.freezes := rfl
@[simp] theorem setMask_batch (s : State) (v : Byte) : (setMask s v).batch = s.batch := rfl
@[simp] theorem setMask_commits (s : State) (v : Byte) : (setMask s v).commits = s.commits := rfl
@[simp] theorem setMask_eng (s : State) (v : Byte) : (setMask s v).eng = s.eng := rfl
@[simp] theorem setMask_inflight (s : State) (v : Byte) : (setMask s v).inflight = s.inflight := rfl
@[simp] theorem setMask_holder (s : State) (v : Byte) : (setMask s v).holder = s.holder := rfl
@[simp] theorem setMask_rc (s : State) (v : Byte) : (setMask s v).rc = s.rc := rfl
@[simp] theorem setMask_mu (s : State) (v : Byte) : (setMask s v).mu = s.mu := rfl
@[simp] theorem setMask_fu (s : State) (v : Byte) : (setMask s v).fu = s.fu := rfl
@[simp] theorem setMask_host (s : State) (v : Byte) : (setMask s v).host = s.host := rfl
@[simp] theorem setMask_staging (s : State) (v : Byte) : (setMask s v).staging = s.staging := rfl
@[simp] theorem setMask_ctl (s : State) (v : Byte) : (setMask s v).ctl = s.ctl := rfl
@[simp] theorem setMask_mgmt (s : State) (v : Byte) : (setMask s v).mgmt = s.mgmt := rfl
@[simp] theorem setMask_pins (s : State) (v : Byte) : (setMask s v).pins = s.pins := rfl
@[simp] theorem setMask_free (s : State) (v : Byte) : (setMask s v).free = s.free := rfl
@[simp] theorem setMask_pending (s : State) (v : Byte) : (setMask s v).pending = s.pending := rfl

/-! `setRecthr` writes `ctl` only. -/

@[simp] theorem setRecthr_array (s : State) (v : Byte) : (setRecthr s v).array = s.array := rfl
@[simp] theorem setRecthr_seqr (s : State) (v : Byte) : (setRecthr s v).seqr = s.seqr := rfl
@[simp] theorem setRecthr_sm (s : State) (v : Byte) : (setRecthr s v).sm = s.sm := rfl
@[simp] theorem setRecthr_dir (s : State) (v : Byte) : (setRecthr s v).dir = s.dir := rfl
@[simp] theorem setRecthr_freezes (s : State) (v : Byte) : (setRecthr s v).freezes = s.freezes := rfl
@[simp] theorem setRecthr_batch (s : State) (v : Byte) : (setRecthr s v).batch = s.batch := rfl
@[simp] theorem setRecthr_commits (s : State) (v : Byte) : (setRecthr s v).commits = s.commits := rfl
@[simp] theorem setRecthr_eng (s : State) (v : Byte) : (setRecthr s v).eng = s.eng := rfl
@[simp] theorem setRecthr_inflight (s : State) (v : Byte) : (setRecthr s v).inflight = s.inflight := rfl
@[simp] theorem setRecthr_holder (s : State) (v : Byte) : (setRecthr s v).holder = s.holder := rfl
@[simp] theorem setRecthr_rc (s : State) (v : Byte) : (setRecthr s v).rc = s.rc := rfl
@[simp] theorem setRecthr_mu (s : State) (v : Byte) : (setRecthr s v).mu = s.mu := rfl
@[simp] theorem setRecthr_fu (s : State) (v : Byte) : (setRecthr s v).fu = s.fu := rfl
@[simp] theorem setRecthr_host (s : State) (v : Byte) : (setRecthr s v).host = s.host := rfl
@[simp] theorem setRecthr_staging (s : State) (v : Byte) : (setRecthr s v).staging = s.staging := rfl
@[simp] theorem setRecthr_alert (s : State) (v : Byte) : (setRecthr s v).alert = s.alert := rfl
@[simp] theorem setRecthr_mgmt (s : State) (v : Byte) : (setRecthr s v).mgmt = s.mgmt := rfl
@[simp] theorem setRecthr_pins (s : State) (v : Byte) : (setRecthr s v).pins = s.pins := rfl
@[simp] theorem setRecthr_free (s : State) (v : Byte) : (setRecthr s v).free = s.free := rfl
@[simp] theorem setRecthr_pending (s : State) (v : Byte) : (setRecthr s v).pending = s.pending := rfl

/-! `setHostwt` writes `ctl` only. -/

@[simp] theorem setHostwt_array (s : State) (v : Byte) : (setHostwt s v).array = s.array := rfl
@[simp] theorem setHostwt_seqr (s : State) (v : Byte) : (setHostwt s v).seqr = s.seqr := rfl
@[simp] theorem setHostwt_sm (s : State) (v : Byte) : (setHostwt s v).sm = s.sm := rfl
@[simp] theorem setHostwt_dir (s : State) (v : Byte) : (setHostwt s v).dir = s.dir := rfl
@[simp] theorem setHostwt_freezes (s : State) (v : Byte) : (setHostwt s v).freezes = s.freezes := rfl
@[simp] theorem setHostwt_batch (s : State) (v : Byte) : (setHostwt s v).batch = s.batch := rfl
@[simp] theorem setHostwt_commits (s : State) (v : Byte) : (setHostwt s v).commits = s.commits := rfl
@[simp] theorem setHostwt_eng (s : State) (v : Byte) : (setHostwt s v).eng = s.eng := rfl
@[simp] theorem setHostwt_inflight (s : State) (v : Byte) : (setHostwt s v).inflight = s.inflight := rfl
@[simp] theorem setHostwt_holder (s : State) (v : Byte) : (setHostwt s v).holder = s.holder := rfl
@[simp] theorem setHostwt_rc (s : State) (v : Byte) : (setHostwt s v).rc = s.rc := rfl
@[simp] theorem setHostwt_mu (s : State) (v : Byte) : (setHostwt s v).mu = s.mu := rfl
@[simp] theorem setHostwt_fu (s : State) (v : Byte) : (setHostwt s v).fu = s.fu := rfl
@[simp] theorem setHostwt_host (s : State) (v : Byte) : (setHostwt s v).host = s.host := rfl
@[simp] theorem setHostwt_staging (s : State) (v : Byte) : (setHostwt s v).staging = s.staging := rfl
@[simp] theorem setHostwt_alert (s : State) (v : Byte) : (setHostwt s v).alert = s.alert := rfl
@[simp] theorem setHostwt_mgmt (s : State) (v : Byte) : (setHostwt s v).mgmt = s.mgmt := rfl
@[simp] theorem setHostwt_pins (s : State) (v : Byte) : (setHostwt s v).pins = s.pins := rfl
@[simp] theorem setHostwt_free (s : State) (v : Byte) : (setHostwt s v).free = s.free := rfl
@[simp] theorem setHostwt_pending (s : State) (v : Byte) : (setHostwt s v).pending = s.pending := rfl

/-! `setSlot` writes one slot of `mgmt` only; `issue` writes `seqr` only; `setLine` writes `array` only. -/

@[simp] theorem setSlot_array (s : State) (b : Bool) (v : Slot) : (setSlot s b v).array = s.array := by cases b <;> rfl
@[simp] theorem setSlot_seqr (s : State) (b : Bool) (v : Slot) : (setSlot s b v).seqr = s.seqr := by cases b <;> rfl
@[simp] theorem setSlot_sm (s : State) (b : Bool) (v : Slot) : (setSlot s b v).sm = s.sm := by cases b <;> rfl
@[simp] theorem setSlot_dir (s : State) (b : Bool) (v : Slot) : (setSlot s b v).dir = s.dir := by cases b <;> rfl
@[simp] theorem setSlot_freezes (s : State) (b : Bool) (v : Slot) : (setSlot s b v).freezes = s.freezes := by cases b <;> rfl
@[simp] theorem setSlot_batch (s : State) (b : Bool) (v : Slot) : (setSlot s b v).batch = s.batch := by cases b <;> rfl
@[simp] theorem setSlot_commits (s : State) (b : Bool) (v : Slot) : (setSlot s b v).commits = s.commits := by cases b <;> rfl
@[simp] theorem setSlot_eng (s : State) (b : Bool) (v : Slot) : (setSlot s b v).eng = s.eng := by cases b <;> rfl
@[simp] theorem setSlot_inflight (s : State) (b : Bool) (v : Slot) : (setSlot s b v).inflight = s.inflight := by cases b <;> rfl
@[simp] theorem setSlot_holder (s : State) (b : Bool) (v : Slot) : (setSlot s b v).holder = s.holder := by cases b <;> rfl
@[simp] theorem setSlot_rc (s : State) (b : Bool) (v : Slot) : (setSlot s b v).rc = s.rc := by cases b <;> rfl
@[simp] theorem setSlot_mu (s : State) (b : Bool) (v : Slot) : (setSlot s b v).mu = s.mu := by cases b <;> rfl
@[simp] theorem setSlot_fu (s : State) (b : Bool) (v : Slot) : (setSlot s b v).fu = s.fu := by cases b <;> rfl
@[simp] theorem setSlot_host (s : State) (b : Bool) (v : Slot) : (setSlot s b v).host = s.host := by cases b <;> rfl
@[simp] theorem setSlot_staging (s : State) (b : Bool) (v : Slot) : (setSlot s b v).staging = s.staging := by cases b <;> rfl
@[simp] theorem setSlot_alert (s : State) (b : Bool) (v : Slot) : (setSlot s b v).alert = s.alert := by cases b <;> rfl
@[simp] theorem setSlot_ctl (s : State) (b : Bool) (v : Slot) : (setSlot s b v).ctl = s.ctl := by cases b <;> rfl
@[simp] theorem setSlot_pins (s : State) (b : Bool) (v : Slot) : (setSlot s b v).pins = s.pins := by cases b <;> rfl
@[simp] theorem setSlot_free (s : State) (b : Bool) (v : Slot) : (setSlot s b v).free = s.free := by cases b <;> rfl
@[simp] theorem setSlot_pending (s : State) (b : Bool) (v : Slot) : (setSlot s b v).pending = s.pending := by cases b <;> rfl
@[simp] theorem issue_array (s : State) (op : SeqOp) : (issue s op).array = s.array := by unfold issue; split <;> rfl
@[simp] theorem issue_sm (s : State) (op : SeqOp) : (issue s op).sm = s.sm := by unfold issue; split <;> rfl
@[simp] theorem issue_dir (s : State) (op : SeqOp) : (issue s op).dir = s.dir := by unfold issue; split <;> rfl
@[simp] theorem issue_freezes (s : State) (op : SeqOp) : (issue s op).freezes = s.freezes := by unfold issue; split <;> rfl
@[simp] theorem issue_batch (s : State) (op : SeqOp) : (issue s op).batch = s.batch := by unfold issue; split <;> rfl
@[simp] theorem issue_commits (s : State) (op : SeqOp) : (issue s op).commits = s.commits := by unfold issue; split <;> rfl
@[simp] theorem issue_eng (s : State) (op : SeqOp) : (issue s op).eng = s.eng := by unfold issue; split <;> rfl
@[simp] theorem issue_inflight (s : State) (op : SeqOp) : (issue s op).inflight = s.inflight := by unfold issue; split <;> rfl
@[simp] theorem issue_holder (s : State) (op : SeqOp) : (issue s op).holder = s.holder := by unfold issue; split <;> rfl
@[simp] theorem issue_rc (s : State) (op : SeqOp) : (issue s op).rc = s.rc := by unfold issue; split <;> rfl
@[simp] theorem issue_mu (s : State) (op : SeqOp) : (issue s op).mu = s.mu := by unfold issue; split <;> rfl
@[simp] theorem issue_fu (s : State) (op : SeqOp) : (issue s op).fu = s.fu := by unfold issue; split <;> rfl
@[simp] theorem issue_host (s : State) (op : SeqOp) : (issue s op).host = s.host := by unfold issue; split <;> rfl
@[simp] theorem issue_staging (s : State) (op : SeqOp) : (issue s op).staging = s.staging := by unfold issue; split <;> rfl
@[simp] theorem issue_alert (s : State) (op : SeqOp) : (issue s op).alert = s.alert := by unfold issue; split <;> rfl
@[simp] theorem issue_ctl (s : State) (op : SeqOp) : (issue s op).ctl = s.ctl := by unfold issue; split <;> rfl
@[simp] theorem issue_mgmt (s : State) (op : SeqOp) : (issue s op).mgmt = s.mgmt := by unfold issue; split <;> rfl
@[simp] theorem issue_pins (s : State) (op : SeqOp) : (issue s op).pins = s.pins := by unfold issue; split <;> rfl
@[simp] theorem issue_free (s : State) (op : SeqOp) : (issue s op).free = s.free := by unfold issue; split <;> rfl
@[simp] theorem issue_pending (s : State) (op : SeqOp) : (issue s op).pending = s.pending := by unfold issue; split <;> rfl
@[simp] theorem setLine_seqr (s : State) (l : Loc) (v : Line) : (setLine s l v).seqr = s.seqr := by unfold setLine; split <;> rfl
@[simp] theorem setLine_sm (s : State) (l : Loc) (v : Line) : (setLine s l v).sm = s.sm := by unfold setLine; split <;> rfl
@[simp] theorem setLine_dir (s : State) (l : Loc) (v : Line) : (setLine s l v).dir = s.dir := by unfold setLine; split <;> rfl
@[simp] theorem setLine_freezes (s : State) (l : Loc) (v : Line) : (setLine s l v).freezes = s.freezes := by
  unfold setLine; split <;> rfl
@[simp] theorem setLine_batch (s : State) (l : Loc) (v : Line) : (setLine s l v).batch = s.batch := by
  unfold setLine; split <;> rfl
@[simp] theorem setLine_commits (s : State) (l : Loc) (v : Line) : (setLine s l v).commits = s.commits := by
  unfold setLine; split <;> rfl
@[simp] theorem setLine_eng (s : State) (l : Loc) (v : Line) : (setLine s l v).eng = s.eng := by unfold setLine; split <;> rfl
@[simp] theorem setLine_inflight (s : State) (l : Loc) (v : Line) : (setLine s l v).inflight = s.inflight := by
  unfold setLine; split <;> rfl
@[simp] theorem setLine_holder (s : State) (l : Loc) (v : Line) : (setLine s l v).holder = s.holder := by
  unfold setLine; split <;> rfl
@[simp] theorem setLine_rc (s : State) (l : Loc) (v : Line) : (setLine s l v).rc = s.rc := by unfold setLine; split <;> rfl
@[simp] theorem setLine_mu (s : State) (l : Loc) (v : Line) : (setLine s l v).mu = s.mu := by unfold setLine; split <;> rfl
@[simp] theorem setLine_fu (s : State) (l : Loc) (v : Line) : (setLine s l v).fu = s.fu := by unfold setLine; split <;> rfl
@[simp] theorem setLine_host (s : State) (l : Loc) (v : Line) : (setLine s l v).host = s.host := by unfold setLine; split <;> rfl
@[simp] theorem setLine_staging (s : State) (l : Loc) (v : Line) : (setLine s l v).staging = s.staging := by
  unfold setLine; split <;> rfl
@[simp] theorem setLine_alert (s : State) (l : Loc) (v : Line) : (setLine s l v).alert = s.alert := by
  unfold setLine; split <;> rfl
@[simp] theorem setLine_ctl (s : State) (l : Loc) (v : Line) : (setLine s l v).ctl = s.ctl := by unfold setLine; split <;> rfl
@[simp] theorem setLine_mgmt (s : State) (l : Loc) (v : Line) : (setLine s l v).mgmt = s.mgmt := by unfold setLine; split <;> rfl
@[simp] theorem setLine_pins (s : State) (l : Loc) (v : Line) : (setLine s l v).pins = s.pins := by unfold setLine; split <;> rfl
@[simp] theorem setLine_free (s : State) (l : Loc) (v : Line) : (setLine s l v).free = s.free := by unfold setLine; split <;> rfl
@[simp] theorem setLine_pending (s : State) (l : Loc) (v : Line) : (setLine s l v).pending = s.pending := by
  unfold setLine; split <;> rfl

/-! The slots. -/

@[simp] theorem slotOf_setSlot_same (s : State) (b : Bool) (v : Slot) : slotOf (setSlot s b v) b = v := by cases b <;> rfl
@[simp] theorem slotOf_setSlot_other (s : State) (b : Bool) (v : Slot) : slotOf (setSlot s b v) (!b) = slotOf s (!b) := by
  cases b <;> rfl
@[simp] theorem setSlot_setSlot (s : State) (b : Bool) (u v : Slot) : setSlot (setSlot s b u) b v = setSlot s b v := by
  cases b <;> rfl

/-! What the changed fields hold. -/

@[simp] theorem raise_flags (s : State) (a : Alert) : (raise s a).alert.flags = s.alert.flags ||| a.mask := rfl
@[simp] theorem raise_mask (s : State) (a : Alert) : (raise s a).alert.mask = s.alert.mask := rfl
@[simp] theorem modCtx_inflight (s : State) (f : Ctx → Ctx) : (modCtx s f).inflight = s.inflight.map f := rfl
@[simp] theorem setStage_inflight (s : State) (st : Stage) :
    (setStage s st).inflight = s.inflight.map (fun c => { c with stage := st }) := rfl
@[simp] theorem modRc_ctx (s : State) (f : Reclaim → Reclaim) : (modRc s f).rc.ctx = s.rc.ctx.map f := rfl
@[simp] theorem setFu_fu (s : State) (f : FormatCtx) : (setFu s f).fu = some f := rfl
@[simp] theorem setXfer_xfer (s : State) (x : Option Xfer) : (setXfer s x).mgmt.xfer = x := rfl

/-- An operation is issued: the sequencer holds it, unless a halt request is set (R83). -/
theorem issue_seqr (s : State) (op : SeqOp) : (issue s op).seqr = if s.eng.haltReq then s.seqr else some op := by
  unfold issue; split <;> rfl

end Sys2Proof.Machine
end

