-- ==== Sys2Proof/Laws/ResetPin.lean ====
section
/-! SUPPORT. The level of RESET# stands under every operation of the two ports, the events and the ends of array operations. One
lemma per operation, tagged simp. -/

namespace Sys2Proof.Machine

@[simp] theorem resetLow_clearVolatile (s : State) : (clearVolatile s).pins.resetLow = s.pins.resetLow := by
  rfl

@[simp] theorem resetLow_leaveReset (s : State) : (leaveReset s).pins.resetLow = s.pins.resetLow := by
  unfold leaveReset; dsimp only
  repeat' split
  all_goals simp

@[simp] theorem resetLow_softReset (s : State) : (softReset s).pins.resetLow = s.pins.resetLow := by
  unfold softReset
  simp

@[simp] theorem resetLow_opEnds (s : State) (loc : Loc) (rep : Report) :
    (opEnds s loc rep).pins.resetLow = s.pins.resetLow := by
  unfold opEnds
  split <;> simp

@[simp] theorem resetLow_endMgmtBatch (s : State) : (endMgmtBatch s).pins.resetLow = s.pins.resetLow := by
  unfold endMgmtBatch
  repeat' split
  all_goals simp

@[simp] theorem resetLow_sessionEnd (s : State) (status : Byte) : (sessionEnd s status).pins.resetLow = s.pins.resetLow := by
  unfold sessionEnd; dsimp only
  repeat' split
  all_goals simp

@[simp] theorem resetLow_freeReceiving (s : State) (b : Bool) : (freeReceiving s b).pins.resetLow = s.pins.resetLow := by
  unfold freeReceiving
  split <;> simp

@[simp] theorem resetLow_portDisable (s : State) : (portDisable s).pins.resetLow = s.pins.resetLow := by
  unfold portDisable; dsimp only
  repeat' split
  all_goals simp

@[simp] theorem resetLow_answerSlot (s : State) (b : Bool) (arrival : Nat) (tag status : Byte) (payload : List Byte) :
    (answerSlot s b arrival tag status payload).pins.resetLow = s.pins.resetLow := by
  unfold answerSlot
  simp

@[simp] theorem resetLow_acceptFrame (s : State) (b : Bool) (arrival : Nat) (bytes : List Byte) (r : Request) :
    (acceptFrame s b arrival bytes r).pins.resetLow = s.pins.resetLow := by
  unfold acceptFrame
  repeat' split
  all_goals simp

@[simp] theorem resetLow_frameEnd (s : State) (b : Bool) : (frameEnd s b).pins.resetLow = s.pins.resetLow := by
  unfold frameEnd
  repeat' split
  all_goals simp

@[simp] theorem resetLow_ack (s : State) (v : Bool) : (ack s v).pins.resetLow = s.pins.resetLow := by
  unfold ack
  simp

@[simp] theorem resetLow_writeByte (s : State) (v : Byte) : (writeByte s v).pins.resetLow = s.pins.resetLow := by
  unfold writeByte
  repeat' split
  all_goals simp

@[simp] theorem resetLow_writeBytes (s : State) (l : List Byte) : (writeBytes s l).pins.resetLow = s.pins.resetLow := by
  unfold writeBytes
  induction l generalizing s with
  | nil => rfl
  | cons v vs ih => rw [List.foldl_cons, ih, resetLow_writeByte]

@[simp] theorem resetLow_beginWrite (s : State) (data : List Byte) : (beginWrite s data).pins.resetLow = s.pins.resetLow := by
  unfold beginWrite
  simp

@[simp] theorem resetLow_endWrite (s : State) : (endWrite s).pins.resetLow = s.pins.resetLow := by
  unfold endWrite
  split <;> simp

@[simp] theorem resetLow_clockBytes (s : State) (n : Nat) : (clockBytes s n).pins.resetLow = s.pins.resetLow := by
  unfold clockBytes
  split <;> simp

@[simp] theorem resetLow_freeAnswered (s : State) (b : Bool) : (freeAnswered s b).pins.resetLow = s.pins.resetLow := by
  unfold freeAnswered
  split <;> simp

@[simp] theorem resetLow_endRead (s : State) : (endRead s).pins.resetLow = s.pins.resetLow := by
  unfold endRead
  repeat' split
  all_goals simp

@[simp] theorem resetLow_beginRead (s : State) (n : Nat) : (beginRead s n).pins.resetLow = s.pins.resetLow := by
  unfold beginRead
  simp

@[simp] theorem resetLow_endTransfer (s : State) : (endTransfer s).pins.resetLow = s.pins.resetLow := by
  unfold endTransfer
  repeat' split
  all_goals simp

@[simp] theorem resetLow_addressByte (s : State) (addr : BitVec 7) : (addressByte s addr).pins.resetLow = s.pins.resetLow := by
  unfold addressByte
  simp

@[simp] theorem resetLow_busWrite (s : State) (x : WriteXfer) : (busWrite s x).pins.resetLow = s.pins.resetLow := by
  cases x <;> simp only [busWrite] <;> (try split) <;> simp

@[simp] theorem resetLow_sendFrame (s : State) (addr : BitVec 7) (body : List Byte) :
    (sendFrame s addr body).pins.resetLow = s.pins.resetLow := by
  unfold sendFrame
  simp

@[simp] theorem resetLow_busRead (s : State) (x : ReadXfer) : (busRead s x).pins.resetLow = s.pins.resetLow := by
  cases x <;> simp only [busRead] <;> (try split) <;> simp

@[simp] theorem resetLow_stallExpiry (s : State) : (stallExpiry s).pins.resetLow = s.pins.resetLow := by
  unfold stallExpiry
  split <;> simp

@[simp] theorem resetLow_sessionLapse (s : State) : (sessionLapse s).pins.resetLow = s.pins.resetLow := by
  unfold sessionLapse
  split <;> simp

@[simp] theorem resetLow_holdBuffer (s : State) (t : Nat) (o : Option Nat) :
    (holdBuffer s t o).pins.resetLow = s.pins.resetLow := by
  unfold holdBuffer
  split <;> simp

@[simp] theorem resetLow_acceptSubmit (s : State) (t : Nat) (c : Cmd) :
    (acceptSubmit s t c).pins.resetLow = s.pins.resetLow := by
  unfold acceptSubmit
  simp

@[simp] theorem resetLow_submit (s : State) : (submit s).pins.resetLow = s.pins.resetLow := by
  unfold submit; dsimp only
  repeat' split
  all_goals simp

@[simp] theorem resetLow_submitArgs (s : State) (f : ArgRegs → ArgRegs) : (submitArgs s f).pins.resetLow = s.pins.resetLow := by
  unfold submitArgs
  simp

@[simp] theorem resetLow_popCompletion (s : State) : (popCompletion s).pins.resetLow = s.pins.resetLow := by
  unfold popCompletion
  split <;> simp

@[simp] theorem resetLow_removeQueued (s : State) (t : Nat) : (removeQueued s t).pins.resetLow = s.pins.resetLow := by
  unfold removeQueued
  simp

@[simp] theorem resetLow_abortInFlight (s : State) (c : Ctx) : (abortInFlight s c).2.pins.resetLow = s.pins.resetLow := by
  unfold abortInFlight
  repeat' split
  all_goals simp

@[simp] theorem resetLow_abortAnswer (s : State) (t : Nat) : (abortAnswer s t).2.pins.resetLow = s.pins.resetLow := by
  unfold abortAnswer
  repeat' split
  all_goals simp

@[simp] theorem resetLow_hostAbort (s : State) (v : Byte) : (hostAbort s v).pins.resetLow = s.pins.resetLow := by
  unfold hostAbort
  simp

@[simp] theorem resetLow_readBufData (s : State) : (readBufData s).pins.resetLow = s.pins.resetLow := by
  unfold readBufData
  simp

@[simp] theorem resetLow_writeBufData (s : State) (v : Byte) : (writeBufData s v).pins.resetLow = s.pins.resetLow := by
  unfold writeBufData
  split <;> simp

@[simp] theorem resetLow_readDircntLow (s : State) : (readDircntLow s).pins.resetLow = s.pins.resetLow := by
  unfold readDircntLow
  simp

@[simp] theorem resetLow_requestSoftReset (s : State) : (requestSoftReset s).pins.resetLow = s.pins.resetLow := by
  unfold requestSoftReset
  split <;> simp

@[simp] theorem resetLow_writeControl (s : State) (v : Byte) : (writeControl s v).pins.resetLow = s.pins.resetLow := by
  unfold writeControl; dsimp only
  repeat' split
  all_goals simp

@[simp] theorem resetLow_hostWrite (s : State) (off : Nat) (v : Byte) :
    (hostWrite s off v).pins.resetLow = s.pins.resetLow := by
  unfold hostWrite
  split <;> simp

@[simp] theorem resetLow_batchIdleExpires (s : State) : (batchIdleExpires s).pins.resetLow = s.pins.resetLow := by
  unfold batchIdleExpires
  split <;> simp

@[simp] theorem resetLow_leaveHalted (s : State) : (leaveHalted s).pins.resetLow = s.pins.resetLow := by
  unfold leaveHalted
  split <;> simp

@[simp] theorem resetLow_recoveryExpires (s : State) : (recoveryExpires s).pins.resetLow = s.pins.resetLow := by
  unfold recoveryExpires; dsimp only
  repeat' split
  all_goals simp

@[simp] theorem resetLow_powerWarning (s : State) : (powerWarning s).pins.resetLow = s.pins.resetLow := by
  unfold powerWarning
  simp

@[simp] theorem resetLow_powerGood (s : State) : (powerGood s).pins.resetLow = s.pins.resetLow := by
  unfold powerGood
  split <;> simp

@[simp] theorem resetLow_partialErase (s : State) (n : Nat) : (partialErase s n).pins.resetLow = s.pins.resetLow := by
  have key : ∀ (ks : List Nat) (m : BitVec 256) (t : State),
      (ks.foldl (fun t k => if m.getLsbD k then setLine t ⟨n, k⟩ .torn else t) t).pins.resetLow = t.pins.resetLow := by
    intro ks m
    induction ks with
    | nil => intro t; rfl
    | cons k ks ih => intro t; rw [List.foldl_cons, ih]; split <;> simp
  unfold partialErase tearLines
  simp [key]

@[simp] theorem resetLow_programDone (s : State) : (programDone s).pins.resetLow = s.pins.resetLow := by
  unfold programDone
  split <;> simp

@[simp] theorem resetLow_programExpires (s : State) : (programExpires s).pins.resetLow = s.pins.resetLow := by
  unfold programExpires
  split <;> simp

@[simp] theorem resetLow_readDone (s : State) : (readDone s).pins.resetLow = s.pins.resetLow := by
  unfold readDone
  split <;> simp

@[simp] theorem resetLow_eraseDone (s : State) : (eraseDone s).pins.resetLow = s.pins.resetLow := by
  unfold eraseDone
  split <;> simp

@[simp] theorem resetLow_eraseExpires (s : State) : (eraseExpires s).pins.resetLow = s.pins.resetLow := by
  unfold eraseExpires
  split <;> simp

@[simp] theorem resetLow_interrupt (s : State) : (interrupt s).pins.resetLow = s.pins.resetLow := by
  unfold interrupt
  split <;> simp

end Sys2Proof.Machine
end

