-- ==== Sys2Proof/Laws/Rows.lean ====
section
/-! SUPPORT. What the host command rows and the management request rows come to: the registers they write spell their command,
the frames they send spell their request. -/

namespace Sys2Proof.Machine

/-! ### Bytes of a field -/

theorem halves16 (k : BitVec 16) : k.extractLsb' 8 8 ++ k.extractLsb' 0 8 = k := by
  apply BitVec.eq_of_getLsbD_eq
  intro i hi
  simp only [BitVec.getLsbD_append, BitVec.getLsbD_extractLsb']
  by_cases h : i < 8
  · simp [h]
  · have h8 : i - 8 < 8 := by omega
    simp [h, h8]; congr 1; omega

theorem quarters32 (w : BitVec 32) :
    w.extractLsb' 24 8 ++ w.extractLsb' 16 8 ++ w.extractLsb' 8 8 ++ w.extractLsb' 0 8 = w := by
  apply BitVec.eq_of_getLsbD_eq
  intro i hi
  simp only [BitVec.getLsbD_append, BitVec.getLsbD_extractLsb']
  by_cases h : i < 8
  · simp [h]
  · by_cases h2 : i - 8 < 8
    · simp [h, h2]; congr 1; omega
    · by_cases h3 : i - 8 - 8 < 8
      · simp [h, h2, h3]; congr 1; omega
      · have h4 : i - 8 - 8 - 8 < 8 := by omega
        simp [h, h2, h3, h4]; congr 1; omega

theorem low4 (b : Byte) : (b &&& 0x0F).toNat = b.toNat % 16 := by
  rw [BitVec.toNat_and]; exact Nat.and_two_pow_sub_one_eq_mod b.toNat 4

/-! ### The host command rows -/

/-- A host row is a submission of the registers it writes. -/
theorem exec_hostRow {i : Instr} {r : HostRow} (h : hostRow i = some r) (s : State) :
    exec i s = takeEvent s (fun s => submitArgs s r.args) := by
  unfold hostRow at h
  split at h <;> first | (cases h; rfl) | cases h

/-- The registers a host row writes spell its command (R182). -/
theorem hostRow_cmd {i : Instr} {r : HostRow} (h : hostRow i = some r) (a : ArgRegs) : hostCmd (r.args a) = some r.cmd := by
  unfold hostRow at h
  split at h <;> cases h
  all_goals simp [hostCmd, ArgRegs.key, ArgRegs.batchFlag, ArgRegs.expected, ArgRegs.newId, halves16, quarters32]

/-- The registers a host row writes name its tag. -/
theorem hostRow_tag {i : Instr} {r : HostRow} (h : hostRow i = some r) (a : ArgRegs) : (r.args a).tagNo = r.no := by
  unfold hostRow at h
  split at h <;> cases h
  all_goals simp only [ArgRegs.tagNo, HostRow.no, low4]

/-- The ranges of R183, decided. -/
theorem hostArgsOk_iff (c : Cmd) : hostArgsOk c = true ↔ hostRanges c := by
  cases c <;> simp [hostArgsOk, hostRanges, keyInRange, and_assoc]

/-- A host row under the checks of R183, in one equation. -/
theorem exec_hostRow_eq {i : Instr} {r : HostRow} (h : hostRow i = some r) (s : State) (hr : s.pins.resetLow = false) :
    exec i s = .next (
      let u : State := { s with host := { s.host with args := r.args s.host.args } }
      if submitResult u r.no r.cmd = accepted then acceptSubmit u r.no r.cmd
      else { u with host := { u.host with lastSubmit := submitResult u r.no r.cmd } }) := by
  rw [exec_hostRow h]
  simp only [takeEvent, hr, Bool.false_eq_true, if_false, submitArgs, submit, hostRow_cmd h, hostRow_tag h]

end Sys2Proof.Machine
end

