-- ==== Sys2Proof/Laws/Session.lean ====
section
/-! SUPPORT. What the end of the management session makes of a management-owned batch (R106, R121, R124), and that it does not
see the slot whose frame ends the session. -/

namespace Sys2Proof.Machine

/-- A completion with no batch open: no teardown is left to make. -/
theorem complete_noBatch {y : State} {c : Ctx} (r : Result) (hi : y.inflight = some c) (nb : y.batch = none) :
    complete y r = answeredCmd y c r := by
  have e : ∀ z : State, z.batch = none → syncIdle z = z := by
    intro z hz; unfold syncIdle; rw [hz, Option.map_none, ← hz]
  have e2 : ∀ z : State, z.batch = none → teardown z false = z := by
    intro z hz; unfold teardown; rw [hz]
  have pb : (postResult y c r).batch = none := by
    unfold postResult
    cases c.origin
    · exact nb
    · dsimp only; unfold answerRunning
      rename_i b f
      cases b <;> simp only [slotOf, setSlot, Bool.false_eq_true, if_false, if_true] <;> split <;> exact nb
  cases ht : c.tearDue
  · rw [complete_ports _ hi ht, e _ (by exact nb)]
  · have pr : ∀ x : Ctx, postResult { y with inflight := some x } { c with tearDue := false } r =
        { postResult y c r with inflight := some x } := by
      intro x
      unfold postResult
      cases c.origin
      · rfl
      · dsimp only; unfold answerRunning
        rename_i b f
        cases b <;> simp only [slotOf, setSlot, Bool.false_eq_true, if_false, if_true] <;> split <;> rfl
    have : complete y r = complete { y with inflight := some { c with tearDue := false } } r := by
      simp only [complete, hi, ht, if_true, Bool.false_eq_true, if_false]
      rw [pr, e2 _ (by exact pb)]
    rw [this, complete_ports (c := { c with tearDue := false }) _ rfl rfl, e _ (by exact nb)]
    rfl

/-- The end of the session does with a management-owned batch what R106, R121 and R124 say. -/
theorem endMgmtBatch_ends (d : State) : mgmtBatchEnds d (endMgmtBatch d) := by
  unfold endMgmtBatch
  refine ⟨fun h => by rw [h], fun c hc => ?_⟩
  rw [hc]
  dsimp only
  have tdn : ∀ x : State, (teardown x false).batch = none := by
    intro x; unfold teardown
    cases hb : x.batch with
    | none => exact hb
    | some b => simp only; split <;> rfl
  have tdi : (teardown d false).inflight = some c := by
    have kf : ∀ (l : List Part) (x : State), (l.foldl killPart x).inflight = x.inflight := by
      intro l; induction l with
      | nil => intro x; rfl
      | cons p l ih =>
        intro x; rw [List.foldl_cons, ih]
        unfold killPart killLines journalUpd segUpd; dsimp only; split <;> rfl
    unfold teardown
    cases d.batch with
    | none => exact hc
    | some b => dsimp only; split <;> exact (kf _ d).trans hc
  have fin : completeFail (teardown d false) .noBatch =
      answeredCmd (teardown d false) c ⟨.noBatch, 0, c.seq.getD 0, 0, false, false, c.retried⟩ := by
    rw [← complete_noBatch _ tdi (tdn d)]
    simp only [completeFail, tdi, Ctx.failure, Ctx.endSeq_carried c (by decide : Status.noBatch ≠ .halted) (by decide)]
  refine ⟨fun ho => ?_, fun ho hw => ?_, fun ho hm hw => ?_, fun ho hm hw => ?_, fun ho hm hw => ?_⟩
  · rw [if_neg (fun h => ho ⟨h.1, .inl h.2⟩), if_neg (fun h => ho ⟨h.1, .inr h.2⟩)]
  · obtain ⟨b, hw⟩ := hw
    rcases ho with ⟨hp, hm | hm⟩
    · rw [if_pos ⟨hp, hm⟩, hw]; exact fin
    · rw [if_neg (fun h => by rw [hm] at h; cases h.2), if_pos ⟨hp, hm⟩, hw]
      simp only [loseBatch, hc, hm, if_true]; exact fin
  · rw [if_pos ⟨ho.1, hm⟩]
    split
    · rename_i b hb; exact absurd hb (hw b)
    · simp only [modCtx, tdi, Option.map_some]
  · obtain ⟨o, hw⟩ := hw
    rw [if_neg (fun h => by rw [hm] at h; cases h.2), if_pos ⟨ho.1, hm⟩]
    rw [hw]
    simp only [modCtx, hc, Option.map_some, hw]
  · rw [if_neg (fun h => by rw [hm] at h; cases h.2), if_pos ⟨ho.1, hm⟩]
    rcases hw with hw | ⟨k, hw⟩ | hw <;> rw [hw] <;> simp only [modCtx, hc, Option.map_some] <;> simp [hw]

/-- `s` without its command in flight, which gives up the array. -/
abbrev commandGone (s : State) : State := { s with inflight := none, holder := if s.holder = .command then .none else s.holder }

/-- `s` with slot `b` receiving the frame `f`, another arrival count and other pins. -/
def receivingIn (b : Bool) (n a : Nat) (f : List Byte) (p : Pins) (s : State) : State :=
  { s with mgmt := { slotPut s.mgmt b (.receiving a f false) with arrivals := n }, pins := p }

theorem killPart_fold_ports (l : List Part) (m : MgmtPort) (p : Pins) : ∀ x : State, l.foldl killPart
    { x with mgmt := m, pins := p } = { l.foldl killPart x with mgmt := m, pins := p } := by
  induction l with
  | nil => intro x; rfl
  | cons q l ih =>
    intro x; rw [List.foldl_cons, List.foldl_cons, ← ih]; congr 1
    have key : ∀ (p' : Prop) [Decidable p'] (t : State), (if p' then raise { t with mgmt := m, pins := p } .spaceLow else
        { t with mgmt := m, pins := p }) = { (if p' then raise t .spaceLow else t) with mgmt := m, pins := p } := by
      intro p _ t; split <;> rfl
    exact key _ { x with sm.table := x.sm.table.map (fun e => if e.num = q.loc.seg then
      { e with st := e.st.mapJournal (fun j => { j with
          live := j.live - min (extentOf q.len) j.live, dead := j.dead + min (extentOf q.len) j.live }) }
      else e) }

theorem killPart_fold_kept (l : List Part) : ∀ x : State, (l.foldl killPart x).mgmt = x.mgmt ∧ (l.foldl killPart x).pins =
    x.pins := by
  induction l with
  | nil => intro x; exact ⟨rfl, rfl⟩
  | cons p l ih =>
    intro x; rw [List.foldl_cons]
    refine ⟨(ih _).1.trans ?_, (ih _).2.trans ?_⟩ <;> (unfold killPart killLines journalUpd segUpd; dsimp only; split <;> rfl)

theorem teardown_ports (s : State) : (teardown s false).mgmt = s.mgmt ∧ (teardown s false).pins = s.pins := by
  unfold teardown
  cases s.batch with
  | none => exact ⟨rfl, rfl⟩
  | some b => dsimp only; split <;> exact killPart_fold_kept _ s

theorem receivingIn_teardown (b n a f p) (s : State) : teardown (receivingIn b n a f p s) false = receivingIn b n a f p
    (teardown s false) := by
  have e : receivingIn b n a f p (teardown s false) =
      { teardown s false with mgmt := { slotPut s.mgmt b (.receiving a f false) with arrivals := n }, pins := p } := by
    unfold receivingIn; rw [(teardown_ports s).1]
  rw [e]
  have fo := killPart_fold_ports (s.dir.filterMap DirEntry.pending)
      { slotPut s.mgmt b (.receiving a f false) with arrivals := n } p s
  obtain ⟨f1, f2, f3, f4, f5, f6, f7, f8, f9, f10, f11, f12, f13, f14, f15, f16, f17, f18, f19, f20⟩ := s
  unfold teardown receivingIn
  cases f6 with
  | none => rfl
  | some b =>
    dsimp only
    have := fo
    unfold dropPending
    dsimp only
    rw [this]
    split <;> rfl

theorem receivingIn_complete (b n a f p) (s : State) (r) (h : slotOf s b = .free) : complete (receivingIn b n a f p s) r =
    receivingIn b n a f p (complete s r) := by
  unfold complete
  have : (receivingIn b n a f p s).inflight = s.inflight := rfl
  rw [this]
  split
  · rfl
  · rename_i c hc
    have pr : postResult (receivingIn b n a f p s) c r = receivingIn b n a f p (postResult s c r) := by
      unfold postResult
      cases c.origin with
      | host t => rfl
      | mgmt d g =>
        dsimp only; unfold answerRunning
        obtain ⟨f1, f2, f3, f4, f5, f6, f7, f8, f9, f10, f11, f12, f13, f14, f15, f16, f17, ⟨x, y, z, d2, e⟩, f18, f19,
            f20⟩ := s
        cases b <;> cases d
        · change x = _ at h; subst h; rfl
        · cases y <;> rfl
        · cases x <;> rfl
        · change y = _ at h; subst h; rfl
    have sy : ∀ y : State, (slotOf y b).waitsBatch = false → syncIdle (receivingIn b n a f p y) = receivingIn b n a f p
        (syncIdle y) := by
      intro y hy
      have : batchOutstanding (receivingIn b n a f p y) = batchOutstanding y := by
        funext q; unfold batchOutstanding receivingIn slotPut
        cases q
        · rfl
        · cases b
          · change y.mgmt.slotA.waitsBatch = false at hy
            show (_ || (Slot.waitsBatch (.receiving a f false) || y.mgmt.slotB.waitsBatch)) = (_ ||
                (y.mgmt.slotA.waitsBatch || y.mgmt.slotB.waitsBatch))
            rw [hy]; rfl
          · change y.mgmt.slotB.waitsBatch = false at hy
            show (_ || (y.mgmt.slotA.waitsBatch || Slot.waitsBatch (.receiving a f false))) = (_ ||
                (y.mgmt.slotA.waitsBatch || y.mgmt.slotB.waitsBatch))
            rw [hy]; rfl
      unfold syncIdle; rw [this]; rfl
    have fr : (slotOf (postResult s c r) b).waitsBatch = false := by
      unfold postResult
      cases c.origin with
      | host t => show (slotOf s b).waitsBatch = false; rw [h]; rfl
      | mgmt d g =>
        dsimp only; unfold answerRunning
        split
        · rename_i q w hq
          by_cases hd : d = b
          · subst hd; rw [h] at hq; cases hq
          · have : slotOf (setSlot s d (.answered q (responseFrame g r.status.code (payloadOf c.cmd r c.job.out)))) b =
                slotOf s b := by
              cases d <;> cases b <;> first | rfl | exact absurd rfl hd
            rw [this, h]; rfl
        · rw [h]; rfl
    simp only [pr]
    cases c.tearDue
    · simp only [Bool.false_eq_true, if_false]
      exact sy (commandGone (postResult s c r)) (by exact fr)
    · simp only [if_true]
      have := receivingIn_teardown b n a f p
          (commandGone (postResult s c r))
      refine (congrArg syncIdle this).trans ?_
      apply sy
      unfold slotOf; rw [(teardown_ports _).1]; exact fr

theorem receivingIn_completeFail (b n a f p) (s : State) (r) (h : slotOf s b = .free) : completeFail
    (receivingIn b n a f p s) r = receivingIn b n a f p (completeFail s r) := by
  unfold completeFail
  have : (receivingIn b n a f p s).inflight = s.inflight := rfl
  rw [this]; split
  · rfl
  · exact receivingIn_complete _ _ _ _ _ _ _ h

/-- The end of a management-owned batch does not see the slot that receives a frame. -/
theorem receivingIn_endMgmtBatch (b n a f p) (s : State) (h : slotOf s b = .free) : endMgmtBatch
    (receivingIn b n a f p s) = receivingIn b n a f p (endMgmtBatch s) := by
  have h2 : slotOf (teardown s false) b = .free := by unfold slotOf; rw [(teardown_ports s).1]; exact h
  unfold endMgmtBatch
  have : (receivingIn b n a f p s).inflight = s.inflight := rfl
  rw [this]
  split
  · exact receivingIn_teardown _ _ _ _ _ _
  · rename_i c hc
    split
    · split
      · rw [receivingIn_teardown]; exact receivingIn_completeFail _ _ _ _ _ _ _ h2
      · rw [receivingIn_teardown]; rfl
    · split
      · split
        · unfold loseBatch
          rw [this, hc]
          dsimp only
          split
          · rw [receivingIn_teardown]; exact receivingIn_completeFail _ _ _ _ _ _ _ h2
          · exact receivingIn_completeFail _ _ _ _ _ _ _ h
        · rfl
        · rfl
      · exact receivingIn_teardown _ _ _ _ _ _

theorem complete_keeps_free (s : State) (b : Bool) (h : slotOf s b = .free) (r) : (complete s r).mgmt.arrivals =
    s.mgmt.arrivals ∧ (complete s r).pins = s.pins ∧ slotOf (complete s r) b = .free := by
  unfold complete
  split
  · exact ⟨rfl, rfl, h⟩
  · rename_i c hc
    have pr : (postResult s c r).mgmt.arrivals = s.mgmt.arrivals ∧ (postResult s c r).pins = s.pins ∧ slotOf
        (postResult s c r) b = .free := by
      unfold postResult
      cases c.origin with
      | host t => exact ⟨rfl, rfl, h⟩
      | mgmt d g =>
        dsimp only; unfold answerRunning
        split
        · rename_i q w hq
          by_cases hd : d = b
          · subst hd; rw [h] at hq; cases hq
          · cases d <;> cases b <;> first | exact ⟨rfl, rfl, h⟩ | exact absurd rfl hd
        · exact ⟨rfl, rfl, h⟩
    dsimp only
    cases c.tearDue
    · simp only [Bool.false_eq_true, if_false]; exact pr
    · simp only [if_true]
      have t := teardown_ports
          (commandGone (postResult s c r))
      refine ⟨?_, ?_, ?_⟩
      · show (teardown _ false).mgmt.arrivals = _; rw [t.1]; exact pr.1
      · show (teardown _ false).pins = _; rw [t.2]; exact pr.2.1
      · show slotOf (teardown _ false) b = _; unfold slotOf; rw [t.1]; exact pr.2.2

theorem completeFail_keeps_free (s : State) (b : Bool) (h : slotOf s b = .free) (r) : (completeFail s r).mgmt.arrivals =
    s.mgmt.arrivals ∧ (completeFail s r).pins = s.pins ∧ slotOf (completeFail s r) b = .free := by
  unfold completeFail; split
  · exact ⟨rfl, rfl, h⟩
  · exact complete_keeps_free _ _ h _

/-- It keeps the arrival count, the pins and a FREE slot. -/
theorem endMgmtBatch_keeps_free (s : State) (b : Bool) (h : slotOf s b = .free) :
    (endMgmtBatch s).mgmt.arrivals = s.mgmt.arrivals ∧ (endMgmtBatch s).pins = s.pins ∧ slotOf (endMgmtBatch s) b =
        .free := by
  have h2 : slotOf (teardown s false) b = .free := by unfold slotOf; rw [(teardown_ports s).1]; exact h
  have k2 : (teardown s false).mgmt.arrivals = s.mgmt.arrivals ∧ (teardown s false).pins = s.pins ∧ slotOf
      (teardown s false) b = .free := ⟨by rw [(teardown_ports s).1], (teardown_ports s).2, h2⟩
  have kf : ∀ r, (completeFail (teardown s false) r).mgmt.arrivals = s.mgmt.arrivals ∧ (completeFail
      (teardown s false) r).pins = s.pins ∧ slotOf (completeFail (teardown s false) r) b = .free := by
    intro r; have := completeFail_keeps_free (teardown s false) b h2 r
    exact ⟨this.1.trans k2.1, this.2.1.trans k2.2.1, this.2.2⟩
  unfold endMgmtBatch
  split
  · exact k2
  · split
    · split
      · exact kf _
      · exact k2
    · split
      · split
        · unfold loseBatch; split
          · exact ⟨rfl, rfl, h⟩
          · split
            · exact kf _
            · exact completeFail_keeps_free _ _ h _
        · exact ⟨rfl, rfl, h⟩
        · exact ⟨rfl, rfl, h⟩
      · exact k2

end Sys2Proof.Machine
end

