-- ==== Sys2Proof/Tests/Slice0.lean ====
section
/-! SUPPORT. Tests: ill-formed commands are refused by the check; the check codes and examples that the spec writes out; one
small test for the rows; and, for every statement with hypotheses, states and operands that meet them. -/

namespace Sys2Proof.Machine.Tests

open Sys2Proof Sys2Proof.Machine

set_option Elab.async false

/-- A field of the next state, if there is one. -/
def got {α : Type} (o : Out) (f : State → α) : Option α :=
  match o with
  | .next s => some (f s)
  | _ => none

/-! ### Ill-formed commands (R182, R197, R200) -/

theorem test_illformed_put_key : Instr.wf (.put (.mgmt 0x2C 1 0 0xFFFF [])) = false := by decide
theorem test_illformed_put_value : Instr.wf (.put (.mgmt 0x2C 1 0 1 (List.replicate 241 0))) = false := by decide +kernel
theorem test_illformed_delete : Instr.wf (.delete (.mgmt 0x2C 1 0 0)) = false := by decide
theorem test_illformed_get : Instr.wf (.get (.mgmt 0x2C 1 0)) = false := by decide
theorem test_illformed_stat : Instr.wf (.stat (.mgmt 0x2C 1 0xFFFF)) = false := by decide
theorem test_illformed_list_after : Instr.wf (.list (.mgmt 0x2C 1 0xFFFF 1)) = false := by decide
theorem test_illformed_list_none : Instr.wf (.list (.mgmt 0x2C 1 0 0)) = false := by decide
theorem test_illformed_list_many : Instr.wf (.list (.mgmt 0x2C 1 0 17)) = false := by decide
theorem test_illformed_freeze_order : Instr.wf (.freeze 0x2C 1 2 1) = false := by decide
theorem test_illformed_freeze_key : Instr.wf (.freeze 0x2C 1 0 1) = false := by decide
theorem test_illformed_submit : Instr.wf (.submitBadCommand 0x43) = false := by decide
theorem test_illformed_segment : Instr.wf (.segment 0x2C 1 64) = false := by decide
theorem test_illformed_write : Instr.wf (.registerWrite 0x1E 0) = false := by decide
theorem test_wellformed_put : Instr.wf (.put (.mgmt 0x2C 1 0 0xFFFE (List.replicate 240 0))) = true := by decide +kernel
theorem test_no_word_spells_a_command : decodeTableWord 8 0x10 = none := rfl

/-! ### Check codes and layouts (R22, R23, R206) -/

/-- "The CRC of the nine ASCII bytes of the text 123456789 is 29B1h." -/
theorem test_crc16_check : crc16 [0x31, 0x32, 0x33, 0x34, 0x35, 0x36, 0x37, 0x38, 0x39] = 0x29B1 := by decide +kernel

/-- "The CRC of no bytes is FFFFh." -/
theorem test_crc16_empty : crc16 [] = 0xFFFF := by decide +kernel

/-- "The CRC of the two bytes BEh, EFh is 92h." -/
theorem test_crc8_check : crc8 [0xBE, 0xEF] = 0x92 := by decide +kernel

/-- The header of the example of section 1.3, by the layout of R206. -/
theorem test_header_bytes :
    (lineBytes (headerLine ⟨.value, 0x7A20, 20, 0x12C, 0, 0xABCD⟩)).take 14
      = [0x01, 0x7A, 0x20, 0x14, 0, 0, 0x01, 0x2C, 0, 0, 0, 0, 0xAB, 0xCD] := by decide +kernel

/-- The commit line of the same example. -/
theorem test_commit_bytes :
    (lineBytes (commitLine 0x12C 4)).take 14 = [0x5E, 0x3C, 0x0D, 0x71, 0, 0, 0x01, 0x2C, 0x04, 0, 0, 0, 0, 0] := by
  decide +kernel

theorem test_preparation_bytes :
    (lineBytes (prepLine 0x5A 0x01020304 0x00000A)).take 14
      = [0x3A, 0x91, 0xC4, 0x0E, 0x5A, 0x01, 0x02, 0x03, 0x04, 0, 0, 0x0A, 0, 0] := by decide +kernel

theorem test_opening_bytes :
    (lineBytes (openLine 88 0x01020304)).take 14
      = [0x4F, 0x70, 0xB2, 0xE9, 0, 0, 0, 0x58, 0x01, 0x02, 0x03, 0x04, 0, 0] := by decide +kernel

/-- The extents of R11 and R17: 2 to 17 lines, 3 for a FREEZE and for a COMMIT of 5 members, 4 for one of 6. -/
theorem test_extents : [0, 1, 16, 17, 225, 240, 4, 15, 17].map extentOf = [2, 3, 3, 4, 17, 17, 3, 3, 4] := by decide

/-- A response without a payload has length 03h; "the longest frames" of R207 are 247 and 249 bytes. -/
theorem test_frame_lengths :
    (responseFrame 7 0x34 []).head? = some 0x03
    ∧ (requestFrame ([0x10, 1, 0, 0, 1, 240] ++ List.replicate 240 0)).length = 247
    ∧ (responseFrame 1 0 (payloadOf (.get 1 0) ⟨.ok, 240, 0, 0, false, false, false⟩ (List.replicate 240 0))).length = 249
    ∧ (responseFrame 1 0 (payloadOf (.get 1 0) ⟨.ok, 240, 0, 0, false, false, false⟩ (List.replicate 240 0))).head?
      = some 0xF8 := by decide +kernel

/-! ### One small test for the rows -/

/-- A READY store of volume 1 with the counter at 412h, as in the first example of chapter 5. -/
def ready : State := { State.reset with eng.store := .ready, eng.seqCtr := 0x412, eng.volId := 1 }

/-- A READY store with one command in the host queue, tag 4. -/
def queued (c : Cmd) : State :=
  { ready with host := { ready.host with queue := [⟨4, c⟩], tags := ready.host.tags.set 4 .queued } }

/-- A READY store with slot A WAITING with the frame that has these bytes before its CRC. -/
def waitingSlot (body : List Byte) : State := { ready with mgmt.slotA := .waiting 1 (requestFrame body) }

/-- Segment 22 OPEN with write pointer `wp`; segments 47 and 50 FREE, as in the example of section 5.5. -/
def table (wp : Nat) : List SegEntry :=
  [⟨22, .opened ⟨140, wp, wp - 30, 28, 0⟩, 36, true, 0, false⟩, ⟨47, .free, 28, true, 0, false⟩,
   ⟨50, .free, 31, true, 0, false⟩]

/-- That table, next epoch 141. -/
def withTable (s : State) (wp : Nat) : State := { s with sm := ⟨table wp, 141, false⟩ }

/-- The host's example of section 5.5: key 1C40h, buffer 2, tag 4. -/
theorem test_put_is_queued :
    got (exec (.put (.host 0x04 0x1C40 2 36)) ready) (fun s => (hostRead s 0x1E, hostRead s 0x1F, s.host.bufOwner))
      = some (0x00, 0x01, [none, none, some 4, none]) := by decide

theorem test_put_buffer_busy :
    got (exec (.put (.host 0x05 1 2 0)) { ready with host.bufOwner := [none, none, some 4, none] })
      (fun s => hostRead s 0x1E) = some 0x22 := by decide

theorem test_delete_key_out_of_range : got (exec (.delete (.host 0 0xFFFF)) ready) (fun s => hostRead s 0x1E) = some 0x23 := by
  decide

theorem test_get_tag_in_use :
    got (exec (.get (.host 0x04 1 0)) (queued (.stat 1))) (fun s => hostRead s 0x1E) = some 0x21 := by decide

theorem test_stat_halted :
    got (exec (.stat (.host 0 1)) { ready with eng.store := .halted }) (fun s => hostRead s 0x1E) = some 0x10 := by decide

theorem test_list_count_17 : got (exec (.list (.host 0 0 0 17)) ready) (fun s => hostRead s 0x1E) = some 0x23 := by decide

theorem test_mount_unmount_reclaim_codes :
    (got (exec (.mount 1) ready) (fun s => s.host.args.cmd), got (exec (.unmount 1) ready) (fun s => s.host.args.cmd),
      got (exec (.reclaim 1) ready) (fun s => s.host.args.cmd)) = (some 0x40, some 0x41, some 0x43) := by decide

/-- "ARG0 holds the most significant byte of the expected volume id and ARG4 that of the new volume id" (R209). -/
theorem test_format_arguments :
    got (exec (.format 1 0x01020304 0x0A0B0C0D) ready)
      (fun s => (hostRead s 0x16, hostRead s 0x19, hostRead s 0x1A, hostRead s 0x1D))
      = some (0x01, 0x04, 0x0A, 0x0D) := by decide

theorem test_format_new_id_zero : got (exec (.format 1 0 0) ready) (fun s => hostRead s 0x1E) = some 0x23 := by decide

theorem test_submit_freeze_code : got (exec (.submitBadCommand 0x30) ready) (fun s => hostRead s 0x1E) = some 0x23 := by decide

/-- Without a session a store request is answered NO_SESSION (R199 step 6). -/
theorem test_request_without_session :
    got (exec (.batchOpen (.mgmt 0x2C 9)) ready) (fun s => s.mgmt.slotA) = some (.answered 1 (responseFrame 9 0x31 [])) := by
  decide +kernel

theorem test_batch_commands_wait :
    (got (exec (.batchCommit (.mgmt 0x2C 9)) { ready with mgmt.session := true }) (fun s => s.mgmt.slotA),
      got (exec (.batchAbort (.host 0x03)) ready) (fun s => s.host.queue))
      = (some (.waiting 1 (requestFrame [0x21, 9])), some [⟨3, .batchAbort⟩]) := by decide +kernel

theorem test_freeze_waits :
    got (exec (.freeze 0x2C 9 0x0500 0x05FF) { ready with mgmt.session := true }) (fun s => s.mgmt.slotA)
      = some (.waiting 1 (requestFrame [0x30, 9, 0x05, 0x00, 0x05, 0xFF])) := by decide +kernel

/-- MADR1–MADR0 latched as 01b: the address is 2Dh (the example of chapter 11). -/
theorem test_open_at_2D :
    got (exec (.openSession 0x2D 1) { ready with eng.madr := 1 }) (fun s => (s.mgmt.session, hostRead s 0x04))
      = some (true, 0x20) := by decide +kernel

theorem test_open_at_another_address : got (exec (.openSession 0x2D 1) ready) (fun s => s.mgmt.session) = some false := by
  decide +kernel

theorem test_close_without_session :
    got (exec (.closeSession 0x2C 1) ready) (fun s => s.mgmt.slotA) = some (.answered 1 (responseFrame 1 0x31 [])) := by
  decide +kernel

theorem test_status_payload :
    got (exec (.status 0x2C 1) ready) (fun s => s.mgmt.slotA)
      = some (.answered 1 (responseFrame 1 0 [0x02, 0, 0, 0, 0, 1, 0, 0, 0, 0, 0, 0, 0, 0, 0])) := by decide +kernel

theorem test_segment_payload :
    got (exec (.segment 0x2C 1 22) (withTable ready 180)) (fun s => s.mgmt.slotA)
      = some (.answered 1 (responseFrame 1 0 [22, 2, 0, 0, 0, 140, 0, 180, 150, 28, 0, 0, 36, 0, 0, 0])) := by decide +kernel

theorem test_refused_frame_of_one_byte :
    got (exec (.mgmtFrameRefused (.whole 0x2C [0x03])) ready) (fun s => s.mgmt.slotA)
      = some (.answered 1 (responseFrame 0xFF 0x30 [])) := by decide +kernel

theorem test_nak_when_disabled :
    got (exec (.slotNak (.whole 0x2C [0x03, 1])) { ready with ctl.mgmten := false }) (fun s => s.pins.sdaAcks)
      = some [false, false] := by decide +kernel

theorem test_empty_read :
    got (exec (.mgmtReadTransfer (.whole 0x2C 5)) ready) (fun s => s.pins.sdaOut)
      = some [0x03, 0xFF, 0x34, crc8 [0x03, 0xFF, 0x34], 0xFF] := by decide +kernel

theorem test_stall_frees_the_slot :
    got (exec .transferStallExpiry { ready with mgmt.slotA := .receiving 1 [3] false, mgmt.xfer := some (.write false) })
      (fun s => (s.mgmt.slotA, s.mgmt.xfer)) = some (.free, none) := by decide

theorem test_lapse_answers_waiting :
    got (exec .sessionLapse { waitingSlot [0x13, 9, 0, 1] with mgmt.session := true }) (fun s => s.mgmt.slotA)
      = some (.answered 1 (responseFrame 9 0x31 [])) := by decide +kernel

/-- "Admission: 256 − 180 = 76 ≥ extent 5. ASSIGN: sequence 00000412h, counter 00000413h" (the example of section 5.5). -/
theorem test_grant_assigns :
    got (exec .arbiterGrant { withTable (queued (.put 0x1C40 36 2 false)) 180 with
        dir := [⟨0x1C40, some ⟨false, ⟨14, 60⟩, 20, 0x3A0, false⟩, none⟩] })
      (fun s => (s.eng.seqCtr, s.inflight.map Ctx.place, hostRead s 0x1F)) = some (0x413, some ⟨22, 180⟩, 0) := by decide +kernel

/-- "256 − 246 = 10 lines left, too few … closes segment 9 … dead = 40 and wp = 256" (the example of chapter 2). -/
theorem test_grant_opens_the_least_worn :
    got (exec .arbiterGrant
      { queued (.put 1 200 0 false) with
        sm := ⟨[⟨9, .opened ⟨87, 246, 214, 30, 0⟩, 20, true, 0, false⟩, ⟨30, .free, 12, true, 0, false⟩,
          ⟨41, .free, 11, true, 0, false⟩], 88, false⟩ })
      (fun s => (s.seqr, s.sm.nextEpoch, (segEntry s 9).map SegEntry.st))
      = some (some (.program ⟨41, 1⟩ (openLine 88 1)), 89, some (.closed ⟨87, 256, 214, 40, 0⟩)) := by decide +kernel

/-- A program in flight at line 180 of segment 22 for the command with this stage and these lines. -/
def writing22 (st : Stage) (k : Nat) : State :=
  { withTable ready 180 with
    seqr := some (.program ⟨22, 180 + k⟩ 7), holder := .command,
    host := { ready.host with tags := ready.host.tags.set 4 .running },
    inflight := some { freshCtx (.host ⟨4, .put 0x1C40 36 2 false⟩) with
      stage := st, seq := some 0x412, lines := [1, 2, 3, 4, 5], place := ⟨22, 180⟩ }
    dir := [⟨0x1C40, some ⟨false, ⟨14, 60⟩, 20, 0x3A0, false⟩, none⟩] }

theorem test_program_done_goes_on :
    got (exec .programDone (writing22 .header 0)) (fun s => (s.seqr, lineAt s ⟨22, 180⟩))
      = some (some (.program ⟨22, 181⟩ 2), .good 7) := by decide +kernel

/-- "wp 185, live 155, dead 28 … CSTATUS OK, CLEN 36, CSEQ 00000412h, CFLAGS clear" (the example of section 5.5). -/
theorem test_commit_line_publishes :
    got (exec .programDone (writing22 .commit 4))
      (fun s => ((segEntry s 22).map SegEntry.st, [0x21, 0x22, 0x23, 0x26, 0x27, 0x29].map (hostRead s)))
      = some (some (.opened ⟨140, 185, 155, 28, 0⟩), [4, 0, 36, 0x04, 0x12, 0]) := by decide +kernel

/-- "CLOSED, wp 256, live 150, dead 28 + 5 + 71 = 104, fault count 1 … the opening line of segment 47 … with epoch 141" (the
second example of section 5.5). -/
theorem test_line_fault_restarts :
    got (exec .programDeadlineExpiry (writing22 (.data 2) 2))
      (fun s => ((segEntry s 22).map (fun e => (e.st, e.faults)), s.seqr, lineAt s ⟨22, 182⟩))
      = some (some (.closed ⟨140, 256, 150, 104, 0⟩, 1), some (.program ⟨47, 1⟩ (openLine 141 1)), .torn) := by decide +kernel

/-- The recovery of a waiting command: admission finds room in the OPEN segment (R109). -/
theorem test_wait_space_resume :
    got (exec .waitSpaceResume { withTable ready 180 with
        inflight := some { freshCtx (.host ⟨4, .put 1 0 0 false⟩) with stage := .waitSpace true } })
      (fun s => s.inflight.map Ctx.place) = some (some ⟨22, 180⟩) := by decide +kernel

/-- A GET's only data line is read: five bytes go to the buffer, and CLEN reads 5 (R131, R132). -/
theorem test_get_places_bytes :
    got (exec .readDone { ready with
        array := [(5 * 256 + 3, .good (packLine [1, 2, 3, 4, 5]))], seqr := some (.read ⟨5, 3⟩), holder := .command,
        inflight := some { freshCtx (.host ⟨4, .get 1 2⟩) with stage := .read, job := ⟨⟨5, 2⟩, 5, 0x40, 1, 0, 0, []⟩ } })
      (fun s => (stagingBytes s 2 6, hostRead s 0x23)) = some ([1, 2, 3, 4, 5, 0], 5) := by decide +kernel

theorem test_erase_done_prepares :
    got (exec .eraseDone { ready with
        eng.store := .mounting, holder := .mount, seqr := some (.erase 9),
        mu := { MountUnit.reset with phase := .settle, foundVid := 6, settling := some (9, .erase) },
        sm := ⟨[⟨9, .dirty, 20, true, 0, false⟩], 5, false⟩ })
      (fun s => s.seqr) = some (some (.program ⟨9, 0⟩ (prepLine 0x5A 6 21))) := by decide +kernel

theorem test_erase_deadline_needs_an_erase :
    got (exec .eraseDeadlineExpiry { ready with seqr := some (.read ⟨9, 0⟩) }) (fun s => s.seqr)
      = some (some (.read ⟨9, 0⟩)) := by decide

theorem test_idle_expiry_raises_batchlost :
    got (exec .batchIdleExpiry { ready with batch := some ⟨.host, 0x60, [], .running⟩ }) (fun s => (s.batch, hostRead s 0x04))
      = some (none, 0x10) := by decide

/-- Segment 11 of the example of chapter 8: the most-dead candidate becomes the victim with its cursor at line 2. -/
theorem test_reclaim_walk_chooses :
    got (exec .reclaimWalkStep { ready with
        sm := ⟨[⟨11, .closed ⟨50, 256, 14, 240, 0⟩, 17, true, 1, false⟩, ⟨20, .opened ⟨58, 200, 190, 8, 0⟩, 22, true, 0, false⟩,
          ⟨30, .free, 1, true, 0, false⟩], 59, false⟩ })
      (fun s => (s.seqr, s.rc.ctx.map Reclaim.cursor)) = some (some (.read ⟨11, 2⟩), some 2) := by decide +kernel

theorem test_reclaim_finish_erases :
    got (exec .reclaimFinishStep { ready with rc.ctx := some ⟨11, .finish, 256, 20, false, none, .idle⟩ })
      (fun s => s.seqr) = some (some (.erase 11)) := by decide

theorem test_abort_of_a_free_tag : got (exec (.abort 0xF3) ready) (fun s => hostRead s 0x2C) = some 0x43 := by decide

theorem test_abort_removes :
    got (exec (.abort 0x04) (queued (.stat 1))) (fun s => (hostRead s 0x2C, hostRead s 0x1F, hostRead s 0x22))
      = some (0x40, 0, 0x0F) := by decide

theorem test_cpop_frees_the_buffer :
    got (exec (.cpop 0) { ready with host := { ready.host with
        cplq := [⟨4, Result.bare .ok⟩], bufOwner := [none, none, some 4, none] } })
      (fun s => (hostRead s 0x20, s.host.bufOwner)) = some (0, [none, none, none, none]) := by decide

/-- The pointer wraps from 255 to 0 (R189). -/
theorem test_bufdata_wraps :
    got (exec .bufdataRead { ready with staging := [(1023, 0x5C)], host.bufSel := 3, host.bufPtr := 255 })
      (fun s => (s.pins.dataOut, s.host.bufPtr)) = some (0x5C, 0) := by decide

theorem test_bufdata_conflict :
    got (exec (.bufdataWrite 7) { ready with host.bufOwner := [some 4, none, none, none] })
      (fun s => (s.staging, hostRead s 0x04, s.host.bufPtr)) = some ([], 0x40, 1) := by decide

theorem test_dircnt_latches :
    got (exec .dircntLowRead { ready with dir := List.replicate 512 ⟨1, none, none⟩ })
      (fun s => (s.pins.dataOut, hostRead s 0x0C)) = some (0x00, 0x02) := by decide +kernel

theorem test_alert_write_clears_ones :
    got (exec (.alertWrite 0x05) { ready with alert.flags := 0x07 }) (fun s => hostRead s 0x04) = some 0x02 := by decide

theorem test_mask_drives_int :
    got (exec (.alertmaskWrite 0x02) { ready with alert.flags := 0x02 }) intLow = some true := by decide

theorem test_cinten_drives_int :
    got (exec (.cintenWrite 0x07) { ready with host.cplq := [⟨4, Result.bare .ok⟩] }) intLow = some true := by decide

theorem test_bgren_cleared : got (exec (.bgrenWrite 0x04) ready) (fun s => hostRead s 0x06) = some 0x04 := by decide

theorem test_mgmten_clear_ends_session :
    got (exec (.mgmtenClear 0x06) { waitingSlot [0x13, 9, 0, 1] with mgmt.session := true })
      (fun s => (s.mgmt.session, s.mgmt.slotA, hostRead s 0x04)) = some (false, .answered 1 (responseFrame 9 0x32 []), 0x20) := by
  decide +kernel

theorem test_mgmten_set : got (exec (.mgmtenSet 0x00) ready) (fun s => hostRead s 0x06) = some 0x04 := by decide

theorem test_srst_waits :
    got (exec (.srst 0x06) { ready with seqr := some (.read ⟨0, 0⟩) }) (fun s => (hostRead s 0x06, hostRead s 0x02))
      = some (0x86, 0x02) := by decide

theorem test_recthr_clamped : got (exec (.recthrWrite 0xFF) ready) (fun s => hostRead s 0x07) = some 16 := by decide

theorem test_hostwt_clamped : got (exec (.hostwtWrite 0) ready) (fun s => hostRead s 0x08) = some 1 := by decide

theorem test_register_write_argument : got (exec (.registerWrite 0x1D 0x77) ready) (fun s => hostRead s 0x1D) = some 0x77 := by
  decide

theorem test_power_on_mounts :
    got (exec (.powerOnReset true 2) ready) (fun s => (hostRead s 0x02, s.seqr, targetAddr s))
      = some (0x01, some (.read ⟨0, 0⟩), 0x2E) := by decide

/-- RESET# interrupts a line program: the line is TORN (R9). -/
theorem test_reset_tears_the_line :
    got (exec .resetAssert { ready with seqr := some (.program ⟨1, 2⟩ 7) }) (fun s => (lineAt s ⟨1, 2⟩, hostRead s 0x00))
      = some (.torn, 0x00) := by decide +kernel

theorem test_reset_release :
    got (exec (.resetRelease false 3) { State.reset with pins.resetLow := true }) (fun s => (hostRead s 0x00, targetAddr s))
      = some (0x6A, 0x2F) := by decide

theorem test_pfw_flushes :
    got (exec .pfwAssert (queued (.stat 1))) (fun s => (hostRead s 0x02, hostRead s 0x22, hostRead s 0x04))
      = some (0x05, 0x10, 0x08) := by decide

theorem test_pfw_deassert_starts_timer :
    got (exec .pfwDeassert { ready with eng.store := .halted }) (fun s => s.eng.recovery) = some true := by decide

theorem test_recovery_returns :
    got (exec .recoveryTimerExpiry { ready with eng.store := .halted, eng.prior := some .readOnly, eng.recovery := true })
      (fun s => hostRead s 0x02) = some 0x03 := by decide

/-! ### Witnesses: states and operands that meet the hypotheses of the statements

Each theorem names the statement and the clause it is for. -/

/-- The state after reset, with one command waiting. -/
def oneWaiting : State := { State.reset with pending := [.cpop 0] }

theorem witness_StepRunsFrontCommand : oneWaiting.pending = .cpop 0 :: [] ∧ State.reset.pending = [] := by decide

theorem witness_StepKeepsStoresCanonical : storesOk oneWaiting ∧ ∃ t, step oneWaiting = .next t := ⟨⟨rfl, rfl⟩, _, rfl⟩

theorem witness_StepKeepsTableOrder : tablesOk oneWaiting ∧ ∃ t, step oneWaiting = .next t :=
  ⟨⟨⟨.nil, by simp [oneWaiting, State.reset]⟩, .nil, .nil⟩, _, rfl⟩

/-- Tag 4 is QUEUED and its command in the queue. -/
theorem queued_tagsOk (c : Cmd) : tagsOk (queued c) := by
  refine ⟨rfl, ?_, ?_, ?_, fun t => ?_⟩
  · simp [queued, ready, State.reset, HostPort.reset]
  · simp [queued, ready, State.reset, HostPort.reset]
  · simp [queued, ready, State.reset, HostPort.reset]
  by_cases h : t < 16
  · revert t; intro t h; interval_cases t <;> simp [queued, ready, State.reset, HostPort.reset]
  · have : (queued c).host.tags.getD t .free = .free := by
      simp [List.getD_eq_getElem?_getD, queued, ready, State.reset, HostPort.reset, h]
    rw [this]
    simp [queued, ready, State.reset, HostPort.reset]; omega

theorem witness_StepKeepsTagLaw :
    tagsOk { queued .reclaim with pending := [.arbiterGrant] }
      ∧ ∃ t, step { queued .reclaim with pending := [.arbiterGrant] } = .next t :=
  ⟨queued_tagsOk .reclaim, _, rfl⟩

theorem witness_StepKeepsSettingRanges :
    SettingsOk { oneWaiting with ctl := { oneWaiting.ctl with recthr := 16, hostwt := 1 } }.ctl
      ∧ ∃ t, step oneWaiting = .next t :=
  ⟨by unfold SettingsOk; decide, _, rfl⟩

theorem witness_LinesChange_program :
    ArrayOk (writing22 .header 0).array ∧ ∃ t, exec .programDone (writing22 .header 0) = .next t
      ∧ lineAt t ⟨22, 180⟩ ≠ lineAt (writing22 .header 0) ⟨22, 180⟩ := ⟨rfl, _, rfl, by decide +kernel⟩

/-- The erase of segment 63 is in progress, and its last line is GOOD. -/
def erasing63 : State := { ready with array := [(63 * 256 + 255, .good 7)], seqr := some (.erase 63) }

theorem witness_LinesChange_erase :
    ArrayOk erasing63.array ∧ ∃ t, exec .eraseDone erasing63 = .next t ∧ lineAt t ⟨63, 255⟩ ≠ lineAt erasing63 ⟨63, 255⟩ :=
  ⟨rfl, _, rfl, by decide +kernel⟩

theorem witness_AlertFlags_written :
    ∃ t, exec (.alertWrite 0x80) { ready with alert.flags := 0x80 } = .next t ∧ t.alert.flags.getLsbD 7 = false := ⟨_, rfl, rfl⟩

theorem witness_AlertFlags_reset :
    ∃ t, exec .resetAssert { ready with alert.flags := 0x01 } = .next t ∧ t.alert.flags.getLsbD 0 = false := ⟨_, rfl, rfl⟩

/-- RESET# is asserted. -/
def held : State := { ready with pins.resetLow := true }

theorem witness_HeldInReset : held.pins.resetLow = true ∧ (∀ a m, Instr.bufdataRead ≠ .powerOnReset a m)
    ∧ ∀ a m, Instr.bufdataRead ≠ .resetRelease a m := by simp [held]

theorem witness_Dircnt : ready.pins.resetLow = false ∧ Instr.srst 0 ≠ .dircntLowRead ∧ ∃ t, exec (.srst 0) ready = .next t :=
  ⟨rfl, by simp, _, rfl⟩

/-! Resets, PFW# and the recovery timer -/

theorem witness_PowerOnReset :
    ready.pins.resetLow = false ∧ ready.pins.pfwLow = false ∧ ∃ t, exec (.powerOnReset false 3) ready = .next t :=
  ⟨rfl, rfl, _, rfl⟩

theorem witness_ResetPin : ready.pins.resetLow = false ∧ held.pins.resetLow = true ∧ held.pins.pfwLow = false
    ∧ held.eng.haltReq = false := by decide

theorem witness_SoftResetAtOnce : ready.pins.resetLow = false ∧ ready.pins.pfwLow = false ∧ ready.seqr = none
    ∧ ready.ctl.srst = false ∧ ready.eng.amount = false ∧ { ready with eng.amount := true }.eng.amount = true := by decide

/-- A soft reset waits for the operation in progress. -/
def awaiting (op : SeqOp) : State := { ready with ctl.srst := true, seqr := some op }

theorem witness_SoftResetWaits : (writing22 .header 0).pins.resetLow = false
    ∧ (writing22 .header 0).seqr = some (.program ⟨22, 180⟩ 7) ∧ (0x06#8).getLsbD 2 = true := by decide

theorem witness_SoftResetFollows (op : SeqOp) : (awaiting op).pins.resetLow = false ∧ (awaiting op).pins.pfwLow = false
    ∧ (awaiting op).eng.amount = false ∧ (awaiting op).ctl.srst = true ∧ (awaiting op).seqr = some op := ⟨rfl, rfl, rfl, rfl, rfl⟩

theorem witness_PowerWarning_waits : erasing63.pins.resetLow = false ∧ erasing63.seqr = some (.erase 63) := by decide

theorem witness_PowerWarning_idle : ready.seqr = none ∧ ready.eng.store ≠ .halted ∧ quiet ready := by
  refine ⟨rfl, by decide, rfl, rfl, rfl, ?_⟩
  intro b a f; cases b <;> simp [slotOf, ready, State.reset, MgmtPort.reset]

/-- HALTED after READY, with the recovery timer running. -/
def recovering (st : StoreState) : State :=
  { ready with eng := { ready.eng with store := .halted, prior := some st, haltReq := true, recovery := true } }

theorem witness_PowerGood : (recovering .ready).pins.resetLow = false ∧ (recovering .ready).eng.haltReq = true
    ∧ ready.eng.haltReq = false ∧ ready.eng.store ≠ .halted := by decide

theorem witness_Recovery (st : StoreState) : (recovering st).pins.resetLow = false ∧ (recovering st).eng.recovery = true
    ∧ (recovering st).eng.store = .halted ∧ (recovering st).eng.prior = some st := ⟨rfl, rfl, rfl, rfl⟩

theorem witness_Recovery_cleared :
    { ready with eng.recovery := true }.eng.recovery = true ∧ ready.eng.store ≠ .halted := by decide

/-! The host port -/

theorem witness_Submission_put : ∃ r, hostRow (.put (.host 0x1F 0xFFFE 3 240)) = some r ∧ hostRanges r.cmd
    ∧ (∀ b, r.cmd.buffer? = some b → ready.host.bufOwner.getD b none = none) ∧ ready.host.queue.length < 8
    ∧ ready.host.tags.getD r.no .free = .free ∧ ready.eng.store ≠ .halted :=
  ⟨_, rfl, by simp [hostRanges], by intro b h; cases h; rfl, by decide, rfl, by decide⟩

theorem witness_Submission_list : ∃ r, hostRow (.list (.host 0 0 0 16)) = some r ∧ hostRanges r.cmd :=
  ⟨_, rfl, by simp [hostRanges]⟩

theorem witness_Submission_format : ∃ r, hostRow (.format 15 0 1) = some r ∧ hostRanges r.cmd := ⟨_, rfl, by simp [hostRanges]⟩

theorem witness_Refused_range : ∃ r, hostRow (.put (.host 0 1 0 241)) = some r ∧ ¬ hostRanges r.cmd :=
  ⟨_, rfl, by simp [hostRanges]⟩

theorem witness_Refused_buffer : ∃ r b t, hostRow (.put (.host 0 1 3 0)) = some r ∧ hostRanges r.cmd ∧ r.cmd.buffer? = some b
    ∧ { ready with host.bufOwner := [none, none, none, some 9] }.host.bufOwner.getD b none = some t :=
  ⟨_, _, _, rfl, by simp [hostRanges], rfl, rfl⟩

theorem witness_Refused_queue : ∃ r, hostRow (.stat (.host 0 0xFFFE)) = some r ∧ hostRanges r.cmd
    ∧ (∀ b, r.cmd.buffer? = some b → ready.host.bufOwner.getD b none = none)
    ∧ 8 ≤ { ready with host.queue := List.replicate 8 ⟨1, .reclaim⟩ }.host.queue.length :=
  ⟨_, rfl, by simp [hostRanges], by simp [Cmd.buffer?], by decide⟩

theorem witness_Refused_tag : ∃ r, hostRow (.mount 4) = some r ∧ hostRanges r.cmd
    ∧ (queued .reclaim).host.queue.length < 8 ∧ (queued .reclaim).host.tags.getD r.no .free ≠ .free :=
  ⟨_, rfl, trivial, by decide, by decide⟩

theorem witness_Refused_halted : ∃ r, hostRow (.mount 4) = some r ∧ hostRanges r.cmd
    ∧ (recovering .ready).host.tags.getD r.no .free = .free ∧ (recovering .ready).eng.store = .halted :=
  ⟨_, rfl, trivial, rfl, rfl⟩

theorem witness_UnknownCode : ready.pins.resetLow = false ∧ 0x30#8 ∉ hostCodes := by decide

theorem witness_RegisterWrite : ready.pins.resetLow = false ∧ (0x10#6 ∉ ownRowLocations ∧ 0x10 ≤ (0x10#6).toNat)
    ∧ (0x1D#6 ∉ ownRowLocations ∧ (0x1D#6).toNat ≤ 0x1D) ∧ 0x30#6 ∉ ownRowLocations ∧ 0x31#6 ∉ ownRowLocations
    ∧ (0x0F#6 ∉ ownRowLocations ∧ (0x0F#6).toNat < 0x10) ∧ (0x1F#6 ∉ ownRowLocations ∧ 0x1D < (0x1F#6).toNat)
    ∧ (0x3F#6 ∉ ownRowLocations ∧ 0x31 < (0x3F#6).toNat) := by decide

theorem witness_Cpop : ready.pins.resetLow = false ∧ ready.host.cplq = []
    ∧ { ready with host.cplq := [⟨15, Result.bare .ok⟩] }.host.cplq = ⟨15, Result.bare .ok⟩ :: [] := by decide

theorem witness_AbortByTagState :
    (queued .mount).pins.resetLow = false ∧ tagsOk (queued .mount) ∧ tagsOk (queued .reclaim)
    ∧ (queued .mount).host.tags.getD 15 .free = .free
    ∧ (⟨4, .mount⟩ ∈ (queued .mount).host.queue ∧ unabortable .mount)
    ∧ (⟨4, .reclaim⟩ ∈ (queued .reclaim).host.queue ∧ ¬ unabortable .reclaim) := by
  refine ⟨rfl, queued_tagsOk _, queued_tagsOk _, rfl, ⟨.head _, .inl rfl⟩, .head _, ?_⟩
  simp [unabortable]

/-- Tag 0 is COMPLETED. -/
def completed : State :=
  { ready with host.tags := ready.host.tags.set 0 .completed, host.cplq := [⟨0, Result.bare .ok⟩] }

theorem witness_AbortByTagState_completed : tagsOk completed ∧ completed.host.tags.getD 0 .free = .completed := by
  refine ⟨⟨rfl, by decide, by decide, by decide, fun t => ?_⟩, rfl⟩
  match t with
  | 0 => simp [completed, ready, State.reset, HostPort.reset]
  | n + 1 =>
    by_cases h : n < 15
    · interval_cases n <;> simp [completed, ready, State.reset, HostPort.reset]
    · have : completed.host.tags.getD (n + 1) .free = .free := by
        simp only [List.getD_eq_getElem?_getD]
        rw [List.getElem?_eq_none (by simp [completed, ready, State.reset, HostPort.reset]; omega)]; rfl
      rw [this]; simp [completed, ready, State.reset, HostPort.reset]

/-- The host command with tag 4 is in flight at this stage. -/
def running (c : Cmd) (st : Stage) : State :=
  { ready with
    host.tags := ready.host.tags.set 4 .running, inflight := some { freshCtx (.host ⟨4, c⟩) with stage := st } }

theorem witness_AbortInFlight (c : Cmd) (st : Stage) : (running c st).pins.resetLow = false
    ∧ (running c st).host.tags.getD ((0x04#8).toNat % 16) .free = .running
    ∧ (running c st).inflight = some { freshCtx (.host ⟨4, c⟩) with stage := st }
    ∧ { freshCtx (.host ⟨4, c⟩) with stage := st }.origin = .host 4 ∧ { freshCtx (.host ⟨4, c⟩) with stage :=
      st }.tearDue = false :=
  ⟨rfl, rfl, rfl, rfl, rfl⟩

theorem witness_AbortInFlight_kinds : unabortable .batchCommit ∧ ¬ unabortable (.put 1 0 0 false) := by simp [unabortable]

theorem witness_BufferWindow : ready.pins.resetLow = false ∧ StagingOk ready.staging
    ∧ ready.host.bufOwner.getD ready.host.bufSel.toNat none = none
    ∧ { ready with host.bufOwner := [some 15, none, none, none] }.host.bufOwner.getD 0 none = some 15 := by
  refine ⟨rfl, rfl, rfl, rfl⟩

theorem witness_HeldBuffer : { ready with host.bufOwner := [some 15, none, none, none] }.host.bufOwner.getD 0 none ≠ none
    ∧ ∃ t, exec (.bufdataWrite 1) { ready with host.bufOwner := [some 15, none, none, none] } = .next t := ⟨by decide, _, rfl⟩

theorem witness_InterruptLine : ready.pins.resetLow = false ∧ held.pins.resetLow = true := by decide

theorem witness_ControlWrite : (0x04#8).getLsbD 7 = false ∧ (0x04#8).getLsbD 2 = true
    ∧ (0x00#8).getLsbD 7 = false ∧ { ready with ctl.mgmten := false }.ctl.mgmten = false := by decide

theorem witness_ClearingMgmten : ready.pins.resetLow = false ∧ (0xFF#8 &&& 0x7F).getLsbD 7 = false ∧ ready.ctl.mgmten = true
    ∧ ownsBatch ready .mgmt = false := by decide


/-! The management port -/

/-- An open session with nothing in the slots. -/
def session : State := { ready with mgmt.session := true }

theorem busFree_at (s : State) (hr : s.pins.resetLow = false) (hx : s.mgmt.xfer = none) (hm : s.eng.madr = 0) : busFree s 0x2C :=
  ⟨hr, hx, by rw [hm]; decide⟩

theorem witness_ManagementRequestWaits : busFree session 0x2C ∧ session.ctl.mgmten = true ∧ nextSlot session false
    ∧ session.mgmt.session = true ∧ session.eng.store ≠ .halted
    ∧ (∃ x, mgmtRow (.put (.mgmt 0x2C 9 1 0xFFFE (List.replicate 240 7))) = some (0x2C, x))
    ∧ (Instr.put (.mgmt 0x2C 9 1 0xFFFE (List.replicate 240 7))).wf = true ∧ (Instr.list (.mgmt 0x2C 9 0xFFFE 16)).wf = true
    ∧ (Instr.freeze 0x2C 9 0xFFFE 0xFFFE).wf = true :=
  ⟨busFree_at _ rfl rfl rfl, rfl, ⟨rfl, by simp⟩, rfl, by decide, ⟨_, rfl⟩, by decide +kernel, by decide, by decide⟩

theorem witness_slotB : busFree (waitingSlot [0x13, 9, 0, 1]) 0x2C ∧ nextSlot (waitingSlot [0x13, 9, 0, 1]) true :=
  ⟨busFree_at _ rfl rfl rfl, rfl, fun _ => by simp [slotOf, waitingSlot]⟩

/-- OPEN, CLOSE, STATUS and the refused frames meet the same port, with a session and without one. -/
theorem witness_OpenAndClose : busFree ready 0x2C ∧ ready.ctl.mgmten = true ∧ nextSlot ready false ∧ ready.mgmt.session = false
    ∧ session.mgmt.session = true ∧ ownsBatch session .mgmt = false :=
  ⟨busFree_at _ rfl rfl rfl, rfl, ⟨rfl, by simp⟩, rfl, rfl, rfl⟩

theorem witness_Segment : (63#8).toNat ≤ 63 ∧ segEntry ready (63#8).toNat = none
    ∧ (segEntry (withTable ready 180) (22#8).toNat).isSome = true := by decide

theorem witness_RefusedFrame_short : refusedWith ready [0x03, 1] 0x30 := .inl ⟨rfl, .inl (by decide)⟩

theorem witness_RefusedFrame_crc : refusedWith ready [0x03, 1, crc8 [0x03, 1] ^^^ 1] 0x30 := .inl ⟨rfl, .inr (by decide +kernel)⟩

theorem witness_RefusedFrame_code : refusedWith ready (requestFrame [0x05, 1]) 0x23 :=
  .inr (.inl ⟨rfl, by decide, by decide +kernel, by decide⟩)

theorem witness_RefusedFrame_length : refusedWith ready (requestFrame [0x13, 1, 0]) 0x30 := by
  refine .inr (.inr (.inl ⟨rfl, by decide, by decide +kernel, by decide, ?_⟩))
  unfold lengthFits; decide

theorem witness_RefusedFrame_range : refusedWith ready (requestFrame [0x04, 1, 64]) 0x23 := by
  refine .inr (.inr (.inr (.inl ⟨rfl, by decide, by decide +kernel, by decide, ?_, ?_⟩)))
  · unfold lengthFits; decide
  · unfold argumentsFit keyOk; decide

theorem witness_RefusedFrame_session : refusedWith ready (requestFrame [0x13, 1, 0, 1]) 0x31 := by
  refine .inr (.inr (.inr (.inr (.inl ⟨rfl, by decide, by decide +kernel, by decide, ?_, ?_, rfl⟩))))
  · unfold lengthFits; decide
  · unfold argumentsFit keyOk; decide

theorem witness_RefusedFrame_halted :
    refusedWith { session with eng.store := .halted } (requestFrame [0x13, 1, 0xFF, 0xFE]) 0x10 := by
  refine .inr (.inr (.inr (.inr (.inr ⟨rfl, by decide, by decide +kernel, by decide, ?_, ?_, rfl, rfl⟩))))
  · unfold lengthFits; decide
  · unfold argumentsFit keyOk; decide

theorem witness_RefusedFrame_lengths : (List.replicate 247 0x03#8) ≠ [] ∧ (List.replicate 247 0x03#8).length ≤ 247
    ∧ 247 < (List.replicate 248 0x03#8).length := by decide +kernel

theorem witness_WriteTransferWithoutSlot : busFree { ready with ctl.mgmten := false } 0x2C
    ∧ (∃ s : State, busFree s 0x2C ∧ s.mgmt.slotA ≠ .free ∧ s.mgmt.slotB ≠ .free) :=
  ⟨busFree_at _ rfl rfl rfl, { ready with mgmt.slotA := .running 1 [], mgmt.slotB := .answered 2 [] }, busFree_at _ rfl rfl rfl,
    by decide, by decide⟩

theorem witness_ReadTransfer : readSlot (waitingSlot [0x13, 9, 0, 1]) false
    ∧ readSlot { ready with mgmt.slotA := .running 2 [0x13], mgmt.slotB := .answered 1 [3, 9, 0, 7] } true
    ∧ readSlot { ready with mgmt.slotA := .running 1 [0x13], mgmt.slotB := .answered 2 [3, 9, 0, 7] } false := by
  refine ⟨⟨1, rfl, by simp [slotOf, waitingSlot, ready, State.reset, MgmtPort.reset, Slot.arrival?]⟩, ⟨1, rfl, ?_⟩, ⟨1, rfl, ?_⟩⟩
    <;> simp [slotOf, Slot.arrival?]

theorem witness_ReadTransfer_lengths : [3#8, 9, 0, 7].length ≤ 4 ∧ 3 < [3#8, 9, 0, 7].length := by decide

theorem witness_ManagementTimers_stall : ∃ s : State, s.pins.resetLow = false ∧ s.mgmt.xfer = some (.write true)
    ∧ slotOf s true = .receiving 1 [3] false :=
  ⟨{ ready with mgmt.slotB := .receiving 1 [3] false, mgmt.xfer := some (.write true) }, rfl, rfl, rfl⟩

theorem witness_ManagementTimers_lapse :
    session.mgmt.session = true ∧ ready.mgmt.session = false ∧ ownsBatch session .mgmt = false
    ∧ ownsBatch { session with batch := some ⟨.mgmt, 5, [], .running⟩ } .mgmt = true ∧ session.inflight = none
    ∧ ∀ b, ready.mgmt.xfer ≠ some (.write b) := by
  refine ⟨rfl, rfl, rfl, rfl, rfl, by simp [ready, State.reset, MgmtPort.reset]⟩

/-! Grants -/

/-- Both heads stand, each a STAT, and the host has been granted `n` times in a row. -/
def bothHeads (n : Nat) : State :=
  { queued (.stat 1) with mgmt.slotA := .waiting 1 (requestFrame [0x13, 9, 0, 2]), eng.runCount := n }

theorem witness_Grants_both (n : Nat) : arrayIdle (bothHeads n) ∧ (bothHeads n).inflight = none ∧ mounted (bothHeads n)
    ∧ (bothHeads n).host.queue.head? = some ⟨4, .stat 1⟩ ∧ mgmtHead (bothHeads n) = some false
    ∧ slotOf (bothHeads n) false = .waiting 1 (requestFrame [0x13, 9, 0, 2]) :=
  ⟨⟨rfl, rfl, rfl, rfl, rfl⟩, rfl, .inl rfl, rfl, rfl, rfl⟩

theorem witness_Grants_weights : (bothHeads 3).eng.runCount < (bothHeads 3).ctl.hostwt
    ∧ (bothHeads 4).ctl.hostwt ≤ (bothHeads 4).eng.runCount ∧ frameCmd (requestFrame [0x13, 9, 0, 2]) = some (.stat 2) := by
  decide +kernel

theorem witness_Grants_alone : mgmtHead (queued (.stat 1)) = none ∧ (waitingSlot [0x13, 9, 0, 2]).host.queue = []
    ∧ mgmtHead (waitingSlot [0x13, 9, 0, 2]) = some false := ⟨rfl, rfl, rfl⟩

/-- The command that `queued` leaves in the queue stands alone for the grant, in a READY store and in any other. -/
theorem queued_alone (c : Cmd) (st : StoreState) : headAlone { queued c with eng.store := st } (.host ⟨4, c⟩) :=
  ⟨⟨rfl, rfl, rfl, rfl, rfl⟩, rfl, rfl, rfl⟩

theorem witness_StateCheck : stateRefused .unmounted .unmount .notReady ∧ stateRefused .failed (.stat 1) .notReady
    ∧ stateRefused .readOnly .batchAbort .readOnly ∧ stateRefused .readOnly (.delete 1 false) .readOnly
    ∧ stateRefused .readOnly .reclaim .readOnly := by simp [stateRefused, Cmd.isBatch]

/-- Key 1 is present with 240 bytes, key 2 with none, key 3 has a tombstone, and key 1 has a pending part. -/
def withKeys (s : State) : State :=
  { s with dir := [⟨1, some ⟨false, ⟨5, 2⟩, 240, 0x40, false⟩, some ⟨false, ⟨6, 2⟩, 1, 0x42, false⟩⟩,
    ⟨2, some ⟨false, ⟨5, 30⟩, 0, 0x41, false⟩, none⟩, ⟨3, some ⟨true, ⟨5, 32⟩, 0, 0x43, false⟩, none⟩] }

theorem keys_alone (c : Cmd) : headAlone (withKeys (queued c)) (.host ⟨4, c⟩) ∧ mounted (withKeys (queued c)) :=
  ⟨⟨⟨rfl, rfl, rfl, rfl, rfl⟩, rfl, rfl, rfl⟩, .inl rfl⟩

theorem keys_present (s : State) : presentAs (withKeys s) 1 ⟨false, ⟨5, 2⟩, 240, 0x40, false⟩
    ∧ presentAs (withKeys s) 2 ⟨false, ⟨5, 30⟩, 0, 0x41, false⟩ := ⟨⟨_, rfl, rfl, rfl⟩, ⟨_, rfl, rfl, rfl⟩⟩

theorem keys_absent (s : State) : ∀ p, ¬ presentAs (withKeys s) 3 p := by
  rintro p ⟨e, h, hc, ht⟩
  have d : dirLookup (withKeys s).dir 3 = some ⟨3, some ⟨true, ⟨5, 32⟩, 0, 0x43, false⟩, none⟩ := rfl
  rw [d] at h; cases h; cases hc; cases ht

theorem keys_held (s : State) : heldKey (withKeys s) 1 ∧ ¬ heldKey (withKeys s) 2 := by
  refine ⟨⟨_, _, rfl, rfl⟩, ?_⟩
  rintro ⟨e, p, h, hp⟩
  have d : dirLookup (withKeys s).dir 2 = some ⟨2, some ⟨false, ⟨5, 30⟩, 0, 0x41, false⟩, none⟩ := rfl
  rw [d] at h; cases h; cases hp

/-- A batch of the host, or of the management side, with these members. -/
def withBatch (s : State) (o : Port) (ms : List Member) : State := { s with batch := some ⟨o, 0x60, ms, .running⟩ }

theorem witness_BatchOpen : (queued .batchOpen).batch = none ∧ (queued .batchOpen).eng.seqCtr ≠ 0xFFFFFFFF
    ∧ (queued .batchOpen).commits.length + 63 < 64 ∧ 64 ≤ (queued .batchOpen).commits.length + 64
    ∧ (withBatch ready .mgmt []).batch = some ⟨.mgmt, 0x60, [], .running⟩ := by decide

theorem witness_BatchOpen_alone (n : Nat) : headAlone { queued .batchOpen with rc.droppedCommits := n } (.host ⟨4, .batchOpen⟩)
    ∧ { queued .batchOpen with rc.droppedCommits := n }.eng.store = .ready := ⟨⟨⟨rfl, rfl, rfl, rfl, rfl⟩, rfl, rfl, rfl⟩, rfl⟩

theorem witness_BatchCommit (c : Cmd) (o : Port) (ms : List Member) : headAlone (withBatch (queued c) o ms) (.host ⟨4, c⟩)
    ∧ (withBatch (queued c) o ms).batch = some ⟨o, 0x60, ms, .running⟩ ∧ (withBatch (queued c) o ms).eng.store = .ready :=
  ⟨⟨⟨rfl, rfl, rfl, rfl, rfl⟩, rfl, rfl, rfl⟩, rfl, rfl⟩

theorem witness_WriteChecks_frozen :
    writeBarred { ready with freezes := [⟨0x500, 0x5FF, ⟨5, 2⟩⟩] } .host 0x5FF true .frozen :=
  .inl ⟨rfl, _, .head _, by decide, by decide⟩

theorem no_freeze (s : State) (h : s.freezes = []) (k : Key) : ¬ frozenKey s k := by simp [frozenKey, h]

theorem witness_WriteChecks_held : writeBarred (withKeys (withBatch ready .host [])) .host 1 true .batchDuplicate
    ∧ writeBarred (withKeys ready) .host 1 true .keyHeld
      ∧ writeBarred (withKeys (withBatch ready .host [])) .host 1 false .keyHeld :=
  ⟨.inr (.inl ⟨rfl, no_freeze _ rfl _, (keys_held _).1, rfl, _, rfl, rfl⟩),
    .inr (.inr (.inl ⟨rfl, no_freeze _ rfl _, (keys_held _).1, by simp [withKeys, ready, State.reset]⟩)),
    .inr (.inr (.inl ⟨rfl, no_freeze _ rfl _, (keys_held _).1, by simp⟩))⟩

theorem witness_WriteChecks_batch : writeBarred (withKeys ready) .host 2 true .noBatch
    ∧ writeBarred (withKeys (withBatch ready .mgmt [])) .host 2 true .batchNotOwner
    ∧ writeBarred (withKeys (withBatch ready .host (List.replicate 8 ⟨9, ⟨5, 2⟩, false⟩))) .host 2 true .batchFull :=
  ⟨.inr (.inr (.inr (.inl ⟨rfl, no_freeze _ rfl _, (keys_held _).2, rfl, rfl⟩))),
    .inr (.inr (.inr (.inr (.inl ⟨rfl, no_freeze _ rfl _, (keys_held _).2, rfl, _, rfl, by decide⟩)))),
    .inr (.inr (.inr (.inr (.inr ⟨rfl, no_freeze _ rfl _, (keys_held _).2, rfl, _, rfl, rfl, by decide⟩))))⟩

/-- With no table entry a write passes tests 2 to 4: outside a batch, and as the eighth member of the host's. -/
theorem empty_writeOpen (s : State) (h : s.dir = []) (hf : s.freezes = []) (k : Key) : writeOpen s .host k false :=
  ⟨no_freeze s hf k, by simp [heldKey, h, dirLookup], by simp⟩

theorem witness_WriteChecks_member :
    writeOpen (withBatch ready .host (List.replicate 7 ⟨9, ⟨5, 2⟩, false⟩)) .host 2 true :=
  ⟨no_freeze _ rfl _, by simp [heldKey, withBatch, ready, State.reset, dirLookup], fun _ => ⟨_, rfl, rfl, by decide⟩⟩

theorem witness_WriteChecks_tables : writeOpen (queued (.put 1 0 0 false)) .host 1 false
    ∧ (∀ p, ¬ presentAs (queued (.delete 1 false)) 1 p) ∧ dirLookup (queued (.put 1 0 0 false)).dir 1 = none
    ∧ 512 ≤ (queued (.put 1 0 0 false)).dir.length + 512 :=
  ⟨empty_writeOpen _ rfl rfl _, by simp [presentAs, queued, ready, State.reset, dirLookup], rfl, by decide⟩

theorem witness_Volume_mount : mounted { queued .mount with eng.store := .readOnly } ∧ headAlone (queued .mount) (.host ⟨4,
    .mount⟩)
    ∧ headAlone { queued .mount with eng.store := .failed } (.host ⟨4, .mount⟩) := ⟨.inr rfl, queued_alone _ .ready,
      queued_alone _ _⟩

theorem witness_Volume_unmount : headAlone (queued .unmount) (.host ⟨4, .unmount⟩) ∧ mounted (queued .unmount)
    ∧ (queued .unmount).batch = none := ⟨queued_alone _ .ready, .inl rfl, rfl⟩

/-- FORMAT is refused: the wrong volume, the mounted one's own id, a volume expected where none is mounted. -/
theorem witness_Volume_format :
    mounted ready ∧ ¬ (0 = ready.eng.volId ∧ 5 ≠ ready.eng.volId) ∧ ¬ (1 = ready.eng.volId ∧ 1 ≠ ready.eng.volId)
    ∧ headAlone { queued (.format 1 1) with eng.store := .unmounted } (.host ⟨4, .format 1 1⟩)
    ∧ headAlone { queued (.format 0 1) with eng.store := .unmounted } (.host ⟨4, .format 0 1⟩) :=
  ⟨.inl rfl, by decide, by decide, queued_alone _ _, queued_alone _ _⟩

theorem witness_Volume_reclaim : headAlone (queued .reclaim) (.host ⟨4, .reclaim⟩) ∧ (queued .reclaim).rc.ctx = none
    ∧ ¬ spaceCanBeGained (queued .reclaim) ∧ (queued .reclaim).commits.length < 48 := by
  refine ⟨queued_alone _ .ready, rfl, ?_, by decide⟩
  simp [spaceCanBeGained, standsAs, queued, ready, State.reset]

/-! Appends -/

/-- The PUT of an empty value, or of 36 bytes, passes every test but admission. -/
theorem put_passes (s : State) (len : Nat) (hq : s.eng.seqCtr = 0x412) (hd : s.dir = []) (hf : s.freezes = [])
    (hr : s.rc.droppedTombs = 0) :
    appendPasses s (.host ⟨4, .put 1 len 0 false⟩) (recordLines .value 1 s.eng.seqCtr 0 (stagingBytes s 0 len)) :=
  ⟨by rw [hq]; decide, .inl ⟨1, len, 0, false, rfl, empty_writeOpen _ hd hf _, by simp [hd, hr]⟩, rfl, by simp [recordLines],
    fun k n b m h => by cases h; simp [valueFrom, Head.origin, stagingBytes]⟩

/-- A DELETE of a present key passes them too. -/
theorem witness_delete_passes :
    appendPasses (withKeys ready) (.host ⟨4, .delete 2 false⟩) (recordLines .tombstone 2 0x412 0 []) :=
  ⟨by decide, .inr (.inl ⟨2, false, _, rfl, ⟨no_freeze _ rfl _, (keys_held _).2, by simp⟩, (keys_present _).2⟩), rfl,
    by simp [recordLines], fun _ _ _ _ h => by cases h⟩

/-- A record of two lines at write pointer 254: it fills the segment. -/
theorem witness_Append_fills : headAlone (withTable (queued (.put 1 0 0 false)) 254) (.host ⟨4, .put 1 0 0 false⟩)
    ∧ openSegment (withTable (queued (.put 1 0 0 false)) 254) = some (22, ⟨140, 254, 224, 28, 0⟩)
    ∧ (recordLines .value 1 0x412 0 []).length ≤ 256 - 254
    ∧ lineAt (withTable (queued (.put 1 0 0 false)) 254) ⟨22, 254⟩ = .erased :=
  ⟨⟨⟨rfl, rfl, rfl, rfl, rfl⟩, rfl, rfl, rfl⟩, rfl, by decide +kernel, rfl⟩

theorem witness_Append_passes : appendPasses (withTable (queued (.put 1 0 0 false)) 254) (.host ⟨4, .put 1 0 0 false⟩)
    (recordLines .value 1 0x412 0 []) := put_passes _ 0 rfl rfl rfl rfl

/-- A command that waited for space resumes: one that has taken no sequence, and one that restarted. -/
def resuming (seq : Option Word) (lines : List LineBits) : State :=
  { withTable ready 254 with
    inflight := some { freshCtx (.host ⟨4, .put 1 0 0 false⟩) with stage := .waitSpace true, seq := seq, lines := lines } }

theorem witness_Append_resumes (seq : Option Word) (lines : List LineBits) : arrayIdle (resuming seq lines)
    ∧ mounted (resuming seq lines)
    ∧ (resuming seq lines).inflight
      = some { freshCtx (.host ⟨4, .put 1 0 0 false⟩) with stage := .waitSpace true, seq := seq, lines := lines }
    ∧ openSegment (resuming seq lines) = some (22, ⟨140, 254, 224, 28, 0⟩) ∧ 2 + (0 + 15) / 16 ≤ 256 - 254
    ∧ lineAt (resuming seq lines) ⟨22, 254⟩ = .erased :=
  ⟨⟨rfl, rfl, rfl, rfl, rfl⟩, .inl rfl, rfl, rfl, by decide, rfl⟩

/-- At write pointer 255 the record of two lines has no room. -/
theorem witness_NoRoom (s : State) (n : Nat) (h : 1 < n) : noRoomFor (withTable s 255) n := by
  intro m j hj
  have d : openSegment (withTable s 255) = some (22, ⟨140, 255, 225, 28, 0⟩) := rfl
  rw [d] at hj; cases hj; simpa using h

theorem witness_NoRoom_opens : 2 ≤ freeCount (withTable ready 255) ∧ leastWorn (withTable ready 255) 47
    ∧ tableOrdered (withTable ready 255) ∧ (withTable ready 255).sm.exhausted = false
    ∧ lineAt (withTable ready 255) ⟨47, 1⟩ = .erased := by
  refine ⟨by decide, ⟨_, .tail _ (.head _), rfl, rfl, ?_⟩, ?_, rfl, rfl⟩
  · simp [withTable, table]
  · simp [tableOrdered, withTable, table]

/-- One FREE segment, and a CLOSED one with dead lines or with none. -/
def oneFree (dead : Nat) : State :=
  { queued (.put 1 0 0 false) with
    sm := ⟨[⟨11, .closed ⟨50, 256, 254 - dead, dead, 0⟩, 17, true, 0, false⟩, ⟨30, .free, 1, true, 0, false⟩], 59, false⟩ }

theorem witness_NoRoom_waits : headAlone (oneFree 1) (.host ⟨4, .put 1 0 0 false⟩) ∧ freeCount (oneFree 1) < 2
    ∧ spaceCanBeGained (oneFree 1) ∧ noRoomFor (oneFree 1) 2 ∧ tableOrdered (oneFree 1)
    ∧ appendPasses (oneFree 1) (.host ⟨4, .put 1 0 0 false⟩) (recordLines .value 1 0x412 0 []) := by
  refine ⟨⟨⟨rfl, rfl, rfl, rfl, rfl⟩, rfl, rfl, rfl⟩, by decide, .inr ⟨11, _, ⟨_, .head _, rfl, rfl⟩, rfl, by decide⟩, ?_, ?_,
    put_passes _ 0 rfl rfl rfl rfl⟩
  · simp [noRoomFor, oneFree, openSegment]
  · simp [tableOrdered, oneFree]

theorem witness_NoRoom_storeFull : freeCount (oneFree 0) < 2 ∧ ¬ spaceCanBeGained (oneFree 0) := by
  refine ⟨by decide, ?_⟩
  rintro (h | ⟨n, j, ⟨e, he, rfl, hs⟩, -, hd⟩)
  · exact h rfl
  · simp [oneFree] at he
    rcases he with rfl | rfl <;> cases hs
    simp at hd

theorem witness_NoRoom_exhausted : ∃ s, headAlone s (.host ⟨4, .put 1 0 0 false⟩) ∧ noRoomFor s 2 ∧ s.sm.exhausted = true
    ∧ s.batch = none
    ∧ tableOrdered s ∧ appendPasses s (.host ⟨4, .put 1 0 0 false⟩) (recordLines .value 1 0x412 0 []) :=
  ⟨{ withTable (queued (.put 1 0 0 false)) 255 with sm := ⟨table 255, 0xFFFFFFFF, true⟩ },
    ⟨⟨rfl, rfl, rfl, rfl, rfl⟩, rfl, rfl, rfl⟩, witness_NoRoom (queued (.put 1 0 0 false)) 2 (by decide), rfl, rfl,
    witness_NoRoom_opens.2.2.1, put_passes _ 0 rfl rfl rfl rfl⟩

/-! Line programs and reads -/

theorem writing22_programming (st : Stage) (k : Nat) : ∃ c, programming (writing22 st k) c 4 ⟨22, 180 + k⟩ 7 ∧ c.stage = st
    ∧ c.lines.length = 5 ∧ c.place = ⟨22, 180⟩ ∧ c.cmd = .put 0x1C40 36 2 false ∧ c.retried = false :=
  ⟨_, ⟨rfl, rfl, rfl, rfl, rfl, rfl, rfl, rfl, rfl, rfl⟩, rfl, rfl, rfl, rfl, rfl⟩

theorem witness_LineProgramsFollow : ArrayOk (writing22 .header 0).array ∧ lineAt (writing22 .header 0) ⟨22, 181⟩ = .erased
    ∧ lineAt (writing22 (.data 3) 3) ⟨22, 184⟩ = .erased := ⟨rfl, rfl, rfl⟩

theorem writing22_dirOk (st : Stage) (k : Nat) : DirOk (writing22 st k).dir := by simp [DirOk, writing22]

/-- The DELETE of a key that is not in the directory any more: its commit line is in flight. -/
theorem witness_CommitLine_delete : ∃ s c, programming s c 4 ⟨22, 181⟩ 7 ∧ DirOk s.dir ∧ c.stage = .commit
    ∧ c.cmd = .delete 0xFFFE false :=
  ⟨{ withTable ready 180 with
      seqr := some (.program ⟨22, 181⟩ 7), holder := .command,
      inflight := some { freshCtx (.host ⟨4, .delete 0xFFFE false⟩) with
        stage := .commit, seq := some 1, lines := [1, 2], place := ⟨22, 180⟩ } },
    _, ⟨rfl, rfl, rfl, rfl, rfl, rfl, rfl, rfl, rfl, rfl⟩, ⟨.nil, by simp [withTable, ready, State.reset]⟩, rfl, rfl⟩

/-- The fault of the commit line of a record of five lines. -/
theorem witness_LineFault : ArrayOk (writing22 .commit 4).array ∧ inArray ⟨22, 184⟩ = true ∧ tableOrdered (writing22 .commit 4)
    ∧ (∃ e ∈ (writing22 .commit 4).sm.table, e.num = 22 ∧ e.st = .opened ⟨140, 180, 150, 28, 0⟩) ∧ 180 + 5 ≤ 256
    ∧ (writing22 .commit 4).sm.exhausted = false ∧ 2 ≤ freeCount (writing22 .commit 4) ∧ leastWorn (writing22 .commit 4) 47
    ∧ (∀ x y, standsAs (writing22 .commit 4) x (.opened y) → x = 22) ∧ lineAt (writing22 .commit 4) ⟨47, 1⟩ = .erased := by
  refine ⟨rfl, by decide, ?_, ⟨_, .head _, rfl, rfl⟩, by decide, rfl, by decide, ⟨_, .tail _ (.head _), rfl, rfl, ?_⟩, ?_, rfl⟩
  · simp [tableOrdered, writing22, withTable, table]
  · simp [writing22, withTable, table]
  · simp [standsAs, writing22, withTable, table]

/-- A command that has restarted once already, at its commit line. -/
theorem witness_LineFault_retried : ∃ s c, programming s c 4 ⟨22, 184⟩ 7 ∧ c.stage = .commit ∧ c.retried = true
    ∧ c.place.seg = 22 ∧ tableOrdered s :=
  ⟨{ writing22 .commit 4 with
      inflight := some { freshCtx (.host ⟨4, .put 0x1C40 36 2 false⟩) with
        stage := .commit, seq := some 0x412, lines := [1, 2, 3, 4, 5], place := ⟨22, 180⟩, retried := true } },
    _, ⟨rfl, rfl, rfl, rfl, rfl, rfl, rfl, rfl, rfl, rfl⟩, rfl, rfl, rfl, witness_LineFault.2.2.1⟩

theorem witness_Reads_list : DirOk (withKeys ready).dir ∧ (∀ k p, presentAs (withKeys ready) k p → k ≤ 2)
    ∧ ∀ x y, presentAs (withKeys ready) x y → 1 < x → 2 ≤ x := by
  have key : ∀ x y, presentAs (withKeys ready) x y → x ≠ 3 ∧ x ≤ 3 := by
    rintro x y ⟨e, h, hc, ht⟩
    refine ⟨fun h3 => keys_absent ready y ⟨e, h3 ▸ h, hc, ht⟩, ?_⟩
    have hm := List.mem_of_find?_eq_some h
    have hk := List.find?_some h
    simp [withKeys] at hm hk
    rcases hm with rfl | rfl | rfl <;> (rw [← hk]; decide)
  refine ⟨?_, fun k p hp => ?_, fun x y hp hx => ?_⟩
  · simp [DirOk, withKeys]
  · have := key k p hp; bv_omega
  · have := key x y hp; bv_omega

/-- The last line of 240 bytes is being read for a GET, and the only one of a shorter value; both are GOOD. -/
def getting (k placed len : Nat) : State :=
  { ready with
    array := [(5 * 256 + 2 + k, .good 7)], seqr := some (.read ⟨5, 2 + k⟩), holder := .command,
    inflight := some { freshCtx (.host ⟨4, .get 1 2⟩) with stage := .read, job := ⟨⟨5, 2⟩, len, 0x40, k, 0, placed, []⟩ } }

theorem witness_Reads_done (k placed len : Nat) : ∃ c, readingFor (getting k placed len) c ⟨5, 2 + k⟩ ∧ c.cmd = .get 1 2
    ∧ c.stage = .read ∧ StagingOk (getting k placed len).staging ∧ c.job.len = len ∧ c.job.placed = placed ∧ c.job.k = k :=
  ⟨_, ⟨rfl, rfl, rfl, rfl, rfl, rfl, rfl, rfl⟩, rfl, rfl, rfl, rfl, rfl, rfl⟩

theorem witness_Reads_lines : lineAt (getting 15 224 240) ⟨5, 17⟩ = .good 7 ∧ (240 + 15) / 16 ≤ 15
    ∧ lineAt (getting 14 208 240) ⟨5, 16⟩ = .good 7 ∧ 14 < (240 + 15) / 16 ∧ lineAt (getting 1 0 1) ⟨5, 3⟩ = .good 7 := by
  decide +kernel

/-! Erases, the idle timer and reclaim -/

/-- SETTLE erases segment 63, its erase count at the highest. -/
def settling63 (rp : Bool) : State :=
  { ready with
    eng.store := .mounting, seqr := some (.erase 63), holder := .mount,
    mu := { MountUnit.reset with phase := .settle, foundVid := 6, settling := some (63, .erase) },
    sm := ⟨[⟨63, .dirty, 0xFFFFFF, true, 0, rp⟩], 5, false⟩ }

theorem witness_EraseEnds (rp : Bool) : (settling63 rp).pins.resetLow = false ∧ (settling63 rp).ctl.srst = false
    ∧ (settling63 rp).eng.haltReq = false ∧ (settling63 rp).holder = .mount ∧ (settling63 rp).mu.phase = .settle
    ∧ (settling63 rp).mu.settling = some (63, .erase) ∧ (settling63 rp).seqr = some (.erase 63) ∧ ArrayOk (settling63 rp).array
    ∧ segEntry (settling63 rp) 63 = some ⟨63, .dirty, 0xFFFFFF, true, 0, rp⟩ := ⟨rfl, rfl, rfl, rfl, rfl, rfl, rfl, rfl, rfl⟩

theorem witness_IdleExpiry : (withBatch ready .host []).batch = some ⟨.host, 0x60, [], .running⟩
    ∧ (withBatch ready .mgmt []).batch = some ⟨.mgmt, 0x60, [], .running⟩
    ∧ { ready with batch := some ⟨.host, 0x60, [], .suspended⟩ }.batch = some ⟨.host, 0x60, [], .suspended⟩ := ⟨rfl, rfl, rfl⟩

/-- A table whose victim is the CLOSED segment 11; segment 12 has as many dead lines and a higher epoch. -/
def reclaimable : State :=
  { ready with
    sm := ⟨[⟨11, .closed ⟨50, 256, 253, 1, 0⟩, 17, true, 1, false⟩, ⟨12, .closed ⟨51, 256, 253, 1, 0⟩, 22, true, 0, false⟩,
      ⟨30, .free, 1, true, 0, false⟩], 59, false⟩ }

theorem witness_Reclaim_free (s : State) (h : s = reclaimable) : backgroundFree s := by
  subst h; exact ⟨⟨rfl, rfl, rfl, rfl, rfl⟩, .inl rfl, rfl, rfl, rfl⟩

theorem witness_Reclaim_chooses : reclaimable.rc.ctx = none ∧ freeCount reclaimable ≤ reclaimable.ctl.recthr
    ∧ 1 ≤ freeCount reclaimable ∧ reclaimable.commits.length < 48 ∧ tableOrdered reclaimable
    ∧ standsAs reclaimable 11 (.closed ⟨50, 256, 253, 1, 0⟩)
    ∧ ∀ n x, standsAs reclaimable n (.closed x) → x.pins = 0 → n ≠ 11 → x.dead < 1 ∨ (x.dead = 1 ∧ 50 < x.epoch) := by
  refine ⟨rfl, by decide, by decide, by decide, ?_, ⟨_, .head _, rfl, rfl⟩, ?_⟩
  · simp [tableOrdered, reclaimable]
  · rintro n x ⟨e, he, rfl, hs⟩ - hn
    simp [reclaimable] at he
    rcases he with rfl | rfl | rfl
    · exact absurd rfl hn
    · cases hs; right; decide
    · cases hs

/-- The victim 11 in this phase, its cursor here. -/
def walking (ph : RPhase) (cursor : Nat) : State :=
  { ready with
    sm := ⟨[⟨11, .reclaiming ⟨50, 256, 253, 1, 0⟩, 17, true, 1, false⟩], 59, false⟩,
    rc.ctx := some ⟨11, ph, cursor, 0, false, none, .idle⟩ }

theorem witness_Reclaim_walks (ph : RPhase) (n : Nat) : backgroundFree (walking ph n)
    ∧ (walking ph n).rc.ctx = some ⟨11, ph, n, 0, false, none, .idle⟩
    ∧ journalOf (walking ph n) 11 = some ⟨50, 256, 253, 1, 0⟩ := ⟨⟨⟨rfl, rfl, rfl, rfl, rfl⟩, .inl rfl, rfl, rfl, rfl⟩, rfl, rfl⟩

theorem witness_Reclaim_cursor : (254 < 256 ∧ 256 ≤ 256) := by decide

/-- The walk has read this line at line 2 of segment 11. -/
def walked (l : Line) : State :=
  { walking .walk 2 with
    seqr := some (.read ⟨11, 2⟩), holder := .reclaim, array := [(11 * 256 + 2, l)],
    rc.ctx := some ⟨11, .walk, 2, 0, false, none, .header⟩ }

theorem witness_Walk (l : Line) : (walked l).pins.resetLow = false ∧ (walked l).ctl.srst = false
    ∧ (walked l).eng.haltReq = false ∧ (walked l).holder = .reclaim
    ∧ (walked l).rc.ctx = some ⟨11, .walk, 2, 0, false, none, .header⟩ ∧ (walked l).seqr = some (.read ⟨11, 2⟩)
    ∧ lineAt (walked l) ⟨11, 2⟩ = l := ⟨rfl, rfl, rfl, rfl, rfl, rfl, rfl⟩

theorem witness_Walk_headers : parseHeader .torn = none
    ∧ parseHeader (.good (headerLine ⟨.value, 0xFFFE, 240, 5, 0, 0⟩)) = some ⟨.value, 0xFFFE, 240, 5, 0, 0⟩
    ∧ parseHeader (.good (headerLine ⟨.commit, 0, 7, 5, 3, 0⟩)) = some ⟨.commit, 0, 7, 5, 3, 0⟩ := by decide +kernel

theorem witness_Walk_commit : ∃ s : State, s.commits = [⟨3, ⟨11, 2⟩⟩] ∧ lowestEpoch s = some 11 :=
  ⟨{ walked .torn with commits := [⟨3, ⟨11, 2⟩⟩] }, rfl, rfl⟩

/-- The directory names the record at line 2 of segment 11. -/
theorem witness_Walk_copies : committedOf { walked .torn with dir := [⟨7, some ⟨false, ⟨11, 2⟩, 1, 5, false⟩, none⟩] } 7
    = some ⟨false, ⟨11, 2⟩, 1, 5, false⟩ := rfl

/-! Lines and accounting -/

theorem witness_WrittenLines :
    kindAgrees .value 0xFFFE 240 = true ∧ kindAgrees .tombstone 1 0 = true ∧ kindAgrees .commit 0 7 = true
    ∧ kindAgrees .commit 0 21 = true ∧ kindAgrees .freeze 0 4 = true ∧ contentWellFormed .freeze [0, 1, 0xFF, 0xFE] = true
    ∧ contentWellFormed .commit [0, 0, 0, 1, 1, 0, 1] = true ∧ (0xFFFFFF : Nat) < 2 ^ 24 := by decide +kernel

theorem witness_Balance : tableBalanced (withTable ready 254) ∧ ∀ x ∈ (withTable ready 254).sm.table, x.num = 22 →
    ∀ j, x.st.journal? = some j → j.wp + 2 ≤ 256 := by
  refine ⟨?_, ?_⟩ <;> simp [tableBalanced, Journal.balanced, withTable, table, SegState.journal?]

/-! Interrupted operations and halts -/

/-- An interrupted line program, and an interrupted erase, by either reset. -/
theorem witness_Interrupts : ArrayOk (writing22 .header 0).array ∧ ArrayOk erasing63.array
    ∧ (∃ t, exec (.powerOnReset true 0) (writing22 .header 0) = .next t ∧ lineAt t ⟨22, 180⟩ = .torn)
    ∧ (∃ t, exec (.powerOnReset false 3) erasing63 = .next t) ∧ (∃ t, exec .resetAssert (writing22 .header 0) = .next t)
    ∧ ∃ t, exec .resetAssert erasing63 = .next t :=
  ⟨rfl, rfl, ⟨_, rfl, by decide +kernel⟩, ⟨_, rfl⟩, ⟨_, rfl⟩, _, rfl⟩

/-- A host command, a victim, a queued command and a WAITING slot at the entry to HALTED. -/
def busy (c : Cmd) (st : Stage) : State :=
  { running c st with
    rc.ctx := some ⟨11, .walk, 2, 0, true, none, .idle⟩, host.queue := [⟨3, .stat 1⟩],
    mgmt.slotA := .waiting 1 (requestFrame [0x13, 9, 0, 1]) }

theorem witness_PowerWarning_busy (c : Cmd) (st : Stage) : (busy c st).seqr = none ∧ (busy c st).eng.store ≠ .halted
    ∧ noCopyLine (busy c st) ∧ (busy c st).inflight = some { freshCtx (.host ⟨4, c⟩) with stage := st }
    ∧ noCopyLine { busy c st with inflight := none } := by
  refine ⟨rfl, by simp [busy, running, ready], ?_, rfl, ?_⟩ <;> intro r k h <;> cases h <;> simp

/-- R84: the waiting command and then the queue complete HALTED, the slot is answered, the victim keeps its cursor. -/
theorem test_halt_settles_the_work :
    got (exec .pfwAssert (busy (.put 1 0 0 false) (.waitSpace false)))
      (fun s => (s.host.cplq.map (fun c => (c.tag, c.res.status)), s.host.queue, s.rc.ctx.map Reclaim.cursor))
      = some ([(4, .halted), (3, .halted)], [], some 2) := by decide +kernel

/-- A halt ends a restarted command in WAIT_SPACE: a PUT carries its consumed sequence (R103), a BATCH_COMMIT, to which no rule
gives one, 0 (R84, R120, R202). -/
theorem test_halted_sequence :
    [Cmd.put 1 0 0 false, .batchCommit].map (fun c =>
      got (exec .pfwAssert { busy c (.waitSpace false) with
          inflight := some { freshCtx (.host ⟨4, c⟩) with stage := .waitSpace false, seq := some 9, retried := true } })
        (fun s => s.host.cplq.head?.map (fun c => (c.res.status, c.res.seq))))
      = [some (some (.halted, 9)), some (some (.halted, 0))] := by decide +kernel

/-- READ_ONLY that refuses a restart after a wait carries the consumed sequence (R93, R109); one that ends a wait does not (R37,
R202). -/
theorem test_read_only_sequence :
    got (exec .waitSpaceResume { ready with
        sm.exhausted := true
        inflight := some { freshCtx (.host ⟨4, .batchCommit⟩) with stage := .waitSpace true, seq := some 9, retried := true } })
      (fun s => s.host.cplq.head?.map (fun c => (c.res.status, c.res.seq))) = some (some (.readOnly, 9))
    ∧ ({ freshCtx (.mgmt false 7 [] (.freeze 1 2)) with stage := .waitSpace false, seq := some 9 } : Ctx).failure .readOnly
      = Result.bare .readOnly := by decide +kernel

/-- A line program under a halt request. -/
def haltPending (st : Stage) (k : Nat) : State := { writing22 st k with eng.haltReq := true, host.queue := [⟨3, .stat 1⟩] }

theorem witness_PowerWarning_programming (st : Stage) (k : Nat) :
    ∃ c, programmingUnderHalt (haltPending st k) c ⟨22, 180 + k⟩ 7 ∧ c.stage = st ∧ c.lines.length = 5
      ∧ c.place = ⟨22, 180⟩ ∧ ArrayOk (haltPending st k).array ∧ 180 + 5 ≤ 256
      ∧ (∃ e ∈ (haltPending st k).sm.table, e.num = 22 ∧ e.st = .opened ⟨140, 180, 150, 28, 0⟩)
      ∧ (∃ w, exec .programDone { haltPending st k with
          eng := { (haltPending st k).eng with haltReq := false } } = .next w) ∧ inArray ⟨22, 184⟩ = true :=
  ⟨_, ⟨rfl, rfl, rfl, by simp [haltPending, writing22, withTable, ready], by
    (intro r k h; cases h), rfl, rfl, rfl, rfl, rfl, rfl⟩, rfl, rfl, rfl, rfl, by decide,
    ⟨_, .head _, rfl, rfl⟩, ⟨_, rfl⟩, rfl⟩

/-- A commit line is acted on in full, and HALTED follows. -/
theorem test_commit_line_under_halt :
    got (exec .programDone (haltPending .commit 4))
      (fun s => (s.eng.store, s.host.cplq.map (fun c => (c.tag, c.res.status)), (segEntry s 22).map SegEntry.st))
      = some (.halted, [(4, .ok), (3, .halted)], some (.opened ⟨140, 185, 155, 28, 0⟩)) := by decide +kernel

/-! Ports -/

theorem witness_Cpop_next : { ready with host.cplq := [⟨15, Result.bare .ok⟩, ⟨3, Result.bare .halted⟩] }.host.cplq
    = ⟨15, Result.bare .ok⟩ :: [⟨3, Result.bare .halted⟩] := rfl

/-- Buffer 3 is HELD and buffer 0 is selected. -/
theorem witness_HeldBuffer_other : ∃ s t : State, StagingOk s.staging ∧ s.host.bufOwner.getD 3 none ≠ none
    ∧ s.host.bufOwner.getD s.host.bufSel.toNat none = none ∧ exec (.bufdataWrite 7) s = .next t :=
  ⟨{ ready with host.bufOwner := [none, none, none, some 15] }, _, rfl, by decide, rfl, rfl⟩

/-- The SEGMENT payload of R207 has 16 bytes: a segment without an entry is answered with n and 15 bytes of 00h. -/
theorem test_segment_without_entry :
    got (exec (.segment 0x2C 1 63) ready) (fun s => s.mgmt.slotA)
      = some (.answered 1 (responseFrame 1 0 [63, 0, 0, 0, 0, 0, 0, 0, 0, 0, 0, 0, 0, 0, 0, 0])) := by decide +kernel

/-- A read begins while a write is in progress: the write ends, its frame is taken, and the read is answered PENDING or by it. -/
theorem test_repeated_start :
    got (exec (.mgmtReadTransfer (.whole 0x2C 4)) { ready with
        mgmt.slotA := .receiving 1 (requestFrame [0x01, 9]) false, mgmt.xfer := some (.write false), mgmt.arrivals := 1 })
      (fun s => (s.mgmt.session, s.pins.sdaOut, s.pins.addrAck, s.mgmt.slotA))
      = some (true, responseFrame 9 0 [], true, .free) := by decide +kernel

/-- The part acknowledges its own address and no other (R196). -/
theorem test_address_acknowledged :
    (got (exec (.slotNak (.whole 0x2C [])) ready) (fun s => s.pins.addrAck),
      got (exec (.slotNak (.whole 0x00 [])) { ready with pins.addrAck := true }) (fun s => s.pins.addrAck))
      = (some true, some false) := by decide

theorem witness_Parts_restart : ∃ s t u v : State, s.mgmt.xfer = some (.write false)
    ∧ exec (.mgmtFrameRefused (.ends [])) s = .next t ∧ u.mgmt.xfer = some (.read [3, 1, 0, 7] none 1)
    ∧ exec (.mgmtReadTransfer (.ends 0)) u = .next v ∧ (0x00#7 ≠ 0x2C#7 + s.eng.madr.setWidth 7) :=
  ⟨{ ready with mgmt.slotA := .receiving 1 [3] false, mgmt.xfer := some (.write false) }, _,
    { ready with mgmt.xfer := some (.read [3, 1, 0, 7] none 1) }, _, rfl, rfl, rfl, rfl, by decide⟩

/-! Grants: the exhausted counter, and a FORMAT of a mounted store -/

theorem witness_WriteChecks_exhausted : ∃ s : State, headAlone s (.host ⟨4, .put 1 0 0 false⟩) ∧ s.eng.store = .ready
    ∧ s.eng.seqCtr = 0xFFFFFFFF ∧ writeOpen s .host 1 false ∧ s.dir.length + s.rc.droppedTombs < 512 :=
  ⟨{ queued (.put 1 0 0 false) with eng.seqCtr := 0xFFFFFFFF }, ⟨⟨rfl, rfl, rfl, rfl, rfl⟩, rfl, rfl, rfl⟩, rfl, rfl,
    empty_writeOpen _ rfl rfl _, by decide⟩

theorem witness_WriteChecks_exhausted_delete : ∃ s : State, headAlone s (.host ⟨4, .delete 2 false⟩) ∧ s.eng.seqCtr = 0xFFFFFFFF
    ∧ writeOpen s .host 2 false ∧ ∃ p, presentAs s 2 p :=
  ⟨withKeys { queued (.delete 2 false) with eng.seqCtr := 0xFFFFFFFF }, ⟨⟨rfl, rfl, rfl, rfl, rfl⟩, rfl, rfl, rfl⟩, rfl,
    ⟨no_freeze _ rfl _, (keys_held _).2, by simp⟩, _, (keys_present _).2⟩

theorem witness_Volume_format_mounted :
    ∃ s : State, headAlone s (.host ⟨4, .format 1 2⟩) ∧ mounted s ∧ s.eng.volId = 1 ∧ 2#32 ≠ s.eng.volId
    ∧ (List.range 64).filter (fun k => (segEntry s k).any (fun x => x.st == .free)) = 47 :: [50] :=
  ⟨withTable (queued (.format 1 2)) 180, ⟨⟨rfl, rfl, rfl, rfl, rfl⟩, rfl, rfl, rfl⟩, .inl rfl, rfl, by decide, by decide +kernel⟩

/-- The volume check of a FORMAT to id 2 has read these ids and counts and reads line 0 of segment `n`. -/
def checking (n : Nat) (ids : List Word) (counts : List (Option Nat)) : State :=
  { ready with
    eng.store := .unmounted, holder := .command, seqr := some (.read ⟨n, 0⟩), fu := some ⟨2, .check n, ids, counts, []⟩,
    inflight := some { freshCtx (.host ⟨4, .format 0 2⟩) with stage := .format } }

theorem witness_Format_check (n : Nat) (ids : List Word) (counts : List (Option Nat)) :
    operating (checking n ids counts) .command (.read ⟨n, 0⟩)
    ∧ (checking n ids counts).inflight = some { freshCtx (.host ⟨4, .format 0 2⟩) with stage := .format }
    ∧ (checking n ids counts).fu = some ⟨2, .check n, ids, counts, []⟩ ∧ (checking n ids counts).batch = none :=
  ⟨⟨rfl, rfl, rfl, rfl, rfl⟩, rfl, rfl, rfl⟩

theorem witness_Format_counts : line0Reads (lineAt (checking 63 [] []) ⟨63, 0⟩) .erased
    ∧ (checkedLine ⟨2, .check 63, [7], List.replicate 63 (some 9), []⟩ .erased).counts.length = 64
    ∧ some 9 ∈ (checkedLine ⟨2, .check 63, [7], List.replicate 63 (some 9), []⟩ .erased).counts
    ∧ 2 ∉ (checkedLine ⟨2, .check 63, [7], List.replicate 63 (some 9), []⟩ .erased).ids
    ∧ 2 ∈ (checkedLine ⟨2, .check 63, [2], [], []⟩ .erased).ids := ⟨.inl ⟨rfl, rfl⟩, by decide, by decide, by decide, by decide⟩

/-- FORMAT at its candidate 9, the segment DIRTY, with this operation in progress and these segments left. -/
def formatting (ph : FPhase) (op : SeqOp) (todo : List Nat) : State :=
  { ready with
    eng.store := .formatting, holder := .format, seqr := some op, fu := some ⟨2, ph, [], [], todo⟩,
    sm := ⟨[⟨9, .dirty, 7, true, 0, false⟩], 0, false⟩,
    inflight := some { freshCtx (.host ⟨4, .format 0 2⟩) with stage := .format } }

theorem witness_Format_steps (ph : FPhase) (op : SeqOp) (todo : List Nat) : operating (formatting ph op todo) .format op
    ∧ (formatting ph op todo).eng.store = .formatting ∧ (formatting ph op todo).fu = some ⟨2, ph, [], [], todo⟩
    ∧ tableOrdered (formatting ph op todo) ∧ ArrayOk (formatting ph op todo).array
    ∧ segEntry (formatting ph op todo) 9 = some ⟨9, .dirty, 7, true, 0, false⟩
    ∧ lineAt (formatting ph op todo) ⟨9, 0⟩ = .erased ∧ lineAt (formatting ph op todo) ⟨9, 1⟩ = .erased
    ∧ lineAt { formatting ph op todo with array := [(9 * 256, .torn)] } ⟨9, 0⟩ ≠ .erased :=
  ⟨⟨rfl, rfl, rfl, rfl, rfl⟩, rfl, rfl, by simp [tableOrdered, formatting], rfl, rfl, rfl, rfl,
    by show lineAt { State.reset with array := [(9 * 256, .torn)] } ⟨9, 0⟩ ≠ .erased; decide +kernel⟩

/-! The ends of records -/

/-- The commit line of a member PUT, of a BATCH_COMMIT, in the host's batch of one member; of a FREEZE in slot A. -/
def committing (c : Cmd) (o : Origin) (ms : List Member) : State :=
  { writing22 .commit 4 with
    batch := some ⟨.host, 0x60, ms, .suspended⟩, mgmt.slotA := .running 1 (requestFrame [0x30, 9, 0, 1, 0, 2]),
    inflight := some { freshCtx (.host ⟨4, c⟩) with
      origin := o, stage := .commit, seq := some 0x412, lines := [1, 2, 3, 4, 5], place := ⟨22, 180⟩ }
    dir := [⟨0x1C40, some ⟨false, ⟨14, 60⟩, 20, 0x3A0, false⟩, some ⟨true, ⟨22, 170⟩, 0, 0x400, false⟩⟩] }

theorem witness_CommitLine_kinds (c : Cmd) (o : Origin) (ms : List Member) : ∃ x,
    programmingFor (committing c o ms) x o ⟨22, 184⟩ 7 ∧ x.cmd = c ∧ x.stage = .commit
    ∧ DirOk (committing c o ms).dir ∧ CommitOk (committing c o ms).commits ∧ FreezeOk (committing c o ms).freezes
    ∧ (committing c o ms).batch = some ⟨.host, 0x60, ms, .suspended⟩
    ∧ slotOf (committing c o ms) false = .running 1 (requestFrame [0x30, 9, 0, 1, 0, 2])
    ∧ journalOf (committing c o ms) 22 = some ⟨140, 180, 150, 28, 0⟩ :=
  ⟨_, ⟨rfl, rfl, rfl, rfl, rfl, rfl, rfl, rfl, rfl, rfl⟩, rfl, rfl, by simp [DirOk, committing], .nil, .nil, rfl, rfl, rfl⟩

/-- The member's pending TOMBSTONE is promoted (R53, R119). -/
theorem test_batch_commit_promotes :
    got (exec .programDone (committing .batchCommit (.host 4) [⟨0x1C40, ⟨22, 170⟩, true⟩]))
      (fun s => (s.commits, s.dir.map DirEntry.pending, s.host.cplq.map (fun c => c.res.count)))
      = some ([⟨0x60, ⟨22, 180⟩⟩], [none], [1]) := by decide +kernel

/-! Mount -/

/-- A mount in phase `ph` reads line `l`; segments 5 and 9 are its journal, scanned in that order. -/
def mounting (ph : MPhase) (l : Loc) : State :=
  { ready with
    eng.store := .mounting, holder := .mount, seqr := some (.read l),
    mu := { MountUnit.reset with phase := ph, order := [5, 9], scan := some l, foundVid := 6, line0 := some (6, 7) }
    sm := ⟨[⟨5, .closed ⟨1, 2, 0, 0, 0⟩, 7, true, 0, false⟩, ⟨9, .closed ⟨2, 2, 0, 0, 0⟩, 8, true, 0, false⟩], 3, false⟩
    inflight := some { freshCtx (.host ⟨4, .mount⟩) with stage := .mount } }

theorem witness_Mount_reads (ph : MPhase) (l : Loc) : operating (mounting ph l) .mount (.read l)
    ∧ (mounting ph l).mu.phase = ph ∧ (mounting ph l).mu.scan = some l ∧ tableOrdered (mounting ph l)
    ∧ (∀ e ∈ (mounting ph l).sm.table, e.num < 10) ∧ (mounting ph l).mu.line0 = some (6, 7)
    ∧ (mounting ph l).mu.order = [] ++ 5 :: [9] ∧ (mounting ph l).mu.order = [5] ++ 9 :: []
    ∧ DirOk (mounting ph l).dir ∧ CommitOk (mounting ph l).commits ∧ FreezeOk (mounting ph l).freezes := by
  refine ⟨⟨rfl, rfl, rfl, rfl, rfl⟩, rfl, rfl, ?_, ?_, rfl, rfl, rfl, ⟨.nil, ?_⟩, .nil, .nil⟩
  · simp [tableOrdered, mounting]
  · simp [mounting]
  · simp [mounting, ready, State.reset]

theorem witness_Mount_line0 : line0Reads .erased .erased ∧ line0Reads .torn .torn ∧ line0Reads (.good 0) .foreign
    ∧ line0Reads (.good (prepLine 0x5A 6 7)) (.spare 6 7) ∧ line0Reads (.good (prepLine 0xA5 6 7)) (.retired 6 7) :=
  ⟨.inl ⟨rfl, rfl⟩, .inr (.inl ⟨rfl, rfl⟩), .inr (.inr ⟨_, rfl, .inl (by decide +kernel)⟩),
    .inr (.inr ⟨_, rfl, .inr (.inr (.inl (by decide +kernel)))⟩), .inr (.inr ⟨_, rfl, .inr (.inr (.inr (by decide +kernel)))⟩)⟩

theorem witness_Mount_line1 : line1Gives 6 9 .erased .free 9 ∧ line1Gives 6 9 .torn .dirty 9
    ∧ line1Gives 6 9 (.good (openLine 88 6)) (.closed ⟨88, 0, 0, 0, 0⟩) 9
    ∧ line1Gives 6 9 (.good (openLine 88 7)) .dirty 88 ∧ line1Gives 6 88 (.good (openLine 9 7)) .dirty 88
    ∧ line1Gives 6 9 (.good (openLine 0 7)) .dirty 9 :=
  ⟨.inl ⟨rfl, rfl, rfl⟩, .inr (.inl ⟨rfl, rfl, rfl⟩), .inr (.inr ⟨_, rfl, .inl (by decide +kernel)⟩),
    .inr (.inr ⟨_, rfl, .inr (.inl (by decide +kernel))⟩), .inr (.inr ⟨_, rfl, .inr (.inl (by decide +kernel))⟩),
    .inr (.inr ⟨_, rfl, .inr (.inr (by decide +kernel))⟩)⟩

/-- The opening line of another volume makes segment 63 DIRTY, and its epoch counts for the next-epoch counter (R21, R27). -/
theorem test_mismatched_epoch_counts :
    got (exec .readDone { mounting .survey ⟨63, 1⟩ with array := [(63 * 256 + 1, .good (openLine 88 7))] })
      (fun s => ((segEntry s 63).map SegEntry.st, s.sm.nextEpoch)) = some (some .dirty, 89) := by decide +kernel

/-- The verdict of SURVEY: a journal in order, and two segments of one epoch. -/
theorem witness_Mount_verdict (l : Loc) : inJournalOrder (mounting .survey l) [5, 9]
    ∧ journalOf (mounting .survey l) 9 = some ⟨2, 2, 0, 0, 0⟩
    ∧ (∃ e ∈ (mounting .survey l).sm.table, e.known = true ∧ e.eraseCount = 8)
    ∧ (∀ e ∈ (mounting .survey l).sm.table, e.known = true → e.eraseCount ≤ 8)
    ∧ (∀ n j, standsAs (mounting .survey l) n (.closed j) → 2 ≤ j.wp)
    ∧ (∀ n j, ¬ standsAs (mounting .survey l) n (.opened j)) := by
  refine ⟨⟨fun n => ?_, ?_⟩, rfl, ⟨_, .tail _ (.head _), rfl, rfl⟩, by simp [mounting], ?_, ?_⟩
  · by_cases h5 : n = 5
    · subst h5; exact ⟨fun _ => ⟨_, rfl⟩, fun _ => by simp⟩
    · by_cases h9 : n = 9
      · subst h9; exact ⟨fun _ => ⟨_, rfl⟩, fun _ => by simp⟩
      · have : segEntry (mounting .survey l) n = none := by
          simp [segEntry, mounting]; exact ⟨fun h => h5 h.symm, fun h => h9 h.symm⟩
        simp [h5, h9, journalOf, this]
  · refine List.pairwise_cons.2 ⟨fun b hb => ?_, by simp⟩
    rw [List.mem_singleton.1 hb]; exact ⟨_, _, rfl, rfl, by decide⟩
  · rintro n j ⟨e, he, -, hs⟩
    simp [mounting] at he
    rcases he with rfl | rfl <;> (cases hs; decide)
  · simp [standsAs, mounting]

/-- COLLECT's headers: one that ends the segment exactly, one that would pass its end, one with the highest sequence. -/
theorem witness_Mount_headers : parseHeader (.good (headerLine ⟨.commit, 0, 7, 5, 3, 0⟩)) = some ⟨.commit, 0, 7, 5, 3, 0⟩
    ∧ parseHeader (.good (headerLine ⟨.value, 1, 0, 5, 0, 0⟩)) = some ⟨.value, 1, 0, 5, 0, 0⟩ ∧ 254 + (2 + (0 + 15) / 16) ≤ 256
    ∧ 256 < 255 + (2 + (0 + 15) / 16)
    ∧ parseHeader (.good (headerLine ⟨.value, 1, 0, 0xFFFFFFFF, 0, 0⟩)) = some ⟨.value, 1, 0, 0xFFFFFFFF, 0, 0⟩
    ∧ parseHeader .torn = none ∧ parseHeader (.good 0) = none := by decide +kernel

/-- The record `f` is being judged, `lines` of it read. -/
def judging (ph : MPhase) (l : Loc) (f : FoundRec) (lines : List Line) : State :=
  { mounting ph l with mu := { (mounting ph l).mu with judge := some ⟨f, lines⟩ } }

theorem witness_Mount_judges (ph : MPhase) (l : Loc) (f : FoundRec) (lines : List Line) :
    operating (judging ph l f lines) .mount (.read l) ∧ (judging ph l f lines).mu.judge = some ⟨f, lines⟩
    ∧ tableOrdered (judging ph l f lines) :=
  ⟨⟨rfl, rfl, rfl, rfl, rfl⟩, rfl, (witness_Mount_reads ph l).2.2.2.1⟩

/-- A COMMIT record of batch 60h with one member, a FREEZE record and a VALUE record of 240 bytes are complete. -/
theorem witness_Mount_complete :
    recordComplete ⟨.commit, 0, 7, 5, 0, crc16 (commitValue 0x60 [1])⟩
      ((dataLines (commitValue 0x60 [1]) ++ [commitLine 5 3]).map .good) = true
    ∧ recordComplete ⟨.freeze, 0, 4, 5, 0, crc16 (freezeValue 1 0xFFFE)⟩
      ((dataLines (freezeValue 1 0xFFFE) ++ [commitLine 5 3]).map .good) = true
    ∧ recordComplete ⟨.value, 1, 1, 5, 0, crc16 [7]⟩ ((dataLines [7] ++ [commitLine 5 3]).map .good) = true
    ∧ recordComplete ⟨.value, 1, 1, 5, 0, crc16 [7]⟩ [.torn, .good (commitLine 5 3)] = false := by decide +kernel

/-- Tables that are full, and tables one entry short of it. -/
theorem witness_Mount_tables (n : Nat) (h : n ≤ 64) :
    CommitOk ((List.range n).map (fun i => ⟨BitVec.ofNat 32 (100 + i), ⟨5, 2⟩⟩))
    ∧ FreezeOk [⟨3, 3, ⟨5, 2⟩⟩, ⟨3, 4, ⟨5, 5⟩⟩, ⟨4, 4, ⟨5, 8⟩⟩, ⟨5, 9, ⟨5, 11⟩⟩] := by
  refine ⟨List.pairwise_map.2 ?_, ?_⟩
  · refine (List.pairwise_lt_range (n := n)).imp_of_mem ?_
    intro a b ha hb hab
    rw [List.mem_range] at ha hb
    rw [BitVec.lt_def, BitVec.toNat_ofNat, BitVec.toNat_ofNat, Nat.mod_eq_of_lt (by omega), Nat.mod_eq_of_lt (by omega)]
    omega
  · simp [FreezeOk]

/-- SETTLE at segment 63 in this step, after this program or read, with no fault counted or one. -/
theorem witness_Settle (p : PrepStage) (op : SeqOp) (rp : Bool) : ∃ s : State, operating s .mount op ∧ s.mu.phase = .settle
    ∧ s.mu.settling = some (63, p) ∧ s.eng.store = .mounting ∧ tableOrdered s ∧ ArrayOk s.array
    ∧ segEntry s 63 = some ⟨63, .dirty, 0xFFFFFF, true, 0, rp⟩ ∧ lineAt s ⟨63, 0⟩ = .erased :=
  ⟨{ settling63 rp with seqr := some op, mu := { (settling63 rp).mu with settling := some (63, p) } },
    ⟨rfl, rfl, rfl, rfl, rfl⟩, rfl, rfl, rfl, by simp [tableOrdered, settling63], rfl, rfl, rfl⟩

/-- The second fault of a SPARE line reads line 0, TORN by then, before the retirement (R30, R44). -/
theorem test_second_fault_reads_line0 :
    got (exec .programDeadlineExpiry { settling63 false with
        seqr := some (.program ⟨63, 0⟩ 7), mu := { (settling63 false).mu with settling := some (63, .spare) },
        sm := ⟨[⟨63, .dirty, 9, false, 1, false⟩], 5, false⟩ })
      (fun s => (s.seqr, lineAt s ⟨63, 0⟩, (segEntry s 63).map SegEntry.st))
      = some (some (.read ⟨63, 0⟩), .torn, some .dirty) := by decide +kernel

/-- A faulted opening line of a FORMAT reads line 0, GOOD, and the retirement is in RAM only (R44, R173). -/
theorem test_format_opening_fault :
    got (exec .programDeadlineExpiry (formatting (.step1Open 9) (.program ⟨9, 1⟩ 7) [])) (fun s => s.seqr)
      = some (some (.read ⟨9, 0⟩))
    ∧ got (exec .readDone { formatting (.step1 9 .retireRead) (.read ⟨9, 0⟩) [11] with array := [(9 * 256, .good 7)] })
      (fun s => ((segEntry s 9).map SegEntry.st, s.seqr)) = some (some .retired, some (.erase 11)) := by decide +kernel

/-- A count written into a RETIRED line that is programmed is KNOWN (R24). -/
theorem test_retired_line_is_known :
    got (exec .programDone { settling63 true with
        seqr := some (.program ⟨63, 0⟩ 7), mu := { (settling63 true).mu with settling := some (63, .retireProg) },
        sm := ⟨[⟨63, .dirty, 9, false, 0, true⟩], 5, false⟩ })
      (fun s => (segEntry s 63).map (fun e => (e.st, e.known))) = some (some (.retired, true)) := by decide +kernel

/-! The batch idle timer, the walk and the laws of the segment table -/

theorem witness_IdleLaw : idleOk (withBatch ready .host []) ∧ ∃ t, step (withBatch ready .host []) = .next t := by
  refine ⟨?_, _, rfl⟩
  intro p t h
  cases h
  simp [batchWorkOf, batchWaits, withBatch, ready, State.reset, MgmtPort.reset, HostPort.reset]

/-- The walk stands at line 2 of segment 11, which the four tables name; 11 is the lowest-epoch journal segment. -/
def named (l : Line) : State :=
  { walked l with
    dir := [⟨7, some ⟨false, ⟨11, 2⟩, 1, 5, false⟩, none⟩, ⟨8, some ⟨true, ⟨11, 2⟩, 0, 6, false⟩, none⟩],
    commits := [⟨3, ⟨11, 2⟩⟩], freezes := [⟨1, 2, ⟨11, 2⟩⟩] }

theorem witness_Walk_reading (l : Line) :
    walkReading (named l) ⟨11, .walk, 2, 0, false, none, .header⟩ ⟨11, 2⟩ ∧ lineAt (named l) ⟨11, 2⟩ = l
    ∧ DirOk (named l).dir ∧ lowestEpoch (named l) = some 11 ∧ journalOf (named l) 11 = some ⟨50, 256, 253, 1, 0⟩ :=
  ⟨⟨rfl, rfl, rfl, rfl, rfl, rfl, rfl, rfl⟩, rfl, by simp [DirOk, named], rfl, rfl⟩

theorem witness_Walk_named (l : Line) : namedAt (named l) ⟨.value, 7, 1, 5, 0, 0⟩ ⟨11, 2⟩
    ∧ namedAt (named l) ⟨.freeze, 0, 4, 5, 0, 0⟩ ⟨11, 2⟩ ∧ droppedAt (named l) ⟨.tombstone, 8, 0, 6, 0, 0⟩ ⟨11, 2⟩
    ∧ droppedAt (named l) ⟨.commit, 0, 7, 5, 3, 0⟩ ⟨11, 2⟩ ∧ ¬ namedAt (walked l) ⟨.value, 7, 1, 5, 0, 0⟩ ⟨11, 2⟩
    ∧ ¬ droppedAt (named l) ⟨.value, 7, 1, 5, 0, 0⟩ ⟨11, 2⟩ := by
  refine ⟨⟨_, rfl, rfl⟩, ⟨_, .head _, rfl⟩, ⟨⟨_, rfl, rfl⟩, rfl, .inr ⟨rfl, fun p h => ?_⟩⟩,
    ⟨⟨_, .head _, rfl⟩, rfl, .inl rfl⟩, ?_, ?_⟩
  · cases h; rfl
  · rintro ⟨p, h, _⟩; cases h
  · rintro ⟨_, _, h⟩; simp at h

/-- A named VALUE of length 0 is copied into the OPEN segment, which has room for exactly its two lines. -/
theorem witness_Walk_copies_empty : ∃ s : State, walkReading s ⟨11, .walk, 2, 0, false, none, .header⟩ ⟨11, 2⟩
    ∧ openSegment s = some (22, ⟨60, 254, 252, 0, 0⟩) ∧ 2 ≤ 256 - 254 ∧ lineAt s ⟨22, 254⟩ = .erased
    ∧ namedAt s ⟨.value, 7, 0, 5, 0, 0⟩ ⟨11, 2⟩ :=
  ⟨{ walked .torn with
      dir := [⟨7, some ⟨false, ⟨11, 2⟩, 0, 5, false⟩, none⟩],
      sm := ⟨[⟨11, .reclaiming ⟨50, 256, 253, 1, 0⟩, 17, true, 1, false⟩, ⟨22, .opened ⟨60, 254, 252, 0, 0⟩, 1, true, 0, false⟩],
        61, false⟩ }, ⟨rfl, rfl, rfl, rfl, rfl, rfl, rfl, rfl⟩, rfl, by decide, rfl, ⟨_, rfl, rfl⟩⟩

/-- The commit line of a copy of the record at line 2 of segment 11 is in progress at line 202 of segment 22. -/
def copying22 (h : Hdr) (v : List Byte) (retried : Bool) : State :=
  { named .torn with
    seqr := some (.program ⟨22, 202⟩ 7),
    sm := ⟨[⟨11, .reclaiming ⟨50, 256, 253, 1, 0⟩, 17, true, 1, false⟩, ⟨22, .opened ⟨60, 200, 198, 0, 0⟩, 1, true, 0, false⟩,
      ⟨47, .free, 28, true, 0, false⟩], 61, false⟩,
    rc.ctx := some ⟨11, .walk, 2, 0, false, some ⟨⟨11, 2⟩, h, v, [1, 2, 3], retried, ⟨22, 200⟩⟩, .program 2⟩ }

theorem witness_Copy_ends (h : Hdr) (v : List Byte) (b : Bool) : ∃ r a, copying (copying22 h v b) r a 2 ⟨22, 202⟩ 7
    ∧ 2 + 1 = a.lines.length ∧ a.hdr = h ∧ a.orig = ⟨11, 2⟩ ∧ a.retried = b ∧ a.value = v ∧ a.place = ⟨22, 200⟩
    ∧ committedOf (copying22 h v b) 7 = some ⟨false, ⟨11, 2⟩, 1, 5, false⟩
    ∧ (⟨1, 2, ⟨11, 2⟩⟩ ∈ (copying22 h v b).freezes) ∧ (⟨3, ⟨11, 2⟩⟩ ∈ (copying22 h v b).commits)
    ∧ word32At (commitValue 3 [1]) 0 = 3 :=
  ⟨_, _, ⟨rfl, rfl, rfl, rfl, rfl, rfl, rfl, rfl⟩, rfl, rfl, rfl, rfl, rfl, rfl, rfl, .head _, .head _, by decide +kernel⟩

theorem witness_Copy_faults (h : Hdr) (v : List Byte) (b : Bool) : ArrayOk (copying22 h v b).array ∧ inArray ⟨22, 202⟩ = true
    ∧ tableOrdered (copying22 h v b) ∧ 200 + 3 ≤ 256
    ∧ (∃ x ∈ (copying22 h v b).sm.table, x.num = 22 ∧ x.st = .opened ⟨60, 200, 198, 0, 0⟩)
    ∧ standsAs (copying22 h v b) 11 (.reclaiming ⟨50, 256, 253, 1, 0⟩) ∧ (copying22 h v b).inflight = none
    ∧ 1 ≤ freeCount (copying22 h v b) ∧ leastWorn (copying22 h v b) 47
    ∧ (∀ y z, standsAs (copying22 h v b) y (.opened z) → y = 22) ∧ lineAt (copying22 h v b) ⟨47, 1⟩ = .erased := by
  refine ⟨rfl, by decide, by simp [tableOrdered, copying22], by decide, ⟨_, .tail _ (.head _), rfl, rfl⟩,
    ⟨_, .head _, rfl, rfl⟩, rfl, by simp [freeCount, copying22, SegEntry.isFree],
    ⟨_, .tail _ (.tail _ (.head _)), rfl, rfl, ?_⟩, ?_,
    by show lineAt { State.reset with array := [(11 * 256 + 2, .torn)] } ⟨47, 1⟩ = .erased; decide +kernel⟩
  · simp [copying22]
  · simp [standsAs, copying22]

/-- A mounted store with an OPEN segment, and its step; the laws of its table hold. -/
theorem witness_SegmentsLawful : segmentsLawful (withTable oneWaiting 180) ∧ mounted (withTable ready 180)
    ∧ segmentsLawful (withTable ready 180) ∧ ∃ t, step (withTable oneWaiting 180) = .next t := by
  have key : ∀ s : State, s.rc.ctx = none → s.holder = .none → segmentsLawful (withTable s 180) := by
    intro s hr hh
    refine ⟨.inr ?_, ?_, ?_, ?_, ?_, fun _ => hh⟩
    · simp [lawfulTable, Journal.lawful, withTable, table, SegState.journal?]
    · simp [oneOpen, withTable, table]
    · simp [openingUnderWay, withTable, hh]
    · simp [victimOnly, withTable, table]
    · intro h; exact absurd (hh.symm.trans h) (by simp)
  exact ⟨key _ rfl rfl, .inl rfl, key _ rfl rfl, _, rfl⟩
/-! Management heads: the grant, the append and the answer of a slot's request -/

/-- The request that `waitingSlot` leaves stands alone for the grant. -/
theorem slot_alone (b : List Byte) (c : Cmd) (h : frameCmd (requestFrame b) = some c) :
    headAlone (waitingSlot b) (.mgmt false 1 (requestFrame b) c) :=
  ⟨⟨rfl, rfl, rfl, rfl, rfl⟩, rfl, rfl, by
    simp [mgmtHead, waitingSlot, Slot.waitingArrival, ready, State.reset, MgmtPort.reset, h], rfl, h⟩

theorem witness_ManagementHeads : frameCmd (requestFrame [0x10, 9, 1, 0, 1, 1, 7]) = some (.put 1 1 0 true)
    ∧ frameCmd (requestFrame [0x11, 9, 0, 0, 2]) = some (.delete 2 false)
    ∧ frameCmd (requestFrame [0x12, 9, 0, 1]) = some (.get 1 0) ∧ frameCmd (requestFrame [0x14, 9, 0, 1,
      16]) = some (.list 1 0 16)
    ∧ frameCmd (requestFrame [0x20, 9]) = some .batchOpen ∧ frameCmd (requestFrame [0x21, 9]) = some .batchCommit
    ∧ frameCmd (requestFrame [0x22, 9]) = some .batchAbort
    ∧ frameCmd (requestFrame [0x30, 9, 5, 0, 5, 0xFF]) = some (.freeze 0x500 0x5FF) := by decide +kernel

/-- A management PUT of one byte, and a FREEZE, that find room to the last line of the OPEN segment. -/
theorem witness_ManagementAppend :
    appendPasses (withTable (waitingSlot [0x10, 9, 0, 0, 1, 1, 7]) 253)
      (.mgmt false 1 (requestFrame [0x10, 9, 0, 0, 1, 1, 7]) (.put 1 1 0 false)) (recordLines .value 1 0x412 0 [7])
    ∧ (recordLines .value 1 0x412 0 [7]).length ≤ 256 - 253 :=
  ⟨⟨by decide, .inl ⟨1, 1, 0, false, rfl, ⟨no_freeze _ rfl _, by simp [heldKey, withTable, waitingSlot, ready, State.reset,
    dirLookup], by simp⟩, by decide⟩, rfl,
    by simp [recordLines], fun k n b m h => by cases h; rfl⟩, by decide +kernel⟩

theorem witness_FreezeAppend (s : State) (q : s.eng.seqCtr = 0x412) (hf : s.freezes = []) (hd : s.dir = []) (f : List Byte) :
    checksPass s (.mgmt false 1 f (.freeze 0x500 0x5FF)) ∧ appendPasses s (.mgmt false 1 f (.freeze 0x500 0x5FF))
      (recordLines .freeze 0 s.eng.seqCtr 0 [0x05, 0x00, 0x05, 0xFF]) := by
  have h : checksPass s (.mgmt false 1 f (.freeze 0x500 0x5FF)) :=
    .inr (.inr (.inl ⟨_, _, rfl, by simp [rangeFrozen, hf], by simp [hf], by simp [rangeHoldsPending, hd]⟩))
  exact ⟨h, by rw [q]; decide, h, rfl, by simp [recordLines], fun _ _ _ _ e => by cases e⟩

/-- FREEZE: the identical range, a full list, and a key of the range with a pending part. -/
theorem witness_FreezeChecks : rangeFrozen { ready with freezes := [⟨0x500, 0x5FF, ⟨5, 2⟩⟩] } 0x500 0x5FF
    ∧ ¬ rangeFrozen { ready with freezes := [⟨0x500, 0x5FF, ⟨5, 2⟩⟩] } 0x500 0x5FE
    ∧ ¬ rangeFrozen { ready with freezes := List.replicate 4 ⟨1, 1, ⟨5, 2⟩⟩ } 0x500 0x5FF
    ∧ 4 ≤ { ready with freezes := List.replicate 4 ⟨1, 1, ⟨5, 2⟩⟩ }.freezes.length
    ∧ ¬ rangeFrozen (withKeys ready) 1 1 ∧ (withKeys ready).freezes.length < 4 ∧ rangeHoldsPending (withKeys ready) 1 1 := by
  refine ⟨⟨_, .head _, rfl, rfl⟩, ?_, ?_, by decide, ?_, by decide, ⟨_, .head _, by simp, by decide, by decide⟩⟩
  · simp [rangeFrozen]
  · simp [rangeFrozen]
  · simp [rangeFrozen, withKeys, ready, State.reset]

/-- "A range identical to one in the list … completes OK with sequence 0" (R62 step 2): no record is written. -/
theorem test_freeze_of_a_standing_range :
    got (exec .arbiterGrant { waitingSlot [0x30, 9, 5, 0, 5, 0xFF] with freezes := [⟨0x500, 0x5FF, ⟨5, 2⟩⟩] })
      (fun s => (s.mgmt.slotA, s.seqr)) = some (.answered 1 (responseFrame 9 0 [0, 0, 0, 0]), none) := by decide +kernel

/-- The exhausted sequence counter, at the BATCH_OPEN, at the COMMIT of a batch with a member, and at a FREEZE. -/
theorem witness_ExhaustedCounter : ∃ s h t g, headAlone s h ∧ h.cmd = .batchOpen ∧ s.eng.seqCtr = 0xFFFFFFFF ∧ s.batch = none
    ∧ s.commits.length + s.rc.droppedCommits < 64 ∧ s.eng.store = .ready
    ∧ headAlone t g ∧ g.cmd = .batchCommit ∧ t.eng.seqCtr = 0xFFFFFFFF ∧ checksPass t g ∧ t.eng.store = .ready :=
  ⟨{ queued .batchOpen with eng.seqCtr := 0xFFFFFFFF }, .host ⟨4, .batchOpen⟩,
    { withBatch (queued .batchCommit) .host [⟨1, ⟨6, 2⟩, false⟩] with eng.seqCtr := 0xFFFFFFFF }, .host ⟨4, .batchCommit⟩,
    ⟨⟨rfl, rfl, rfl, rfl, rfl⟩, rfl, rfl, rfl⟩, rfl, rfl, rfl, by decide, rfl, ⟨⟨rfl, rfl, rfl, rfl, rfl⟩, rfl, rfl, rfl⟩,
      rfl, rfl,
    .inr (.inr (.inr ⟨rfl, _, rfl, rfl, by simp⟩)), rfl⟩

/-- The COMMIT record of a batch with one member has three lines; they fill the OPEN segment. -/
theorem witness_CommitPlaced : ∃ s : State, headAlone s (.host ⟨4, .batchCommit⟩) ∧ s.eng.store = .ready
    ∧ s.batch = some ⟨.host, 0x60, [⟨1, ⟨6, 2⟩, false⟩], .running⟩ ∧ s.eng.seqCtr ≠ 0xFFFFFFFF
    ∧ openSegment s = some (22, ⟨140, 253, 223, 28, 0⟩) ∧ (recordFor s (.host 4) .batchCommit).length ≤ 256 - 253
    ∧ lineAt s ⟨22, 253⟩ = .erased ∧ appendPasses s (.host ⟨4, .batchCommit⟩) (recordFor s (.host 4) .batchCommit) :=
  ⟨withTable (withBatch (queued .batchCommit) .host [⟨1, ⟨6, 2⟩, false⟩]) 253, ⟨⟨rfl, rfl, rfl, rfl, rfl⟩, rfl, rfl, rfl⟩,
    rfl, rfl,
    by decide, rfl, by decide +kernel, rfl, by decide, .inr (.inr (.inr ⟨rfl, _, rfl, rfl, by simp⟩)), rfl,
    by simp [recordFor, withTable, withBatch, recordLines], fun _ _ _ _ h => by cases h⟩

/-- The opening of segment 47 for a command, its line `k` being programmed. -/
def opening47 (c : Cmd) (o : Origin) (op : Opening) (k : Nat) : State :=
  { withTable ready 255 with
    seqr := some (.program ⟨47, k⟩ 7), holder := .command, mgmt.slotA := .running 1 (requestFrame [0x30, 9, 5, 0, 5, 0xFF]),
    inflight := some { freshCtx (.host ⟨4, c⟩) with origin := o, stage := .admission op } }

theorem witness_Opening (c : Cmd) (o : Origin) (op : Opening) (k : Nat) : ∃ x,
    programmingFor (opening47 c o op k) x x.origin ⟨47, k⟩ 7 ∧ x.stage = .admission op ∧ x.cmd = c ∧ x.origin = o ∧ x.seq = none
    ∧ x.lines = [] ∧ segEntry (opening47 c o op k) 47 = some ⟨47, .free, 28, true, 0, false⟩
    ∧ lineAt (opening47 c o op k) ⟨47, 2⟩ = .erased :=
  ⟨_, ⟨rfl, rfl, rfl, rfl, rfl, rfl, rfl, rfl, rfl, rfl⟩, rfl, rfl, rfl, rfl, rfl, rfl, rfl⟩

theorem witness_Opening_appends (op : Opening) (k : Nat) :
    appends (opening47 (.freeze 0x500 0x5FF) (.mgmt false 9) op k) (.mgmt false 9) (.freeze 0x500 0x5FF)
      (recordLines .freeze 0 0x412 0 [0x05, 0x00, 0x05, 0xFF])
    ∧ appends (opening47 (.put 1 0 0 false) (.host 4) op k) (.host 4) (.put 1 0 0 false) (recordLines .value 1 0x412 0 []) :=
  ⟨⟨rfl, by simp [recordLines], fun _ _ _ _ h => by cases h⟩, rfl, by simp [recordLines], fun _ _ _ _ h => by cases h; rfl⟩

/-- "Its RETRIED flag is set" (R120): a BATCH_COMMIT whose opening fails twice in its first admission. -/
theorem test_commit_open_failed_is_retried :
    got (exec .programDone (opening47 .batchCommit (.host 4) ⟨47, 141, some 50, some .spare⟩ 0))
      (fun s => s.host.cplq.map (fun c => (c.res.status, c.res.retried))) = some [(.mediaFault, true)] := by decide +kernel

/-- A fault on a line of a management FREEZE, which has restarted or has not. -/
theorem witness_LineFault_management (b : Bool) : ∃ s c, programmingFor s c (.mgmt false 9) ⟨22, 182⟩ 7 ∧ c.stage = .commit
    ∧ c.cmd = .freeze 0x500 0x5FF ∧ c.retried = b ∧ c.place.seg = 22 ∧ tableOrdered s
    ∧ slotOf s false = .running 1 (requestFrame [0x30, 9, 5, 0, 5, 0xFF]) :=
  ⟨{ writing22 .commit 2 with
      mgmt.slotA := .running 1 (requestFrame [0x30, 9, 5, 0, 5, 0xFF]),
      inflight := some { freshCtx (.host ⟨4, .freeze 0x500 0x5FF⟩) with
        origin := .mgmt false 9, stage := .commit, seq := some 0x412, lines := [1, 2, 3], place := ⟨22, 180⟩, retried := b } },
    _, ⟨rfl, rfl, rfl, rfl, rfl, rfl, rfl, rfl, rfl, rfl⟩, rfl, rfl, rfl, rfl, witness_LineFault.2.2.1, rfl⟩

/-! Reads for a slot, and the headers of a LIST -/

/-- The header of key 1's record is read for a LIST of `count` from either port, `placed` entries placed; key 2 follows, or no key
when key 2 is being read. -/
def listing (o : Origin) (key : Key) (count placed : Nat) : State :=
  { withKeys ready with
    array := [(5 * 256 + 2, .good (headerLine ⟨.value, 1, 240, 0x40, 0, 0⟩))], seqr := some (.read ⟨5, 2⟩), holder := .command,
    mgmt.slotA := .running 1 (requestFrame [0x14, 9, 0, 0, 16]),
    inflight := some { freshCtx (.host ⟨4, .list 0 2 count⟩) with
      origin := o, stage := .read, job := ⟨⟨5, 2⟩, 240, 0, 0, key, placed, []⟩ } }

theorem witness_Reads_listing (o : Origin) (key : Key) (count placed : Nat) : ∃ c,
    readingFor (listing o key count placed) c ⟨5, 2⟩ ∧ c.cmd = .list 0 2 count ∧ c.stage = .read ∧ c.origin = o
    ∧ parseHeader (lineAt (listing o key count placed) ⟨5, 2⟩) = some ⟨.value, 1, 240, 0x40, 0, 0⟩
    ∧ StagingOk (listing o key count placed).staging ∧ DirOk (listing o key count placed).dir
    ∧ slotOf (listing o key count placed) false = .running 1 (requestFrame [0x14, 9, 0, 0, 16]) ∧ 3 * (15 + 1) ≤ 256 := by
  refine ⟨_, ⟨rfl, rfl, rfl, rfl, rfl, rfl, rfl, rfl⟩, rfl, rfl, rfl, ?_, rfl, by simp [DirOk, listing, withKeys], rfl, by decide⟩
  rw [show lineAt (listing o key count placed) ⟨5, 2⟩ = .good (headerLine ⟨.value, 1, 240, 0x40, 0, 0⟩) from rfl]
  decide +kernel

theorem witness_Reads_next : lowestAbove (withKeys ready) 1 2 ⟨false, ⟨5, 30⟩, 0, 0x41, false⟩
    ∧ (∀ k p, presentAs (withKeys ready) k p → k ≤ 2) :=
  ⟨⟨(keys_present ready).2, by decide, witness_Reads_list.2.2⟩, witness_Reads_list.2.1⟩

/-- A management GET at its last line. -/
theorem witness_Reads_management : ∃ s c, readingFor s c ⟨5, 3⟩ ∧ c.origin = .mgmt false 9 ∧ c.cmd = .get 1 0 ∧ c.stage = .read
    ∧ lineAt s ⟨5, 3⟩ = .good 7 ∧ StagingOk s.staging ∧ c.job.len = 1 ∧ c.job.k = 1 ∧ c.job.placed = 0
    ∧ slotOf s false = .running 1 (requestFrame [0x12, 9, 0, 1]) :=
  ⟨{ getting 1 0 1 with
      mgmt.slotA := .running 1 (requestFrame [0x12, 9, 0, 1]),
      inflight := some { freshCtx (.host ⟨4, .get 1 0⟩) with
        origin := .mgmt false 9, stage := .read, job := ⟨⟨5, 2⟩, 1, 0x40, 1, 0, 0, []⟩ } },
    _, ⟨rfl, rfl, rfl, rfl, rfl, rfl, rfl, rfl⟩, rfl, rfl, rfl, rfl, rfl, rfl, rfl, rfl, rfl⟩

/-- The GET response of R207: length, committed sequence, then the value's bytes. -/
theorem test_management_get_answer :
    got (exec .readDone { getting 1 0 1 with
        array := [(5 * 256 + 3, .good (packLine [0x5C]))], mgmt.slotA := .running 1 (requestFrame [0x12, 9, 0, 1]),
        inflight := some { freshCtx (.host ⟨4, .get 1 0⟩) with
          origin := .mgmt false 9, stage := .read, job := ⟨⟨5, 2⟩, 1, 0x40, 1, 0, 0, []⟩ } })
      (fun s => s.mgmt.slotA) = some (.answered 1 (responseFrame 9 0 [1, 0, 0, 0, 0x40, 0x5C])) := by decide +kernel

/-! RECLAIM and UNMOUNT -/

theorem witness_Unmount_batch (o : Port) : headAlone (withBatch (queued .unmount) o []) (.host ⟨4, .unmount⟩)
    ∧ mounted (withBatch (queued .unmount) o []) ∧ (withBatch (queued .unmount) o []).batch = some ⟨o, 0x60, [], .running⟩ :=
  ⟨⟨⟨rfl, rfl, rfl, rfl, rfl⟩, rfl, rfl, rfl⟩, .inl rfl, rfl⟩

/-- A queued RECLAIM over the table of `reclaimable`, without a victim. -/
def reclaimQueued : State := { queued .reclaim with sm := reclaimable.sm }

theorem witness_Reclaim_command : headAlone reclaimQueued (.host ⟨4, .reclaim⟩) ∧ reclaimQueued.rc.ctx = none
    ∧ tableOrdered reclaimQueued ∧ victimChosen reclaimQueued 11 ⟨50, 256, 253, 1, 0⟩
    ∧ headAlone { queued .reclaim with rc.ctx := some ⟨11, .walk, 2, 0, false, none, .idle⟩ } (.host ⟨4, .reclaim⟩)
    ∧ noVictim (queued .reclaim) ∧ tableOrdered (queued .reclaim) := by
  refine ⟨⟨⟨rfl, rfl, rfl, rfl, rfl⟩, rfl, rfl, rfl⟩, rfl, by simp [tableOrdered, reclaimQueued, reclaimable], ?_,
    ⟨⟨rfl, rfl, rfl, rfl, rfl⟩, rfl, rfl, rfl⟩, ?_, by simp [tableOrdered, queued, ready, State.reset]⟩
  · refine ⟨⟨⟨_, .head _, rfl, rfl⟩, rfl⟩, .inr ⟨fun h => absurd h (by decide), by decide, ?_⟩⟩
    rintro n x ⟨⟨e, he, rfl, hs⟩, -⟩ hn
    simp [reclaimQueued, reclaimable] at he
    rcases he with rfl | rfl | rfl
    · exact absurd rfl hn
    · cases hs; right; decide
    · cases hs
  · rintro n x ⟨⟨e, he, -⟩, -⟩
    simp [queued, ready, State.reset] at he

/-- With 48 commit entries the lowest-epoch candidate is the victim, though it has no dead line (R144). -/
theorem witness_Reclaim_lowest : victimChosen { reclaimQueued with
      commits := (List.range 48).map (fun i => ⟨BitVec.ofNat 32 i, ⟨5, 2⟩⟩),
      sm := ⟨[⟨11, .closed ⟨50, 256, 254, 0, 0⟩, 17, true, 1, false⟩], 59, false⟩ } 11 ⟨50, 256, 254, 0, 0⟩ := by
  refine ⟨⟨⟨_, .head _, rfl, rfl⟩, rfl⟩, .inl ⟨by simp, fun n x h hn => ?_⟩⟩
  exfalso
  unfold journalOf segEntry at h
  rw [List.find?_eq_none.2 (by simp; omega)] at h
  cases h

/-- A RECLAIM command whose victim 11 is at this step, with this operation in progress. -/
def reclaiming (st : RStep) (a : Option Attempt) (st11 : SegState) (op : SeqOp) : State :=
  { running .reclaim .reclaim with
    seqr := some op, holder := .reclaim, array := [(11 * 256, .torn)],
    sm := ⟨[⟨11, st11, 17, true, 1, false⟩, ⟨20, .closed ⟨58, 256, 254, 0, 0⟩, 1, true, 0, false⟩,
      ⟨21, .closed ⟨59, 256, 254, 0, 0⟩, 1, true, 0, false⟩, ⟨22, .closed ⟨60, 256, 254, 0, 0⟩, 1, true, 0, false⟩,
      ⟨23, .closed ⟨61, 256, 254, 0, 0⟩, 1, true, 0, false⟩], 62, false⟩,
    rc.ctx := some ⟨11, .finish, 256, 20, true, a, st⟩ }

theorem witness_Reclaim_ends (st : RStep) (a : Option Attempt) (st11 : SegState) (op : SeqOp) :
    operating (reclaiming st a st11 op) .reclaim op ∧ (reclaiming st a st11 op).rc.ctx = some ⟨11, .finish, 256, 20, true, a, st⟩
    ∧ (reclaiming st a st11 op).inflight = some { freshCtx (.host ⟨4, .reclaim⟩) with stage := .reclaim }
    ∧ mounted (reclaiming st a st11 op) ∧ tableOrdered (reclaiming st a st11 op)
    ∧ segEntry (reclaiming st a st11 op) 11 = some ⟨11, st11, 17, true, 1, false⟩
    ∧ lineAt (reclaiming st a st11 op) ⟨11, 0⟩ ≠ .erased ∧ (st11 = .dirty → usableCount (reclaiming st a st11 op) = 5) := by
  refine ⟨⟨rfl, rfl, rfl, rfl, rfl⟩, rfl, rfl, .inl rfl, by simp [tableOrdered, reclaiming], rfl, ?_, ?_⟩
  · rw [show lineAt (reclaiming st a st11 op) ⟨11, 0⟩ = .torn from rfl]; decide
  · rintro rfl; rfl

/-- The walk of a RECLAIM command reads the header of a named empty VALUE, and no segment is FREE or OPEN. -/
theorem witness_Reclaim_noSegment : ∃ s : State, ∃ r h v,
    walkReading s r ⟨11, 2⟩ ∧ parseHeader (lineAt s ⟨11, 2⟩) = some h ∧ namedAt s h ⟨11, 2⟩ ∧ ¬ droppedAt s h ⟨11, 2⟩ ∧ h.len = 0
    ∧ noRoomFor s 2 ∧ freeCount s = 0 ∧ segEntry s 11 = some ⟨11, .reclaiming v, 17, true, 1, false⟩ ∧ s.eng.store = .ready
    ∧ s.batch = none ∧ s.inflight = some { freshCtx (.host ⟨4, .reclaim⟩) with stage := .reclaim } ∧ tableOrdered s := by
  refine ⟨{ walked (.good (headerLine ⟨.value, 7, 0, 5, 0, 0⟩)) with
      dir := [⟨7, some ⟨false, ⟨11, 2⟩, 0, 5, false⟩, none⟩],
      inflight := some { freshCtx (.host ⟨4, .reclaim⟩) with stage := .reclaim } },
    _, ⟨.value, 7, 0, 5, 0, 0⟩, _, ⟨rfl, rfl, rfl, rfl, rfl, rfl, rfl, rfl⟩, ?_, ⟨_, rfl, rfl⟩, ?_, rfl, ?_, rfl, rfl, rfl,
      rfl, rfl, ?_⟩
  · show parseHeader (.good (headerLine ⟨.value, 7, 0, 5, 0, 0⟩)) = _
    decide +kernel
  · rintro ⟨-, -, h⟩; simp at h
  · simp [noRoomFor, walked, walking, openSegment]
  · simp [tableOrdered, walked, walking]

/-- The second fault of one copy, for a RECLAIM command. -/
theorem witness_Reclaim_copyFault : ∃ s : State, ∃ r a v, copying s r a 2 ⟨22, 202⟩ 7 ∧ a.retried = true ∧ a.place.seg ≠ r.victim
    ∧ segEntry s r.victim = some ⟨11, .reclaiming v, 17, true, 1, false⟩ ∧ mounted s ∧ tableOrdered s
    ∧ s.inflight = some { freshCtx (.host ⟨4, .reclaim⟩) with stage := .reclaim } :=
  ⟨{ copying22 ⟨.value, 7, 1, 5, 0, 0⟩ [7] true with inflight := some { freshCtx (.host ⟨4, .reclaim⟩) with stage := .reclaim } },
    _, _, _, ⟨rfl, rfl, rfl, rfl, rfl, rfl, rfl, rfl⟩, rfl, by decide, rfl, .inl rfl,
    (witness_Copy_faults ⟨.value, 7, 1, 5, 0, 0⟩ [7] true).2.2.1, rfl⟩

/-! The laws of the tables -/

/-- The host's batch with one member, whose pending part stands beside a committed one; a DELETE waits in the queue for its
grant. -/
def batchOf1 : State :=
  { withTable (queued (.delete 2 true)) 180 with
    dir := [⟨1, some ⟨false, ⟨5, 2⟩, 240, 0x40, false⟩, some ⟨false, ⟨22, 170⟩, 1, 0x411, false⟩⟩,
      ⟨2, some ⟨false, ⟨5, 30⟩, 0, 0x41, false⟩, none⟩],
    freezes := [⟨0x500, 0x5FF, ⟨5, 60⟩⟩], commits := [⟨0x30, ⟨5, 90⟩⟩],
    batch := some ⟨.host, 0x60, [⟨1, ⟨22, 170⟩, false⟩], .suspended⟩, pending := [.arbiterGrant] }

theorem batchOf1_table : TableLaw batchOf1.dir batchOf1.freezes batchOf1.commits batchOf1.batch .ready none 0x412 := by
  constructor
  · refine ⟨?_, ?_, ?_⟩ <;> simp [DirOk, FreezeOk, CommitOk, batchOf1]
  · decide
  · rintro x ⟨⟩; decide
  · rintro x ⟨⟩ m hm
    rw [List.mem_singleton.1 hm]
    exact ⟨_, .head _, _, rfl, rfl, rfl, rfl⟩
  · rintro e he r hr
    simp only [batchOf1, List.mem_cons, List.not_mem_nil, or_false] at he
    rcases he with rfl | rfl
    · cases hr; exact ⟨_, _, rfl, .head _, rfl, rfl, rfl⟩
    · cases hr
  · refine .inr ⟨?_, ?_⟩
    · rintro p ⟨e, he, hp⟩
      simp only [batchOf1, List.mem_cons, List.not_mem_nil, or_false] at he
      rcases he with rfl | rfl <;> simp at hp
      · rcases hp with rfl | rfl <;> decide
      · subst hp; decide
    · rintro x ⟨⟩; decide
  · intro _; decide
  · intro h; exact absurd (.inl rfl) h

theorem witness_TableLaws : tablesLawful batchOf1 ∧ idleOk batchOf1 ∧ resetHeld batchOf1 ∧ ∃ t, step batchOf1 = .next t := by
  refine ⟨⟨batchOf1_table, ⟨(fun e => by cases e), (fun e => by cases e)⟩, (fun c e => by cases e)⟩, ?_,
      (fun e => by cases e), _, rfl⟩
  intro p t h
  cases h
  simp only [reduceCtorEq, false_iff, not_not]
  exact .inr (.inl ⟨rfl, _, .head _, rfl⟩)

/-- A member PUT of the batch's owner in flight, and a mount that has found nothing yet. -/
theorem witness_TableLaws_work (l : Loc) : tablesLawful { batchOf1 with
      holder := .command, seqr := some (.program ⟨22, 180⟩ 7),
      inflight := some { freshCtx (.host ⟨5, .put 3 0 0 true⟩) with
        stage := .header, seq := some 0x411, lines := [1, 2], place := ⟨22, 180⟩ } }
    ∧ tablesLawful { mounting .collect l with eng := { (mounting .collect l).eng with seqCtr := 0 } } := by
  refine ⟨⟨batchOf1_table, ⟨(fun e => by cases e), (fun e => by cases e)⟩, ?_⟩, ?_, ⟨fun _ => ⟨rfl, .inr ?_⟩,
      (fun e => by cases e)⟩, ?_⟩
  · rintro c ⟨⟩
    refine ⟨fun _ => rfl, fun _ => ⟨.inl rfl, by simp, by simp, ?_, ?_, ?_⟩⟩
    · rintro x ⟨⟩; decide
    · rintro k ⟨⟩; exact ⟨fun _ => by decide, fun _ _ => ⟨_, rfl, rfl, by decide, by decide⟩⟩
    · rintro lo hi ⟨⟩
  · constructor
    · refine ⟨?_, ?_, ?_⟩ <;> simp [DirOk, FreezeOk, CommitOk, mounting, ready, State.reset]
    · exact ⟨Nat.zero_le _, Nat.zero_le _, Nat.zero_le _⟩
    · rintro x ⟨⟩
    · rintro x ⟨⟩
    · rintro e ⟨⟩
    · exact .inl rfl
    · intro h; simp [volumeMounted, mounting] at h
    · intro _; rfl
  · refine ⟨by simp [mounting], rfl, by simp [mounting, MountUnit.reset], ?_, ?_, ?_⟩
    · rintro p ⟨e, ⟨⟩, -⟩
    · intro r hr; exfalso; rcases hr with hr | hr <;> simp [mounting, MountUnit.reset] at hr
    · intro j hj; simp [mounting, MountUnit.reset] at hj
  · rintro c ⟨⟩
    exact ⟨(fun e => by cases e), (fun e => by cases e)⟩

/-! Resets and halts, second part -/

/-- PFW# is low at the end of a reset: of power-on and of a soft reset, and at the release of RESET# after its assertion. -/
theorem witness_Reset_pfwLow :
    (∃ t, exec .resetAssert { ready with pins.pfwLow := true, eng.haltReq := true } = .next t
      ∧ t.pins.resetLow = true ∧ t.pins.pfwLow = true ∧ t.eng.haltReq = false ∧ t.seqr = none ∧ t.eng.store ≠ .halted ∧ quiet t)
    ∧ { ready with pins.pfwLow := true }.pins.resetLow = false
    ∧ { awaiting (.read ⟨5, 2⟩) with pins.pfwLow := true }.pins.pfwLow = true := by
  refine ⟨⟨_, rfl, rfl, rfl, rfl, rfl, by decide, rfl, rfl, rfl, ?_⟩, rfl, rfl⟩
  intro b a f h; cases b <;> cases h

/-- R83, R87: power-on with AMOUNT high and PFW# low leaves a mount halted, its first read not issued. -/
theorem test_power_on_with_pfw_low :
    got (exec (.powerOnReset true 0) { ready with pins.pfwLow := true })
      (fun s => (s.eng.store, s.eng.prior, s.seqr, s.eng.haltReq, s.alert.flags))
      = some (.halted, some .mounting, none, true, 0x08) := by decide +kernel

/-- A command of the management port at this stage, its slot RUNNING, with a command in the host queue. -/
def served (c : Cmd) (st : Stage) : State :=
  { ready with
    inflight := some { freshCtx (.mgmt false 1 (requestFrame [0x30, 9, 0, 1, 0, 2]) c) with stage := st }
    mgmt.slotA := .running 1 (requestFrame [0x30, 9, 0, 1, 0, 2]), host.queue := [⟨3, .stat 1⟩] }

/-- The fields of a command at the entry to HALTED: in WAIT_SPACE and ADMIT, of a MOUNT, a FORMAT, a RECLAIM, a GET and a LIST. -/
theorem witness_PowerWarning_results (c : Ctx) (s : State) (x : Reclaim) (o : Opening) :
    ((∃ r, haltedResult s { c with stage := .waitSpace true } r) ∧ (∃ r, haltedResult s { c with stage := .admission o } r)
      ∧ (∃ r, haltedResult s { c with stage := .mount } r) ∧ ∃ r, haltedResult s { c with stage := .format } r)
    ∧ (∃ r, haltedResult { s with rc.ctx := some x } { c with stage := .reclaim } r)
    ∧ (∃ r, haltedResult s { c with stage := .read, cmd := .get 1 2 } r)
    ∧ ∃ r, haltedResult s { c with stage := .read, cmd := .list 1 2 16 } r :=
  ⟨⟨⟨_, .inl ⟨.inl ⟨_, rfl⟩, rfl⟩⟩, ⟨_, .inl ⟨.inr (.inl ⟨_, rfl⟩), rfl⟩⟩,
      ⟨_, .inl ⟨.inr (.inr (.inl rfl)), rfl⟩⟩, _, .inl ⟨.inr (.inr (.inr rfl)), rfl⟩⟩,
    ⟨_, .inr (.inl ⟨rfl, _, rfl, rfl⟩)⟩, ⟨_, .inr (.inr (.inl ⟨rfl, ⟨_, _, rfl⟩, rfl⟩))⟩,
    _, .inr (.inr (.inr ⟨rfl, ⟨_, _, _, rfl⟩, rfl⟩))⟩

theorem witness_PowerWarning_served (c : Cmd) (st : Stage) : (served c st).pins.resetLow = false ∧ (served c st).seqr = none
    ∧ (served c st).eng.store ≠ .halted ∧ noCopyLine (served c st)
    ∧ (∃ x, (served c st).inflight = some x ∧ x.stage = st ∧ x.cmd = c ∧ x.unstopped)
    ∧ ∃ x, (busy c st).inflight = some x ∧ x.stage = st ∧ x.cmd = c ∧ x.unstopped :=
  ⟨rfl, rfl, by simp [served, ready], (by intro r k h; cases h), ⟨_, rfl, rfl, rfl, rfl, rfl, rfl⟩, _, rfl, rfl, rfl, rfl, rfl,
    rfl⟩

/-- R84, R203: the slot of a management FREEZE in WAIT_SPACE is answered HALTED. -/
theorem test_halt_answers_the_slot :
    got (exec .pfwAssert (served (.freeze 1 2) (.waitSpace false)))
      (fun s => (s.mgmt.slotA, s.host.cplq.map (fun c => (c.tag, c.res.status)), s.inflight))
      = some (.answered 1 (responseFrame 9 0x10 [0, 0, 0, 0]), [(3, .halted)], none) := by decide +kernel

/-- A halt request is asserted. -/
def halting (s : State) : State := { s with eng.haltReq := true }

/-- The opening line of segment 47 under a halt request, for a command of either port. -/
theorem witness_PowerWarning_opening (c : Cmd) (o : Origin) (op : Opening) : ∃ x,
    programmingUnderHalt (halting (opening47 c o op 1)) x ⟨47, 1⟩ 7 ∧ x.stage = .admission op
      ∧ segEntry (halting (opening47 c o op 1)) 47 = some ⟨47, .free, 28, true, 0, false⟩
      ∧ inArray ⟨47, 1⟩ = true ∧ ArrayOk (halting (opening47 c o op 1)).array :=
  ⟨_, ⟨rfl, rfl, rfl, by simp [halting, opening47, withTable, ready], (by intro r k h; cases h), rfl, rfl, rfl, rfl, rfl, rfl⟩,
    rfl, rfl, rfl, rfl⟩

/-- A read of a GET, a LIST, a volume check or a mount under a halt request. -/
theorem witness_PowerWarning_reads (k placed len n : Nat) (ids : List Word) (counts : List (Option Nat)) (o : Origin) (key : Key)
    (ph : MPhase) (l : Loc) (hp : ph ≠ .settle) :
    endingUnderHalt (halting (getting k placed len)) .readDone ∧ endingUnderHalt (halting (checking n ids counts)) .readDone
    ∧ endingUnderHalt (halting (listing o key 16 placed)) .readDone ∧ endingUnderHalt (halting (mounting ph l)) .readDone := by
  refine ⟨⟨rfl, rfl, rfl, ?_, ?_, rfl, _, rfl, trivial, .inl ⟨rfl, ⟨_, rfl, .inl rfl⟩, _, rfl⟩⟩,
    ⟨rfl, rfl, rfl, ?_, ?_, rfl, _, rfl, trivial, .inl ⟨rfl, ⟨_, rfl, .inr rfl⟩, _, rfl⟩⟩,
    ⟨rfl, rfl, rfl, ?_, ?_, rfl, _, rfl, trivial, .inl ⟨rfl, ⟨_, rfl, .inl rfl⟩, _, rfl⟩⟩,
    ⟨rfl, rfl, rfl, ?_, ?_, rfl, _, rfl, trivial, .inr (.inl ⟨rfl, hp, _, rfl⟩)⟩⟩
  iterate 4
    · simp [halting, getting, checking, listing, withKeys, mounting, ready]
    · intro r k h; cases h

theorem formatting_underHalt (ph : FPhase) (op : SeqOp) (todo : List Nat) (i : Instr) (h : endsOp i op)
    (hp : ∃ f n, n < 64 ∧ (formatting ph op todo).fu = some f
      ∧ ((∃ p, f.phase = .step1 n p ∧ prepOp n p op
          ∧ (p = .spare → lineAt (halting (formatting ph op todo)) ⟨n, 1⟩ = .erased))
        ∨ (∃ p, f.phase = .step2 n p ∧ prepOp n p op) ∨ (f.phase = .step1Open n ∧ ∃ x, op = .program ⟨n, 1⟩ x))) :
    endingUnderHalt (halting (formatting ph op todo)) i :=
  ⟨rfl, rfl, rfl, by simp [halting, formatting], (by intro r k h; cases h), rfl, _, rfl, h, .inr (.inr (.inr ⟨rfl, hp⟩))⟩

/-- An erase of SETTLE, and the operations of a FORMAT, under a halt request. -/
theorem witness_PowerWarning_tables (rp : Bool) (todo : List Nat) :
    endingUnderHalt (halting (settling63 rp)) .eraseDone
    ∧ endingUnderHalt (halting (formatting (.step1 9 .erase) (.erase 9) todo)) .eraseDeadlineExpiry
    ∧ endingUnderHalt (halting (formatting (.step1 9 .spare) (.program ⟨9, 0⟩ 7) todo)) .programDone
    ∧ endingUnderHalt (halting (formatting (.step2 9 .retireRead) (.read ⟨9, 0⟩) todo)) .readDone
    ∧ endingUnderHalt (halting (formatting (.step1Open 9) (.program ⟨9, 1⟩ 7) todo)) .programDeadlineExpiry :=
  ⟨⟨rfl, rfl, rfl, by simp [halting, settling63], (by intro r k h; cases h), rfl, _, rfl, trivial,
      .inr (.inr (.inl ⟨rfl, rfl, 63, .erase, by decide, rfl, rfl⟩))⟩,
    formatting_underHalt _ _ _ _ trivial ⟨_, 9, by decide, rfl, .inl ⟨_, rfl, rfl, by simp⟩⟩,
    formatting_underHalt _ _ _ _ trivial ⟨_, 9, by decide, rfl, .inl ⟨_, rfl, ⟨_, rfl⟩, fun _ => rfl⟩⟩,
    formatting_underHalt _ _ _ _ trivial ⟨_, 9, by decide, rfl, .inr (.inl ⟨_, rfl, rfl⟩)⟩,
    formatting_underHalt _ _ _ _ trivial ⟨_, 9, by decide, rfl, .inr (.inr ⟨rfl, _, rfl⟩)⟩⟩

/-- Without the halt request these operations end in a next state, in which the command is still in flight, or complete. -/
theorem witness_PowerWarning_without :
    ([(Instr.readDone, getting 14 208 240), (.readDone, mounting .survey ⟨5, 0⟩), (.readDone, getting 15 224 240),
      (.eraseDone, formatting (.step1 9 .erase) (.erase 9) []), (.eraseDone, settling63 false)].map fun (i, s) =>
        got (exec i s) (fun w => w.inflight.map (fun c => (c.stage, c.stopping || c.batchLost || c.tearDue))))
      = [some (some (.read, false)), some (some (.mount, false)), some none, some (some (.format, false)), some none] := by
  decide +kernel

/-- R83, R84: a GET whose first line is read under a halt request keeps what it has placed; one whose last line is read is OK. -/
theorem test_get_under_halt :
    [getting 14 208 240, getting 15 224 240].map (fun s =>
      got (exec .readDone (halting s)) (fun u => (u.eng.store, u.host.cplq.map (fun c => (c.res.status, c.res.len)))))
      = [some (.halted, [(.halted, 224)]), some (.halted, [(.ok, 240)])] := by decide +kernel

/-- A RECLAIM command of the host in flight, with its victim. -/
theorem witness_AbortInFlight_reclaim (x : Reclaim) :
    { running .reclaim .reclaim with rc.ctx := some x }.pins.resetLow = false
    ∧ { running .reclaim .reclaim with rc.ctx := some x }.host.tags.getD ((0x04#8).toNat % 16) .free = .running
    ∧ { running .reclaim .reclaim with rc.ctx := some x }.inflight
      = some { freshCtx (.host ⟨4, .reclaim⟩) with stage := .reclaim }
    ∧ ¬ unabortable .reclaim ∧ { running .reclaim .reclaim with rc.ctx := some x }.rc.ctx = some x :=
  ⟨rfl, rfl, rfl, by simp [unabortable], rfl⟩

/-! The management port's batch at the end of its session -/

/-- An open session that owns a batch, with no command in flight, or with this one. -/
def owning (i : Option Ctx) : State :=
  { withBatch session .mgmt [] with mgmt.slotA := .running 1 (requestFrame [0x21, 9]), inflight := i }

theorem witness_SessionEnd_batch (c : Cmd) (st : Stage) (i : Option Ctx) :
    busFree (owning i) 0x2C ∧ (owning i).ctl.mgmten = true ∧ (owning i).mgmt.session = true ∧ ownsBatch (owning i) .mgmt = true
    ∧ nextSlot (owning i) true ∧ (owning i).inflight = i
    ∧ (endedSession (owning i)).inflight = i ∧ (disabledPort (owning i) 0).inflight = i
    ∧ (freshCtx (.mgmt false 1 (requestFrame [0x21, 9]) c)).origin.port = .mgmt ∧ (freshCtx (.host ⟨4, c⟩)).origin.port = .host
    ∧ { freshCtx (.mgmt false 1 (requestFrame [0x21, 9]) c) with stage := st }.stage = st
    ∧ (Cmd.put 1 0 0 true).isMember = true
    ∧ ownsBatch { withBatch ready .mgmt [] with mgmt.session := false } .mgmt = true :=
  ⟨busFree_at _ rfl rfl rfl, rfl, rfl, rfl, ⟨rfl, fun _ => by simp [slotOf, owning]⟩, rfl, rfl, rfl, rfl, rfl, rfl, rfl, rfl⟩

/-- R106, R121: a member PUT of the session in WAIT_SPACE completes NO_BATCH; one at its header line goes on without its batch; a
BATCH_COMMIT at its commit line keeps the batch until it ends. -/
theorem test_lapse_with_a_batch :
    [(Cmd.put 1 0 0 true, Stage.waitSpace false), (.put 1 0 0 true, .header), (.batchCommit, .commit)].map (fun (c, st) =>
      got (exec .sessionLapse (owning (some { freshCtx (.mgmt false 1 (requestFrame [0x21, 9]) c) with stage := st })))
        (fun s => (s.batch.isSome, s.inflight.map (fun x => (x.batchLost, x.tearDue)))))
      = [some (false, none), some (false, some (true, false)), some (true, some (false, true))] := by decide +kernel

end Sys2Proof.Machine.Tests
end

