-- ==== Sys2Proof/Proofs/HostPort.lean ====
section
/-! The host port (chapter 10): CPOP and the registers that show the completion queue (R186, R187), and the INT# line (R192). -/

namespace Sys2Proof.Machine

/-! ### The removal of a completion (R187) -/

/-- An event acts while RESET# is high (R87, R195). -/
theorem takeEvent_of_resetHigh {s : State} (h : s.pins.resetLow = false) (f : State → State) :
    takeEvent s f = .next (f s) := by
  simp [takeEvent, h]

theorem exec_cpop_of_resetHigh {s : State} (h : s.pins.resetLow = false) (v : Byte) :
    exec (.cpop v) s = .next (popCompletion s) :=
  takeEvent_of_resetHigh h popCompletion

theorem popCompletion_of_empty {s : State} (h : s.host.cplq = []) : popCompletion s = s := by
  simp only [popCompletion, h]

theorem popCompletion_of_cons {s : State} {c : Completion} {rest : List Completion} (h : s.host.cplq = c :: rest) :
    popCompletion s = { s with
      host := { s.host with
        cplq := rest, tags := s.host.tags.set c.tag .free,
        bufOwner := s.host.bufOwner.map (fun o => if o = some c.tag then none else o) } } := by
  simp only [popCompletion, h, setTag]

/-! ### The registers of the completion queue (R186, R209) -/

/-- CLEVEL is the length of the completion queue. -/
theorem hostRead_clevel {s : State} (h : s.pins.resetLow = false) :
    hostRead s 0x20 = BitVec.ofNat 8 s.host.cplq.length := by
  simp only [hostRead, h, byteOf, Bool.false_eq_true, if_false]

theorem headByte_of_empty {s : State} (h : s.host.cplq = []) (f : Completion → Byte) : headByte s f = 0 := by
  simp only [headByte, h, List.head?_nil, Option.map_none, Option.getD_none]

theorem headByte_of_cons {s : State} {c : Completion} {rest : List Completion} (h : s.host.cplq = c :: rest)
    (f : Completion → Byte) : headByte s f = f c := by
  simp only [headByte, h, List.head?_cons, Option.map_some, Option.getD_some]

/-- The C locations read 00h while the completion queue is empty (R186). -/
theorem hostRead_head_of_empty {s : State} (hq : s.host.cplq = []) {off : Nat} (hlo : 0x21 ≤ off) (hhi : off ≤ 0x29) :
    hostRead s off = 0 := by
  interval_cases off <;> simp only [hostRead, headByte_of_empty hq, ite_self]

/-- The C locations show the head of the completion queue, field by field (R186). -/
theorem hostRead_head_of_cons {s : State} (h : s.pins.resetLow = false) {d : Completion} {more : List Completion}
    (hq : s.host.cplq = d :: more) :
    [0x21, 0x22, 0x23, 0x24, 0x25, 0x26, 0x27, 0x28, 0x29].map (hostRead s) =
      [BitVec.ofNat 8 d.tag, d.res.status.code, BitVec.ofNat 8 d.res.len,
        d.res.seq.extractLsb' 24 8, d.res.seq.extractLsb' 16 8, d.res.seq.extractLsb' 8 8,
        d.res.seq.extractLsb' 0 8, BitVec.ofNat 8 d.res.count, d.res.flags] := by
  simp only [List.map_cons, List.map_nil, hostRead, h, Bool.false_eq_true, if_false, headByte_of_cons hq, byteOf]

/-- Settles O24: CPOP is `popCompletion` while RESET# is high, and the registers are read off the state it leaves. -/
theorem cpopRemovesTheHead : Obligations.CpopRemovesTheHead := by
  intro v s hr
  rw [exec_cpop_of_resetHigh hr]
  refine ⟨fun hq => by rw [popCompletion_of_empty hq], fun c rest hq => ?_⟩
  rw [popCompletion_of_cons hq]
  refine ⟨rfl, fun t ht => ?_⟩
  have htr : t.pins.resetLow = false := by cases ht; exact hr
  have htq : t.host.cplq = rest := by cases ht; rfl
  refine ⟨?_, ?_, fun hempty off hlo hhi => hostRead_head_of_empty (htq.trans hempty) hlo hhi,
    fun d more hnext => hostRead_head_of_cons htr (htq.trans hnext)⟩
  · rw [hostRead_clevel hr, hq, List.length_cons]
  · rw [hostRead_clevel htr, htq]

/-! ### INT# (R192) -/

/-- Two words share a set bit exactly if their conjunction is not zero. -/
theorem and_ne_zero_iff_exists_common_bit {w : Nat} (x y : BitVec w) :
    x &&& y ≠ 0 ↔ ∃ i : Nat, x.getLsbD i = true ∧ y.getLsbD i = true := by
  constructor
  · intro hne
    by_contra hnone
    refine hne (BitVec.eq_of_getLsbD_eq fun i _ => ?_)
    simpa using fun hx hy => hnone ⟨i, hx, hy⟩
  · rintro ⟨i, hx, hy⟩ hzero
    have hbit : (x &&& y).getLsbD i = true := by rw [BitVec.getLsbD_and, hx, hy]; rfl
    simp [hzero] at hbit

theorem intLow_eq_false_of_resetLow {s : State} (h : s.pins.resetLow = true) : intLow s = false := by
  simp only [intLow, h, Bool.not_true, Bool.false_and]

/-- With RESET# high INT# is the disjunction of its two inputs. -/
theorem intLow_iff_of_resetHigh {s : State} (h : s.pins.resetLow = false) :
    intLow s = true ↔ (s.host.cplq ≠ [] ∧ s.ctl.cinten = true) ∨ s.alert.flags &&& s.alert.mask ≠ 0 := by
  simp only [intLow, h, Bool.not_false, Bool.true_and, Bool.or_eq_true, Bool.and_eq_true, Bool.not_eq_true',
    List.isEmpty_eq_false_iff, bne_iff_ne, ne_eq, and_comm]

/-- A reset clears CINTEN, every flag and the mask, so it leaves INT# without an input. -/
theorem intLow_cleared (s : State) : intLow (cleared s) = false := by
  have hcinten : (cleared s).ctl.cinten = false := rfl
  have hflags : (cleared s).alert.flags = 0 := rfl
  simp [intLow, hcinten, hflags]

/-- Settles O30: the conjunction of ALERT and ALERTMASK in `intLow` is read bit by bit. -/
theorem interruptLineFollowsItsInputs : Obligations.InterruptLineFollowsItsInputs := by
  intro s
  refine ⟨fun hr => ?_, intLow_eq_false_of_resetLow, intLow_cleared s⟩
  rw [intLow_iff_of_resetHigh hr, and_ne_zero_iff_exists_common_bit]

end Sys2Proof.Machine
end

