-- ==== Sys2Proof/Proofs/Events.lean ====
section
/-! What an accepted command comes to: one case per kind of command, so that what every step keeps is shown case by case. -/

namespace Sys2Proof.Machine

/-! ### Commands while RESET# is asserted (R87, R195, R196) -/

theorem ifHigh_of_resetLow {s u v : State} (h : s.pins.resetLow = true) :
    (.next (if s.pins.resetLow = true then u else v) : Out) = .next u :=
  congrArg Host.Outcome.next (if_pos h)

theorem exec_of_resetLow {c : Instr} {s : State} (hr : s.pins.resetLow = true) (hp : ∀ a m, c ≠ .powerOnReset a m)
    (hq : ∀ a m, c ≠ .resetRelease a m) : exec c s = .next { s with pins := heldPins c s.pins } := by
  cases c
  case powerOnReset a m => exact absurd rfl (hp a m)
  case resetRelease a m => exact absurd rfl (hq a m)
  all_goals exact ifHigh_of_resetLow hr

/-- Settles O9: every command but the two is taken as `takeEvent` or `takeRead` takes it. -/
theorem heldInResetNothingHappens : Obligations.HeldInResetNothingHappens :=
  fun _ _ hr hp hq => exec_of_resetLow hr hp hq

/-! ### Commands while RESET# is high -/

/-- `t` is what command `c`, which is no reset pin's, makes of `s` while RESET# is high. -/
inductive Event (s : State) : Instr → State → Prop
  | submits (c : Instr) (f : ArgRegs → ArgRegs) : Event s c (submitArgs s f)
  | busWrites (c : Instr) (x : WriteXfer) : Event s c (busWrite s x)
  | busReads (c : Instr) (x : ReadXfer) : Event s c (busRead s x)
  | stalls : Event s .transferStallExpiry (stallExpiry s)
  | lapses : Event s .sessionLapse (sessionLapse s)
  | grants : Event s .arbiterGrant (arbiterGrant s)
  | resumes : Event s .waitSpaceResume (waitSpaceResume s)
  | programDone : Event s .programDone (programDone s)
  | programExpires : Event s .programDeadlineExpiry (programExpires s)
  | readDone : Event s .readDone (readDone s)
  | eraseDone : Event s .eraseDone (eraseDone s)
  | eraseExpires : Event s .eraseDeadlineExpiry (eraseExpires s)
  | idleExpires : Event s .batchIdleExpiry (batchIdleExpires s)
  | walks : Event s .reclaimWalkStep (reclaimWalkStep s)
  | finishes : Event s .reclaimFinishStep (settleRefused 8 (reclaimFinishStep s))
  | readsBuffer : Event s .bufdataRead (readBufData s)
  | readsDircnt : Event s .dircntLowRead (readDircntLow s)
  | clearsAlerts (c : Instr) (v : Byte) (h : c = .alertWrite v ∨ c = .registerWrite 0x04 v) : Event s c (clearAlerts s v)
  | writesControl (c : Instr) (v : Byte) (h : controlWritten c = some v) : Event s c (writeControl s v)
  | writes (c : Instr) (off : Nat) (v : Byte) (h4 : off ≠ 0x04) (h6 : off ≠ 0x06) : Event s c (hostWrite s off v)
  | powerWarns : Event s .pfwAssert (powerWarning s)
  | powerGood : Event s .pfwDeassert (powerGood s)
  | recovers : Event s .recoveryTimerExpiry (recoveryExpires s)

/-- `t` is what command `c` makes of `s`. -/
inductive Runs (s : State) : Instr → State → Prop
  | held (c : Instr) (h : s.pins.resetLow = true) : Runs s c { s with pins := heldPins c s.pins }
  | event (c : Instr) (t : State) (h : s.pins.resetLow = false) (e : Event s c t) : Runs s c t
  | powerOn (amount : Bool) (madr : BitVec 2) : Runs s (.powerOnReset amount madr) (powerOn s amount madr)
  | resetLow (h : s.pins.resetLow = false) : Runs s .resetAssert (resetPinLow s)
  | resetHigh (amount : Bool) (madr : BitVec 2) : Runs s (.resetRelease amount madr) (resetPinHigh s amount madr)

theorem event_registerWrite (s : State) (off : BitVec 6) (v : Byte) :
    Event s (.registerWrite off v) (hostWrite s off.toNat v) := by
  by_cases h4 : off = 0x04
  · subst h4; exact .clearsAlerts _ v (.inr rfl)
  by_cases h6 : off = 0x06
  · subst h6; exact .writesControl _ v rfl
  exact .writes _ _ v (fun h => h4 (BitVec.eq_of_toNat_eq h)) (fun h => h6 (BitVec.eq_of_toNat_eq h))

theorem event_of_high {c : Instr} {s t u v : State} (hr : s.pins.resetLow = false)
    (h : (.next (if s.pins.resetLow = true then u else v) : Out) = .next t) (e : Event s c v) : Event s c t := by
  rw [hr] at h
  injection h with h
  exact h ▸ e

theorem event_of_exec {c : Instr} {s t : State} (hr : s.pins.resetLow = false) (hp : ∀ a m, c ≠ .powerOnReset a m)
    (hq : ∀ a m, c ≠ .resetRelease a m) (ha : c ≠ .resetAssert) (h : exec c s = .next t) : Event s c t := by
  cases c with
  | put a => cases a with
    | host => exact event_of_high hr h (.submits _ _)
    | mgmt => exact event_of_high hr h (.busWrites _ _)
  | delete a => cases a with
    | host => exact event_of_high hr h (.submits _ _)
    | mgmt => exact event_of_high hr h (.busWrites _ _)
  | get a => cases a with
    | host => exact event_of_high hr h (.submits _ _)
    | mgmt => exact event_of_high hr h (.busWrites _ _)
  | stat a => cases a with
    | host => exact event_of_high hr h (.submits _ _)
    | mgmt => exact event_of_high hr h (.busWrites _ _)
  | list a => cases a with
    | host => exact event_of_high hr h (.submits _ _)
    | mgmt => exact event_of_high hr h (.busWrites _ _)
  | batchOpen a => cases a with
    | host => exact event_of_high hr h (.submits _ _)
    | mgmt => exact event_of_high hr h (.busWrites _ _)
  | batchCommit a => cases a with
    | host => exact event_of_high hr h (.submits _ _)
    | mgmt => exact event_of_high hr h (.busWrites _ _)
  | batchAbort a => cases a with
    | host => exact event_of_high hr h (.submits _ _)
    | mgmt => exact event_of_high hr h (.busWrites _ _)
  | freeze => exact event_of_high hr h (.busWrites _ _)
  | mount => exact event_of_high hr h (.submits _ _)
  | unmount => exact event_of_high hr h (.submits _ _)
  | format => exact event_of_high hr h (.submits _ _)
  | reclaim => exact event_of_high hr h (.submits _ _)
  | submitBadCommand => exact event_of_high hr h (.submits _ _)
  | openSession => exact event_of_high hr h (.busWrites _ _)
  | closeSession => exact event_of_high hr h (.busWrites _ _)
  | status => exact event_of_high hr h (.busWrites _ _)
  | segment => exact event_of_high hr h (.busWrites _ _)
  | mgmtFrameRefused x => exact event_of_high hr h (.busWrites _ x)
  | slotNak x => exact event_of_high hr h (.busWrites _ x)
  | mgmtReadTransfer x => exact event_of_high hr h (.busReads _ x)
  | transferStallExpiry => exact event_of_high hr h .stalls
  | sessionLapse => exact event_of_high hr h .lapses
  | arbiterGrant => exact event_of_high hr h .grants
  | waitSpaceResume => exact event_of_high hr h .resumes
  | programDone => exact event_of_high hr h .programDone
  | programDeadlineExpiry => exact event_of_high hr h .programExpires
  | readDone => exact event_of_high hr h .readDone
  | eraseDone => exact event_of_high hr h .eraseDone
  | eraseDeadlineExpiry => exact event_of_high hr h .eraseExpires
  | batchIdleExpiry => exact event_of_high hr h .idleExpires
  | reclaimWalkStep => exact event_of_high hr h .walks
  | reclaimFinishStep => exact event_of_high hr h .finishes
  | abort v => exact event_of_high hr h (.writes _ 0x2C v (by decide) (by decide))
  | cpop v => exact event_of_high hr h (.writes _ 0x2A v (by decide) (by decide))
  | bufdataRead => exact event_of_high hr h .readsBuffer
  | bufdataWrite v => exact event_of_high hr h (.writes _ 0x32 v (by decide) (by decide))
  | dircntLowRead => exact event_of_high hr h .readsDircnt
  | alertWrite v => exact event_of_high hr h (.clearsAlerts _ v (.inl rfl))
  | alertmaskWrite v => exact event_of_high hr h (.writes _ 0x05 v (by decide) (by decide))
  | cintenWrite v => exact event_of_high hr h (.writesControl _ _ rfl)
  | bgrenWrite v => exact event_of_high hr h (.writesControl _ _ rfl)
  | mgmtenClear v => exact event_of_high hr h (.writesControl _ _ rfl)
  | mgmtenSet v => exact event_of_high hr h (.writesControl _ _ rfl)
  | srst v => exact event_of_high hr h (.writesControl _ _ rfl)
  | recthrWrite v => exact event_of_high hr h (.writes _ 0x07 v (by decide) (by decide))
  | hostwtWrite v => exact event_of_high hr h (.writes _ 0x08 v (by decide) (by decide))
  | registerWrite off v => exact event_of_high hr h (event_registerWrite s off v)
  | powerOnReset a m => exact absurd rfl (hp a m)
  | resetAssert => exact absurd rfl ha
  | resetRelease a m => exact absurd rfl (hq a m)
  | pfwAssert => exact event_of_high hr h .powerWarns
  | pfwDeassert => exact event_of_high hr h .powerGood
  | recoveryTimerExpiry => exact event_of_high hr h .recovers

/-- What a command can do. -/
theorem runs_of_exec {c : Instr} {s t : State} (h : exec c s = .next t) : Runs s c t := by
  by_cases hp : ∃ a m, c = .powerOnReset a m
  · obtain ⟨a, m, rfl⟩ := hp
    injection h with h
    exact h ▸ .powerOn a m
  by_cases hq : ∃ a m, c = .resetRelease a m
  · obtain ⟨a, m, rfl⟩ := hq
    injection h with h
    exact h ▸ .resetHigh a m
  have hp' : ∀ a m, c ≠ .powerOnReset a m := fun a m e => hp ⟨a, m, e⟩
  have hq' : ∀ a m, c ≠ .resetRelease a m := fun a m e => hq ⟨a, m, e⟩
  cases hr : s.pins.resetLow with
  | true =>
    rw [exec_of_resetLow hr hp' hq'] at h
    injection h with h
    exact h ▸ .held c hr
  | false =>
    by_cases ha : c = .resetAssert
    · subst ha
      injection h with h
      exact h ▸ .resetLow hr
    · exact .event c t hr (event_of_exec hr hp' hq' ha h)

theorem step_of_cons {s : State} {c : Instr} {rest : List Instr} (h : s.pending = c :: rest) :
    step s = exec c { s with pending := rest } := by
  simp only [step, h]

theorem step_of_nil {s : State} (h : s.pending = []) : step s = .next s := by
  simp only [step, h]

/-- Settles O1. -/
theorem stepRunsFrontCommand : Obligations.StepRunsFrontCommand :=
  ⟨fun _ _ _ h => step_of_cons h, fun _ h => step_of_nil h⟩

/-- A step idles or runs a command with the rest of the queue. -/
theorem runs_of_step {s t : State} (h : step s = .next t) : t = s ∨ ∃ c rest, Runs { s with pending := rest } c t := by
  cases hq : s.pending with
  | nil =>
    rw [step_of_nil hq] at h
    injection h with h
    exact .inl h.symm
  | cons c rest => exact .inr ⟨c, rest, runs_of_exec ((step_of_cons hq).symm.trans h)⟩

end Sys2Proof.Machine
end

