-- ==== Sys2Proof/Proofs/StepLaws.lean ====
section
/-! What every step keeps (O3–O8, O60): one lemma per kind of law over the cases of a command. -/

namespace Sys2Proof.Machine

/-! ### The laws of the stores, the tables, the tags, the settings and the idle timer -/

/-- Each law that holds of `s` holds of `t`. -/
structure LawsStand (s t : State) : Prop where
  array : ArrayOk s.array → ArrayOk t.array
  staging : StagingOk s.staging → StagingOk t.staging
  dir : DirOk s.dir → DirOk t.dir
  freezes : FreezeOk s.freezes → FreezeOk t.freezes
  commits : CommitOk s.commits → CommitOk t.commits
  settings : SettingsOk s.ctl → SettingsOk t.ctl
  tags : tagsOk s → tagsOk t
  idle : idleOk s → idleOk t

theorem LawsStand.refl (s : State) : LawsStand s s := ⟨id, id, id, id, id, id, id, id⟩

theorem LawsStand.trans {s t u : State} (h : LawsStand s t) (k : LawsStand t u) : LawsStand s u :=
  ⟨k.array ∘ h.array, k.staging ∘ h.staging, k.dir ∘ h.dir, k.freezes ∘ h.freezes, k.commits ∘ h.commits,
    k.settings ∘ h.settings, k.tags ∘ h.tags, k.idle ∘ h.idle⟩

/-- An operation that leaves the array alone and keeps the other laws. -/
theorem LawsStand.of_kept {s t : State} (h : LawsKept s t) : LawsStand s t := by
  obtain ⟨harray, -, hdir, hfreezes, hcommits, hstaging, hctl, htags, hidle⟩ := h
  exact ⟨fun k => harray ▸ k, hstaging, hdir, hfreezes, hcommits, hctl, htags, hidle⟩

/-- A unit of the store engine. -/
theorem LawsStand.of_engine {s t : State} (h : EngineKept s t) (ho : OrderKept s t) (ht : TagsKept s t) :
    LawsStand s t := by
  obtain ⟨harray, -, hctl, -⟩ := h
  obtain ⟨hdir, hfreezes, hcommits, hstaging⟩ := ho
  exact ⟨fun k => harray ▸ k, hstaging, hdir, hfreezes, hcommits, fun k => hctl ▸ k, ht.1, ht.2⟩

/-- A change of the array, the free values, the pins and the straps alone. -/
theorem LawsStand.of_array {s t : State} (ha : ArrayOk s.array → ArrayOk t.array) (h1 : t.staging = s.staging)
    (h2 : t.dir = s.dir) (h3 : t.freezes = s.freezes) (h4 : t.commits = s.commits) (h5 : t.ctl = s.ctl)
    (h6 : t.host = s.host) (h7 : t.inflight = s.inflight) (h8 : t.batch = s.batch) (h9 : t.mgmt = s.mgmt) :
    LawsStand s t := by
  refine ⟨ha, ?_, ?_, ?_, ?_, ?_, ?_, ?_⟩
  all_goals simp only [tagsOk, idleOk, h1, h2, h3, h4, h5, h6, h7, h8, h9, imp_self]

/-- `t` is `s` but for the array and the count of free values drawn. -/
def ArrayWritten (s t : State) : Prop := ∃ m n, t = { s with array := m, free := n }

theorem ArrayWritten.setLine (s : State) (l : Loc) (v : Line) : ArrayWritten s (Machine.setLine s l v) := by
  unfold Machine.setLine
  split
  · exact ⟨_, _, rfl⟩
  · exact ⟨_, _, rfl⟩

theorem ArrayWritten.trans {s t u : State} (h : ArrayWritten s t) (k : ArrayWritten t u) : ArrayWritten s u := by
  obtain ⟨m, n, rfl⟩ := h
  obtain ⟨m', n', rfl⟩ := k
  exact ⟨m', n', rfl⟩

theorem ArrayWritten.tear (n : Nat) (mask : BitVec 256) (ks : List Nat) (s : State) :
    ArrayWritten s (ks.foldl (fun t k => if mask.getLsbD k then Machine.setLine t ⟨n, k⟩ .torn else t) s) := by
  induction ks generalizing s with
  | nil => exact ⟨_, _, rfl⟩
  | cons k ks ih =>
    refine .trans ?_ (ih _)
    dsimp only
    split
    · exact .setLine s _ _
    · exact ⟨_, _, rfl⟩

theorem ArrayWritten.partialErase (s : State) (n : Nat) : ArrayWritten s (Machine.partialErase s n) := by
  have he : ArrayWritten s (eraseSegment s n) := ⟨_, _, rfl⟩
  obtain ⟨m, k, hm⟩ := he.trans (.tear n (Config.freeErase s.free) (List.range 256) _)
  exact ⟨m, s.free + 1, by simp only [Machine.partialErase, tearLines, hm]⟩

theorem ArrayWritten.interrupt (s : State) : ArrayWritten s (Machine.interrupt s) := by
  unfold Machine.interrupt
  split
  · exact .setLine s _ _
  · exact .partialErase s _
  · exact ⟨_, _, rfl⟩

theorem LawsStand.of_written {s t : State} (h : ArrayWritten s t) (ha : ArrayOk s.array → ArrayOk t.array) :
    LawsStand s t := by
  obtain ⟨m, n, rfl⟩ := h
  exact .of_array ha rfl rfl rfl rfl rfl rfl rfl rfl rfl

theorem arrayWf_interrupt (s : State) (h : arrayWf s) : arrayWf (interrupt s) := by
  unfold interrupt
  split
  · exact arrayWf_setLine s _ _ h
  · exact arrayWf_partialErase s _ h
  · exact h

theorem LawsStand.programDone (s : State) : LawsStand s (Machine.programDone s) := by
  unfold Machine.programDone
  split
  · exact .trans (.of_written (.setLine s _ _) (arrayWf_setLine s _ _)) (.of_kept (laws_opEnds _ _ _))
  · exact .refl s

theorem LawsStand.programExpires (s : State) : LawsStand s (Machine.programExpires s) := by
  unfold Machine.programExpires
  split
  · exact .trans (.of_written (.setLine s _ _) (arrayWf_setLine s _ _)) (.of_kept (laws_opEnds _ _ _))
  · exact .refl s

theorem LawsStand.readDone (s : State) : LawsStand s (Machine.readDone s) := by
  unfold Machine.readDone
  split
  · exact .of_kept (laws_opEnds _ _ _)
  · exact .refl s

theorem LawsStand.eraseDone (s : State) : LawsStand s (Machine.eraseDone s) := by
  unfold Machine.eraseDone
  split
  · exact .trans (.of_written ⟨_, _, rfl⟩ (arrayWf_eraseSegment s _)) (.of_kept (laws_opEnds _ _ _))
  · exact .refl s

theorem LawsStand.eraseExpires (s : State) : LawsStand s (Machine.eraseExpires s) := by
  unfold Machine.eraseExpires
  split
  · exact .trans (.of_written (.partialErase s _) (arrayWf_partialErase s _)) (.of_kept (laws_opEnds _ _ _))
  · exact .refl s

theorem Event.laws {s t : State} {c : Instr} (h : Event s c t) : LawsStand s t := by
  cases h with
  | submits _ f => exact .of_kept (laws_submitArgs s f)
  | busWrites _ x => exact .of_kept (laws_busWrite s x)
  | busReads _ x => exact .of_kept (laws_busRead s x)
  | stalls => exact .of_kept (laws_stallExpiry s)
  | lapses => exact .of_kept (laws_sessionLapse s)
  | grants => exact .of_engine (kept_arbiterGrant s) (order_arbiterGrant s) (tags_arbiterGrant s)
  | resumes => exact .of_engine (kept_waitSpaceResume s) (order_waitSpaceResume s) (tags_waitSpaceResume s)
  | programDone => exact .programDone s
  | programExpires => exact .programExpires s
  | readDone => exact .readDone s
  | eraseDone => exact .eraseDone s
  | eraseExpires => exact .eraseExpires s
  | idleExpires => exact .of_kept (laws_batchIdleExpires s)
  | walks => exact .of_engine (kept_reclaimWalkStep s) (order_reclaimWalkStep s) (tags_reclaimWalkStep s)
  | finishes =>
    exact .trans (.of_engine (kept_reclaimFinishStep s) (order_reclaimFinishStep s) (tags_reclaimFinishStep s))
      (.of_engine (kept_settleRefused 8 _) (order_settleRefused 8 _) (tags_settleRefused 8 _))
  | readsBuffer => exact .of_kept (laws_readBufData s)
  | readsDircnt => exact .of_kept (laws_readDircntLow s)
  | clearsAlerts _ v => exact .of_kept (laws_clearAlerts s v)
  | writesControl _ v => exact .of_kept (laws_writeControl s v)
  | writes _ off v => exact .of_kept (laws_hostWrite s off v)
  | powerWarns => exact .of_kept (laws_powerWarning s)
  | powerGood => exact .of_kept (laws_powerGood s)
  | recovers => exact .of_kept (laws_recoveryExpires s)

/-- A reset interrupts the operation in progress and clears the volatile state. -/
theorem LawsStand.resetBegins (s : State) : LawsStand s (Machine.resetBegins s) :=
  .trans (.of_written (.interrupt s) (arrayWf_interrupt s)) (.of_kept (laws_clearVolatile _))

theorem LawsStand.powerOn (s : State) (amount : Bool) (madr : BitVec 2) : LawsStand s (Machine.powerOn s amount madr) := by
  have hb : LawsStand s (latchStraps (Machine.resetBegins s) amount madr) :=
    .trans (.resetBegins s) (.of_array id rfl rfl rfl rfl rfl rfl rfl rfl rfl)
  unfold Machine.powerOn; dsimp only
  split
  · exact hb
  · exact hb.trans (.of_kept (laws_leaveReset _))

theorem LawsStand.resetPinLow (s : State) : LawsStand s (Machine.resetPinLow s) := by
  unfold Machine.resetPinLow
  split
  · exact .refl s
  · exact .trans (.resetBegins s) (.of_array id rfl rfl rfl rfl rfl rfl rfl rfl rfl)

theorem LawsStand.resetPinHigh (s : State) (amount : Bool) (madr : BitVec 2) :
    LawsStand s (Machine.resetPinHigh s amount madr) := by
  unfold Machine.resetPinHigh
  split
  · exact .trans (.of_array id rfl rfl rfl rfl rfl rfl rfl rfl rfl) (.of_kept (laws_leaveReset _))
  · exact .refl s

theorem Runs.laws {s t : State} {c : Instr} (h : Runs s c t) : LawsStand s t := by
  cases h with
  | held => exact .of_array id rfl rfl rfl rfl rfl rfl rfl rfl rfl
  | event _ _ _ e => exact e.laws
  | powerOn a m => exact .powerOn s a m
  | resetLow => exact .resetPinLow s
  | resetHigh a m => exact .resetPinHigh s a m

/-- A step keeps what every command keeps and the waiting commands have no part in. -/
theorem step_keeps (P : State → Prop) (hp : ∀ s rest, P s → P { s with pending := rest })
    (hr : ∀ s c t, P s → Runs s c t → P t) {s t : State} (h : P s) (hs : step s = .next t) : P t := by
  rcases runs_of_step hs with rfl | ⟨c, rest, r⟩
  · exact h
  · exact hr _ c t (hp s rest h) r

/-- Settles O3. -/
theorem stepKeepsStoresCanonical : Obligations.StepKeepsStoresCanonical := fun _ _ =>
  step_keeps storesOk (fun _ _ h => h) fun _ _ _ h r => ⟨r.laws.array h.1, r.laws.staging h.2⟩

/-- Settles O5. -/
theorem stepKeepsTagLaw : Obligations.StepKeepsTagLaw := fun _ _ =>
  step_keeps tagsOk (fun _ _ h => h) fun _ _ _ h r => r.laws.tags h

/-- Settles O6. -/
theorem stepKeepsSettingRanges : Obligations.StepKeepsSettingRanges := fun _ _ =>
  step_keeps (fun s => SettingsOk s.ctl) (fun _ _ h => h) fun _ _ _ h r => r.laws.settings h

/-! ### The limits of the tables (R48, R60, R110, R125) and RESET# (R87) -/

/-- The laws of the tables do not read the array. -/
theorem ArrayWritten.tables {s t : State} (h : ArrayWritten s t) (k : tablesLawful s) : tablesLawful t := by
  obtain ⟨m, n, rfl⟩ := h
  exact k

theorem tables_programDone {s : State} (h : tablesLawful s) : tablesLawful (programDone s) := by
  unfold programDone
  split
  · exact tables_opEnds ((ArrayWritten.setLine s _ _).tables h) _ _
  · exact h

theorem tables_programExpires {s : State} (h : tablesLawful s) : tablesLawful (programExpires s) := by
  unfold programExpires
  split
  · exact tables_opEnds ((ArrayWritten.setLine s _ _).tables h) _ _
  · exact h

theorem tables_readDone {s : State} (h : tablesLawful s) : tablesLawful (readDone s) := by
  unfold readDone
  split
  · exact tables_opEnds h _ _
  · exact h

theorem tables_eraseDone {s : State} (h : tablesLawful s) : tablesLawful (eraseDone s) := by
  unfold eraseDone
  split
  · exact tables_opEnds (s := eraseSegment s _) h _ _
  · exact h

theorem tables_eraseExpires {s : State} (h : tablesLawful s) : tablesLawful (eraseExpires s) := by
  unfold eraseExpires
  split
  · exact tables_opEnds ((ArrayWritten.partialErase s _).tables h) _ _
  · exact h

theorem Event.tables {s t : State} {c : Instr} (e : Event s c t) (hi : idleOk s) (h : tablesLawful s) : tablesLawful t := by
  cases e with
  | submits _ f => exact (limits_submitArgs s f).keeps h
  | busWrites _ x => exact (limits_busWrite s x).keeps h
  | busReads _ x => exact (limits_busRead s x).keeps h
  | stalls => exact (limits_stallExpiry s).keeps h
  | lapses => exact (limits_sessionLapse s).keeps h
  | grants => exact tables_arbiterGrant h
  | resumes => exact tables_waitSpaceResume h
  | programDone => exact tables_programDone h
  | programExpires => exact tables_programExpires h
  | readDone => exact tables_readDone h
  | eraseDone => exact tables_eraseDone h
  | eraseExpires => exact tables_eraseExpires h
  | idleExpires => exact tables_batchIdleExpires h hi
  | walks => exact (limits_reclaimWalkStep s).keeps h
  | finishes => exact tables_settleRefused 8 ((limits_reclaimFinishStep s).keeps h)
  | readsBuffer => exact (limits_readBufData s).keeps h
  | readsDircnt => exact (limits_readDircntLow s).keeps h
  | clearsAlerts _ v => exact (limits_clearAlerts s v).keeps h
  | writesControl _ v => exact tables_writeControl h v
  | writes _ off v => exact tables_hostWrite h off v
  | powerWarns => exact tables_powerWarning h
  | powerGood => exact (limits_powerGood s).keeps h
  | recovers => exact tables_recoveryExpires h

theorem Event.resetLow {s t : State} {c : Instr} (e : Event s c t) : t.pins.resetLow = s.pins.resetLow := by
  cases e
  all_goals simp

theorem resetHeld_of_high {s : State} (h : s.pins.resetLow = false) : resetHeld s := fun hl => by
  rw [h] at hl; cases hl

theorem resetHeld_powerOn (s : State) (amount : Bool) (madr : BitVec 2) : resetHeld (powerOn s amount madr) := by
  unfold powerOn; dsimp only
  split
  · exact fun _ => ⟨rfl, rfl⟩
  · rename_i hr
    refine resetHeld_of_high ?_
    have hl : (latchStraps (resetBegins s) amount madr).pins.resetLow = (interrupt s).pins.resetLow := rfl
    simp only [resetLow_leaveReset, hl, resetLow_interrupt, Bool.eq_false_iff.2 hr]

theorem resetHeld_resetPinHigh (s : State) (amount : Bool) (madr : BitVec 2) :
    resetHeld (resetPinHigh s amount madr) := by
  unfold resetPinHigh
  split
  · exact resetHeld_of_high (resetLow_leaveReset _)
  · rename_i hr
    exact resetHeld_of_high (Bool.eq_false_iff.2 hr)

theorem Runs.resetHeld {s t : State} {c : Instr} (r : Runs s c t) (h : Machine.resetHeld s) : Machine.resetHeld t := by
  cases r with
  | held _ hl => exact fun _ => h hl
  | event _ _ hr e => exact resetHeld_of_high (e.resetLow.trans hr)
  | powerOn a m => exact resetHeld_powerOn s a m
  | resetLow hr =>
    unfold resetPinLow
    rw [if_neg (by simp [hr])]
    exact fun _ => ⟨rfl, rfl⟩
  | resetHigh a m => exact resetHeld_resetPinHigh s a m

theorem Runs.tables {s t : State} {c : Instr} (r : Runs s c t) (hi : idleOk s) (hr : Machine.resetHeld s)
    (h : tablesLawful s) : tablesLawful t := by
  cases r with
  | held => exact h
  | event _ _ _ e => exact e.tables hi h
  | powerOn a m => exact tables_powerOn s a m
  | resetLow => exact tables_resetPinLow h
  | resetHigh a m => exact tables_resetPinHigh h hr a m

/-- Settles O4. -/
theorem stepKeepsTableOrder : Obligations.StepKeepsTableOrder := by
  refine ⟨fun s t => step_keeps tablesOk (fun _ _ h => h) fun _ _ _ h r =>
    ⟨r.laws.dir h.1, r.laws.freezes h.2.1, r.laws.commits h.2.2⟩, fun s t hi hr h hs => ?_⟩
  exact (step_keeps (fun s => idleOk s ∧ resetHeld s ∧ tablesLawful s) (fun _ _ h => h)
    (fun _ _ _ h r => ⟨r.laws.idle h.1, r.resetHeld h.2.1, r.tables h.1 h.2.1 h.2.2⟩) ⟨hi, hr, h⟩ hs).2

/-! ### The segment table (R25, R39) -/

/-- The laws of the segment table do not read the array. -/
theorem ArrayWritten.segments {s t : State} (h : ArrayWritten s t) (k : segmentsLawful s) : segmentsLawful t := by
  obtain ⟨m, n, rfl⟩ := h
  exact k

theorem segments_programDone {s : State} (h : segmentsLawful s) : segmentsLawful (programDone s) := by
  unfold programDone
  split
  · exact segments_opEnds ((ArrayWritten.setLine s _ _).segments h) _ _
  · exact h

theorem segments_programExpires {s : State} (h : segmentsLawful s) : segmentsLawful (programExpires s) := by
  unfold programExpires
  split
  · exact segments_opEnds ((ArrayWritten.setLine s _ _).segments h) _ _
  · exact h

theorem segments_readDone {s : State} (h : segmentsLawful s) : segmentsLawful (readDone s) := by
  unfold readDone
  split
  · exact segments_opEnds h _ _
  · exact h

theorem segments_eraseDone {s : State} (h : segmentsLawful s) : segmentsLawful (eraseDone s) := by
  unfold eraseDone
  split
  · exact segments_opEnds (s := eraseSegment s _) h _ _
  · exact h

theorem segments_eraseExpires {s : State} (h : segmentsLawful s) : segmentsLawful (eraseExpires s) := by
  unfold eraseExpires
  split
  · exact segments_opEnds ((ArrayWritten.partialErase s _).segments h) _ _
  · exact h

theorem Event.segments {s t : State} {c : Instr} (e : Event s c t) (h : segmentsLawful s) : segmentsLawful t := by
  have stay : ∀ t, From s.sm.table t.sm.table → Stays s t → segmentsLawful t := fun t hf hw => segments_stay h hf hw
  cases e with
  | submits _ f => exact stay _ (from_submitArgs s f (From.refl _)) (work_submitArgs s f (within_self s))
  | busWrites _ x => exact stay _ (from_busWrite s x (From.refl _)) (work_busWrite s x (within_self s))
  | busReads _ x => exact stay _ (from_busRead s x (From.refl _)) (work_busRead s x (within_self s))
  | stalls => exact stay _ (from_stallExpiry s (From.refl _)) (work_stallExpiry s (within_self s))
  | lapses => exact stay _ (from_sessionLapse s (From.refl _)) (work_sessionLapse s (within_self s))
  | grants => exact segments_arbiterGrant h
  | resumes => exact segments_waitSpaceResume h
  | programDone => exact segments_programDone h
  | programExpires => exact segments_programExpires h
  | readDone => exact segments_readDone h
  | eraseDone => exact segments_eraseDone h
  | eraseExpires => exact segments_eraseExpires h
  | idleExpires => exact stay _ (from_batchIdleExpires s (From.refl _)) (work_batchIdleExpires s (within_self s))
  | walks => exact segments_reclaimWalkStep h
  | finishes => exact segments_settleRefused 8 (segments_reclaimFinishStep h)
  | readsBuffer => exact h
  | readsDircnt => exact h
  | clearsAlerts => exact h
  | writesControl _ v => exact segments_writeControl h v
  | writes _ off v => exact segments_hostWrite h off v
  | powerWarns => exact segments_powerWarning h
  | powerGood => exact stay _ (from_powerGood s (From.refl _)) (work_powerGood s (within_self s))
  | recovers => exact segments_recoveryExpires h

theorem Runs.segments {s t : State} {c : Instr} (r : Runs s c t) (h : segmentsLawful s) : segmentsLawful t := by
  cases r with
  | held => exact h
  | event _ _ _ e => exact e.segments h
  | powerOn a m => exact segments_powerOn s a m
  | resetLow => exact segments_resetPinLow h
  | resetHigh a m => exact segments_resetPinHigh h a m

/-! ### The alert flags (R191) and the DIRCNT holding byte (R180) -/

/-- A flag that is set stays set and the holding byte stands, unless the command clears the volatile state and the holding byte
with it. -/
def WindowStands (c : Instr) (s t : State) : Prop :=
  WindowKept s t ∨ (mayClear c s = true ∧ t.host.dircntHold = 0)

theorem WindowKept.of_engine {s t : State} (h : EngineKept s t) (hf : FlagsKept s t) : WindowKept s t := by
  obtain ⟨-, -, -, -, -, -, -, -, -, -, hhold, -⟩ := h
  exact ⟨hf, hhold⟩

theorem WindowKept.of_same {s t : State} (ha : t.alert = s.alert) (hh : t.host = s.host) : WindowKept s t :=
  ⟨fun _ hi => ha ▸ hi, by rw [hh]⟩

theorem WindowKept.trans {s t u : State} (h : WindowKept s t) (k : WindowKept t u) : WindowKept s u :=
  ⟨fun i hi => k.1 i (h.1 i hi), k.2.trans h.2⟩

theorem window_leaveReset (s : State) : WindowKept s (leaveReset s) := by
  unfold leaveReset; dsimp only
  repeat' split
  all_goals simp (maxDischargeDepth := 20) +contextual [WindowKept]

theorem takeRead_of_resetHigh {s : State} (h : s.pins.resetLow = false) (f : State → State) :
    takeRead s f = .next (f s) := by
  simp [takeRead, h]

theorem dircntHold_softReset (s : State) : (softReset s).host.dircntHold = 0 := (window_leaveReset _).2

/-- The end of an operation clears nothing unless a soft reset waits for it. -/
theorem window_opEnds (s : State) (loc : Loc) (rep : Report) :
    WindowKept s (opEnds s loc rep) ∨ (s.ctl.srst = true ∧ (opEnds s loc rep).host.dircntHold = 0) := by
  unfold opEnds; dsimp only
  split
  · rename_i hs
    exact .inr ⟨hs, dircntHold_softReset _⟩
  · exact .inl (.of_engine (by simp [EngineKept]) fun i hi => by simp [hi])

theorem window_requestSoftReset (s : State) :
    WindowKept s (requestSoftReset s) ∨ (s.seqr.isNone = true ∧ (requestSoftReset s).host.dircntHold = 0) := by
  unfold requestSoftReset; dsimp only
  split
  · rename_i hs
    exact .inr ⟨hs, dircntHold_softReset _⟩
  · exact .inl (.of_same rfl rfl)

/-- A CONTROL write clears nothing but with SRST and an IDLE sequencer (R86). -/
theorem window_writeControl (s : State) (v : Byte) :
    WindowKept s (writeControl s v)
    ∨ ((v.getLsbD 7 = true ∧ s.seqr.isNone = true) ∧ (writeControl s v).host.dircntHold = 0) := by
  have bits : ∀ u : State, WindowKept s u → u.seqr = s.seqr → v.getLsbD 7 = true →
      WindowKept s (requestSoftReset u)
      ∨ ((v.getLsbD 7 = true ∧ s.seqr.isNone = true) ∧ (requestSoftReset u).host.dircntHold = 0) := fun u hu hq h7 => by
    rcases window_requestSoftReset u with hw | ⟨hn, hz⟩
    · exact .inl (hu.trans hw)
    · exact .inr ⟨⟨h7, hq ▸ hn⟩, hz⟩
  have disabled : WindowKept s (portDisable { s with
      ctl.cinten := v.getLsbD 0, ctl.bgren := v.getLsbD 1, ctl.mgmten := v.getLsbD 2 }) := by
    have h := window_portDisable { s with
      ctl.cinten := v.getLsbD 0, ctl.bgren := v.getLsbD 1, ctl.mgmten := v.getLsbD 2 }
    exact h
  unfold writeControl; dsimp only
  split <;> split
  · rename_i h7
    exact bits _ disabled (close_portDisable _).1 ((Bool.and_eq_true _ _).mp h7).1
  · exact .inl disabled
  · rename_i h7
    exact bits _ (.of_same rfl rfl) rfl ((Bool.and_eq_true _ _).mp h7).1
  · exact .inl (.of_same rfl rfl)

theorem window_written {s t : State} (h : ArrayWritten s t) : WindowKept s t := by
  obtain ⟨m, n, rfl⟩ := h
  exact .of_same rfl rfl

/-- An array operation ends after its outcome has been written. -/
theorem windowStands_opEnds {s u : State} {c : Instr} (h : ArrayWritten s u) (hc : endsOperation c = true) (loc : Loc)
    (rep : Report) : WindowStands c s (opEnds u loc rep) := by
  rcases window_opEnds u loc rep with hw | ⟨hs, hz⟩
  · exact .inl ((window_written h).trans hw)
  · obtain ⟨m, n, rfl⟩ := h
    exact .inr ⟨by simp [mayClear, hc, show s.ctl.srst = true from hs], hz⟩

theorem WindowStands.refl (c : Instr) (s : State) : WindowStands c s s := .inl (.of_same rfl rfl)

theorem windowStands_programDone (s : State) : WindowStands .programDone s (programDone s) := by
  unfold programDone
  split
  · exact windowStands_opEnds (.setLine s _ _) rfl _ _
  · exact .refl _ s

theorem windowStands_programExpires (s : State) : WindowStands .programDeadlineExpiry s (programExpires s) := by
  unfold programExpires
  split
  · exact windowStands_opEnds (.setLine s _ _) rfl _ _
  · exact .refl _ s

theorem windowStands_readDone (s : State) : WindowStands .readDone s (readDone s) := by
  unfold readDone
  split
  · exact windowStands_opEnds ⟨_, _, rfl⟩ rfl _ _
  · exact .refl _ s

theorem windowStands_eraseDone (s : State) : WindowStands .eraseDone s (eraseDone s) := by
  unfold eraseDone
  split
  · exact windowStands_opEnds ⟨_, _, rfl⟩ rfl _ _
  · exact .refl _ s

theorem windowStands_eraseExpires (s : State) : WindowStands .eraseDeadlineExpiry s (eraseExpires s) := by
  unfold eraseExpires
  split
  · exact windowStands_opEnds (.partialErase s _) rfl _ _
  · exact .refl _ s

/-- A host write of a location other than ALERT and CONTROL. -/
theorem window_hostWrite {off : Nat} (h4 : off ≠ 0x04) (h6 : off ≠ 0x06) (s : State) (v : Byte) :
    WindowKept s (hostWrite s off v) := by
  unfold hostWrite
  split
  · exact absurd rfl h4
  · exact window_setMask s v
  · exact absurd rfl h6
  · exact window_setRecthr s v
  · exact window_setHostwt s v
  · exact window_submit s
  · exact window_popCompletion s
  · exact window_hostAbort s v
  · exact ⟨fun _ hi => hi, rfl⟩
  · exact ⟨fun _ hi => hi, rfl⟩
  · exact window_writeBufData s v
  · exact ⟨fun _ hi => hi, rfl⟩

/-- Every event but a read of DIRCNT low and an ALERT write. -/
theorem Event.window {s t : State} {c : Instr} (e : Event s c t) : WindowStands c s t
    ∨ (c = .dircntLowRead ∧ t = readDircntLow s)
    ∨ ∃ v, (c = .alertWrite v ∨ c = .registerWrite 0x04 v) ∧ t = clearAlerts s v := by
  cases e with
  | submits _ f => exact .inl (.inl (window_submitArgs s f))
  | busWrites _ x => exact .inl (.inl (window_busWrite s x))
  | busReads _ x => exact .inl (.inl (window_busRead s x))
  | stalls => exact .inl (.inl (window_stallExpiry s))
  | lapses => exact .inl (.inl (window_sessionLapse s))
  | grants => exact .inl (.inl (.of_engine (kept_arbiterGrant s) (flags_arbiterGrant s)))
  | resumes => exact .inl (.inl (.of_engine (kept_waitSpaceResume s) (flags_waitSpaceResume s)))
  | programDone => exact .inl (windowStands_programDone s)
  | programExpires => exact .inl (windowStands_programExpires s)
  | readDone => exact .inl (windowStands_readDone s)
  | eraseDone => exact .inl (windowStands_eraseDone s)
  | eraseExpires => exact .inl (windowStands_eraseExpires s)
  | idleExpires => exact .inl (.inl (window_batchIdleExpires s))
  | walks => exact .inl (.inl (.of_engine (kept_reclaimWalkStep s) (flags_reclaimWalkStep s)))
  | finishes =>
    exact .inl (.inl (.trans (.of_engine (kept_reclaimFinishStep s) (flags_reclaimFinishStep s))
      (.of_engine (kept_settleRefused 8 _) (flags_settleRefused 8 _))))
  | readsBuffer => exact .inl (.inl (window_readBufData s))
  | readsDircnt => exact .inr (.inl ⟨rfl, rfl⟩)
  | clearsAlerts _ v h => exact .inr (.inr ⟨v, h, rfl⟩)
  | writesControl _ v h =>
    rcases window_writeControl s v with hw | ⟨⟨h7, hn⟩, hz⟩
    · exact .inl (.inl hw)
    · exact .inl (.inr ⟨by simp [mayClear, h, h7, hn], hz⟩)
  | writes _ off v h4 h6 => exact .inl (.inl (window_hostWrite h4 h6 s v))
  | powerWarns => exact .inl (.inl (window_powerWarning s))
  | powerGood => exact .inl (.inl (window_powerGood s))
  | recovers => exact .inl (.inl (window_recoveryExpires s))

theorem dircntHold_powerOn (s : State) (amount : Bool) (madr : BitVec 2) : (powerOn s amount madr).host.dircntHold = 0 := by
  unfold powerOn; dsimp only
  split
  · rfl
  · exact (window_leaveReset _).2

theorem window_resetPinHigh (s : State) (amount : Bool) (madr : BitVec 2) :
    WindowKept s (resetPinHigh s amount madr) := by
  unfold resetPinHigh
  split
  · exact window_leaveReset (latchStraps { s with pins.resetLow := false } amount madr)
  · exact .of_same rfl rfl

/-- Every command but a read of DIRCNT low and an ALERT write. -/
theorem Runs.window {s t : State} {c : Instr} (r : Runs s c t) : WindowStands c s t
    ∨ (c = .dircntLowRead ∧ t = readDircntLow s)
    ∨ ∃ v, (c = .alertWrite v ∨ c = .registerWrite 0x04 v) ∧ t = clearAlerts s v := by
  cases r with
  | held => exact .inl (.inl (.of_same rfl rfl))
  | event _ _ _ e => exact e.window
  | powerOn a m => exact .inl (.inr ⟨rfl, dircntHold_powerOn s a m⟩)
  | resetLow hr => exact .inl (.inr ⟨rfl, by rw [resetPinLow, if_neg (by simp [hr])]; rfl⟩)
  | resetHigh a m => exact .inl (.inl (window_resetPinHigh s a m))

/-- Settles O8. -/
theorem alertFlagsStayUntilWrittenOrReset : Obligations.AlertFlagsStayUntilWrittenOrReset := by
  intro c s t i h hs ht
  rcases (runs_of_exec h).window with (hw | hclear) | ⟨-, rfl⟩ | ⟨v, hc, rfl⟩
  · rw [hw.1 i hs] at ht; cases ht
  · exact .inr hclear.1
  · rw [show (readDircntLow s).alert = s.alert from rfl, hs] at ht; cases ht
  · refine .inl ⟨v, hc, ?_⟩
    have hcut : (s.alert.flags &&& ~~~v).getLsbD i = false := ht
    have hi : i < 8 := BitVec.lt_of_getLsbD hs
    simpa [hs, hi] using hcut

/-- Settles O10. -/
theorem dircntHoldingByte : Obligations.DircntHoldingByte := by
  refine ⟨fun s hr => ?_, fun s hr => ?_, fun c s t hc h => ?_⟩
  · have hlow : byteOf s.dir.length = BitVec.ofNat 8 (s.dir.length % 256) :=
      BitVec.eq_of_toNat_eq (by simp [byteOf])
    exact (takeRead_of_resetHigh hr _).trans (by rw [readDircntLow, hlow]; rfl)
  · simp only [hostRead, hr, Bool.false_eq_true, if_false, byteOf, true_and]
    exact BitVec.eq_of_toNat_eq (by simp)
  · rcases (runs_of_exec h).window with (hw | hclear) | ⟨hd, -⟩ | ⟨v, -, rfl⟩
    · exact .inl hw.2
    · exact .inr hclear
    · exact absurd hd hc
    · exact .inl rfl

end Sys2Proof.Machine
end

