-- ==== Sys2Proof/Proofs/ArrayLines.lean ====
section
/-! The lines of the array change only by the operation in progress on them (R2, R6, R7, R9). -/

namespace Sys2Proof.Machine

theorem lineAt_of_outside {l : Loc} (h : inArray l = false) (s : State) : lineAt s l = .torn := by
  rw [lineAt, h]; rfl

theorem inArray_of_changed {s t : State} {l : Loc} (h : lineAt t l ≠ lineAt s l) : inArray l = true := by
  by_contra hl
  have hl := Bool.eq_false_iff.2 hl
  exact h (by rw [lineAt_of_outside hl, lineAt_of_outside hl])

theorem lineAt_setLine_changes {s : State} {l m : Loc} {v : Line} (hw : ArrayOk s.array)
    (h : lineAt (setLine s m v) l ≠ lineAt s l) : l = m ∧ lineAt (setLine s m v) l = v := by
  have hl : l = m := by
    by_contra hne
    exact h (lineAt_setLine_other s m l v hne)
  subst hl
  exact ⟨rfl, lineAt_setLine_same s l v hw (inArray_of_changed h)⟩

theorem lineAt_eraseSegment_changes {s : State} {l : Loc} {n : Nat} (h : lineAt (eraseSegment s n) l ≠ lineAt s l) :
    l.seg = n ∧ lineAt (eraseSegment s n) l = .erased := by
  have he := lineAt_eraseSegment s n l (inArray_of_changed h)
  split at he
  · exact ⟨‹_›, he⟩
  · exact absurd he h

theorem lineAt_partialErase_changes {s : State} {l : Loc} {n : Nat} (hw : ArrayOk s.array)
    (h : lineAt (partialErase s n) l ≠ lineAt s l) :
    l.seg = n ∧ (lineAt (partialErase s n) l = .erased ∨ lineAt (partialErase s n) l = .torn) := by
  have hn : l.seg = n := by
    by_contra hne
    exact h (lineAt_partialErase_other s n l hne)
  exact ⟨hn, lineAt_partialErase_in s n l hw (inArray_of_changed h) hn⟩

/-- What a reset's interruption changes (R9). -/
theorem lineAt_interrupt_changes {s : State} {l : Loc} (hw : ArrayOk s.array) (h : lineAt (interrupt s) l ≠ lineAt s l) :
    (∃ content, s.seqr = some (.program l content) ∧ lineAt (interrupt s) l = .torn)
    ∨ (s.seqr = some (.erase l.seg) ∧ (lineAt (interrupt s) l = .erased ∨ lineAt (interrupt s) l = .torn)) := by
  unfold interrupt at h ⊢
  split at h
  · rename_i m content hq
    obtain ⟨rfl, hv⟩ := lineAt_setLine_changes hw h
    exact .inl ⟨content, hq, by simpa [hq] using hv⟩
  · rename_i n hq
    obtain ⟨rfl, hv⟩ := lineAt_partialErase_changes hw h
    exact .inr ⟨hq, by simpa [hq] using hv⟩
  · exact absurd rfl h

/-- The operation in progress on line `l` and the outcome that command `c` gives it. -/
def OutcomeOf (c : Instr) (s t : State) (l : Loc) : Prop :=
  (∃ content, s.seqr = some (.program l content)
    ∧ ((c = .programDone ∧ lineAt t l = .good content)
      ∨ ((c = .programDeadlineExpiry ∨ interrupts c = true) ∧ lineAt t l = .torn)))
  ∨ (s.seqr = some (.erase l.seg)
    ∧ ((c = .eraseDone ∧ lineAt t l = .erased)
      ∨ ((c = .eraseDeadlineExpiry ∨ interrupts c = true) ∧ (lineAt t l = .erased ∨ lineAt t l = .torn))))

theorem outcome_of_interrupt {c : Instr} {s t : State} {l : Loc} (hc : interrupts c = true) (hw : ArrayOk s.array)
    (ht : t.array = (interrupt s).array) (h : lineAt t l ≠ lineAt s l) : OutcomeOf c s t l := by
  unfold OutcomeOf
  rw [lineAt_congr ht] at h ⊢
  rcases lineAt_interrupt_changes hw h with ⟨content, hq, hl⟩ | ⟨hq, hl⟩
  · exact .inl ⟨content, hq, .inr ⟨.inr hc, hl⟩⟩
  · exact .inr ⟨hq, .inr ⟨.inr hc, hl⟩⟩

theorem array_opEnds (s : State) (loc : Loc) (rep : Report) : (opEnds s loc rep).array = s.array := (laws_opEnds s loc rep).1

theorem lineAt_opEnds (s : State) (loc : Loc) (rep : Report) (l : Loc) : lineAt (opEnds s loc rep) l = lineAt s l :=
  lineAt_congr (array_opEnds s loc rep) l

theorem outcome_of_programDone {s : State} {l : Loc} (hw : ArrayOk s.array)
    (h : lineAt (programDone s) l ≠ lineAt s l) : OutcomeOf .programDone s (programDone s) l := by
  cases hq : s.seqr with
  | none => exact absurd (by rw [programDone, hq]) h
  | some op => cases op with
    | read m => exact absurd (by rw [programDone, hq]) h
    | erase n => exact absurd (by rw [programDone, hq]) h
    | program m content =>
      have he : programDone s = opEnds (setLine s m (.good content)) m .programDone := by rw [programDone, hq]
      rw [he, lineAt_opEnds] at h
      obtain ⟨rfl, hv⟩ := lineAt_setLine_changes hw h
      exact .inl ⟨content, hq, .inl ⟨rfl, by rw [he, lineAt_opEnds, hv]⟩⟩

theorem outcome_of_programExpires {s : State} {l : Loc} (hw : ArrayOk s.array)
    (h : lineAt (programExpires s) l ≠ lineAt s l) : OutcomeOf .programDeadlineExpiry s (programExpires s) l := by
  cases hq : s.seqr with
  | none => exact absurd (by rw [programExpires, hq]) h
  | some op => cases op with
    | read m => exact absurd (by rw [programExpires, hq]) h
    | erase n => exact absurd (by rw [programExpires, hq]) h
    | program m content =>
      have he : programExpires s = opEnds (setLine s m .torn) m (.programFault .expired) := by rw [programExpires, hq]
      rw [he, lineAt_opEnds] at h
      obtain ⟨rfl, hv⟩ := lineAt_setLine_changes hw h
      exact .inl ⟨content, hq, .inr ⟨.inl rfl, by rw [he, lineAt_opEnds, hv]⟩⟩

theorem outcome_of_eraseDone {s : State} {l : Loc} (h : lineAt (eraseDone s) l ≠ lineAt s l) :
    OutcomeOf .eraseDone s (eraseDone s) l := by
  cases hq : s.seqr with
  | none => exact absurd (by rw [eraseDone, hq]) h
  | some op => cases op with
    | read m => exact absurd (by rw [eraseDone, hq]) h
    | program m content => exact absurd (by rw [eraseDone, hq]) h
    | erase n =>
      have he : eraseDone s = opEnds (eraseSegment s n) ⟨n, 0⟩ .eraseDone := by rw [eraseDone, hq]
      rw [he, lineAt_opEnds] at h
      obtain ⟨rfl, hv⟩ := lineAt_eraseSegment_changes h
      exact .inr ⟨hq, .inl ⟨rfl, by rw [he, lineAt_opEnds, hv]⟩⟩

theorem outcome_of_eraseExpires {s : State} {l : Loc} (hw : ArrayOk s.array)
    (h : lineAt (eraseExpires s) l ≠ lineAt s l) : OutcomeOf .eraseDeadlineExpiry s (eraseExpires s) l := by
  cases hq : s.seqr with
  | none => exact absurd (by rw [eraseExpires, hq]) h
  | some op => cases op with
    | read m => exact absurd (by rw [eraseExpires, hq]) h
    | program m content => exact absurd (by rw [eraseExpires, hq]) h
    | erase n =>
      have he : eraseExpires s = opEnds (partialErase s n) ⟨n, 0⟩ .eraseFault := by rw [eraseExpires, hq]
      rw [he, lineAt_opEnds] at h
      obtain ⟨rfl, hv⟩ := lineAt_partialErase_changes hw h
      exact .inr ⟨hq, .inr ⟨.inl rfl, by rw [he, lineAt_opEnds]; exact hv⟩⟩

theorem array_readDone (s : State) : (readDone s).array = s.array := by
  unfold readDone
  split
  · exact array_opEnds _ _ _
  · rfl

theorem Event.outcome {c : Instr} {s t : State} {l : Loc} (e : Event s c t) (hw : ArrayOk s.array)
    (h : lineAt t l ≠ lineAt s l) : OutcomeOf c s t l := by
  have stands : t.array = s.array → OutcomeOf c s t l := fun ha => absurd (lineAt_congr ha l) h
  cases e with
  | submits _ f => exact stands (laws_submitArgs s f).1
  | busWrites _ x => exact stands (laws_busWrite s x).1
  | busReads _ x => exact stands (laws_busRead s x).1
  | stalls => exact stands (laws_stallExpiry s).1
  | lapses => exact stands (laws_sessionLapse s).1
  | grants => exact stands (kept_arbiterGrant s).1
  | resumes => exact stands (kept_waitSpaceResume s).1
  | programDone => exact outcome_of_programDone hw h
  | programExpires => exact outcome_of_programExpires hw h
  | readDone => exact stands (array_readDone s)
  | eraseDone => exact outcome_of_eraseDone h
  | eraseExpires => exact outcome_of_eraseExpires hw h
  | idleExpires => exact stands (laws_batchIdleExpires s).1
  | walks => exact stands (kept_reclaimWalkStep s).1
  | finishes => exact stands ((kept_settleRefused 8 _).1.trans (kept_reclaimFinishStep s).1)
  | readsBuffer => exact stands rfl
  | readsDircnt => exact stands rfl
  | clearsAlerts => exact stands rfl
  | writesControl _ v => exact stands (laws_writeControl s v).1
  | writes _ off v => exact stands (laws_hostWrite s off v).1
  | powerWarns => exact stands (laws_powerWarning s).1
  | powerGood => exact stands (laws_powerGood s).1
  | recovers => exact stands (laws_recoveryExpires s).1

theorem array_leaveReset (s : State) : (leaveReset s).array = s.array := (laws_leaveReset s).1

/-- A power-on reset leaves the array as its interruption left it. -/
theorem array_powerOn (s : State) (amount : Bool) (madr : BitVec 2) :
    (powerOn s amount madr).array = (interrupt s).array := by
  unfold powerOn; dsimp only
  split
  · rfl
  · exact array_leaveReset _

theorem array_resetPinHigh (s : State) (amount : Bool) (madr : BitVec 2) :
    (resetPinHigh s amount madr).array = s.array := by
  unfold resetPinHigh
  split
  · exact array_leaveReset _
  · rfl

theorem Runs.outcome {c : Instr} {s t : State} {l : Loc} (r : Runs s c t) (hw : ArrayOk s.array)
    (h : lineAt t l ≠ lineAt s l) : OutcomeOf c s t l := by
  cases r with
  | held => exact absurd (lineAt_congr rfl l) h
  | event _ _ _ e => exact e.outcome hw h
  | powerOn a m => exact outcome_of_interrupt rfl hw (array_powerOn s a m) h
  | resetLow hr => exact outcome_of_interrupt rfl hw (by rw [resetPinLow, if_neg (by simp [hr])]; rfl) h
  | resetHigh a m => exact absurd (lineAt_congr (array_resetPinHigh s a m) l) h

/-- Settles O7. -/
theorem linesChangeOnlyByTheirOperation : Obligations.LinesChangeOnlyByTheirOperation :=
  fun _ _ _ _ hw h hl => (runs_of_exec h).outcome hw hl

end Sys2Proof.Machine
end

