-- ==== Sys2Proof/Proofs/Balance.lean ====
section
/-! The laws of the segment table (R25, R39): the balance under each accounting operation, what the laws say in a mounted store,
and the laws in the state after reset. -/

namespace Sys2Proof.Machine

/-! ### The balance of a journal segment (R39) -/

theorem table_segUpd (s : State) (n : Nat) (f : SegEntry → SegEntry) :
    (segUpd s n f).sm.table = s.sm.table.map (fun e => if e.num = n then f e else e) := by
  obtain ⟨a, h⟩ := segUpd_changes s n f
  rw [h]

theorem tableBalanced_segUpd {s : State} (n : Nat) (f : SegEntry → SegEntry) (h : tableBalanced s)
    (hf : ∀ e ∈ s.sm.table, e.num = n → ∀ j, (f e).st.journal? = some j → j.balanced) : tableBalanced (segUpd s n f) := by
  intro e he j hj
  rw [table_segUpd] at he
  obtain ⟨o, ho, rfl⟩ := List.mem_map.1 he
  split at hj
  · exact hf o ho ‹_› j hj
  · exact h o ho j hj

theorem tableBalanced_journalUpd {s : State} (n : Nat) (f : Journal → Journal) (h : tableBalanced s)
    (hf : ∀ e ∈ s.sm.table, e.num = n → ∀ j, e.st.journal? = some j → j.balanced → (f j).balanced) :
    tableBalanced (journalUpd s n f) := by
  refine tableBalanced_segUpd n _ h fun e he hn j hj => ?_
  rw [SegState.journal_mapJournal] at hj
  obtain ⟨i, hi, rfl⟩ := Option.map_eq_some_iff.1 hj
  exact hf e he hn i hi (h e he i hi)

/-- The segment has room for `e` lines more. -/
def roomIn (s : State) (n e : Nat) : Prop :=
  ∀ x ∈ s.sm.table, x.num = n → ∀ j, x.st.journal? = some j → j.wp + e ≤ 256

theorem tableBalanced_accountLive {s : State} {n e : Nat} (h : tableBalanced s) (hr : roomIn s n e) :
    tableBalanced (accountLive s n e) :=
  tableBalanced_journalUpd n _ h fun x hx hn j hj hb => by
    have hroom := hr x hx hn j hj
    simp only [Journal.balanced] at hb ⊢
    omega

theorem tableBalanced_accountDead {s : State} {n e : Nat} (h : tableBalanced s) (hr : roomIn s n e) :
    tableBalanced (accountDead s n e) :=
  tableBalanced_journalUpd n _ h fun x hx hn j hj hb => by
    have hroom := hr x hx hn j hj
    simp only [Journal.balanced] at hb ⊢
    omega

theorem tableBalanced_killLines {s : State} (n e : Nat) (h : tableBalanced s) : tableBalanced (killLines s n e) :=
  tableBalanced_journalUpd n _ h fun _ _ _ j _ hb => by
    simp only [Journal.balanced] at hb ⊢
    omega

theorem tableBalanced_pinUp {s : State} (n : Nat) (h : tableBalanced s) : tableBalanced (pinUp s n) :=
  tableBalanced_journalUpd n _ h fun _ _ _ _ _ hb => hb

theorem tableBalanced_closeSegment {s : State} (n : Nat) (h : tableBalanced s) : tableBalanced (closeSegment s n) := by
  refine tableBalanced_segUpd n _ h fun e he _ j hj => ?_
  cases hst : e.st with
  | opened i =>
    have hb : i.balanced := h e he i (by rw [hst]; rfl)
    have hj' : i.closed = j := by simpa [hst, SegState.close, SegState.journal?] using hj
    subst hj'
    simp only [Journal.balanced, Journal.closed] at hb ⊢
    omega
  | free => simp [hst, SegState.close, SegState.journal?] at hj
  | closed i => exact h e he j (by rw [hst] at hj ⊢; exact hj)
  | reclaiming i => exact h e he j (by rw [hst] at hj ⊢; exact hj)
  | dirty => simp [hst, SegState.close, SegState.journal?] at hj
  | retired => simp [hst, SegState.close, SegState.journal?] at hj

theorem tableBalanced_clearPins {s : State} (h : tableBalanced s) : tableBalanced (clearPins s) := by
  intro e he j hj
  obtain ⟨o, ho, rfl⟩ := List.mem_map.1 he
  rw [SegState.journal_mapJournal] at hj
  obtain ⟨i, hi, rfl⟩ := Option.map_eq_some_iff.1 hj
  exact h o ho i hi

theorem tableBalanced_killPart {s : State} (p : Part) (h : tableBalanced s) : tableBalanced (killPart s p) :=
  tableBalanced_killLines _ _ h

theorem tableBalanced_killPart_opt {s : State} (o : Option Part) (h : tableBalanced s) : tableBalanced (killPart? s o) := by
  cases o with
  | none => exact h
  | some p => exact tableBalanced_killPart p h

theorem tableBalanced_killAll (ps : List Part) {s : State} (h : tableBalanced s) : tableBalanced (ps.foldl killPart s) := by
  induction ps generalizing s with
  | nil => exact h
  | cons p ps ih => exact ih (tableBalanced_killPart p h)

theorem tableBalanced_publishCommitted {s : State} (key : Key) {p : Part} (h : tableBalanced s)
    (hr : roomIn s p.loc.seg (extentOf p.len)) : tableBalanced (publishCommitted s key p) :=
  tableBalanced_killPart_opt (s := accountLive s p.loc.seg (extentOf p.len)) _ (tableBalanced_accountLive h hr)

theorem tableBalanced_publishPending {s : State} (key : Key) {p : Part} (h : tableBalanced s)
    (hr : roomIn s p.loc.seg (extentOf p.len)) : tableBalanced (publishPending s key p) :=
  tableBalanced_pinUp (s := accountLive s p.loc.seg (extentOf p.len)) _ (tableBalanced_accountLive h hr)

theorem tableBalanced_promoteKey {s : State} (key : Key) (h : tableBalanced s) : tableBalanced (promoteKey s key) := by
  unfold promoteKey
  split
  · exact h
  · split
    · exact h
    · exact tableBalanced_killPart_opt (s := s) _ h

theorem tableBalanced_promoteAll (ms : List Member) {s : State} (h : tableBalanced s) : tableBalanced (promoteAll s ms) := by
  induction ms generalizing s with
  | nil => exact h
  | cons m ms ih => exact ih (tableBalanced_promoteKey m.key h)

theorem tableBalanced_teardown {s : State} (own : Bool) (h : tableBalanced s) : tableBalanced (teardown s own) := by
  have hd : tableBalanced (clearPins (dropPending s)) :=
    tableBalanced_clearPins (s := dropPending s) (tableBalanced_killAll (s.dir.filterMap DirEntry.pending) h)
  unfold teardown; dsimp only
  split
  · exact h
  · split
    · exact hd
    · exact hd

/-! ### A mounted store (R25) -/

/-- In a mounted store no mount is under way, so the law of R39 holds. -/
theorem lawful_of_mounted {s : State} (h : segmentsLawful s) (hm : mounted s) : lawfulTable s.sm.table := by
  obtain ⟨hlaw, -, -, -, hmount, -⟩ := h
  refine hlaw.resolve_left fun hu => ?_
  rcases hu with ⟨hh, -⟩ | ⟨hs, -⟩
  · rcases hm with e | e <;> simp [e] at hmount <;> exact hmount hh
  · rcases hm with e | e <;> rw [e] at hs <;> cases hs

theorem opened_unique {s : State} (h : segmentsLawful s) {n m : Nat} {i j : Journal} (hn : standsAs s n (.opened i))
    (hm : standsAs s m (.opened j)) : n = m := by
  obtain ⟨-, hone, -⟩ := h
  obtain ⟨e, he, rfl, hi⟩ := hn
  obtain ⟨x, hx, rfl, hj⟩ := hm
  exact hone e he x hx i j hi hj

theorem reclaiming_unique {s : State} (h : segmentsLawful s) {n m : Nat} {i j : Journal}
    (hn : standsAs s n (.reclaiming i)) (hm : standsAs s m (.reclaiming j)) : n = m := by
  obtain ⟨-, -, -, hvictim, -⟩ := h
  obtain ⟨e, he, rfl, hi⟩ := hn
  obtain ⟨x, hx, rfl, hj⟩ := hm
  obtain ⟨r, hr, her⟩ := hvictim e he i hi
  obtain ⟨r', hr', hxr⟩ := hvictim x hx j hj
  cases hr.symm.trans hr'
  exact her.trans hxr.symm

/-- Settles O60. -/
theorem accountingKeepsTheBalance : Obligations.AccountingKeepsTheBalance := by
  refine ⟨fun s t => step_keeps segmentsLawful (fun _ _ h => h) fun _ _ _ h r => r.segments h, fun s h hm => ?_,
    fun s hb => ?_⟩
  · exact ⟨lawful_of_mounted h hm, fun _ _ _ _ => opened_unique h, fun _ _ _ _ => reclaiming_unique h⟩
  · exact ⟨fun n e hr => ⟨tableBalanced_accountLive hb hr, tableBalanced_accountDead hb hr⟩,
      fun key p hr => ⟨tableBalanced_publishCommitted key hb hr, tableBalanced_publishPending key hb hr⟩,
      fun n e => ⟨tableBalanced_closeSegment n hb, tableBalanced_killLines n e hb⟩,
      fun ms own => ⟨tableBalanced_promoteAll ms hb, tableBalanced_teardown own hb⟩⟩

/-! ### The state after reset -/

/-- Settles O2: the state after reset is what clearing the volatile state leaves. -/
theorem resetStateMeetsTheLaws : Obligations.ResetStateMeetsTheLaws :=
  ⟨⟨rfl, rfl⟩, ⟨dirOk_nil, freezeOk_nil, commitOk_nil⟩, TagLaw.fresh, settingsOk_reset, IdleLaw.closed _ _ _ _,
    segments_clearVolatile State.reset, fun _ => ⟨rfl, rfl⟩, tables_clearVolatile State.reset⟩

end Sys2Proof.Machine
end

