-- ==== Sys2Proof/Proofs/Resets.lean ====
section
/-! Resets (R9, R86, R87), PFW# and the recovery timer out of work (R83, R85), and the writes of CONTROL (R193). -/

namespace Sys2Proof.Machine

/-! ### Events while RESET# is high -/

theorem ifHigh_of_resetHigh {s u v w : State} (h : s.pins.resetLow = false) (hv : v = w) :
    (.next (if s.pins.resetLow = true then u else v) : Out) = .next w := by
  rw [if_neg (by simp [h]), hv]

/-! ### The state a reset leaves -/

theorem clearVolatile_eq_cleared (s : State) : clearVolatile s = cleared s := rfl

/-- What a reset clears may have changed before it. -/
theorem clearVolatile_of_close {s t : State} (h : CloseKept s t) : clearVolatile t = clearVolatile s := by
  obtain ⟨-, heng, -, -, -, -, -, -, -, hfree, -, harray, hpins, hpending⟩ := h
  simp only [clearVolatile, heng, hfree, harray, hpins, hpending]

theorem softReset_eq_over (s : State) : softReset s = resetOver (cleared s) := leaveReset_cleared s

/-! ### What an interruption leaves on the array (R9) -/

theorem setLine_eq (s : State) (l : Loc) (v : Line) : ∃ m, setLine s l v = { s with array := m } := by
  unfold setLine
  split
  · exact ⟨_, rfl⟩
  · exact ⟨s.array, rfl⟩

/-- Torn lines are written in the array and nowhere else. -/
theorem tear_fold_eq (n : Nat) (mask : BitVec 256) (ks : List Nat) : ∀ s : State,
    ∃ m, ks.foldl (fun t k => if mask.getLsbD k then setLine t ⟨n, k⟩ .torn else t) s = { s with array := m } := by
  induction ks with
  | nil => exact fun s => ⟨s.array, rfl⟩
  | cons k ks ih =>
    intro s
    rw [List.foldl_cons]
    split
    · obtain ⟨a, ha⟩ := setLine_eq s ⟨n, k⟩ .torn
      obtain ⟨m, hm⟩ := ih (setLine s ⟨n, k⟩ .torn)
      exact ⟨m, by rw [hm, ha]⟩
    · exact ih s

theorem partialErase_eq (s : State) (n : Nat) : ∃ m, partialErase s n = { s with array := m, free := s.free + 1 } := by
  obtain ⟨m, hm⟩ := tear_fold_eq n (Config.freeErase s.free) (List.range 256) (eraseSegment s n)
  exact ⟨m, congrArg (fun t : State => { t with free := s.free + 1 }) hm⟩

theorem interrupt_eq (s : State) : ∃ m f, interrupt s = { s with array := m, free := f } := by
  unfold interrupt
  split
  · obtain ⟨m, hm⟩ := setLine_eq s _ .torn
    exact ⟨m, s.free, hm⟩
  · obtain ⟨m, hm⟩ := partialErase_eq s _
    exact ⟨m, _, hm⟩
  · exact ⟨s.array, s.free, rfl⟩

theorem interruptedArray_of_interrupt {s t : State} (hw : ArrayOk s.array) (ht : t.array = (interrupt s).array) :
    interruptedArray s t := by
  have torn_of_outside : ∀ l, inArray l = false → lineAt t l = .torn := fun l h => lineAt_of_outside h t
  refine ⟨fun l c hq => ?_, fun n hq => ?_, fun hq => ?_⟩
  · have hi : interrupt s = setLine s l .torn := by simp only [interrupt, hq]
    rw [hi] at ht
    refine ⟨?_, fun m hm => (lineAt_congr ht m).trans (lineAt_setLine_other s l m .torn hm)⟩
    cases hl : inArray l with
    | true => exact (lineAt_congr ht l).trans (lineAt_setLine_same s l .torn hw hl)
    | false => exact torn_of_outside l hl
  · have hi : interrupt s = partialErase s n := by simp only [interrupt, hq]
    rw [hi] at ht
    refine ⟨fun k => ?_, fun m hm => (lineAt_congr ht m).trans (lineAt_partialErase_other s n m hm)⟩
    cases hl : inArray ⟨n, k⟩ with
    | true => rw [lineAt_congr ht]; exact lineAt_partialErase_in s n ⟨n, k⟩ hw hl rfl
    | false => exact .inr (torn_of_outside _ hl)
  · rcases hq with hq | ⟨l, hq⟩ <;> simpa only [interrupt, hq] using ht

/-! ### Power-on reset and RESET# (R87) -/

theorem powerOn_of_resetHigh {s : State} (hr : s.pins.resetLow = false) (amount : Bool) (madr : BitVec 2) :
    powerOn s amount madr =
      resetOver { cleared (interrupt s) with eng := { State.reset.eng with amount := amount, madr := madr } } := by
  rw [powerOn, if_neg (by simp [hr])]
  exact leaveReset_cleared { interrupt s with eng := { s.eng with amount := amount, madr := madr } }

/-- Settles O11: the latched straps are cleared state like any other, so the end of the reset is that of `leaveReset_cleared`. -/
theorem powerOnResetClearsThePart : Obligations.PowerOnResetClearsThePart := by
  refine ⟨fun s amount madr hr => congrArg Host.Outcome.next (powerOn_of_resetHigh hr amount madr),
    fun s t amount madr hw h => ?_⟩
  injection h with h
  exact interruptedArray_of_interrupt hw (h ▸ array_powerOn s amount madr)

theorem resetPinLow_of_high {s : State} (hr : s.pins.resetLow = false) :
    resetPinLow s = { cleared (interrupt s) with pins := { (cleared s).pins with resetLow := true } } := by
  obtain ⟨m, f, hi⟩ := interrupt_eq s
  rw [resetPinLow, if_neg (by simp [hr]), resetBegins, hi]
  rfl

/-- Settles O13: the assertion is a reset that waits for its release, which meets `leaveReset_over`. -/
theorem resetPinActs : Obligations.ResetPinActs := by
  refine ⟨fun s hr => congrArg Host.Outcome.next (resetPinLow_of_high hr), fun s t hr hw h => ?_,
    fun s amount madr hr hreq hquiet => ?_⟩
  · injection h with h
    refine interruptedArray_of_interrupt hw ?_
    rw [← h, resetPinLow_of_high hr]
    rfl
  · refine congrArg Host.Outcome.next ?_
    rw [resetPinHigh, if_pos hr]
    exact leaveReset_over _ hreq hquiet

/-! ### CONTROL (R86, R193) -/

/-- The three bits of a CONTROL write. -/
def Control.stored (c : Control) (v : Byte) : Control :=
  { c with cinten := v.getLsbD 0, bgren := v.getLsbD 1, mgmten := v.getLsbD 2 }

/-- A CONTROL write that leaves the port as it is stores its bits, and then the soft reset is requested. -/
theorem writeControl_of_portKept {s : State} {v : Byte} (h : v.getLsbD 2 = true ∨ s.ctl.mgmten = false) :
    writeControl s v = (if v.getLsbD 7 && !s.ctl.srst then requestSoftReset { s with ctl := s.ctl.stored v }
      else { s with ctl := s.ctl.stored v }) := by
  have hport : (s.ctl.mgmten && !v.getLsbD 2) = false := by rcases h with h | h <;> simp [h]
  simp only [writeControl, hport, Bool.false_eq_true, if_false]
  rfl

theorem writeControl_stores {s : State} {v : Byte} (h : v.getLsbD 2 = true ∨ s.ctl.mgmten = false)
    (h7 : v.getLsbD 7 = false) : writeControl s v = { s with ctl := s.ctl.stored v } := by
  rw [writeControl_of_portKept h, h7]
  rfl

/-- Settles O31: the three rows write CONTROL, two with the byte given and one with its MGMTEN bit set. -/
theorem controlWriteStoresItsBits : Obligations.ControlWriteStoresItsBits := by
  intro v s hr h7
  refine ⟨fun h => ⟨ifHigh_of_resetHigh hr (writeControl_stores h h7), ifHigh_of_resetHigh hr (writeControl_stores h h7)⟩,
    ifHigh_of_resetHigh hr ?_⟩
  refine (writeControl_stores (.inl (by simp)) (by simpa using h7)).trans ?_
  simp [Control.stored]

/-- Settles O15: the operation in progress keeps the request from taking effect. -/
theorem softResetWaits : Obligations.SoftResetWaits := by
  intro s v op hr hop h2
  refine ifHigh_of_resetHigh hr ?_
  refine (writeControl_of_portKept (.inl (by simp [h2]))).trans ?_
  cases hs : s.ctl.srst <;> simp [requestSoftReset, hop, Control.stored, h2, hs]

/-- A soft reset requested with the sequencer IDLE takes effect, whatever the port's bit does before it. -/
theorem writeControl_softReset {s : State} {v : Byte} (h7 : v.getLsbD 7 = true) (hq : s.seqr = none)
    (hs : s.ctl.srst = false) : writeControl s v = resetOver (cleared s) := by
  have kept : ∀ t : State, CloseKept { s with ctl := s.ctl.stored v } t →
      (if v.getLsbD 7 && !t.ctl.srst then requestSoftReset t else t) = resetOver (cleared s) := by
    intro t ht
    have htq : t.seqr = none := ht.1.trans hq
    have hts : t.ctl.srst = false := by rw [ht.2.2.2.2.2.2.2.2.2.2.1]; exact hs
    have hcleared : clearVolatile t = cleared { s with ctl := s.ctl.stored v } := clearVolatile_of_close ht
    simp only [h7, hts, requestSoftReset, htq, Option.isNone_none, Bool.not_false, Bool.and_self, if_true]
    exact (congrArg leaveReset hcleared).trans (leaveReset_cleared s)
  unfold writeControl
  exact kept _ (by
    dsimp only
    split
    · exact close_portDisable _
    · exact ⟨rfl, rfl, rfl, rfl, rfl, rfl, rfl, rfl, rfl, rfl, rfl, rfl, rfl, rfl⟩)

/-- Settles O14: what the port's bit does first is cleared with the rest. -/
theorem softResetAtOnce : Obligations.SoftResetAtOnce := by
  intro s v hr hq hs
  exact ifHigh_of_resetHigh hr (writeControl_softReset (by simp) hq hs)

/-! ### The ends of operations -/

theorem programDone_of {s : State} {l : Loc} {c : LineBits} (h : s.seqr = some (.program l c)) :
    programDone s = opEnds (setLine s l (.good c)) l .programDone := by
  rw [programDone, h]

theorem programExpires_of {s : State} {l : Loc} {c : LineBits} (h : s.seqr = some (.program l c)) :
    programExpires s = opEnds (setLine s l .torn) l (.programFault .expired) := by
  rw [programExpires, h]

theorem readDone_of {s : State} {l : Loc} (h : s.seqr = some (.read l)) :
    readDone s = opEnds s l (.readDone (lineAt s l)) := by
  rw [readDone, h]

theorem eraseDone_of {s : State} {n : Nat} (h : s.seqr = some (.erase n)) :
    eraseDone s = opEnds (eraseSegment s n) ⟨n, 0⟩ .eraseDone := by
  rw [eraseDone, h]

theorem eraseExpires_of {s : State} {n : Nat} (h : s.seqr = some (.erase n)) :
    eraseExpires s = opEnds (partialErase s n) ⟨n, 0⟩ .eraseFault := by
  rw [eraseExpires, h]

/-- An operation that ends with a soft reset waiting is followed by that reset. -/
theorem opEnds_of_srst {s : State} (h : s.ctl.srst = true) (loc : Loc) (rep : Report) :
    opEnds s loc rep = resetOver (cleared s) := by
  rw [opEnds, if_pos h]
  exact softReset_eq_over _

/-- Settles O16: each end of an operation is `opEnds`, whose report a waiting soft reset discards. -/
theorem softResetFollowsTheOperation : Obligations.SoftResetFollowsTheOperation := by
  intro s hr hs
  have written : ∀ l v, (setLine s l v).ctl.srst = true := fun l v => by
    obtain ⟨m, hm⟩ := setLine_eq s l v
    rw [hm]; exact hs
  have erased : ∀ n, (partialErase s n).ctl.srst = true := fun n => by
    obtain ⟨m, hm⟩ := partialErase_eq s n
    rw [hm]; exact hs
  exact ⟨fun l content hq =>
      ⟨ifHigh_of_resetHigh hr ((programDone_of hq).trans (opEnds_of_srst (written l _) _ _)),
        ifHigh_of_resetHigh hr ((programExpires_of hq).trans (opEnds_of_srst (written l _) _ _))⟩,
    fun l hq => ifHigh_of_resetHigh hr ((readDone_of hq).trans (opEnds_of_srst hs _ _)),
    fun n hq =>
      ⟨ifHigh_of_resetHigh hr ((eraseDone_of hq).trans (opEnds_of_srst (s := eraseSegment s n) hs _ _)),
        ifHigh_of_resetHigh hr ((eraseExpires_of hq).trans (opEnds_of_srst (erased n) _ _))⟩⟩

/-! ### PFW# deasserted and the recovery timer (R83, R85) -/

/-- Settles O18: the two cases are `powerGood`'s own. -/
theorem powerGoodStartsRecovery : Obligations.PowerGoodStartsRecovery := by
  refine fun s hr => ⟨fun h => ifHigh_of_resetHigh hr ?_, fun hreq hst => ifHigh_of_resetHigh hr ?_⟩
  · exact if_pos (by simpa using h)
  · exact if_neg (by simp [hreq, hst])

/-- The store leaves HALTED with no halt requested. -/
theorem leaveHalted_eq {u : State} {st : StoreState} (hreq : u.eng.haltReq = false) (hp : u.eng.prior = some st) :
    leaveHalted u = if st = .mounting ∨ st = .formatting then mountBegun { u with eng := { u.eng with prior := none } }
      else { u with eng := { u.eng with store := st, prior := none } } := by
  have begun := mountStart_begun { u with eng := { u.eng with prior := none } } hreq
  unfold leaveHalted
  rw [hp]
  cases st with
  | mounting => exact begun.trans (if_pos (.inl rfl)).symm
  | formatting => exact begun.trans (if_pos (.inr rfl)).symm
  | _ => exact (if_neg (by decide)).symm

/-- Settles O19: out of HALTED only the request and the timer go; in HALTED `leaveHalted_eq` says what follows. -/
theorem recoveryEndsTheHalt : Obligations.RecoveryEndsTheHalt := by
  rintro s u hr hrec rfl
  refine ⟨fun hst => ifHigh_of_resetHigh hr ?_, fun st hst hp => ifHigh_of_resetHigh hr ?_⟩
  · exact (if_pos hrec).trans (if_neg hst)
  · exact ((if_pos hrec).trans (if_pos hst)).trans (leaveHalted_eq rfl hp)

end Sys2Proof.Machine
end

