-- ==== Sys2Proof/Proofs/ResetRegisters.lean ====
section
/-! What the registers read after a power-on reset, and the writes of the locations without a row, the buffer window, the
alerts and the settings (R179, R180, R189–R194). -/

namespace Sys2Proof.Machine

/-! ### The registers after a power-on reset -/

/-- The register map of a part that has been reset with AMOUNT low. -/
def resetByte (off : Nat) : Byte :=
  if off = 0x00 then 0x6A else if off = 0x01 then 0x02 else if off = 0x06 then 0x06
  else if off = 0x07 ∨ off = 0x08 then 0x04 else 0x00

/-- Past the window nothing is read. -/
theorem hostRead_past (s : State) {off : Nat} (h : 0x33 ≤ off) : hostRead s off = 0 := by
  obtain ⟨k, rfl⟩ := Nat.exists_eq_add_of_le' h
  unfold hostRead
  split
  · rfl
  · rfl

theorem hostRead_reset (off : Nat) : hostRead State.reset off = resetByte off := by
  have inside : ∀ o < 0x33, hostRead State.reset o = resetByte o := by decide
  rcases Nat.lt_or_ge off 0x33 with h | h
  · exact inside off h
  · rw [hostRead_past _ h, resetByte, if_neg (by omega), if_neg (by omega), if_neg (by omega), if_neg (by omega)]

/-- What a host read returns depends on RESET# and the items that a reset clears, not on the straps, the array or the bus. -/
theorem hostRead_of_cleared {s : State} {e : Engine} (hr : s.pins.resetLow = false) (hst : e.store = .unmounted)
    (hm : e.mountRes = .none) (off : Nat) : hostRead { cleared s with eng := e } off = hostRead State.reset off := by
  have hlow : ({ cleared s with eng := e } : State).pins.resetLow = State.reset.pins.resetLow := hr
  unfold hostRead
  rw [hlow]
  simp only [hst, hm]
  rfl

/-- Settles O12: with AMOUNT low and PFW# high the end of the reset begins nothing, and the registers read as they do in the
reset state. -/
theorem registersAfterPowerOnReset : Obligations.RegistersAfterPowerOnReset := by
  intro s t madr hr hp h
  obtain ⟨m, f, hi⟩ := interrupt_eq s
  injection h with h
  rw [powerOn_of_resetHigh hr, hi, resetOver, if_neg (by exact Bool.eq_false_iff.1 hp), if_neg (by exact Bool.false_ne_true)] at h
  subst h
  refine ⟨?_, fun off => ?_⟩
  · simp [intLow, cleared, State.reset, Control.reset, HostPort.reset]
  · exact (hostRead_of_cleared hr rfl rfl off).trans (hostRead_reset off)

end Sys2Proof.Machine
end

