-- ==== Sys2Proof/Proofs/HostCommands.lean ====
section
/-! The host's submissions, aborts and register writes (R179–R185, R188–R191, R194). -/

namespace Sys2Proof.Machine

/-! ### The six tests of a submission (R183) -/

/-- The buffer that a command names, if any, is IDLE. -/
theorem buffer_idle_iff (s : State) (c : Cmd) : (c.buffer?.map (bufferHeld s)).getD false = false
    ↔ ∀ b, c.buffer? = some b → s.host.bufOwner.getD b none = none := by
  cases c.buffer? with
  | none => simp
  | some b => simp [bufferHeld]

theorem buffer_held {s : State} {c : Cmd} {b t : Nat} (hb : c.buffer? = some b)
    (ht : s.host.bufOwner.getD b none = some t) : (c.buffer?.map (bufferHeld s)).getD false = true := by
  rw [hb, Option.map_some, Option.getD_some, bufferHeld, ht]
  rfl

theorem submitResult_args {s : State} {a : ArgRegs} (t : Nat) (c : Cmd) :
    submitResult { s with host := { s.host with args := a } } t c = submitResult s t c := rfl

theorem submitResult_passes {s : State} {t : Nat} {c : Cmd} (ha : hostRanges c)
    (hb : ∀ b, c.buffer? = some b → s.host.bufOwner.getD b none = none) (hq : s.host.queue.length < 8)
    (ht : s.host.tags.getD t .free = .free) (hs : s.eng.store ≠ .halted) : submitResult s t c = accepted := by
  rw [submitResult, (hostArgsOk_iff c).2 ha, (buffer_idle_iff s c).2 hb]
  simp only [Bool.not_true, Bool.false_eq_true, if_false, Nat.not_le.2 hq, tagState, ht, ne_eq, not_true_eq_false, hs]

theorem holdBuffer_eq (s : State) (r : HostRow) : holdBuffer s r.no r.cmd.buffer? =
    { s with host := { s.host with bufOwner := heldAfter r s.host.bufOwner } } := by
  unfold holdBuffer heldAfter
  cases r.cmd.buffer? with
  | none => rfl
  | some b => rfl

theorem acceptSubmit_eq (s : State) (r : HostRow) : acceptSubmit s r.no r.cmd = syncIdle { s with
    host := { s.host with
      queue := s.host.queue ++ [⟨r.no, r.cmd⟩], tags := s.host.tags.set r.no .queued,
      bufOwner := heldAfter r s.host.bufOwner, lastSubmit := 0x00 } } := by
  rw [acceptSubmit, holdBuffer_eq]
  rfl

/-- Settles O20: the six tests pass, so the row is `acceptSubmit`. -/
theorem hostSubmissionAccepted : Obligations.HostSubmissionAccepted := by
  intro i r s hi hr ha hb hq ht hs
  rw [exec_hostRow_eq hi s hr]
  dsimp only
  rw [submitResult_args, submitResult_passes ha hb hq ht hs, if_pos rfl, acceptSubmit_eq]

theorem exec_hostRow_refused {i : Instr} {r : HostRow} {s : State} {code : Byte} (hi : hostRow i = some r)
    (hr : s.pins.resetLow = false) (hc : submitResult s r.no r.cmd = code) (hne : code ≠ accepted) :
    exec i s = .next { s with host := { s.host with args := r.args s.host.args, lastSubmit := code } } := by
  rw [exec_hostRow_eq hi s hr]
  dsimp only
  rw [submitResult_args, hc, if_neg hne]

/-- Settles O21: the first test that fails gives SUBMIT's result. -/
theorem hostSubmissionRefusedInOrder : Obligations.HostSubmissionRefusedInOrder := by
  intro i r s code hi hr hcase
  rcases hcase with ⟨rfl, ha⟩ | ⟨rfl, ha, b, t, hb, ht⟩ | ⟨rfl, ha, hb, hq⟩ | ⟨rfl, ha, hb, hq, ht⟩ |
    ⟨rfl, ha, hb, hq, ht, hs⟩
  · refine exec_hostRow_refused hi hr ?_ (by decide)
    have hargs : hostArgsOk r.cmd = false := Bool.eq_false_iff.2 (fun h => ha ((hostArgsOk_iff _).1 h))
    rw [submitResult, hargs]
    rfl
  all_goals have hargs := (hostArgsOk_iff r.cmd).2 ha
  · refine exec_hostRow_refused hi hr ?_ (by decide)
    rw [submitResult, hargs, buffer_held hb ht]
    rfl
  all_goals have hidle := (buffer_idle_iff s r.cmd).2 hb
  · refine exec_hostRow_refused hi hr ?_ (by decide)
    rw [submitResult, hargs, hidle, if_pos hq]
    rfl
  · refine exec_hostRow_refused hi hr ?_ (by decide)
    rw [submitResult, hargs, hidle, if_neg (Nat.not_le.2 hq), tagState, if_pos ht]
    rfl
  · refine exec_hostRow_refused hi hr ?_ (by decide)
    rw [submitResult, hargs, hidle, if_neg (Nat.not_le.2 hq), tagState, if_neg (not_not.2 ht), if_pos hs]
    rfl

/-- A code that names no command spells none (R182). -/
theorem hostCmd_of_unknown {a : ArgRegs} (h : a.cmd ∉ hostCodes) : hostCmd a = none := by
  simp only [hostCodes, List.mem_cons, List.not_mem_nil, or_false, not_or] at h
  obtain ⟨h10, h11, h12, h13, h14, h20, h21, h22, h40, h41, h42, h43⟩ := h
  simp [hostCmd, h10, h11, h12, h13, h14, h20, h21, h22, h40, h41, h42, h43]

/-- Settles O22: the code spells no command, which is the first test. -/
theorem unknownHostCodeRefused : Obligations.UnknownHostCodeRefused := by
  intro code s hr hcode
  refine ifHigh_of_resetHigh hr ?_
  show submit { s with host := { s.host with args := { s.host.args with cmd := code } } } = _
  rw [submit, hostCmd_of_unknown hcode]
  rfl

/-! ### Aborts (R81, R188) -/

theorem unabortable_iff (c : Cmd) : c.notAbortable = true ↔ unabortable c := by
  constructor
  · cases c with
    | mount => exact fun _ => .inl rfl
    | unmount => exact fun _ => .inr (.inl rfl)
    | batchCommit => exact fun _ => .inr (.inr (.inl rfl))
    | format e n => exact fun _ => .inr (.inr (.inr ⟨e, n, rfl⟩))
    | _ => exact fun h => absurd h Bool.false_ne_true
  · rintro (rfl | rfl | rfl | ⟨e, n, rfl⟩) <;> rfl

/-- The row ABORT, by the answer to the tag it names. -/
theorem exec_abort {v : Byte} {s : State} {r : Byte × State} (hr : s.pins.resetLow = false)
    (h : abortAnswer s (v.toNat % 16) = r) :
    exec (.abort v) s = .next { r.2 with host := { r.2.host with lastAbort := r.1 } } := by
  refine ifHigh_of_resetHigh hr ?_
  show hostAbort s v = _
  simp only [hostAbort, low4, h]

/-- A queue whose tags do not repeat holds one entry for a tag. -/
theorem find_tag_of_mem {l : List QEntry} {q : QEntry} (hn : (l.map QEntry.tag).Nodup) (hq : q ∈ l) :
    l.find? (fun e => e.tag == q.tag) = some q := by
  have hex : (l.find? (fun e => e.tag == q.tag)).isSome = true :=
    List.find?_isSome.2 ⟨q, hq, beq_self_eq_true _⟩
  obtain ⟨e, he⟩ := Option.isSome_iff_exists.1 hex
  have htag : e.tag = q.tag := by simpa using List.find?_some he
  rw [he, List.inj_on_of_nodup_map hn (List.mem_of_find?_eq_some he) hq htag]

theorem queuedCmd_of_mem {s : State} {q : QEntry} (hn : (s.host.queue.map QEntry.tag).Nodup) (hq : q ∈ s.host.queue) :
    queuedCmd s q.tag = some q.cmd := by
  rw [queuedCmd, find_tag_of_mem hn hq]
  rfl

/-- Settles O25: the law of the tags gives a QUEUED tag its one entry. -/
theorem abortByTagState : Obligations.AbortByTagState := by
  rintro v s t hr htags rfl
  obtain ⟨-, -, hnodup, -, hlaw⟩ := htags
  refine ⟨fun hf => exec_abort (r := (noSuchTag, s)) hr ?_, fun hc => exec_abort (r := (tooLate, s)) hr ?_,
    fun q hq hqt => ?_⟩
  · rw [abortAnswer, tagState, hf]
  · rw [abortAnswer, tagState, hc]
  · have hqueued : s.host.tags.getD q.tag .free = .queued := (hlaw q.tag).1.2 (List.mem_map_of_mem hq)
    have hanswer : abortAnswer s q.tag =
        if q.cmd.notAbortable then (notAbortable, s) else (removedResult, removeQueued s q.tag) := by
      rw [abortAnswer, tagState, hqueued]
      simp only [queuedCmd_of_mem hnodup hq]
    refine ⟨fun hu => exec_abort (r := (notAbortable, s)) hr ?_,
      fun hu => exec_abort (r := (removedResult, removeQueued s (v.toNat % 16))) hr ?_⟩
    · rw [hqt] at hanswer
      rw [hanswer, if_pos ((unabortable_iff _).2 hu)]
    · rw [hqt] at hanswer
      rw [hanswer, if_neg (fun h => hu ((unabortable_iff _).1 h))]

/-- The host's command completes, no teardown waiting for it (R78, R186). -/
theorem complete_host {s : State} {c : Ctx} {t : Nat} (r : Result) (hc : s.inflight = some c) (ho : c.origin = .host t)
    (ht : c.tearDue = false) : complete s r = syncIdle (answeredHost s t r) := by
  simp only [complete, hc, ht, Bool.false_eq_true, if_false, postResult, ho]
  rfl

/-- Settles O26: `abortInFlight` stage by stage. -/
theorem abortOfTheCommandInFlight : Obligations.AbortOfTheCommandInFlight := by
  rintro v s t c hr rfl htag hc ho
  have hanswer : abortAnswer s (v.toNat % 16) = abortInFlight s c := by
    rw [abortAnswer, tagState, htag]
    simp only [hc]
  have stop : modCtx s (fun c => { c with stopping := true }) = { s with inflight := some { c with stopping := true } } := by
    simp only [modCtx, hc, Option.map_some]
  refine ⟨fun hu => exec_abort (r := (notAbortable, s)) hr ?_, fun hu hstage => exec_abort (r := (tooLate, s)) hr ?_,
    fun hu hstage => exec_abort (r := (stoppingResult, { s with inflight := some { c with stopping := true } })) hr ?_,
    fun r hu htear hcase => exec_abort (r := (stoppingResult, syncIdle (answeredHost s (v.toNat % 16) r))) hr ?_⟩
  · rw [hanswer, abortInFlight, if_pos ((unabortable_iff _).2 hu)]
  all_goals rw [hanswer, abortInFlight, if_neg (fun h => hu ((unabortable_iff _).1 h))]
  · rw [hstage]
  · rw [← stop]
    rcases hstage with hst | ⟨k, hst⟩ | ⟨o, hst⟩ | ⟨hst, hq⟩
    · rw [hst]
    · rw [hst]
    · rw [hst]
    · rw [hst]
      exact if_neg (by simpa using hq)
  · rw [← complete_host r hc ho htear]
    rcases hcase with ⟨⟨b, hst⟩, rfl⟩ | ⟨hst, x, hx, rfl⟩
    · rw [hst, ← Ctx.endSeq_carried (st := .aborted) c (by decide) (by decide)]
      simp only [completeFail, hc]
      rfl
    · rw [hst]
      simp only [reclaimStopped, hx]
      rfl

end Sys2Proof.Machine
end

