-- ==== Sys2Proof/Proofs/HostRegisters.lean ====
section
/-! Register writes without a row of their own (R179), the buffer window (R189, R190), ALERT (R191) and the settings (R194). -/

namespace Sys2Proof.Machine

/-! ### The argument registers -/

/-- The argument registers in the order of their locations, 10h to 1Dh (R209). -/
def ArgRegs.bytes (a : ArgRegs) : List Byte :=
  [a.cmd, a.tag, a.keyh, a.keyl, a.buf, a.len, a.arg0, a.arg1, a.arg2, a.arg3, a.arg4, a.arg5, a.arg6, a.arg7]

theorem bytes_writeArg (a : ArgRegs) {k : Nat} (hk : k < 14) (v : Byte) :
    (writeArg a (0x10 + k) v).bytes = a.bytes.set k v := by
  interval_cases k <;> rfl

theorem hostRead_arg {s : State} (hr : s.pins.resetLow = false) {k : Nat} (hk : k < 14) :
    hostRead s (0x10 + k) = s.host.args.bytes.getD k 0 := by
  interval_cases k <;> simp [hostRead, hr, ArgRegs.bytes]

/-- The other locations do not show an argument register. -/
theorem hostRead_ofArgs (s : State) (a : ArgRegs) {o : Nat} (ho : o < 0x10 ∨ 0x1D < o) :
    hostRead { s with host := { s.host with args := a } } o = hostRead s o := by
  rcases Nat.lt_or_ge o 0x33 with h | h
  · rcases ho with ho | ho <;> interval_cases o <;> rfl
  · rw [hostRead_past _ h, hostRead_past _ h]

/-- An argument register reads back what was written, and no other location changes. -/
theorem hostRead_writeArg {s : State} (hr : s.pins.resetLow = false) {off : Nat} (h1 : 0x10 ≤ off) (h2 : off ≤ 0x1D)
    (v : Byte) (o : Nat) : hostRead { s with host := { s.host with args := writeArg s.host.args off v } } o =
      if o = off then v else hostRead s o := by
  obtain ⟨k, rfl⟩ := Nat.exists_eq_add_of_le h1
  have hk : k < 14 := by omega
  rcases Nat.lt_or_ge o 0x10 with ho | ho
  · rw [hostRead_ofArgs _ _ (.inl ho), if_neg (by omega)]
  obtain ⟨j, rfl⟩ := Nat.exists_eq_add_of_le ho
  rcases Nat.lt_or_ge j 14 with hj | hj
  · rw [hostRead_arg hr hj, hostRead_arg (by exact hr) hj, bytes_writeArg _ hk]
    by_cases hjk : j = k
    · subst hjk
      have : j < s.host.args.bytes.length := hj
      simp [this]
    · rw [if_neg (by omega)]
      simp [Ne.symm hjk]
  · rw [hostRead_ofArgs _ _ (.inr (by omega)), if_neg (by omega)]

theorem writeArg_ignored (a : ArgRegs) {off : Nat} (h : off < 0x10 ∨ 0x1D < off) (v : Byte) : writeArg a off v = a := by
  unfold writeArg
  split <;> simp at h ⊢

/-- A location without a rule of its own takes the byte as an argument register, if it is one. -/
theorem hostWrite_plain (s : State) {off : Nat} (h : off ∉ [0x04, 0x05, 0x06, 0x07, 0x08, 0x1E, 0x2A, 0x2C, 0x30, 0x31, 0x32])
    (v : Byte) : hostWrite s off v = { s with host := { s.host with args := writeArg s.host.args off v } } := by
  unfold hostWrite
  split <;> simp at h ⊢

theorem own_of_toNat : ∀ off : BitVec 6, off.toNat ∈ [0x04, 0x05, 0x06, 0x07, 0x08, 0x1E, 0x2A, 0x2C, 0x30, 0x31, 0x32] →
    off.toNat = 0x30 ∨ off.toNat = 0x31 ∨ off ∈ ownRowLocations := by
  decide

/-- Settles O23: a location that is no row's and neither BUFSEL nor BUFPTR is written as an argument register. -/
theorem registerWriteStoresOrIsIgnored : Obligations.RegisterWriteStoresOrIsIgnored := by
  intro off v s hr hown
  have plain : off.toNat ≠ 0x30 → off.toNat ≠ 0x31 →
      hostWrite s off.toNat v = { s with host := { s.host with args := writeArg s.host.args off.toNat v } } :=
    fun h30 h31 => hostWrite_plain s (fun hmem => by
      rcases own_of_toNat off hmem with h | h | h
      · exact h30 h
      · exact h31 h
      · exact hown h) v
  refine ⟨fun h1 h2 => ⟨writeArg s.host.args off.toNat v, ifHigh_of_resetHigh hr (plain (by omega) (by omega)),
      hostRead_writeArg hr h1 h2 v⟩,
    fun h => ifHigh_of_resetHigh hr (by subst h; rfl), fun h => ifHigh_of_resetHigh hr (by subst h; rfl),
    fun h => ifHigh_of_resetHigh hr ((plain (by omega) (by omega)).trans ?_)⟩
  rw [writeArg_ignored _ (by omega)]

/-! ### The buffer window -/

theorem writeBufData_idle {s : State} (h : s.host.bufOwner.getD s.host.bufSel.toNat none = none) (v : Byte) :
    writeBufData s v = advancePtr (stagingWrite s s.host.bufSel.toNat s.host.bufPtr.toNat v) :=
  if_neg (by simp only [bufferHeld, h, Option.isSome_none, Bool.false_eq_true, not_false_eq_true])

theorem writeBufData_held {s : State} (h : s.host.bufOwner.getD s.host.bufSel.toNat none ≠ none) (v : Byte) :
    writeBufData s v = advancePtr (raise s .conflict) :=
  if_pos (Option.isSome_iff_ne_none.2 h)

/-- A byte of the window's buffers after a write of one. -/
theorem stagingRead_write (s : State) (hw : StagingOk s.staging) {b p : Nat} (hp : p < 256) (v : Byte) (c : Nat) {i : Nat}
    (hi : i < 256) : stagingRead (stagingWrite s b p v) c i = if c = b ∧ i = p then v else stagingRead s c i := by
  split
  · rename_i h
    rw [h.1, h.2, stagingRead_write_same s b p v hw]
  · rename_i h
    exact stagingRead_write_other s b p c i v (fun he => h (by unfold stagingAddr at he; omega))

theorem stagingRead_congr {s t : State} (h : t.staging = s.staging) (c i : Nat) : stagingRead t c i = stagingRead s c i := by
  unfold stagingRead
  rw [h]

/-- Settles O27: the selected buffer is IDLE or HELD. -/
theorem bufferWindowActs : Obligations.BufferWindowActs := by
  rintro v s b p hr rfl rfl
  refine ⟨ifHigh_of_resetHigh hr rfl, fun t ht => ifHigh_of_resetHigh hr (writeBufData_held (by rw [ht]; simp) v),
    fun hw hidle => ⟨(stagingWrite s s.host.bufSel.toNat s.host.bufPtr.toNat v).staging,
      ifHigh_of_resetHigh hr (writeBufData_idle hidle v), fun c i hi => ?_⟩⟩
  exact stagingRead_write s hw s.host.bufPtr.isLt v c hi

/-- Settles O28: the write goes to the selected buffer, which is not HELD when it is stored. -/
theorem heldBufferKeepsItsContent : Obligations.HeldBufferKeepsItsContent := by
  refine ⟨fun v s t hheld h => ?_, fun v s t b hw hheld h => ?_⟩
  · injection h with h
    cases hr : s.pins.resetLow with
    | true => rw [if_pos hr] at h; subst h; exact ⟨rfl, fun hf => absurd hf (by simp)⟩
    | false =>
      rw [if_neg (by simp [hr])] at h
      have he : writeBufData s v = t := h
      rw [writeBufData_held hheld] at he
      subst he
      exact ⟨rfl, fun _ => ⟨rfl, rfl⟩⟩
  · injection h with h
    cases hr : s.pins.resetLow with
    | true => rw [if_pos hr] at h; subst h; exact ⟨rfl, fun _ _ => rfl⟩
    | false =>
      rw [if_neg (by simp [hr])] at h
      have he : writeBufData s v = t := h
      by_cases hsel : s.host.bufOwner.getD s.host.bufSel.toNat none = none
      · rw [writeBufData_idle hsel] at he
        subst he
        refine ⟨rfl, fun i hi => ?_⟩
        refine (stagingRead_write s hw s.host.bufPtr.isLt v b hi).trans (if_neg ?_)
        rintro ⟨rfl, -⟩
        exact hheld hsel
      · rw [writeBufData_held hsel] at he
        subst he
        exact ⟨rfl, fun _ _ => rfl⟩

/-! ### ALERT, ALERTMASK and the settings -/

/-- Settles O29: the two writes are the rows' own operations; the flags kept are read bit by bit. -/
theorem alertRegistersWrite : Obligations.AlertRegistersWrite := by
  intro v s hr
  refine ⟨ifHigh_of_resetHigh hr rfl, ifHigh_of_resetHigh hr rfl, fun i => ?_⟩
  rw [BitVec.getLsbD_and, BitVec.getLsbD_not]
  by_cases hi : i < 8
  · simp [hi]
  · simp [hi, BitVec.getLsbD_of_ge s.alert.flags i (by omega)]

theorem clamp_eq {lo hi : Nat} (h : lo ≤ hi) (n : Nat) :
    clamp lo hi n = if n < lo then lo else if hi < n then hi else n := by
  unfold clamp
  split
  · omega
  · split <;> omega

/-- Settles O33: both settings are stored by `clamp`. -/
theorem settingsAreClamped : Obligations.SettingsAreClamped := by
  intro v s hr
  rw [← clamp_eq (lo := 2) (hi := 16) (by decide), ← clamp_eq (lo := 1) (hi := 8) (by decide)]
  exact ⟨ifHigh_of_resetHigh hr rfl, ifHigh_of_resetHigh hr rfl⟩

end Sys2Proof.Machine
end

