-- ==== Sys2Proof/Proofs/FrameTests.lean ====
section
/-! Frames on the two-wire bus: the tests of a frame (R199, R200), a store request that waits, and the answers that the port
gives itself (R203, R204). -/

namespace Sys2Proof.Machine

/-! ### The tests of R199 -/

/-- The frame passes the first two tests of R199: at least 3 bytes, and its CRC-8. -/
def crcStands (f : List Byte) : Prop := ¬ f.length < 3 ∧ crc8 f.dropLast = f.getD (f.length - 1) 0

/-- Its code is one of R200. -/
def codeKnown (f : List Byte) : Prop := f.getD 0 0 ∈ portCodes ∨ f.getD 0 0 ∈ storeCodes

theorem codeKnown_iff (f : List Byte) : codeKnown f ↔ requestCodes.contains (byteAt f 0) = true := by
  simp [codeKnown, byteAt, portCodes, storeCodes, requestCodes]
  tauto

theorem word16At_toNat (f : List Byte) (i : Nat) : (word16At f i).toNat = numberAt f i := by
  have h := (byteAt f (i + 1)).isLt
  unfold word16At numberAt
  rw [BitVec.toNat_append, Nat.shiftLeft_eq, Nat.mul_comm, ← Nat.two_pow_add_eq_or_of_lt h]
  rfl

theorem keyInRange_iff (f : List Byte) (i : Nat) : keyInRange (word16At f i) = true ↔ keyOk (numberAt f i) := by
  simp [keyInRange, keyOk, word16At_toNat]

theorem frameLength_iff {f : List Byte} (hk : codeKnown f) :
    frameLength f = some f.length ↔ lengthFits f := by
  have hb : byteAt f 0 = f.getD 0 0 := rfl
  simp only [codeKnown, portCodes, storeCodes, List.mem_cons, List.not_mem_nil, or_false] at hk
  simp only [frameLength, lengthFits, hb]
  generalize f.getD 0 0 = c at hk
  rcases hk with (rfl | rfl | rfl | rfl) | (rfl | rfl | rfl | rfl | rfl | rfl | rfl | rfl | rfl) <;>
    simp [byteAt, eq_comm]

/-- The last test: a code of the list has a request exactly if its arguments are in range (R200). -/
theorem requestOf_isSome_iff {f : List Byte} (hk : codeKnown f) :
    (requestOf f).isSome = true ↔ argumentsFit f := by
  have hb : ∀ i, f.getD i 0 = byteAt f i := fun _ => rfl
  simp only [codeKnown, portCodes, storeCodes, List.mem_cons, List.not_mem_nil, or_false, hb] at hk
  simp only [requestOf, argumentsFit, hb, word16At_toNat]
  generalize byteAt f 0 = c at hk
  rcases hk with (rfl | rfl | rfl | rfl) | (rfl | rfl | rfl | rfl | rfl | rfl | rfl | rfl | rfl) <;>
    simp [keyInRange_iff, and_assoc]

/-- A store code asks for a command (R200). -/
theorem requestOf_store {f : List Byte} (hk : f.getD 0 0 ∈ storeCodes) (ha : argumentsFit f) :
    ∃ c, requestOf f = some (.store c) := by
  have hsome := (requestOf_isSome_iff (.inr hk)).2 ha
  have hb : byteAt f 0 = f.getD 0 0 := rfl
  simp only [storeCodes, List.mem_cons, List.not_mem_nil, or_false] at hk
  simp only [requestOf, hb] at hsome ⊢
  generalize f.getD 0 0 = c at hk hsome
  rcases hk with rfl | rfl | rfl | rfl | rfl | rfl | rfl | rfl | rfl <;> simp at hsome ⊢ <;> tauto

/-! ### The verdict on a frame -/

/-- The tag that a refusal carries. -/
def frameTag (f : List Byte) : Byte := if 2 ≤ f.length then f.getD 1 0 else 0xFF

theorem checkFrame_short {f : List Byte} {x : Bool} (s : State) (h : f.length < 3 ∨ x = true) :
    checkFrame s f x = .refused (frameTag f) 0x30 :=
  if_pos (by simpa using h)

theorem checkFrame_crc {f : List Byte} (s : State) (h3 : ¬ f.length < 3) (h : ¬ crc8 f.dropLast = f.getD (f.length - 1) 0) :
    checkFrame s f false = .refused (frameTag f) 0x30 :=
  (if_neg (by simpa using h3)).trans (if_pos h)

theorem checkFrame_code {f : List Byte} (s : State) (h : crcStands f) (hk : ¬ codeKnown f) :
    checkFrame s f false = .refused (frameTag f) 0x23 :=
  (if_neg (by simpa using h.1)).trans ((if_neg (not_not.2 h.2)).trans (if_pos (by simpa [codeKnown_iff] using hk)))

theorem checkFrame_length {f : List Byte} (s : State) (h : crcStands f) (hk : codeKnown f) (hl : ¬ lengthFits f) :
    checkFrame s f false = .refused (frameTag f) 0x30 := by
  have hc := (codeKnown_iff f).1 hk
  refine (if_neg (by simpa using h.1)).trans ((if_neg (not_not.2 h.2)).trans ((if_neg (by simpa using hc)).trans (if_pos ?_)))
  exact fun he => hl ((frameLength_iff hk).1 he)

/-- A frame of the right length with a known code, by the request it spells. -/
theorem checkFrame_fits {f : List Byte} {s : State} {o : Option Request} (h : crcStands f) (hk : codeKnown f)
    (hl : lengthFits f) (ho : requestOf f = o) : checkFrame s f false = (o.elim (.refused (frameTag f) 0x23) fun
      | .store c => if s.mgmt.session = false then .refused (frameTag f) 0x31
        else if s.eng.store = .halted then .refused (frameTag f) 0x10 else .taken (.store c)
      | .openSession => .taken .openSession
      | .closeSession => .taken .closeSession
      | .status => .taken .status
      | .segment n => .taken (.segment n)) := by
  have hc := (codeKnown_iff f).1 hk
  refine (if_neg (by simpa using h.1)).trans ((if_neg (not_not.2 h.2)).trans ((if_neg (by simpa using hc)).trans
    ((if_neg (not_not.2 ((frameLength_iff hk).2 hl))).trans ?_)))
  rw [ho]
  cases o with
  | none => rfl
  | some r => cases r with
    | store c =>
      cases hs : s.mgmt.session <;> rfl
    | _ => rfl

end Sys2Proof.Machine
end

