-- ==== Sys2Proof/Proofs/Frames.lean ====
section
/-! Whole write transfers: the slot that a frame takes, a store request that waits (R197, R199), and the answers that the port
gives itself (R203, R204). -/

namespace Sys2Proof.Machine

/-! ### The slot of a whole write transfer -/

theorem slotOf_slotTaken (s : State) (b : Bool) (n : Nat) (v : Nat → Slot) :
    slotOf (slotTaken s b n v) b = v (s.mgmt.arrivals + 1) := by
  cases b <;> rfl

theorem answerSlot_slotTaken (s : State) (b : Bool) (n a : Nat) (v : Nat → Slot) (tag status : Byte) (payload : List Byte) :
    answerSlot (slotTaken s b n v) b a tag status payload =
      slotTaken s b n (fun _ => .answered a (responseFrame tag status payload)) := by
  cases b <;> rfl

theorem checkFrame_slotTaken (s : State) (b : Bool) (n : Nat) (v : Nat → Slot) (f : List Byte) (x : Bool) :
    checkFrame (slotTaken s b n v) f x = checkFrame s f x := by
  cases b <;> rfl

theorem frameEnd_of_refused {s : State} {b : Bool} {a : Nat} {f : List Byte} {x : Bool} {tag status : Byte}
    (hs : slotOf s b = .receiving a f x) (h : checkFrame s f x = .refused tag status) :
    frameEnd s b = answerSlot s b a tag status [] := by
  simp only [frameEnd, hs, h]

/-- A frame that is refused. -/
theorem frameEnd_refused {s : State} {b : Bool} {n : Nat} {f : List Byte} {x : Bool} {tag status : Byte}
    (h : checkFrame s f x = .refused tag status) : frameEnd (slotTaken s b n (fun a => .receiving a f x)) b =
      slotTaken s b n (fun a => .answered a (bareResponse tag status)) := by
  rw [frameEnd_of_refused (slotOf_slotTaken s b n _) ((checkFrame_slotTaken ..).trans h), answerSlot_slotTaken]
  rfl

/-- A frame that is accepted. -/
theorem frameEnd_taken {s : State} {b : Bool} {n : Nat} {f : List Byte} {x : Bool} {r : Request}
    (h : checkFrame s f x = .taken r) : frameEnd (slotTaken s b n (fun a => .receiving a f x)) b =
      acceptFrame (slotTaken s b n (fun a => .receiving a f x)) b (s.mgmt.arrivals + 1) f r := by
  simp only [frameEnd, slotOf_slotTaken, checkFrame_slotTaken, h]

/-- A row that sends the frame `body` and its CRC-8, which finds a slot. -/
theorem exec_frame {i : Instr} {s : State} {addr : BitVec 7} {b : Bool} {body : List Byte}
    (hi : exec i s = takeEvent s (fun s => sendFrame s addr body)) (hf : busFree s addr) (hm : s.ctl.mgmten = true)
    (hn : nextSlot s b) (hl : body.length + 1 ≤ 247) : exec i s =
      .next (frameEnd (slotTaken s b (body.length + 1) (fun a => .receiving a (body ++ [crc8 body]) false)) b) := by
  have hlen : (body ++ [crc8 body]).length = body.length + 1 := by simp
  rw [hi, takeEvent_of_resetHigh hf.1, sendFrame, requestFrame,
    busWrite_taken _ hf hm hn (by simp) (by rw [hlen]; exact hl), hlen]

/-! ### Frames with their CRC-8 -/

theorem crcStands_request {body : List Byte} (h : 2 ≤ body.length) : crcStands (body ++ [crc8 body]) := by
  refine ⟨by simp; omega, ?_⟩
  simp

theorem frameTag_request {body : List Byte} (h : 2 ≤ body.length) : frameTag (body ++ [crc8 body]) = body.getD 1 0 := by
  rw [frameTag, if_pos (by simp; omega), List.getD_append _ _ _ _ (by omega)]

theorem refusedFrame_short {addr : BitVec 7} {f : List Byte} {s : State} {b : Bool} {tag status : Byte} (hf : busFree s addr)
    (hm : s.ctl.mgmten = true) (hn : nextSlot s b) (h0 : f ≠ []) (hl : f.length ≤ 247)
    (hc : checkFrame s f false = .refused tag status) : exec (.mgmtFrameRefused (.whole addr f)) s =
      .next (slotTaken s b f.length (fun a => .answered a (bareResponse tag status))) :=
  (takeEvent_of_resetHigh hf.1 (fun s => busWrite s (.whole addr f))).trans
    (congrArg Host.Outcome.next ((busWrite_taken f hf hm hn h0 hl).trans (frameEnd_refused hc)))

/-- The first test that fails decides the status (R199). -/
theorem checkFrame_refusedWith {s : State} {f : List Byte} {status : Byte} (h : refusedWith s f status) :
    checkFrame s f false = .refused (frameTag f) status := by
  rcases h with ⟨rfl, h | h⟩ | ⟨rfl, h3, hc, hk⟩ | ⟨rfl, h3, hc, hk, hl⟩ | ⟨rfl, h3, hc, hk, hl, ha⟩ |
    ⟨rfl, h3, hc, hk, hl, ha, hs⟩ | ⟨rfl, h3, hc, hk, hl, ha, hs, hh⟩
  · exact checkFrame_short s (.inl h)
  · by_cases h3 : f.length < 3
    · exact checkFrame_short s (.inl h3)
    · exact checkFrame_crc s h3 h
  · exact checkFrame_code s ⟨h3, hc⟩ hk
  · exact checkFrame_length s ⟨h3, hc⟩ hk hl
  · have hnone : requestOf f = none := by
      rw [← Option.not_isSome_iff_eq_none]
      exact fun h => ha ((requestOf_isSome_iff hk).1 h)
    exact checkFrame_fits ⟨h3, hc⟩ hk hl hnone
  · obtain ⟨c, hr⟩ := requestOf_store hk ha
    exact (checkFrame_fits ⟨h3, hc⟩ (.inr hk) hl hr).trans (if_pos hs)
  · obtain ⟨c, hr⟩ := requestOf_store hk ha
    exact (checkFrame_fits ⟨h3, hc⟩ (.inr hk) hl hr).trans ((if_neg (by simp [hs])).trans (if_pos hh))

/-! ### The bytes of a write transfer -/

/-- The bytes after the 247th are NAKed and mark the frame (R197). -/
theorem writeBytes_full (vs : List Byte) : ∀ (u : State) (b : Bool) (a : Nat) (bs : List Byte) (x : Bool),
    u.mgmt.xfer = some (.write b) → slotOf u b = .receiving a bs x → bs.length = 247 → vs ≠ [] →
    writeBytes u vs = setSlot { u with pins := { u.pins with
      sdaAcks := u.pins.sdaAcks ++ List.replicate vs.length false } } b (.receiving a bs true) := by
  induction vs with
  | nil => exact fun _ _ _ _ _ _ _ _ h => absurd rfl h
  | cons v vs ih =>
    intro u b a bs x hx hs hl _
    have hw : writeByte u v = setSlot { u with pins := { u.pins with sdaAcks := u.pins.sdaAcks ++ [false] } } b
        (.receiving a bs true) := by
      simp only [writeByte, hx, hs, Slot.store, Slot.takes, hl, Nat.lt_irrefl, if_false, decide_false]
      cases b <;> rfl
    show writeBytes (writeByte u v) vs = _
    rw [hw]
    cases vs with
    | nil => cases b <;> rfl
    | cons v' vs =>
      rw [ih _ b a bs true (by cases b <;> exact hx) (by cases b <;> rfl) hl (List.cons_ne_nil _ _)]
      cases b <;> simp [setSlot, List.replicate_succ]

theorem freeSlot_of_next {s : State} {b : Bool} (h : nextSlot s b) : freeSlot s = some b := by
  obtain ⟨hfree, hfirst⟩ := h
  cases b with
  | false => exact if_pos hfree
  | true => exact (if_neg (hfirst rfl)).trans (if_pos hfree)

/-- A write transfer that has begun, before its first byte. -/
def writeBegun (s : State) : State :=
  { s with mgmt := { s.mgmt with xfer := some .writeStart }, pins := { s.pins with sdaAcks := [], addrAck := true } }

/-- The bytes of a transfer that finds a slot, up to the 247th (R197). -/
theorem writeBytes_begun {s : State} {b : Bool} (hm : s.ctl.mgmten = true) (hn : nextSlot s b) {f : List Byte} (h0 : f ≠ [])
    (hl : f.length ≤ 247) : writeBytes (writeBegun s) f =
      setXfer (slotTaken s b f.length (fun a => .receiving a f false)) (some (.write b)) := by
  cases f with
  | nil => exact absurd rfl h0
  | cons v vs =>
    have hfree : freeSlot (writeBegun s) = some b := freeSlot_of_next hn
    have hw : writeByte (writeBegun s) v =
        setXfer (slotTaken s b 1 (fun a => .receiving a [v] false)) (some (.write b)) := by
      have hmg : (writeBegun s).ctl.mgmten = true := hm
      have hx : (writeBegun s).mgmt.xfer = some .writeStart := rfl
      simp only [writeByte, hx, hmg, if_true, hfree]
      cases b <;> rfl
    show writeBytes (writeByte (writeBegun s) v) vs = _
    rw [hw, writeBytes_room vs _ b (s.mgmt.arrivals + 1) [v] (by cases b <;> rfl) (by cases b <;> rfl)
      (by simpa [Nat.add_comm] using hl)]
    cases b <;> simp [setSlot, setXfer, slotTaken, List.replicate_succ]

theorem busWrite_own {s : State} {addr : BitVec 7} (hf : busFree s addr) (f : List Byte) :
    busWrite s (.whole addr f) = endWrite (writeBytes (writeBegun s) f) := by
  simp only [busWrite, addressByte_own hf, if_true]
  rfl

/-- The end of a write transfer that fills slot `b`. -/
theorem endWrite_filled {s : State} {b : Bool} (h : s.mgmt.xfer = none) :
    endWrite (setXfer s (some (.write b))) = frameEnd s b := by
  have hx : setXfer s none = s := by
    unfold setXfer
    rw [← h]
  exact congrArg (frameEnd · b) hx

/-- Settles O38: the tests of `checkFrame` in their order; a byte after the 247th marks the frame, which fails the first. -/
theorem refusedFrameIsAnsweredInOrder : Obligations.RefusedFrameIsAnsweredInOrder := by
  rintro addr f s b tag hf hm hn rfl
  refine ⟨fun status h0 hl href => refusedFrame_short hf hm hn h0 hl (checkFrame_refusedWith href), fun hl => ⟨_, ?_, rfl⟩⟩
  refine (takeEvent_of_resetHigh hf.1 (fun s => busWrite s (.whole addr f))).trans (congrArg Host.Outcome.next ?_)
  have hsplit : f = f.take 247 ++ f.drop 247 := (List.take_append_drop 247 f).symm
  have htake : (f.take 247).length = 247 := by simp; omega
  have hdrop : f.drop 247 ≠ [] := by simpa using hl
  have hbytes : writeBytes (writeBegun s) f = setXfer { slotTaken s b 247 (fun a => .receiving a (f.take 247) true) with
      pins := { s.pins with
        sdaAcks := List.replicate 247 true ++ List.replicate (f.length - 247) false, addrAck := true } } (some (.write b)) := by
    conv_lhs => rw [hsplit, writeBytes, List.foldl_append]
    have hfirst := writeBytes_begun hm hn (f := f.take 247) (by intro h; rw [h] at htake; cases htake) (by omega)
    rw [htake] at hfirst
    show writeBytes (writeBytes (writeBegun s) (f.take 247)) (f.drop 247) = _
    rw [hfirst, writeBytes_full _ _ b (s.mgmt.arrivals + 1) (f.take 247) false (by cases b <;> rfl) (by cases b <;> rfl)
      htake hdrop, List.length_drop]
    cases b <;> rfl
  rw [busWrite_own hf, hbytes, endWrite_filled (by cases b <;> exact hf.2.1)]
  have htag : (if 2 ≤ f.length then f.getD 1 0 else 0xFF) = frameTag (f.take 247) := by
    rw [if_pos (show 2 ≤ f.length by omega), frameTag, htake, if_pos (by decide)]
    simp
  rw [htag]
  exact (frameEnd_of_refused (by cases b <;> rfl) (checkFrame_short _ (.inr rfl))).trans (by cases b <;> rfl)

/-! ### Store requests -/

/-- What a row's frame is, whatever its CRC-8: its length, its code and the request it spells. -/
structure Spells (body : List Byte) (x : Byte) (c : Cmd) : Prop where
  long : 2 ≤ body.length
  short : body.length + 1 ≤ 247
  code : (body ++ [x]).getD 0 0 ∈ storeCodes
  fits : lengthFits (body ++ [x])
  asks : requestOf (body ++ [x]) = some (.store c)

theorem mgmtRow_spells {i : Instr} {addr : BitVec 7} {body : List Byte} {c : Cmd} (h : mgmtRow i = some (addr, body, c))
    (hw : i.wf = true) (x : Byte) : Spells body x c := by
  cases i with
  | put a => cases a with
    | host => cases h
    | mgmt addr ftag flags key value =>
      cases h
      have hw : (keyInRange key && value.length ≤ 240) = true := hw
      obtain ⟨hk, hv⟩ : keyInRange key = true ∧ value.length ≤ 240 := by simpa using hw
      have hn : value.length % 256 = value.length := Nat.mod_eq_of_lt (by omega)
      refine ⟨by simp, by simp; omega, by simp [storeCodes], ?_, ?_⟩
      · simp [lengthFits, hn]; omega
      · simp [requestOf, byteAt, word16At, halves16, hk, hn, hv]
  | delete a => cases a with
    | host => cases h
    | mgmt addr ftag flags key =>
      cases h
      have hk : keyInRange key = true := hw
      refine ⟨by simp, by simp, by simp [storeCodes], by simp [lengthFits], ?_⟩
      simp [requestOf, byteAt, word16At, halves16, hk]
  | get a => cases a with
    | host => cases h
    | mgmt addr ftag key =>
      cases h
      have hk : keyInRange key = true := hw
      refine ⟨by simp, by simp, by simp [storeCodes], by simp [lengthFits], ?_⟩
      simp [requestOf, byteAt, word16At, halves16, hk]
  | stat a => cases a with
    | host => cases h
    | mgmt addr ftag key =>
      cases h
      have hk : keyInRange key = true := hw
      refine ⟨by simp, by simp, by simp [storeCodes], by simp [lengthFits], ?_⟩
      simp [requestOf, byteAt, word16At, halves16, hk]
  | list a => cases a with
    | host => cases h
    | mgmt addr ftag after count =>
      cases h
      have hw : (after.toNat ≤ 0xFFFE && 1 ≤ count.toNat && count.toNat ≤ 16) = true := hw
      obtain ⟨⟨ha, hlow⟩, hhigh⟩ : (after.toNat ≤ 0xFFFE ∧ 1 ≤ count.toNat) ∧ count.toNat ≤ 16 := by simpa using hw
      refine ⟨by simp, by simp, by simp [storeCodes], by simp [lengthFits], ?_⟩
      simp [requestOf, byteAt, word16At, halves16, ha, hlow, hhigh]
  | batchOpen a => cases a with
    | host => cases h
    | mgmt addr ftag =>
      cases h
      refine ⟨by simp, by simp, by simp [storeCodes], by simp [lengthFits], ?_⟩
      simp [requestOf, byteAt]
  | batchCommit a => cases a with
    | host => cases h
    | mgmt addr ftag =>
      cases h
      refine ⟨by simp, by simp, by simp [storeCodes], by simp [lengthFits], ?_⟩
      simp [requestOf, byteAt]
  | batchAbort a => cases a with
    | host => cases h
    | mgmt addr ftag =>
      cases h
      refine ⟨by simp, by simp, by simp [storeCodes], by simp [lengthFits], ?_⟩
      simp [requestOf, byteAt]
  | freeze addr ftag lo hi =>
    cases h
    have hw : (keyInRange lo && keyInRange hi && lo.toNat ≤ hi.toNat) = true := hw
    obtain ⟨⟨hlo, hhi⟩, hle⟩ : (keyInRange lo = true ∧ keyInRange hi = true) ∧ lo.toNat ≤ hi.toNat := by simpa using hw
    refine ⟨by simp, by simp, by simp [storeCodes], by simp [lengthFits], ?_⟩
    simp [requestOf, byteAt, word16At, halves16, hlo, hhi, hle]
  | _ => cases h

theorem exec_mgmtRow {i : Instr} {addr : BitVec 7} {body : List Byte} {c : Cmd} (h : mgmtRow i = some (addr, body, c))
    (s : State) : exec i s = takeEvent s (fun s => sendFrame s addr body) := by
  cases i with
  | put a => cases a with
    | host => cases h
    | mgmt => cases h; rfl
  | delete a => cases a with
    | host => cases h
    | mgmt => cases h; rfl
  | get a => cases a with
    | host => cases h
    | mgmt => cases h; rfl
  | stat a => cases a with
    | host => cases h
    | mgmt => cases h; rfl
  | list a => cases a with
    | host => cases h
    | mgmt => cases h; rfl
  | batchOpen a => cases a with
    | host => cases h
    | mgmt => cases h; rfl
  | batchCommit a => cases a with
    | host => cases h
    | mgmt => cases h; rfl
  | batchAbort a => cases a with
    | host => cases h
    | mgmt => cases h; rfl
  | freeze => cases h; rfl
  | _ => cases h

/-- Settles O34: the frame of the row passes the seven tests, and the engine takes it from its slot. -/
theorem managementRequestWaits : Obligations.ManagementRequestWaits := by
  intro i addr body c s b hi hwf hf hm hn hsession hstore
  obtain ⟨hlong, hshort, hcode, hfits, hasks⟩ := mgmtRow_spells hi hwf (crc8 body)
  refine ⟨?_, by simp only [frameCmd, hasks]⟩
  have hcheck : checkFrame s (body ++ [crc8 body]) false = .taken (.store c) :=
    (checkFrame_fits (crcStands_request hlong) (.inr hcode) hfits hasks).trans
      ((if_neg (by simp [hsession])).trans (if_neg hstore))
  rw [exec_frame (exec_mgmtRow hi s) hf hm hn hshort, frameEnd_taken hcheck]
  cases b <;> rfl

/-! ### The port's own answers -/

/-- A frame that the port answers itself. -/
theorem checkFrame_port {body : List Byte} {r : Request} (s : State) (hl : 2 ≤ body.length) (hc : body.getD 0 0 ∈ portCodes)
    (hf : lengthFits (body ++ [crc8 body])) (hr : requestOf (body ++ [crc8 body]) = some r) (hp : ∀ c, r ≠ .store c) :
    checkFrame s (body ++ [crc8 body]) false = .taken r := by
  have hk : codeKnown (body ++ [crc8 body]) := .inl (by rwa [List.getD_append _ _ _ _ (by omega)])
  rw [checkFrame_fits (crcStands_request hl) hk hf hr]
  cases r with
  | store c => exact absurd rfl (hp c)
  | _ => rfl

/-- OPEN, CLOSE, STATUS and SEGMENT are accepted, in every store state. -/
theorem exec_portRow {i : Instr} {addr : BitVec 7} {body : List Byte} {r : Request} {s : State} {b : Bool}
    (hi : exec i s = takeEvent s (fun s => sendFrame s addr body)) (hf : busFree s addr) (hm : s.ctl.mgmten = true)
    (hn : nextSlot s b) (hl : 2 ≤ body.length) (hs : body.length + 1 ≤ 247) (hc : body.getD 0 0 ∈ portCodes)
    (hfit : lengthFits (body ++ [crc8 body])) (hr : requestOf (body ++ [crc8 body]) = some r) (hp : ∀ c, r ≠ .store c) :
    exec i s = .next (acceptFrame (slotTaken s b (body.length + 1) (fun a => .receiving a (body ++ [crc8 body]) false)) b
      (s.mgmt.arrivals + 1) (body ++ [crc8 body]) r) := by
  rw [exec_frame hi hf hm hn hs, frameEnd_taken (checkFrame_port s hl hc hfit hr hp)]

/-- Settles O35: an open session stays as it is, a closed one is opened before the slot is answered. -/
theorem openOpensTheSession : Obligations.OpenOpensTheSession := by
  intro addr ftag s b hf hm hn
  have hrow : exec (.openSession addr ftag) s = takeEvent s (fun s => sendFrame s addr [0x01, ftag]) := rfl
  have hexec := exec_portRow (r := .openSession) hrow hf hm hn (by simp) (by simp) (by simp [portCodes])
    (by simp [lengthFits]) (by simp [requestOf, byteAt]) (by simp)
  refine ⟨fun hs => hexec.trans (congrArg Host.Outcome.next ?_), fun hs => hexec.trans (congrArg Host.Outcome.next ?_)⟩
  · have hopen : (slotTaken s b 3 (fun a => .receiving a ([0x01, ftag] ++ [crc8 [0x01, ftag]]) false)).mgmt.session = true := by
      cases b <;> exact hs
    exact (congrArg (fun t => answerSlot t b _ _ _ _) (if_pos hopen)).trans (answerSlot_slotTaken _ _ _ _ _ _ _ _)
  · have hclosed : ¬ (slotTaken s b 3 (fun a => .receiving a ([0x01, ftag] ++ [crc8 [0x01, ftag]]) false)).mgmt.session = true := by
      cases b <;> simp [slotTaken, setSlot, hs]
    refine (congrArg (fun t => answerSlot t b _ _ _ _) (if_neg hclosed)).trans ?_
    cases b <;> rfl

end Sys2Proof.Machine
end

