-- ==== Sys2Proof/Proofs/Session.lean ====
section
/-! The session and the port (R197, R198, R201, R203–R205): CLOSE, STATUS and SEGMENT, the lapse, the stall, the clearing of
MGMTEN, transfers without a slot, and read transfers. -/

namespace Sys2Proof.Machine

/-! ### STATUS and SEGMENT (R203) -/

/-- A byte of a number that fits its word. -/
theorem extract_ofNat {w k : Nat} (h : k + 8 ≤ w) (n : Nat) :
    (BitVec.ofNat w n).extractLsb' k 8 = BitVec.ofNat 8 (n / 2 ^ k) := by
  refine BitVec.eq_of_getLsbD_eq fun i hi => ?_
  have hki : k + i < w := by omega
  rw [BitVec.getLsbD_extractLsb', BitVec.getLsbD_ofNat, BitVec.getLsbD_ofNat, Nat.testBit_div_two_pow]
  simp only [hi, hki, decide_true, Bool.true_and, Nat.add_comm]

theorem be16_ofNat (n : Nat) : be16 (BitVec.ofNat 16 n) = [BitVec.ofNat 8 (n / 256), BitVec.ofNat 8 n] := by
  simp [be16, extract_ofNat]

theorem be24_eq (n : Nat) : be24 n = [BitVec.ofNat 8 (n / 65536), BitVec.ofNat 8 (n / 256), BitVec.ofNat 8 n] := by
  simp [be24, extract_ofNat]

theorem ownerByte_eq (s : State) :
    ownerByte s = (match s.batch with | none => 0x00 | some x => if x.owner = .host then 0x01 else 0x02) := by
  unfold ownerByte
  cases s.batch with
  | none => rfl
  | some x => cases hx : x.owner <;> simp [hx, Port.code]

theorem memberCount_eq (s : State) : memberCount s = (match s.batch with | none => 0 | some x => x.members.length) := by
  unfold memberCount
  cases s.batch <;> rfl

/-- Settles O37: the payloads are read off the tables, which the slot's own change leaves alone. -/
theorem statusAndSegmentAreAnswered : Obligations.StatusAndSegmentAreAnswered := by
  intro addr ftag n s b hf hm hn
  have hstatus : exec (.status addr ftag) s = takeEvent s (fun s => sendFrame s addr [0x03, ftag]) := rfl
  have hsegment : exec (.segment addr ftag n) s = takeEvent s (fun s => sendFrame s addr [0x04, ftag, n]) := rfl
  have segment_answer : ∀ payload, segmentPayload s n.toNat = payload → n.toNat ≤ 63 → exec (.segment addr ftag n) s =
      .next (slotTaken s b 4 (fun a => .answered a (responseFrame ftag 0x00 payload))) := by
    rintro payload rfl h63
    rw [exec_portRow (r := .segment n.toNat) hsegment hf hm hn (by simp) (by simp) (by simp [portCodes])
      (by simp [lengthFits]) (by simp [requestOf, byteAt, h63]) (by simp)]
    cases b <;> rfl
  refine ⟨?_, fun h63 hnone => segment_answer _ ?_ h63, fun e h63 he => segment_answer _ ?_ h63⟩
  · rw [exec_portRow (r := .status) hstatus hf hm hn (by simp) (by simp) (by simp [portCodes])
      (by simp [lengthFits]) (by simp [requestOf, byteAt]) (by simp)]
    have hpayload : statusPayload (slotTaken s b 3 (fun a => .receiving a ([0x03, ftag] ++ [crc8 [0x03, ftag]]) false)) =
        statusPayload s := by cases b <;> rfl
    refine congrArg Host.Outcome.next ((answerSlot_slotTaken _ _ _ _ _ _ _ _).trans ?_)
    simp only [List.length_cons, List.length_nil] at hpayload ⊢
    rw [hpayload, statusPayload, ownerByte_eq, memberCount_eq, be16_ofNat]
    rfl
  · simp [segmentPayload, hnone, byteOf]
  · simp only [segmentPayload, he, be16_ofNat, be24_eq, journalShown]
    have hfaults : min e.faults 255 = if 255 ≤ e.faults then 255 else e.faults := by split <;> omega
    have hbits : (bit (!e.known) 1 ||| bit e.retirePending 2 : Byte) =
        BitVec.ofNat 8 ((if e.known then 0 else 1) + (if e.retirePending then 2 else 0)) := by
      cases e.known <;> cases e.retirePending <;> rfl
    have hnumber : byteOf n.toNat = n := by simp [byteOf]
    rw [hfaults, hbits, hnumber]
    rfl

/-! ### The end of the session (R204) -/

/-- A slot whose WAITING request is answered with a status. -/
def Slot.waitAnswered (status : Byte) : Slot → Slot
  | .waiting a f => .answered a (bareResponse (f.getD 1 0) status)
  | v => v

theorem setSlot_self (s : State) (b : Bool) : setSlot s b (slotOf s b) = s := by
  cases b <;> rfl

theorem answerWaiting_eq (s : State) (b : Bool) (status : Byte) :
    answerWaiting s b status = setSlot s b ((slotOf s b).waitAnswered status) := by
  unfold answerWaiting
  cases h : slotOf s b with
  | waiting a f => rfl
  | _ => exact ((congrArg (setSlot s b) h).symm.trans (setSlot_self s b)).symm

theorem answerBothWaiting_eq (s : State) (status : Byte) : answerBothWaiting s status = { s with
    mgmt := { s.mgmt with slotA := s.mgmt.slotA.waitAnswered status, slotB := s.mgmt.slotB.waitAnswered status } } := by
  rw [answerBothWaiting, answerWaiting_eq, answerWaiting_eq]
  rfl

/-- A session that ends with `status` for the WAITING slots, but for a management-owned batch (R204). -/
def sessionOver (s : State) (status : Byte) : State :=
  { s with
    mgmt := { s.mgmt with
      session := false, slotA := s.mgmt.slotA.waitAnswered status, slotB := s.mgmt.slotB.waitAnswered status }
    alert := { s.alert with flags := s.alert.flags ||| 0x20 } }

theorem sessionEnd_eq (s : State) (status : Byte) : sessionEnd s status =
    syncIdle (if ownsBatch s .mgmt then endMgmtBatch (sessionOver s status) else sessionOver s status) := by
  rw [sessionEnd, answerBothWaiting_eq]
  rfl

theorem endedSlot_eq (v : Slot) : endedSlot v = v.waitAnswered 0x31 := by
  cases v <;> rfl

theorem endedSession_eq (s : State) : endedSession s = sessionOver s noSession := by
  unfold endedSession
  rw [endedSlot_eq, endedSlot_eq]
  rfl

/-- Settles O42: the stall frees the slot it fills; the lapse is the end of an open session. -/
theorem managementTimersExpire : Obligations.ManagementTimersExpire := by
  intro s hr
  have lapse : s.mgmt.session = true → sessionLapse s =
      syncIdle (if ownsBatch s .mgmt then endMgmtBatch (endedSession s) else endedSession s) := fun hs => by
    rw [sessionLapse, if_pos hs, sessionEnd_eq, endedSession_eq]
  refine ⟨fun b a f x hx hs => ifHigh_of_resetHigh hr ?_, fun hx => ifHigh_of_resetHigh hr ?_,
    fun hs ho => ifHigh_of_resetHigh hr ((lapse hs).trans ?_),
    fun hs ho => ⟨endMgmtBatch (endedSession s), ifHigh_of_resetHigh hr ((lapse hs).trans ?_), endMgmtBatch_ends _⟩,
    fun hs => ifHigh_of_resetHigh hr (if_neg (by simp [hs]))⟩
  · simp only [stallExpiry, hx, freeReceiving, hs]
    cases b <;> rfl
  · unfold stallExpiry
    split
    · rename_i b hb
      exact absurd hb (hx b)
    · rfl
  · rw [if_neg (by simp [ho])]
  · rw [if_pos ho]

/-! ### The clearing of MGMTEN (R205) -/

/-- A slot whose RECEIVING transfer is discarded. -/
def Slot.notReceiving : Slot → Slot
  | .receiving _ _ _ => .free
  | v => v

theorem freeReceiving_eq (s : State) (b : Bool) : freeReceiving s b = setSlot s b (slotOf s b).notReceiving := by
  unfold freeReceiving
  cases h : slotOf s b with
  | receiving a f x => rfl
  | _ => exact ((congrArg (setSlot s b) h).symm.trans (setSlot_self s b)).symm

/-- The slots and the transfer as the disabled port leaves them, before the session. -/
def portFreed (s : State) : State :=
  { s with mgmt := { s.mgmt with
      slotA := s.mgmt.slotA.notReceiving, slotB := s.mgmt.slotB.notReceiving, xfer := disabledXfer s.mgmt.xfer } }

theorem portDisable_eq (s : State) : portDisable s = if s.mgmt.session then sessionEnd (portFreed s) portDisabled
    else syncIdle (answerBothWaiting (portFreed s) portDisabled) := by
  have slots : freeReceiving (freeReceiving s false) true = { s with mgmt := { s.mgmt with
      slotA := s.mgmt.slotA.notReceiving, slotB := s.mgmt.slotB.notReceiving } } := by
    rw [freeReceiving_eq, freeReceiving_eq]
    rfl
  have nak : ∀ b, s.mgmt.xfer = some (.write b) →
      setXfer (freeReceiving (freeReceiving s false) true) (some .nak) = portFreed s := fun b hx => by
    rw [slots, portFreed, hx]
    rfl
  have kept : disabledXfer s.mgmt.xfer = s.mgmt.xfer → freeReceiving (freeReceiving s false) true = portFreed s :=
    fun hx => by rw [slots, portFreed, hx]
  have hxfer : (freeReceiving (freeReceiving s false) true).mgmt.xfer = s.mgmt.xfer := by rw [slots]
  unfold portDisable
  simp only [hxfer]
  cases h : s.mgmt.xfer with
  | none =>
    simp only [kept (by rw [h]; rfl)]
    rfl
  | some x => cases x with
    | write b =>
      simp only [nak b h]
      rfl
    | _ =>
      simp only [kept (by rw [h]; rfl)]
      rfl

theorem disabledSlot_eq (v : Slot) : disabledSlot v = v.notReceiving.waitAnswered 0x32 := by
  cases v <;> rfl

/-- Settles O32: the write of CONTROL stores its bits and disables the port, which ends an open session. -/
theorem clearingMgmtenDisablesThePort : Obligations.ClearingMgmtenDisablesThePort := by
  intro v s hr h7 hm
  have h7' : (v &&& 0xFB).getLsbD 7 = false := by simpa using h7
  have h2' : (v &&& 0xFB).getLsbD 2 = false := by simp
  have hbits : s.ctl.stored (v &&& 0xFB) = { s.ctl with cinten := v.getLsbD 0, bgren := v.getLsbD 1, mgmten := false } := by
    simp [Control.stored]
  have hwrite : writeControl s (v &&& 0xFB) = portDisable { s with ctl := s.ctl.stored (v &&& 0xFB) } := by
    simp only [writeControl, hm, h7', h2', Bool.not_false, Bool.and_self, Bool.false_and, Bool.false_eq_true, if_true, if_false]
    simp only [Control.stored, h2']
  have hopen : s.mgmt.session = true →
      sessionOver (portFreed { s with ctl := s.ctl.stored (v &&& 0xFB) }) portDisabled = disabledPort s v := fun hs => by
    rw [hbits, disabledPort, disabledSlot_eq, disabledSlot_eq, if_pos hs]
    rfl
  have hclosed : s.mgmt.session = false →
      answerBothWaiting (portFreed { s with ctl := s.ctl.stored (v &&& 0xFB) }) portDisabled = disabledPort s v := fun hs => by
    rw [answerBothWaiting_eq, hbits, disabledPort, disabledSlot_eq, disabledSlot_eq, if_neg (by simp [hs]), ← hs]
    rfl
  refine ⟨fun hcase => ifHigh_of_resetHigh hr (hwrite.trans ?_), fun hs ho => ⟨endMgmtBatch (disabledPort s v),
    ifHigh_of_resetHigh hr (hwrite.trans ?_), endMgmtBatch_ends _⟩⟩
  · rw [portDisable_eq]
    cases hs : s.mgmt.session with
    | false => rw [if_neg (by simp), hclosed hs]
    | true =>
      have ho : ownsBatch s .mgmt = false := by simpa [hs] using hcase
      rw [if_pos rfl, sessionEnd_eq, hopen hs]
      exact congrArg syncIdle (if_neg (show ¬ ownsBatch s .mgmt = true by simp [ho]))
  · rw [portDisable_eq, if_pos (by exact hs), sessionEnd_eq, hopen hs]
    exact congrArg syncIdle (if_pos ho)

/-! ### CLOSE (R204) -/

/-- The idle timer does not see the slot that receives a frame. -/
theorem receivingIn_syncIdle (b : Bool) (n a : Nat) (f : List Byte) (p : Pins) {u : State} (h : slotOf u b = .free) :
    syncIdle (receivingIn b n a f p u) = receivingIn b n a f p (syncIdle u) := by
  have hwork : batchOutstanding (receivingIn b n a f p u) = batchOutstanding u := by
    funext q
    cases q with
    | host => rfl
    | mgmt => cases b with
      | false => simp only [batchOutstanding, receivingIn, slotPut, show u.mgmt.slotA = .free from h]; rfl
      | true => simp only [batchOutstanding, receivingIn, slotPut, show u.mgmt.slotB = .free from h]; rfl
  unfold syncIdle
  rw [hwork]
  rfl

/-- The answer of the slot whose frame ended the session. -/
theorem answerSlot_received {s u : State} (b : Bool) (k : Nat) (f : List Byte) (tag status : Byte)
    (ha : u.mgmt.arrivals = s.mgmt.arrivals) (hp : u.pins = s.pins) :
    answerSlot (receivingIn b (s.mgmt.arrivals + 1) (s.mgmt.arrivals + 1) f
        { s.pins with sdaAcks := List.replicate k true, addrAck := true } u) b (s.mgmt.arrivals + 1) tag status [] =
      slotTaken u b k (fun a => .answered a (bareResponse tag status)) := by
  unfold slotTaken
  rw [ha, hp]
  cases b <;> rfl

/-- Settles O36: the slot that received CLOSE is not one that the end of the session answers. -/
theorem closeEndsTheSession : Obligations.CloseEndsTheSession := by
  intro addr ftag s b hf hm hn
  have hrow : exec (.closeSession addr ftag) s = takeEvent s (fun s => sendFrame s addr [0x02, ftag]) := rfl
  have hexec := exec_portRow (r := .closeSession) hrow hf hm hn (by simp) (by simp) (by simp [portCodes])
    (by simp [lengthFits]) (by simp [requestOf, byteAt]) (by simp)
  have hfree : slotOf (endedSession s) b = .free := by
    have h := hn.1
    cases b <;> exact congrArg endedSlot h
  have hover : sessionOver (slotTaken s b 3 (fun a => .receiving a ([0x02, ftag] ++ [crc8 [0x02, ftag]]) false)) noSession =
      receivingIn b (s.mgmt.arrivals + 1) (s.mgmt.arrivals + 1) ([0x02, ftag] ++ [crc8 [0x02, ftag]])
        { s.pins with sdaAcks := List.replicate 3 true, addrAck := true } (endedSession s) := by
    rw [endedSession_eq]
    cases b <;> rfl
  have hsession : (slotTaken s b 3 (fun a => .receiving a ([0x02, ftag] ++ [crc8 [0x02, ftag]]) false)).mgmt.session =
      s.mgmt.session := by cases b <;> rfl
  have howner : ownsBatch (slotTaken s b 3 (fun a => .receiving a ([0x02, ftag] ++ [crc8 [0x02, ftag]]) false)) .mgmt =
      ownsBatch s .mgmt := by cases b <;> rfl
  have answered : ∀ u : State, slotOf u b = .free → u.mgmt.arrivals = s.mgmt.arrivals → u.pins = s.pins →
      answerSlot (syncIdle (receivingIn b (s.mgmt.arrivals + 1) (s.mgmt.arrivals + 1) ([0x02, ftag] ++ [crc8 [0x02, ftag]])
        { s.pins with sdaAcks := List.replicate 3 true, addrAck := true } u)) b (s.mgmt.arrivals + 1) ftag 0x00 [] =
      slotTaken (syncIdle u) b 3 (fun a => .answered a (bareResponse ftag 0x00)) := fun u hu ha hp => by
    rw [receivingIn_syncIdle _ _ _ _ _ hu]
    exact answerSlot_received b 3 _ _ _ ha hp
  have ended : s.mgmt.session = true → exec (.closeSession addr ftag) s = .next (answerSlot (sessionEnd
      (slotTaken s b 3 (fun a => .receiving a ([0x02, ftag] ++ [crc8 [0x02, ftag]]) false)) noSession) b
      (s.mgmt.arrivals + 1) ftag 0x00 []) := fun hs =>
    hexec.trans (congrArg Host.Outcome.next (if_pos (hsession.trans hs)))
  refine ⟨fun hs => hexec.trans (congrArg Host.Outcome.next ?_), fun hs ho => (ended hs).trans (congrArg Host.Outcome.next ?_),
    fun hs ho => ⟨endMgmtBatch (endedSession s), endMgmtBatch_ends _, (ended hs).trans (congrArg Host.Outcome.next ?_)⟩⟩
  · refine (if_neg (fun h => absurd (hs.symm.trans (hsession.symm.trans h)) Bool.false_ne_true)).trans ?_
    exact answerSlot_slotTaken _ _ _ _ _ _ _ _
  · rw [sessionEnd_eq, howner, if_neg (by simp [ho]), hover]
    exact answered _ hfree rfl rfl
  · obtain ⟨harr, hpins, hslot⟩ := endMgmtBatch_keeps_free (endedSession s) b hfree
    rw [sessionEnd_eq, howner, if_pos ho, hover, receivingIn_endMgmtBatch _ _ _ _ _ _ hfree]
    exact answered _ hslot (harr.trans rfl) (hpins.trans rfl)

/-! ### Transfers without a slot (R197) -/

theorem writeBytes_nak (l : List Byte) : ∀ s : State, s.mgmt.xfer = some .nak → writeBytes s l =
    { s with pins := { s.pins with sdaAcks := s.pins.sdaAcks ++ List.replicate l.length false } } := by
  induction l with
  | nil => intro s _; simp [writeBytes]
  | cons v l ih =>
    intro s hx
    have hw : writeByte s v = ack s false := by simp only [writeByte, hx]
    show writeBytes (writeByte s v) l = _
    rw [hw, ih (ack s false) hx]
    simp [ack, List.replicate_succ]

theorem freeSlot_none {s : State} (ha : s.mgmt.slotA ≠ .free) (hb : s.mgmt.slotB ≠ .free) : freeSlot s = none :=
  (if_neg ha).trans (if_neg hb)

theorem endWrite_unfilled {s : State} (h : ∀ b, s.mgmt.xfer ≠ some (.write b)) : endWrite s = setXfer s none := by
  unfold endWrite
  split
  · rename_i b hb
    exact absurd hb (h b)
  · rfl

/-- The end of a transfer on a bus that was free before it. -/
theorem setXfer_over {s : State} (h : s.mgmt.xfer = none) (x : Option Xfer) (p : Pins) :
    setXfer { s with mgmt := { s.mgmt with xfer := x }, pins := p } none = { s with pins := p } := by
  unfold setXfer
  rw [← h]

/-- Settles O39: without a slot the first byte is NAKed, and the rest after it. -/
theorem writeTransferWithoutSlotIsNaked : Obligations.WriteTransferWithoutSlotIsNaked := by
  intro addr f s hf hcase
  refine (takeEvent_of_resetHigh hf.1 (fun s => busWrite s (.whole addr f))).trans (congrArg Host.Outcome.next ?_)
  rw [busWrite_own hf]
  cases f with
  | nil => exact (endWrite_unfilled (by rintro b ⟨⟩)).trans (setXfer_over hf.2.1 _ _)
  | cons v l =>
    have hnone : (if (writeBegun s).ctl.mgmten then freeSlot (writeBegun s) else none) = none := by
      rcases hcase with hm | ⟨ha, hb⟩ | hnil
      · exact if_neg (by simpa [writeBegun] using hm)
      · split
        · exact freeSlot_none ha hb
        · rfl
      · cases hnil
    have hx : (writeBegun s).mgmt.xfer = some .writeStart := rfl
    have hw : writeByte (writeBegun s) v = ack (setXfer (writeBegun s) (some .nak)) false := by
      simp only [writeByte, hx, hnone]
    show endWrite (writeBytes (writeByte (writeBegun s) v) l) = _
    rw [hw, writeBytes_nak l _ rfl]
    refine (endWrite_unfilled (by rintro b ⟨⟩)).trans ((setXfer_over hf.2.1 _ _).trans ?_)
    simp [ack, setXfer, writeBegun, List.replicate_succ]

/-! ### Read transfers (R201) -/

theorem getD_range_eq (f : List Byte) (n : Nat) : (List.range n).map (fun i => f.getD i 0xFF) = sentBytes f n := by
  refine List.ext_getElem? fun i => ?_
  simp only [sentBytes, List.getElem?_map, List.getElem?_append, List.getElem?_take, List.getElem?_replicate, List.length_take]
  rcases Nat.lt_or_ge i n with h | h
  · rcases Nat.lt_or_ge i f.length with hf | hf
    · simp [h, hf]
    · simp [h, hf, show ¬ i < min n f.length by omega, show i - min n f.length < n - f.length by omega]
  · simp [h, show ¬ i < min n f.length by omega, show ¬ i - min n f.length < n - f.length by omega]

theorem oldestSlot_eq {s : State} {b : Bool} (h : readSlot s b) : oldestSlot s = some b := by
  obtain ⟨a, ha, hother⟩ := h
  cases b with
  | false =>
    have ha : s.mgmt.slotA.arrival? = some a := ha
    cases hb : s.mgmt.slotB.arrival? with
    | none => simp only [oldestSlot, ha, hb]
    | some c =>
      have hlt := hother c hb
      simp only [oldestSlot, ha, hb, decide_eq_false (show ¬ c < a by omega)]
  | true =>
    have ha : s.mgmt.slotB.arrival? = some a := ha
    cases hb : s.mgmt.slotA.arrival? with
    | none => simp only [oldestSlot, ha, hb]
    | some c =>
      have hlt := hother c hb
      simp only [oldestSlot, ha, hb, decide_eq_true (show a < c by omega)]

/-- A whole read transfer, by the answer it sends and the slot it may free. -/
theorem busRead_own {s : State} {addr : BitVec 7} {n : Nat} {f : List Byte} {o : Option Bool} (hf : busFree s addr)
    (ha : readAnswer s = (f, o)) : busRead s (.whole addr n) =
      endRead (setXfer { s with pins := { s.pins with sdaOut := sentBytes f n, addrAck := true } }
        (some (.read f o n))) := by
  have hread : readAnswer { s with pins := { s.pins with addrAck := true } } = (f, o) := ha
  simp only [busRead, addressByte_own hf, if_true, beginRead, hread]
  simp only [clockBytes, setXfer, Nat.zero_add, getD_range_eq]

/-- Settles O41: the answer is the oldest slot's, and a slot is freed by the last byte of its response. -/
theorem readTransferSendsTheOldestAnswer : Obligations.ReadTransferSendsTheOldestAnswer := by
  intro addr n s hf
  have read : ∀ f o, readAnswer s = (f, o) → exec (.mgmtReadTransfer (.whole addr n)) s = .next (endRead (setXfer
      { s with pins := { s.pins with sdaOut := sentBytes f n, addrAck := true } } (some (.read f o n)))) := fun f o ha =>
    (takeEvent_of_resetHigh hf.1 (fun s => busRead s (.whole addr n))).trans
      (congrArg Host.Outcome.next (busRead_own hf ha))
  have closes : ∀ (x : Option Xfer) (f : List Byte), setXfer (setXfer
      { s with pins := { s.pins with sdaOut := sentBytes f n, addrAck := true } } x) none =
      { s with pins := { s.pins with sdaOut := sentBytes f n, addrAck := true } } := fun x f => setXfer_over hf.2.1 x _
  refine ⟨fun ha hb => (read _ none ?_).trans (congrArg Host.Outcome.next (closes _ _)), fun b hslot => ⟨fun a f hcase => ?_,
    fun a f hans => ?_⟩⟩
  · have hnone : oldestSlot s = none := by simp only [oldestSlot, ha, hb, Slot.arrival?]
    simp only [readAnswer, hnone]
    rfl
  · refine (read (bareResponse (f.getD 1 0) 0x33) none ?_).trans (congrArg Host.Outcome.next (closes _ _))
    rcases hcase with h | h <;> simp only [readAnswer, oldestSlot_eq hslot, h] <;> rfl
  · have ha : readAnswer s = (f, some b) := by simp only [readAnswer, oldestSlot_eq hslot, hans]
    refine ⟨fun hl => (read f (some b) ha).trans (congrArg Host.Outcome.next ?_),
      fun hl => (read f (some b) ha).trans (congrArg Host.Outcome.next ?_)⟩
    · refine (if_pos hl).trans ?_
      show freeAnswered (setXfer _ none) b = _
      rw [closes]
      have hslot' : slotOf { s with pins := { s.pins with sdaOut := sentBytes f n, addrAck := true } } b = .answered a f := by
        cases b <;> exact hans
      simp only [freeAnswered, hslot']
    · exact (if_neg (Nat.not_le.2 hl)).trans (closes _ _)

end Sys2Proof.Machine
end

