-- ==== Sys2Proof/Proofs/BusParts.lean ====
section
/-! A transfer on the bus in two parts, and a start during a transfer (R196, R197, R199, R201). -/

namespace Sys2Proof.Machine

/-! ### The transfer in progress is no part of an answer -/

theorem xfer_setSlot (s : State) (b : Bool) (v : Slot) : (setSlot s b v).mgmt.xfer = s.mgmt.xfer := by
  cases b <;> rfl

theorem xfer_teardown (s : State) : (teardown s false).mgmt.xfer = s.mgmt.xfer := by
  rw [(teardown_ports s).1]

theorem xfer_postResult (s : State) (c : Ctx) (r : Result) : (postResult s c r).mgmt.xfer = s.mgmt.xfer := by
  unfold postResult
  split
  · rfl
  · unfold answerRunning
    split
    · exact xfer_setSlot _ _ _
    · rfl

theorem xfer_complete (s : State) (r : Result) : (complete s r).mgmt.xfer = s.mgmt.xfer := by
  unfold complete
  split
  · rfl
  · rename_i c _
    refine Eq.trans ?_ (xfer_postResult s c r)
    dsimp only
    split
    · exact xfer_teardown _
    · rfl

theorem xfer_completeFail (s : State) (st : Status) : (completeFail s st).mgmt.xfer = s.mgmt.xfer := by
  unfold completeFail
  split
  · rfl
  · exact xfer_complete _ _

theorem xfer_endMgmtBatch (s : State) : (endMgmtBatch s).mgmt.xfer = s.mgmt.xfer := by
  unfold endMgmtBatch
  split
  · exact xfer_teardown s
  · split
    · split
      · exact (xfer_completeFail _ _).trans (xfer_teardown s)
      · exact xfer_teardown s
    · split
      · split
        · unfold loseBatch
          split
          · rfl
          · split
            · exact (xfer_completeFail _ _).trans (xfer_teardown s)
            · exact xfer_completeFail _ _
        · rfl
        · rfl
      · exact xfer_teardown s

theorem xfer_sessionEnd (s : State) (status : Byte) : (sessionEnd s status).mgmt.xfer = s.mgmt.xfer := by
  rw [sessionEnd_eq]
  show (if ownsBatch s .mgmt then endMgmtBatch (sessionOver s status) else sessionOver s status).mgmt.xfer = _
  split
  · exact xfer_endMgmtBatch _
  · rfl

theorem xfer_acceptFrame (s : State) (b : Bool) (a : Nat) (f : List Byte) (r : Request) :
    (acceptFrame s b a f r).mgmt.xfer = s.mgmt.xfer := by
  cases r with
  | openSession =>
    refine (xfer_setSlot _ _ _).trans ?_
    split <;> rfl
  | closeSession =>
    simp only [acceptFrame]
    split
    · exact (xfer_setSlot _ _ _).trans (xfer_sessionEnd _ _)
    · exact xfer_setSlot _ _ _
  | status => exact xfer_setSlot _ _ _
  | segment n => exact xfer_setSlot _ _ _
  | store c => exact xfer_setSlot _ _ _

theorem xfer_frameEnd (s : State) (b : Bool) : (frameEnd s b).mgmt.xfer = s.mgmt.xfer := by
  unfold frameEnd
  split
  · split
    · exact xfer_setSlot _ _ _
    · exact xfer_acceptFrame _ _ _ _ _
  · rfl

theorem xfer_endWrite (s : State) : (endWrite s).mgmt.xfer = none := by
  unfold endWrite
  split
  · exact xfer_frameEnd _ _
  · rfl

theorem xfer_endRead (s : State) : (endRead s).mgmt.xfer = none := by
  unfold endRead
  split
  · split
    · unfold freeAnswered
      split
      · exact xfer_setSlot _ _ _
      · rfl
    · rfl
  · rfl

/-! ### A start during a transfer (R196) -/

theorem addressByte_endTransfer {s : State} (h : (endTransfer s).mgmt.xfer = none) (addr : BitVec 7) :
    addressByte s addr = addressByte (endTransfer s) addr := by
  have hidle : endTransfer (endTransfer s) = endTransfer s := by
    rw [endTransfer, if_neg (by simp [reading, h]), if_neg (by simp [writing, h])]
  rw [addressByte, addressByte, hidle]

/-- A transfer that begins does so after the address byte. -/
theorem begins_of_addressByte {s t : State} (addr : BitVec 7) (h : addressByte s addr = addressByte t addr) (f : List Byte)
    (n : Nat) : busWrite s (.whole addr f) = busWrite t (.whole addr f) ∧ busWrite s (.begins addr f) = busWrite t (.begins addr f)
    ∧ busRead s (.whole addr n) = busRead t (.whole addr n) ∧ busRead s (.begins addr n) = busRead t (.begins addr n) := by
  simp only [busWrite, busRead, h, and_self]

theorem exec_write {s : State} (hr : s.pins.resetLow = false) (x : WriteXfer) :
    exec (.mgmtFrameRefused x) s = .next (busWrite s x) := takeEvent_of_resetHigh hr (fun s => busWrite s x)

theorem exec_read {s : State} (hr : s.pins.resetLow = false) (x : ReadXfer) :
    exec (.mgmtReadTransfer x) s = .next (busRead s x) := takeEvent_of_resetHigh hr (fun s => busRead s x)

/-- The end of the transfer in progress is what a start does first. -/
theorem endTransfer_write {s : State} (h : (∃ b, s.mgmt.xfer = some (.write b)) ∨ s.mgmt.xfer = some .writeStart
    ∨ s.mgmt.xfer = some .nak) : endTransfer s = busWrite s (.ends []) ∧ (endTransfer s).mgmt.xfer = none := by
  have hw : writing s = true := by
    rcases h with ⟨b, h⟩ | h | h <;> simp [writing, h]
  have hr : ¬ reading s = true := by
    rcases h with ⟨b, h⟩ | h | h <;> simp [reading, h]
  rw [endTransfer, if_neg hr, if_pos hw]
  exact ⟨(if_pos hw).symm, xfer_endWrite _⟩

theorem endTransfer_read {s : State} (h : ∃ x b o, s.mgmt.xfer = some (.read x b o)) :
    endTransfer s = busRead s (.ends 0) ∧ (endTransfer s).mgmt.xfer = none := by
  have hr : reading s = true := by
    obtain ⟨x, b, o, h⟩ := h
    simp [reading, h]
  rw [endTransfer, if_pos hr]
  exact ⟨(if_pos hr).symm, xfer_endRead _⟩

/-! ### The bytes of a write in two parts -/

/-- `s` with more acknowledgements before those it has. -/
def acksBefore (l : List Bool) (s : State) : State :=
  { s with pins := { s.pins with sdaAcks := l ++ s.pins.sdaAcks } }

theorem writeByte_acksBefore (l : List Bool) (s : State) (v : Byte) :
    writeByte (acksBefore l s) v = acksBefore l (writeByte s v) := by
  have hx : (acksBefore l s).mgmt.xfer = s.mgmt.xfer := rfl
  unfold writeByte
  rw [hx]
  cases s.mgmt.xfer with
  | none => rfl
  | some x => cases x with
    | writeStart =>
      have hslot : (if (acksBefore l s).ctl.mgmten then freeSlot (acksBefore l s) else none) =
          (if s.ctl.mgmten then freeSlot s else none) := rfl
      dsimp only
      rw [hslot]
      cases (if s.ctl.mgmten then freeSlot s else none) with
      | none => simp [acksBefore, ack, setXfer]
      | some b => cases b <;> simp [acksBefore, ack, setXfer, setSlot]
    | write b => cases b <;> simp [acksBefore, ack, setSlot, slotOf]
    | nak => simp [acksBefore, ack]
    | read => rfl

theorem writeBytes_acksBefore (l : List Bool) (f : List Byte) : ∀ s : State,
    writeBytes (acksBefore l s) f = acksBefore l (writeBytes s f) := by
  induction f with
  | nil => exact fun _ => rfl
  | cons v f ih =>
    intro s
    show writeBytes (writeByte (acksBefore l s) v) f = _
    rw [writeByte_acksBefore]
    exact ih (writeByte s v)

/-- `s` with other levels on its pins. -/
def pinsPut (p : Pins) (s : State) : State := { s with pins := p }

/-- A slot that receives a frame, out of the rest of the state. -/
theorem receivingIn_of {s : State} {b : Bool} {a : Nat} {f : List Byte} (h : slotOf s b = .receiving a f false) (p : Pins) :
    pinsPut p s = receivingIn b s.mgmt.arrivals a f p (setSlot s b .free) := by
  cases b with
  | false =>
    have h : s.mgmt.slotA = .receiving a f false := h
    simp only [pinsPut, receivingIn, slotPut, setSlot, Bool.false_eq_true, if_false, ← h]
  | true =>
    have h : s.mgmt.slotB = .receiving a f false := h
    simp only [pinsPut, receivingIn, slotPut, setSlot, if_true, ← h]

theorem endMgmtBatch_pinsPut {s : State} {b : Bool} {a : Nat} {f : List Byte} (h : slotOf s b = .receiving a f false)
    (p : Pins) : endMgmtBatch (pinsPut p s) = pinsPut p (endMgmtBatch s) := by
  have hfree : slotOf (setSlot s b .free) b = .free := by cases b <;> rfl
  have hself := receivingIn_of h s.pins
  rw [receivingIn_of h p, receivingIn_endMgmtBatch _ _ _ _ _ _ hfree]
  conv_rhs => rw [show s = pinsPut s.pins s from rfl, hself, receivingIn_endMgmtBatch _ _ _ _ _ _ hfree]
  rfl

theorem sessionEnd_pinsPut {s : State} {b : Bool} {a : Nat} {f : List Byte} (h : slotOf s b = .receiving a f false)
    (p : Pins) (status : Byte) : sessionEnd (pinsPut p s) status = pinsPut p (sessionEnd s status) := by
  have hover : slotOf (sessionOver s status) b = .receiving a f false := by
    cases b <;> exact congrArg (Slot.waitAnswered status) h
  rw [sessionEnd_eq, sessionEnd_eq]
  show syncIdle (if ownsBatch s .mgmt then endMgmtBatch (pinsPut p (sessionOver s status))
    else pinsPut p (sessionOver s status)) = _
  rw [endMgmtBatch_pinsPut hover]
  split <;> rfl

theorem answerSlot_pinsPut (p : Pins) (s : State) (b : Bool) (a : Nat) (tag status : Byte) (payload : List Byte) :
    answerSlot (pinsPut p s) b a tag status payload = pinsPut p (answerSlot s b a tag status payload) := by
  cases b <;> rfl

theorem acceptFrame_pinsPut {s : State} {b : Bool} {a : Nat} {f : List Byte} (h : slotOf s b = .receiving a f false)
    (p : Pins) (r : Request) : acceptFrame (pinsPut p s) b a f r = pinsPut p (acceptFrame s b a f r) := by
  have hsession : (pinsPut p s).mgmt.session = s.mgmt.session := rfl
  cases r with
  | openSession =>
    simp only [acceptFrame, hsession]
    rw [← answerSlot_pinsPut]
    split <;> rfl
  | closeSession =>
    simp only [acceptFrame, hsession, sessionEnd_pinsPut h]
    split <;> exact answerSlot_pinsPut _ _ _ _ _ _ _
  | status => exact answerSlot_pinsPut _ _ _ _ _ _ _
  | segment n => exact answerSlot_pinsPut _ _ _ _ _ _ _
  | store c => cases b <;> rfl

theorem frameEnd_pinsPut (p : Pins) (s : State) (b : Bool) : frameEnd (pinsPut p s) b = pinsPut p (frameEnd s b) := by
  have hslot : slotOf (pinsPut p s) b = slotOf s b := rfl
  unfold frameEnd
  rw [hslot]
  cases h : slotOf s b with
  | receiving a f x =>
    have hcheck : checkFrame (pinsPut p s) f x = checkFrame s f x := rfl
    dsimp only
    rw [hcheck]
    cases hc : checkFrame s f x with
    | refused tag status => exact answerSlot_pinsPut _ _ _ _ _ _ _
    | taken r =>
      have hx : x = false := by
        cases x with
        | false => rfl
        | true => cases (checkFrame_short s (.inr rfl)).symm.trans hc
      subst hx
      exact acceptFrame_pinsPut h p r
  | _ => rfl

theorem pins_frameEnd (s : State) (b : Bool) : (frameEnd s b).pins = s.pins := by
  have h := congrArg State.pins (frameEnd_pinsPut s.pins s b)
  exact h

theorem endWrite_acksBefore (l : List Bool) (s : State) : endWrite (acksBefore l s) = acksBefore l (endWrite s) := by
  have hx : (acksBefore l s).mgmt.xfer = s.mgmt.xfer := rfl
  unfold endWrite
  rw [hx]
  split
  · rename_i b _
    have hpins : (frameEnd (setXfer s none) b).pins = s.pins := pins_frameEnd _ _
    refine (frameEnd_pinsPut (acksBefore l s).pins (setXfer s none) b).trans ?_
    simp only [acksBefore, pinsPut, hpins]
  · rfl

/-- A write transfer stays one until it ends. -/
theorem writing_writeByte {s : State} (h : writing s = true) (v : Byte) : writing (writeByte s v) = true := by
  unfold writeByte
  split
  · split <;> rfl
  · rename_i b hb
    have hx : (ack (setSlot s b ((slotOf s b).store v)) (slotOf s b).takes).mgmt.xfer = some (.write b) :=
      (xfer_setSlot _ _ _).trans hb
    rw [writing, hx]
  · rename_i hb
    simp [writing, ack, hb]
  · exact h

theorem writing_writeBytes (f : List Byte) : ∀ s : State, writing s = true → writing (writeBytes s f) = true := by
  induction f with
  | nil => exact fun _ h => h
  | cons v f ih => exact fun s h => ih (writeByte s v) (writing_writeByte h v)

/-- A write in two parts. -/
theorem write_parts {s : State} {addr : BitVec 7} (hf : busFree s addr) (f g : List Byte) :
    ∃ t u w : State, exec (.mgmtFrameRefused (.begins addr f)) s = .next t
      ∧ exec (.mgmtFrameRefused (.ends g)) t = .next u
      ∧ exec (.mgmtFrameRefused (.whole addr (f ++ g))) s = .next w
      ∧ w.pins.sdaAcks = t.pins.sdaAcks ++ u.pins.sdaAcks
      ∧ u = { w with pins := { w.pins with sdaAcks := u.pins.sdaAcks } } := by
  have hbegins : busWrite s (.begins addr f) = writeBytes (writeBegun s) f := by
    simp only [busWrite, addressByte_own hf, if_true]
    rfl
  generalize ht : writeBytes (writeBegun s) f = t at hbegins
  have hwriting : writing t = true := ht ▸ writing_writeBytes f _ rfl
  have hlow : t.pins.resetLow = false := by
    rw [← ht, resetLow_writeBytes]
    exact hf.1
  have hends : busWrite t (.ends g) = endWrite (writeBytes { t with pins := { t.pins with sdaAcks := [] } } g) := if_pos hwriting
  have hwhole : busWrite s (.whole addr (f ++ g)) = endWrite (writeBytes t g) := by
    rw [busWrite_own hf, ← ht, writeBytes, List.foldl_append]
    rfl
  have hjoin : writeBytes t g = acksBefore t.pins.sdaAcks (writeBytes { t with pins := { t.pins with sdaAcks := [] } } g) := by
    rw [← writeBytes_acksBefore]
    simp [acksBefore]
  rw [hjoin, endWrite_acksBefore, ← hends] at hwhole
  exact ⟨t, _, _, (exec_write hf.1 _).trans (congrArg _ hbegins), exec_write hlow _,
    (exec_write hf.1 _).trans (congrArg _ hwhole), rfl, rfl⟩

/-! ### The bytes of a read in two parts -/

/-- A read transfer in progress that has sent `k` bytes, the last command's bytes being `q`. -/
def readSent (s : State) (f : List Byte) (o : Option Bool) (k : Nat) (q : List Byte) : State :=
  { s with mgmt := { s.mgmt with xfer := some (.read f o k) }, pins := { s.pins with sdaOut := q, addrAck := true } }

theorem clockBytes_readSent (s : State) (f : List Byte) (o : Option Bool) (k m : Nat) (q : List Byte) :
    clockBytes (readSent s f o k q) m =
      readSent s f o (k + m) ((List.range m).map (fun i => f.getD (k + i) 0xFF)) := rfl

/-- The end of a read does not see the bytes sent last. -/
theorem endRead_readSent (s : State) (f : List Byte) (o : Option Bool) (k : Nat) (q q' : List Byte) :
    endRead (readSent s f o k q) =
      { endRead (readSent s f o k q') with pins := { s.pins with sdaOut := q, addrAck := true } } := by
  cases o with
  | none => rfl
  | some b =>
    simp only [endRead, readSent]
    split
    · cases b with
      | false => cases h : s.mgmt.slotA <;> simp [freeAnswered, setXfer, slotOf, setSlot]
      | true => cases h : s.mgmt.slotB <;> simp [freeAnswered, setXfer, slotOf, setSlot]
    · rfl

/-- A read in two parts. -/
theorem read_parts {s : State} {addr : BitVec 7} (hf : busFree s addr) (n m : Nat) :
    ∃ t u w : State, exec (.mgmtReadTransfer (.begins addr n)) s = .next t
      ∧ exec (.mgmtReadTransfer (.ends m)) t = .next u
      ∧ exec (.mgmtReadTransfer (.whole addr (n + m))) s = .next w
      ∧ w.pins.sdaOut = t.pins.sdaOut ++ u.pins.sdaOut
      ∧ u = { w with pins := { w.pins with sdaOut := u.pins.sdaOut } } := by
  let sent (k l : Nat) := (List.range l).map (fun i => (readAnswer s).1.getD (k + i) 0xFF)
  let at_ (k : Nat) (q : List Byte) := readSent s (readAnswer s).1 (readAnswer s).2 k q
  have hbegins : ∀ k, busRead s (.begins addr k) = at_ (0 + k) (sent 0 k) := fun k => by
    simp only [busRead, addressByte_own hf, if_true]
    rfl
  have hwhole : busRead s (.whole addr (n + m)) = endRead (at_ (0 + (n + m)) (sent 0 (n + m))) := by
    simp only [busRead, addressByte_own hf, if_true]
    rfl
  have hends : busRead (at_ (0 + n) (sent 0 n)) (.ends m) = endRead (at_ (0 + n + m) (sent (0 + n) m)) := rfl
  have hpins : ∀ k q, (endRead (at_ k q)).pins = { s.pins with sdaOut := q, addrAck := true } := fun k q => by
    rw [endRead_readSent s _ _ k q q]
  have hjoin : sent 0 (n + m) = sent 0 n ++ sent (0 + n) m := by
    simp [sent, List.range_add, Function.comp_def]
  refine ⟨at_ (0 + n) (sent 0 n), endRead (at_ (0 + n + m) (sent (0 + n) m)), endRead (at_ (0 + (n + m)) (sent 0 (n + m))),
    (exec_read hf.1 _).trans (congrArg _ (hbegins n)), (exec_read (by exact hf.1) _).trans (congrArg _ hends),
    (exec_read hf.1 _).trans (congrArg _ hwhole), ?_, ?_⟩
  · rw [hpins, hpins, hjoin]
    rfl
  · rw [hpins, hpins, Nat.add_assoc]
    exact endRead_readSent s _ _ _ _ _

/-- Settles O40: acknowledgements and sent bytes are all that the two parts of a transfer divide; a start ends the transfer in
progress as its stop would. -/
theorem transfersInPartsActAsTheWhole : Obligations.TransfersInPartsActAsTheWhole := by
  refine ⟨fun addr f g n m s hf => ⟨write_parts hf f g, read_parts hf n m⟩, fun addr f n s t hr hcase => ?_,
    fun addr f n s hr hx haddr => ?_⟩
  · obtain ⟨ht, hx⟩ : t = endTransfer s ∧ (endTransfer s).mgmt.xfer = none := by
      rcases hcase with ⟨hw, he⟩ | ⟨hrd, he⟩
      · obtain ⟨heq, hx⟩ := endTransfer_write hw
        rw [exec_write hr] at he
        injection he with he
        exact ⟨he.symm.trans heq.symm, hx⟩
      · obtain ⟨heq, hx⟩ := endTransfer_read hrd
        rw [exec_read hr] at he
        injection he with he
        exact ⟨he.symm.trans heq.symm, hx⟩
    subst ht
    have hr' : (endTransfer s).pins.resetLow = false := by rw [resetLow_endTransfer]; exact hr
    obtain ⟨h1, h2, h3, h4⟩ := begins_of_addressByte addr (addressByte_endTransfer hx addr) f n
    rw [exec_write hr, exec_write hr', exec_write hr, exec_write hr', exec_read hr, exec_read hr', exec_read hr, exec_read hr',
      h1, h2, h3, h4]
    exact ⟨rfl, rfl, rfl, rfl⟩
  · have hother : (addr == targetAddr s) = false := by simpa [targetAddr] using haddr
    have hbyte : addressByte s addr = { s with pins := { s.pins with addrAck := false } } := by
      rw [addressByte_free addr hx, hother]
    refine ⟨(exec_write hr _).trans (congrArg _ ?_), (exec_read hr _).trans (congrArg _ ?_)⟩
    · simp only [busWrite, hbyte, Bool.false_eq_true, if_false]
    · simp only [busRead, hbyte, Bool.false_eq_true, if_false]

end Sys2Proof.Machine
end

