-- ==== Sys2Proof/Proofs/Grants.lean ====
section
/-! What the checks at a grant decide: the state check (R67), STAT (R134), the two heads (R75), the batch commands (R115, R117,
R122) and the checks of a write (R62, R80). -/

namespace Sys2Proof.Machine

/-! ### What stands while the array is idle -/

theorem arrayIdle.seqr_none {s : State} (h : arrayIdle s) : s.seqr = none :=
  let ⟨_, hq, _, _, _⟩ := h
  hq

theorem arrayIdle.holder_none {s : State} (h : arrayIdle s) : s.holder = .none :=
  let ⟨_, _, hh, _, _⟩ := h
  hh

theorem arrayIdle.notHalting {s : State} (h : arrayIdle s) : s.eng.haltReq = false :=
  let ⟨_, _, _, hreq, _⟩ := h
  hreq

/-! ### The teardown does not see the ports and the work in flight -/

/-- `s` with other ports, another engine, another command in flight and another holder of the array. -/
def withWork (p : HostPort) (m : MgmtPort) (e : Engine) (i : Option Ctx) (k : Holder) (s : State) : State :=
  { s with host := p, mgmt := m, eng := e, inflight := i, holder := k }

section work

variable (p : HostPort) (m : MgmtPort) (e : Engine) (i : Option Ctx) (k : Holder)

theorem segUpd_withWork (s : State) (n : Nat) (f : SegEntry → SegEntry) :
    segUpd (withWork p m e i k s) n f = withWork p m e i k (segUpd s n f) := by
  unfold segUpd
  rw [apply_ite (withWork p m e i k)]
  rfl

theorem killPart_withWork (s : State) (q : Part) :
    killPart (withWork p m e i k s) q = withWork p m e i k (killPart s q) := segUpd_withWork p m e i k s _ _

theorem killParts_withWork (l : List Part) : ∀ s : State,
    l.foldl killPart (withWork p m e i k s) = withWork p m e i k (l.foldl killPart s) := by
  induction l with
  | nil => exact fun _ => rfl
  | cons q l ih =>
    intro s
    rw [List.foldl_cons, List.foldl_cons, killPart_withWork, ih]

theorem dropPending_withWork (s : State) : dropPending (withWork p m e i k s) = withWork p m e i k (dropPending s) :=
  congrArg (fun t : State => { t with dir := dirPrune (s.dir.map (fun x : DirEntry => { x with pending := none })) })
    (killParts_withWork p m e i k _ s)

theorem teardown_withWork (s : State) (own : Bool) :
    teardown (withWork p m e i k s) own = withWork p m e i k (teardown s own) := by
  have hb : (withWork p m e i k s).batch = s.batch := rfl
  unfold teardown
  rw [hb]
  cases s.batch with
  | none => rfl
  | some b =>
    simp only [dropPending_withWork]
    split <;> rfl

end work

/-- It keeps them. -/
theorem teardown_work (s : State) (own : Bool) : (teardown s own).host = s.host ∧ (teardown s own).mgmt = s.mgmt
    ∧ (teardown s own).eng = s.eng ∧ (teardown s own).inflight = s.inflight ∧ (teardown s own).holder = s.holder := by
  have h := teardown_withWork s.host s.mgmt s.eng s.inflight s.holder s own
  have hs : withWork s.host s.mgmt s.eng s.inflight s.holder s = s := rfl
  rw [hs] at h
  rw [h]
  exact ⟨rfl, rfl, rfl, rfl, rfl⟩

/-! ### A command that ends at its grant -/

/-- The ports of a head whose command has been handed its result. -/
theorem postResult_granted {s : State} {h : Head} {c : Ctx} (r : Result) (ho : c.origin = h.origin) (hc : c.cmd = h.cmd)
    (hj : c.job.out = []) : withWork (postResult (grantedWith s h c) c r).host (postResult (grantedWith s h c) c r).mgmt
      { s.eng with runCount := 0 } none .none s =
      withWork (h.answerHost s.host r) (h.answerMgmt s.mgmt r) { s.eng with runCount := 0 } none .none s := by
  cases h with
  | host q =>
    have ho' : c.origin = .host q.tag := ho
    simp only [postResult, ho', postHost, setTag, grantedWith, Head.grantHost, Head.answerHost, List.set_set]
    rfl
  | mgmt b a f d =>
    have ho' : c.origin = .mgmt b (f.getD 1 0) := ho
    have hc' : c.cmd = d := hc
    simp only [postResult, grantedWith, ho', hc', hj, answerRunning, Head.grantMgmt, Head.answerMgmt, payloadOf_eq,
      answerFrame, slotPut]
    cases b <;> rfl

theorem postResult_eq (s : State) (c : Ctx) (r : Result) :
    postResult s c r = { s with host := (postResult s c r).host, mgmt := (postResult s c r).mgmt } := by
  unfold postResult
  cases c.origin with
  | host t => rfl
  | mgmt b ftag =>
    dsimp only
    unfold answerRunning
    split
    · cases b <;> rfl
    · rfl

/-- A command that ends at its grant under a waiting teardown, which is made as it ends. -/
theorem complete_granted_tearDue {s : State} {h : Head} {c : Ctx} (r : Result) (ho : c.origin = h.origin) (hc : c.cmd = h.cmd)
    (hj : c.job.out = []) (ht : c.tearDue = true) (hh : s.holder = .none) :
    complete (grantedWith s h c) r = answeredAtGrant (teardown s false) h r := by
  obtain ⟨whost, wmgmt, weng, winflight, wholder⟩ := teardown_work s false
  have hi : (grantedWith s h c).inflight = some c := rfl
  simp only [complete, hi, ht, if_true]
  have hpost : ({ postResult (grantedWith s h c) c r with
      inflight := none,
      holder := if (postResult (grantedWith s h c) c r).holder = .command then .none
        else (postResult (grantedWith s h c) c r).holder } : State) =
      withWork (h.answerHost s.host r) (h.answerMgmt s.mgmt r) { s.eng with runCount := 0 } none .none s := by
    rw [← postResult_granted r ho hc hj, postResult_eq]
    simp [withWork, grantedWith, hh]
  rw [hpost, teardown_withWork]
  unfold answeredAtGrant
  rw [whost, wmgmt, weng]
  simp [withWork, wholder, hh]

/-- A command that ends at its grant without its effect, before it has a sequence. -/
theorem completeFail_granted (s : State) (h : Head) (st : Status) :
    completeFail (grantedWith s h (freshCtx h)) st = complete (grantedWith s h (freshCtx h)) ⟨st, 0, 0, 0, false, false, false⟩ := rfl

/-- A command that the checks of its row refuse in READY. -/
theorem grant_refused {s : State} {h : Head} {st : Status} (k : headAlone s h) (hr : s.eng.store = .ready)
    (e : runCommand (grantedWith s h (freshCtx h)) h.port h.cmd = completeFail (grantedWith s h (freshCtx h)) st) :
    exec .arbiterGrant s = .next (answeredAtGrant s h ⟨st, 0, 0, 0, false, false, false⟩) :=
  grant_done k (.inl hr) _ ((execute_ready hr).trans (e.trans (completeFail_granted s h st)))

/-- A command whose effect at its grant is `u`. -/
theorem grant_effect {s u : State} {h : Head} {r : Result} (k : headAlone s h) (hr : s.eng.store = .ready)
    (hh : u.holder = .none) (hq : u.seqr = none)
    (e : runCommand (grantedWith s h (freshCtx h)) h.port h.cmd = complete (grantedWith u h (freshCtx h)) r) :
    exec .arbiterGrant s = .next (answeredAtGrant u h r) := by
  rw [grant_head k (.inl hr), execute_ready hr, e, complete_granted r rfl rfl rfl rfl hh]
  exact congrArg _ (settle_idle hq)

/-- A granted command whose counter is exhausted (R69, R72): READ_ONLY is entered, the teardown of an open batch waits for it. -/
theorem enterReadOnly_granted {s : State} (hr : s.eng.store = .ready) (h : Head) :
    completeFail (enterReadOnly (grantedWith s h (freshCtx h))) .readOnly =
      complete (grantedWith (enteringReadOnly s) h { freshCtx h with tearDue := true }) ⟨.readOnly, 0, 0, 0, false, false, false⟩ := by
  have hstore : (grantedWith s h (freshCtx h)).eng.store = .ready := hr
  simp only [enterReadOnly, hstore, ne_eq, not_true_eq_false, if_false]
  rfl

theorem grant_exhausted {s : State} {h : Head} (k : headAlone s h) (hr : s.eng.store = .ready)
    (e : runCommand (grantedWith s h (freshCtx h)) h.port h.cmd =
      completeFail (enterReadOnly (grantedWith s h (freshCtx h))) .readOnly) :
    exec .arbiterGrant s =
      .next (answeredAtGrant (teardown (enteringReadOnly s) false) h ⟨.readOnly, 0, 0, 0, false, false, false⟩) := by
  have hend := complete_granted_tearDue (s := enteringReadOnly s) (h := h) (c := { freshCtx h with tearDue := true })
    ⟨.readOnly, 0, 0, 0, false, false, false⟩ rfl rfl rfl rfl k.1.holder_none
  rw [grant_head k (.inl hr), execute_ready hr, e]
  refine congrArg Host.Outcome.next ((congrArg (settleRefused 8) ((enterReadOnly_granted hr h).trans hend)).trans (settle_idle ?_))
  exact (close_teardown (enteringReadOnly s) false).1.trans k.1.seqr_none

/-! ### The state check (R67) -/

theorem stateCheck_refused {st : StoreState} {c : Cmd} {x : Status} (h : stateRefused st c x) : stateCheck st c = some x := by
  rcases h with ⟨rfl, hst, hm, hf⟩ | ⟨rfl, rfl, hc⟩
  · cases c with
    | mount => exact absurd rfl hm
    | format e n => exact absurd rfl (hf e n)
    | _ => rcases hst with rfl | rfl <;> rfl
  · rcases hc with hb | ⟨k, n, b, rfl⟩ | ⟨k, rfl⟩ | ⟨l, u, rfl⟩ | rfl
    · cases c with
      | batchOpen | batchCommit | batchAbort => rfl
      | put | delete => cases hb; rfl
      | _ => cases hb
    · rfl
    · rfl
    · rfl
    · rfl

/-- Settles O44: the state check decides before the command's own checks; in the three other states no head is granted. -/
theorem stateCheckAtTheGrant : Obligations.StateCheckAtTheGrant := by
  refine ⟨fun s h st k href => ?_, fun s hst => ?_⟩
  · have hg : granting s := by
      rcases href with ⟨-, hst | hst, -⟩ | ⟨-, hst, -⟩
      · exact .inr (.inr (.inl hst))
      · exact .inr (.inr (.inr hst))
      · exact .inr (.inl hst)
    have hc : stateCheck (grantedWith s h (freshCtx h)).eng.store (freshCtx h).cmd = some st := stateCheck_refused href
    refine grant_done k hg _ ?_
    simp only [execute, hc]
    rfl
  · have hc : commandGranted s = false := by
      rcases hst with h | h | h <;> simp [commandGranted, serving, h]
    have hgrant : arbiterGrant s = s := by simp only [arbiterGrant, hc, Bool.false_eq_true, if_false]
    cases hr : s.pins.resetLow with
    | true => exact congrArg Host.Outcome.next (if_pos hr)
    | false => exact ifHigh_of_resetHigh hr hgrant

/-! ### STAT and the two heads (R75, R134) -/

theorem isHeld_iff (s : State) (k : Key) : isHeld s k = true ↔ heldKey s k := by
  unfold isHeld heldKey DirEntry.held
  cases dirLookup s.dir k with
  | none => simp
  | some e => simp [Option.isSome_iff_exists]

theorem presentPart_some {s : State} {k : Key} {p : Part} : presentPart s k = some p ↔ presentAs s k p := by
  unfold presentPart presentAs
  cases dirLookup s.dir k with
  | none => simp
  | some e => cases hc : e.committed with
    | none => simp [hc]
    | some q =>
      cases ht : q.tomb with
      | true =>
        simp [hc, ht]
        rintro rfl
        exact ht
      | false =>
        simp [hc, ht]
        rintro rfl
        exact ht

theorem presentPart_none {s : State} {k : Key} (h : ∀ p, ¬ presentAs s k p) : presentPart s k = none := by
  cases hp : presentPart s k with
  | none => rfl
  | some p => exact absurd (presentPart_some.1 hp) (h p)

theorem execute_passed {s : State} {c : Ctx} (h : stateCheck s.eng.store c.cmd = none) :
    execute s c = runCommand s c.origin.port c.cmd := by
  unfold execute
  rw [h]

/-- A mounted store admits a STAT (R67). -/
theorem execute_stat {s : State} {h : Head} {k : Key} (hm : mounted s) (hc : h.cmd = .stat k) :
    execute (grantedWith s h (freshCtx h)) (freshCtx h) = complete (grantedWith s h (freshCtx h)) (statResult s k) := by
  have hcheck : stateCheck (grantedWith s h (freshCtx h)).eng.store (freshCtx h).cmd = none := by
    rw [show (freshCtx h).cmd = .stat k from hc]
    rcases hm with hm | hm
    · rw [show (grantedWith s h (freshCtx h)).eng.store = .ready from hm]; rfl
    · rw [show (grantedWith s h (freshCtx h)).eng.store = .readOnly from hm]; rfl
  rw [execute_passed hcheck, show (freshCtx h).cmd = .stat k from hc]
  rfl

/-- Settles O45. -/
theorem statReportsTheDirectory : Obligations.StatReportsTheDirectory := by
  intro s h k held ha hm hc hheld
  have hres : isHeld s k = held := Bool.eq_iff_iff.2 ((isHeld_iff s k).trans hheld.symm)
  have done : ∀ r, statResult s k = r → exec .arbiterGrant s = .next (answeredAtGrant s h r) := by
    rintro r rfl
    exact grant_done ha (hm.elim .inl (fun h => .inr (.inl h))) _ (execute_stat hm hc)
  refine ⟨fun p hp => done _ ?_, fun hnone => done _ ?_⟩
  · simp only [statResult, presentPart_some.2 hp, hres]
  · simp only [statResult, presentPart_none hnone, hres]

end Sys2Proof.Machine
end

