-- ==== Sys2Proof/Proofs/Arbiter.lean ====
section
/-! The weighing of the two heads (R75). -/

namespace Sys2Proof.Machine

/-! ### The two heads (R75) -/

/-- The arbiter grants a command: the array is free, nothing is in flight, a volume is mounted. -/
theorem exec_grant {s : State} (hi : arrayIdle s) (hf : s.inflight = none) (hm : mounted s) :
    exec .arbiterGrant s = .next (runGranted (chooseHead s)) := by
  obtain ⟨hr, hq, hh, hreq, hsr⟩ := hi
  refine ifHigh_of_resetHigh hr ?_
  have hc : commandGranted s = true := by
    rcases hm with h | h <;> simp [commandGranted, arrayFree, serving, hr, hq, hh, hreq, hsr, hf, h]
  simp only [arbiterGrant, hc, if_true]

/-- A STAT just taken completes, whatever the run count. -/
theorem runGranted_stat {s : State} {c : Ctx} {k : Key} (hi : s.inflight = some c) (ht : c.tearDue = false) (hm : mounted s)
    (hq : s.seqr = none) (hc : c.cmd = .stat k) : runGranted s = syncIdle (answeredCmd s c (statResult s k)) := by
  have hcheck : stateCheck s.eng.store c.cmd = none := by
    rw [hc]
    rcases hm with h | h <;> rw [h] <;> rfl
  simp only [runGranted, hi]
  rw [execute_passed hcheck, hc, runCommand, complete_ports _ hi ht]
  exact settle_idle hq

/-- The host head taken, with the run count after it. -/
def hostTaken (s : State) (q : QEntry) (n : Nat) : State := { takeHost s q with eng := { s.eng with runCount := n } }

/-- The management head taken. -/
def mgmtTaken (s : State) (b : Bool) (a : Nat) (f : List Byte) (c : Cmd) : State :=
  { setSlot s b (.running a f) with
    inflight := some (newCtx (.mgmt b (byteAt f 1)) c), eng := { s.eng with runCount := 0 } }

theorem takeMgmt_eq {s : State} {b : Bool} {a : Nat} {f : List Byte} {c : Cmd} (hs : slotOf s b = .waiting a f)
    (hc : frameCmd f = some c) : ({ takeMgmt s b with eng := { s.eng with runCount := 0 } } : State) = mgmtTaken s b a f c := by
  simp only [takeMgmt, hs, hc, mgmtTaken]

theorem eng_takeMgmt (s : State) (b : Bool) : (takeMgmt s b).eng = s.eng := by
  unfold takeMgmt
  split
  · split
    · exact setSlot_eng _ _ _
    · rfl
  · rfl

/-- The STAT of the host head. -/
theorem stat_hostTaken {s : State} {q : QEntry} {k : Key} (ha : arrayIdle s) (hm : mounted s) (hq : q.cmd = .stat k) (n : Nat) :
    runGranted (hostTaken s q n) = syncIdle { s with
      host := { s.host with
        queue := s.host.queue.tail, tags := s.host.tags.set q.tag .completed
        cplq := s.host.cplq ++ [⟨q.tag, statResult s k⟩] }
      eng := { s.eng with runCount := n }, inflight := none } := by
  have hh : s.holder = .none := ha.holder_none
  have hc : (hostTaken s q n).inflight = some (newCtx (.host q.tag) q.cmd) := rfl
  rw [runGranted_stat hc rfl hm ha.2.1 hq]
  simp [answeredCmd, hostTaken, hostHanded, mgmtHanded, newCtx, takeHost, setTag, hh, statResult, presentPart, isHeld]

/-- The STAT of the management head. -/
theorem stat_mgmtTaken {s : State} {b : Bool} {k : Key} (ha : arrayIdle s) (hm : mounted s) (a : Nat) (f : List Byte) :
    runGranted (mgmtTaken s b a f (.stat k)) = syncIdle (setSlot { s with eng := { s.eng with runCount := 0 }, inflight := none } b
      (.answered a (answerFrame (byteAt f 1) (.stat k) (statResult s k) []))) := by
  have hh : s.holder = .none := ha.holder_none
  have hc : (mgmtTaken s b a f (.stat k)).inflight = some (newCtx (.mgmt b (byteAt f 1)) (.stat k)) := rfl
  rw [runGranted_stat (k := k) hc rfl (by cases b <;> exact hm) (by cases b <;> exact ha.2.1) rfl]
  cases b <;> simp [answeredCmd, mgmtTaken, hostHanded, mgmtHanded, newCtx, setSlot, slotPut, hh, statResult, presentPart,
    isHeld, emptyJob]

/-- Settles O43: the head chosen is taken, and its STAT completes at once. -/
theorem grantsAreWeighedBetweenThePorts : Obligations.GrantsAreWeighedBetweenThePorts := by
  intro s q k k' b a f r ha hf hm hres hq hframe
  have grant : ∀ t u : State, chooseHead s = t → runGranted t = u → exec .arbiterGrant s = .next u := fun t u ht hu =>
    (exec_grant ha hf hm).trans (congrArg Host.Outcome.next ((congrArg runGranted ht).trans hu))
  have host : ∀ n, runGranted (hostTaken s q n) = syncIdle { s with
      host := { s.host with
        queue := s.host.queue.tail, tags := s.host.tags.set q.tag .completed, cplq := s.host.cplq ++ [⟨q.tag, r k⟩] }
      eng := { s.eng with runCount := n } } := fun n => by
    rw [stat_hostTaken ha hm hq n, hres k, ← hf]
  have mgmt : runGranted (mgmtTaken s b a f (.stat k')) = syncIdle (setSlot { s with eng := { s.eng with runCount := 0 } } b
      (.answered a (answerFrame (f.getD 1 0) (.stat k') (r k') []))) := by
    rw [stat_mgmtTaken ha hm a f, hres k', ← hf]
    rfl
  have run_takeMgmt : slotOf s b = .waiting a f →
      ({ takeMgmt s b with eng := { (takeMgmt s b).eng with runCount := 0 } } : State) = mgmtTaken s b a f (.stat k') := fun hs => by
    rw [eng_takeMgmt, takeMgmt_eq hs hframe]
  refine ⟨fun hq hb hs hlt => grant _ _ ?_ (host _), fun hq hb hs hle => grant _ _ ?_ mgmt,
    fun hq hb => grant _ _ ?_ (host 0), fun hq hb hs => grant _ _ ?_ mgmt⟩
  · simp only [chooseHead, hostHead, hq, hb, hlt, if_true]
    rfl
  · simp only [chooseHead, hostHead, hq, hb, Nat.not_lt.2 hle, if_false]
    exact run_takeMgmt hs
  · simp only [chooseHead, hostHead, hq, hb]
    rfl
  · simp only [chooseHead, hostHead, hq, hb, List.head?_nil]
    exact run_takeMgmt hs

end Sys2Proof.Machine
end

