-- ==== Sys2Proof/Proofs/WriteChecks.lean ====
section
/-! The checks of a write (R62, R80), the batch commands at their grant (R115, R117, R122), and the placing of a record (R28,
R35 step 1, R90, R94). -/

namespace Sys2Proof.Machine

/-! ### The record of a command -/

theorem length_recordLines (kind : Kind) (key : Key) (seq bid : Word) (v : List Byte) :
    (recordLines kind key seq bid v).length = extentOf v.length := by
  simp [recordLines, dataLines, extentOf]
  omega

theorem length_flatMap_be16 (l : List Key) : (l.flatMap be16).length = 2 * l.length := by
  induction l with
  | nil => rfl
  | cons k l ih => simp [ih, be16]; omega

theorem recordBid_eq (s : State) (m : Bool) : recordBid s m = bidOf s m := by
  unfold recordBid bidOf
  cases s.batch <;> rfl

theorem putValue_eq (s : State) (c : Ctx) (len buf : Nat) : putValue s c len buf = valueFrom s c.origin buf len := by
  unfold putValue valueFrom
  cases c.origin with
  | host t => rfl
  | mgmt b f => cases h : slotOf s b <;> simp [h, frameValue, byteAt]

/-- The lines that ASSIGN builds are those of the statements. -/
theorem buildRecord_eq (s : State) (c : Ctx) (hb : c.cmd = .batchCommit → s.batch ≠ none) :
    buildRecord s c s.eng.seqCtr = recordFor s c.origin c.cmd := by
  unfold buildRecord recordFor
  cases hc : c.cmd with
  | put k len buf m => simp only [recordBid_eq, putValue_eq]
  | delete k m => simp only [recordBid_eq]
  | batchCommit =>
    cases hbatch : s.batch with
    | none => exact absurd hbatch (hb hc)
    | some b =>
      simp only [recordBid, memberKeys, hbatch, commitValue, List.flatMap_map, List.length_map, Option.map_some, Option.getD_some,
        if_true]
      rfl
  | freeze lo hi => rfl
  | _ => rfl

theorem length_commitValue (bid : Word) (keys : List Key) : (commitValue bid keys).length = 5 + 2 * keys.length := by
  have h32 : (be32 bid).length = 4 := rfl
  simp only [commitValue, List.length_append, List.length_cons, List.length_nil, length_flatMap_be16, h32]

theorem length_buildRecord {s : State} {c : Ctx} {q : Word} (hne : buildRecord s c q ≠ [])
    (hv : ∀ k len buf m, c.cmd = .put k len buf m → (putValue s c len buf).length = len) :
    (buildRecord s c q).length = appendExtent s c.cmd := by
  unfold buildRecord at hne ⊢
  cases hc : c.cmd with
  | put k len buf m =>
    rw [length_recordLines, hv k len buf m hc]
    rfl
  | delete k m => exact length_recordLines _ _ _ _ _
  | batchCommit =>
    rw [length_recordLines, length_commitValue]
    rfl
  | freeze lo hi => exact length_recordLines _ _ _ _ _
  | _ => rw [hc] at hne; exact absurd rfl hne

theorem batch_of_appends {s : State} {o : Origin} {lines : List LineBits} (h : appends s o .batchCommit lines) :
    s.batch ≠ none := by
  obtain ⟨rfl, hne, -⟩ := h
  intro hb
  simp [recordFor, hb] at hne

theorem buildRecord_appends {s : State} {c : Ctx} {lines : List LineBits} (h : appends s c.origin c.cmd lines) :
    buildRecord s c s.eng.seqCtr = lines :=
  (buildRecord_eq s c (fun hc => batch_of_appends (hc ▸ h))).trans h.1.symm

/-- The extent that admission asks for is that of the lines. -/
theorem appendExtent_eq {s : State} {c : Ctx} {lines : List LineBits} (h : appends s c.origin c.cmd lines) :
    appendExtent s c.cmd = lines.length := by
  have hb := buildRecord_appends h
  rw [← hb, length_buildRecord (hb ▸ h.2.1) (fun k len buf m hc => (putValue_eq s c len buf) ▸ h.2.2 k len buf m hc)]

/-- Admission finds room in the OPEN segment (R35 step 1). -/
theorem findPlace_room {s : State} {n m : Nat} {j : Journal} (ho : openSegment s = some (m, j)) (hr : n ≤ 256 - j.wp)
    (need : Nat) (failed : Option Nat) : findPlace s n need failed = .room ⟨m, j.wp⟩ := by
  unfold findPlace
  rw [ho]
  exact if_pos hr

theorem admitCommand_room {s : State} {c : Ctx} {m : Nat} {j : Journal} (hi : s.inflight = some c)
    (ho : openSegment s = some (m, j)) (hr : appendExtent s c.cmd ≤ 256 - j.wp) (failed : Option Nat) :
    admitCommand s failed = assign s ⟨m, j.wp⟩ := by
  simp only [admitCommand, hi, findPlace_room ho hr]

/-- ASSIGN of a command that has no sequence yet (R94). -/
theorem assign_fresh {s : State} {c : Ctx} {lines : List LineBits} (l : Loc) (hi : s.inflight = some c) (hs : c.seq = none)
    (hl : c.lines = []) (hreq : s.eng.haltReq = false) (hb : buildRecord s c s.eng.seqCtr = lines) : assign s l = { s with
      inflight := some { c with stage := .header, seq := some s.eng.seqCtr, lines := lines, place := l }
      eng := { s.eng with seqCtr := s.eng.seqCtr + 1 }, holder := .command, seqr := some (.program l (lines.getD 0 0)) } := by
  have hb' : buildRecord s c (c.seq.getD s.eng.seqCtr) = lines := by rw [hs]; exact hb
  simp only [assign, hi, hl, List.isEmpty_nil, if_true, hb']
  simp [hs, modCtx, issue, hreq]

/-- ASSIGN of a command that restarted: it keeps its sequence and its lines (R98). -/
theorem assign_again {s : State} {c : Ctx} {q : Word} (l : Loc) (hi : s.inflight = some c) (hs : c.seq = some q)
    (hl : c.lines ≠ []) (hreq : s.eng.haltReq = false) : assign s l = { s with
      inflight := some { c with stage := .header, place := l }
      holder := .command, seqr := some (.program l (c.lines.getD 0 0)) } := by
  have he : c.lines.isEmpty = false := by simpa using hl
  simp only [assign, hi, he, Bool.false_eq_true, if_false]
  simp [hs, modCtx, issue, hreq, hi]

/-! ### The checks of a write (R80) and of a FREEZE (R62) -/

theorem isFrozen_iff (s : State) (k : Key) : isFrozen s k = true ↔ frozenKey s k := by
  simp [isFrozen, frozenKey]

theorem ownsBatch_iff (s : State) (p : Port) : ownsBatch s p = true ↔ ∃ b, s.batch = some b ∧ b.owner = p := by
  unfold ownsBatch
  cases s.batch <;> simp

theorem rangeHeld_iff (s : State) (lo hi : Key) : rangeHeld s lo hi = true ↔ rangeHoldsPending s lo hi := by
  simp only [rangeHeld, rangeHoldsPending, List.any_eq_true, Bool.and_eq_true, decide_eq_true_eq, DirEntry.held,
    Option.isSome_iff_ne_none]
  exact exists_congr fun e => and_congr_right fun _ => by tauto

/-- Tests 2 to 4 fail (R80). -/
theorem writeCheck_barred {s : State} {p : Port} {k : Key} {m : Bool} {st : Status} (h : writeBarred s p k m st) (del : Bool) :
    writeCheck s p k m del = some st := by
  unfold writeCheck
  rcases h with ⟨rfl, hf⟩ | ⟨rfl, hf, hh, hm, ho⟩ | ⟨rfl, hf, hh, ho⟩ | ⟨rfl, hf, hh, hm, hb⟩ | ⟨rfl, hf, hh, hm, b, hb, ho⟩ |
    ⟨rfl, hf, hh, hm, b, hb, ho, hl⟩
  · exact if_pos ((isFrozen_iff s k).2 hf)
  all_goals rw [if_neg (fun h => hf ((isFrozen_iff s k).1 h))]
  · rw [if_pos ((isHeld_iff s k).2 hh), hm, (ownsBatch_iff s p).2 ho]
    rfl
  · rw [if_pos ((isHeld_iff s k).2 hh)]
    have hno : (m && ownsBatch s p) = false := by
      rw [Bool.eq_false_iff]
      intro h
      rw [Bool.and_eq_true, ownsBatch_iff] at h
      exact ho h
    rw [hno]
    rfl
  all_goals rw [if_neg (fun h => hh ((isHeld_iff s k).1 h)), hm]
  · simp only [if_true, memberCheck, hb]
  · simp only [if_true, memberCheck, hb, ho, ne_eq, not_false_eq_true]
  · simp only [if_true, memberCheck, hb, ho, ne_eq, not_true_eq_false, if_false, hl]

/-- Tests 2 to 4 pass: what is left is the key's own (R80). -/
theorem writeCheck_open {s : State} {p : Port} {k : Key} {m : Bool} (h : writeOpen s p k m) (del : Bool) :
    writeCheck s p k m del = if del then (if (presentPart s k).isNone then some .notFound else none)
      else if (dirLookup s.dir k).isNone && 512 ≤ s.dir.length + s.rc.droppedTombs then some .directoryFull else none := by
  obtain ⟨hf, hh, hb⟩ := h
  have hmember : (if m then memberCheck s p else none) = none := by
    cases m with
    | false => rfl
    | true =>
      obtain ⟨b, hb, ho, hl⟩ := hb rfl
      simp only [if_true, memberCheck, hb, ho, ne_eq, not_true_eq_false, if_false, Nat.not_le.2 hl]
  unfold writeCheck
  rw [if_neg (fun h => hf ((isFrozen_iff s k).1 h)), if_neg (fun h => hh ((isHeld_iff s k).1 h)), hmember]

theorem writeCheck_granted (s : State) (h : Head) (p : Port) (k : Key) (m del : Bool) :
    writeCheck (grantedWith s h (freshCtx h)) p k m del = writeCheck s p k m del := rfl

/-- A command that passes its checks comes to the sequence counter and to admission. -/
theorem run_of_checksPass {s : State} {h : Head} (hp : checksPass s h) :
    runCommand (grantedWith s h (freshCtx h)) h.port h.cmd = checkThenAppend (grantedWith s h (freshCtx h)) := by
  rcases hp with ⟨k, len, buf, m, hc, hw, hd⟩ | ⟨k, m, p, hc, hw, hpres⟩ | ⟨lo, hi, hc, hr, hl, hh⟩ | ⟨hc, b, hb, ho, hm⟩
  · have hcheck : writeCheck s h.port k m false = none := by
      rw [writeCheck_open hw]
      refine (if_neg Bool.false_ne_true).trans (if_neg ?_)
      cases hk : dirLookup s.dir k with
      | none => simpa using hd hk
      | some e => simp
    rw [hc, runCommand, startWrite, writeCheck_granted, hcheck]
  · have hcheck : writeCheck s h.port k m true = none := by
      rw [writeCheck_open hw, presentPart_some.2 hpres]
      rfl
    rw [hc, runCommand, startWrite, writeCheck_granted, hcheck]
  · rw [hc, runCommand, startFreeze]
    refine (if_neg ?_).trans ((if_neg (Nat.not_le.2 hl)).trans (if_neg ?_))
    · exact fun h => hr ((hasRange_iff _ _ _).1 h)
    · exact fun h => hh ((rangeHeld_iff s lo hi).1 h)
  · have hb' : (grantedWith s h (freshCtx h)).batch = some b := hb
    rw [hc, runCommand, startBatchCommit, hb']
    exact (if_neg (not_not.2 ho)).trans (if_neg (by simpa using hm))

theorem checkThenAppend_exhausted {s : State} (h : s.eng.seqCtr = 0xFFFFFFFF) :
    checkThenAppend s = completeFail (enterReadOnly s) .readOnly := if_pos (by simp [seqExhausted, h])

theorem checkThenAppend_counting {s : State} (h : s.eng.seqCtr ≠ 0xFFFFFFFF) :
    checkThenAppend s = admitCommand s none := if_neg (by simpa [seqExhausted] using h)

/-- Settles O47: each test of `writeCheck` and `startFreeze` in turn, and the exhausted counter after them. -/
theorem writeChecksDecideInOrder : Obligations.WriteChecksDecideInOrder := by
  intro s h ha hr
  have write : ∀ k m st len buf, h.cmd = .put k len buf m → writeCheck s h.port k m false = some st →
      exec .arbiterGrant s = .next (answeredAtGrant s h ⟨st, 0, 0, 0, false, false, false⟩) := fun k m st len buf hc hw =>
    grant_refused ha hr (by rw [hc, runCommand, startWrite, writeCheck_granted, hw])
  have delete : ∀ k m st, h.cmd = .delete k m → writeCheck s h.port k m true = some st →
      exec .arbiterGrant s = .next (answeredAtGrant s h ⟨st, 0, 0, 0, false, false, false⟩) := fun k m st hc hw =>
    grant_refused ha hr (by rw [hc, runCommand, startWrite, writeCheck_granted, hw])
  refine ⟨fun k m => ⟨fun st len buf hc hb => ?_, fun hc hw hnone => delete k m _ hc ?_, fun len buf hc hw hk hfull =>
    write k m _ len buf hc ?_⟩, fun lo hi hc => ⟨fun hf => ?_, fun hf hfull => grant_refused ha hr ?_,
    fun hf hl hh => grant_refused ha hr ?_⟩, fun hq hp => grant_exhausted ha hr ?_⟩
  · rcases hc with hc | hc
    · exact write k m st len buf hc (writeCheck_barred hb false)
    · exact delete k m st hc (writeCheck_barred hb true)
  · rw [writeCheck_open hw, presentPart_none hnone]
    rfl
  · rw [writeCheck_open hw, hk]
    exact (if_neg Bool.false_ne_true).trans (if_pos (by simpa using hfull))
  · refine grant_done ha (.inl hr) _ ((execute_ready hr).trans ?_)
    rw [hc, runCommand]
    exact if_pos ((hasRange_iff _ _ _).2 hf)
  · rw [hc, runCommand]
    exact (if_neg (fun h => hf ((hasRange_iff _ _ _).1 h))).trans (if_pos hfull)
  · rw [hc, runCommand]
    exact (if_neg (fun h => hf ((hasRange_iff _ _ _).1 h))).trans ((if_neg (Nat.not_le.2 hl)).trans
      (if_pos ((rangeHeld_iff s lo hi).2 hh)))
  · exact (run_of_checksPass hp).trans (checkThenAppend_exhausted (s := grantedWith s h (freshCtx h)) hq)

/-! ### The placing of a record -/

/-- A command that passes every test before it comes to admission. -/
theorem grant_admission {s : State} {h : Head} {lines : List LineBits} (ha : headAlone s h) (hr : s.eng.store = .ready)
    (hp : appendPasses s h lines) :
    exec .arbiterGrant s = .next (settleRefused 8 (admitCommand (grantedWith s h (freshCtx h)) none)) := by
  obtain ⟨hq, hpass, -⟩ := hp
  rw [grant_head ha (.inl hr), execute_ready hr, run_of_checksPass hpass]
  exact congrArg (fun t => Host.Outcome.next (settleRefused 8 t)) (checkThenAppend_counting (s := grantedWith s h (freshCtx h)) hq)

/-- A command whose record is placed at its grant. -/
theorem grant_placed {s : State} {h : Head} {lines : List LineBits} {n : Nat} {j : Journal} (ha : headAlone s h)
    (hr : s.eng.store = .ready) (hp : appendPasses s h lines) (ho : openSegment s = some (n, j))
    (hl : lines.length ≤ 256 - j.wp) (he : lineAt s ⟨n, j.wp⟩ = .erased) :
    exec .arbiterGrant s = .next (appendPlaced s h lines ⟨n, j.wp⟩) := by
  have happ := hp.2.2
  have hi : (grantedWith s h (freshCtx h)).inflight = some (freshCtx h) := rfl
  have hext : appendExtent (grantedWith s h (freshCtx h)) (freshCtx h).cmd ≤ 256 - j.wp :=
    (appendExtent_eq (c := freshCtx h) happ).trans_le hl
  have hplaced : admitCommand (grantedWith s h (freshCtx h)) none = appendPlaced s h lines ⟨n, j.wp⟩ := by
    rw [admitCommand_room hi ho hext, assign_fresh _ hi rfl rfl ha.1.notHalting (buildRecord_appends (c := freshCtx h) happ)]
    rfl
  rw [grant_admission ha hr hp, hplaced]
  exact congrArg Host.Outcome.next (settle_erased rfl he)

/-- Settles O49: the record is placed at the grant, or when the command resumes. -/
theorem appendIsPlacedAtTheWritePointer : Obligations.AppendIsPlacedAtTheWritePointer := by
  refine ⟨fun s h lines n j ha hr hp ho hl he => grant_placed ha hr hp ho hl he,
    fun s c lines n j hidle hm hi hst happ ho hl he => ?_⟩
  obtain ⟨hlow, hq, hh, hreq, hsr⟩ := hidle
  have hresume : (arrayFree s && serving s && resumable s) = true := by
    rcases hm with hm | hm <;> simp [arrayFree, serving, resumable, hlow, hq, hh, hreq, hsr, hi, hst, hm]
  have hcheck : setStage s .check = { s with inflight := some { c with stage := .check } } := by
    simp only [setStage, modCtx, hi, Option.map_some]
  have hext : appendExtent s c.cmd ≤ 256 - j.wp := (appendExtent_eq happ).trans_le hl
  have resume : exec .waitSpaceResume s = .next (settleRefused 8 (assign (setStage s .check) ⟨n, j.wp⟩)) := by
    refine ifHigh_of_resetHigh hlow ((if_pos hresume).trans (congrArg (settleRefused 8) ?_))
    rw [hcheck]
    exact admitCommand_room (s := { s with inflight := some { c with stage := .check } }) (c := { c with stage := .check }) rfl ho hext none
  refine ⟨fun x hlines hx => ?_, fun hlines hx => ?_⟩
  · rw [resume, hcheck,
      assign_again (s := { s with inflight := some { c with stage := .check } }) (c := { c with stage := .check }) _
        rfl hx hlines hreq]
    exact congrArg Host.Outcome.next (settle_erased rfl he)
  · have hb : buildRecord { s with inflight := some { c with stage := .check } } { c with stage := .check } s.eng.seqCtr = lines :=
      buildRecord_appends (c := { c with stage := .check }) happ
    rw [resume, hcheck,
      assign_fresh (s := { s with inflight := some { c with stage := .check } }) (c := { c with stage := .check }) _ rfl hx hlines hreq hb]
    exact congrArg Host.Outcome.next (settle_erased rfl he)

end Sys2Proof.Machine
end

