-- ==== Sys2Proof/Proofs/BatchCommands.lean ====
section
/-! The batch commands at their grant (R115, R117, R122). -/

namespace Sys2Proof.Machine

theorem teardown_granted (s : State) (h : Head) (c : Ctx) (own : Bool) :
    teardown (grantedWith s h c) own = grantedWith (teardown s own) h c := by
  obtain ⟨whost, wmgmt, weng, winflight, wholder⟩ := teardown_work s own
  have hs : grantedWith s h c = withWork (h.grantHost s.host) (h.grantMgmt s.mgmt) { s.eng with runCount := 0 } (some c) s.holder s := rfl
  rw [hs, teardown_withWork]
  simp only [withWork, grantedWith, whost, wmgmt, weng, ← wholder]

/-- With no batch open there is nothing to tear down. -/
theorem teardown_none {s : State} (h : s.batch = none) (own : Bool) : teardown s own = s := by
  unfold teardown
  rw [h]

theorem appends_batchCommit {s : State} {b : Batch} {lines : List LineBits} (o : Origin) (hb : s.batch = some b)
    (hl : lines = recordFor s o .batchCommit) : appends s o .batchCommit lines := by
  refine ⟨hl, fun hn => ?_, fun k len buf m hc => nomatch hc⟩
  rw [hl, recordFor] at hn
  simp [hb, recordLines] at hn

/-- Settles O46: each row of `startBatchOpen`, `startBatchCommit` and `startBatchAbort`. -/
theorem batchCommandsAtTheGrant : Obligations.BatchCommandsAtTheGrant := by
  intro s h ha hr
  have hidle : s.holder = .none ∧ s.seqr = none := ⟨ha.1.holder_none, ha.1.seqr_none⟩
  refine ⟨fun hc => ⟨fun b hb => grant_refused ha hr ?_, fun hb hfull => grant_refused ha hr ?_, fun hb hroom hq => ?_,
    fun hb hroom hq => ?_⟩, fun hc => ⟨fun hb => grant_refused ha hr ?_, fun b hb ho => grant_refused ha hr ?_⟩,
    fun b hb ho => ⟨fun hc hm => ?_, fun hc hm hq => ?_, fun lines n j hc hm hq hl hopen hroom he => ?_, fun hc => ?_⟩⟩
  · rw [hc, runCommand]
    exact if_pos (by simp [grantedWith, hb])
  · rw [hc, runCommand]
    exact (if_neg (by simp [grantedWith, hb])).trans (if_pos hfull)
  · have hnone : (enteringReadOnly s).batch = none := hb
    rw [← teardown_none hnone false]
    refine grant_exhausted ha hr ?_
    rw [hc, runCommand]
    exact (if_neg (by simp [grantedWith, hb])).trans ((if_neg (Nat.not_le.2 hroom)).trans
      (if_pos (by simp [seqExhausted, grantedWith, hq])))
  · refine grant_effect ha hr hidle.1 hidle.2 ?_
    rw [hc, runCommand]
    exact (if_neg (by simp [grantedWith, hb])).trans ((if_neg (Nat.not_le.2 hroom)).trans
      (if_neg (by simpa [seqExhausted, grantedWith] using hq)))
  · have hb' : (grantedWith s h (freshCtx h)).batch = none := hb
    rcases hc with hc | hc
    · simp only [hc, runCommand, startBatchCommit, hb']
    · simp only [hc, runCommand, startBatchAbort, hb']
  · have hb' : (grantedWith s h (freshCtx h)).batch = some b := hb
    rcases hc with hc | hc
    · simp only [hc, runCommand, startBatchCommit, hb', ho, ne_eq, not_false_eq_true, if_true]
    · simp only [hc, runCommand, startBatchAbort, hb', ho, ne_eq, not_false_eq_true, if_true]
  · refine grant_effect (u := { s with batch := none }) ha hr hidle.1 hidle.2 ?_
    have hb' : (grantedWith s h (freshCtx h)).batch = some b := hb
    simp only [hc, runCommand, startBatchCommit, hb', ho, hm, ne_eq, not_true_eq_false, if_false, List.isEmpty_nil, if_true]
    rfl
  · have hp : checksPass s h := .inr (.inr (.inr ⟨hc, b, hb, ho, hm⟩))
    exact grant_exhausted ha hr ((run_of_checksPass hp).trans (checkThenAppend_exhausted (s := grantedWith s h (freshCtx h)) hq))
  · have hp : checksPass s h := .inr (.inr (.inr ⟨hc, b, hb, ho, hm⟩))
    refine grant_placed ha hr ⟨hq, hp, ?_⟩ hopen hroom he
    rw [hc]
    exact appends_batchCommit (s := grantedWith s h (freshCtx h)) h.origin hb hl
  · refine grant_effect (u := teardown s true) ha hr ((teardown_work s true).2.2.2.2.trans hidle.1)
      ((close_teardown s true).1.trans hidle.2) ?_
    have hb' : (grantedWith s h (freshCtx h)).batch = some b := hb
    simp only [hc, runCommand, startBatchAbort, hb', ho, ne_eq, not_true_eq_false, if_false, teardown_granted]

end Sys2Proof.Machine
end

