-- ==== Sys2Proof/Proofs/Programs.lean ====
section
/-! The end of a program that the command in flight issued (R94–R99): what the report does at each stage of its record. -/

namespace Sys2Proof.Machine

/-! ### The entry of one segment changed -/

/-- `s` with the entry of segment `n` changed by `g`. -/
def entryChanged (s : State) (n : Nat) (g : SegEntry → SegEntry) : State :=
  { s with sm := { s.sm with table := s.sm.table.map (fun e => if e.num = n then g e else e) } }

theorem entryChanged_again (s : State) (n : Nat) (g h : SegEntry → SegEntry) (hg : ∀ e, (g e).num = e.num) :
    entryChanged (entryChanged s n g) n h = entryChanged s n (fun e => h (g e)) := by
  have hf : ((fun e => if e.num = n then h e else e) ∘ fun e => if e.num = n then g e else e) =
      fun e : SegEntry => if e.num = n then h (g e) else e := by
    funext e
    by_cases hn : e.num = n
    · simp [hn, hg e]
    · simp [hn]
  simp only [entryChanged, List.map_map, hf]

theorem mem_entryChanged {s : State} {n : Nat} {e : SegEntry} (g : SegEntry → SegEntry) (he : e ∈ s.sm.table) (hn : e.num = n) :
    g e ∈ (entryChanged s n g).sm.table := List.mem_map.2 ⟨e, he, if_pos hn⟩

/-- What the entry of segment `n` reads as after a change. -/
theorem segEntry_entryChanged (s : State) (n m : Nat) (g : SegEntry → SegEntry) (hg : ∀ e, (g e).num = e.num) :
    segEntry (entryChanged s n g) m = (segEntry s m).map (fun e => if e.num = n then g e else e) := by
  rw [← segEntry_segUpd s n m g hg]
  obtain ⟨a, ha⟩ := segUpd_changes s n g
  rw [ha]
  rfl

theorem closeSegment_eq (s : State) (n : Nat) :
    closeSegment s n = entryChanged s n (fun e => { e with st := e.st.close }) :=
  segUpd_quiet n _ fun e _ _ hf => by
    cases hs : e.st <;> simp_all [SegEntry.isFree, SegState.close]

theorem countFault_counts (s : State) (n : Nat) : countFault s n = raise (entryChanged s n faultCounted) .fault :=
  congrArg (raise · .fault) (segUpd_quiet n _ fun _ _ _ hf => hf)

theorem journalUpd_eq (s : State) (n : Nat) (f : Journal → Journal) :
    journalUpd s n f = entryChanged s n (fun e => { e with st := e.st.mapJournal f }) :=
  segUpd_quiet n _ fun e _ _ hf => (isFree_mapJournal f e).trans hf

/-- FREE segments are counted alike when a change takes no segment in or out of FREE. -/
theorem freeCount_entryChanged {s : State} {n : Nat} {g : SegEntry → SegEntry}
    (hg : ∀ e ∈ s.sm.table, e.num = n → (g e).isFree = e.isFree) : freeCount (entryChanged s n g) = freeCount s := by
  simp only [freeCount, entryChanged, List.countP_map]
  refine List.countP_congr fun e he => ?_
  by_cases hn : e.num = n
  · simp [hn, hg e he hn]
  · simp [hn]

/-! ### The report at the end of an operation -/

theorem operating.notHalting {s : State} {h : Holder} {op : SeqOp} (ho : operating s h op) : s.eng.haltReq = false :=
  let ⟨_, _, hreq, _, _⟩ := ho
  hreq

theorem operating.holder_eq {s : State} {h : Holder} {op : SeqOp} (ho : operating s h op) : s.holder = h :=
  let ⟨_, _, _, hh, _⟩ := ho
  hh

theorem programming_operating {s : State} {c : Ctx} {o : Origin} {l : Loc} {content : LineBits}
    (h : programmingFor s c o l content) : operating s .command (.program l content) :=
  let ⟨hr, hsr, hreq, hh, _, hq, _⟩ := h
  ⟨hr, hsr, hreq, hh, hq⟩

theorem programmingFor.inflight_eq {s : State} {c : Ctx} {o : Origin} {l : Loc} {content : LineBits}
    (h : programmingFor s c o l content) : s.inflight = some c :=
  let ⟨_, _, _, _, hi, _⟩ := h
  hi

/-- `s` as an operation on line `l` ends and leaves `v` in it. -/
def ended (s : State) (l : Loc) (v : Line) : State := { s with array := (setLine s l v).array, seqr := none }

theorem ended_eq (s : State) (l : Loc) (v : Line) : { setLine s l v with seqr := none } = ended s l v := by
  obtain ⟨m, hm⟩ := setLine_eq s l v
  simp only [ended, hm]

theorem lineAt_ended (s : State) (l m : Loc) (v : Line) (h : m ≠ l) : lineAt (ended s l v) m = lineAt s m :=
  (lineAt_congr rfl m).trans (lineAt_setLine_other s l m v h)

theorem operating_done {s : State} {l : Loc} {c : LineBits} {h : Holder} (ho : operating s h (.program l c)) :
    exec .programDone s = reported (onReport (ended s l (.good c)) l .programDone) := by
  obtain ⟨hr, hsr, -, -, hq⟩ := ho
  obtain ⟨m, hm⟩ := setLine_eq s l (.good c)
  refine ifHigh_of_resetHigh hr ?_
  rw [programDone_of hq, ← ended_eq, hm]
  exact if_neg (by simp [hsr])

theorem operating_expired {s : State} {l : Loc} {c : LineBits} {h : Holder} (ho : operating s h (.program l c)) :
    exec .programDeadlineExpiry s = reported (onReport (ended s l .torn) l (.programFault .expired)) := by
  obtain ⟨hr, hsr, -, -, hq⟩ := ho
  obtain ⟨m, hm⟩ := setLine_eq s l .torn
  refine ifHigh_of_resetHigh hr ?_
  rw [programExpires_of hq, ← ended_eq, hm]
  exact if_neg (by simp [hsr])

/-- The record of a command is being programmed. -/
def placesLine (st : Stage) : Prop := st = .header ∨ (∃ k, st = .data k) ∨ st = .commit

/-- A report that belongs to a line of the record in progress. -/
theorem onReport_done {s : State} {c : Ctx} (l : Loc) (hh : s.holder = .command) (hi : s.inflight = some c)
    (hs : placesLine c.stage) : onReport s l .programDone = appendDone s c := by
  simp only [onReport, hh, commandReport, hi]
  rcases hs with hs | ⟨k, hs⟩ | hs <;> simp only [hs, appendReport]

theorem onReport_fault {s : State} {c : Ctx} (l : Loc) (f : FaultCause) (hh : s.holder = .command) (hi : s.inflight = some c)
    (hs : placesLine c.stage) : onReport s l (.programFault f) = appendFault s c := by
  simp only [onReport, hh, commandReport, hi]
  rcases hs with hs | ⟨k, hs⟩ | hs <;> simp only [hs, appendReport]

/-- A report that belongs to the opening of a segment for the command. -/
theorem onReport_opening {s : State} {c : Ctx} {o : Opening} (l : Loc) (rep : Report) (hh : s.holder = .command)
    (hi : s.inflight = some c) (hs : c.stage = .admission o) :
    onReport s l rep = openingNext (openReport s o rep) c o := by
  simp only [onReport, hh, commandReport, hi, hs, appendReport]

/-- A program issued to an ERASED line stands. -/
theorem reported_issued {x : State} {l : Loc} {c : LineBits} (hh : x.eng.haltReq = false) (he : lineAt x l = .erased) :
    reported (issue x (.program l c)) = .next { x with seqr := some (.program l c) } := by
  have hi : issue x (.program l c) = { x with seqr := some (.program l c) } := by simp [issue, hh]
  rw [hi]
  exact reported_erased hh rfl he

/-- Settles O51: a line that is not the last leads to the next. -/
theorem lineProgramsFollowInOrder : Obligations.LineProgramsFollowInOrder := by
  intro s c i l m content hp _ hstage hlt hl hm he
  have ho := programming_operating hp
  obtain ⟨-, -, hreq, hh, hi, -, -, hstop, hlost, -⟩ := hp
  have hplace : placesLine c.stage := by
    rcases hstage with ⟨h, -⟩ | h
    · exact .inl h
    · exact .inr (.inl ⟨i, h⟩)
  have hindex : c.stage.lineIndex c.lines = i := by
    rcases hstage with ⟨h, rfl⟩ | h <;> rw [h] <;> rfl
  have hcommit : c.stage ≠ .commit := by
    rcases hstage with ⟨h, -⟩ | h <;> rw [h] <;> exact fun h => nomatch h
  have hne : m ≠ l := by
    rw [hm, hl]
    intro h
    have := congrArg Loc.line h
    dsimp only at this
    omega
  have hnext : stageOfLine (i + 1) c.lines.length = if i + 2 = c.lines.length then .commit else .data (i + 1) := by
    simp [stageOfLine]
  have hdone : onReport (ended s l (.good content)) l .programDone = issue { ended s l (.good content) with
      inflight := some { c with stage := if i + 2 = c.lines.length then .commit else .data (i + 1) } }
      (.program m (c.lines.getD (i + 1) 0)) := by
    have hi' : (ended s l (.good content)).inflight = some c := hi
    refine (onReport_done (s := ended s l (.good content)) l hh hi' hplace).trans ?_
    simp only [appendDone, hstop, hlost, hcommit, hindex, hnext, Bool.false_eq_true, if_false, setStage, modCtx, hi', Option.map_some,
      hm]
    rfl
  rw [operating_done ho, hdone]
  refine (reported_issued ?_ ?_).trans (congrArg Host.Outcome.next ?_)
  · exact hreq
  · exact (lineAt_ended s l m _ hne).trans he
  · obtain ⟨a, ha⟩ := setLine_eq s l (.good content)
    simp only [ended, ha]

end Sys2Proof.Machine
end

