-- ==== Sys2Proof/Proofs/Admission.lean ====
section
/-! Admission without room in the OPEN segment (R35, R36), the opening of a segment (R31–R33), and the restart of an append after
a fault (R97–R99). -/

namespace Sys2Proof.Machine

/-! ### The least worn FREE segment (R32) -/

/-- `a` precedes `b`: it is less worn, or as much and lower in number. -/
def precedes (a b : Nat × Nat) : Prop := a.2 < b.2 ∨ (a.2 = b.2 ∧ a.1 ≤ b.1)

theorem precedes_trans {a b c : Nat × Nat} (h : precedes a b) (k : precedes b c) : precedes a c := by
  unfold precedes at *
  omega

/-- The scan that takes the first of the least worn. -/
def pickLeast (best : Option (Nat × Nat)) (c : Nat × Nat) : Option (Nat × Nat) :=
  match best with
  | none => some c
  | some b => if c.2 < b.2 then some c else some b

theorem chooseFree_eq (s : State) (failed : Option Nat) :
    chooseFree s failed = ((freeSegments s failed).foldl pickLeast none).map Prod.fst := rfl

/-- The scan of a list in order of number ends with one that precedes every other. -/
theorem foldl_pickLeast (l : List (Nat × Nat)) : ∀ b : Nat × Nat, (b :: l).Pairwise (fun x y => x.1 < y.1) →
    ∃ r ∈ b :: l, l.foldl pickLeast (some b) = some r ∧ ∀ x ∈ b :: l, precedes r x := by
  induction l with
  | nil => exact fun b _ => ⟨b, by simp, rfl, by simp [precedes]⟩
  | cons c l ih =>
    intro b h
    obtain ⟨hb, hc⟩ := List.pairwise_cons.1 h
    have hbc : b.1 < c.1 := hb c (by simp)
    by_cases hlt : c.2 < b.2
    · obtain ⟨r, hr, hfold, hmin⟩ := ih c hc
      refine ⟨r, List.mem_cons_of_mem _ hr, ?_, fun x hx => ?_⟩
      · simpa only [List.foldl_cons, pickLeast, hlt, if_true] using hfold
      · rcases List.mem_cons.1 hx with rfl | hx
        · exact precedes_trans (hmin c (by simp)) (.inl hlt)
        · exact hmin x hx
    · obtain ⟨r, hr, hfold, hmin⟩ := ih b (h.sublist (by simp))
      refine ⟨r, ?_, ?_, fun x hx => ?_⟩
      · rcases List.mem_cons.1 hr with rfl | hr
        · exact List.mem_cons_self ..
        · exact List.mem_cons_of_mem _ (List.mem_cons_of_mem _ hr)
      · simpa only [List.foldl_cons, pickLeast, hlt, if_false] using hfold
      · rcases List.mem_cons.1 hx with rfl | hx
        · exact hmin x (by simp)
        · rcases List.mem_cons.1 hx with rfl | hx
          · exact precedes_trans (hmin b (by simp)) (by unfold precedes; omega)
          · exact hmin x (List.mem_cons_of_mem _ hx)

theorem foldl_pickLeast_eq {l : List (Nat × Nat)} {a : Nat × Nat} (ho : l.Pairwise (fun x y => x.1 < y.1)) (ha : a ∈ l)
    (hmin : ∀ x ∈ l, precedes a x) : l.foldl pickLeast none = some a := by
  cases l with
  | nil => exact absurd ha (by simp)
  | cons b l =>
    obtain ⟨r, hr, hfold, hleast⟩ := foldl_pickLeast l b ho
    have hra := hleast a ha
    have har := hmin r hr
    have hfst : r.1 = a.1 := by unfold precedes at *; omega
    have hsnd : r.2 = a.2 := by unfold precedes at *; omega
    rw [List.foldl_cons]
    exact hfold.trans (congrArg some (Prod.ext hfst hsnd))

theorem mem_freeSegments {s : State} {failed : Option Nat} {x : Nat × Nat} :
    x ∈ freeSegments s failed ↔ ∃ e ∈ s.sm.table, e.st = .free ∧ failed ≠ some e.num ∧ x = (e.num, e.eraseCount) := by
  simp only [freeSegments, List.mem_filterMap]
  refine exists_congr fun e => and_congr_right fun _ => ?_
  by_cases h : e.st = .free ∧ failed ≠ some e.num
  · have : (e.isFree && failed != some e.num) = true := by simpa [SegEntry.isFree] using h
    simp only [this, if_true, Option.some.injEq, h.1, h.2, ne_eq, not_false_eq_true, true_and]
    exact eq_comm
  · have : (e.isFree && failed != some e.num) = false := by
      rw [Bool.eq_false_iff]
      exact fun hb => h (by simpa [SegEntry.isFree] using hb)
    simp only [this, Bool.false_eq_true, if_false, reduceCtorEq, false_iff]
    exact fun ⟨h1, h2, _⟩ => h ⟨h1, h2⟩

theorem pairwise_freeSegments {s : State} (hO : tableOrdered s) (failed : Option Nat) :
    (freeSegments s failed).Pairwise (fun x y => x.1 < y.1) := by
  unfold freeSegments
  rw [List.pairwise_filterMap]
  refine (List.pairwise_map.1 hO).imp fun {a b} hab x hx y hy => ?_
  split at hx
  · split at hy
    · cases hx
      cases hy
      exact hab
    · cases hy
  · cases hx

theorem chooseFree_leastWorn {s : State} {n : Nat} (hO : tableOrdered s) (h : leastWorn s n) : chooseFree s none = some n := by
  obtain ⟨e, he, rfl, hfree, hleast⟩ := h
  rw [chooseFree_eq, foldl_pickLeast_eq (a := (e.num, e.eraseCount)) (pairwise_freeSegments hO none)]
  · rfl
  · exact mem_freeSegments.2 ⟨e, he, hfree, by simp, rfl⟩
  · intro x hx
    obtain ⟨y, hy, hst, -, rfl⟩ := mem_freeSegments.1 hx
    exact hleast y hy hst

/-! ### Admission without room (R35, R36) -/

theorem findPlace_free {s : State} {n : Nat} (hr : noRoomFor s n) (need : Nat) (failed : Option Nat) :
    findPlace s n need failed = findPlace.findFree s need failed := by
  unfold findPlace
  cases ho : openSegment s with
  | none => rfl
  | some p => exact if_neg (Nat.not_le.2 (hr p.1 p.2 ho))

/-- An opening for the command in flight, once the OPEN segment is closed (R31, R32). -/
def opensFor (s : State) (c : Ctx) (n : Nat) : State :=
  { s with
    sm := { s.sm with
      nextEpoch := if s.sm.nextEpoch = 0xFFFFFFFF#32 then s.sm.nextEpoch else s.sm.nextEpoch + 1
      exhausted := if s.sm.nextEpoch = 0xFFFFFFFF#32 then true else s.sm.exhausted }
    inflight := some { c with stage := .admission ⟨n, s.sm.nextEpoch, none, none⟩ }
    seqr := some (.program ⟨n, 1⟩ (openLine s.sm.nextEpoch s.eng.volId)), holder := .command }

theorem takeEpoch_eq (s : State) : takeEpoch s = { s with sm := { s.sm with
    nextEpoch := if s.sm.nextEpoch = 0xFFFFFFFF#32 then s.sm.nextEpoch else s.sm.nextEpoch + 1
    exhausted := if s.sm.nextEpoch = 0xFFFFFFFF#32 then true else s.sm.exhausted } } := by
  unfold takeEpoch
  split <;> rfl

/-- The close of the OPEN segment changes the table alone. -/
theorem closeOpen_table (s : State) : ∃ T, closeOpen s = { s with sm := { s.sm with table := T } } := by
  unfold closeOpen
  split
  · exact ⟨_, closeSegment_eq s _⟩
  · exact ⟨s.sm.table, rfl⟩

/-- The least worn FREE segment is to be opened (R32, R36). -/
theorem findPlace_opens {s : State} {k need n : Nat} (hO : tableOrdered s) (hr : noRoomFor s k) (hx : s.sm.exhausted = false)
    (hf : need ≤ freeCount s) (hn : leastWorn s n) : findPlace s k need none = .openOne n := by
  rw [findPlace_free hr, findPlace.findFree, hx, chooseFree_leastWorn hO hn]
  simp [hf]

theorem admitCommand_opens {s : State} {c : Ctx} {n : Nat} (hi : s.inflight = some c) (hO : tableOrdered s)
    (hr : noRoomFor s (appendExtent s c.cmd)) (hx : s.sm.exhausted = false) (hf : 2 ≤ freeCount s) (hn : leastWorn s n)
    (hreq : s.eng.haltReq = false) : admitCommand s none = opensFor (closeOpen s) c n := by
  obtain ⟨T, hT⟩ := closeOpen_table s
  simp only [admitCommand, hi, findPlace_opens hO hr hx hf hn, startOpening, takeEpoch_eq, opensFor, hT, issue, hreq, setStage,
    modCtx, Bool.false_eq_true, if_false, Option.map_some]

theorem candidate?_eq_some {e : SegEntry} {n : Nat} {j : Journal} :
    e.candidate? = some (n, j) ↔ e.num = n ∧ e.st = .closed j ∧ j.pins = 0 := by
  unfold SegEntry.candidate?
  cases hst : e.st with
  | closed i =>
    by_cases hp : i.pins = 0
    · simp only [hp, if_true, Option.some.injEq, Prod.mk.injEq, SegState.closed.injEq]
      exact ⟨fun ⟨h, k⟩ => ⟨h, k, k ▸ hp⟩, fun ⟨h, k, _⟩ => ⟨h, k⟩⟩
    · simp only [hp, if_false, reduceCtorEq, SegState.closed.injEq, false_iff]
      exact fun ⟨_, k, q⟩ => hp (k ▸ q)
  | _ => simp

theorem mem_candidates {s : State} {n : Nat} {j : Journal} :
    (n, j) ∈ candidates s ↔ standsAs s n (.closed j) ∧ j.pins = 0 := by
  simp only [candidates, List.mem_filterMap, candidate?_eq_some, standsAs]
  constructor
  · rintro ⟨e, he, hn, hst, hp⟩
    exact ⟨⟨e, he, hn, hst⟩, hp⟩
  · rintro ⟨⟨e, he, hn, hst⟩, hp⟩
    exact ⟨e, he, hn, hst, hp⟩

theorem canGain_iff (s : State) : canGain s = true ↔ spaceCanBeGained s := by
  unfold canGain spaceCanBeGained
  rw [Bool.or_eq_true, Option.isSome_iff_ne_none]
  refine or_congr Iff.rfl ?_
  simp only [List.any_eq_true, decide_eq_true_eq]
  constructor
  · rintro ⟨⟨n, j⟩, hc, hd⟩
    obtain ⟨hst, hp⟩ := mem_candidates.1 hc
    exact ⟨n, j, hst, hp, hd⟩
  · rintro ⟨n, j, hst, hp, hd⟩
    exact ⟨(n, j), mem_candidates.2 ⟨hst, hp⟩, hd⟩

/-- With too few FREE segments a command waits where reclaim can gain space, and is STORE_FULL where it cannot (R35). -/
theorem admitCommand_waits {s : State} {c : Ctx} (hi : s.inflight = some c) (hr : noRoomFor s (appendExtent s c.cmd))
    (hx : s.sm.exhausted = false) (hf : freeCount s < 2) : admitCommand s none = waitOrFull s := by
  have hplace : findPlace s (appendExtent s c.cmd) 2 none = .noSegment := by
    rw [findPlace_free hr, findPlace.findFree, hx]
    simp [Nat.not_le.2 hf]
  simp only [admitCommand, hi, hplace]

/-- With the epoch counter exhausted no segment can be opened (R27). -/
theorem admitCommand_exhausted {s : State} {c : Ctx} (hi : s.inflight = some c) (hr : noRoomFor s (appendExtent s c.cmd))
    (hx : s.sm.exhausted = true) : admitCommand s none = completeFail (enterReadOnly s) .readOnly := by
  have hplace : findPlace s (appendExtent s c.cmd) 2 none = .noEpoch := by
    rw [findPlace_free hr, findPlace.findFree, hx]
    rfl
  simp only [admitCommand, hi, hplace]

/-! ### A line of a record fails (R97–R99) -/

/-- What a fault leaves of the entry of its segment: the record dead, the fault counted, the segment closed. -/
def faultClosed (e : SegEntry) (n : Nat) : SegEntry :=
  { faultCounted e with st := (e.st.mapJournal fun j => { j with wp := j.wp + n, dead := j.dead + n }).close }

/-- A fault on a line of a record of `k` lines in segment `n`: it is counted, the record is dead, the segment is closed. -/
def segmentFaulted (s : State) (n k : Nat) : State := raise (entryChanged s n (faultClosed · k)) .fault

theorem entryChanged_raise (s : State) (n : Nat) (g : SegEntry → SegEntry) (a : Alert) :
    entryChanged (raise s a) n g = raise (entryChanged s n g) a := rfl

theorem fault_closes (s : State) (n k : Nat) : closeSegment (accountDead (countFault s n) n k) n = segmentFaulted s n k := by
  simp only [countFault_counts, accountDead, journalUpd_eq, closeSegment_eq]
  rw [entryChanged_raise, entryChanged_raise, entryChanged_again, entryChanged_again]
  · rfl
  all_goals exact fun _ => rfl

/-- A fault on a line of the record of `c`. -/
def recordFaulted (s : State) (c : Ctx) : State := segmentFaulted s c.place.seg c.lines.length

theorem record_faulted {s : State} {c : Ctx} (hi : s.inflight = some c) :
    closeSegment (abandonRecord (countFault s c.place.seg)) c.place.seg = recordFaulted s c := by
  have habandon : abandonRecord (countFault s c.place.seg) = accountDead (countFault s c.place.seg) c.place.seg c.lines.length := by
    have hi' : (countFault s c.place.seg).inflight = some c := by
      rw [countFault_counts]
      exact hi
    rw [abandonRecord, hi']
  rw [habandon]
  exact fault_closes s c.place.seg c.lines.length

/-- The segment of a record that fits closes with every line above the write pointer dead. -/
theorem faultClosed_opened {e : SegEntry} {j : Journal} {n : Nat} (hst : e.st = .opened j) (hn : j.wp + n ≤ 256) :
    faultClosed e n = { e with
      st := .closed { j with wp := 256, dead := j.dead + (256 - j.wp) }
      faults := e.faults + 1, retirePending := e.retirePending || decide (2 ≤ e.faults + 1) } := by
  have hd : j.dead + n + (256 - (j.wp + n)) = j.dead + (256 - j.wp) := by omega
  have hw : j.wp + n + (256 - (j.wp + n)) = 256 := by omega
  simp only [faultClosed, faultCounted, hst, SegState.mapJournal, SegState.close, Journal.closed, hd, hw]

theorem segmentFaulted_flag (s : State) (n k : Nat) : (segmentFaulted s n k).alert.flags.getLsbD 2 = true := by
  simp [segmentFaulted, raise, Alert.mask]

theorem mem_segmentFaulted {s : State} {n : Nat} {e : SegEntry} (k : Nat) (he : e ∈ s.sm.table) (hn : e.num = n) :
    faultClosed e k ∈ (segmentFaulted s n k).sm.table := mem_entryChanged _ he hn

/-- A command that ends without its effect at the end of an operation. -/
theorem reported_failed {x : State} {c : Ctx} (st : Status) (hi : x.inflight = some c) (ht : c.tearDue = false)
    (hreq : x.eng.haltReq = false) (hq : x.seqr = none) :
    reported (completeFail x st) = .next (syncIdle (answeredCmd x c (c.failure st))) := by
  have hc : completeFail x st = syncIdle (answeredCmd x c (c.failure st)) := by
    simp only [completeFail, hi]
    exact complete_ports _ hi ht
  rw [hc]
  exact reported_idle hreq hq

/-- The append of `c` after its first fault, on line `l`. -/
def restarted (s : State) (c : Ctx) (l : Loc) : State :=
  { recordFaulted (ended s l .torn) c with inflight := some { c with retried := true } }

/-- What a fault on a line of a record leads to: the command fails, or it is admitted again. -/
theorem fault_reported {s : State} {c : Ctx} {l : Loc} {content : LineBits} (h : programmingFor s c c.origin l content)
    (hs : placesLine c.stage) : exec .programDeadlineExpiry s = reported (if c.retried = true
      then completeFail (recordFaulted (ended s l .torn) c) .mediaFault
      else admitCommand (restarted s c l) none) := by
  have ho := programming_operating h
  obtain ⟨-, -, hreq, hh, hi, -, -, hstop, hlost, -⟩ := h
  have hi' : (ended s l .torn).inflight = some c := hi
  have hreq' : (ended s l .torn).eng.haltReq = false := hreq
  refine (operating_expired ho).trans (congrArg reported ((onReport_fault (s := ended s l .torn) l .expired hh hi' hs).trans ?_))
  have hi2 : (recordFaulted (ended s l .torn) c).inflight = some c := hi
  simp only [appendFault, hstop, hlost, hreq', Bool.false_eq_true, if_false, record_faulted hi', modCtx, hi2, Option.map_some, restarted]

/-- A change that keeps numbers, erase counts and FREE segments keeps the least worn. -/
theorem leastWorn_entryChanged {s : State} {n m : Nat} {g : SegEntry → SegEntry} (hnum : ∀ e, (g e).num = e.num)
    (hcount : ∀ e, (g e).eraseCount = e.eraseCount) (hfree : ∀ e, (g e).st = .free ↔ e.st = .free) (h : leastWorn s n) :
    leastWorn (entryChanged s m g) n := by
  have image : ∀ e : SegEntry, (if e.num = m then g e else e).num = e.num
      ∧ (if e.num = m then g e else e).eraseCount = e.eraseCount ∧ ((if e.num = m then g e else e).st = .free ↔ e.st = .free) := by
    intro e
    by_cases he : e.num = m
    · rw [if_pos he]
      exact ⟨hnum e, hcount e, hfree e⟩
    · rw [if_neg he]
      exact ⟨rfl, rfl, Iff.rfl⟩
  obtain ⟨e, he, rfl, hst, hleast⟩ := h
  obtain ⟨hen, hec, hef⟩ := image e
  refine ⟨_, List.mem_map.2 ⟨e, he, rfl⟩, hen, hef.2 hst, fun x hx hxf => ?_⟩
  obtain ⟨y, hy, rfl⟩ := List.mem_map.1 hx
  obtain ⟨hyn, hyc, hyf⟩ := image y
  rw [hyn, hyc, hen, hec]
  exact hleast y hy (hyf.1 hxf)

theorem openSegment_of_noneOpen {s : State} (h : noneOpen s.sm.table) : openSegment s = none := by
  unfold openSegment
  rw [List.findSome?_eq_none_iff]
  intro e he
  split
  · next j hj => exact absurd hj (h e he j)
  · rfl

theorem close_ne_opened (st : SegState) (j : Journal) : st.close ≠ .opened j := by
  cases st <;> simp [SegState.close]

theorem faultClosed_free (e : SegEntry) (n : Nat) : (faultClosed e n).st = .free ↔ e.st = .free := by
  unfold faultClosed faultCounted
  cases e.st <;> simp [SegState.close, SegState.mapJournal]

/-- With no OPEN segment but the one of the fault, none is left OPEN. -/
theorem openSegment_segmentFaulted {s : State} {n : Nat} (k : Nat) (hopen : ∀ x y, standsAs s x (.opened y) → x = n) :
    openSegment (segmentFaulted s n k) = none := by
  refine openSegment_of_noneOpen fun x hx y hy => ?_
  obtain ⟨z, hz, rfl⟩ := List.mem_map.1 hx
  by_cases hzn : z.num = n
  · rw [if_pos hzn] at hy
    exact close_ne_opened _ _ hy
  · rw [if_neg hzn] at hy
    exact hzn (hopen z.num y ⟨z, hz, rfl, hy⟩)

theorem freeCount_segmentFaulted (s : State) (n k : Nat) : freeCount (segmentFaulted s n k) = freeCount s :=
  freeCount_entryChanged fun x _ _ => by
    rw [Bool.eq_iff_iff]
    simpa [SegEntry.isFree] using faultClosed_free x k

theorem leastWorn_segmentFaulted {s : State} {m : Nat} (n k : Nat) (h : leastWorn s m) : leastWorn (segmentFaulted s n k) m :=
  leastWorn_entryChanged (s := s) (fun _ => rfl) (fun _ => rfl) (faultClosed_free · _) h

theorem tableOrdered_segmentFaulted {s : State} (n k : Nat) (h : tableOrdered s) : tableOrdered (segmentFaulted s n k) :=
  tableOrdered_map (fun e => if e.num = n then faultClosed e k else e) (fun e => by split <;> rfl) rfl h

/-- With no segment OPEN there is no room, and none to close. -/
theorem noRoom_of_none {s : State} (h : openSegment s = none) (n : Nat) : noRoomFor s n := fun m j k => by
  rw [h] at k
  cases k

theorem closeOpen_of_none {s : State} (h : openSegment s = none) : closeOpen s = s := by
  rw [closeOpen, h]

/-- The append that restarts opens the least worn FREE segment. -/
theorem restart_opens {s : State} {c : Ctx} {l : Loc} {n : Nat} (hO : tableOrdered s) (hreq : s.eng.haltReq = false)
    (hx : s.sm.exhausted = false) (hfree : 2 ≤ freeCount s) (hn : leastWorn s n)
    (hopen : ∀ x y, standsAs s x (.opened y) → x = c.place.seg) :
    admitCommand (restarted s c l) none = opensFor (restarted s c l) { c with retried := true } n := by
  have hclosed : openSegment (restarted s c l) = none :=
    openSegment_segmentFaulted (s := ended s l .torn) c.lines.length hopen
  have hcount : freeCount (restarted s c l) = freeCount s :=
    freeCount_segmentFaulted (ended s l .torn) c.place.seg c.lines.length
  have hleast : leastWorn (restarted s c l) n :=
    leastWorn_segmentFaulted (s := ended s l .torn) c.place.seg c.lines.length hn
  have hO' : tableOrdered (restarted s c l) :=
    tableOrdered_segmentFaulted (s := ended s l .torn) c.place.seg c.lines.length hO
  rw [admitCommand_opens (c := { c with retried := true }) rfl hO' (noRoom_of_none hclosed _) hx (hcount ▸ hfree) hleast hreq,
    closeOpen_of_none hclosed]

theorem ne_of_standing {s : State} {n m : Nat} {a b : SegState} (hO : tableOrdered s) (ha : standsAs s n a) (hb : standsAs s m b)
    (h : a ≠ b) : n ≠ m := by
  rintro rfl
  obtain ⟨x, hx, hxn, rfl⟩ := ha
  obtain ⟨y, hy, hyn, rfl⟩ := hb
  have h1 : segEntry s n = some x := hxn ▸ segEntry_of_mem hO hx
  have h2 : segEntry s n = some y := hyn ▸ segEntry_of_mem hO hy
  rw [h1, Option.some.injEq] at h2
  exact h (congrArg SegEntry.st h2)

theorem leastWorn_stands {s : State} {n : Nat} (h : leastWorn s n) : standsAs s n .free := by
  obtain ⟨e, he, hn, hst, -⟩ := h
  exact ⟨e, he, hn, hst⟩

/-- Settles O53: `appendFault` with no stop and no halt under way. -/
theorem lineFaultAbandonsTheRecord : Obligations.LineFaultAbandonsTheRecord := by
  intro s c l content e j hp ha hl hseg hO hs he hn hst hfit
  have hfault := fault_reported hp hs
  obtain ⟨-, -, hreq, hh, hi, -, -, hstop, hlost, htear⟩ := hp
  have htorn : lineAt (ended s l .torn) l = .torn := (lineAt_congr rfl l).trans (lineAt_setLine_same s l .torn ha hl)
  have hmem := mem_segmentFaulted (s := ended s l .torn) c.lines.length he hn
  rw [faultClosed_opened hst hfit] at hmem
  have hflag := segmentFaulted_flag (ended s l .torn) c.place.seg c.lines.length
  refine ⟨fun hr => ?_, fun n hr hx hfree hleast hopen herased => ?_⟩
  · rw [if_pos hr, reported_failed .mediaFault (x := recordFaulted (ended s l .torn) c) (c := c) hi htear hreq rfl] at hfault
    refine ⟨_, hfault, htorn, hmem, hflag, ?_, rfl, rfl, rfl, rfl⟩
    have hres : c.failure .mediaFault = ⟨.mediaFault, 0, c.seq.getD 0, 0, false, false, true⟩ := by
      simp only [Ctx.failure, hr, c.endSeq_carried (st := .mediaFault) (fun h => nomatch h) (fun h => nomatch h)]
    rw [← hres]
    exact handedTo_of rfl rfl
  · rw [if_neg (by simp [hr]), restart_opens hO hreq hx hfree hleast hopen] at hfault
    have hn' : n ≠ c.place.seg := ne_of_standing hO (leastWorn_stands hleast) ⟨e, he, hn, hst⟩ (fun h => nomatch h)
    have hne : (⟨n, 1⟩ : Loc) ≠ l := fun h => hn' (hseg ▸ congrArg Loc.seg h)
    have herased' : lineAt (opensFor (restarted s c l) { c with retried := true } n) ⟨n, 1⟩ = .erased :=
      (lineAt_congr rfl _).trans ((lineAt_ended s l ⟨n, 1⟩ .torn hne).trans herased)
    refine ⟨_, hfault.trans (reported_erased hreq rfl herased'), htorn, hmem, hflag, rfl, rfl, rfl⟩

/-! ### An append without room (R35, R36) -/

/-- The OPEN segment stands CLOSED, full of dead lines above its write pointer. -/
theorem standsAs_closeOpen {s : State} {m : Nat} {j : Journal} (h : openSegment s = some (m, j)) (hj : j.wp ≤ 256) :
    standsAs (closeOpen s) m (.closed { j with dead := j.dead + (256 - j.wp), wp := 256 }) := by
  obtain ⟨e, he, hn, hst⟩ := openSegment_some h
  have hw : j.wp + (256 - j.wp) = 256 := by omega
  have hc : closeOpen s = entryChanged s m (fun e => { e with st := e.st.close }) := by
    rw [closeOpen, h]
    exact closeSegment_eq s m
  rw [hc]
  refine ⟨_, mem_entryChanged _ he hn, hn, ?_⟩
  simp only [hst, SegState.close, Journal.closed, hw]

/-- The four outcomes of admission at the grant. -/
theorem append_without_room {s : State} {h : Head} {lines : List LineBits} (ha : headAlone s h) (hr : s.eng.store = .ready)
    (hp : appendPasses s h lines) (hroom : noRoomFor s lines.length) (hO : tableOrdered s) :
    (∀ n, s.sm.exhausted = false → 2 ≤ freeCount s → leastWorn s n → lineAt s ⟨n, 1⟩ = .erased →
      exec .arbiterGrant s = .next (opensFor (closeOpen (grantedWith s h (freshCtx h))) (freshCtx h) n))
    ∧ (s.sm.exhausted = false → freeCount s < 2 → spaceCanBeGained s → exec .arbiterGrant s =
      .next (grantedWith s h { freshCtx h with stage := .waitSpace false }))
    ∧ (s.sm.exhausted = false → freeCount s < 2 → ¬ spaceCanBeGained s → exec .arbiterGrant s =
      .next (answeredAtGrant s h ⟨.storeFull, 0, 0, 0, false, false, false⟩))
    ∧ (s.sm.exhausted = true → exec .arbiterGrant s =
      .next (answeredAtGrant (teardown (enteringReadOnly s) false) h ⟨.readOnly, 0, 0, 0, false, false, false⟩)) := by
  have hi : (grantedWith s h (freshCtx h)).inflight = some (freshCtx h) := rfl
  have hadmit := grant_admission ha hr hp
  have hroom' : noRoomFor (grantedWith s h (freshCtx h)) (appendExtent (grantedWith s h (freshCtx h)) (freshCtx h).cmd) := by
    rw [appendExtent_eq (c := freshCtx h) hp.2.2]
    exact hroom
  refine ⟨fun n hx hf hn he => ?_, fun hx hf hg => ?_, fun hx hf hg => ?_, fun hx => ?_⟩
  · rw [hadmit, admitCommand_opens hi hO hroom' hx hf hn ha.1.notHalting]
    obtain ⟨T, hT⟩ := closeOpen_table (grantedWith s h (freshCtx h))
    rw [hT]
    exact congrArg Host.Outcome.next (settle_erased rfl he)
  · rw [hadmit, admitCommand_waits hi hroom' hx hf, waitOrFull, if_pos ((canGain_iff (grantedWith s h (freshCtx h))).2 hg)]
    refine congrArg Host.Outcome.next ((settle_idle ?_).trans ?_)
    · exact ha.1.seqr_none
    simp only [setStage, modCtx, grantedWith, Option.map_some, ha.1.holder_none]
  · rw [hadmit, admitCommand_waits hi hroom' hx hf, waitOrFull,
      if_neg (fun hc => hg ((canGain_iff (grantedWith s h (freshCtx h))).1 hc)), completeFail_granted,
      complete_granted _ rfl rfl rfl rfl ha.1.holder_none]
    exact congrArg Host.Outcome.next (settle_idle ha.1.seqr_none)
  · refine grant_exhausted ha hr ((run_of_checksPass hp.2.1).trans ?_)
    rw [checkThenAppend_counting (s := grantedWith s h (freshCtx h)) hp.1]
    exact admitCommand_exhausted hi hroom' hx

/-- The opening line is programmed: the segment is OPEN, and the record of the command is placed at its line 2 (R93). -/
theorem opening_places {s : State} {c : Ctx} {o : Opening} {e : SegEntry} {content : LineBits} {lines : List LineBits}
    (hp : programmingFor s c c.origin ⟨o.seg, 1⟩ content) (hst : c.stage = .admission o) (he : segEntry s o.seg = some e)
    (hprep : o.prep = none) (hs : c.seq = none) (hl : c.lines = []) (happ : appends s c.origin c.cmd lines)
    (herased : lineAt s ⟨o.seg, 2⟩ = .erased) : ∃ u, exec .programDone s = .next u
      ∧ segEntry u o.seg = some { e with st := .opened ⟨o.epoch, 2, 0, 0, 0⟩ }
      ∧ u.inflight = some { c with stage := .header, seq := some s.eng.seqCtr, lines := lines, place := ⟨o.seg, 2⟩ }
      ∧ u.eng = { s.eng with seqCtr := s.eng.seqCtr + 1 } ∧ u.seqr = some (.program ⟨o.seg, 2⟩ (lines.getD 0 0))
      ∧ u.dir = s.dir ∧ u.host = s.host ∧ u.mgmt = s.mgmt := by
  have ho := programming_operating hp
  obtain ⟨-, -, hreq, hh, hi, -, -, hstop, hlost, -⟩ := hp
  have hentry := segEntry_segUpd (ended s ⟨o.seg, 1⟩ (.good content)) o.seg o.seg
    (fun e => { e with st := .opened ⟨o.epoch, 2, 0, 0, 0⟩ }) (fun _ => rfl)
  obtain ⟨a, ha⟩ := segUpd_changes (ended s ⟨o.seg, 1⟩ (.good content)) o.seg
    (fun e => { e with st := .opened ⟨o.epoch, 2, 0, 0, 0⟩ })
  have hreport : exec .programDone s = reported (assign (segUpd (ended s ⟨o.seg, 1⟩ (.good content)) o.seg
      (fun e => { e with st := .opened ⟨o.epoch, 2, 0, 0, 0⟩ })) ⟨o.seg, 2⟩) := by
    refine (operating_done ho).trans (congrArg reported ?_)
    refine (onReport_opening (s := ended s ⟨o.seg, 1⟩ (.good content)) _ _ hh hi hst).trans ?_
    simp only [openReport, hprep, openingNext, hstop, hlost, setSegState, ha, Bool.false_eq_true, if_false]
    exact if_neg (by simp [ended, hreq])
  have hne : (⟨o.seg, 2⟩ : Loc) ≠ ⟨o.seg, 1⟩ := by simp
  rw [ha] at hreport hentry
  refine ⟨_, hreport.trans ((congrArg reported (assign_fresh (c := c) (lines := lines) _ ?_ hs hl ?_ ?_)).trans
    (reported_erased ?_ rfl ?_)), hentry.trans ?_, rfl, rfl, rfl, rfl, rfl, rfl⟩
  · exact hi
  · exact hreq
  · exact buildRecord_appends happ
  · exact hreq
  · exact (lineAt_ended s ⟨o.seg, 1⟩ ⟨o.seg, 2⟩ _ hne).trans herased
  · have hsame : segEntry (ended s ⟨o.seg, 1⟩ (.good content)) o.seg = some e := he
    rw [hsame, Option.map_some, if_pos (segEntry_num he)]

/-- The segment of an opening that failed twice is prepared: it is FREE and the command ends (R33, R120). -/
theorem opening_fails {s : State} {c : Ctx} {o : Opening} {e : SegEntry} {content : LineBits} {y : Nat}
    (hp : programmingFor s c c.origin ⟨o.seg, 0⟩ content) (hst : c.stage = .admission o) (he : segEntry s o.seg = some e)
    (hprep : o.prep = some .spare) (hfail : o.failed = some y) : ∃ u, exec .programDone s = .next u
      ∧ segEntry u o.seg = some { e with st := .free, known := true } ∧ commandOver u
      ∧ handedTo s u c ⟨.mediaFault, 0, c.seq.getD 0, 0, false, false, c.retried || c.cmd == .batchCommit⟩ c.job.out
      ∧ u.dir = s.dir ∧ u.freezes = s.freezes ∧ u.commits = s.commits := by
  have ho := programming_operating hp
  obtain ⟨-, -, hreq, hh, hi, -, -, hstop, hlost, htear⟩ := hp
  have hentry := segEntry_segUpd (ended s ⟨o.seg, 0⟩ (.good content)) o.seg o.seg
    (fun e => { e with st := .free, known := true }) (fun _ => rfl)
  obtain ⟨a, ha⟩ := segUpd_changes (ended s ⟨o.seg, 0⟩ (.good content)) o.seg (fun e => { e with st := .free, known := true })
  have hreport : exec .programDone s = reported (completeFail (modCtx (segUpd (ended s ⟨o.seg, 0⟩ (.good content)) o.seg
      (fun e => { e with st := .free, known := true })) Ctx.openFailed) .mediaFault) := by
    refine (operating_done ho).trans (congrArg reported ?_)
    refine (onReport_opening (s := ended s ⟨o.seg, 0⟩ (.good content)) _ _ hh hi hst).trans ?_
    simp only [openReport, hprep, prepReport, segmentPrepared, hfail, Option.isSome_some, if_true, openingNext, hstop, hlost, ha,
      Bool.false_eq_true, if_false]
    exact if_neg (by simp [ended, hreq])
  rw [ha] at hreport hentry
  have hctx : (ended s ⟨o.seg, 0⟩ (.good content)).inflight.map Ctx.openFailed = some c.openFailed := congrArg _ hi
  refine ⟨_, hreport.trans (reported_failed (c := c.openFailed) .mediaFault hctx htear ?_ ?_), hentry.trans ?_, ⟨rfl, ?_, rfl⟩, ?_,
    rfl, rfl, rfl⟩
  · exact hreq
  · rfl
  · have hsame : segEntry (ended s ⟨o.seg, 0⟩ (.good content)) o.seg = some e := he
    rw [hsame, Option.map_some, if_pos (segEntry_num he)]
  · exact if_pos hh
  · have hres : c.openFailed.failure .mediaFault =
        ⟨.mediaFault, 0, c.seq.getD 0, 0, false, false, c.retried || c.cmd == .batchCommit⟩ := by
      simp only [Ctx.failure, c.openFailed.endSeq_carried (st := .mediaFault) (fun h => nomatch h) (fun h => nomatch h)]
      rfl
    rw [← hres]
    exact handedTo_of (c := c) rfl rfl

theorem epoch_taken (w : Word) : ((if w = 0xFFFFFFFF#32 then w else w + 1), (if w = 0xFFFFFFFF#32 then true else false)) =
    if w = 0xFFFFFFFF then (w, true) else (w + 1, false) := by
  by_cases h : w = 0xFFFFFFFF#32
  · rw [if_pos h, if_pos h]
    exact (if_pos h).symm
  · rw [if_neg h, if_neg h]
    exact (if_neg h).symm

/-- Settles O50: admission at the grant without room, and the two ends of an opening that the command waits for. -/
theorem appendWithoutRoomOpensWaitsOrFails : Obligations.AppendWithoutRoomOpensWaitsOrFails := by
  refine ⟨fun s h lines ha hr hp hroom hO => ?_, fun s c o e k content hp hst he =>
    ⟨fun lines hk hprep hs hl happ herased => ?_, fun y hk hprep hfail => ?_⟩⟩
  · obtain ⟨opens, waits, full, exhausted⟩ := append_without_room ha hr hp hroom hO
    refine ⟨fun n hx hf hn he => ⟨_, opens n hx hf hn he, ?_⟩, waits, full, exhausted⟩
    obtain ⟨T, hT⟩ := closeOpen_table (grantedWith s h (freshCtx h))
    have hstands : ∀ m j, openSegment s = some (m, j) → j.wp ≤ 256 →
        standsAs (closeOpen (grantedWith s h (freshCtx h))) m (.closed { j with dead := j.dead + (256 - j.wp), wp := 256 }) :=
      fun m j ho hj => standsAs_closeOpen (s := grantedWith s h (freshCtx h)) ho hj
    rw [hT] at hstands ⊢
    refine ⟨rfl, rfl, rfl, rfl, rfl, rfl, rfl, ?_, hstands⟩
    simp only [opensFor, grantedWith, hx]
    exact epoch_taken s.sm.nextEpoch
  · subst hk
    exact opening_places hp hst he hprep hs hl happ herased
  · subst hk
    exact opening_fails hp hst he hprep hfail

end Sys2Proof.Machine
end

