-- ==== Sys2Proof/Proofs/IdleTimer.lean ====
section
/-! The teardown of a batch (R123) and the expiry of its idle timer (R114). -/

namespace Sys2Proof.Machine

/-! ### The teardown -/

/-- The directory without its pending parts. -/
def withoutPending (d : List DirEntry) : List DirEntry :=
  (d.filter (fun e => e.committed.isSome)).map (fun e : DirEntry => { e with pending := none })

theorem dirPrune_dropped (d : List DirEntry) :
    dirPrune (d.map (fun e : DirEntry => { e with pending := none })) = withoutPending d := by
  simp only [dirPrune, withoutPending, List.filter_map]
  congr 1
  exact List.filter_congr fun e _ => by simp

/-- Dead lines are counted in the table alone. -/
theorem killParts_table (l : List Part) : ∀ s : State, ∃ T, l.foldl killPart s = { s with sm := { s.sm with table := T } } := by
  induction l with
  | nil => exact fun s => ⟨s.sm.table, rfl⟩
  | cons p l ih =>
    intro s
    obtain ⟨T, hT⟩ := ih (killPart s p)
    have hk : killPart s p = entryChanged s p.loc.seg _ := journalUpd_eq s p.loc.seg _
    rw [List.foldl_cons, hT, hk]
    exact ⟨T, rfl⟩

/-- The flags after the teardown: BATCHLOST is raised unless its owner asked for it or is the management port. -/
def lostFlags (s : State) (b : Batch) (own : Bool) : Byte :=
  if b.owner = .host ∧ own = false then s.alert.flags ||| 0x10 else s.alert.flags

theorem pins_cleared (t : List SegEntry) : ∀ e ∈ t.map (fun e : SegEntry =>
    { e with st := e.st.mapJournal (fun j => { j with pins := 0 }) }), ∀ j, e.st.journal? = some j → j.pins = 0 := by
  intro e he j hj
  obtain ⟨x, -, rfl⟩ := List.mem_map.1 he
  rw [SegState.journal_mapJournal] at hj
  obtain ⟨i, -, rfl⟩ := Option.map_eq_some_iff.1 hj
  rfl

/-- What the teardown of an open batch leaves. -/
theorem teardown_eq {s : State} {b : Batch} (hb : s.batch = some b) (own : Bool) : ∃ T, teardown s own = { s with
      sm := { s.sm with table := T }, dir := withoutPending s.dir, batch := none
      alert := { s.alert with flags := lostFlags s b own } }
    ∧ ∀ e ∈ T, ∀ j, e.st.journal? = some j → j.pins = 0 := by
  obtain ⟨T, hT⟩ := killParts_table (s.dir.filterMap DirEntry.pending) s
  refine ⟨_, ?_, pins_cleared T⟩
  simp only [teardown, hb, dropPending, hT, clearPins, dirPrune_dropped, lostFlags]
  cases own with
  | true => simp
  | false => by_cases ho : b.owner = .host <;> simp [ho, raise, Alert.mask]

/-! ### The idle timer -/

theorem exec_batchIdleExpiry {s : State} (h : s.pins.resetLow = false) :
    exec .batchIdleExpiry s = .next (batchIdleExpires s) := ifHigh_of_resetHigh h rfl

/-- Settles O56: the expiry is a teardown, and the law of the timer is one of those that every event keeps. -/
theorem idleExpiryTearsTheBatchDown : Obligations.IdleExpiryTearsTheBatchDown := by
  refine ⟨fun s hr => ⟨fun b hb ht => ?_, fun b hb ht => ?_, fun hb => ?_⟩, fun s t =>
    step_keeps idleOk (fun _ _ h => h) fun _ _ _ h r => r.laws.idle h⟩
  · obtain ⟨T, hT, hpins⟩ := teardown_eq hb false
    have he : batchIdleExpires s = teardown s false := if_pos (by simp [idleRunning, hb, ht])
    refine ⟨_, (exec_batchIdleExpiry hr).trans (congrArg _ (he.trans hT)), rfl, rfl, hpins, ?_, rfl, rfl, rfl, rfl, rfl, rfl, rfl, rfl⟩
    simp [lostFlags]
  · rw [exec_batchIdleExpiry hr, batchIdleExpires, if_neg (by simp [idleRunning, hb, ht])]
  · rw [exec_batchIdleExpiry hr, batchIdleExpires, if_neg (by simp [idleRunning, hb])]

end Sys2Proof.Machine
end

