-- ==== Sys2Proof/Proofs/ReadBack.lean ====
section
/-! What the part writes it reads back (R11–R21): headers, the lines of a value, commit lines and the two marker lines. -/

namespace Sys2Proof.Machine

/-! ### Headers -/

theorem ofCode_code (k : Kind) : Kind.ofCode k.code = some k := by cases k <;> rfl

theorem len_of_kindAgrees {k : Kind} {key : Key} {len : Nat} (h : kindAgrees k key len = true) : len ≤ 240 := by
  cases k <;> simp [kindAgrees] at h <;> omega

theorem toNat_byteOf {n : Nat} (h : n ≤ 255) : (byteOf n).toNat = n := by
  simp only [byteOf, BitVec.toNat_ofNat]
  omega

theorem parseHeader_headerLine {h : Hdr} (ha : kindAgrees h.kind h.key h.len = true) :
    parseHeader (.good (headerLine h)) = some h := by
  have hlen : (byteOf h.len).toNat = h.len := toNat_byteOf ((len_of_kindAgrees ha).trans (by decide))
  let first := [h.kind.code] ++ be16 h.key ++ [byteOf h.len] ++ be32 h.seq ++ be32 h.bid ++ be16 h.vcrc
  have hb : lineBytes (headerLine h) = first ++ be16 (crc16 first) := lineBytes_sealed first rfl
  have hcheck : lineCheck (lineBytes (headerLine h)) = true := lineCheck_sealed first rfl
  have hkind : byteAt (first ++ be16 (crc16 first)) 0 = h.kind.code := rfl
  have hkey : word16At (first ++ be16 (crc16 first)) 1 = h.key := word16_be16 h.key
  have hl : byteAt (first ++ be16 (crc16 first)) 3 = byteOf h.len := rfl
  have hseq : word32At (first ++ be16 (crc16 first)) 4 = h.seq := word32_be32 h.seq
  have hbid : word32At (first ++ be16 (crc16 first)) 8 = h.bid := word32_be32 h.bid
  have hvcrc : word16At (first ++ be16 (crc16 first)) 12 = h.vcrc := word16_be16 h.vcrc
  rw [hb] at hcheck
  simp only [parseHeader, hcheck, hb, hkind, hkey, hl, hseq, hbid, hvcrc, hlen, ofCode_code, ha, Bool.and_self, if_true]

/-! ### The lines of a value -/

/-- The sixteen bytes of a chunk, padded with 00h (R14). -/
def padded (l : List Byte) : List Byte := l ++ List.replicate (16 - l.length) 0

theorem byteAt_padded (l : List Byte) (i : Nat) : byteAt (padded l) i = byteAt l i := by
  unfold byteAt padded
  by_cases h : i < l.length
  · rw [List.getD_append _ _ _ _ h]
  · rw [List.getD_append_right _ _ _ _ (Nat.not_lt.1 h), List.getD_eq_default l 0 (Nat.not_lt.1 h)]
    simp

theorem lineBytes_chunk {l : List Byte} (h : l.length ≤ 16) : lineBytes (packLine l) = padded l := by
  have hp : packLine l = packLine (padded l) := by
    unfold packLine
    simp only [byteAt_padded]
  rw [hp]
  exact lineBytes_packLine _ (by simp [padded]; omega)

/-- The chunks of a value, put together again (R14). -/
theorem take_chunks (n : Nat) : ∀ v : List Byte, v.length ≤ 16 * n →
    (((List.range n).map fun i => padded ((v.drop (16 * i)).take 16)).flatten).take v.length = v := by
  induction n with
  | zero =>
    intro v h
    have : v = [] := List.length_eq_zero_iff.1 (by omega)
    subst this
    rfl
  | succ n ih =>
    intro v h
    rw [List.range_succ_eq_map, List.map_cons, List.flatten_cons, List.map_map]
    have hrest : ((List.range n).map ((fun i => padded ((v.drop (16 * i)).take 16)) ∘ Nat.succ)) =
        (List.range n).map fun i => padded (((v.drop 16).drop (16 * i)).take 16) := by
      refine List.map_congr_left fun i _ => ?_
      simp only [Function.comp, List.drop_drop]
      congr 3
      omega
    rw [hrest, Nat.mul_zero, List.drop_zero]
    by_cases hv : v.length ≤ 16
    · rw [List.take_of_length_le hv, padded, List.append_assoc, List.take_left']
      rfl
    · have htake : (v.take 16).length = 16 := by simp; omega
      have hpad : padded (v.take 16) = v.take 16 := by simp [padded, htake]
      have hdrop : (v.drop 16).length = v.length - 16 := List.length_drop
      have hi := ih (v.drop 16) (by rw [hdrop]; omega)
      rw [hdrop] at hi
      rw [hpad, List.take_append, htake, hi, List.take_of_length_le (by omega), List.take_append_drop]

theorem length_dataLines (v : List Byte) : (dataLines v).length = dataLineCount v.length := by
  simp [dataLines]

theorem bytes_dataLines (v : List Byte) : ((dataLines v).map fun c => goodBytes (.good c)) =
    (List.range (dataLineCount v.length)).map fun i => padded ((v.drop (16 * i)).take 16) := by
  simp only [dataLines, List.map_map]
  refine List.map_congr_left fun i _ => ?_
  exact lineBytes_chunk (by simp)

/-- The lines of the record behind its header, as they are read. -/
theorem take_data (v : List Byte) (c : LineBits) :
    (((dataLines v ++ [c]).map Line.good).take (dataLineCount v.length)) = (dataLines v).map Line.good := by
  rw [List.map_append, List.take_append_of_le_length (by simp [length_dataLines]), List.take_of_length_le (by simp [length_dataLines])]

theorem valueOf_dataLines (h : Hdr) (v : List Byte) (c : LineBits) (hl : h.len = v.length) :
    valueOf h ((dataLines v ++ [c]).map Line.good) = v := by
  simp only [valueOf, hl, take_data, List.map_map]
  have := bytes_dataLines v
  simp only [Function.comp_def]
  rw [this]
  exact take_chunks _ v (by unfold dataLineCount; omega)

/-! ### Commit lines -/

theorem commitMatches_commitLine {h : Hdr} (hl : h.len ≤ 240) : commitMatches h (.good (commitLine h.seq (extentOf h.len))) = true := by
  have hext : (byteOf (extentOf h.len)).toNat = extentOf h.len := toNat_byteOf (by unfold extentOf dataLineCount; omega)
  let first := be32 commitMark ++ be32 h.seq ++ [byteOf (extentOf h.len)] ++ [0, 0, 0, 0, 0]
  have hb : lineBytes (commitLine h.seq (extentOf h.len)) = first ++ be16 (crc16 first) := lineBytes_sealed first rfl
  have hcheck : lineCheck (lineBytes (commitLine h.seq (extentOf h.len))) = true := lineCheck_sealed first rfl
  have hmark : word32At (first ++ be16 (crc16 first)) 0 = commitMark := word32_be32 commitMark
  have hseq : word32At (first ++ be16 (crc16 first)) 4 = h.seq := word32_be32 h.seq
  have he : byteAt (first ++ be16 (crc16 first)) 8 = byteOf (extentOf h.len) := rfl
  rw [hb] at hcheck
  simp only [commitMatches, hcheck, hb, hmark, hseq, he, hext, beq_self_eq_true, Bool.and_self]

theorem recordComplete_recordLines {h : Hdr} {v : List Byte} (hl : h.len = v.length) (hle : h.len ≤ 240) (hc : h.vcrc = crc16 v)
    (hw : contentWellFormed h.kind v = true) :
    recordComplete h ((dataLines v ++ [commitLine h.seq (extentOf v.length)]).map Line.good) = true := by
  have hgood : ((dataLines v).map Line.good).all isGood = true := by simp [isGood]
  have hcommit : ((dataLines v ++ [commitLine h.seq (extentOf v.length)]).map Line.good).getD (dataLineCount v.length) .torn =
      .good (commitLine h.seq (extentOf v.length)) := by
    rw [List.map_append, List.getD_append_right _ _ _ _ (by simp [length_dataLines])]
    simp [length_dataLines]
  have hmatch := commitMatches_commitLine hle
  rw [hl] at hmatch
  simp only [recordComplete, valueOf_dataLines h v _ hl, hl, take_data, hgood, hcommit, hmatch, hc, hw, List.length_map,
    length_dataLines, beq_self_eq_true, Bool.and_self]

/-! ### Marker lines -/

theorem classify0_prepLine {role : Byte} {vid : Word} {n : Nat} (hv : vid ≠ 0) (hn : n < 2 ^ 24) :
    classify0 (.good (prepLine role vid n)) =
      if role = roleSpare then .spare vid n else if role = roleRetired then .retired vid n else .torn := by
  let first := be32 formatMark ++ [role] ++ be32 vid ++ be24 n ++ [0, 0]
  have hb : lineBytes (prepLine role vid n) = first ++ be16 (crc16 first) := lineBytes_sealed first rfl
  have hcheck : lineCheck (lineBytes (prepLine role vid n)) = true := lineCheck_sealed first rfl
  have hmark : word32At (first ++ be16 (crc16 first)) 0 = formatMark := word32_be32 formatMark
  have hrole : byteAt (first ++ be16 (crc16 first)) 4 = role := rfl
  have hvid : word32At (first ++ be16 (crc16 first)) 5 = vid := word32_be32 vid
  have hcount : word24At (first ++ be16 (crc16 first)) 9 = n := word24_be24 n hn
  have hzero : (vid == 0) = false := by simpa using hv
  rw [hb] at hcheck
  simp only [classify0, hb, hcheck, hmark, hrole, hvid, hcount, hzero, ne_eq, not_true_eq_false, if_false, Bool.not_true,
    Bool.or_self, Bool.false_eq_true]

theorem classify1_openLine {epoch vid : Word} (he : epoch ≠ 0) :
    classify1 (.good (openLine epoch vid)) = .opened epoch vid := by
  let first := be32 openMark ++ be32 epoch ++ be32 vid ++ [0, 0]
  have hb : lineBytes (openLine epoch vid) = first ++ be16 (crc16 first) := lineBytes_sealed first rfl
  have hcheck : lineCheck (lineBytes (openLine epoch vid)) = true := lineCheck_sealed first rfl
  have hmark : word32At (first ++ be16 (crc16 first)) 0 = openMark := word32_be32 openMark
  have hepoch : word32At (first ++ be16 (crc16 first)) 4 = epoch := word32_be32 epoch
  have hvid : word32At (first ++ be16 (crc16 first)) 8 = vid := word32_be32 vid
  have hzero : (epoch == 0) = false := by simpa using he
  rw [hb] at hcheck
  simp only [classify1, hb, hcheck, hmark, hepoch, hvid, hzero, ne_eq, not_true_eq_false, decide_false, Bool.not_true,
    Bool.or_self, Bool.false_eq_true, if_false]

/-- Settles O59: each line holds the bytes it was built from, so every field reads as it was written. -/
theorem writtenLinesReadBack : Obligations.WrittenLinesReadBack := by
  refine ⟨fun h ha => parseHeader_headerLine ha, fun kind key seq bid v ha hw => ?_, fun vid n hv hn => ⟨?_, ?_⟩,
    fun epoch vid he => classify1_openLine he⟩
  · have hle := len_of_kindAgrees ha
    refine ⟨_, _, rfl, ?_, parseHeader_headerLine ha, ?_, ?_⟩
    · simp only [List.length_append, length_dataLines, List.length_singleton, dataLineCount]
      omega
    · exact recordComplete_recordLines (h := ⟨kind, key, v.length, seq, bid, crc16 v⟩) rfl hle rfl hw
    · exact valueOf_dataLines _ v _ rfl
  · exact (classify0_prepLine hv hn).trans (if_pos rfl)
  · exact (classify0_prepLine hv hn).trans ((if_neg (by decide)).trans (if_pos rfl))

end Sys2Proof.Machine
end

