-- ==== Sys2Proof/Proofs/Publishing.lean ====
section
/-! The publishing of a record at its commit line (R51–R53, R63, R100, R102, R119). -/

namespace Sys2Proof.Machine

/-! ### Changes of the journals -/

/-- `s` with another segment table. -/
def withTable (s : State) (T : List SegEntry) : State := { s with sm := { s.sm with table := T } }

/-- `t` is `s` with the journal of each segment `n` changed by `g n`. -/
def JournalsChanged (s t : State) (g : Nat → Journal → Journal) : Prop :=
  (∃ T, t = withTable s T) ∧ ∀ n, journalOf t n = (journalOf s n).map (g n)

theorem JournalsChanged.refl (s : State) : JournalsChanged s s (fun _ j => j) :=
  ⟨⟨s.sm.table, rfl⟩, fun n => by simp⟩

theorem JournalsChanged.trans {s t u : State} {g h : Nat → Journal → Journal} (k : JournalsChanged s t g)
    (l : JournalsChanged t u h) : JournalsChanged s u (fun n j => h n (g n j)) := by
  obtain ⟨⟨T, rfl⟩, ht⟩ := k
  obtain ⟨⟨U, rfl⟩, hu⟩ := l
  refine ⟨⟨U, rfl⟩, fun n => ?_⟩
  rw [hu, ht, Option.map_map]
  rfl

theorem journalUpd_journals (s : State) (m : Nat) (f : Journal → Journal) :
    JournalsChanged s (journalUpd s m f) (fun n j => if n = m then f j else j) :=
  ⟨⟨_, journalUpd_eq s m f⟩, fun n => journalOf_journalUpd s m n f⟩

theorem clearPins_journals (s : State) : JournalsChanged s (clearPins s) (fun _ j => { j with pins := 0 }) := by
  refine ⟨⟨_, rfl⟩, fun n => ?_⟩
  unfold journalOf segEntry clearPins
  rw [List.find?_map]
  simp only [Function.comp_def, Option.bind_map]
  cases s.sm.table.find? fun e => e.num == n with
  | none => rfl
  | some e => exact SegState.journal_mapJournal e.st _

/-! ### The end of a commit line -/

/-- The record of the command is published and the command completes OK (R39, R95, R103). -/
theorem commit_reported {s u : State} {c : Ctx} {l : Loc} {content : LineBits} {r : Result}
    (hp : programmingFor s c c.origin l content) (hst : c.stage = .commit)
    (hu : publish (ended s l (.good content)) c = u) (hr : publishedResult (ended s l (.good content)) c = r)
    (hi : u.inflight = some c) (hq : u.seqr = none) (heng : u.eng = s.eng) :
    exec .programDone s = .next (syncIdle (answeredCmd u c r)) := by
  have ho := programming_operating hp
  obtain ⟨-, -, hreq, hh, hc, -, -, hstop, hlost, htear⟩ := hp
  have hdone : onReport (ended s l (.good content)) l .programDone = syncIdle (answeredCmd u c r) := by
    refine (onReport_done (s := ended s l (.good content)) l hh hc (.inr (.inr hst))).trans ?_
    simp only [appendDone, hstop, hlost, hst, Bool.false_eq_true, if_false, if_true, hu, hr]
    exact complete_ports r hi htear
  rw [operating_done ho, hdone]
  refine reported_idle ?_ hq
  exact (congrArg Engine.haltReq heng).trans hreq

/-! ### Lines that are gained and lost -/

/-- A journal that a record of `e` lines has joined. -/
def grown (e : Nat) (j : Journal) : Journal := { j with wp := j.wp + e, live := j.live + e }

/-- A journal in which `k` lines count dead, up to its live lines. -/
def withDead (k : Nat) (j : Journal) : Journal := { j with live := j.live - min k j.live, dead := j.dead + min k j.live }

/-- The lines of a part in segment `n`. -/
def partLines (old : Option Part) (n : Nat) : Nat :=
  match old with
  | some o => if o.loc.seg = n then 2 + (o.len + 15) / 16 else 0
  | none => 0

theorem grown_zero (j : Journal) : grown 0 j = j := rfl

theorem withDead_zero (j : Journal) : withDead 0 j = j := by simp [withDead]

theorem withDead_withDead (a b : Nat) (j : Journal) : withDead b (withDead a j) = withDead (a + b) j := by
  simp only [withDead, Journal.mk.injEq, true_and, and_true]
  omega

theorem accountLive_journals (s : State) (m e : Nat) :
    JournalsChanged s (accountLive s m e) (fun n => grown (if n = m then e else 0)) := by
  obtain ⟨hT, hj⟩ := journalUpd_journals s m (grown e)
  refine ⟨hT, fun n => (hj n).trans (congrArg (Option.map · (journalOf s n)) (funext fun j => ?_))⟩
  show (if n = m then grown e j else j) = grown (if n = m then e else 0) j
  split <;> rfl

theorem killPart?_journals (s : State) (old : Option Part) :
    JournalsChanged s (killPart? s old) (fun n => withDead (partLines old n)) := by
  cases old with
  | none =>
    refine ⟨⟨s.sm.table, rfl⟩, fun n => ?_⟩
    simp only [killPart?, partLines, funext withDead_zero]
    exact Option.map_id'.symm
  | some o =>
    obtain ⟨hT, hj⟩ := journalUpd_journals s o.loc.seg (withDead (extentOf o.len))
    refine ⟨hT, fun n => (hj n).trans (congrArg (Option.map · (journalOf s n)) (funext fun j => ?_))⟩
    by_cases hn : n = o.loc.seg
    · simp only [hn, partLines, if_true]
      rfl
    · simp only [partLines, hn, Ne.symm hn, if_false, withDead_zero]

theorem pinUp_journals (s : State) (m : Nat) :
    JournalsChanged s (pinUp s m) (fun n j => if n = m then { j with pins := j.pins + 1 } else j) :=
  journalUpd_journals s m _

/-! ### A plain record, a member and a range (R51, R52, R63) -/

/-- The result of a published PUT, DELETE or FREEZE. -/
def publishedOk (c : Ctx) (len : Nat) : Result := ⟨.ok, len, c.seq.getD 0, 0, false, false, c.retried⟩

/-- A PUT or DELETE of key `k`, a TOMBSTONE or a value of `len` bytes, of a batch or not. -/
def writes (c : Ctx) (k : Key) (tomb : Bool) (len : Nat) (member : Bool) : Prop :=
  (tomb = false ∧ ∃ buf, c.cmd = .put k len buf member) ∨ (tomb = true ∧ len = 0 ∧ c.cmd = .delete k member)

theorem publishedResult_writes {c : Ctx} {k : Key} {tomb : Bool} {len : Nat} {member : Bool} (h : writes c k tomb len member)
    (s : State) : publishedResult s c = publishedOk c len := by
  rcases h with ⟨-, buf, h⟩ | ⟨-, rfl, h⟩ <;> simp only [publishedResult, h, publishedOk]

theorem publish_plain {c : Ctx} {k : Key} {tomb : Bool} {len : Nat} (h : writes c k tomb len false) (s : State) :
    publish s c = publishCommitted s k (c.part tomb len) := by
  rcases h with ⟨rfl, buf, h⟩ | ⟨rfl, rfl, h⟩ <;> simp only [publish, h, Bool.false_eq_true, if_false]

theorem publish_member {c : Ctx} {k : Key} {tomb : Bool} {len : Nat} (h : writes c k tomb len true) (s : State) :
    publish s c = publishPending s k (c.part tomb len) := by
  rcases h with ⟨rfl, buf, h⟩ | ⟨rfl, rfl, h⟩ <;> simp only [publish, h, if_true]

/-- What is handed over with a published record, and what is left of the command. -/
theorem handed_published {s u : State} {c : Ctx} {r : Result} (hh : u.host = s.host) (hm : u.mgmt = s.mgmt) :
    handedTo s (syncIdle (answeredCmd u c r)) c r c.job.out :=
  handedTo_of (congrArg (hostHanded · c r) hh) (congrArg (mgmtHanded · c r) hm)

theorem over_published {u : State} {c : Ctx} {r : Result} (hh : u.holder = .command) (hq : u.seqr = none) :
    commandOver (syncIdle (answeredCmd u c r)) := ⟨rfl, if_pos hh, hq⟩

theorem committedOf_bind (s : State) (k : Key) : committedOf s k = (dirLookup s.dir k).bind DirEntry.committed := by
  unfold committedOf
  cases dirLookup s.dir k <;> rfl

/-- The commit line of a plain record (R51, R100). -/
theorem plain_publishes {s : State} {c : Ctx} {l : Loc} {content : LineBits} {k : Key} {tomb : Bool} {len : Nat}
    (hp : programmingFor s c c.origin l content) (hd : DirOk s.dir) (hst : c.stage = .commit) (hw : writes c k tomb len false) :
    ∃ u, exec .programDone s = .next u
      ∧ committedOf u k = some ⟨tomb, c.place, len, c.seq.getD 0, false⟩
      ∧ (∀ x, x ≠ k → dirLookup u.dir x = dirLookup s.dir x)
      ∧ handedTo s u c (publishedOk c len) c.job.out ∧ commandOver u
      ∧ u.freezes = s.freezes ∧ u.commits = s.commits ∧ u.eng = s.eng
      ∧ ∀ n j, journalOf s n = some j → journalOf u n =
        some (withDead (partLines (committedOf s k) n) (grown (if n = c.place.seg then extentOf len else 0) j)) := by
  obtain ⟨⟨T, hT⟩, hj⟩ := (accountLive_journals (ended s l (.good content)) c.place.seg (extentOf len)).trans
    (killPart?_journals _ (committedOf s k))
  have hpub : publish (ended s l (.good content)) c = { withTable (ended s l (.good content)) T with
      dir := dirPut k (fun e => { e with committed := some (c.part tomb len) }) s.dir } := by
    rw [publish_plain hw, ← hT, committedOf_bind]
    rfl
  rw [hT] at hj
  obtain ⟨hput, hother⟩ := dirLookup_put k (fun e => { e with committed := some (c.part tomb len) }) s.dir hd.1 (fun _ => rfl)
  refine ⟨_, commit_reported hp hst hpub (publishedResult_writes hw _) hp.inflight_eq rfl rfl, ?_, hother,
    handed_published rfl rfl, over_published (programming_operating hp).holder_eq rfl, rfl, rfl, rfl, fun n j hn => ?_⟩
  · exact (committedOf_bind _ k).trans (congrArg (Option.bind · DirEntry.committed) hput)
  · exact (hj n).trans (congrArg (Option.map _) hn)

/-- The commit line of a member record (R52, R102). -/
theorem member_publishes {s : State} {c : Ctx} {l : Loc} {content : LineBits} {k : Key} {tomb : Bool} {len : Nat} {b : Batch}
    (hp : programmingFor s c c.origin l content) (hd : DirOk s.dir) (hst : c.stage = .commit) (hw : writes c k tomb len true)
    (hb : s.batch = some b) : ∃ u timer, exec .programDone s = .next u
      ∧ dirLookup u.dir k = some ⟨k, committedOf s k, some ⟨tomb, c.place, len, c.seq.getD 0, false⟩⟩
      ∧ (∀ x, x ≠ k → dirLookup u.dir x = dirLookup s.dir x)
      ∧ u.batch = some ⟨b.owner, b.bid, b.members ++ [⟨k, c.place, tomb⟩], timer⟩
      ∧ handedTo s u c (publishedOk c len) c.job.out
      ∧ commandOver u ∧ u.freezes = s.freezes ∧ u.commits = s.commits
      ∧ ∀ n j, journalOf s n = some j → journalOf u n = some (if n = c.place.seg
        then { j with wp := j.wp + extentOf len, live := j.live + extentOf len, pins := j.pins + 1 } else j) := by
  obtain ⟨⟨T, hT⟩, hj⟩ := (accountLive_journals (ended s l (.good content)) c.place.seg (extentOf len)).trans
    (pinUp_journals _ c.place.seg)
  have hpub : publish (ended s l (.good content)) c = { withTable (ended s l (.good content)) T with
      dir := dirPut k (fun e => { e with pending := some (c.part tomb len) }) s.dir
      batch := some { b with members := b.members ++ [⟨k, c.place, tomb⟩] } } := by
    rw [publish_member hw, ← hT]
    have hb' : (ended s l (.good content)).batch = some b := hb
    simp only [publishPending, hb', Option.map_some]
    rfl
  rw [hT] at hj
  obtain ⟨hput, hother⟩ := dirLookup_put k (fun e => { e with pending := some (c.part tomb len) }) s.dir hd.1 (fun _ => rfl)
  refine ⟨_, _, commit_reported hp hst hpub (publishedResult_writes hw _) hp.inflight_eq rfl rfl, hput.trans ?_, hother, rfl,
    handed_published rfl rfl, over_published (programming_operating hp).holder_eq rfl, rfl, rfl, fun n j hn => ?_⟩
  · cases hk : dirLookup s.dir k with
    | none =>
      rw [committedOf_bind, hk]
      rfl
    | some e =>
      rw [committedOf_bind, hk, ← (dirLookup_mem hk).2]
      rfl
  · refine (hj n).trans ((congrArg (Option.map _) hn).trans ?_)
    by_cases hs : n = c.place.seg
    · simp [hs, grown]
    · simp [hs, grown]

/-- The commit line of a FREEZE record (R63). -/
theorem freeze_publishes {s : State} {c : Ctx} {l : Loc} {content : LineBits} {lo hi : Key}
    (hp : programmingFor s c c.origin l content) (hf : FreezeOk s.freezes) (hst : c.stage = .commit) (hc : c.cmd = .freeze lo hi) :
    ∃ u, exec .programDone s = .next u
      ∧ (∀ x, x ∈ u.freezes ↔ x = ⟨lo, hi, c.place⟩ ∨ (x ∈ s.freezes ∧ ¬ (x.lo = lo ∧ x.hi = hi)))
      ∧ handedTo s u c (publishedOk c 0) c.job.out ∧ commandOver u ∧ u.dir = s.dir ∧ u.commits = s.commits
      ∧ ∀ n j, journalOf s n = some j → journalOf u n = some (if n = c.place.seg
        then { j with wp := j.wp + c.lines.length, live := j.live + c.lines.length } else j) := by
  obtain ⟨⟨T, hT⟩, hj⟩ := accountLive_journals (ended s l (.good content)) c.place.seg c.lines.length
  have hpub : publish (ended s l (.good content)) c = { withTable (ended s l (.good content)) T with
      freezes := freezeInsert ⟨lo, hi, c.place⟩ s.freezes } := by
    simp only [publish, hc, hT]
    rfl
  have hres : publishedResult (ended s l (.good content)) c = publishedOk c 0 := by
    simp only [publishedResult, hc, publishedOk]
  rw [hT] at hj
  refine ⟨_, commit_reported hp hst hpub hres hp.inflight_eq rfl rfl, fun x => mem_freezeInsert x _ _ hf,
    handed_published rfl rfl, over_published (programming_operating hp).holder_eq rfl, rfl, rfl, fun n j hn => ?_⟩
  refine (hj n).trans ((congrArg (Option.map _) hn).trans ?_)
  by_cases hs : n = c.place.seg
  · simp [hs, grown]
  · simp [hs, grown]

/-! ### Promotion (R53, R119) -/

theorem promoteKey_free {s : State} {k : Key} (h : ¬ heldKey s k) : promoteKey s k = s := by
  unfold promoteKey
  cases hk : dirLookup s.dir k with
  | none => rfl
  | some e =>
    cases hp : e.pending with
    | none => simp only [hp]
    | some p => exact absurd ⟨e, p, hk, hp⟩ h

theorem promoteKey_held {s : State} {k : Key} {e : DirEntry} {p : Part} (hk : dirLookup s.dir k = some e) (hp : e.pending = some p) :
    promoteKey s k = { killPart? s e.committed with
      dir := dirMap k (fun x : DirEntry => { x with committed := some (promotedPart s x.committed p), pending := none }) s.dir } := by
  simp only [promoteKey, hk, hp]

/-- The order of records is read off the epochs alone (R22). -/
theorem locAfter_journals {s t : State} {g : Nat → Journal → Journal} (h : ∀ n, journalOf t n = (journalOf s n).map (g n))
    (he : ∀ n j, (g n j).epoch = j.epoch) (a b : Loc) : locAfter t a b = locAfter s a b := by
  unfold locAfter
  rw [h, h]
  cases journalOf s a.seg with
  | none => rfl
  | some i =>
    cases journalOf s b.seg with
    | none => rfl
    | some j => simp only [Option.map_some, he]

theorem locAfter_iff (s : State) (a b : Loc) : locAfter s a b = true ↔ liesAfter s a b := by
  unfold locAfter liesAfter
  by_cases h : a.seg = b.seg
  · simp [h]
  · cases ha : journalOf s a.seg with
    | none => simp [h]
    | some i =>
      cases hb : journalOf s b.seg with
      | none => simp [h]
      | some j => simp [h]

theorem promotedPart_congr {s t : State} (h : ∀ a b, locAfter t a b = locAfter s a b) (old : Option Part) (p : Part) :
    promotedPart t old p = promotedPart s old p := by
  cases old <;> simp [promotedPart, h]

/-- The lines that the promotion of a key supersedes in segment `n`. -/
def heldLines (s : State) (k : Key) (n : Nat) : Nat :=
  match dirLookup s.dir k with
  | some e => if e.pending ≠ none then partLines e.committed n else 0
  | none => 0

/-- What one entry adds to the superseded lines of the members `ms`. -/
def memberLines (ms : List Member) (n : Nat) (e : DirEntry) : Nat :=
  if e.key ∈ ms.map Member.key ∧ e.pending ≠ none then partLines e.committed n else 0

theorem supersededLines_eq (s : State) (ms : List Member) (n : Nat) :
    supersededLines s ms n = (s.dir.map (memberLines ms n)).sum := rfl

theorem heldLines_held {s : State} {k : Key} {e : DirEntry} {p : Part} (hk : dirLookup s.dir k = some e) (hp : e.pending = some p)
    (n : Nat) : heldLines s k n = partLines e.committed n := by
  simp [heldLines, hk, hp]

theorem heldLines_free {s : State} {k : Key} (h : ¬ heldKey s k) (n : Nat) : heldLines s k n = 0 := by
  unfold heldLines
  cases hk : dirLookup s.dir k with
  | none => rfl
  | some e =>
    cases hp : e.pending with
    | none => simp only [hp, ne_eq, not_true_eq_false, if_false]
    | some p => exact absurd ⟨e, p, hk, hp⟩ h

/-- A sum over a directory, with the entry of one key taken out. -/
theorem sum_without_key {d : List DirEntry} {k : Key} {e : DirEntry} (f : DirEntry → Nat) (hd : d.Pairwise (fun a b => a.key < b.key))
    (he : dirLookup d k = some e) : (d.map f).sum = f e + (d.map (fun x => if x.key = k then 0 else f x)).sum := by
  induction d with
  | nil => cases he
  | cons a d ih =>
    obtain ⟨ha, hd⟩ := List.pairwise_cons.1 hd
    by_cases hak : a.key = k
    · have hae : a = e := by
        unfold dirLookup at he
        rw [List.find?_cons_of_pos (by simpa using hak)] at he
        exact Option.some.inj he
      have hrest : d.map (fun x => if x.key = k then 0 else f x) = d.map f := by
        refine List.map_congr_left fun x hx => if_neg fun hxk => ?_
        have := ha x hx
        rw [hak, hxk] at this
        exact absurd this (by simp)
      rw [List.map_cons, List.sum_cons, List.map_cons, List.sum_cons, hrest, if_pos hak, hae, Nat.zero_add]
    · have he' : dirLookup d k = some e := by
        unfold dirLookup at he ⊢
        rwa [List.find?_cons_of_neg (by simpa using hak)] at he
      simp only [List.map_cons, List.sum_cons, ih hd he', hak, if_false]
      omega

theorem heldKey_of_mem {s : State} (hd : DirOk s.dir) {x : DirEntry} {p : Part} (hx : x ∈ s.dir) (hp : x.pending = some p) :
    heldKey s x.key := ⟨x, p, dirLookup_of_mem hd.1 hx, hp⟩

/-- The promotion of the first member takes its lines out of what the others supersede. -/
theorem supersededLines_cons {s : State} (hd : DirOk s.dir) (m : Member) (ms : List Member) (n : Nat) :
    supersededLines s (m :: ms) n = heldLines s m.key n + supersededLines (promoteKey s m.key) ms n := by
  by_cases h : heldKey s m.key
  · obtain ⟨e, p, hk, hp⟩ := h
    obtain ⟨he, hek⟩ := dirLookup_mem hk
    have hfirst : memberLines (m :: ms) n e = heldLines s m.key n := by
      rw [heldLines_held hk hp, memberLines, if_pos ⟨by simp [hek], by simp [hp]⟩]
    have hothers : (promoteKey s m.key).dir.map (memberLines ms n) =
        s.dir.map (fun x => if x.key = m.key then 0 else memberLines (m :: ms) n x) := by
      rw [promoteKey_held hk hp]
      simp only [dirMap, List.map_map]
      refine List.map_congr_left fun x _ => ?_
      by_cases hx : x.key = m.key
      · simp [hx, memberLines]
      · simp [hx, memberLines]
    rw [supersededLines_eq, supersededLines_eq, hothers, ← hfirst]
    exact sum_without_key _ hd.1 hk
  · rw [heldLines_free h, promoteKey_free h, Nat.zero_add, supersededLines_eq, supersededLines_eq]
    refine congrArg List.sum (List.map_congr_left fun x hx => ?_)
    cases hp : x.pending with
    | none => simp [memberLines, hp]
    | some p =>
      have hne : x.key ≠ m.key := fun hxk => h (hxk ▸ heldKey_of_mem hd hx hp)
      simp [memberLines, hp, hne]

/-- What the promotion of one key does. -/
structure Promoted (s t : State) (k : Key) : Prop where
  shape : ∃ T D, t = { withTable s T with dir := D }
  journals : ∀ n, journalOf t n = (journalOf s n).map (withDead (heldLines s k n))
  held : ∀ e p, dirLookup s.dir k = some e → e.pending = some p →
    dirLookup t.dir k = some ⟨k, some (promotedPart s e.committed p), none⟩
  others : ∀ x, x ≠ k ∨ ¬ heldKey s x → dirLookup t.dir x = dirLookup s.dir x

theorem promoteKey_promotes (s : State) (k : Key) : Promoted s (promoteKey s k) k := by
  by_cases h : heldKey s k
  · obtain ⟨e, p, hk, hp⟩ := h
    have hkill := killPart?_journals s e.committed
    obtain ⟨⟨T, hT⟩, hj⟩ := hkill
    have hmap := fun x => dirLookup_map k x
      (fun x : DirEntry => { x with committed := some (promotedPart s x.committed p), pending := none }) s.dir (fun _ => rfl)
    rw [promoteKey_held hk hp]
    refine ⟨⟨T, _, by rw [hT]⟩, fun n => ?_, fun e' p' hk' hp' => ?_, fun x hx => ?_⟩
    · rw [heldLines_held hk hp]
      exact hj n
    · rw [hk] at hk'
      cases hk'
      rw [hp] at hp'
      cases hp'
      refine (hmap k).trans ?_
      rw [hk, Option.map_some, if_pos rfl, (dirLookup_mem hk).2]
    · refine (hmap x).trans ?_
      have hne : x ≠ k := by
        rcases hx with hx | hx
        · exact hx
        · rintro rfl
          exact hx ⟨e, p, hk, hp⟩
      simp only [hne, if_false]
      exact Option.map_id'
  · rw [promoteKey_free h]
    refine ⟨⟨s.sm.table, s.dir, rfl⟩, fun n => ?_, fun e p hk hp => absurd ⟨e, p, hk, hp⟩ h, fun _ _ => rfl⟩
    rw [heldLines_free h, funext withDead_zero]
    exact Option.map_id'.symm

/-- What the promotion of a member list does. -/
structure AllPromoted (s t : State) (ms : List Member) : Prop where
  shape : ∃ T D, t = { withTable s T with dir := D }
  journals : ∀ n, journalOf t n = (journalOf s n).map (withDead (supersededLines s ms n))
  held : ∀ k e p, dirLookup s.dir k = some e → e.pending = some p → k ∈ ms.map Member.key →
    dirLookup t.dir k = some ⟨k, some (promotedPart s e.committed p), none⟩
  others : ∀ k, k ∉ ms.map Member.key ∨ ¬ heldKey s k → dirLookup t.dir k = dirLookup s.dir k

theorem promoteAll_promotes (ms : List Member) : ∀ s : State, DirOk s.dir → AllPromoted s (promoteAll s ms) ms := by
  induction ms with
  | nil =>
    intro s _
    refine ⟨⟨s.sm.table, s.dir, rfl⟩, fun n => ?_, fun k e p _ _ hk => absurd hk (by simp), fun _ _ => rfl⟩
    have hz : supersededLines s [] n = 0 := by
      rw [supersededLines_eq]
      exact List.sum_eq_zero_iff.2 fun x hx => by
        obtain ⟨e, -, rfl⟩ := List.mem_map.1 hx
        simp [memberLines]
    rw [hz, funext withDead_zero]
    exact Option.map_id'.symm
  | cons m ms ih =>
    intro s hd
    obtain ⟨⟨T, D, hs⟩, hj, hheld, hothers⟩ := promoteKey_promotes s m.key
    obtain ⟨⟨U, E, hu⟩, hj2, hheld2, hothers2⟩ := ih (promoteKey s m.key) ((order_promoteKey s m.key).1 hd)
    have hafter := locAfter_journals hj (fun _ _ => rfl)
    have hstep : promoteAll s (m :: ms) = promoteAll (promoteKey s m.key) ms := rfl
    rw [hstep]
    refine ⟨⟨U, E, by rw [hu, hs]; rfl⟩, fun n => ?_, fun k e p hk hp hmem => ?_, fun k hk => ?_⟩
    · rw [hj2, hj, Option.map_map, supersededLines_cons hd]
      exact congrArg (Option.map · (journalOf s n)) (funext fun j => withDead_withDead _ _ j)
    · by_cases hkm : k = m.key
      · subst hkm
        have hfirst := hheld e p hk hp
        rw [hothers2 m.key (.inr ?_), hfirst]
        rintro ⟨e', p', hk', hp'⟩
        rw [hfirst] at hk'
        cases hk'
        cases hp'
      · have hsame := hothers k (.inl hkm)
        have hrest : k ∈ ms.map Member.key := by
          rcases List.mem_cons.1 hmem with h | h
          · exact absurd h hkm
          · exact h
        rw [hheld2 k e p (hsame.trans hk) hp hrest, promotedPart_congr hafter]
    · have hfirst : k ≠ m.key ∨ ¬ heldKey s k := hk.imp_left fun h hkm => h (by simp [hkm])
      have hsame := hothers k hfirst
      refine (hothers2 k (hk.imp (fun h hmem => h (List.mem_cons_of_mem _ hmem)) fun h => ?_)).trans hsame
      rintro ⟨e, p, hk', hp'⟩
      exact h ⟨e, p, hsame ▸ hk', hp'⟩

/-- The commit line of a COMMIT record (R119). -/
theorem batch_publishes {s : State} {c : Ctx} {l : Loc} {content : LineBits} {b : Batch}
    (hp : programmingFor s c c.origin l content) (hd : DirOk s.dir) (hc : CommitOk s.commits) (hst : c.stage = .commit)
    (hcmd : c.cmd = .batchCommit) (hb : s.batch = some b) : ∃ u, exec .programDone s = .next u
      ∧ u.batch = none
      ∧ (∀ x, x ∈ u.commits ↔ x = ⟨b.bid, c.place⟩ ∨ (x ∈ s.commits ∧ x.bid ≠ b.bid))
      ∧ (∀ k e p, dirLookup s.dir k = some e → e.pending = some p → k ∈ b.members.map Member.key →
        dirLookup u.dir k = some ⟨k, some (promotedPart s e.committed p), none⟩)
      ∧ (∀ k, k ∉ b.members.map Member.key ∨ ¬ heldKey s k → dirLookup u.dir k = dirLookup s.dir k)
      ∧ handedTo s u c ⟨.ok, 0, c.seq.getD 0, b.members.length, false, false, c.retried⟩ c.job.out
      ∧ commandOver u ∧ u.freezes = s.freezes
      ∧ ∀ n j, journalOf s n = some j → journalOf u n = some { withDead (supersededLines s b.members n)
        (grown (if n = c.place.seg then c.lines.length else 0) j) with pins := 0 } := by
  have hlive := accountLive_journals (ended s l (.good content)) c.place.seg c.lines.length
  have hafter := locAfter_journals hlive.2 (fun _ _ => rfl)
  obtain ⟨⟨T, hT⟩, hj⟩ := hlive
  obtain ⟨⟨U, D, hU⟩, hj2, hheld, hothers⟩ := promoteAll_promotes b.members
    (accountLive (ended s l (.good content)) c.place.seg c.lines.length) (by rw [hT]; exact hd)
  have hpins := clearPins_journals (promoteAll (accountLive (ended s l (.good content)) c.place.seg c.lines.length) b.members)
  obtain ⟨⟨V, hV⟩, hj3⟩ := hpins
  have hpub : publish (ended s l (.good content)) c = { withTable (ended s l (.good content)) V with
      dir := D, commits := commitInsert ⟨b.bid, c.place⟩ s.commits, batch := none } := by
    have hb' : (ended s l (.good content)).batch = some b := hb
    simp only [publish, hcmd, commitBatch, hb', hV]
    rw [hU, hT]
    rfl
  have hres : publishedResult (ended s l (.good content)) c = ⟨.ok, 0, c.seq.getD 0, b.members.length, false, false, c.retried⟩ := by
    have hb' : (ended s l (.good content)).batch = some b := hb
    simp [publishedResult, hcmd, memberKeys, hb']
  have hkey : ∀ k, dirLookup s.dir k = dirLookup (accountLive (ended s l (.good content)) c.place.seg c.lines.length).dir k := fun k => by
    rw [hT]
    rfl
  have hdir : (promoteAll (accountLive (ended s l (.good content)) c.place.seg c.lines.length) b.members).dir = D := by
    rw [hU]
  have hlines : ∀ n, supersededLines (accountLive (ended s l (.good content)) c.place.seg c.lines.length) b.members n =
      supersededLines s b.members n := fun n => by
    rw [hT]
    rfl
  refine ⟨_, commit_reported hp hst hpub hres hp.inflight_eq rfl rfl, rfl, fun x => mem_commitInsert x _ _ hc,
    fun k e p hk hpend hmem => ?_, fun k hk => ?_, handed_published rfl rfl, over_published (programming_operating hp).holder_eq rfl, rfl, fun n j hn => ?_⟩
  · have h := hheld k e p ((hkey k).symm.trans hk) hpend hmem
    rw [hdir, promotedPart_congr hafter] at h
    exact h
  · have hfree : k ∉ b.members.map Member.key ∨
        ¬ heldKey (accountLive (ended s l (.good content)) c.place.seg c.lines.length) k := hk.imp_right fun h => by
      rw [hT]
      exact h
    have h := hothers k hfree
    rw [hdir, ← hkey] at h
    exact h
  · rw [hV] at hj3
    refine (hj3 n).trans ?_
    rw [hj2, hj, hlines, Option.map_map, Option.map_map]
    exact congrArg (Option.map _) hn

/-- Settles O52: what each record is published as, and the completion that follows. -/
theorem commitLinePublishesTheRecord : Obligations.CommitLinePublishesTheRecord := by
  refine ⟨fun s c l content k tomb len e hp hd hst he => ⟨fun hw => ?_, fun b hb hw => ?_⟩,
    fun s c l content b hp hd hc hst hcmd hb => ?_, fun s c l content lo hi hp hf hst hcmd => ?_⟩
  · obtain ⟨u, hu, hk, hothers, hhand, hover, hfr, hco, heng, hj⟩ := plain_publishes hp hd hst hw
    refine ⟨u, hu, hk, hothers, hhand, hover, hfr, hco, heng, fun n j hn => (hj n j hn).trans (congrArg some ?_)⟩
    have hext : extentOf len = e := he.symm
    rw [hext]
    cases committedOf s k with
    | none => simp [withDead, grown, partLines]
    | some o => by_cases ho : o.loc.seg = n <;> simp [withDead, grown, partLines, ho]
  · obtain ⟨u, timer, hu, hk, hothers, hbatch, hhand, hover, hfr, hco, hj⟩ := member_publishes hp hd hst hw hb
    have hext : extentOf len = e := he.symm
    rw [hext] at hj
    exact ⟨u, timer, hu, hk, hothers, hbatch, hhand, hover, hfr, hco, hj⟩
  · obtain ⟨u, hu, hbatch, hcom, hheld, hothers, hhand, hover, hfr, hj⟩ := batch_publishes hp hd hc hst hcmd hb
    refine ⟨u, hu, hbatch, hcom, fun k e p hk hpend hmem => ?_, hothers, hhand, hover, hfr, hj⟩
    have h := hheld k e p hk hpend hmem
    cases ho : e.committed with
    | none =>
      rw [ho] at h
      exact ⟨false, h, by simp⟩
    | some o =>
      rw [ho] at h
      refine ⟨p.tomb && locAfter s o.loc p.loc, h, ?_⟩
      simp [locAfter_iff]
  · exact freeze_publishes hp hf hst hcmd

end Sys2Proof.Machine
end

