-- ==== Sys2Proof/Proofs/ReclaimSteps.lean ====
section
/-! The steps of background reclaim (R144–R146, R153). -/

namespace Sys2Proof.Machine

/-! ### The victim with the most dead lines (R144) -/

/-- Segment `a` is taken before `b`: it has more dead lines, or as many and a lower epoch. -/
def outranks (a b : Nat × Journal) : Prop := b.2.dead < a.2.dead ∨ (a.2.dead = b.2.dead ∧ a.2.epoch < b.2.epoch)

theorem outranks_asymm {a b : Nat × Journal} (h : outranks a b) : ¬ outranks b a := by
  unfold outranks at *
  bv_omega

/-- The scan for the most dead lines. -/
def pickMostDead (best : Option (Nat × Journal)) (c : Nat × Journal) : Option (Nat × Journal) :=
  match best with
  | none => some c
  | some b => if b.2.dead < c.2.dead ∨ (c.2.dead = b.2.dead ∧ c.2.epoch < b.2.epoch) then some c else some b

theorem pickMostDead_first {b c : Nat × Journal} (h : outranks c b) : pickMostDead (some b) c = some c := if_pos h

theorem pickMostDead_second {b c : Nat × Journal} (h : ¬ outranks c b) : pickMostDead (some b) c = some b := if_neg h

theorem not_outranks_of {a c : Nat × Journal} (h : c = a ∨ outranks a c) : ¬ outranks c a := by
  rcases h with rfl | h
  · exact fun k => outranks_asymm k k
  · exact outranks_asymm h

theorem foldl_pick_best {a : Nat × Journal} (l : List (Nat × Journal)) (h : ∀ c ∈ l, c = a ∨ outranks a c) :
    l.foldl pickMostDead (some a) = some a := by
  induction l with
  | nil => rfl
  | cons c l ih =>
    rw [List.foldl_cons, pickMostDead_second (not_outranks_of (h c (by simp)))]
    exact ih fun x hx => h x (List.mem_cons_of_mem _ hx)

/-- The scan finds the one that outranks every other. -/
theorem foldl_pickMostDead {a : Nat × Journal} (l : List (Nat × Journal)) : ∀ b, a ∈ b :: l →
    (∀ c ∈ b :: l, c = a ∨ outranks a c) → l.foldl pickMostDead (some b) = some a := by
  induction l with
  | nil =>
    intro b ha _
    rw [List.mem_singleton.1 ha]
    rfl
  | cons c l ih =>
    intro b ha h
    have hb := h b (by simp)
    have hc := h c (by simp)
    rw [List.foldl_cons]
    by_cases hcb : outranks c b
    · rw [pickMostDead_first hcb]
      refine ih c ?_ fun x hx => h x (List.mem_cons_of_mem _ hx)
      rcases List.mem_cons.1 ha with rfl | ha
      · exact absurd hcb (not_outranks_of hc)
      · exact ha
    · rw [pickMostDead_second hcb]
      refine ih b ?_ fun x hx => h x ?_
      · rcases List.mem_cons.1 ha with rfl | ha
        · exact List.mem_cons_self ..
        · rcases List.mem_cons.1 ha with rfl | ha
          · rcases hb with rfl | hb
            · exact List.mem_cons_self ..
            · exact absurd hb hcb
          · exact List.mem_cons_of_mem _ ha
      · rcases List.mem_cons.1 hx with rfl | hx
        · exact List.mem_cons_self ..
        · exact List.mem_cons_of_mem _ (List.mem_cons_of_mem _ hx)

theorem mostDead_eq {s : State} {v : Nat} {j : Journal} (hv : (v, j) ∈ candidates s) (hd : 0 < j.dead)
    (h : ∀ c ∈ candidates s, c = (v, j) ∨ outranks (v, j) c) : mostDead s = some v := by
  have hfold : (candidates s).foldl pickMostDead none = some (v, j) := by
    cases hc : candidates s with
    | nil =>
      rw [hc] at hv
      cases hv
    | cons b l =>
      rw [hc] at hv h
      exact foldl_pickMostDead l b hv h
  have hm : mostDead s = match (candidates s).foldl pickMostDead none with
    | some (n, j) => if 0 < j.dead then some n else none
    | none => none := rfl
  rw [hm, hfold]
  exact if_pos hd

theorem journalOf_standsAs {s : State} {n : Nat} {st : SegState} (hO : tableOrdered s) (h : standsAs s n st) :
    journalOf s n = st.journal? := by
  obtain ⟨x, hx, rfl, rfl⟩ := h
  rw [journalOf, segEntry_of_mem hO hx]
  rfl

/-! ### The steps -/

theorem background_granted {s : State} (h : backgroundFree s) : stepGranted s = true := by
  obtain ⟨⟨hr, hq, hh, hreq, hsr⟩, hm, hf, hqueue, hhead⟩ := h
  rcases hm with hm | hm <;>
    simp [stepGranted, arrayFree, serving, background, hostHead, hr, hq, hh, hreq, hsr, hm, hf, hqueue, hhead]

theorem exec_walkStep {s : State} (h : backgroundFree s) : exec .reclaimWalkStep s = .next (grantWalk s) :=
  ifHigh_of_resetHigh h.1.1 (if_pos (background_granted h))

theorem exec_finishStep {s : State} (h : backgroundFree s) :
    exec .reclaimFinishStep s = .next (settleRefused 8 (grantFinish s)) :=
  ifHigh_of_resetHigh h.1.1 (congrArg (settleRefused 8) (if_pos (background_granted h)))

/-- The victim's entry when its context begins (R141). -/
def asVictim (e : SegEntry) : SegEntry :=
  { e with st := match e.st with
    | .closed j => .reclaiming j
    | st => st }

theorem startVictim_eq (s : State) (v : Nat) :
    startVictim s v = { entryChanged s v asVictim with rc := { s.rc with ctx := some ⟨v, .walk, 2, 0, false, none, .idle⟩ } } := by
  have h : segUpd s v asVictim = entryChanged s v asVictim := segUpd_quiet v asVictim fun e _ _ hf => by
    have hfree : e.st = .free := by simpa [SegEntry.isFree] using hf
    simp [asVictim, SegEntry.isFree, hfree]
  exact congrArg (fun t : State => { t with rc := { t.rc with ctx := some ⟨v, .walk, 2, 0, false, none, .idle⟩ } }) h

/-- Settles O57: the victim chosen is the one that outranks the other candidates; a walk with a context reads its header or ends;
the finish step erases. -/
theorem reclaimTakesItsSteps : Obligations.ReclaimTakesItsSteps := by
  intro s hb
  refine ⟨fun v j hctx hst hbg hle hge hcom hO hv hpins hdead hwp hbest => ?_, fun r j hctx hph hj => ⟨fun hlt => ?_, fun hge => ?_⟩,
    fun r hctx hph hstep => ?_⟩
  · have hcand : (v, j) ∈ candidates s := mem_candidates.2 ⟨hv, hpins⟩
    have hchosen : chooseVictim s = some v := by
      rw [chooseVictim, if_neg (Nat.not_le.2 hcom)]
      refine mostDead_eq hcand hdead fun ⟨n, x⟩ hc => ?_
      obtain ⟨hn, hp⟩ := mem_candidates.1 hc
      by_cases hnv : n = v
      · subst hnv
        have hx : x = j := by
          by_contra hne
          exact ne_of_standing hO hn hv (fun h => hne (SegState.closed.inj h)) rfl
        exact .inl (by rw [hx])
      · exact .inr ((hbest n x hn hp hnv).imp_right fun h => ⟨h.1.symm, h.2⟩)
    have hmay : mayStartVictim s = true := by
      have hany : (candidates s).any (fun c => decide (0 < c.2.dead)) = true :=
        List.any_eq_true.2 ⟨(v, j), hcand, by simpa using hdead⟩
      simp [mayStartVictim, hst, hbg, hle, hge, hany]
    have hgrant : grantWalk s = walkStep (startVictim s v) ⟨v, .walk, 2, 0, false, none, .idle⟩ := by
      simp only [grantWalk, hctx, hmay, Bool.or_true, if_true, hchosen]
    obtain ⟨e, he, hen, hes⟩ := hv
    have hstands : standsAs (startVictim s v) v (.reclaiming j) := by
      rw [startVictim_eq]
      exact ⟨_, mem_entryChanged asVictim he hen, hen, by simp only [asVictim, hes]⟩
    have hO' : tableOrdered (startVictim s v) := by
      rw [startVictim_eq]
      exact tableOrdered_map (fun x => if x.num = v then asVictim x else x) (fun x => by split <;> rfl) rfl hO
    have hjv : journalOf (startVictim s v) v = some j := journalOf_standsAs hO' hstands
    have hwalk : walkStep (startVictim s v) ⟨v, .walk, 2, 0, false, none, .idle⟩ = { entryChanged s v asVictim with
        rc := { s.rc with ctx := some ⟨v, .walk, 2, 0, false, none, .header⟩ }, holder := .reclaim, seqr := some (.read ⟨v, 2⟩) } := by
      rw [walkStep, hjv, if_neg (by simpa using hwp), startVictim_eq]
      exact if_neg (by simp [modRc, entryChanged, hb.1.notHalting])
    rw [startVictim_eq] at hstands
    exact ⟨_, (exec_walkStep hb).trans (congrArg _ (hgrant.trans hwalk)), rfl, rfl, rfl, hstands, rfl, rfl, rfl⟩
  · have hgrant : grantWalk s = walkStep s r := by simp only [grantWalk, hctx, hph, if_true]
    rw [exec_walkStep hb, hgrant, walkStep, hj, if_neg (by simpa using hlt)]
    simp [issue, modRc, hctx, hb.1.notHalting]
  · have hgrant : grantWalk s = walkStep s r := by simp only [grantWalk, hctx, hph, if_true]
    rw [exec_walkStep hb, hgrant, walkStep, hj, if_pos (by simpa using hge)]
    simp [endWalk, releaseStep, modRc, hctx, hb.1.holder_none]
  · have hgrant : grantFinish s = { s with
        rc := { s.rc with ctx := some { r with step := .finish .erase } }, holder := .reclaim, seqr := some (.erase r.victim) } := by
      simp [grantFinish, hctx, hph, hstep, Reclaim.finishStage, prepIssue, issue, modRc, hb.1.notHalting]
    rw [exec_finishStep hb, hgrant]
    exact congrArg Host.Outcome.next (settle_other (by simp))

end Sys2Proof.Machine
end

