-- ==== Sys2Proof/Proofs/WalkReports.lean ====
section
/-! What a walk does with the header it has read (R57, R126, R146, R147, R149). -/

namespace Sys2Proof.Machine

/-! ### The liveness test (R147) -/

theorem dirNames_iff (s : State) (k : Key) (l : Loc) : dirNames s k l = true ↔ ∃ p, committedOf s k = some p ∧ p.loc = l := by
  unfold dirNames
  rw [committedOf_bind]
  cases (dirLookup s.dir k).bind DirEntry.committed <;> simp

theorem commitNames_iff (s : State) (l : Loc) : commitNames s l = true ↔ ∃ x ∈ s.commits, x.loc = l := by
  simp [commitNames]

theorem freezeNames_iff (s : State) (l : Loc) : freezeNames s l = true ↔ ∃ x ∈ s.freezes, x.loc = l := by
  simp [freezeNames]

theorem dirShadowed_of {s : State} {k : Key} {p : Part} (h : committedOf s k = some p) : dirShadowed s k = p.shadowed := by
  rw [committedOf_bind] at h
  simp only [dirShadowed, h]

theorem fateOf_passed {s : State} {h : Hdr} {l : Loc} (hn : ¬ namedAt s h l) : fateOf s h l = .passed := by
  unfold namedAt at hn
  unfold fateOf
  cases hk : h.kind with
  | value =>
    rw [hk] at hn
    exact if_neg fun hd => hn ((dirNames_iff s h.key l).1 hd)
  | tombstone =>
    rw [hk] at hn
    exact if_neg fun hd => hn ((dirNames_iff s h.key l).1 hd)
  | commit =>
    rw [hk] at hn
    exact if_neg fun hd => hn ((commitNames_iff s l).1 hd)
  | freeze =>
    rw [hk] at hn
    exact if_neg fun hd => hn ((freezeNames_iff s l).1 hd)

/-- A named TOMBSTONE that is dropped is not shadowed. -/
theorem shadowed_iff {s : State} {k : Key} {l : Loc} (hn : ∃ p, committedOf s k = some p ∧ p.loc = l) :
    (!dirShadowed s k) = true ↔ ∀ p, committedOf s k = some p → p.shadowed = false := by
  obtain ⟨p, hp, -⟩ := hn
  rw [dirShadowed_of hp, Bool.not_eq_true']
  constructor
  · intro h q hq
    rw [hp] at hq
    cases hq
    exact h
  · exact fun h => h p hp

theorem fateOf_dropped {s : State} {h : Hdr} {l : Loc} (hd : droppedAt s h l) : fateOf s h l = .dropped := by
  obtain ⟨hn, hlow, hk | ⟨hk, hsh⟩⟩ := hd
  · have hn' : commitNames s l = true := by
      rw [namedAt, hk] at hn
      exact (commitNames_iff s l).2 hn
    simp only [fateOf, hk, hn', hlow, if_true]
  · rw [namedAt, hk] at hn
    have hs := (shadowed_iff hn).2 hsh
    simp only [fateOf, hk, (dirNames_iff s h.key l).2 hn, hlow, hs, and_self, if_true]

theorem fateOf_copied {s : State} {h : Hdr} {l : Loc} (hn : namedAt s h l) (hd : ¬ droppedAt s h l) : fateOf s h l = .copied := by
  have hn' := hn
  unfold namedAt at hn
  unfold fateOf
  cases hk : h.kind with
  | value =>
    rw [hk] at hn
    exact if_pos ((dirNames_iff s h.key l).2 hn)
  | tombstone =>
    rw [hk] at hn
    refine (if_pos ((dirNames_iff s h.key l).2 hn)).trans (if_neg fun ⟨hlow, hs⟩ => hd ⟨hn', hlow, .inr ⟨hk, ?_⟩⟩)
    exact (shadowed_iff hn).1 hs
  | commit =>
    rw [hk] at hn
    exact (if_pos ((commitNames_iff s l).2 hn)).trans (if_neg fun hlow => hd ⟨hn', hlow, .inl hk⟩)
  | freeze =>
    rw [hk] at hn
    exact if_pos ((freezeNames_iff s l).2 hn)

/-! ### The header read -/

theorem walkReading_operating {s : State} {r : Reclaim} {l : Loc} (h : walkReading s r l) : operating s .reclaim (.read l) :=
  let ⟨hr, hsr, hreq, hh, _, _, _, hq⟩ := h
  ⟨hr, hsr, hreq, hh, hq⟩

theorem walkReading.notHalting {s : State} {r : Reclaim} {l : Loc} (h : walkReading s r l) : s.eng.haltReq = false :=
  (walkReading_operating h).notHalting

theorem walkReading.ctx_eq {s : State} {r : Reclaim} {l : Loc} (h : walkReading s r l) : s.rc.ctx = some r :=
  let ⟨_, _, _, _, hctx, _, _, _⟩ := h
  hctx

theorem walkReading.loc_eq {s : State} {r : Reclaim} {l : Loc} (h : walkReading s r l) : l = ⟨r.victim, r.cursor⟩ :=
  let ⟨_, _, _, _, _, _, hl, _⟩ := h
  hl

/-- `s` with the sequencer IDLE. -/
def atRest (s : State) : State := { s with seqr := none }

theorem onReport_reclaim {s : State} {r : Reclaim} (hh : s.holder = .reclaim) (hctx : s.rc.ctx = some r) (loc : Loc) (rep : Report) :
    onReport s loc rep = reclaimReport s r rep := by
  simp only [onReport, hh, hctx]

/-- The header that a walk has read is decided on. -/
theorem walk_reported {s : State} {r : Reclaim} {l : Loc} (h : walkReading s r l) :
    exec .readDone s = reported (walkHeader (atRest s) r (lineAt s l)) := by
  refine (operating_read (walkReading_operating h)).trans (congrArg reported ?_)
  obtain ⟨-, -, -, hh, hctx, hstep, -, -⟩ := h
  refine (onReport_reclaim (s := atRest s) hh hctx _ _).trans ?_
  simp only [reclaimReport, hstep]

/-- The walk goes past `e` lines of the record. -/
theorem passRecord_eq {s : State} {r : Reclaim} (hctx : s.rc.ctx = some r) (e : Nat) :
    passRecord s e = { s with holder := .none, rc := { s.rc with ctx := some (walkedPast r e) } } := by
  simp only [passRecord, releaseStep, modRc, hctx, Option.map_some, walkedPast]

/-- A key's entry after the entries that fail `q` have gone. -/
theorem dirLookup_filter (q : DirEntry → Bool) {d : List DirEntry} (hd : d.Pairwise (fun a b => a.key < b.key)) (k : Key) :
    dirLookup (d.filter q) k = (dirLookup d k).filter q := by
  induction d with
  | nil => rfl
  | cons e d ih =>
    obtain ⟨he, hd⟩ := List.pairwise_cons.1 hd
    have hi := ih hd
    unfold dirLookup at *
    by_cases hk : e.key = k
    · have hrest : d.find? (fun x => x.key == k) = none := by
        refine List.find?_eq_none.2 fun x hx hxk => ?_
        have h1 := he x hx
        rw [hk, show x.key = k by simpa using hxk] at h1
        exact absurd h1 (by simp)
      rw [hrest] at hi
      cases hq : q e with
      | true => simp [hq, hk, Option.filter_some]
      | false =>
        rw [List.filter_cons_of_neg (by simp [hq]), hi]
        simp [hq, hk, Option.filter_some]
    · cases hq : q e with
      | true => simpa [hq, hk] using hi
      | false => simpa [hq, hk] using hi

/-- A key without its committed part; its entry goes if nothing is left of it (R57). -/
theorem dirLookup_dropped {d : List DirEntry} (hd : DirOk d) (k : Key) :
    (∀ x, x ≠ k → dirLookup (dirPrune (dirMap k (fun e => { e with committed := none }) d)) x = dirLookup d x)
    ∧ dirLookup (dirPrune (dirMap k (fun e => { e with committed := none }) d)) k =
      ((dirLookup d k).map fun e => { e with committed := none }).filter (fun e => e.pending.isSome) := by
  have hmap := fun x => dirLookup_map k x (fun e : DirEntry => { e with committed := none }) d (fun _ => rfl)
  have hord : (dirMap k (fun e : DirEntry => { e with committed := none }) d).Pairwise (fun a b => a.key < b.key) := by
    unfold dirMap
    rw [List.pairwise_map]
    refine hd.1.imp fun {a b} h => ?_
    split <;> split <;> exact h
  have hprune := dirLookup_filter (fun e => e.committed.isSome || e.pending.isSome) hord
  refine ⟨fun x hx => ?_, ?_⟩
  · rw [dirPrune, hprune, hmap]
    simp only [hx, if_false, Option.map_id']
    cases hl : dirLookup d x with
    | none => rfl
    | some e =>
      have := hd.2 e (dirLookup_mem hl).1
      rw [Option.filter_some, if_pos (by simpa using this)]
  · rw [dirPrune, hprune, hmap]
    cases dirLookup d k with
    | none => rfl
    | some e => simp [Option.filter_some]

section

variable {s : State} {r : Reclaim} {l : Loc} {h : Hdr} {e : Nat}

/-- A header that is not valid ends the walk (R146). -/
theorem walk_ends (hw : walkReading s r l) (hp : parseHeader (lineAt s l) = none) :
    exec .readDone s = .next { s with
      seqr := none, holder := .none
      rc := { s.rc with ctx := some { r with phase := .finish, step := .idle, attempt := none } } } := by
  have hend : walkHeader (atRest s) r (lineAt s l) = { s with
      seqr := none, holder := .none
      rc := { s.rc with ctx := some { r with phase := .finish, step := .idle, attempt := none } } } := by
    simp only [walkHeader, hp, endWalk, releaseStep, modRc, atRest, hw.ctx_eq, Option.map_some]
  rw [walk_reported hw, hend]
  exact reported_idle hw.notHalting rfl

/-- The test is made on the tables alone. -/
theorem fateOf_atRest (s : State) (h : Hdr) (l : Loc) : fateOf (atRest s) h l = fateOf s h l := rfl

theorem walkHeader_passed (hw : walkReading s r l) (hp : parseHeader (lineAt s l) = some h) (hf : fateOf s h l = .passed) :
    walkHeader (atRest s) r (lineAt s l) = passRecord (atRest s) (extentOf h.len) := by
  rw [hw.loc_eq] at hf hp ⊢
  simp only [walkHeader, hp, fateOf_atRest, hf]

theorem walkHeader_dropped (hw : walkReading s r l) (hp : parseHeader (lineAt s l) = some h) (hf : fateOf s h l = .dropped) :
    walkHeader (atRest s) r (lineAt s l) = passRecord (dropRecord (atRest s) h l) (extentOf h.len) := by
  rw [hw.loc_eq] at hf hp ⊢
  simp only [walkHeader, hp, fateOf_atRest, hf]

theorem walkHeader_copied (hw : walkReading s r l) (hp : parseHeader (lineAt s l) = some h) (hf : fateOf s h l = .copied) :
    walkHeader (atRest s) r (lineAt s l) = startCopy (atRest s) r h l := by
  rw [hw.loc_eq] at hf hp ⊢
  simp only [walkHeader, hp, fateOf_atRest, hf]

theorem walk_passes (hw : walkReading s r l) (hp : parseHeader (lineAt s l) = some h) (he : e = 2 + (h.len + 15) / 16)
    (hn : ¬ namedAt s h l) :
    exec .readDone s = .next { s with seqr := none, holder := .none, rc := { s.rc with ctx := some (walkedPast r e) } } := by
  rw [walk_reported hw, walkHeader_passed hw hp (fateOf_passed hn), passRecord_eq (s := atRest s) hw.ctx_eq, he]
  exact reported_idle hw.notHalting rfl

theorem walk_copies (hw : walkReading s r l) (hp : parseHeader (lineAt s l) = some h) (hn : namedAt s h l)
    (hd : ¬ droppedAt s h l) : exec .readDone s = reported (startCopy (atRest s) r h l) := by
  rw [walk_reported hw, walkHeader_copied hw hp (fateOf_copied hn hd)]

/-- A record with data lines: the first is read (R150). -/
theorem copy_reads (hw : walkReading s r l) (hp : parseHeader (lineAt s l) = some h) (hn : namedAt s h l)
    (hd : ¬ droppedAt s h l) (hlen : h.len ≠ 0) : exec .readDone s = .next { s with
      seqr := some (.read ⟨r.victim, r.cursor + 1⟩)
      rc := { s.rc with ctx := some { r with attempt := some ⟨l, h, [], [], false, l⟩, step := .dataRead 1 } } } := by
  have hl := hw.loc_eq
  have hcount : dataLineCount h.len ≠ 0 := by unfold dataLineCount; omega
  have hstart : startCopy (atRest s) r h l = { s with
      seqr := some (.read ⟨r.victim, r.cursor + 1⟩)
      rc := { s.rc with ctx := some { r with attempt := some ⟨l, h, [], [], false, l⟩, step := .dataRead 1 } } } := by
    simp only [startCopy, atRest, hcount, if_false, issue, modRc, hw.ctx_eq, hw.notHalting, Bool.false_eq_true, Option.map_some, hl]
    rfl
  rw [walk_copies hw hp hn hd, hstart]
  exact reported_eq hw.notHalting (fun _ _ h => nomatch h)

/-- A record without data lines: its copy is placed in the OPEN segment (R28, R150). -/
theorem copy_places {n : Nat} {j : Journal} (hw : walkReading s r l) (hp : parseHeader (lineAt s l) = some h)
    (hn : namedAt s h l) (hd : ¬ droppedAt s h l) (hlen : h.len = 0) (ho : openSegment s = some (n, j))
    (hroom : 2 ≤ 256 - j.wp) (he : lineAt s ⟨n, j.wp⟩ = .erased) : exec .readDone s = .next { s with
      seqr := some (.program ⟨n, j.wp⟩ (headerLine { h with bid := 0 }))
      rc := { s.rc with ctx := some { r with
        attempt := some ⟨l, h, [], [headerLine { h with bid := 0 }, commitLine h.seq 2], false, ⟨n, j.wp⟩⟩
        step := .program 0 } } } := by
  have hcount : dataLineCount h.len = 0 := by rw [hlen]; rfl
  have hext : extentOf h.len = 2 := by rw [hlen]; rfl
  have hlines : copyLines ⟨l, h, [], [], false, l⟩ = [headerLine { h with bid := 0 }, commitLine h.seq 2] := by
    simp only [copyLines, hext, List.take_nil]
    rfl
  have hplace : ∀ f, findPlace (modRc (atRest s) f) (extentOf h.len) 1 none = .room ⟨n, j.wp⟩ := fun f =>
    findPlace_room (s := modRc (atRest s) f) ho (hext ▸ hroom) 1 none
  have hstart : startCopy (atRest s) r h l = { s with
      seqr := some (.program ⟨n, j.wp⟩ (headerLine { h with bid := 0 }))
      rc := { s.rc with ctx := some { r with
        attempt := some ⟨l, h, [], [headerLine { h with bid := 0 }, commitLine h.seq 2], false, ⟨n, j.wp⟩⟩
        step := .program 0 } } } := by
    rw [startCopy, if_pos hcount, buildCopy, hlines, admitCopy, if_neg (by simp [modRc, atRest, hw.notHalting]), hplace]
    simp [placeCopy, issue, modRc, atRest, hw.ctx_eq, hw.notHalting]
  rw [walk_copies hw hp hn hd, hstart]
  exact reported_erased hw.notHalting rfl he

/-! ### Dropped markers (R57, R126, R149) -/

/-- The lines of a marker in segment `m` count dead. -/
theorem killLines_journals (s : State) (m e : Nat) :
    JournalsChanged s (killLines s m e) (fun n j => if n = m then withDead e j else j) := journalUpd_journals s m (withDead e)

theorem walk_dropped {u : State} (hw : walkReading s r l) (hp : parseHeader (lineAt s l) = some h)
    (he : e = 2 + (h.len + 15) / 16) (hd : droppedAt s h l) (hu : dropRecord (atRest s) h l = u) (hctx : u.rc.ctx = some r)
    (hreq : u.eng = s.eng) (hq : u.seqr = none) :
    exec .readDone s = .next { u with holder := .none, rc := { u.rc with ctx := some (walkedPast r e) } } := by
  rw [walk_reported hw, walkHeader_dropped hw hp (fateOf_dropped hd), hu, passRecord_eq hctx, he]
  exact reported_idle ((congrArg Engine.haltReq hreq).trans hw.notHalting) hq

/-- What every dropped marker leaves. -/
theorem walk_drops (hw : walkReading s r l) (hp : parseHeader (lineAt s l) = some h) (he : e = 2 + (h.len + 15) / 16)
    (hd : droppedAt s h l) (hdir : DirOk s.dir) : ∃ t, exec .readDone s = .next t ∧ t.seqr = none ∧ t.holder = .none
      ∧ t.rc.ctx = some (walkedPast r e)
      ∧ (∀ j, journalOf s r.victim = some j →
        journalOf t r.victim = some { j with live := j.live - min e j.live, dead := j.dead + min e j.live })
      ∧ (h.kind = .commit → t.dir = s.dir ∧ t.commits = s.commits.filter (fun x => x.loc != l)
        ∧ t.rc.droppedCommits = s.rc.droppedCommits + 1 ∧ t.rc.droppedTombs = s.rc.droppedTombs)
      ∧ (h.kind = .tombstone → t.commits = s.commits
        ∧ (∀ k, k ≠ h.key → dirLookup t.dir k = dirLookup s.dir k)
        ∧ (¬ heldKey s h.key → dirLookup t.dir h.key = none)
        ∧ (∀ d p, dirLookup s.dir h.key = some d → d.pending = some p → dirLookup t.dir h.key = some ⟨h.key, none, some p⟩)
        ∧ t.rc.droppedTombs = s.rc.droppedTombs + 1 ∧ t.rc.droppedCommits = s.rc.droppedCommits) := by
  obtain ⟨⟨T, hT⟩, hj⟩ := killLines_journals (atRest s) l.seg (extentOf h.len)
  have hext : extentOf h.len = e := he.symm
  have hseg : l.seg = r.victim := by rw [hw.loc_eq]
  rw [hT, hext, hseg] at hj
  have hdead : ∀ j, journalOf s r.victim = some j → journalOf (withTable (atRest s) T) r.victim = some (withDead e j) := fun j hj' =>
    (hj r.victim).trans ((congrArg (Option.map _) hj').trans (congrArg some (if_pos rfl)))
  have hkind := hd.2.2
  rcases hkind with hk | ⟨hk, -⟩
  · have hu : dropRecord (atRest s) h l = { withTable (atRest s) T with
        commits := s.commits.filter (fun x => x.loc != l)
        rc := { s.rc with droppedCommits := s.rc.droppedCommits + 1 } } := by
      simp only [dropRecord, hk, hT]
      rfl
    refine ⟨_, walk_dropped hw hp he hd hu hw.ctx_eq rfl rfl, rfl, rfl, rfl, hdead, fun _ => ⟨rfl, rfl, rfl, rfl⟩, fun hk' => ?_⟩
    rw [hk] at hk'
    cases hk'
  · have hu : dropRecord (atRest s) h l = { withTable (atRest s) T with
        dir := dirPrune (dirMap h.key (fun e => { e with committed := none }) s.dir)
        rc := { s.rc with droppedTombs := s.rc.droppedTombs + 1 } } := by
      simp only [dropRecord, hk, hT]
      rfl
    obtain ⟨hothers, hkey⟩ := dirLookup_dropped hdir h.key
    refine ⟨_, walk_dropped hw hp he hd hu hw.ctx_eq rfl rfl, rfl, rfl, rfl, hdead, fun hk' => ?_,
      fun _ => ⟨rfl, hothers, fun hheld => hkey.trans ?_, fun d p hd hpend => hkey.trans ?_, rfl, rfl⟩⟩
    · rw [hk] at hk'
      cases hk'
    · cases hl : dirLookup s.dir h.key with
      | none => rfl
      | some d =>
        cases hpend : d.pending with
        | none => simp [Option.filter_some, hpend]
        | some p => exact absurd ⟨d, p, hl, hpend⟩ hheld
    · rw [hd, ← (dirLookup_mem hd).2]
      simp [Option.filter_some, hpend]

end

end Sys2Proof.Machine
end

