-- ==== Sys2Proof/Proofs/Copies.lean ====
section
/-! How a copy ends (R56, R64, R126, R151). -/

namespace Sys2Proof.Machine

section

variable {s : State} {r : Reclaim} {a : Attempt} {k e : Nat} {l : Loc} {content : LineBits}

theorem copying_operating (h : copying s r a k l content) : operating s .reclaim (.program l content) :=
  let ⟨hr, hsr, hreq, hh, _, _, _, hq⟩ := h
  ⟨hr, hsr, hreq, hh, hq⟩

theorem copying.notHalting (h : copying s r a k l content) : s.eng.haltReq = false := (copying_operating h).notHalting

theorem copying.ctx_eq (h : copying s r a k l content) : s.rc.ctx = some r :=
  let ⟨_, _, _, _, hctx, _, _, _⟩ := h
  hctx

/-- The last line of a copy is programmed. -/
theorem copy_completed (h : copying s r a k l content) (hk : k + 1 = a.lines.length) :
    exec .programDone s = reported (copyComplete (ended s l (.good content)) r a) := by
  refine (operating_done (copying_operating h)).trans (congrArg reported ?_)
  obtain ⟨-, -, -, hh, hctx, hstep, hatt, -⟩ := h
  refine (onReport_reclaim (s := ended s l (.good content)) hh hctx _ _).trans ?_
  simp only [reclaimReport, hstep, hatt, copyDone]
  exact if_neg (by omega)

/-- A line of a copy fails. -/
theorem copy_faulted (h : copying s r a k l content) :
    exec .programDeadlineExpiry s = reported (copyFault (ended s l .torn) r a) := by
  refine (operating_expired (copying_operating h)).trans (congrArg reported ?_)
  obtain ⟨-, -, -, hh, hctx, hstep, hatt, -⟩ := h
  refine (onReport_reclaim (s := ended s l .torn) hh hctx _ _).trans ?_
  simp only [reclaimReport, hstep, hatt]

/-! ### A copy that is complete (R151) -/

/-- The state after a copy of `e` lines whose tables are `u`'s. -/
theorem copyComplete_eq {u : State} (hu : (if namesOriginal s a then
      killLines (accountLive (repoint s a) a.place.seg (extentOf a.hdr.len)) r.victim (extentOf a.hdr.len)
      else accountDead s a.place.seg (extentOf a.hdr.len)) = u) (hctx : u.rc.ctx = some r) (he : extentOf a.hdr.len = e) :
    copyComplete s r a = { u with
      holder := .none, rc := { u.rc with ctx := some { walkedPast r e with copied := r.copied + e } } } := by
  rw [he] at hu
  simp only [copyComplete, he, hu, passRecord, releaseStep, modRc, hctx, Option.map_some, walkedPast]

theorem copy_reported {u : State} (h : copying s r a k l content) (hk : k + 1 = a.lines.length)
    (he : e = 2 + (a.hdr.len + 15) / 16)
    (hu : (if namesOriginal (ended s l (.good content)) a then
      killLines (accountLive (repoint (ended s l (.good content)) a) a.place.seg (extentOf a.hdr.len)) r.victim (extentOf a.hdr.len)
      else accountDead (ended s l (.good content)) a.place.seg (extentOf a.hdr.len)) = u)
    (hrc : u.rc = s.rc) (heng : u.eng = s.eng) (hq : u.seqr = none) :
    exec .programDone s = .next { u with
      holder := .none, rc := { s.rc with ctx := some { walkedPast r e with copied := r.copied + e } } } := by
  have hctx : u.rc.ctx = some r := (congrArg ReclaimUnit.ctx hrc).trans h.ctx_eq
  have hreq : u.eng.haltReq = false := (congrArg Engine.haltReq heng).trans h.notHalting
  rw [copy_completed h hk, copyComplete_eq hu hctx he.symm, hrc]
  exact reported_idle hreq hq

/-- The lines of the copy count live, those of the original dead. -/
theorem copied_journals (s : State) (r : Reclaim) (a : Attempt) (e : Nat) :
    JournalsChanged s (killLines (accountLive s a.place.seg e) r.victim e)
      (fun n j => withDead (if n = r.victim then e else 0) (grown (if n = a.place.seg then e else 0) j)) := by
  obtain ⟨hT, hj⟩ := (accountLive_journals s a.place.seg e).trans (killLines_journals _ r.victim e)
  refine ⟨hT, fun n => (hj n).trans (congrArg (Option.map · (journalOf s n)) (funext fun j => ?_))⟩
  by_cases hn : n = r.victim
  · simp only [hn, if_true]
  · simp only [hn, if_false, withDead_zero]

/-- The re-pointing changes the table that names the original, and no journal. -/
theorem repoint_journals (s : State) (a : Attempt) (n : Nat) : journalOf (repoint s a) n = journalOf s n := by
  unfold repoint
  split <;> rfl

/-- A copy whose original is named. -/
theorem copy_repointed (h : copying s r a k l content) (hk : k + 1 = a.lines.length) (he : e = 2 + (a.hdr.len + 15) / 16)
    (hn : namesOriginal s a = true) : ∃ T, exec .programDone s = .next { withTable (repoint (ended s l (.good content)) a) T with
        holder := .none, rc := { s.rc with ctx := some { walkedPast r e with copied := r.copied + e } } }
      ∧ ∀ u : State, u.sm.table = T → copyAccounted s u r a e := by
  obtain ⟨⟨T, hT⟩, hj⟩ := copied_journals (repoint (ended s l (.good content)) a) r a e
  have hext : extentOf a.hdr.len = e := he.symm
  have hkeeps : (repoint (ended s l (.good content)) a).rc = s.rc ∧ (repoint (ended s l (.good content)) a).eng = s.eng
      ∧ (repoint (ended s l (.good content)) a).seqr = none := by
    unfold repoint
    split <;> exact ⟨rfl, rfl, rfl⟩
  refine ⟨T, copy_reported h hk he ?_ hkeeps.1 hkeeps.2.1 hkeeps.2.2, fun u hu n j hn => ?_⟩
  · rw [if_pos (show namesOriginal (ended s l (.good content)) a = true from hn), hext, hT]
  · have hu' : journalOf u n = journalOf (withTable (repoint (ended s l (.good content)) a) T) n := by
      unfold journalOf segEntry
      rw [hu]
      rfl
    rw [hT] at hj
    have hsame : journalOf (repoint (ended s l (.good content)) a) n = some j := (repoint_journals _ a n).trans hn
    refine hu'.trans ((hj n).trans ((congrArg (Option.map _) hsame).trans (congrArg some ?_)))
    by_cases hv : n = r.victim <;> simp [withDead, grown, hv]

/-- A copy whose original is named no longer. -/
theorem copy_stale (h : copying s r a k l content) (hk : k + 1 = a.lines.length) (he : e = 2 + (a.hdr.len + 15) / 16)
    (hn : namesOriginal s a = false) : ∃ T, exec .programDone s = .next { withTable (ended s l (.good content)) T with
        holder := .none, rc := { s.rc with ctx := some { walkedPast r e with copied := r.copied + e } } }
      ∧ ∀ u : State, u.sm.table = T → ∀ n j, journalOf s n = some j →
        journalOf u n = some (if n = a.place.seg then { j with wp := j.wp + e, dead := j.dead + e } else j) := by
  obtain ⟨⟨T, hT⟩, hj⟩ := journalUpd_journals (ended s l (.good content)) a.place.seg
    (fun j => { j with wp := j.wp + e, dead := j.dead + e })
  have hext : extentOf a.hdr.len = e := he.symm
  refine ⟨T, copy_reported h hk he ?_ rfl rfl rfl, fun u hu n j hn => ?_⟩
  · have hn' : namesOriginal (ended s l (.good content)) a = false := hn
    rw [hn', if_neg Bool.false_ne_true, hext]
    exact hT
  · have hu' : journalOf u n = journalOf (withTable (ended s l (.good content)) T) n := by
      unfold journalOf segEntry
      rw [hu]
      rfl
    rw [hT] at hj
    exact hu'.trans ((hj n).trans (congrArg (Option.map _) hn))

/-- The original is named by its table. -/
theorem namesOriginal_dir {p : Part} (hk : a.hdr.kind = .value ∨ a.hdr.kind = .tombstone)
    (hp : committedOf s a.hdr.key = some p) (hl : p.loc = a.orig) : namesOriginal s a = true := by
  have hn : dirNames s a.hdr.key a.orig = true := (dirNames_iff s _ _).2 ⟨p, hp, hl⟩
  rcases hk with hk | hk <;> simp only [namesOriginal, hk, hn]

theorem namesOriginal_stale (h : ¬ namedAt s a.hdr a.orig) : namesOriginal s a = false := by
  rw [Bool.eq_false_iff]
  intro hn
  unfold namedAt at h
  unfold namesOriginal at hn
  cases hk : a.hdr.kind with
  | value =>
    rw [hk] at h hn
    exact h ((dirNames_iff s _ _).1 hn)
  | tombstone =>
    rw [hk] at h hn
    exact h ((dirNames_iff s _ _).1 hn)
  | freeze =>
    rw [hk] at h hn
    exact h ((freezeNames_iff s _).1 hn)
  | commit =>
    rw [hk] at h hn
    obtain ⟨x, hx, hm⟩ := List.any_eq_true.1 hn
    exact h ⟨x, hx, by simpa using (Bool.and_eq_true_iff.1 hm).2⟩

/-- The directory after a copy of a VALUE or TOMBSTONE record (R56). -/
theorem repoint_dir (hk : a.hdr.kind = .value ∨ a.hdr.kind = .tombstone) : repoint s a = dirRepoint s a.hdr.key a.place := by
  rcases hk with hk | hk <;> simp only [repoint, hk]

/-- A copy that is complete (R56, R64, R126, R151). -/
theorem copy_ends (h : copying s r a k l content) (hk : k + 1 = a.lines.length) (he : e = 2 + (a.hdr.len + 15) / 16) :
    ∃ u, exec .programDone s = .next u ∧ u.seqr = none ∧ u.holder = .none ∧ u.host = s.host ∧ u.mgmt = s.mgmt
      ∧ u.rc = { s.rc with ctx := some { walkedPast r e with copied := r.copied + e } }
      ∧ (∀ p, (a.hdr.kind = .value ∨ a.hdr.kind = .tombstone) → committedOf s a.hdr.key = some p → p.loc = a.orig →
        committedOf u a.hdr.key = some { p with loc := a.place, shadowed := false }
        ∧ (∀ x, x ≠ a.hdr.key → dirLookup u.dir x = dirLookup s.dir x)
        ∧ u.commits = s.commits ∧ u.freezes = s.freezes ∧ copyAccounted s u r a e)
      ∧ (a.hdr.kind = .freeze → (∃ x ∈ s.freezes, x.loc = a.orig) →
        u.freezes = s.freezes.map (fun x => if x.loc = a.orig then { x with loc := a.place } else x)
        ∧ u.commits = s.commits ∧ u.dir = s.dir ∧ copyAccounted s u r a e)
      ∧ (∀ bid, a.hdr.kind = .commit → bid = word32At a.value 0 → (∃ x ∈ s.commits, x.bid = bid ∧ x.loc = a.orig) →
        u.commits = s.commits.map (fun x => if x.bid = bid ∧ x.loc = a.orig then { x with loc := a.place } else x)
        ∧ u.freezes = s.freezes ∧ u.dir = s.dir ∧ copyAccounted s u r a e)
      ∧ (¬ namedAt s a.hdr a.orig → u.dir = s.dir ∧ u.commits = s.commits ∧ u.freezes = s.freezes
        ∧ ∀ n j, journalOf s n = some j →
          journalOf u n = some (if n = a.place.seg then { j with wp := j.wp + e, dead := j.dead + e } else j)) := by
  cases hn : namesOriginal s a with
  | false =>
    obtain ⟨T, hu, hj⟩ := copy_stale h hk he hn
    refine ⟨_, hu, rfl, rfl, rfl, rfl, rfl, fun p hkind hp hl => ?_, fun hkind hx => ?_, fun bid hkind hbid hx => ?_,
      fun _ => ⟨rfl, rfl, rfl, hj _ rfl⟩⟩
    · rw [namesOriginal_dir hkind hp hl] at hn
      cases hn
    · rw [namesOriginal, hkind] at hn
      rw [(freezeNames_iff s a.orig).2 hx] at hn
      cases hn
    · obtain ⟨x, hx, hxb, hxl⟩ := hx
      have hany : s.commits.any (fun c => c.bid == word32At a.value 0 && c.loc == a.orig) = true :=
        List.any_eq_true.2 ⟨x, hx, by simp [hxb, hbid, hxl]⟩
      rw [namesOriginal, hkind] at hn
      rw [hany] at hn
      cases hn
  | true =>
    obtain ⟨T, hu, hacc⟩ := copy_repointed h hk he hn
    have hports : (repoint (ended s l (.good content)) a).host = s.host ∧ (repoint (ended s l (.good content)) a).mgmt = s.mgmt
        ∧ (repoint (ended s l (.good content)) a).seqr = none := by
      unfold repoint
      split <;> exact ⟨rfl, rfl, rfl⟩
    refine ⟨_, hu, hports.2.2, rfl, hports.1, hports.2.1, rfl, fun p hkind hp hl => ?_, fun hkind hx => ?_,
      fun bid hkind hbid hx => ?_, fun hstale => ?_⟩
    · rw [repoint_dir hkind]
      have hmap := fun x => dirLookup_map a.hdr.key x (fun d : DirEntry => { d with
        committed := d.committed.map (fun p => { p with loc := a.place, shadowed := false }) }) s.dir (fun _ => rfl)
      refine ⟨?_, fun x hx => ?_, rfl, rfl, hacc _ rfl⟩
      · rw [committedOf_bind] at hp ⊢
        refine (congrArg (Option.bind · DirEntry.committed) (hmap a.hdr.key)).trans ?_
        obtain ⟨d, hd, hc⟩ := Option.bind_eq_some_iff.1 hp
        simp [hd, hc]
      · refine (hmap x).trans ?_
        simp only [hx, if_false]
        exact Option.map_id'
    · have hrep : repoint (ended s l (.good content)) a = { ended s l (.good content) with
          freezes := s.freezes.map (fun x => if x.loc = a.orig then { x with loc := a.place } else x) } := by
        rw [repoint, hkind]
        rfl
      rw [hrep]
      exact ⟨rfl, rfl, rfl, hacc _ rfl⟩
    · have hrep : repoint (ended s l (.good content)) a = { ended s l (.good content) with
          commits := s.commits.map (fun x => if x.bid = bid ∧ x.loc = a.orig then { x with loc := a.place } else x) } := by
        rw [repoint, hkind, hbid]
        rfl
      rw [hrep]
      exact ⟨rfl, rfl, rfl, hacc _ rfl⟩
    · rw [namesOriginal_stale hstale] at hn
      cases hn

/-! ### A copy that fails (R151) -/

/-- The reclaim context as a copy restarts. -/
def copyRetriedCtx (r : Reclaim) (a : Attempt) : Reclaim :=
  { r with copyRetried := true, attempt := some { a with retried := true } }

/-- `s` as a copy restarts. -/
def copyRestarted (s : State) (r : Reclaim) (a : Attempt) : State :=
  { segmentFaulted s a.place.seg (extentOf a.hdr.len) with rc := { s.rc with ctx := some (copyRetriedCtx r a) } }

theorem copyFault_eq (hreq : s.eng.haltReq = false) : copyFault s r a = if a.retried = true
    then victimLeaves (segmentFaulted s a.place.seg (extentOf a.hdr.len)) r .copyFaulted
    else admitCopy (copyRestarted s r a) (copyRetriedCtx r a) { a with retried := true } none := by
  simp only [copyFault, fault_closes, hreq, Bool.false_eq_true, if_false]
  rfl

/-- A victim that returns (R151). -/
def asClosed (x : SegEntry) : SegEntry :=
  { x with st := match x.st with
    | .reclaiming j => .closed j
    | st => st }

theorem returnVictim_eq (s : State) (v : Nat) : returnVictim s v = entryChanged s v asClosed :=
  segUpd_quiet v asClosed fun x _ _ hf => by
    have hfree : x.st = .free := by simpa [SegEntry.isFree] using hf
    simp [asClosed, SegEntry.isFree, hfree]

/-- Another segment's entry stands as it was. -/
theorem mem_entryChanged_other {n : Nat} {x : SegEntry} (g : SegEntry → SegEntry) (hx : x ∈ s.sm.table) (hn : x.num ≠ n) :
    x ∈ (entryChanged s n g).sm.table := List.mem_map.2 ⟨x, hx, if_neg hn⟩

/-- The victim of a copy that failed twice returns to CLOSED. -/
theorem copyFaulted_leaves (hi : s.inflight = none) : victimLeaves s r .copyFaulted =
    { entryChanged s r.victim asClosed with holder := .none, rc := { s.rc with ctx := none } } := by
  have hr : returnVictim { s with rc := { s.rc with ctx := none }, holder := .none } r.victim =
      { entryChanged s r.victim asClosed with holder := .none, rc := { s.rc with ctx := none } } := returnVictim_eq _ _
  have hi' : ({ entryChanged s r.victim asClosed with holder := .none, rc := { s.rc with ctx := none } } : State).inflight = none := hi
  simp only [victimLeaves, hr, tellTrigger, hi']

/-- A copy that restarts opens the least worn FREE segment (R32, R36). -/
theorem admitCopy_opens {n : Nat} (hO : tableOrdered s) (hopen : openSegment s = none) (hx : s.sm.exhausted = false)
    (hf : 1 ≤ freeCount s) (hn : leastWorn s n) (hreq : s.eng.haltReq = false) (hctx : s.rc.ctx = some r) :
    admitCopy s r a none = { s with
      sm := { s.sm with
        nextEpoch := if s.sm.nextEpoch = 0xFFFFFFFF#32 then s.sm.nextEpoch else s.sm.nextEpoch + 1
        exhausted := if s.sm.nextEpoch = 0xFFFFFFFF#32 then true else s.sm.exhausted }
      seqr := some (.program ⟨n, 1⟩ (openLine s.sm.nextEpoch s.eng.volId))
      rc := { s.rc with ctx := some { r with attempt := some a, step := .admission ⟨n, s.sm.nextEpoch, none, none⟩ } } } := by
  rw [admitCopy, if_neg (by simp [hreq]), findPlace_opens hO (noRoom_of_none hopen _) hx hf hn]
  simp only [startOpening, closeOpen_of_none hopen, takeEpoch_eq, issue, hreq, modRc, hctx, Bool.false_eq_true, if_false,
    Option.map_some]

section fault

variable {x : SegEntry} {j : Journal}

theorem copy_gives_up {v : Journal} (h : copying s r a k l content) (hw : ArrayOk s.array) (hl : inArray l = true)
    (hO : tableOrdered s) (he : e = 2 + (a.hdr.len + 15) / 16) (hx : x ∈ s.sm.table) (hn : x.num = a.place.seg)
    (hst : x.st = .opened j) (hr : a.retried = true) (hv : standsAs s r.victim (.reclaiming v))
    (hi : s.inflight = none) : ∃ u, exec .programDeadlineExpiry s = .next u
      ∧ lineAt u l = .torn ∧ faultClosed x e ∈ u.sm.table ∧ u.alert.flags.getLsbD 2 = true
      ∧ standsAs u r.victim (.closed v) ∧ u.rc = { s.rc with ctx := none } ∧ u.eng = s.eng ∧ u.dir = s.dir
      ∧ u.holder = .none ∧ u.seqr = none := by
  have hext : extentOf a.hdr.len = e := he.symm
  have hne : a.place.seg ≠ r.victim := ne_of_standing hO ⟨x, hx, hn, hst⟩ hv (fun h => nomatch h)
  have hreport := copy_faulted h
  rw [copyFault_eq (s := ended s l .torn) h.notHalting, if_pos hr, hext,
    copyFaulted_leaves (s := segmentFaulted (ended s l .torn) a.place.seg e) hi] at hreport
  refine ⟨_, hreport.trans (reported_idle h.notHalting rfl), (lineAt_congr rfl l).trans (lineAt_setLine_same s l .torn hw hl), ?_,
    segmentFaulted_flag (ended s l .torn) a.place.seg e, ?_, rfl, rfl, rfl, rfl, rfl⟩
  · exact mem_entryChanged_other asClosed (mem_segmentFaulted (s := ended s l .torn) e hx hn) (hn ▸ hne)
  · obtain ⟨y, hy, hyn, hys⟩ := hv
    have hy' : y ∈ (segmentFaulted (ended s l .torn) a.place.seg e).sm.table :=
      mem_entryChanged_other (s := ended s l .torn) _ hy (hyn ▸ hne.symm)
    exact ⟨asClosed y, mem_entryChanged asClosed hy' hyn, hyn, by simp only [asClosed, hys]⟩

theorem copy_restarts {n : Nat} (h : copying s r a k l content) (hw : ArrayOk s.array) (hl : inArray l = true)
    (hseg : l.seg = a.place.seg) (hO : tableOrdered s) (he : e = 2 + (a.hdr.len + 15) / 16) (hx : x ∈ s.sm.table)
    (hn : x.num = a.place.seg) (hst : x.st = .opened j) (hr : a.retried = false)
    (hex : s.sm.exhausted = false) (hf : 1 ≤ freeCount s) (hleast : leastWorn s n)
    (hopen : ∀ y z, standsAs s y (.opened z) → y = a.place.seg) (herased : lineAt s ⟨n, 1⟩ = .erased) :
    ∃ u, exec .programDeadlineExpiry s = .next u
      ∧ lineAt u l = .torn ∧ faultClosed x e ∈ u.sm.table ∧ u.alert.flags.getLsbD 2 = true
      ∧ u.rc = { s.rc with ctx := some { r with
        copyRetried := true, attempt := some { a with retried := true }
        step := .admission ⟨n, s.sm.nextEpoch, none, none⟩ } }
      ∧ u.seqr = some (.program ⟨n, 1⟩ (openLine s.sm.nextEpoch s.eng.volId)) ∧ u.holder = .reclaim ∧ u.dir = s.dir := by
  have hext : extentOf a.hdr.len = e := he.symm
  have hne : n ≠ a.place.seg := ne_of_standing hO (leastWorn_stands hleast) ⟨x, hx, hn, hst⟩ (fun h => nomatch h)
  have hline : (⟨n, 1⟩ : Loc) ≠ l := fun h => hne (hseg ▸ congrArg Loc.seg h)
  have hreport := copy_faulted h
  have hcount : freeCount (copyRestarted (ended s l .torn) r a) = freeCount s :=
    freeCount_segmentFaulted (ended s l .torn) a.place.seg _
  rw [copyFault_eq (s := ended s l .torn) h.notHalting, if_neg (by simp [hr]), admitCopy_opens (s := copyRestarted (ended s l .torn) r a)
    (n := n) (tableOrdered_segmentFaulted (s := ended s l .torn) a.place.seg _ hO)
    (openSegment_segmentFaulted (s := ended s l .torn) _ hopen) hex (hcount.symm ▸ hf)
    (leastWorn_segmentFaulted (s := ended s l .torn) a.place.seg _ hleast) h.notHalting rfl] at hreport
  have hmem : faultClosed x e ∈ (segmentFaulted (ended s l .torn) a.place.seg (extentOf a.hdr.len)).sm.table := by
    rw [hext]
    exact mem_segmentFaulted (s := ended s l .torn) e hx hn
  refine ⟨_, hreport.trans (reported_erased h.notHalting rfl ((lineAt_congr rfl _).trans ((lineAt_ended s l ⟨n, 1⟩ .torn hline).trans herased))),
    (lineAt_congr rfl l).trans (lineAt_setLine_same s l .torn hw hl), ?_, segmentFaulted_flag (ended s l .torn) a.place.seg _, rfl, rfl,
    (copying_operating h).holder_eq, rfl⟩
  exact hmem

end fault

end

/-- Settles O58: the fate of the record read, the end of a copy, and the two ends of a fault on one. -/
theorem walkDecidesByLiveness : Obligations.WalkDecidesByLiveness := by
  refine ⟨fun s r l hw => ⟨walk_ends hw, fun h e hp he => ⟨walk_passes hw hp he, copy_reads hw hp,
    fun n j hn hd hlen ho hroom her => copy_places hw hp hn hd hlen ho hroom her, walk_drops hw hp he⟩⟩,
    fun s r a k e l content h hk he => copy_ends h hk he, fun s r a k e l content x j h hw hl hseg hO he hx hn hst hfit => ?_⟩
  have hclosed := faultClosed_opened hst hfit
  refine ⟨fun v hr hv hi => ?_, fun n hr hex hf hleast hopen her => ?_⟩
  · rw [← hclosed]
    exact copy_gives_up h hw hl hO he hx hn hst hr hv hi
  · rw [← hclosed]
    exact copy_restarts h hw hl hseg hO he hx hn hst hr hex hf hleast hopen her

end Sys2Proof.Machine
end

