-- ==== Sys2Proof/Proofs/Preparation.lean ====
section
/-! The preparation sequence of SETTLE (R29, R30, R42–R44, R167). -/

namespace Sys2Proof.Machine

/-! ### The end of an erase -/

theorem operating_erased {s : State} {n : Nat} {h : Holder} (ho : operating s h (.erase n)) :
    exec .eraseDone s = reported (onReport { eraseSegment s n with seqr := none } ⟨n, 0⟩ .eraseDone) := by
  obtain ⟨hr, hsr, -, -, hq⟩ := ho
  refine ifHigh_of_resetHigh hr ?_
  rw [eraseDone_of hq]
  exact if_neg (by simp [eraseSegment, hsr])

theorem operating_erase_expired {s : State} {n : Nat} {h : Holder} (ho : operating s h (.erase n)) :
    exec .eraseDeadlineExpiry s = reported (onReport { partialErase s n with seqr := none } ⟨n, 0⟩ .eraseFault) := by
  obtain ⟨hr, hsr, -, -, hq⟩ := ho
  refine ifHigh_of_resetHigh hr ?_
  obtain ⟨m, hm⟩ := partialErase_eq s n
  rw [eraseExpires_of hq, hm]
  exact if_neg (by simp [hsr])

/-- The entry of a segment whose erase has ended (R43). -/
def eraseCounted (e : SegEntry) : SegEntry := { e with eraseCount := min (e.eraseCount + 1) 0xFFFFFF }

/-- An erase that ends counts in the table; the dropped-marker counts may fall to 0 (R149). -/
theorem eraseEnded_eq (s : State) (n : Nat) : ∃ rc, eraseEnded s n = { entryChanged s n eraseCounted with rc := rc } := by
  have h : segUpd s n eraseCounted = entryChanged s n eraseCounted := segUpd_quiet n eraseCounted fun _ _ _ hf => hf
  unfold eraseEnded
  split
  · exact ⟨_, congrArg (fun t : State => { t with rc := { t.rc with droppedTombs := 0, droppedCommits := 0 } }) h⟩
  · exact ⟨_, h⟩

theorem segEntry_erased {s : State} {n : Nat} {e : SegEntry} (he : segEntry s n = some e) :
    segEntry (entryChanged s n eraseCounted) n = some (eraseCounted e) := by
  rw [segEntry_entryChanged s n n eraseCounted (fun _ => rfl), he, Option.map_some, if_pos (segEntry_num he)]

/-! ### SETTLE -/

section

variable {s t : State} {n : Nat} {p q : PrepStage}

/-- The sequence of segment `n` stands at stage `p`. -/
def settlingAt (s : State) (n : Nat) (p : PrepStage) : Prop :=
  s.holder = .mount ∧ s.mu.phase = .settle ∧ s.mu.settling = some (n, p)

/-- The sequence goes on with stage `q`. -/
theorem settle_goes (h : settlingAt s n p) (loc : Loc) (rep : Report)
    (hr : prepReport s n p s.mu.foundVid rep = (t, some q)) :
    onReport s loc rep = modMu t (fun m => { m with settling := some (n, q) }) := by
  obtain ⟨hh, hp, hs⟩ := h
  simp only [onReport, hh, mountReport, hp, settleReport, hs, hr]

/-- The sequence has ended, and SETTLE goes on with the next segment. -/
theorem settle_ends (h : settlingAt s n p) (loc : Loc) (rep : Report)
    (hr : prepReport s n p s.mu.foundVid rep = (t, none)) : onReport s loc rep = settleNext t := by
  obtain ⟨hh, hp, hs⟩ := h
  simp only [onReport, hh, mountReport, hp, settleReport, hs, hr]

end

/-- A change of an entry does not see the operation that has ended. -/
theorem entryNow_ended (s : State) (l : Loc) (v : Line) (n : Nat) (g : SegEntry → SegEntry) (b : Byte) :
    entryNow (ended s l v) n g b = entryNow (setLine s l v) n g b := by
  obtain ⟨m, hm⟩ := setLine_eq s l v
  simp only [entryNow, ended, hm]

/-- A completed erase is followed by the program of the preparation line (R29, R43). -/
theorem settle_erased_goes {s : State} {n : Nat} {e : SegEntry} (h : settlingAt s n .erase) (hreq : s.eng.haltReq = false)
    (he : segEntry s n = some e) (loc : Loc) : ∃ rc, onReport s loc .eraseDone = { entryChanged s n eraseCounted with
      rc := rc, mu := { s.mu with settling := some (n, if e.retirePending then .retireProg else .spare) }
      seqr := some (.program ⟨n, 0⟩ (prepLine (if e.retirePending then 0xA5 else 0x5A) s.mu.foundVid
        (eraseCounted e).eraseCount)) } := by
  obtain ⟨rc, hrc⟩ := eraseEnded_eq s n
  have hentry : segEntry { entryChanged s n eraseCounted with rc := rc } n = some (eraseCounted e) := segEntry_erased he
  have hpend : retirePendingOf { entryChanged s n eraseCounted with rc := rc } n = e.retirePending := by
    rw [retirePendingOf, hentry]
    rfl
  have hcount : eraseCountOf { entryChanged s n eraseCounted with rc := rc } n = (eraseCounted e).eraseCount := by
    rw [eraseCountOf, hentry]
    rfl
  refine ⟨rc, ?_⟩
  cases hret : e.retirePending with
  | true =>
    refine settle_goes h loc .eraseDone (t := { entryChanged s n eraseCounted with
      rc := rc, seqr := some (.program ⟨n, 0⟩ (prepLine 0xA5 s.mu.foundVid (eraseCounted e).eraseCount)) }) (q := .retireProg) ?_
    rw [hret] at hpend
    simp only [prepReport, hrc, hpend, if_true, prepIssue, issue, hcount]
    rw [if_neg (by simp [entryChanged, hreq])]
    rfl
  | false =>
    refine settle_goes h loc .eraseDone (t := { entryChanged s n eraseCounted with
      rc := rc, seqr := some (.program ⟨n, 0⟩ (prepLine 0x5A s.mu.foundVid (eraseCounted e).eraseCount)) }) (q := .spare) ?_
    rw [hret] at hpend
    simp only [prepReport, hrc, hpend, Bool.false_eq_true, if_false, prepIssue, issue, hcount]
    rw [if_neg (by simp [entryChanged, hreq])]
    rfl

/-- A failed erase is followed by the read of line 0 (R44). -/
theorem settle_erase_fails {s : State} {n : Nat} (h : settlingAt s n .erase) (hreq : s.eng.haltReq = false) (loc : Loc) :
    ∃ rc, onReport s loc .eraseFault = { entryChanged s n eraseCounted with
      rc := rc, mu := { s.mu with settling := some (n, .retireRead) }, seqr := some (.read ⟨n, 0⟩) } := by
  obtain ⟨rc, hrc⟩ := eraseEnded_eq s n
  refine ⟨rc, ?_⟩
  refine settle_goes h loc .eraseFault (t := { entryChanged s n eraseCounted with rc := rc, seqr := some (.read ⟨n, 0⟩) })
    (q := .retireRead) ?_
  simp only [prepReport, hrc, prepIssue, issue]
  rw [if_neg (by simp [entryChanged, hreq])]

/-! ### The preparation line -/

theorem segEntry_entryNow {s : State} {n : Nat} {e : SegEntry} (g : SegEntry → SegEntry) (b : Byte) (hg : ∀ e, (g e).num = e.num)
    (he : segEntry s n = some e) : segEntry (entryNow s n g b) n = some (g e) := by
  refine (segEntry_entryChanged s n n g hg).trans ?_
  rw [he, Option.map_some, if_pos (segEntry_num he)]

/-- A DIRTY segment made DIRTY stands as it was. -/
theorem setSegState_dirty {s : State} {n : Nat} (h : dirtyAt s n) : setSegState s n .dirty = s := by
  have hid : s.sm.table.map (fun e => if e.num = n then { e with st := .dirty } else e) = s.sm.table := by
    refine (List.map_congr_left fun e he => ?_).trans (List.map_id _)
    by_cases hn : e.num = n
    · rw [if_pos hn, ← h e he hn]
      rfl
    · rw [if_neg hn]
      rfl
  rw [setSegState, segUpd_dirty _ h, hid]

/-- A fault of the preparation line is counted; the second begins the retirement (R30, R44). -/
theorem prep_faulted {s : State} {n : Nat} {e : SegEntry} (hd : dirtyAt s n) (hq : s.seqr = none) (he : segEntry s n = some e)
    (vid : Word) (f : FaultCause) : prepReport s n .spare vid (.programFault f) =
      let q : PrepStage := if (faultCounted e).retirePending then .retireRead else .erase
      (prepIssue (entryNow s n faultCounted 0x04) n q vid, some q) := by
  have hd' : dirtyAt (entryNow s n faultCounted 0x04) n := dirtyAt_entryNow hd fun _ _ h => h
  have hpend : retirePendingOf (entryNow s n faultCounted 0x04) n = (faultCounted e).retirePending := by
    rw [retirePendingOf, segEntry_entryNow faultCounted 0x04 (fun _ => rfl) he]
    rfl
  simp only [prepReport, countFault_eq hd hq, setSegState_dirty hd', hpend]

/-- The two ends of the erase of a DIRTY segment. -/
theorem erase_ends {s : State} {n : Nat} {e : SegEntry} (h : settlingAt s n .erase) (ho : operating s .mount (.erase n))
    (hn : n < 64) (hw : ArrayOk s.array) (he : segEntry s n = some e) :
    (∃ u, exec .eraseDone s = .next u ∧ (∀ k, k < 256 → lineAt u ⟨n, k⟩ = .erased) ∧ segEntry u n = some (eraseCounted e)
      ∧ u.seqr = some (.program ⟨n, 0⟩
        (prepLine (if e.retirePending then 0xA5 else 0x5A) s.mu.foundVid (eraseCounted e).eraseCount))
      ∧ u.mu = { s.mu with settling := some (n, if e.retirePending then .retireProg else .spare) } ∧ u.holder = .mount)
    ∧ ∃ u, exec .eraseDeadlineExpiry s = .next u ∧ segEntry u n = some (eraseCounted e)
      ∧ (∀ k, k < 256 → lineAt u ⟨n, k⟩ = .erased ∨ lineAt u ⟨n, k⟩ = .torn)
      ∧ u.seqr = some (.read ⟨n, 0⟩) ∧ u.mu = { s.mu with settling := some (n, .retireRead) } ∧ u.holder = .mount := by
  have hreq := ho.notHalting
  have hin : ∀ k, k < 256 → inArray ⟨n, k⟩ = true := fun k hk => by simp [inArray, hn, hk]
  refine ⟨?_, ?_⟩
  · have herased : ∀ k, k < 256 → lineAt (eraseSegment s n) ⟨n, k⟩ = .erased := fun k hk =>
      (lineAt_eraseSegment s n ⟨n, k⟩ (hin k hk)).trans (if_pos rfl)
    obtain ⟨rc, hrc⟩ := settle_erased_goes (s := { eraseSegment s n with seqr := none }) h hreq he ⟨n, 0⟩
    have hreport := operating_erased ho
    rw [hrc] at hreport
    exact ⟨_, hreport.trans (reported_erased hreq rfl (herased 0 (by omega))), herased, segEntry_erased he, rfl, rfl, h.1⟩
  · obtain ⟨m, hm⟩ := partialErase_eq s n
    have hlines : ∀ k, k < 256 → lineAt (partialErase s n) ⟨n, k⟩ = .erased ∨ lineAt (partialErase s n) ⟨n, k⟩ = .torn :=
      fun k hk => lineAt_partialErase_in s n ⟨n, k⟩ hw (hin k hk) rfl
    have hreport := operating_erase_expired ho
    rw [hm] at hreport hlines
    obtain ⟨rc, hrc⟩ := settle_erase_fails (s := { s with array := m, free := s.free + 1, seqr := none }) h hreq ⟨n, 0⟩
    exact ⟨_, hreport.trans ((congrArg reported hrc).trans (reported_eq hreq (fun _ _ h => nomatch h))), segEntry_erased he, hlines,
      rfl, rfl, h.1⟩

/-- The two ends of the program of the SPARE preparation line. -/
theorem spare_ends {s : State} {n : Nat} {content : LineBits} {e : SegEntry} (h : settlingAt s n .spare)
    (ho : operating s .mount (.program ⟨n, 0⟩ content)) (hO : tableOrdered s) (he : segEntry s n = some e) (hd : e.st = .dirty) :
    settleGoesOn (entryNow (setLine s ⟨n, 0⟩ (.good content)) n (fun x => { x with st := .free, known := true }) 0)
        (exec .programDone s)
      ∧ (e.retirePending = false → e.faults = 0 →
        exec .programDeadlineExpiry s = .next { entryNow (setLine s ⟨n, 0⟩ .torn) n faultCounted 0x04 with
          mu := { s.mu with settling := some (n, .erase) }, seqr := some (.erase n) })
      ∧ (e.retirePending = true ∨ 1 ≤ e.faults →
        exec .programDeadlineExpiry s = .next { entryNow (setLine s ⟨n, 0⟩ .torn) n faultCounted 0x04 with
          mu := { s.mu with settling := some (n, .retireRead) }, seqr := some (.read ⟨n, 0⟩) }) := by
  have hreq := ho.notHalting
  have hdirty : ∀ v, dirtyAt (ended s ⟨n, 0⟩ v) n := fun v => dirtyAt_of (s := s) hO he hd
  have faulted : ∀ q : PrepStage, ((if (faultCounted e).retirePending then .retireRead else .erase) : PrepStage) = q →
      exec .programDeadlineExpiry s = reported (modMu (prepIssue (entryNow (ended s ⟨n, 0⟩ .torn) n faultCounted 0x04) n q s.mu.foundVid)
        (fun m => { m with settling := some (n, q) })) := by
    rintro q rfl
    rw [operating_expired ho, settle_goes (s := ended s ⟨n, 0⟩ .torn) h ⟨n, 0⟩ _
      (prep_faulted (hdirty .torn) rfl he s.mu.foundVid .expired)]
  refine ⟨?_, fun hp hf => ?_, fun hp => ?_⟩
  · have hprep : prepReport (ended s ⟨n, 0⟩ (.good content)) n .spare s.mu.foundVid .programDone =
        (entryNow (setLine s ⟨n, 0⟩ (.good content)) n (fun x => { x with st := .free, known := true }) 0, none) := by
      rw [← entryNow_ended, ← segmentPrepared_eq (hdirty _) rfl]
      rfl
    rw [operating_done ho, settle_ends (s := ended s ⟨n, 0⟩ (.good content)) h ⟨n, 0⟩ _ hprep, ← entryNow_ended]
    exact settleNext_goes (tableOrdered_entryNow (s := ended s ⟨n, 0⟩ (.good content)) hO fun _ => rfl) hreq rfl
  · rw [faulted .erase (if_neg (by simp [faultCounted, hp, hf])), ← entryNow_ended]
    simp only [prepIssue, issue]
    rw [if_neg (by simp [entryNow, ended, hreq])]
    exact reported_eq hreq (fun _ _ h => nomatch h)
  · have hpend : (faultCounted e).retirePending = true := by
      rcases hp with hp | hp
      · simp [faultCounted, hp]
      · have : 2 ≤ e.faults + 1 := by omega
        simp [faultCounted, this]
    rw [faulted .retireRead (if_pos hpend), ← entryNow_ended]
    simp only [prepIssue, issue]
    rw [if_neg (by simp [entryNow, ended, hreq])]
    exact reported_eq hreq (fun _ _ h => nomatch h)

/-- The end of the read of line 0 that precedes a retirement. -/
theorem retireRead_ends {s : State} {n : Nat} {e : SegEntry} (h : settlingAt s n .retireRead)
    (ho : operating s .mount (.read ⟨n, 0⟩)) (hst : s.eng.store = .mounting) (hO : tableOrdered s) (he : segEntry s n = some e)
    (hd : e.st = .dirty) :
    (lineAt s ⟨n, 0⟩ = .erased → exec .readDone s = .next { s with
        mu := { s.mu with settling := some (n, .retireProg) }
        seqr := some (.program ⟨n, 0⟩ (prepLine 0xA5 s.mu.foundVid e.eraseCount)) })
      ∧ (lineAt s ⟨n, 0⟩ ≠ .erased →
        settleGoesOn (entryNow s n (fun x => { x with st := .retired }) 0x04) (exec .readDone s)) := by
  have hreq := ho.notHalting
  have hdirty : dirtyAt (atRest s) n := dirtyAt_of (s := s) hO he hd
  have hready : (atRest s).eng.store ≠ .ready := by
    intro hc
    rw [show (atRest s).eng.store = .mounting from hst] at hc
    cases hc
  have hreport : exec .readDone s = reported (onReport (atRest s) ⟨n, 0⟩ (.readDone (lineAt s ⟨n, 0⟩))) := operating_read ho
  refine ⟨fun hl => ?_, fun hl => ?_⟩
  · have hcount : eraseCountOf (atRest s) n = e.eraseCount := by
      rw [eraseCountOf, show segEntry (atRest s) n = some e from he]
      rfl
    have hprep : prepReport (atRest s) n .retireRead s.mu.foundVid (.readDone (lineAt s ⟨n, 0⟩)) =
        ({ s with seqr := some (.program ⟨n, 0⟩ (prepLine 0xA5 s.mu.foundVid e.eraseCount)) }, some .retireProg) := by
      simp only [prepReport, hl, if_true, prepIssue, issue, hcount]
      rw [if_neg (by simp [atRest, hreq])]
      rfl
    rw [hreport, settle_goes (s := atRest s) h ⟨n, 0⟩ _ hprep]
    exact reported_erased hreq rfl hl
  · have hprep : prepReport (atRest s) n .retireRead s.mu.foundVid (.readDone (lineAt s ⟨n, 0⟩)) =
        (entryNow s n (fun x => { x with st := .retired }) 0x04, none) := by
      have hret : retireSegment (atRest s) n = entryNow s n (fun x => { x with st := .retired }) 0x04 :=
        retireSegment_eq hdirty hready rfl
      simp only [prepReport, hl, if_false, hret]
    rw [hreport, settle_ends (s := atRest s) h ⟨n, 0⟩ _ hprep]
    exact settleNext_goes (tableOrdered_entryNow hO fun _ => rfl) hreq rfl

/-- The two ends of the program of the RETIRED preparation line. -/
theorem retireProg_ends {s : State} {n : Nat} {content : LineBits} {e : SegEntry} (h : settlingAt s n .retireProg)
    (ho : operating s .mount (.program ⟨n, 0⟩ content)) (hst : s.eng.store = .mounting) (hO : tableOrdered s)
    (he : segEntry s n = some e) (hd : e.st = .dirty) :
    settleGoesOn (entryNow (setLine s ⟨n, 0⟩ (.good content)) n (fun x => { x with st := .retired, known := true }) 0x04)
        (exec .programDone s)
      ∧ settleGoesOn (entryNow (setLine s ⟨n, 0⟩ .torn) n (fun x => { faultCounted x with st := .retired }) 0x04)
        (exec .programDeadlineExpiry s) := by
  have hreq := ho.notHalting
  have hdirty : ∀ v, dirtyAt (ended s ⟨n, 0⟩ v) n := fun v => dirtyAt_of (s := s) hO he hd
  have hready : ∀ v, (ended s ⟨n, 0⟩ v).eng.store ≠ .ready := by
    intro v hc
    rw [show (ended s ⟨n, 0⟩ v).eng.store = .mounting from hst] at hc
    cases hc
  refine ⟨?_, ?_⟩
  · have hprep : prepReport (ended s ⟨n, 0⟩ (.good content)) n .retireProg s.mu.foundVid .programDone =
        (entryNow (ended s ⟨n, 0⟩ (.good content)) n (fun x => { x with st := .retired, known := true }) 0x04, none) := by
      rw [← retire_after_retired_line (hdirty _) (hready _) rfl]
      rfl
    rw [operating_done ho, settle_ends (s := ended s ⟨n, 0⟩ (.good content)) h ⟨n, 0⟩ _ hprep, ← entryNow_ended]
    exact settleNext_goes (tableOrdered_entryNow (s := ended s ⟨n, 0⟩ (.good content)) hO fun _ => rfl) hreq rfl
  · have hprep : prepReport (ended s ⟨n, 0⟩ .torn) n .retireProg s.mu.foundVid (.programFault .expired) =
        (entryNow (ended s ⟨n, 0⟩ .torn) n (fun x => { faultCounted x with st := .retired }) 0x04, none) := by
      rw [← retire_after_fault (hdirty _) (hready _) rfl]
      rfl
    rw [operating_expired ho, settle_ends (s := ended s ⟨n, 0⟩ .torn) h ⟨n, 0⟩ _ hprep, ← entryNow_ended]
    exact settleNext_goes (tableOrdered_entryNow (s := ended s ⟨n, 0⟩ .torn) hO fun _ => rfl) hreq rfl

/-- Settles O55: each stage of the sequence, in the order that SETTLE takes them. -/
theorem eraseEndsInPreparationOrRetirement : Obligations.EraseEndsInPreparationOrRetirement := by
  refine ⟨fun s n e hr hsr hreq hh hp hs hq hn hw he => ?_, fun s n content e hp hst hO hn hw he hd =>
    ⟨fun hs ho => ?_, fun hs ho => ?_, fun hs ho => ?_⟩⟩
  · exact erase_ends ⟨hh, hp, hs⟩ ⟨hr, hsr, hreq, hh, hq⟩ hn hw he
  · exact spare_ends ⟨ho.holder_eq, hp, hs⟩ ho hO he hd
  · exact retireRead_ends ⟨ho.holder_eq, hp, hs⟩ ho hst hO he hd
  · exact retireProg_ends ⟨ho.holder_eq, hp, hs⟩ ho hst hO he hd

end Sys2Proof.Machine
end

