-- ==== Sys2Proof/Proofs/Reading.lean ====
section
/-! What GET and LIST read and answer (R127–R136). -/

namespace Sys2Proof.Machine

/-! ### At the grant -/

theorem read_settled {s : State} {l : Loc} (h : s.eng.haltReq = false) :
    settleRefused 8 (issue s (.read l)) = { s with seqr := some (.read l) } := by
  rw [issue, h]
  exact settle_other (by simp)

/-- The state check admits a GET or a LIST of a mounted store (R67). -/
theorem stateCheck_reads {st : StoreState} {c : Cmd} (h : st = .ready ∨ st = .readOnly)
    (hc : (∃ k buf, c = .get k buf) ∨ ∃ after buf count, c = .list after buf count) : stateCheck st c = none := by
  rcases h with rfl | rfl <;> rcases hc with ⟨_, _, rfl⟩ | ⟨_, _, _, rfl⟩ <;> rfl

theorem execute_get {s : State} {h : Head} {k : Key} {buf : Nat} (hm : mounted s) (hc : h.cmd = .get k buf) :
    execute (grantedWith s h (freshCtx h)) (freshCtx h) = startGet (grantedWith s h (freshCtx h)) k := by
  rw [execute_passed (s := grantedWith s h _) (stateCheck_reads hm (.inl ⟨k, buf, hc⟩)),
    show (freshCtx h).cmd = .get k buf from hc]
  rfl

theorem execute_list {s : State} {h : Head} {after : Key} {buf count : Nat} (hm : mounted s)
    (hc : h.cmd = .list after buf count) :
    execute (grantedWith s h (freshCtx h)) (freshCtx h) = startList (grantedWith s h (freshCtx h)) after := by
  rw [execute_passed (s := grantedWith s h _) (stateCheck_reads hm (.inr ⟨after, buf, count, hc⟩)),
    show (freshCtx h).cmd = .list after buf count from hc]
  rfl

theorem get_granted {s : State} {h : Head} {k : Key} {buf : Nat} (ha : headAlone s h) (hm : mounted s)
    (hc : h.cmd = .get k buf) :
    ((∀ p, ¬ presentAs s k p) →
      exec .arbiterGrant s = .next (answeredAtGrant s h ⟨.notFound, 0, 0, 0, false, false, false⟩))
    ∧ ∀ p, presentAs s k p →
      (p.len = 0 → exec .arbiterGrant s = .next (answeredAtGrant s h ⟨.ok, 0, p.seq, 0, false, false, false⟩))
      ∧ (p.len ≠ 0 → exec .arbiterGrant s = .next { grantedWith s h { freshCtx h with
          stage := .read, job := ⟨p.loc, p.len, p.seq, 1, 0, 0, []⟩ } with
        holder := .command, seqr := some (.read ⟨p.loc.seg, p.loc.line + 1⟩) }) := by
  have hg : granting s := hm.elim .inl fun h => .inr (.inl h)
  obtain ⟨-, -, -, hf, -⟩ := ha.1
  have hp : ∀ p, presentAs s k p → presentPart (grantedWith s h (freshCtx h)) k = some p :=
    fun p hp => presentPart_some (s := s).2 hp
  refine ⟨fun hn => ?_, fun p hpres => ⟨fun hz => ?_, fun hnz => ?_⟩⟩
  · refine grant_done ha hg _ ((execute_get hm hc).trans ?_)
    rw [startGet, show presentPart (grantedWith s h (freshCtx h)) k = none from presentPart_none (s := s) hn]
    rfl
  · refine grant_done ha hg _ ((execute_get hm hc).trans ?_)
    simp only [startGet, hp p hpres, hz, if_true]
  · rw [grant_head ha hg, execute_get hm hc]
    simp only [startGet, hp p hpres, if_neg hnz]
    exact congrArg Host.Outcome.next (read_settled hf)

/-! ### The lowest present key above another (R133) -/

/-- What the successor scan takes from one entry. -/
def above (k : Key) (e : DirEntry) : Option (Key × Part) :=
  if k < e.key && e.present then e.committed.map (fun p => (e.key, p)) else none

theorem above_some {k : Key} {e : DirEntry} {y : Key × Part} :
    above k e = some y ↔ k < e.key ∧ y.1 = e.key ∧ e.committed = some y.2 ∧ y.2.tomb = false := by
  obtain ⟨x, p⟩ := y
  unfold above DirEntry.present
  cases hp : e.committed with
  | none => simp
  | some q =>
    cases ht : q.tomb <;> grind

theorem successor_none {s : State} {k : Key} (h : DirOk s.dir) (hn : ∀ x p, presentAs s x p → x ≤ k) :
    successor s.dir k = none := by
  refine List.findSome?_eq_none_iff.2 fun e he => ?_
  show above k e = none
  cases ha : above k e with
  | none => rfl
  | some y =>
    obtain ⟨hlt, -, hp, ht⟩ := above_some.1 ha
    exact absurd hlt (BitVec.not_lt.2 (hn e.key y.2 ⟨e, dirLookup_of_mem h.1 he, hp, ht⟩))

theorem successor_some {s : State} {k x : Key} {p : Part} (h : DirOk s.dir) (hl : lowestAbove s k x p) :
    successor s.dir k = some (x, p) := by
  obtain ⟨⟨e, hx, hp, ht⟩, hlt, hmin⟩ := hl
  obtain ⟨he, rfl⟩ := dirLookup_mem hx
  have htake : above k e = some (e.key, p) := above_some.2 ⟨hlt, rfl, hp, ht⟩
  cases hs : successor s.dir k with
  | none => exact absurd ((List.findSome?_eq_none_iff.1 hs e he).symm.trans htake) nofun
  | some y =>
    obtain ⟨front, a, rest, hd, hya, hnone⟩ := List.findSome?_eq_some_iff.1 hs
    have hya : above k a = some y := hya
    obtain ⟨hka, -, hap, hat⟩ := above_some.1 hya
    have hmem : a ∈ s.dir := hd ▸ by simp
    have hle : e.key ≤ a.key := hmin a.key y.2 ⟨a, dirLookup_of_mem h.1 hmem, hap, hat⟩ hka
    rcases List.mem_append.1 (hd ▸ he) with hfront | hback
    · exact absurd ((hnone e hfront).symm.trans htake) nofun
    · rcases List.mem_cons.1 hback with rfl | hrest
      · exact hya.symm.trans htake
      · have hsorted := (List.pairwise_append.1 (hd ▸ h.1)).2.1
        exact absurd ((List.pairwise_cons.1 hsorted).1 e hrest) (BitVec.not_lt.2 hle)

theorem list_granted {s : State} {h : Head} {after : Key} {buf count : Nat} (ha : headAlone s h) (hm : mounted s)
    (hc : h.cmd = .list after buf count) (hd : DirOk s.dir) :
    ((∀ k p, presentAs s k p → k ≤ after) →
      exec .arbiterGrant s = .next (answeredAtGrant s h ⟨.ok, 0, 0, 0, true, false, false⟩))
    ∧ ∀ k p, lowestAbove s after k p →
      exec .arbiterGrant s = .next { grantedWith s h { freshCtx h with
          stage := .read, job := ⟨p.loc, p.len, 0, 0, k, 0, []⟩ } with
        holder := .command, seqr := some (.read p.loc) } := by
  have hg : granting s := hm.elim .inl fun h => .inr (.inl h)
  obtain ⟨-, -, -, hf, -⟩ := ha.1
  refine ⟨fun hn => ?_, fun k p hl => ?_⟩
  · refine grant_done ha hg _ ((execute_list hm hc).trans ?_)
    rw [startList, show successor (grantedWith s h (freshCtx h)).dir after = none from successor_none hd hn]
    rfl
  · rw [grant_head ha hg, execute_list hm hc]
    rw [startList, show successor (grantedWith s h (freshCtx h)).dir after = some (k, p) from successor_some hd hl]
    exact congrArg Host.Outcome.next (read_settled hf)

/-! ### Placing what was read (R128, R134) -/

theorem stagingWriteList_eq (l : List Byte) : ∀ (s : State) (b i : Nat),
    stagingWriteList s b i l = { s with staging := (stagingWriteList s b i l).staging } := by
  induction l with
  | nil => exact fun s b i => rfl
  | cons v l ih =>
    intro s b i
    rw [stagingWriteList, ih (stagingWrite s b i v) b (i + 1)]
    rfl

theorem stagingAddr_inj {b c i k : Nat} (hi : i < 256) (hk : k < 256) (h : stagingAddr c k = stagingAddr b i) :
    c = b ∧ k = i := by
  unfold stagingAddr at h
  omega

/-- A run of bytes written within buffer `b` reads back there and nowhere else. -/
theorem stagingRead_writeList (l : List Byte) : ∀ (s : State) (b i : Nat), StagingOk s.staging → i + l.length ≤ 256 →
    ∀ c k, k < 256 → stagingRead (stagingWriteList s b i l) c k =
      if c = b ∧ i ≤ k ∧ k < i + l.length then l.getD (k - i) 0 else stagingRead s c k := by
  induction l with
  | nil =>
    intro s b i _ _ c k _
    rw [if_neg (by simp only [List.length_nil]; omega)]
    rfl
  | cons v l ih =>
    intro s b i hok hlen c k hk
    rw [List.length_cons] at hlen ⊢
    rw [stagingWriteList, ih (stagingWrite s b i v) b (i + 1) (stagingWf_write s b i v hok) (by omega) c k hk]
    by_cases hat : c = b ∧ k = i
    · obtain ⟨rfl, rfl⟩ := hat
      rw [if_neg (by omega), if_pos (by omega), stagingRead_write_same s c k v hok]
      simp
    · rw [stagingRead_write_other s b i c k v fun h => hat (stagingAddr_inj (by omega) hk h)]
      by_cases hin : c = b ∧ i ≤ k ∧ k < i + (l.length + 1)
      · rw [if_pos (by omega), if_pos hin, show k - i = k - (i + 1) + 1 by omega]
        rfl
      · rw [if_neg (by omega), if_neg hin]

/-- The staging buffers after `v` has been placed for `c`: the host's buffer takes it, an answer does not. -/
def stagingAfter (s : State) (c : Ctx) (buf i : Nat) (v : List Byte) : List Host.Cell :=
  match c.origin with
  | .host _ => (stagingWriteList s buf i v).staging
  | .mgmt .. => s.staging

/-- The state once `v` has been placed for `c` and its read job stands at `j`. -/
def fetched (s : State) (c : Ctx) (buf i : Nat) (v : List Byte) (j : ReadJob) : State :=
  { s with staging := stagingAfter s c buf i v, inflight := some { c with job := { j with out := gathered c v } } }

theorem placeBytes_eq {s : State} {c : Ctx} (hi : s.inflight = some c) (buf i : Nat) (v : List Byte) :
    placeBytes s c buf i v = fetched s c buf i v c.job := by
  obtain ⟨origin, cmd, stage, seq, retried, stopping, lost, tear, lines, place, job⟩ := c
  cases origin with
  | host t =>
    refine (stagingWriteList_eq v s buf i).trans ?_
    simp only [fetched, stagingAfter, gathered, ← hi]
  | mgmt b ftag => simp only [placeBytes, fetched, stagingAfter, gathered, modJob, modCtx, hi, Option.map_some]

theorem placedIn_fetched {s : State} {c : Ctx} {buf i : Nat} {v : List Byte} {u : State} (hok : StagingOk s.staging)
    (hlen : i + v.length ≤ 256) (hu : u.staging = stagingAfter s c buf i v) : placedIn s u c buf i v := by
  unfold placedIn
  unfold stagingAfter at hu
  cases ho : c.origin with
  | host t =>
    simp only [ho] at hu ⊢
    intro b k hk
    refine Eq.trans ?_ (stagingRead_writeList v s buf i hok hlen b k hk)
    rw [stagingRead, hu]
    rfl
  | mgmt b ftag =>
    simp only [ho] at hu ⊢
    exact hu

/-! ### At the end of a read -/

theorem operating_of_reading {s : State} {c : Ctx} {l : Loc} (h : readingFor s c l) : operating s .command (.read l) := by
  obtain ⟨hr, hsr, hreq, hh, -, hq, -, -⟩ := h
  exact ⟨hr, hsr, hreq, hh, hq⟩

/-- The read of a line for the command in flight ends in a state where it is still in flight and issues the next read. -/
theorem reported_read {x : State} {l : Loc} (h : x.eng.haltReq = false) :
    reported (issue x (.read l)) = .next { x with seqr := some (.read l) } := by
  rw [issue, h]
  exact reported_eq h (by simp)

/-- A command of which the read job stands at `j` completes. -/
theorem reported_fetched {s : State} {c : Ctx} {buf i : Nat} {v : List Byte} {j : ReadJob} {r : Result}
    (hreq : s.eng.haltReq = false) (hq : s.seqr = none) (hh : s.holder = .command) (ht : c.tearDue = false) :
    ∃ u, reported (complete (fetched s c buf i v j) r) = .next u ∧ u.staging = stagingAfter s c buf i v
      ∧ commandOver u ∧ handedTo s u c r (gathered c v) := by
  have hc := complete_ports (s := fetched s c buf i v j) r rfl ht
  refine ⟨_, (congrArg reported hc).trans (reported_idle hreq hq), rfl, over_published hh hq, ?_⟩
  exact handed_published (s := s) (u := fetched s c buf i v j) (c := { c with job := { j with out := gathered c v } }) rfl rfl

theorem length_lineBytes (c : LineBits) : (lineBytes c).length = 16 := by simp [lineBytes]

theorem onReport_get {s : State} {c : Ctx} {k : Key} {buf : Nat} (l : Loc) (x : Line) (hh : s.holder = .command)
    (hi : s.inflight = some c) (hc : c.cmd = .get k buf) (hs : c.stage = .read) :
    onReport s l (.readDone x) = getReport s c buf x := by
  simp only [onReport, hh, commandReport, hi, hs, hc]

theorem onReport_list {s : State} {c : Ctx} {after : Key} {buf count : Nat} (l : Loc) (x : Line) (hh : s.holder = .command)
    (hi : s.inflight = some c) (hc : c.cmd = .list after buf count) (hs : c.stage = .read) :
    onReport s l (.readDone x) = listReport s c buf count x := by
  simp only [onReport, hh, commandReport, hi, hs, hc]

/-- The end of the read of a data line that is GOOD (R128, R129). -/
theorem getReport_good {s : State} {c : Ctx} {buf n : Nat} {content : LineBits} {v : List Byte} (hi : s.inflight = some c)
    (hst : c.stopping = false) (hn : n = min 16 (c.job.len - c.job.placed)) (hv : v = (lineBytes content).take n) :
    getReport s c buf (.good content) =
      if c.job.k < (c.job.len + 15) / 16 then
        issue (fetched s c buf c.job.placed v { c.job with placed := c.job.placed + n, k := c.job.k + 1 })
          (.read ⟨c.job.loc.seg, c.job.loc.line + (c.job.k + 1)⟩)
      else complete (fetched s c buf c.job.placed v { c.job with placed := c.job.placed + n, k := c.job.k + 1 })
        ⟨.ok, c.job.len, c.job.seq, 0, false, false, false⟩ := by
  have htake : (lineBytes content).take (c.job.len - c.job.placed) = v := by
    rw [hv, hn, List.take_eq_take_iff, length_lineBytes]
    omega
  have hlen : v.length = n := by rw [hv, List.length_take, length_lineBytes, hn]; omega
  simp only [getReport, hst, Bool.false_eq_true, if_false, readContent, htake, placeBytes_eq hi, hlen]
  rfl

theorem get_read {s : State} {c : Ctx} {l : Loc} {content : LineBits} {k : Key} {buf n : Nat} {v : List Byte}
    (hr : readingFor s c l) (hc : c.cmd = .get k buf) (hs : c.stage = .read) (hl : lineAt s l = .good content)
    (hok : StagingOk s.staging) (hlen : c.job.len ≤ 240) (hpl : c.job.placed ≤ c.job.len)
    (hn : n = min 16 (c.job.len - c.job.placed)) (hv : v = (lineBytes content).take n) :
    ∃ u, exec .readDone s = .next u ∧ placedIn s u c buf c.job.placed v
      ∧ (c.job.k < (c.job.len + 15) / 16 →
        u.seqr = some (.read ⟨c.job.loc.seg, c.job.loc.line + (c.job.k + 1)⟩)
        ∧ u.inflight = some { c with
          job := { c.job with placed := c.job.placed + n, k := c.job.k + 1, out := gathered c v } })
      ∧ ((c.job.len + 15) / 16 ≤ c.job.k →
        commandOver u ∧ handedTo s u c ⟨.ok, c.job.len, c.job.seq, 0, false, false, false⟩ (gathered c v)) := by
  have ho := operating_of_reading hr
  obtain ⟨-, -, hreq, hh, hi, -, hst, ht⟩ := hr
  have hfit : c.job.placed + v.length ≤ 256 := by
    rw [hv, List.length_take, length_lineBytes]
    omega
  have hrep := (onReport_get (s := { s with seqr := none }) l (lineAt s l) hh hi hc hs).trans
    ((congrArg _ hl).trans (getReport_good (s := { s with seqr := none }) (buf := buf) hi hst hn hv))
  rw [operating_read ho, hrep]
  by_cases hmore : c.job.k < (c.job.len + 15) / 16
  · rw [if_pos hmore]
    exact ⟨_, reported_read hreq, placedIn_fetched (s := { s with seqr := none }) hok hfit rfl, fun _ => ⟨rfl, rfl⟩,
      fun h => absurd hmore (by omega)⟩
  · rw [if_neg hmore]
    obtain ⟨u, hu, hstage, hover, hhand⟩ := reported_fetched (s := { s with seqr := none }) (c := c) (buf := buf)
      (i := c.job.placed) (v := v) (j := { c.job with placed := c.job.placed + n, k := c.job.k + 1 })
      (r := ⟨.ok, c.job.len, c.job.seq, 0, false, false, false⟩) hreq rfl hh ht
    exact ⟨u, hu, placedIn_fetched (s := { s with seqr := none }) hok hfit hstage, fun h => absurd h hmore,
      fun _ => ⟨hover, hhand⟩⟩

/-- The end of the read of a header for a LIST (R133, R134). -/
theorem listReport_header {s : State} {c : Ctx} {buf count n : Nat} {x : Line} {hdr : Hdr} {v : List Byte}
    (hi : s.inflight = some c) (hst : c.stopping = false) (hx : parseHeader x = some hdr) (hn : n = c.job.placed + 1)
    (hv : v = [hdr.key.extractLsb' 8 8, hdr.key.extractLsb' 0 8, BitVec.ofNat 8 hdr.len]) :
    listReport s c buf count x =
      match successor s.dir c.job.key with
      | none => complete (fetched s c buf (3 * c.job.placed) v { c.job with placed := n }) (listDone n true)
      | some (k, p) =>
        if n < count then
          issue (fetched s c buf (3 * c.job.placed) v { c.job with placed := n, key := k, loc := p.loc, len := p.len })
            (.read p.loc)
        else complete (fetched s c buf (3 * c.job.placed) v { c.job with placed := n }) (listDone n false) := by
  have hentry : listEntry c.job x = v := by rw [listEntry, hx, hv]; rfl
  simp only [listReport, hst, Bool.false_eq_true, if_false, hentry, placeBytes_eq hi, ← hn]
  rfl

theorem list_read {s : State} {c : Ctx} {l : Loc} {hdr : Hdr} {after : Key} {buf count n : Nat} {v : List Byte}
    (hr : readingFor s c l) (hc : c.cmd = .list after buf count) (hs : c.stage = .read)
    (hx : parseHeader (lineAt s l) = some hdr) (hok : StagingOk s.staging) (hd : DirOk s.dir) (hn : n = c.job.placed + 1)
    (hfits : 3 * n ≤ 256) (hv : v = [hdr.key.extractLsb' 8 8, hdr.key.extractLsb' 0 8, BitVec.ofNat 8 hdr.len]) :
    ∃ u, exec .readDone s = .next u ∧ placedIn s u c buf (3 * c.job.placed) v
      ∧ (∀ k p, lowestAbove s c.job.key k p → n < count → u.seqr = some (.read p.loc)
        ∧ u.inflight = some { c with
          job := { c.job with placed := n, key := k, loc := p.loc, len := p.len, out := gathered c v } })
      ∧ (∀ k p, lowestAbove s c.job.key k p → count ≤ n →
        commandOver u ∧ handedTo s u c ⟨.ok, 3 * n, 0, n, false, false, false⟩ (gathered c v))
      ∧ ((∀ k p, presentAs s k p → k ≤ c.job.key) →
        commandOver u ∧ handedTo s u c ⟨.ok, 3 * n, 0, n, true, false, false⟩ (gathered c v)) := by
  have ho := operating_of_reading hr
  obtain ⟨-, -, hreq, hh, hi, -, hst, ht⟩ := hr
  have hfit : 3 * c.job.placed + v.length ≤ 256 := by
    rw [hv]
    simp only [List.length_cons, List.length_nil]
    omega
  have hrep := (onReport_list (s := { s with seqr := none }) l (lineAt s l) hh hi hc hs).trans
    (listReport_header (s := { s with seqr := none }) (buf := buf) (count := count) hi hst hx hn hv)
  have done : ∀ r, ∃ u,
      reported (complete (fetched { s with seqr := none } c buf (3 * c.job.placed) v { c.job with placed := n }) r) = .next u
      ∧ placedIn s u c buf (3 * c.job.placed) v ∧ commandOver u ∧ handedTo s u c r (gathered c v) := by
    intro r
    obtain ⟨u, hu, hstage, hover, hhand⟩ := reported_fetched (s := { s with seqr := none }) (c := c) (buf := buf)
      (i := 3 * c.job.placed) (v := v) (j := { c.job with placed := n }) (r := r) hreq rfl hh ht
    exact ⟨u, hu, placedIn_fetched (s := { s with seqr := none }) hok hfit hstage, hover, hhand⟩
  rw [operating_read ho, hrep]
  have hlow : ∀ k p, lowestAbove s c.job.key k p → successor s.dir c.job.key = some (k, p) := fun k p => successor_some hd
  cases hsucc : successor s.dir c.job.key with
  | none =>
    obtain ⟨u, hu, hpl, hend⟩ := done (listDone n true)
    exact ⟨u, hu, hpl, fun k p h => absurd (hlow k p h) (by simp [hsucc]), fun k p h => absurd (hlow k p h) (by simp [hsucc]),
      fun _ => hend⟩
  | some y =>
    obtain ⟨k, p⟩ := y
    have honly : ∀ k' p', lowestAbove s c.job.key k' p' → k' = k ∧ p' = p := by
      intro k' p' h
      have := (hlow k' p' h).symm.trans hsucc
      simpa using this
    have hsome : ¬ ∀ k p, presentAs s k p → k ≤ c.job.key := fun h => by
      simp [successor_none hd h] at hsucc
    by_cases hmore : n < count
    · refine ⟨_, (congrArg reported (if_pos hmore)).trans (reported_read hreq),
        placedIn_fetched (s := { s with seqr := none }) hok hfit rfl, ?_,
        fun _ _ _ h => absurd hmore (by omega), fun h => absurd h hsome⟩
      intro k' p' h _
      obtain ⟨rfl, rfl⟩ := honly k' p' h
      exact ⟨rfl, rfl⟩
    · obtain ⟨u, hu, hpl, hend⟩ := done (listDone n false)
      exact ⟨u, (congrArg reported (if_neg hmore)).trans hu, hpl, fun _ _ _ h => absurd h hmore, fun _ _ _ _ => hend,
        fun h => absurd h hsome⟩

end Sys2Proof.Machine
end

