-- ==== Sys2Proof/Proofs/MountReads.lean ====
section
/-! What a mount makes of the lines it reads (R160–R166). -/

namespace Sys2Proof.Machine

/-- The end of a read of the mount is a report to the mount unit. -/
theorem mount_read {s : State} {l : Loc} (ho : operating s .mount (.read l)) :
    exec .readDone s = reported (mountReport { s with seqr := none } l (.readDone (lineAt s l))) := by
  obtain ⟨-, -, -, hh, -⟩ := id ho
  rw [operating_read ho]
  exact congrArg reported (by simp only [onReport, hh])

theorem read_of_survey {s : State} {l : Loc} (ho : operating s .mount (.read l)) (hp : s.mu.phase = .survey) :
    exec .readDone s = reported (surveyReport { s with seqr := none } l (lineAt s l)) := by
  rw [mount_read ho]
  exact congrArg reported (by simp only [mountReport, hp])

theorem read_of_collect {s : State} {l : Loc} (ho : operating s .mount (.read l)) (hp : s.mu.phase = .collect) :
    exec .readDone s = reported (collectReport { s with seqr := none } (lineAt s l)) := by
  rw [mount_read ho]
  exact congrArg reported (by simp only [mountReport, hp])

theorem read_of_replay {s : State} {l : Loc} (ho : operating s .mount (.read l)) (hp : s.mu.phase = .replay) :
    exec .readDone s = reported (replayReport { s with seqr := none } (lineAt s l)) := by
  rw [mount_read ho]
  exact congrArg reported (by simp only [mountReport, hp])

/-! ### SURVEY (R161, R162) -/

theorem noteVid_eq (m : MountUnit) (vid : Word) : noteVid m vid = { m with
    foundVid := if m.foundVid = 0 then vid else m.foundVid, mixed := m.mixed || (m.foundVid != 0 && m.foundVid != vid) } := by
  unfold noteVid
  by_cases h0 : m.foundVid = 0
  · simp [h0]
  · have h1 : ¬ m.foundVid = 0#32 := h0
    by_cases h : m.foundVid = vid
    · simp [← h]
    · simp [h1, h]

theorem survey_line0 {s : State} {n : Nat} {y : Line0} (ho : operating s .mount (.read ⟨n, 0⟩)) (hp : s.mu.phase = .survey)
    (hO : tableOrdered s) (hl : ∀ e ∈ s.sm.table, e.num < n) (hy : line0Reads (lineAt s ⟨n, 0⟩) y) :
    (y = .erased ∨ y = .torn → surveyGoesOn (entered s n .dirty 0 false) n (exec .readDone s))
    ∧ (y = .foreign → surveyGoesOn { s with mu := { s.mu with foreign := true } } n (exec .readDone s))
    ∧ (∀ vid ec, y = .retired vid ec → surveyGoesOn (entered s n .retired ec true) n (exec .readDone s))
    ∧ ∀ vid ec, y = .spare vid ec → exec .readDone s = .next { s with
      mu := { s.mu with
        line0 := some (vid, ec), foundVid := if s.mu.foundVid = 0 then vid else s.mu.foundVid
        mixed := s.mu.mixed || (s.mu.foundVid != 0 && s.mu.foundVid != vid) }
      seqr := some (.read ⟨n, 1⟩) } := by
  rw [read_of_survey ho hp]
  obtain ⟨-, -, hreq, -, -⟩ := ho
  have hclass := classify0_of_reads hy
  have adds : ∀ st ec k, surveyGoesOn (entered s n st ec k) n
      (reported (surveyNext (addEntry { s with seqr := none } n st ec k) n)) := fun st ec k =>
    surveyNext_goes (s := addEntry { s with seqr := none } n st ec k) n (tableOrdered_entered (s := s) hO hl) hreq rfl
  simp only [surveyReport, if_true, surveyLine0, hclass]
  refine ⟨?_, ?_, ?_, ?_⟩
  · rintro (rfl | rfl) <;> exact adds .dirty 0 false
  · rintro rfl
    exact surveyNext_goes (s := modMu { s with seqr := none } (fun m => { m with foreign := true })) n hO hreq rfl
  · rintro vid ec rfl
    exact adds .retired ec true
  · rintro vid ec rfl
    simp only [noteVid_eq]
    exact reported_read hreq

theorem survey_line1 {s : State} {n : Nat} {vid stray : Word} {ec : Nat} {st : SegState}
    (ho : operating s .mount (.read ⟨n, 1⟩)) (hp : s.mu.phase = .survey) (hO : tableOrdered s)
    (hl : ∀ e ∈ s.sm.table, e.num < n) (h0 : s.mu.line0 = some (vid, ec))
    (hy : line1Gives vid s.mu.strayEpoch (lineAt s ⟨n, 1⟩) st stray) :
    surveyGoesOn (entered { s with mu := { s.mu with line0 := none, strayEpoch := stray } } n st ec true) n
      (exec .readDone s) := by
  rw [read_of_survey ho hp]
  obtain ⟨-, -, hreq, -, -⟩ := ho
  obtain ⟨hst, hstray⟩ := survey_of_gives hy
  have hfound : modMu (addEntry { s with seqr := none } n (surveyState vid (lineAt s ⟨n, 1⟩)) ec true)
      (fun m => { m with line0 := none, strayEpoch := strayAfter m.strayEpoch vid (lineAt s ⟨n, 1⟩) })
      = entered { s with seqr := none, mu := { s.mu with line0 := none, strayEpoch := stray } } n st ec true := by
    rw [← hst, ← hstray]
    rfl
  simp only [surveyReport, surveyLine1, h0, Nat.one_ne_zero, if_false, hfound]
  exact surveyNext_goes n (tableOrdered_entered (s := s) hO hl) hreq rfl

/-! ### COLLECT (R163) -/

theorem scannable_iff {h : Hdr} {l : Loc} :
    scannable h l = true ↔ l.line + (2 + (h.len + 15) / 16) ≤ 256 ∧ h.seq ≠ 0xFFFFFFFF#32 := by
  rw [scannable, Bool.and_eq_true, decide_eq_true_eq, bne_iff_ne]
  rfl

theorem scan_header {s : State} {l : Loc} (ho : operating s .mount (.read l)) (hp : s.mu.phase = .collect)
    (hj : s.mu.judge = none) (hs : s.mu.scan = some l) (hO : tableOrdered s) :
    (lineAt s l = .erased → segmentScanned s l.seg l.line false (exec .readDone s))
    ∧ (lineAt s l ≠ .erased → parseHeader (lineAt s l) = none → segmentScanned s l.seg 256 true (exec .readDone s))
    ∧ ∀ h e, parseHeader (lineAt s l) = some h → e = 2 + (h.len + 15) / 16 →
      (256 < l.line + e ∨ h.seq = 0xFFFFFFFF#32 → segmentScanned s l.seg 256 true (exec .readDone s))
      ∧ (l.line + e ≤ 256 → h.seq ≠ 0xFFFFFFFF#32 →
        let mu : MountUnit := { s.mu with highest := match s.mu.highest with
          | some q => if q < h.seq then some h.seq else some q
          | none => some h.seq }
        (h.kind = .commit ∨ h.kind = .freeze → exec .readDone s = .next { s with
          mu := { mu with judge := some ⟨⟨l, h⟩, []⟩ }, seqr := some (.read ⟨l.seg, l.line + 1⟩) })
        ∧ (h.kind = .value ∨ h.kind = .tombstone →
          scanGoesOn { s with mu := { mu with found := s.mu.found ++ [⟨l, h⟩] } } l e (exec .readDone s))) := by
  rw [read_of_collect ho hp]
  obtain ⟨-, -, hreq, -, -⟩ := ho
  have hends : ∀ wp stop, segmentScanned s l.seg wp stop (reported (scanSegmentEnd { s with seqr := none } l.seg wp stop)) :=
    fun wp stop => scanSegmentEnd_scanned (s := { s with seqr := none }) l.seg wp stop hO hreq rfl
  have hscan : collectReport { s with seqr := none } (lineAt s l) = scanHeader { s with seqr := none } l (lineAt s l) := by
    simp only [collectReport, hj, hs]
  rw [hscan]
  simp only [scanHeader]
  refine ⟨fun he => ?_, fun hne hn => ?_, ?_⟩
  · rw [he]
    exact hends l.line false
  · simp only [hn, if_neg hne]
    exact hends 256 true
  · rintro h e hh rfl
    simp only [hh]
    refine ⟨fun hbad => ?_, fun hfit hseq => ⟨fun hk => ?_, fun hk => ?_⟩⟩
    · have hno : ¬ scannable h l = true := fun hyes => by
        obtain ⟨hle, hne⟩ := scannable_iff.1 hyes
        exact hbad.elim (fun hbig => absurd hle (by omega)) hne
      rw [if_neg hno]
      exact hends 256 true
    · rw [if_pos (scannable_iff.2 ⟨hfit, hseq⟩), if_pos hk]
      refine (reported_read ?_).trans rfl
      exact hreq
    · have hno : ¬ (h.kind = .commit ∨ h.kind = .freeze) := by rcases hk with hk | hk <;> simp [hk]
      rw [if_pos (scannable_iff.2 ⟨hfit, hseq⟩), if_neg hno]
      refine scanAdvance_goes _ _ ?_ ?_ rfl
      · exact hO
      · exact hreq

theorem judged_read {s : State} {l : Loc} {f : FoundRec} {lines after : List Line} {e : Nat}
    (ho : operating s .mount (.read l)) (hp : s.mu.phase = .collect ∨ s.mu.phase = .replay) (hj : s.mu.judge = some ⟨f, lines⟩)
    (ha : after = lines ++ [lineAt s l]) (he : e = 2 + (f.hdr.len + 15) / 16) (hmore : after.length + 1 < e) :
    exec .readDone s = .next { s with
      mu := { s.mu with judge := some ⟨f, after⟩ }
      seqr := some (.read ⟨f.loc.seg, f.loc.line + (after.length + 1)⟩) } := by
  subst ha he
  have hreq := ho.notHalting
  have hmore' : (lines ++ [lineAt s l]).length + 1 < extentOf f.hdr.len := hmore
  rcases hp with hp | hp
  · rw [read_of_collect ho hp]
    simp only [collectReport, hj]
    rw [if_pos hmore']
    exact reported_read hreq
  · rw [read_of_replay ho hp]
    simp only [replayReport, hj]
    rw [if_pos hmore']
    exact reported_read hreq

/-- The table of the found commits' extents after `b` is entered with extent `e`. -/
theorem find?_entered (l : List (Word × Nat)) (b : Word) (e : Nat) (x : Word) :
    ((b, e) :: l.filter (fun y => y.1 != b)).find? (fun y => y.1 == x) =
      if x = b then some (x, e) else l.find? (fun y => y.1 == x) := by
  by_cases h : x = b
  · simp [h]
  · have hne : ¬ b = x := fun h' => h h'.symm
    rw [if_neg h, List.find?_cons_of_neg (by simpa using hne), List.find?_filter]
    congr 1
    funext y
    by_cases hy : y.1 = x
    · simp [hy, h]
    · simp [hy]

/-- The commit table has neither an entry for `b` nor room for one. -/
theorem commitsFull_iff {l : List CommitEntry} {b : Word} :
    (!(l.any (fun c => c.bid == b)) && decide (64 ≤ l.length)) = true ↔ (∀ x ∈ l, x.bid ≠ b) ∧ 64 ≤ l.length := by
  simp

/-- The freeze list has neither the range nor room for it. -/
theorem freezesFull_iff {l : List FreezeEntry} {lo hi : Key} :
    (!(hasRange l lo hi) && decide (4 ≤ l.length)) = true ↔ (∀ x ∈ l, ¬ (x.lo = lo ∧ x.hi = hi)) ∧ 4 ≤ l.length := by
  simp [hasRange]

theorem not_moreLines {h : Hdr} {after : List Line} {e : Nat} (he : e = 2 + (h.len + 15) / 16) (hlast : e ≤ after.length + 1) :
    ¬ after.length + 1 < extentOf h.len := by
  rw [extentOf, dataLineCount]
  omega

theorem collect_judged {s u : State} {l : Loc} {f : FoundRec} {lines after : List Line} {e : Nat} {v : List Byte}
    (ho : operating s .mount (.read l)) (hp : s.mu.phase = .collect) (hj : s.mu.judge = some ⟨f, lines⟩)
    (ha : after = lines ++ [lineAt s l]) (he : e = 2 + (f.hdr.len + 15) / 16) (hlast : e ≤ after.length + 1)
    (hv : v = valueOf f.hdr after) (hu : u = { s with mu := { s.mu with judge := none } }) (hO : tableOrdered s) :
    (recordComplete f.hdr after = false → scanGoesOn u f.loc e (exec .readDone s))
    ∧ (recordComplete f.hdr after = true → f.hdr.kind = .commit → CommitOk s.commits →
      ((∀ x ∈ s.commits, x.bid ≠ word32At v 0) → 64 ≤ s.commits.length → mountFails u .corrupt (exec .readDone s))
      ∧ ((∃ x ∈ s.commits, x.bid = word32At v 0) ∨ s.commits.length < 64 → ∃ commits extents,
        (∀ x, x ∈ commits ↔ x = ⟨word32At v 0, f.loc⟩ ∨ (x ∈ s.commits ∧ x.bid ≠ word32At v 0)) ∧ CommitOk commits
        ∧ (∀ b, extents.find? (fun x => x.1 == b) =
          if b = word32At v 0 then some (b, e) else s.mu.extents.find? (fun x => x.1 == b))
        ∧ scanGoesOn { u with commits := commits, mu := { u.mu with extents := extents } } f.loc e (exec .readDone s)))
    ∧ (recordComplete f.hdr after = true → f.hdr.kind = .freeze → FreezeOk s.freezes →
      ((∀ x ∈ s.freezes, ¬ (x.lo = word16At v 0 ∧ x.hi = word16At v 2)) → 4 ≤ s.freezes.length →
        mountFails u .corrupt (exec .readDone s))
      ∧ ((∃ x ∈ s.freezes, x.lo = word16At v 0 ∧ x.hi = word16At v 2) ∨ s.freezes.length < 4 → ∃ freezes,
        (∀ x, x ∈ freezes ↔ x = ⟨word16At v 0, word16At v 2, f.loc⟩
          ∨ (x ∈ s.freezes ∧ ¬ (x.lo = word16At v 0 ∧ x.hi = word16At v 2))) ∧ FreezeOk freezes
        ∧ scanGoesOn { u with freezes := freezes } f.loc e (exec .readDone s))) := by
  have hrest : exec .readDone s = reported (collectJudged (atRest u) f after) := by
    rw [read_of_collect ho hp]
    simp only [collectReport, hj]
    rw [if_neg (by rw [← ha]; exact not_moreLines he hlast), ← ha, hu]
    rfl
  have hreq : u.eng.haltReq = false := by rw [hu]; exact ho.notHalting
  have hOu : tableOrdered u := by rw [hu]; exact hO
  have hcom : u.commits = s.commits := by rw [hu]
  have hfre : u.freezes = s.freezes := by rw [hu]
  have hext : u.mu.extents = s.mu.extents := by rw [hu]
  have hex : extentOf f.hdr.len = e := he.symm
  rw [hrest, ← hcom, ← hfre, ← hext]
  refine ⟨fun hno => ?_, fun hyes hk hok => ⟨fun hnew hfull => ?_, fun hroom => ?_⟩,
    fun hyes hk hok => ⟨fun hnew hfull => ?_, fun hroom => ?_⟩⟩
  · simp only [collectJudged, hno, hex]
    exact scanAdvance_goes (s := atRest u) f.loc e hOu hreq rfl
  · have hfull' := commitsFull_iff.2 ⟨hnew, hfull⟩
    simp only [collectJudged, hyes, hk, if_true]
    rw [if_pos (by exact hv ▸ hfull')]
    exact mountEnd_fails (s := atRest u) .corrupt (by simp) hreq rfl
  · have hfull' := mt commitsFull_iff.1 fun h => hroom.elim (fun ⟨x, hx, hb⟩ => h.1 x hx hb) (Nat.not_lt.2 h.2)
    refine ⟨commitInsert ⟨word32At v 0, f.loc⟩ u.commits, (word32At v 0, e) :: u.mu.extents.filter (fun x => x.1 != word32At v 0),
      fun x => mem_commitInsert x _ _ hok, commitOk_insert _ _ hok, fun b => find?_entered _ _ _ b, ?_⟩
    simp only [collectJudged, hyes, hk, if_true, ← hv]
    rw [if_neg (by exact hfull'), hex, enterCommit, hex]
    refine scanAdvance_goes _ e ?_ ?_ rfl
    · exact hOu
    · exact hreq
  · have hfull' := freezesFull_iff.2 ⟨hnew, hfull⟩
    simp only [collectJudged, hyes, hk, if_true, reduceCtorEq, if_false]
    rw [if_pos (by exact hv ▸ hfull')]
    exact mountEnd_fails (s := atRest u) .corrupt (by simp) hreq rfl
  · have hfull' := mt freezesFull_iff.1 fun h => hroom.elim (fun ⟨x, hx, hb⟩ => h.1 x hx hb) (Nat.not_lt.2 h.2)
    refine ⟨freezeInsert ⟨word16At v 0, word16At v 2, f.loc⟩ u.freezes, fun x => mem_freezeInsert x _ _ hok,
      freezeOk_insert _ _ hok, ?_⟩
    simp only [collectJudged, hyes, hk, if_true, reduceCtorEq, if_false, ← hv]
    rw [if_neg (by exact hfull'), hex]
    refine scanAdvance_goes _ e ?_ ?_ rfl
    · exact hOu
    · exact hreq

theorem applicable_iff {s : State} {f : FoundRec} {after : List Line} :
    applicable s f after = true ↔ recordComplete f.hdr after = true ∧ (f.hdr.bid = 0 ∨ ∃ x ∈ s.commits, x.bid = f.hdr.bid) := by
  simp [applicable]

theorem replay_judged {s u : State} {l : Loc} {f : FoundRec} {lines after : List Line} {e : Nat}
    (ho : operating s .mount (.read l)) (hp : s.mu.phase = .replay) (hj : s.mu.judge = some ⟨f, lines⟩)
    (ha : after = lines ++ [lineAt s l]) (he : e = 2 + (f.hdr.len + 15) / 16) (hlast : e ≤ after.length + 1) (hd : DirOk s.dir)
    (hu : u = { s with mu := { s.mu with judge := none } }) (hO : tableOrdered s) :
    let applies := recordComplete f.hdr after = true ∧ (f.hdr.bid = 0 ∨ ∃ x ∈ s.commits, x.bid = f.hdr.bid)
    let p : Part := ⟨f.hdr.kind == .tombstone, f.loc, f.hdr.len, f.hdr.seq, false⟩
    (¬ applies → replayGoesOn u (exec .readDone s))
    ∧ (applies → dirLookup s.dir f.hdr.key = none → 512 ≤ s.dir.length → mountFails u .corrupt (exec .readDone s))
    ∧ (applies → dirLookup s.dir f.hdr.key ≠ none ∨ s.dir.length < 512 → ∃ dir, DirOk dir
      ∧ (∀ k, k ≠ f.hdr.key → dirLookup dir k = dirLookup s.dir k)
      ∧ ((∀ o, committedOf s f.hdr.key = some o → o.seq ≤ f.hdr.seq) → committedOf { u with dir := dir } f.hdr.key = some p)
      ∧ (∀ o, committedOf s f.hdr.key = some o → f.hdr.seq < o.seq →
        committedOf { u with dir := dir } f.hdr.key = some { o with shadowed := o.shadowed || o.tomb })
      ∧ replayGoesOn { u with dir := dir } (exec .readDone s)) := by
  intro applies p
  have hrest : exec .readDone s = reported (replayJudged (atRest u) f after) := by
    rw [read_of_replay ho hp]
    simp only [replayReport, hj]
    rw [if_neg (by rw [← ha]; exact not_moreLines he hlast), ← ha, hu]
    rfl
  have hreq : u.eng.haltReq = false := by rw [hu]; exact ho.notHalting
  have hOu : tableOrdered u := by rw [hu]; exact hO
  have happ : applicable (atRest u) f after = true ↔ applies := applicable_iff.trans (by rw [hu]; rfl)
  have hdir : (atRest u).dir = s.dir := by rw [hu]; rfl
  rw [hrest, replayJudged, hdir]
  refine ⟨fun hno => ?_, fun hyes hnew hfull => ?_, fun hyes hroom => ?_⟩
  · rw [if_neg (mt happ.1 hno)]
    exact replayNext_goes (s := atRest u) hOu hreq rfl
  · rw [if_pos (happ.2 hyes), if_pos (by simp [hnew, hfull])]
    exact mountEnd_fails (s := atRest u) .corrupt (by simp) hreq rfl
  · have hfits : ¬ ((dirLookup s.dir f.hdr.key).isNone && decide (512 ≤ s.dir.length)) = true := by
      rw [Bool.and_eq_true, Option.isNone_iff_eq_none, decide_eq_true_eq]
      rintro ⟨hnew, hfull⟩
      exact hroom.elim (fun h => h hnew) (fun h => absurd hfull (by omega))
    obtain ⟨dir, hgives, hok, hothers, hnewer, holder⟩ := applyPart_gives (atRest u) f.hdr.key p (hdir ▸ hd)
    have hcom : ∀ k, committedOf (atRest u) k = committedOf s k := fun k => by rw [hu]; rfl
    rw [if_pos (happ.2 hyes), if_neg hfits, hgives]
    refine ⟨dir, hok, fun k hk => (hothers k hk).trans (by rw [hdir]), fun h => hnewer fun o ho => h o (hcom _ ▸ ho),
      fun o ho hlt => holder o ((hcom _).trans ho) hlt, ?_⟩
    exact replayNext_goes (s := { atRest u with dir := dir }) hOu hreq rfl

/-- Settles O54: a read that ends is handed to the command in flight or to the mount, by the unit that holds the sequencer;
what each makes of the line is one lemma above. -/
theorem readsFollowTheDirectory : Obligations.ReadsFollowTheDirectory :=
  ⟨fun _ _ _ _ ha hm hc => get_granted ha hm hc,
    fun _ _ _ _ _ ha hm hc hd => list_granted ha hm hc hd,
    fun _ _ _ _ _ _ _ _ hr hc hs hl hok hlen hpl hn hv => get_read hr hc hs hl hok hlen hpl hn hv,
    fun _ _ _ _ _ _ _ _ _ hr hc hs hx hok hd hn hfits hv => list_read hr hc hs hx hok hd hn hfits hv,
    fun _ _ _ ho hp hO hl hy => survey_line0 ho hp hO hl hy,
    fun _ _ _ _ _ _ ho hp hO hl h0 hy => survey_line1 ho hp hO hl h0 hy,
    fun _ _ ho hp hj hs hO => scan_header ho hp hj hs hO,
    fun _ _ _ _ _ _ ho hp hj ha he hmore => judged_read ho hp hj ha he hmore,
    fun _ _ _ _ _ _ _ _ ho hp hj ha he hlast hv hu hO => collect_judged ho hp hj ha he hlast hv hu hO,
    fun _ _ _ _ _ _ _ ho hp hj ha he hlast hd hu hO => replay_judged ho hp hj ha he hlast hd hu hO⟩

end Sys2Proof.Machine
end

