-- ==== Sys2Proof/Proofs/FormatSteps.lean ====
section
/-! The course of a FORMAT: its volume check (R171, R172) and its two steps (R173, R174). -/

namespace Sys2Proof.Machine

theorem issue_taken {s : State} (h : s.eng.haltReq = false) (op : SeqOp) : issue s op = { s with seqr := some op } :=
  if_neg (by rw [h]; exact Bool.false_ne_true)

theorem eraseCountOf_of {s : State} {n : Nat} {e : SegEntry} (he : segEntry s n = some e) : eraseCountOf s n = e.eraseCount := by
  rw [eraseCountOf, he]
  rfl

/-! ### Steps 1 and 2 -/

/-- Stage `p` of segment `n` of step 1 or step 2. -/
def stepPhase (first : Bool) (n : Nat) (p : PrepStage) : FPhase := if first then .step1 n p else .step2 n p

section

variable {s : State} {f : FormatCtx} {first : Bool} {n : Nat} {p : PrepStage}

/-- FORMAT's sequence of segment `n` stands at stage `p`. -/
def formattingAt (s : State) (f : FormatCtx) (first : Bool) (n : Nat) (p : PrepStage) : Prop :=
  s.holder = .format ∧ s.fu = some f ∧ f.phase = stepPhase first n p

theorem onReport_step (h : formattingAt s f first n p) (loc : Loc) (rep : Report) :
    onReport s loc rep = formatSegment s f n first p rep := by
  obtain ⟨hh, hf, hp⟩ := h
  simp only [onReport, hh, hf, formatReport, hp]
  cases first <;> rfl

/-- The program of a preparation line, SPARE or RETIRED, for FORMAT's segment. -/
theorem formatStage_line {e : SegEntry} (f : FormatCtx) (first : Bool) (hreq : s.eng.haltReq = false) (he : segEntry s n = some e) :
    formatStage s f n first .spare = { s with
        fu := some { f with phase := stepPhase first n .spare }
        seqr := some (.program ⟨n, 0⟩ (prepLine 0x5A s.eng.volId e.eraseCount)) }
      ∧ formatStage s f n first .retireProg = { s with
        fu := some { f with phase := stepPhase first n .retireProg }
        seqr := some (.program ⟨n, 0⟩ (prepLine 0xA5 s.eng.volId e.eraseCount)) } := by
  have hcount : ∀ g, eraseCountOf (setFu s g) n = e.eraseCount := fun g => eraseCountOf_of (s := setFu s g) he
  refine ⟨?_, ?_⟩ <;>
  · simp only [formatStage, prepIssue, hcount]
    exact issue_taken (s := setFu s _) hreq _

/-- The read of line 0 with which a retirement begins (R44). -/
theorem formatStage_read (f : FormatCtx) (first : Bool) (n : Nat) (hreq : s.eng.haltReq = false) :
    formatStage s f n first .retireRead = { s with
      fu := some { f with phase := stepPhase first n .retireRead }, seqr := some (.read ⟨n, 0⟩) } :=
  issue_taken (s := setFu s _) hreq _

theorem step_erase_ends {e : SegEntry} (h : formattingAt s f first n .erase) (ho : operating s .format (.erase n))
    (hn : n < 64) (he : segEntry s n = some e) :
    (∃ u, exec .eraseDone s = .next u ∧ (∀ k, k < 256 → lineAt u ⟨n, k⟩ = .erased) ∧ segEntry u n = some (eraseCounted e)
      ∧ u.seqr = some (.program ⟨n, 0⟩ (prepLine 0x5A s.eng.volId (eraseCounted e).eraseCount)) ∧ u.holder = .format
      ∧ u.fu = some { f with phase := stepPhase first n .spare })
    ∧ ∃ u, exec .eraseDeadlineExpiry s = .next u ∧ segEntry u n = some (eraseCounted e) ∧ u.seqr = some (.read ⟨n, 0⟩)
      ∧ u.fu = some { f with phase := stepPhase first n .retireRead } ∧ u.holder = .format := by
  have hreq := ho.notHalting
  refine ⟨?_, ?_⟩
  · have herased : ∀ k, k < 256 → lineAt (eraseSegment s n) ⟨n, k⟩ = .erased := fun k hk =>
      (lineAt_eraseSegment s n ⟨n, k⟩ (by simp [inArray, hn, hk])).trans (if_pos rfl)
    obtain ⟨rc, hrc⟩ := eraseEnded_eq { eraseSegment s n with seqr := none } n
    have hrep : onReport { eraseSegment s n with seqr := none } ⟨n, 0⟩ .eraseDone =
        { entryChanged { eraseSegment s n with seqr := none } n eraseCounted with
          rc := rc, fu := some { f with phase := stepPhase first n .spare }
          seqr := some (.program ⟨n, 0⟩ (prepLine 0x5A s.eng.volId (eraseCounted e).eraseCount)) } := by
      rw [onReport_step (s := { eraseSegment s n with seqr := none }) h]
      simp only [formatSegment, hrc]
      refine (formatStage_line (e := eraseCounted e) f first ?_ ?_).1
      · exact hreq
      · exact segEntry_erased he
    rw [operating_erased ho, hrep]
    exact ⟨_, reported_erased hreq rfl (herased 0 (by omega)), herased, segEntry_erased he, rfl, h.1, rfl⟩
  · obtain ⟨m, hm⟩ := partialErase_eq s n
    obtain ⟨rc, hrc⟩ := eraseEnded_eq { partialErase s n with seqr := none } n
    have hrep : onReport { partialErase s n with seqr := none } ⟨n, 0⟩ .eraseFault =
        { entryChanged { partialErase s n with seqr := none } n eraseCounted with
          rc := rc, fu := some { f with phase := stepPhase first n .retireRead }, seqr := some (.read ⟨n, 0⟩) } := by
      rw [onReport_step (s := { partialErase s n with seqr := none }) (by rw [hm]; exact h)]
      simp only [formatSegment, hrc]
      exact formatStage_read f first n (by rw [hm]; exact hreq)
    rw [operating_erase_expired ho, hrep, hm]
    exact ⟨_, reported_eq hreq (fun _ _ h => nomatch h), segEntry_erased he, rfl, rfl, h.1⟩

/-- A fault of a line of FORMAT's segment is counted, and the read of line 0 follows (R173, log entry 16). -/
theorem format_faulted (hdirty : dirtyAt s n) (hreq : s.eng.haltReq = false) (hq : s.seqr = none) (f : FormatCtx) (first : Bool) :
    reported (formatStage (countFault s n) f n first .retireRead) = .next { entryNow s n faultCounted 0x04 with
      fu := some { f with phase := stepPhase first n .retireRead }, seqr := some (.read ⟨n, 0⟩) } := by
  have hread := formatStage_read (s := entryNow s n faultCounted 0x04) f first n hreq
  rw [countFault_eq hdirty hq, hread]
  exact reported_eq hreq (fun _ _ h => nomatch h)

/-- A retirement of FORMAT's segment, then the next one. -/
theorem formatRetired_goes {x y : State} (f : FormatCtx) (n : Nat) (first : Bool) (hr : retireSegment x n = y)
    (hreq : y.eng.haltReq = false) (hq : y.seqr = none) : formatGoesOn y f first (reported (formatRetired x f n first)) := by
  rw [formatRetired, hr]
  exact formatNext_goes f first hreq hq

theorem step_spare_ends {e : SegEntry} {content : LineBits} (h : formattingAt s f first n .spare)
    (ho : operating s .format (.program ⟨n, 0⟩ content)) (hO : tableOrdered s) (he : segEntry s n = some e) (hd : e.st = .dirty) :
    (first = true → lineAt s ⟨n, 1⟩ = .erased → exec .programDone s = .next
        { entryNow (setLine s ⟨n, 0⟩ (.good content)) n (fun x => { x with known := true }) 0 with
          fu := some { f with phase := .step1Open n }, seqr := some (.program ⟨n, 1⟩ (openLine 1 s.eng.volId)) })
      ∧ (first = false → formatGoesOn
        (entryNow (setLine s ⟨n, 0⟩ (.good content)) n (fun x => { x with st := .free, known := true }) 0) f first
        (exec .programDone s))
      ∧ exec .programDeadlineExpiry s = .next { entryNow (setLine s ⟨n, 0⟩ .torn) n faultCounted 0x04 with
        fu := some { f with phase := stepPhase first n .retireRead }
        seqr := some (.read ⟨n, 0⟩) } := by
  have hreq := ho.notHalting
  have hdirty : ∀ v, dirtyAt (ended s ⟨n, 0⟩ v) n := fun v => dirtyAt_of (s := s) hO he hd
  have hdone : exec .programDone s = reported (formatPrepared (ended s ⟨n, 0⟩ (.good content)) f n first) :=
    (operating_done ho).trans (congrArg reported (onReport_step (s := ended s ⟨n, 0⟩ (.good content)) h _ _))
  refine ⟨?_, ?_, ?_⟩
  · rintro rfl hline
    have hknown : markKnown (ended s ⟨n, 0⟩ (.good content)) n =
        entryNow (setLine s ⟨n, 0⟩ (.good content)) n (fun x => { x with known := true }) 0 := by
      rw [← entryNow_ended, markKnown, segUpd_dirty _ (hdirty _), entryNow, byte_or_zero]
      rfl
    rw [hdone, formatPrepared, if_pos rfl, hknown, ← entryNow_ended]
    refine (reported_issued (x := setFu _ _) ?_ ?_).trans rfl
    · exact hreq
    · exact (lineAt_ended s _ _ _ (by simp)).trans hline
  · rintro rfl
    have hprep : segmentPrepared (ended s ⟨n, 0⟩ (.good content)) n =
        entryNow (setLine s ⟨n, 0⟩ (.good content)) n (fun x => { x with st := .free, known := true }) 0 := by
      rw [← entryNow_ended, ← segmentPrepared_eq (hdirty _) rfl]
    rw [hdone, formatPrepared, if_neg Bool.false_ne_true, hprep, ← entryNow_ended]
    exact formatNext_goes (s := entryNow _ _ _ _) f false hreq rfl
  · rw [operating_expired ho, onReport_step (s := ended s ⟨n, 0⟩ .torn) h, formatSegment, ← entryNow_ended]
    exact format_faulted (hdirty .torn) hreq rfl f first

theorem step_retireRead_ends {e : SegEntry} (h : formattingAt s f first n .retireRead)
    (ho : operating s .format (.read ⟨n, 0⟩)) (hst : s.eng.store = .formatting) (hO : tableOrdered s)
    (he : segEntry s n = some e) (hd : e.st = .dirty) :
    (lineAt s ⟨n, 0⟩ = .erased → exec .readDone s = .next { s with
        fu := some { f with phase := stepPhase first n .retireProg }
        seqr := some (.program ⟨n, 0⟩ (prepLine 0xA5 s.eng.volId e.eraseCount)) })
      ∧ (lineAt s ⟨n, 0⟩ ≠ .erased →
        formatGoesOn (entryNow s n (fun x => { x with st := .retired }) 0x04) f first (exec .readDone s)) := by
  have hreq := ho.notHalting
  have hdirty : dirtyAt (atRest s) n := dirtyAt_of (s := s) hO he hd
  have hready : (atRest s).eng.store ≠ .ready := fun hc => nomatch hst.symm.trans hc
  have hread : exec .readDone s = reported (formatSegment (atRest s) f n first .retireRead (.readDone (lineAt s ⟨n, 0⟩))) :=
    (operating_read ho).trans (congrArg reported (onReport_step (s := atRest s) h _ _))
  refine ⟨fun hl => ?_, fun hl => ?_⟩
  · have hstage := (formatStage_line (s := atRest s) f first hreq he).2
    rw [hread, hl, formatSegment, if_pos rfl, hstage]
    exact reported_erased hreq rfl hl
  · rw [hread, formatSegment, if_neg hl]
    exact formatRetired_goes f n first (retireSegment_eq hdirty hready rfl) hreq rfl

theorem step_retireProg_ends {e : SegEntry} {content : LineBits} (h : formattingAt s f first n .retireProg)
    (ho : operating s .format (.program ⟨n, 0⟩ content)) (hst : s.eng.store = .formatting) (hO : tableOrdered s)
    (he : segEntry s n = some e) (hd : e.st = .dirty) :
    formatGoesOn (entryNow (setLine s ⟨n, 0⟩ (.good content)) n (fun x => { x with st := .retired, known := true }) 0x04)
        f first (exec .programDone s)
      ∧ formatGoesOn (entryNow (setLine s ⟨n, 0⟩ .torn) n (fun x => { faultCounted x with st := .retired }) 0x04) f first
        (exec .programDeadlineExpiry s) := by
  have hreq := ho.notHalting
  have hdirty : ∀ v, dirtyAt (ended s ⟨n, 0⟩ v) n := fun v => dirtyAt_of (s := s) hO he hd
  have hready : ∀ v, (ended s ⟨n, 0⟩ v).eng.store ≠ .ready := fun v hc => nomatch hst.symm.trans hc
  refine ⟨?_, ?_⟩
  · rw [operating_done ho, onReport_step (s := ended s ⟨n, 0⟩ (.good content)) h, formatSegment, ← entryNow_ended]
    exact formatRetired_goes f n first (retire_after_retired_line (hdirty _) (hready _) rfl) hreq rfl
  · rw [operating_expired ho, onReport_step (s := ended s ⟨n, 0⟩ .torn) h, formatSegment, ← entryNow_ended]
    exact formatRetired_goes f n first (retire_after_fault (hdirty _) (hready _) rfl) hreq rfl

/-- The two ends of the program of the opening line of step 1. -/
theorem step_open_ends {e : SegEntry} {content : LineBits} (hf : s.fu = some f) (hp : f.phase = .step1Open n)
    (ho : operating s .format (.program ⟨n, 1⟩ content)) (hO : tableOrdered s)
    (he : segEntry s n = some e) (hd : e.st = .dirty) :
    (∀ u, u = entryNow (setLine s ⟨n, 1⟩ (.good content)) n (fun x => { x with st := .opened ⟨1, 2, 0, 0, 0⟩ }) 0 →
        formatGoesOn { u with sm := { u.sm with nextEpoch := 2 } }
          { f with todo := (List.range 64).filter (fun k => f.todo.contains k) } false (exec .programDone s))
      ∧ exec .programDeadlineExpiry s = .next { entryNow (setLine s ⟨n, 1⟩ .torn) n faultCounted 0x04 with
        fu := some { f with phase := .step1 n .retireRead }, seqr := some (.read ⟨n, 0⟩) } := by
  obtain ⟨-, -, hreq, hh, -⟩ := id ho
  have hdirty : ∀ v, dirtyAt (ended s ⟨n, 1⟩ v) n := fun v => dirtyAt_of (s := s) hO he hd
  have hrep : ∀ v rep, onReport (ended s ⟨n, 1⟩ v) ⟨n, 1⟩ rep = formatReport (ended s ⟨n, 1⟩ v) f rep := by
    intro v rep
    rw [onReport, show (ended s ⟨n, 1⟩ v).holder = .format from hh]
    simp only [show (ended s ⟨n, 1⟩ v).fu = some f from hf]
  refine ⟨?_, ?_⟩
  · rintro u rfl
    have hopen : setSegState { ended s ⟨n, 1⟩ (.good content) with
          sm := { (ended s ⟨n, 1⟩ (.good content)).sm with nextEpoch := 2 } } n (.opened ⟨1, 2, 0, 0, 0⟩) =
        { entryNow (ended s ⟨n, 1⟩ (.good content)) n (fun x => { x with st := .opened ⟨1, 2, 0, 0, 0⟩ }) 0 with
          sm := { (entryNow (ended s ⟨n, 1⟩ (.good content)) n (fun x => { x with st := .opened ⟨1, 2, 0, 0, 0⟩ }) 0).sm with
            nextEpoch := 2 } } := by
      refine (segUpd_dirty _ ?_).trans ?_
      · exact hdirty (.good content)
      · rw [entryNow, byte_or_zero]
        rfl
    rw [operating_done ho, hrep, formatReport, hp]
    simp only [step1Opened, hopen]
    rw [← entryNow_ended]
    exact formatNext_goes _ false hreq rfl
  · rw [operating_expired ho, hrep, formatReport, hp]
    rw [← entryNow_ended]
    exact format_faulted (hdirty .torn) hreq rfl f true

end

end Sys2Proof.Machine
end

