-- ==== Sys2Proof/Proofs/FormatEntry.lean ====
section
/-! FORMAT from its volume check to its entry to FORMATTING (R171–R173). -/

namespace Sys2Proof.Machine

theorem answeredCmd_host {s : State} {c : Ctx} {t : Nat} (r : Result) (ho : c.origin = .host t) :
    answeredCmd s c r = answeredHost s t r := by
  simp only [answeredCmd, answeredHost, hostHanded, mgmtHanded, ho]

/-! ### The entry to FORMATTING -/

/-- The highest erase count that the volume check read, 0 where it read none. -/
theorem highest_count {l : List (Option Nat)} {top : Nat} (hle : ∀ ec, some ec ∈ l → ec ≤ top)
    (htop : some top ∈ l ∨ (top = 0 ∧ ∀ x ∈ l, x = none)) : (l.filterMap id).foldl max 0 = top := by
  rcases htop with htop | ⟨rfl, hnone⟩
  · exact foldl_max_eq _ _ (List.mem_filterMap.2 ⟨_, htop, rfl⟩) fun x hx => by
      obtain ⟨y, hy, rfl⟩ := List.mem_filterMap.1 hx
      exact hle x hy
  · have hnil : l.filterMap id = [] := List.filterMap_eq_nil_iff.2 hnone
    rw [hnil]
    rfl

/-- FORMATTING entered from `u`, with the erase of segment `n` issued. -/
def formatBegun (u : State) (f : FormatCtx) (count : Nat → Nat × Bool) (n : Nat) (rest : List Nat) : State :=
  { u with
    eng := { u.eng with store := .formatting, seqCtr := 0, volId := f.newId }, rc := ⟨none, 0, 0⟩
    dir := [], freezes := [], commits := []
    sm := ⟨(List.range 64).map (fun k => ⟨k, .dirty, (count k).1, (count k).2, 0, false⟩), 0, false⟩
    fu := some { f with todo := rest, phase := .step1 n .erase }, holder := .format, seqr := some (.erase n) }

theorem formatTable_eq {s : State} {f : FormatCtx} {mounted : Bool} {count : Nat → Nat × Bool}
    (h : ∀ k, formatCount s f mounted k = count k) :
    formatTable s f mounted = (List.range 64).map (fun k => ⟨k, .dirty, (count k).1, (count k).2, 0, false⟩) := by
  simp only [formatTable, h]

/-- A FORMAT that has passed its volume check enters FORMATTING at its first candidate. -/
theorem formatEnter_begun {s u : State} {f : FormatCtx} {mounted : Bool} {count : Nat → Nat × Bool} {n : Nat} {rest : List Nat}
    (hu : setStage (teardown s false) .format = u) (hreq : u.eng.haltReq = false)
    (hcount : ∀ k, formatCount s f mounted k = count k) (hcand : formatCandidates s mounted = n :: rest) :
    formatEnter s f mounted = formatBegun u f count n rest := by
  subst hu
  simp only [formatEnter, step1Next, hcand, formatTable_eq hcount]
  refine (issue_taken ?_ _).trans rfl
  exact hreq

/-! ### The volume check -/

theorem formatCount_checked {s : State} {f : FormatCtx} {top : Nat} (hle : ∀ ec, some ec ∈ f.counts → ec ≤ top)
    (htop : some top ∈ f.counts ∨ (top = 0 ∧ ∀ x ∈ f.counts, x = none)) (k : Nat) : formatCount s f false k =
    match f.counts.getD k none with | some ec => (ec, true) | none => (top, false) := by
  obtain rfl := highest_count hle htop
  rfl

theorem setStage_same {s : State} {c : Ctx} {st : Stage} (hi : s.inflight = some c) (hst : c.stage = st) : setStage s st = s := by
  subst hst
  simp only [setStage, modCtx, hi, Option.map_some]
  rw [← hi]

theorem volume_check {s : State} {c : Ctx} {t n : Nat} {f f' : FormatCtx} {y : Line0}
    (ho : operating s .command (.read ⟨n, 0⟩)) (hi : s.inflight = some c) (hor : c.origin = .host t) (hst : c.stage = .format)
    (hseq : c.seq = none) (hret : c.retried = false) (htear : c.tearDue = false) (hfu : s.fu = some f)
    (hy : line0Reads (lineAt s ⟨n, 0⟩) y) (hf : f' = checkedLine f y) :
    (n < 63 → exec .readDone s = .next { s with
      fu := some { f' with phase := .check (n + 1) }, seqr := some (.read ⟨n + 1, 0⟩) })
    ∧ (n = 63 → f.newId ∈ f'.ids → exec .readDone s = .next (syncIdle (answeredHost { s with fu := none, seqr := none } t
      ⟨.wrongVolume, 0, 0, 0, false, false, false⟩)))
    ∧ (n = 63 → f.newId ∉ f'.ids → s.batch = none → ∀ top,
      (∀ ec, some ec ∈ f'.counts → ec ≤ top) → (some top ∈ f'.counts ∨ (top = 0 ∧ ∀ x ∈ f'.counts, x = none)) →
      formatEntered s f' (fun k => match f'.counts.getD k none with | some ec => (ec, true) | none => (top, false))
        (List.range 64) (exec .readDone s)) := by
  obtain ⟨-, -, hreq, hh, -⟩ := id ho
  have hrep : onReport (atRest s) ⟨n, 0⟩ (.readDone (lineAt s ⟨n, 0⟩)) = formatCheckReport (atRest s) f n (lineAt s ⟨n, 0⟩) := by
    rw [onReport, show (atRest s).holder = .command from hh]
    simp only [commandReport, show (atRest s).inflight = some c from hi, hst, show (atRest s).fu = some f from hfu]
  have hread : exec .readDone s = reported (formatCheckReport (atRest s) f n (lineAt s ⟨n, 0⟩)) :=
    (operating_read ho).trans (congrArg reported hrep)
  rw [hread, formatCheck_eq hy, ← hf]
  refine ⟨fun hn => ?_, ?_, ?_⟩
  · rw [if_pos (by omega)]
    exact reported_read (x := setFu (atRest s) _) hreq
  · rintro rfl hin
    have hresult : c.failure .wrongVolume = ⟨.wrongVolume, 0, 0, 0, false, false, false⟩ := by
      simp only [Ctx.failure, Ctx.endSeq, hseq, hret]
    rw [if_neg (by omega), if_pos (by simpa using hin), ← hresult, ← answeredCmd_host _ hor]
    exact reported_failed (x := { atRest s with fu := none }) .wrongVolume hi htear hreq rfl
  · rintro rfl hout hb top hle htop m rest hcand
    have hsame : setStage (teardown (atRest s) false) .format = atRest s := by
      rw [teardown_none (s := atRest s) hb]
      exact setStage_same (s := atRest s) hi hst
    rw [if_neg (by omega), if_neg (by simpa using hout),
      formatEnter_begun hsame hreq (formatCount_checked hle htop) hcand]
    exact reported_eq hreq (fun _ _ h => nomatch h)

end Sys2Proof.Machine
end

