-- ==== Sys2Proof/Proofs/VictimChoice.lean ====
section
/-! The victim of a RECLAIM command (R143, R144). -/

namespace Sys2Proof.Machine

/-- The scan for the lowest epoch. -/
def pickLowest (best : Option (Nat × Journal)) (c : Nat × Journal) : Option (Nat × Journal) :=
  match best with
  | none => some c
  | some b => if c.2.epoch < b.2.epoch then some c else some b

theorem foldl_pickLowest (l : List (Nat × Journal)) : ∀ b, ∃ a ∈ b :: l, l.foldl pickLowest (some b) = some a
    ∧ ∀ c ∈ b :: l, a.2.epoch ≤ c.2.epoch := by
  induction l with
  | nil => exact fun b => ⟨b, by simp, rfl, by simp⟩
  | cons x l ih =>
    intro b
    by_cases hx : x.2.epoch < b.2.epoch
    · obtain ⟨a, ha, hfold, hle⟩ := ih x
      refine ⟨a, List.mem_cons_of_mem _ ha, ?_, List.forall_mem_cons.2 ⟨?_, hle⟩⟩
      · rw [List.foldl_cons, show pickLowest (some b) x = some x from if_pos hx, hfold]
      · have hax := hle x (List.mem_cons_self ..)
        bv_omega
    · obtain ⟨a, ha, hfold, hle⟩ := ih b
      have hb := hle b (List.mem_cons_self ..)
      refine ⟨a, ?_, ?_, List.forall_mem_cons.2 ⟨hb, List.forall_mem_cons.2
        ⟨BitVec.le_trans hb (BitVec.not_lt.1 hx), fun c hc => hle c (List.mem_cons_of_mem _ hc)⟩⟩⟩
      · rcases List.mem_cons.1 ha with rfl | ha
        · exact List.mem_cons_self ..
        · exact List.mem_cons_of_mem _ (List.mem_cons_of_mem _ ha)
      · rw [List.foldl_cons, show pickLowest (some b) x = some b from if_neg hx, hfold]

/-- The lowest-epoch journal segment, where there is a journal segment (R144). -/
theorem lowestEpoch_of {s : State} {n : Nat} {x : Journal} (hO : tableOrdered s) (h : journalOf s n = some x) :
    ∃ m j, lowestEpoch s = some m ∧ journalOf s m = some j ∧ ∀ k i, journalOf s k = some i → j.epoch ≤ i.epoch := by
  have hl : lowestEpoch s = ((journals s).foldl pickLowest none).map Prod.fst := rfl
  have hmem := (mem_journals hO n x).2 h
  cases hj : journals s with
  | nil =>
    rw [hj] at hmem
    cases hmem
  | cons b l =>
    obtain ⟨a, ha, hfold, hle⟩ := foldl_pickLowest l b
    rw [← hj] at ha hle
    have hlow : lowestEpoch s = some a.1 := by
      rw [hl, hj, List.foldl_cons, show pickLowest none b = some b from rfl, hfold]
      rfl
    exact ⟨a.1, a.2, hlow, (mem_journals hO a.1 a.2).1 ha, fun k i hk => hle (k, i) ((mem_journals hO k i).2 hk)⟩

theorem journalOf_candidate {s : State} {n : Nat} {x : Journal} (hO : tableOrdered s) (h : isCandidate s n x) :
    journalOf s n = some x := journalOf_standsAs hO h.1

/-- A lowest-epoch segment that is a candidate has no journal segment with a lower epoch. -/
theorem lowestEpoch_notLower {s : State} {n m : Nat} {x i : Journal} (hO : tableOrdered s) (hl : lowestEpoch s = some n)
    (hx : journalOf s n = some x) (hi : journalOf s m = some i) : ¬ i.epoch < x.epoch := by
  obtain ⟨k, j, hk, hj, hle⟩ := lowestEpoch_of hO hx
  obtain rfl := Option.some.inj (hl.symm.trans hk)
  obtain rfl := Option.some.inj (hx.symm.trans hj)
  exact BitVec.not_lt.2 (hle m i hi)

/-- In oldest mode a candidate with the lowest epoch is the victim (R144). -/
theorem chooseVictim_oldest {s : State} {v : Nat} {j : Journal} (hO : tableOrdered s) (hv : isCandidate s v j)
    (hcom : 48 ≤ s.commits.length) (hlow : ∀ n x, journalOf s n = some x → n ≠ v → j.epoch < x.epoch) :
    chooseVictim s = some v := by
  have hjv := journalOf_candidate hO hv
  obtain ⟨m, i, hm, hi, -⟩ := lowestEpoch_of hO hjv
  have hmv : m = v := by
    by_contra hne
    exact lowestEpoch_notLower hO hm hi hjv (hlow m i hi hne)
  subst hmv
  have hany : (candidates s).any (fun c => c.1 == m) = true := List.any_eq_true.2 ⟨(m, j), mem_candidates.2 hv, by simp⟩
  rw [chooseVictim, if_pos hcom, hm]
  exact if_pos hany

/-- Where every candidate has a journal segment with a lower epoch, most-dead mode decides (R144). -/
theorem chooseVictim_mostDead {s : State} (hO : tableOrdered s)
    (h : 48 ≤ s.commits.length → ∀ n x, isCandidate s n x → ∃ m i, journalOf s m = some i ∧ i.epoch < x.epoch) :
    chooseVictim s = mostDead s := by
  unfold chooseVictim
  split
  · next hcom =>
    split
    · next n hn =>
      have hno : ¬ (candidates s).any (fun c => c.1 == n) = true := by
        intro hany
        obtain ⟨⟨k, x⟩, hc, hk⟩ := List.any_eq_true.1 hany
        obtain rfl : k = n := by simpa using hk
        have hcand := mem_candidates.1 hc
        obtain ⟨m, i, hi, hlt⟩ := h hcom k x hcand
        exact lowestEpoch_notLower hO hn (journalOf_candidate hO hcand) hi hlt
      rw [if_neg hno]
    · rfl
  · rfl

/-- R144, as `victimChosen` says it. -/
theorem chooseVictim_chosen {s : State} {v : Nat} {j : Journal} (hO : tableOrdered s) (h : victimChosen s v j) :
    chooseVictim s = some v := by
  obtain ⟨hv, ⟨hcom, hlow⟩ | ⟨hold, hdead, hbest⟩⟩ := h
  · exact chooseVictim_oldest hO hv hcom hlow
  · rw [chooseVictim_mostDead hO hold]
    refine mostDead_eq (mem_candidates.2 hv) hdead fun ⟨n, x⟩ hc => ?_
    have hcand := mem_candidates.1 hc
    by_cases hn : n = v
    · subst hn
      have hx := (journalOf_candidate hO hcand).symm.trans (journalOf_candidate hO hv)
      exact .inl (by rw [Option.some.inj hx])
    · exact .inr ((hbest n x hcand hn).imp_right fun ⟨he, hl⟩ => ⟨he.symm, hl⟩)

theorem mem_foldl_pickMostDead {a : Nat × Journal} (l : List (Nat × Journal)) : ∀ b, l.foldl pickMostDead (some b) = some a →
    a ∈ b :: l := by
  induction l with
  | nil => exact fun b h => by simp [Option.some.inj h.symm]
  | cons x l ih =>
    intro b h
    rw [List.foldl_cons] at h
    by_cases hx : outranks x b
    · rw [pickMostDead_first hx] at h
      exact List.mem_cons_of_mem _ (ih x h)
    · rw [pickMostDead_second hx] at h
      rcases List.mem_cons.1 (ih b h) with rfl | ha
      · exact List.mem_cons_self ..
      · exact List.mem_cons_of_mem _ (List.mem_cons_of_mem _ ha)

/-- No victim is chosen where no candidate has a dead line (R144). -/
theorem mostDead_none {s : State} (h : ∀ n x, isCandidate s n x → x.dead = 0) : mostDead s = none := by
  have hm : mostDead s = match (candidates s).foldl pickMostDead none with
    | some (n, j) => if 0 < j.dead then some n else none
    | none => none := rfl
  rw [hm]
  cases hc : candidates s with
  | nil => rfl
  | cons b l =>
    rw [List.foldl_cons, show pickMostDead none b = some b from rfl]
    cases hf : l.foldl pickMostDead (some b) with
    | none => rfl
    | some a =>
      have ha : a ∈ candidates s := hc ▸ mem_foldl_pickMostDead l b hf
      have hdead := h a.1 a.2 (mem_candidates.1 ha)
      exact if_neg (by omega)

theorem chooseVictim_none {s : State} (hO : tableOrdered s) (h : noVictim s) : chooseVictim s = none := by
  rw [chooseVictim_mostDead hO fun hcom n x hc => (h n x hc).2 hcom]
  exact mostDead_none fun n x hc => (h n x hc).1

end Sys2Proof.Machine
end

