-- ==== Sys2Proof/Proofs/VolumeCommands.lean ====
section
/-! MOUNT, UNMOUNT, FORMAT and RECLAIM at their grant (R143, R159, R169–R172). -/

namespace Sys2Proof.Machine

section

variable {s : State} {q : QEntry}

/-- A host command that the state check admits runs. -/
theorem execute_admitted {c : Cmd} (hc : q.cmd = c) (h : stateCheck s.eng.store c = none) :
    execute (grantedWith s (.host q) (freshCtx (.host q))) (freshCtx (.host q)) =
      runCommand (grantedWith s (.host q) (freshCtx (.host q))) .host c := by
  subst hc
  exact execute_passed (s := grantedWith s (.host q) _) h

/-- A host command that completes at its grant, with its effect `u`. -/
theorem grant_completes {u : State} {c : Cmd} {r : Result} (ha : headAlone s (.host q)) (hg : granting s) (hc : q.cmd = c)
    (h : stateCheck s.eng.store c = none) (hh : u.holder = .none) (hq : u.seqr = none)
    (e : runCommand (grantedWith s (.host q) (freshCtx (.host q))) .host c = complete (grantedWith u (.host q) (freshCtx (.host q))) r) :
    exec .arbiterGrant s = .next (answeredAtGrant u (.host q) r) := by
  rw [grant_head ha hg, execute_admitted hc h, e, complete_granted r rfl rfl rfl rfl hh]
  exact congrArg _ (settle_idle hq)

/-- A host command that does not complete at its grant: `t` is what it leads to. -/
theorem grant_leads {t : State} {c : Cmd} (ha : headAlone s (.host q)) (hg : granting s) (hc : q.cmd = c)
    (h : stateCheck s.eng.store c = none) (hq : ∀ l x, t.seqr ≠ some (.program l x))
    (e : runCommand (grantedWith s (.host q) (freshCtx (.host q))) .host c = t) : exec .arbiterGrant s = .next t := by
  rw [grant_head ha hg, execute_admitted hc h, e]
  exact congrArg _ (settle_other hq)

theorem granting_of_mounted (hm : mounted s) : granting s := hm.elim .inl fun h => .inr (.inl h)

theorem granting_of_unmounted (hm : s.eng.store = .unmounted ∨ s.eng.store = .failed) : granting s := .inr (.inr hm)

/-- MOUNT and FORMAT are admitted in every state in which the arbiter grants (R67). -/
theorem stateCheck_volume (hg : granting s) (e n : Word) :
    stateCheck s.eng.store .mount = none ∧ stateCheck s.eng.store (.format e n) = none := by
  rcases hg with h | h | h | h <;> exact h ▸ ⟨rfl, rfl⟩

theorem stateCheck_unmount (hm : mounted s) : stateCheck s.eng.store .unmount = none := by
  rcases hm with h | h <;> exact h ▸ rfl

theorem serving_of_mounted (hm : mounted s) : serving s = true := by
  rcases hm with h | h <;> simp [serving, h]

theorem not_serving (hm : s.eng.store = .unmounted ∨ s.eng.store = .failed) : serving s = false := by
  rcases hm with h | h <;> simp [serving, h]

theorem serving_granted (s : State) (h : Head) (c : Ctx) : serving (grantedWith s h c) = serving s := rfl

/-! ### MOUNT and UNMOUNT -/

theorem mount_mounted (ha : headAlone s (.host q)) (hc : q.cmd = .mount) (hm : mounted s) :
    exec .arbiterGrant s = .next (answeredAtGrant s (.host q) ⟨.ok, 0, s.eng.volId, usableCount s, false, false, false⟩) := by
  have hg := granting_of_mounted hm
  refine grant_completes ha hg hc (stateCheck_volume hg 0 0).1 ha.1.holder_none ha.1.seqr_none ?_
  simp only [runCommand, startMount, serving_granted, serving_of_mounted hm, if_true]
  rfl

theorem mount_unmounted (ha : headAlone s (.host q)) (hc : q.cmd = .mount)
    (hm : s.eng.store = .unmounted ∨ s.eng.store = .failed) :
    exec .arbiterGrant s = .next (mountBegun (grantedWith s (.host q) { freshCtx (.host q) with stage := .mount })) := by
  have hg := granting_of_unmounted hm
  obtain ⟨-, -, -, hreq, -⟩ := ha.1
  refine grant_leads ha hg hc (stateCheck_volume hg 0 0).1 (fun _ _ h => nomatch h) ?_
  simp only [runCommand, startMount, serving_granted, not_serving hm, Bool.false_eq_true, if_false]
  exact mountStart_begun (grantedWith s (.host q) { freshCtx (.host q) with stage := .mount }) hreq

/-- The store after UNMOUNT (R123, R170). -/
def unmountedFrom (s : State) : State :=
  { s with
    eng := { s.eng with store := .unmounted, seqCtr := 0, volId := 0 }
    sm := ⟨[], 0, false⟩, dir := [], freezes := [], commits := [], batch := none, rc := ⟨none, 0, 0⟩
    alert := { s.alert with flags := match s.batch with
      | some b => if b.owner = .host then s.alert.flags ||| 0x10 else s.alert.flags
      | none => s.alert.flags } }

theorem emptied_teardown (s : State) :
    { emptyTables (teardown s false) with rc := ⟨none, 0, 0⟩, eng.store := .unmounted, eng.seqCtr := 0, eng.volId := 0 } =
      unmountedFrom s := by
  unfold unmountedFrom
  cases hb : s.batch with
  | none =>
    rw [teardown_none hb]
    simp only [emptyTables, emptyTable, hb]
  | some b =>
    obtain ⟨T, hT, -⟩ := teardown_eq hb false
    simp only [hT, emptyTables, emptyTable, lostFlags, and_true]

theorem unmount_granted (ha : headAlone s (.host q)) (hc : q.cmd = .unmount) (hm : mounted s) :
    exec .arbiterGrant s = .next (answeredAtGrant (unmountedFrom s) (.host q) ⟨.ok, 0, 0, 0, false, false, false⟩) := by
  refine grant_completes ha (granting_of_mounted hm) hc (stateCheck_unmount hm) ha.1.holder_none ha.1.seqr_none ?_
  rw [runCommand, runUnmount, teardown_granted, ← emptied_teardown]
  rfl

/-! ### FORMAT -/

theorem format_wrongVolume {e n : Word} (ha : headAlone s (.host q)) (hc : q.cmd = .format e n)
    (h : (mounted s ∧ ¬ (e = s.eng.volId ∧ n ≠ s.eng.volId)) ∨ ((s.eng.store = .unmounted ∨ s.eng.store = .failed) ∧ e ≠ 0)) :
    exec .arbiterGrant s = .next (answeredAtGrant s (.host q) ⟨.wrongVolume, 0, 0, 0, false, false, false⟩) := by
  have hg : granting s := h.elim (fun h => granting_of_mounted h.1) fun h => granting_of_unmounted h.1
  refine grant_completes ha hg hc (stateCheck_volume hg e n).2 ha.1.holder_none ha.1.seqr_none ?_
  rw [← completeFail_granted, runCommand, startFormat, serving_granted]
  rcases h with ⟨hm, hne⟩ | ⟨hm, hne⟩
  · rw [if_pos (serving_of_mounted hm)]
    exact if_neg hne
  · rw [if_neg (by simp [not_serving hm])]
    exact if_neg hne

theorem format_check {e n : Word} (ha : headAlone s (.host q)) (hc : q.cmd = .format e n)
    (hm : s.eng.store = .unmounted ∨ s.eng.store = .failed) (he : e = 0) :
    exec .arbiterGrant s = .next { grantedWith s (.host q) { freshCtx (.host q) with stage := .format } with
      fu := some ⟨n, .check 0, [], [], []⟩, holder := .command, seqr := some (.read ⟨0, 0⟩) } := by
  have hg := granting_of_unmounted hm
  obtain ⟨-, -, -, hreq, -⟩ := ha.1
  refine grant_leads ha hg hc (stateCheck_volume hg e n).2 (fun _ _ h => nomatch h) ?_
  rw [runCommand, startFormat, serving_granted, if_neg (by simp [not_serving hm])]
  refine (if_pos he).trans ((issue_taken ?_ _).trans rfl)
  exact hreq

theorem formatCount_mounted (s : State) (f : FormatCtx) (k : Nat) : formatCount s f true k =
    match segEntry s k with | some x => (x.eraseCount, x.known) | none => (0, false) := by
  rw [formatCount, if_pos rfl]
  cases segEntry s k <;> rfl

theorem victimFreed_eq (s : State) (k : Nat) : victimFreed s k = (segEntry s k).any (fun x => x.st == .free) := by
  unfold victimFreed
  cases segEntry s k <;> rfl

theorem format_entered {e n : Word} {u : State} (ha : headAlone s (.host q)) (hc : q.cmd = .format e n) (hm : mounted s)
    (he : e = s.eng.volId) (hn : n ≠ s.eng.volId)
    (hu : u = teardown (grantedWith s (.host q) { freshCtx (.host q) with stage := .format }) false) :
    formatEntered u ⟨n, .check 0, [], [], []⟩
      (fun k => match segEntry s k with | some x => (x.eraseCount, x.known) | none => (0, false))
      ((List.range 64).filter (fun k => (segEntry s k).any (fun x => x.st == .free))
        ++ (List.range 64).filter (fun k => !(segEntry s k).any (fun x => x.st == .free)))
      (exec .arbiterGrant s) := by
  intro m rest hcand
  have hg := granting_of_mounted hm
  obtain ⟨-, -, -, hreq, -⟩ := ha.1
  have hstage : setStage (teardown (grantedWith s (.host q) (freshCtx (.host q))) false) .format = u := by
    rw [hu, teardown_granted, teardown_granted]
    rfl
  have hureq : u.eng.haltReq = false := by
    obtain ⟨-, -, heng, -⟩ := teardown_work (grantedWith s (.host q) { freshCtx (.host q) with stage := .format }) false
    rw [hu, heng]
    exact hreq
  have hcands : formatCandidates (grantedWith s (.host q) (freshCtx (.host q))) true = m :: rest := by
    rw [← hcand]
    simp only [formatCandidates, if_true, victimFreed_eq]
    rfl
  refine grant_leads ha hg hc (stateCheck_volume hg e n).2 (fun _ _ h => nomatch h) ?_
  rw [runCommand, startFormat, serving_granted, if_pos (serving_of_mounted hm)]
  exact (if_pos ⟨he, hn⟩).trans (formatEnter_begun hstage hureq (formatCount_mounted _ _) hcands)

/-! ### RECLAIM -/

theorem reclaim_adopts {r : Reclaim} (ha : headAlone s (.host q)) (hc : q.cmd = .reclaim) (hr : s.eng.store = .ready)
    (hctx : s.rc.ctx = some r) :
    exec .arbiterGrant s = .next (grantedWith s (.host q) { freshCtx (.host q) with stage := .reclaim }) := by
  refine grant_leads ha (.inl hr) hc (by rw [hr]; rfl) (fun l x h => ?_) ?_
  · exact nomatch ha.1.seqr_none.symm.trans h
  · simp only [runCommand, startReclaim, show (grantedWith s (.host q) (freshCtx (.host q))).rc.ctx = some r from hctx]
    rfl

theorem reclaim_chooses {v : Nat} {j : Journal} (ha : headAlone s (.host q)) (hc : q.cmd = .reclaim) (hr : s.eng.store = .ready)
    (hctx : s.rc.ctx = none) (hO : tableOrdered s) (hv : victimChosen s v j) :
    ∃ t, exec .arbiterGrant s = .next t
      ∧ t.inflight = some { freshCtx (.host q) with stage := .reclaim } ∧ t.holder = .none ∧ t.seqr = none
      ∧ t.rc = { s.rc with ctx := some ⟨v, .walk, 2, 0, false, none, .idle⟩ } ∧ standsAs t v (.reclaiming j)
      ∧ t.host = (Head.host q).grantHost s.host ∧ t.dir = s.dir ∧ t.commits = s.commits := by
  obtain ⟨-, hq, hh, -, -⟩ := ha.1
  have hchosen : chooseVictim (grantedWith s (.host q) (freshCtx (.host q))) = some v := chooseVictim_chosen (s := grantedWith s _ _) hO hv
  obtain ⟨⟨⟨e, he, hn, hst⟩, -⟩, -⟩ := hv
  have hstands : standsAs (startVictim (grantedWith s (.host q) (freshCtx (.host q))) v) v (.reclaiming j) := by
    rw [startVictim_eq]
    exact ⟨_, mem_entryChanged asVictim he hn, hn, by simp only [asVictim, hst]⟩
  have hrun : runCommand (grantedWith s (.host q) (freshCtx (.host q))) .host .reclaim =
      setStage (startVictim (grantedWith s (.host q) (freshCtx (.host q))) v) .reclaim := by
    simp only [runCommand, startReclaim, show (grantedWith s (.host q) (freshCtx (.host q))).rc.ctx = none from hctx, hchosen]
  refine ⟨_, grant_leads ha (.inl hr) hc (by rw [hr]; rfl) (fun l x h => ?_) hrun, ?_⟩
  · rw [startVictim_eq] at h
    exact nomatch hq.symm.trans h
  · rw [startVictim_eq] at hstands ⊢
    exact ⟨rfl, hh, hq, rfl, hstands, rfl, rfl, rfl⟩

theorem reclaim_none (ha : headAlone s (.host q)) (hc : q.cmd = .reclaim) (hr : s.eng.store = .ready)
    (hctx : s.rc.ctx = none) (hO : tableOrdered s) (hv : noVictim s) :
    exec .arbiterGrant s = .next (answeredAtGrant s (.host q) ⟨.ok, 0, 0, 0, false, false, false⟩) := by
  have hchosen : chooseVictim (grantedWith s (.host q) (freshCtx (.host q))) = none := chooseVictim_none (s := grantedWith s _ _) hO hv
  refine grant_completes ha (.inl hr) hc (by rw [hr]; rfl) ha.1.holder_none ha.1.seqr_none ?_
  simp only [runCommand, startReclaim, show (grantedWith s (.host q) (freshCtx (.host q))).rc.ctx = none from hctx, hchosen]
  rfl

end

end Sys2Proof.Machine
end

