-- ==== Sys2Proof/Proofs/ReclaimEnds.lean ====
section
/-! How a victim leaves RECLAIMING under a RECLAIM command (R143, R151–R153). -/

namespace Sys2Proof.Machine

/-! ### Retirement with usable segments to spare -/

theorem countP_entryChanged_le (p : SegEntry → Bool) (n : Nat) (g : SegEntry → SegEntry) (l : List SegEntry)
    (h : (l.map SegEntry.num).Pairwise (· < ·)) :
    l.countP p ≤ (l.map (fun e => if e.num = n then g e else e)).countP p + 1 := by
  induction l with
  | nil => exact Nat.zero_le _
  | cons x l ih =>
    obtain ⟨hx, hl⟩ := List.pairwise_cons.1 h
    rw [List.map_cons, List.countP_cons, List.countP_cons]
    by_cases hn : x.num = n
    · have hrest : l.map (fun e => if e.num = n then g e else e) = l := by
        refine (List.map_congr_left fun e he => ?_).trans (List.map_id _)
        have hlt := hx e.num (List.mem_map_of_mem he)
        exact if_neg (by omega)
      rw [hrest]
      split <;> split <;> omega
    · rw [if_neg hn]
      have := ih hl
      omega

/-- A retirement that leaves four usable segments is a change of the entry and an alert (R44, R45). -/
theorem retireSegment_spare {s : State} {n : Nat} (hO : tableOrdered s) (h : 5 ≤ usableCount s) :
    ∃ a, retireSegment s n = { entryChanged s n (fun e => { e with st := .retired }) with alert := a } := by
  obtain ⟨a, ha⟩ := segUpd_changes s n (fun e => { e with st := .retired })
  have hle := countP_entryChanged_le (fun e => !e.isRetired) n (fun e => { e with st := .retired }) s.sm.table hO
  have hret : raise (setSegState s n .retired) .fault = { entryChanged s n (fun e => { e with st := .retired }) with
      alert := (raise (setSegState s n .retired) .fault).alert } := by
    rw [setSegState, ha]
    rfl
  have hno : ¬ (4 ≤ usableCount s ∧ usableCount (raise (setSegState s n .retired) .fault) < 4) := by
    rintro ⟨-, hlt⟩
    rw [hret] at hlt
    have : usableCount s ≤ (s.sm.table.map (fun e => if e.num = n then { e with st := .retired } else e)).countP
      (fun e => !e.isRetired) + 1 := hle
    have : (s.sm.table.map (fun e => if e.num = n then { e with st := .retired } else e)).countP (fun e => !e.isRetired) < 4 := hlt
    omega
  exact ⟨_, (if_neg hno).trans hret⟩

/-! ### The command is told (R143) -/

section

variable {s x : State} {c : Ctx} {r : Reclaim} {e : SegEntry} {res : Result}

/-- The RECLAIM command of a victim that has left completes. -/
theorem tellTrigger_reclaim (hi : x.inflight = some c) (hst : c.stage = .reclaim) (ht : c.tearDue = false) :
    tellTrigger x res = syncIdle (answeredCmd x c res) := by
  simp only [tellTrigger, hi, hst]
  exact complete_ports res hi ht

/-- `x` with the reclaim context and the sequencer given up. -/
def victimLeft (x : State) : State := { x with rc := { x.rc with ctx := none }, holder := .none }

/-- What the completion that follows leaves. -/
theorem victimLeft_over (hi : x.inflight = some c) (hst : c.stage = .reclaim) (ht : c.tearDue = false) (hh : x.host = s.host)
    (hm : x.mgmt = s.mgmt) (hq : x.seqr = none) (hreq : x.eng.haltReq = false) :
    ∃ u, reported (tellTrigger (victimLeft x) res) = .next u ∧ u.sm = x.sm ∧ u.eng = x.eng ∧ u.alert = x.alert
      ∧ reclaimOver s u c res := by
  rw [tellTrigger_reclaim (x := victimLeft x) hi hst ht]
  exact ⟨_, reported_idle hreq hq, rfl, rfl, rfl, rfl, ⟨rfl, rfl, hq⟩, handed_published hh hm⟩

/-- The finish step ends with the victim's entry changed by `g`. -/
theorem finish_over {g : SegEntry → SegEntry} {p : PrepStage} {rep : Report} (hi : x.inflight = some c) (hst : c.stage = .reclaim)
    (ht : c.tearDue = false) (hh : x.host = s.host) (hm : x.mgmt = s.mgmt) (hq : x.seqr = none) (hreq : x.eng.haltReq = false)
    (he : segEntry x r.victim = some e) (hg : ∀ y, (g y).num = y.num)
    (hp : ∃ a, prepReport x r.victim p x.eng.volId rep = ({ entryChanged x r.victim g with alert := a }, none)) :
    ∃ u, reported (finishReport x r p rep) = .next u ∧ segEntry u r.victim = some (g e)
      ∧ reclaimOver s u c (victimResult r (if (g e).isFree then .freed else .retired)) := by
  obtain ⟨a, hprep⟩ := hp
  have hentry : segEntry (entryChanged x r.victim g) r.victim = some (g e) := by
    rw [segEntry_entryChanged x r.victim r.victim g hg, he, Option.map_some, if_pos (segEntry_num he)]
  have hfreed : victimFreed { entryChanged x r.victim g with alert := a } r.victim = (g e).isFree := by
    rw [victimFreed, show segEntry { entryChanged x r.victim g with alert := a } r.victim = some (g e) from hentry]
    rfl
  have hend : finishReport x r p rep = tellTrigger (victimLeft { entryChanged x r.victim g with alert := a })
      (victimResult r (if (g e).isFree then .freed else .retired)) := by
    simp only [finishReport, hprep, hfreed]
    cases (g e).isFree <;> rfl
  obtain ⟨u, hu, hsm, -, -, hover⟩ := victimLeft_over (s := s) (x := { entryChanged x r.victim g with alert := a })
    (res := victimResult r (if (g e).isFree then .freed else .retired)) hi hst ht hh hm hq hreq
  refine ⟨u, hend ▸ hu, ?_, hover⟩
  rw [segEntry, hsm]
  exact hentry

theorem finish_reported {p : PrepStage} (hstep : r.step = .finish p) (hh : x.holder = .reclaim) (hctx : x.rc.ctx = some r)
    (loc : Loc) (rep : Report) : onReport x loc rep = finishReport x r p rep := by
  rw [onReport_reclaim hh hctx]
  simp only [reclaimReport, hstep]

/-! ### The finish step of a RECLAIM command's victim (R153) -/

/-- The command whose victim stands, as the statement has it. -/
structure Finishing (s : State) (c : Ctx) (r : Reclaim) (e : SegEntry) (p : PrepStage) : Prop where
  inflight : s.inflight = some c
  stage : c.stage = .reclaim
  tear : c.tearDue = false
  ctx : s.rc.ctx = some r
  entry : segEntry s r.victim = some e
  step : r.step = .finish p

variable {l : Loc} {content : LineBits}

theorem finish_freed (f : Finishing s c r e .spare) (ho : operating s .reclaim (.program l content)) :
    ∃ u, exec .programDone s = .next u ∧ segEntry u r.victim = some { e with st := .free, known := true }
      ∧ reclaimOver s u c ⟨.ok, 0, 0, 254 - r.copied, false, false, r.copyRetried⟩ := by
  obtain ⟨-, -, hreq, hh, -⟩ := id ho
  obtain ⟨a, ha⟩ := segUpd_changes (ended s l (.good content)) r.victim (fun y => { y with st := .free, known := true })
  rw [operating_done ho, finish_reported (x := ended s l (.good content)) f.step hh f.ctx]
  exact finish_over (x := ended s l (.good content)) (g := fun y => { y with st := .free, known := true }) f.inflight f.stage f.tear
    rfl rfl rfl hreq f.entry (fun _ => rfl) ⟨a, congrArg (·, none) ha⟩

theorem finish_retired_read (f : Finishing s c r e .retireRead) (ho : operating s .reclaim (.read l)) (hO : tableOrdered s)
    (hl : lineAt s l ≠ .erased) (hu : 5 ≤ usableCount s) :
    ∃ u, exec .readDone s = .next u ∧ segEntry u r.victim = some { e with st := .retired }
      ∧ reclaimOver s u c ⟨.ok, 0, 0, 0, false, false, r.copyRetried⟩ := by
  obtain ⟨-, -, hreq, hh, -⟩ := id ho
  obtain ⟨a, ha⟩ := retireSegment_spare (s := atRest s) (n := r.victim) hO hu
  have hread : exec .readDone s = reported (onReport (atRest s) l (.readDone (lineAt s l))) := operating_read ho
  rw [hread, finish_reported (x := atRest s) f.step hh f.ctx]
  exact finish_over (x := atRest s) (g := fun y => { y with st := .retired }) f.inflight f.stage f.tear
    rfl rfl rfl hreq f.entry (fun _ => rfl) ⟨a, (if_neg hl).trans (congrArg (·, none) ha)⟩

/-- A KNOWN mark and a retirement are one change of the entry. -/
theorem retire_known {n : Nat} (hO : tableOrdered x) (hu : 5 ≤ usableCount x) :
    ∃ a, retireSegment (markKnown x n) n = { entryChanged x n (fun y => { y with st := .retired, known := true }) with
      alert := a } := by
  obtain ⟨a, ha⟩ := segUpd_changes x n (fun y => { y with known := true })
  have hsame : usableCount { entryChanged x n (fun y => { y with known := true }) with alert := a } = usableCount x := by
    simp only [usableCount, entryChanged, List.countP_map]
    refine List.countP_congr fun y _ => ?_
    by_cases hy : y.num = n <;> simp [hy, SegEntry.isRetired]
  have hO' : tableOrdered { entryChanged x n (fun y => { y with known := true }) with alert := a } :=
    tableOrdered_map (fun y => if y.num = n then { y with known := true } else y) (fun y => by split <;> rfl) rfl hO
  obtain ⟨b, hb⟩ := retireSegment_spare (n := n) hO' (hsame.symm ▸ hu)
  refine ⟨b, ?_⟩
  rw [markKnown, ha]
  exact hb.trans (congrArg (fun t : State => { t with alert := b })
    (entryChanged_again x n (fun y => { y with known := true }) (fun y => { y with st := .retired }) fun _ => rfl))

theorem finish_retired_line (f : Finishing s c r e .retireProg) (ho : operating s .reclaim (.program l content))
    (hO : tableOrdered s) (hu : 5 ≤ usableCount s) :
    ∃ u, exec .programDone s = .next u ∧ segEntry u r.victim = some { e with st := .retired, known := true }
      ∧ reclaimOver s u c ⟨.ok, 0, 0, 0, false, false, r.copyRetried⟩ := by
  obtain ⟨-, -, hreq, hh, -⟩ := id ho
  obtain ⟨a, ha⟩ := retire_known (x := ended s l (.good content)) (n := r.victim) hO hu
  rw [operating_done ho, finish_reported (x := ended s l (.good content)) f.step hh f.ctx]
  exact finish_over (x := ended s l (.good content)) (g := fun y => { y with st := .retired, known := true }) f.inflight f.stage f.tear
    rfl rfl rfl hreq f.entry (fun _ => rfl) ⟨a, congrArg (·, none) ha⟩

/-! ### A copy that cannot be made (R151, R152) -/

theorem segEntry_asClosed {v : Journal} (he : segEntry x r.victim = some e) (hv : e.st = .reclaiming v) :
    segEntry (entryChanged x r.victim asClosed) r.victim = some { e with st := .closed v } := by
  rw [segEntry_entryChanged x r.victim r.victim asClosed fun _ => rfl, he, Option.map_some, if_pos (segEntry_num he), asClosed, hv]

/-- A second fault on one copy. -/
theorem copy_fails_twice {a : Attempt} {k : Nat} {v : Journal} (h : copying s r a k l content) (hret : a.retried = true)
    (hi : s.inflight = some c) (hst : c.stage = .reclaim) (ht : c.tearDue = false) (he : segEntry s r.victim = some e)
    (hv : e.st = .reclaiming v) (hne : a.place.seg ≠ r.victim) :
    ∃ u, exec .programDeadlineExpiry s = .next u ∧ segEntry u r.victim = some { e with st := .closed v }
      ∧ reclaimOver s u c ⟨.mediaFault, 0, 0, 0, false, false, r.copyRetried⟩ := by
  have hreport := copy_faulted h
  obtain ⟨-, -, hreq, -, -, -, -, -⟩ := h
  have hentry : segEntry (segmentFaulted (ended s l .torn) a.place.seg (extentOf a.hdr.len)) r.victim = some e := by
    refine (segEntry_entryChanged (ended s l .torn) a.place.seg r.victim (faultClosed · _) fun _ => rfl).trans ?_
    rw [show segEntry (ended s l .torn) r.victim = some e from he, Option.map_some, if_neg (by rw [segEntry_num he]; exact hne.symm)]
  have hleft : victimLeaves (segmentFaulted (ended s l .torn) a.place.seg (extentOf a.hdr.len)) r .copyFaulted =
      tellTrigger (victimLeft (entryChanged (segmentFaulted (ended s l .torn) a.place.seg (extentOf a.hdr.len)) r.victim asClosed))
        ⟨.mediaFault, 0, 0, 0, false, false, r.copyRetried⟩ := by
    exact congrArg (tellTrigger · _) (returnVictim_eq _ _)
  rw [hreport, copyFault_eq (s := ended s l .torn) hreq, if_pos hret, hleft]
  obtain ⟨u, hu, hsm, -, -, hover⟩ := victimLeft_over (s := s)
    (x := entryChanged (segmentFaulted (ended s l .torn) a.place.seg (extentOf a.hdr.len)) r.victim asClosed)
    (res := ⟨.mediaFault, 0, 0, 0, false, false, r.copyRetried⟩) hi hst ht rfl rfl rfl hreq
  refine ⟨u, hu, ?_, hover⟩
  rw [segEntry, hsm]
  exact segEntry_asClosed hentry hv

/-- READ_ONLY entered under the command `c`, at the end of which a batch is to be torn down (R69). -/
def readOnlyUnder (x : State) (c : Ctx) : State :=
  { x with
    eng := { x.eng with store := .readOnly }, alert := { x.alert with flags := x.alert.flags ||| 0x80 }
    inflight := some { c with tearDue := true } }

theorem enterReadOnly_reclaim (hi : x.inflight = some c) (hst : c.stage = .reclaim) (hr : x.eng.store = .ready) :
    enterReadOnly x = readOnlyUnder x c := by
  simp only [enterReadOnly, hr, ne_eq, not_true_eq_false, if_false, raise, hi, modCtx, hst, Option.map_some, readOnlyUnder,
    Alert.mask]

theorem tellTrigger_noBatch (hi : x.inflight = some c) (hst : c.stage = .reclaim) (hb : x.batch = none) :
    tellTrigger x res = answeredCmd x c res := by
  simp only [tellTrigger, hi, hst]
  exact complete_noBatch res hi hb

/-- No segment can be opened for a copy: the victim returns and READ_ONLY is entered. -/
theorem noSegment_leaves {v : Journal} (hi : x.inflight = some c) (hst : c.stage = .reclaim) (hh : x.host = s.host)
    (hm : x.mgmt = s.mgmt) (hq : x.seqr = none) (hreq : x.eng.haltReq = false) (hr : x.eng.store = .ready) (hb : x.batch = none)
    (he : segEntry x r.victim = some e) (hv : e.st = .reclaiming v) :
    ∃ u, reported (victimLeaves x r .noSegment) = .next u ∧ segEntry u r.victim = some { e with st := .closed v }
      ∧ u.eng = { x.eng with store := .readOnly } ∧ u.alert.flags = x.alert.flags ||| 0x80
      ∧ reclaimOver s u c ⟨.readOnly, 0, 0, 0, false, false, r.copyRetried⟩ := by
  have hleft : victimLeaves x r .noSegment =
      tellTrigger (enterReadOnly (victimLeft (entryChanged x r.victim asClosed))) ⟨.readOnly, 0, 0, 0, false, false, r.copyRetried⟩ :=
    congrArg (fun y => tellTrigger (enterReadOnly y) _) (returnVictim_eq _ _)
  have hro := enterReadOnly_reclaim (x := victimLeft (entryChanged x r.victim asClosed)) hi hst hr
  have htold := tellTrigger_noBatch (x := readOnlyUnder (victimLeft (entryChanged x r.victim asClosed)) c)
    (res := ⟨.readOnly, 0, 0, 0, false, false, r.copyRetried⟩) rfl hst hb
  rw [hleft, hro, htold]
  exact ⟨_, reported_idle hreq hq, segEntry_asClosed he hv, rfl, rfl, rfl, ⟨rfl, rfl, hq⟩,
    handedTo_of (congrArg (fun p => hostHanded p c ⟨.readOnly, 0, 0, 0, false, false, r.copyRetried⟩) hh)
      (congrArg (fun p => mgmtHanded p c ⟨.readOnly, 0, 0, 0, false, false, r.copyRetried⟩) hm)⟩

/-- A walk that reads a record of two lines to copy, where the OPEN segment has no room and no segment is FREE. -/
theorem walk_noSegment {h : Hdr} {v : Journal} (hw : walkReading s r l) (hp : parseHeader (lineAt s l) = some h)
    (hn : namedAt s h l) (hd : ¬ droppedAt s h l) (hlen : h.len = 0) (hroom : noRoomFor s 2) (hfree : freeCount s = 0)
    (hi : s.inflight = some c) (hst : c.stage = .reclaim) (he : segEntry s r.victim = some e) (hv : e.st = .reclaiming v)
    (hr : s.eng.store = .ready) (hb : s.batch = none) :
    ∃ u, exec .readDone s = .next u ∧ segEntry u r.victim = some { e with st := .closed v }
      ∧ u.eng = { s.eng with store := .readOnly } ∧ u.alert.flags = s.alert.flags ||| 0x80
      ∧ reclaimOver s u c ⟨.readOnly, 0, 0, 0, false, false, r.copyRetried⟩ := by
  have hread := walk_reported hw
  rw [walkHeader_copied hw hp (fateOf_copied hn hd)] at hread
  obtain ⟨-, -, hreq, -, -, -, -, -⟩ := hw
  have hcount : dataLineCount h.len = 0 := by rw [hlen]; rfl
  have hext : extentOf h.len = 2 := by rw [hlen]; rfl
  have hnone : ∀ f, ∃ p, findPlace (modRc (atRest s) f) (extentOf h.len) 1 none = p ∧ (p = .noEpoch ∨ p = .noSegment) := by
    intro f
    refine ⟨_, rfl, ?_⟩
    rw [hext, findPlace_free (s := modRc (atRest s) f) hroom, findPlace.findFree]
    split
    · exact .inl rfl
    · exact .inr (if_neg (by rw [show freeCount (modRc (atRest s) f) = 0 from hfree]; decide))
  have hcopy : ∃ f, startCopy (atRest s) r h l = victimLeaves (modRc (atRest s) f) r .noSegment := by
    refine ⟨fun r => { r with attempt := some ⟨l, h, [], copyLines ⟨l, h, [], [], false, l⟩, false, l⟩ }, ?_⟩
    rw [startCopy, if_pos hcount, buildCopy, admitCopy, if_neg (by simp [modRc, atRest, hreq])]
    obtain ⟨p, hp, rfl | rfl⟩ := hnone fun r => { r with attempt := some ⟨l, h, [], copyLines ⟨l, h, [], [], false, l⟩, false, l⟩ } <;>
      simp only [hp]
  obtain ⟨f, hf⟩ := hcopy
  rw [hread, hf]
  exact noSegment_leaves (s := s) (x := modRc (atRest s) f) hi hst rfl rfl rfl hreq hr hb he hv

end

/-- Settles O48: each of the four commands by what its row does at the grant; a victim that leaves by the completion that its
end gives; FORMAT by its volume check and its two steps. -/
theorem volumeCommandsAtTheGrant : Obligations.VolumeCommandsAtTheGrant := by
  refine ⟨fun s q ha => ⟨mount_mounted ha, mount_unmounted ha, unmount_granted ha, fun _ _ => format_wrongVolume ha,
      fun _ _ => format_check ha, fun _ _ _ hc hm he hn hu => format_entered ha hc hm he hn hu, fun hc hr =>
        ⟨fun _ => reclaim_adopts ha hc hr, fun _ _ => reclaim_chooses ha hc hr, reclaim_none ha hc hr⟩⟩,
    fun s c r e l content hst ht hi hctx _ hO he => ⟨fun hstep ho => finish_freed ⟨hi, hst, ht, hctx, he, hstep⟩ ho,
      fun hstep ho hl hu => finish_retired_read ⟨hi, hst, ht, hctx, he, hstep⟩ ho hO hl hu,
      fun hstep ho hu => finish_retired_line ⟨hi, hst, ht, hctx, he, hstep⟩ ho hO hu,
      fun _ _ hw hp hn hd hlen hroom hfree hv hr hb => walk_noSegment hw hp hn hd hlen hroom hfree hi hst he hv hr hb,
      fun _ _ _ h hret hv hne => copy_fails_twice h hret hi hst ht he hv hne⟩,
    fun s c t n f f' y ho hi hor hst hseq hret htear hfu _ hy hf =>
      let ⟨hnext, hrefused, henters⟩ := volume_check ho hi hor hst hseq hret htear hfu hy hf
      ⟨hnext, hrefused, fun hn hid hb _ => henters hn hid hb⟩, ?_⟩
  intro s f n first p content e hstore hfu hO hn _ he hd
  refine ⟨fun hph => ⟨?_, ?_, ?_, ?_⟩, fun hph ho => step_open_ends hfu hph ho hO he hd⟩
  · rintro rfl ho
    exact step_erase_ends ⟨ho.holder_eq, hfu, hph⟩ ho hn he
  · rintro rfl ho
    exact step_spare_ends ⟨ho.holder_eq, hfu, hph⟩ ho hO he hd
  · rintro rfl ho
    exact step_retireRead_ends ⟨ho.holder_eq, hfu, hph⟩ ho hstore hO he hd
  · rintro rfl ho
    exact step_retireProg_ends ⟨ho.holder_eq, hfu, hph⟩ ho hstore hO he hd

end Sys2Proof.Machine
end

