-- ==== Sys2Proof/Proofs/PowerWarning.lean ====
section
/-! PFW# asserted, and the ends of reads, mounts and FORMATs under a halt request (R83, R84). -/

namespace Sys2Proof.Machine

/-! ### PFW# asserted -/

/-- `s` with PFW# asserted and a halt requested. -/
def warned (s : State) : State :=
  { s with pins := { s.pins with pfwLow := true }, eng := { s.eng with haltReq := true, recovery := false } }

theorem exec_pfwAssert {s : State} (h : s.pins.resetLow = false) : exec .pfwAssert s = .next (haltIfDue (warned s)) :=
  congrArg Host.Outcome.next (if_neg (by simp [h]))

theorem haltIfDue_due {s : State} (hreq : s.eng.haltReq = true) (hq : s.seqr = none) (hs : s.eng.store ≠ .halted) :
    haltIfDue s = haltEntry s := if_pos (by simp [hreq, hq, hs])

theorem haltIfDue_busy {s : State} {op : SeqOp} (hq : s.seqr = some op) : haltIfDue s = s := if_neg (by simp [hq])

theorem haltIfDue_halted {s : State} (hs : s.eng.store = .halted) : haltIfDue s = s := if_neg (by simp [hs])

theorem power_warning {s u : State} (hr : s.pins.resetLow = false) (hu : u = warned s) :
    (∀ op, s.seqr = some op → exec .pfwAssert s = .next u)
    ∧ (s.seqr = none → s.eng.store ≠ .halted → quiet s → exec .pfwAssert s = .next (haltedQuietly u))
    ∧ (s.eng.store = .halted → exec .pfwAssert s = .next u)
    ∧ (s.seqr = none → s.eng.store ≠ .halted → noCopyLine s →
      (s.inflight = none → exec .pfwAssert s = .next (haltedWith u))
      ∧ ∀ (c : Ctx) (r : Result), s.inflight = some c → c.unstopped → haltedResult s c r →
        exec .pfwAssert s = .next (haltedWith (answeredCmd u c r))) := by
  subst hu
  rw [exec_pfwAssert hr]
  have due : s.seqr = none → s.eng.store ≠ .halted → haltIfDue (warned s) = haltEntry (warned s) :=
    haltIfDue_due (s := warned s) rfl
  refine ⟨fun op hq => ?_, fun hq hs hquiet => ?_, fun hs => ?_, fun hq hs hcopy => ⟨fun hi => ?_, fun c r hi hc hres => ?_⟩⟩
  · rw [haltIfDue_busy (s := warned s) hq]
  · rw [due hq hs, haltEntry_quiet (warned s) hquiet]
  · rw [haltIfDue_halted (s := warned s) hs]
  · rw [due hq hs, haltEntry_idle (warned s) hcopy hi]
  · rw [due hq hs, haltEntry_command (warned s) hcopy c r hi hc hres]

/-! ### An operation ends the same without a halt request -/

/-- `s` without a halt request. -/
def unheld (s : State) : State := { s with eng := { s.eng with haltReq := false } }

theorem heldBack_unheld {s : State} (h : s.eng.haltReq = true) : heldBack (atRest (unheld s)) = atRest s := by
  simp only [heldBack, atRest, unheld, ← h]

theorem setLine_unheld (s : State) (l : Loc) (v : Line) : setLine (unheld s) l v = unheld (setLine s l v) := by
  unfold setLine
  split <;> rfl

theorem partialErase_unheld (s : State) (n : Nat) : partialErase (unheld s) n = unheld (partialErase s n) := by
  have htear : tearLines (eraseSegment (unheld s) n) n (Config.freeErase s.free) =
      unheld (tearLines (eraseSegment s n) n (Config.freeErase s.free)) := by
    refine List.foldl_hom unheld (l := List.range 256) (init := eraseSegment s n) fun t k => ?_
    split
    · exact setLine_unheld t _ _
    · rfl
  exact congrArg (fun t : State => { t with free := s.free + 1 }) htear

theorem opEnds_reports {s : State} (h : s.ctl.srst = false) (loc : Loc) (rep : Report) :
    opEnds s loc rep = settleRefused 8 (deliver (atRest s) loc rep) := if_neg (by simp [h])

/-- What an event makes of the operation `op` of `s`: the lines after it are `t`'s, and `rep` is its report. -/
inductive OpEnds (s : State) : Instr → SeqOp → State → Loc → Report → Prop
  | read (l : Loc) : OpEnds s .readDone (.read l) s l (.readDone (lineAt s l))
  | programmed (l : Loc) (c : LineBits) : OpEnds s .programDone (.program l c) (setLine s l (.good c)) l .programDone
  | expired (l : Loc) (c : LineBits) :
    OpEnds s .programDeadlineExpiry (.program l c) (setLine s l .torn) l (.programFault .expired)
  | erased (n : Nat) : OpEnds s .eraseDone (.erase n) (eraseSegment s n) ⟨n, 0⟩ .eraseDone
  | eraseExpired (n : Nat) : OpEnds s .eraseDeadlineExpiry (.erase n) (partialErase s n) ⟨n, 0⟩ .eraseFault

theorem exists_opEnds {i : Instr} {op : SeqOp} (s : State) (h : endsOp i op) : ∃ t loc rep, OpEnds s i op t loc rep := by
  match i, op, h with
  | .readDone, .read l, _ => exact ⟨_, _, _, .read l⟩
  | .programDone, .program l c, _ => exact ⟨_, _, _, .programmed l c⟩
  | .programDeadlineExpiry, .program l c, _ => exact ⟨_, _, _, .expired l c⟩
  | .eraseDone, .erase n, _ => exact ⟨_, _, _, .erased n⟩
  | .eraseDeadlineExpiry, .erase n, _ => exact ⟨_, _, _, .eraseExpired n⟩

section

variable {s t : State} {i : Instr} {op : SeqOp} {loc : Loc} {rep : Report}

theorem OpEnds.stored (h : OpEnds s i op t loc rep) : ∃ m f, t = { s with array := m, free := f } := by
  cases h with
  | read => exact ⟨_, _, rfl⟩
  | programmed _ c =>
    obtain ⟨m, hm⟩ := setLine_eq s loc (.good c)
    exact ⟨m, _, hm⟩
  | expired =>
    obtain ⟨m, hm⟩ := setLine_eq s loc .torn
    exact ⟨m, _, hm⟩
  | erased n => exact ⟨_, _, rfl⟩
  | eraseExpired n =>
    obtain ⟨m, hm⟩ := partialErase_eq s n
    exact ⟨m, _, hm⟩

theorem OpEnds.unheld (h : OpEnds s i op t loc rep) : OpEnds (unheld s) i op (unheld t) loc rep := by
  cases h with
  | read => exact .read loc
  | programmed _ c => exact setLine_unheld s loc (.good c) ▸ .programmed loc c
  | expired _ c => exact setLine_unheld s loc .torn ▸ .expired loc c
  | erased n => exact .erased n
  | eraseExpired n => exact partialErase_unheld s n ▸ .eraseExpired n

theorem OpEnds.exec_eq (h : OpEnds s i op t loc rep) (hr : s.pins.resetLow = false) (hsr : s.ctl.srst = false)
    (hq : s.seqr = some op) : exec i s = .next (settleRefused 8 (deliver (atRest t) loc rep)) := by
  have hts : t.ctl.srst = false := by
    obtain ⟨m, f, rfl⟩ := h.stored
    exact hsr
  rw [← opEnds_reports hts]
  cases h with
  | read => exact ifHigh_of_resetHigh hr (readDone_of hq)
  | programmed => exact ifHigh_of_resetHigh hr (programDone_of hq)
  | expired => exact ifHigh_of_resetHigh hr (programExpires_of hq)
  | erased => exact ifHigh_of_resetHigh hr (eraseDone_of hq)
  | eraseExpired => exact ifHigh_of_resetHigh hr (eraseExpires_of hq)

/-- The unit that acts on the report acts as without a halt request, and HALTED follows (R83). -/
theorem OpEnds.halts {w : State} (h : OpEnds s i op t loc rep) (hr : s.pins.resetLow = false) (hsr : s.ctl.srst = false)
    (hreq : s.eng.haltReq = true) (hq : s.seqr = some op)
    (hheld : onReport (heldBack (atRest (Machine.unheld t))) loc rep = heldBack (onReport (atRest (Machine.unheld t)) loc rep))
    (hissuing : Issuing (onReport (atRest (Machine.unheld t)) loc rep))
    (hw : exec i { s with eng := { s.eng with haltReq := false } } = .next w) :
    (w.inflight = none → exec i s = .next (haltedWith (heldBack w)))
    ∧ ∀ (c : Ctx) (r : Result), w.inflight = some c → c.unstopped → haltedResult w c r →
      exec i s = .next (haltedWith (answeredCmd (heldBack w) c r)) := by
  have hback : heldBack (atRest (Machine.unheld t)) = atRest t := heldBack_unheld (by
    obtain ⟨m, f, rfl⟩ := h.stored
    exact hreq)
  exact halted_after_report s w i (atRest (Machine.unheld t)) loc rep (hback ▸ h.exec_eq hr hsr hq)
    (h.unheld.exec_eq hr hsr hq) hheld hissuing hw

/-- Without a halt request the step ends with what the unit makes of the report. -/
theorem OpEnds.unhalted (h : OpEnds s i op t loc rep) (hr : s.pins.resetLow = false) (hsr : s.ctl.srst = false)
    (hq : s.seqr = some op) (hissuing : Issuing (onReport (atRest (Machine.unheld t)) loc rep)) :
    exec i { s with eng := { s.eng with haltReq := false } } = .next (onReport (atRest (Machine.unheld t)) loc rep) := by
  obtain ⟨hreq, herased, -, -⟩ := hissuing
  refine (h.unheld.exec_eq hr hsr hq).trans (congrArg _ ?_)
  rw [deliver, haltIfDue_unasked _ hreq]
  unfold settleRefused
  split
  · next l c hl => exact if_pos (herased l c hl)
  · rfl

/-! ### The units of reads, mounts and FORMATs -/

theorem OpEnds.quieted (h : OpEnds s i op t loc rep) (hs : s.eng.store ≠ .halted) (hcopy : noCopyLine s) :
    Quieted (atRest (Machine.unheld t)) := by
  obtain ⟨m, f, rfl⟩ := h.stored
  exact ⟨rfl, by simp [atRest], hs, hcopy⟩

/-- Where a program to line 0 follows the report of a preparation stage, line 0 is ERASED. -/
theorem OpEnds.lineReady {n : Nat} {p : PrepStage} (h : OpEnds s i op t loc rep) (hn : n < 64) (hp : prepOp n p op) :
    lineReady (atRest (Machine.unheld t)) n p rep := by
  refine lineReady_of _ _ _ _ ?_ ?_
  · rintro rfl rfl
    cases h
    cases hp
    exact (lineAt_eraseSegment s n ⟨n, 0⟩ (by simp [inArray, hn])).trans (if_pos rfl)
  · rintro y rfl rfl
    cases h
    cases hp
    rfl

/-- The opening line stays ERASED as line 0 is programmed. -/
theorem OpEnds.openingErased {n : Nat} (h : OpEnds s i op t loc rep) (hp : prepOp n .spare op) (he : lineAt s ⟨n, 1⟩ = .erased) :
    lineAt (atRest (Machine.unheld t)) ⟨n, 1⟩ = .erased := by
  obtain ⟨c, rfl⟩ := hp
  have hother : ∀ v, lineAt (setLine s ⟨n, 0⟩ v) ⟨n, 1⟩ = .erased := fun v =>
    (lineAt_setLine_other s ⟨n, 0⟩ ⟨n, 1⟩ v (by simp)).trans he
  cases h <;> exact hother _

/-- How a unit of a read, a mount or a FORMAT acts on the report, as without a halt request. -/
theorem OpEnds.acts (h : OpEnds s i op t loc rep) (hs : s.eng.store ≠ .halted) (hcopy : noCopyLine s)
    (hop : readOrTableOp s op) :
    onReport (heldBack (atRest (Machine.unheld t))) loc rep = heldBack (onReport (atRest (Machine.unheld t)) loc rep)
      ∧ Issuing (onReport (atRest (Machine.unheld t)) loc rep) := by
  have hquiet := h.quieted hs hcopy
  have hready : ∀ {n p}, n < 64 → prepOp n p op → Machine.lineReady (atRest (Machine.unheld t)) n p rep := fun hn hp => h.lineReady hn hp
  have hopening : ∀ {n}, prepOp n .spare op → lineAt s ⟨n, 1⟩ = .erased → lineAt (atRest (Machine.unheld t)) ⟨n, 1⟩ = .erased :=
    fun hp he => h.openingErased hp he
  obtain ⟨m, g, ht⟩ := h.stored
  rcases hop with ⟨hh, ⟨c, hc, hst⟩, l, rfl⟩ | ⟨hh, hp, l, rfl⟩ | ⟨hh, hp, n, p, hn, hset, hprep⟩ | ⟨hh, f, n, hn, hf, hphase⟩
  · cases h
    have hread := held_read (atRest (Machine.unheld s)) loc (lineAt s loc) (.inl ⟨hh, c, hc, hst⟩) hquiet
    exact ⟨hread.1, hread.2.issuing⟩
  · cases h
    have hread := held_read (atRest (Machine.unheld s)) loc (lineAt s loc) (.inr ⟨hh, hp⟩) hquiet
    exact ⟨hread.1, hread.2.issuing⟩
  · have hrep : ∀ x : State, x.holder = s.holder → x.mu = s.mu → onReport x loc rep = settleReport x rep := by
      intro x hxh hxm
      simp only [onReport, hxh.trans hh, mountReport, show x.mu.phase = .settle from hxm ▸ hp]
    have hx : (atRest (Machine.unheld t)).holder = s.holder ∧ (atRest (Machine.unheld t)).mu = s.mu := by
      rw [ht]
      exact ⟨rfl, rfl⟩
    rw [hrep (heldBack (atRest (Machine.unheld t))) hx.1 hx.2, hrep _ hx.1 hx.2]
    refine ⟨held_settleReport _ _, quieted_settleReport _ _ hquiet fun n' p' hset' => ?_⟩
    rw [hx.2, hset] at hset'
    cases hset'
    exact hready hn hprep
  · have hrep : ∀ x : State, x.holder = s.holder → x.fu = s.fu → onReport x loc rep = formatReport x f rep := by
      intro x hxh hxf
      simp only [onReport, hxh.trans hh, hxf.trans hf]
    have hx : (atRest (Machine.unheld t)).holder = s.holder ∧ (atRest (Machine.unheld t)).fu = s.fu := by
      rw [ht]
      exact ⟨rfl, rfl⟩
    rw [hrep (heldBack (atRest (Machine.unheld t))) hx.1 hx.2, hrep _ hx.1 hx.2]
    refine ⟨held_formatReport _ _ _, ?_⟩
    rcases hphase with ⟨p, hph, hprep, herased⟩ | ⟨p, hph, hprep⟩ | ⟨hph, -⟩
    · rw [formatReport, hph]
      exact quieted_formatSegment _ _ _ _ _ _ hquiet (hready hn hprep) fun _ hspare =>
        hopening (hspare ▸ hprep) (herased hspare)
    · rw [formatReport, hph]
      exact quieted_formatSegment _ _ _ _ _ _ hquiet (hready hn hprep) nofun
    · exact quieted_step1Opened _ _ n _ hquiet hph

theorem ending_halts {w : State} (h : endingUnderHalt s i) (hw : exec i { s with eng := { s.eng with haltReq := false } } = .next w) :
    (w.inflight = none → exec i s = .next (haltedWith (heldBack w)))
    ∧ ∀ (c : Ctx) (r : Result), w.inflight = some c → c.unstopped → haltedResult w c r →
      exec i s = .next (haltedWith (answeredCmd (heldBack w) c r)) := by
  obtain ⟨hr, hsr, hreq, hs, hcopy, -, op, hq, hends, hop⟩ := h
  obtain ⟨t, loc, rep, he⟩ := exists_opEnds s hends
  obtain ⟨hheld, hissuing⟩ := he.acts hs hcopy hop
  exact he.halts hr hsr hreq hq hheld hissuing hw

end

end Sys2Proof.Machine
end

