-- ==== Sys2Proof/Proofs/HaltedPrograms.lean ====
section
/-! The ends of line programs under a halt request (R83, R84, R107). -/

namespace Sys2Proof.Machine

/-! ### HALTED after a record in progress -/

/-- The entry to HALTED with a record in progress: it is abandoned, and its command completes (R84). -/
theorem haltEntry_record {y : State} {c : Ctx} (hn : noCopyLine y) (hi : y.inflight = some c) (hc : c.unstopped)
    (hst : placesLine c.stage) : haltEntry y =
      haltedWith (answeredCmd (accountDead y c.place.seg c.lines.length) c ⟨.halted, 0, haltedSeq c, 0, false, false, c.retried⟩) := by
  obtain ⟨hstop, hlost, htear⟩ := hc
  have habandon : abandonRecord (enteringHalt y) = enteringHalt (accountDead y c.place.seg c.lines.length) := by
    have hi' : (enteringHalt y).inflight = some c := hi
    simp only [abandonRecord, hi', accountDead, journalUpd_eq]
    rfl
  have hend : ∀ z : State, z.inflight = some c → haltEnd z c =
      syncIdle (answeredCmd z c ⟨.halted, 0, haltedSeq c, 0, false, false, c.retried⟩) := by
    intro z hz
    have hfail : completeFail z .halted = complete z ⟨.halted, 0, haltedSeq c, 0, false, false, c.retried⟩ := by
      simp only [completeFail, hz, Ctx.failure, Ctx.endSeq_halted]
    simp only [haltEnd, hstop, hlost, Bool.false_eq_true, if_false, hfail]
    exact complete_ports _ hz htear
  have hcommand : haltCommand (enteringHalt y) = haltEnd (enteringHalt (accountDead y c.place.seg c.lines.length)) c := by
    have hi' : (enteringHalt y).inflight = some c := hi
    unfold haltCommand
    rw [hi']
    rcases hst with hst | ⟨k, hst⟩ | hst <;> simp only [hst, habandon]
  have hdead : accountDead y c.place.seg c.lines.length = entryChanged y c.place.seg _ := journalUpd_eq _ _ _
  rw [haltEntry_eq, hcommand, hend _ (by rw [hdead]; exact hi), afterCommand_sync _ (by rw [hdead]; exact hn),
    afterCommand_eq _ (by rw [hdead]; exact hn), haltedWith_eq]
  rfl

/-- What HALTED leaves after a command has completed. -/
theorem haltedAfter_of {s z : State} {c : Ctx} {r : Result} (hh : z.host = hostHanded s.host c r)
    (hm : z.mgmt = mgmtHanded s.mgmt c r) (hi : z.inflight = none) (hq : z.seqr = none) (hs : z.eng.store = s.eng.store)
    (hf : z.freezes = s.freezes) (hc : z.commits = s.commits) : haltedAfter s (haltedWith z) c r := by
  have hqueue : z.host.queue = s.host.queue := by
    rw [hh, hostHanded]
    cases c.origin <;> rfl
  refine ⟨rfl, congrArg some hs, hi, hq, rfl, by simp [haltedWith, syncIdle], rfl, ?_, ?_, ?_, hf, hc⟩
  · show z.host.cplq ++ z.host.queue.map _ = _
    rw [hqueue, hh]
    rfl
  · show haltedSlot z.mgmt.slotA = _
    rw [hm]
    rfl
  · show haltedSlot z.mgmt.slotB = _
    rw [hm]
    rfl

/-- HALTED leaves the flag of a fault standing. -/
theorem flag_kept {z : State} (h : z.alert.flags.getLsbD 2 = true) : (haltedWith z).alert.flags.getLsbD 2 = true := by
  simp [haltedWith, syncIdle, h]

/-! ### The end of the program -/

section

variable {s : State} {c : Ctx} {l : Loc} {content : LineBits}

/-- The end of a program under a halt request, once its report has been acted on. -/
theorem halting_ended {i : Instr} {v : Line} {rep : Report} {y : State} (h : programmingUnderHalt s c l content)
    (he : OpEnds s i (.program l content) (setLine s l v) l rep) (hy : onReport (ended s l v) l rep = y)
    (hreq : y.eng.haltReq = true) (hq : y.seqr = none) (hs : y.eng.store ≠ .halted) (hz : (haltEntry y).seqr = none) :
    exec i s = .next (haltEntry y) := by
  obtain ⟨hr, hsr, -, -, -, -, -, hp, -⟩ := h
  have hrest : atRest (setLine s l v) = ended s l v := ended_eq s l v
  rw [he.exec_eq hr hsr hp, hrest, deliver, hy, haltIfDue_due hreq hq hs, settle_idle hz]

/-- The record whose commit line ends is published as without a halt request, and HALTED follows. -/
theorem commit_halts {w : State} (h : programmingUnderHalt s c l content) (hst : c.stage = .commit)
    (hw : exec .programDone { s with eng := { s.eng with haltReq := false } } = .next w) :
    exec .programDone s = .next (haltedWith { w with eng := { w.eng with haltReq := true } }) := by
  obtain ⟨hr, hsr, hreq, hs, hcopy, hh, hi, hq, hstop, hlost, htear⟩ := h
  have he : OpEnds s .programDone (.program l content) (setLine s l (.good content)) l .programDone := .programmed l content
  obtain ⟨m, hm⟩ := setLine_eq s l (.good content)
  have hx : Quieted (atRest (unheld (setLine s l (.good content)))) ∧ (atRest (unheld (setLine s l (.good content)))).inflight = some c
      ∧ (atRest (unheld (setLine s l (.good content)))).seqr = none := by
    refine ⟨he.quieted hs hcopy, ?_, rfl⟩
    rw [hm]
    exact hi
  have hreport : ∀ x : State, x.holder = .command → x.inflight = some c →
      onReport x l .programDone = complete (publish x c) (publishedResult x c) := by
    intro x hxh hxi
    rw [onReport_done l hxh hxi (.inr (.inr hst))]
    simp only [appendDone, hstop, hlost, hst, Bool.false_eq_true, if_false, if_true]
  have hxh : (atRest (unheld (setLine s l (.good content)))).holder = .command := by
    rw [hm]
    exact hh
  generalize hxe : atRest (unheld (setLine s l (.good content))) = x at hx hxh
  obtain ⟨hquiet, hxi, hxq⟩ := hx
  have hpub : Quieted (publish x c) ∧ (publish x c).inflight = some c ∧ (publish x c).seqr = none :=
    publish_induct (fun z => Quieted z ∧ z.inflight = some c ∧ z.seqr = none) (fun _ _ _ _ _ _ _ h => h) x c ⟨hquiet, hxi, hxq⟩
  have hissuing : Issuing (onReport x l .programDone) := by
    rw [hreport x hxh hxi]
    exact (quieted_complete _ _ hpub.1).issuing
  have hheld : onReport (heldBack x) l .programDone = heldBack (onReport x l .programDone) := by
    rw [hreport (heldBack x) hxh hxi, hreport x hxh hxi, held_publish, ← held_complete]
    rfl
  subst hxe
  have hwx := Host.Outcome.next.inj (hw.symm.trans (he.unhalted hr hsr hq hissuing))
  rw [hreport _ hxh hxi, complete_ports _ hpub.2.1 htear] at hwx
  have hback : heldBack w = { w with eng := { w.eng with haltReq := true } } := by
    have hwq : w.seqr = none := by
      rw [hwx]
      exact hpub.2.2
    simp only [heldBack, ← hwq]
  rw [← hback]
  exact (he.halts hr hsr hreq hq hheld hissuing hw).1 (by rw [hwx]; rfl)

theorem placesLine_stageOfLine (k n : Nat) : placesLine (stageOfLine k n) := by
  unfold stageOfLine
  split
  · exact .inr (.inr rfl)
  · split
    · exact .inl rfl
    · exact .inr (.inl ⟨k, rfl⟩)

/-- After a header or data line the record is abandoned (R84). -/
theorem line_halts (h : programmingUnderHalt s c l content) (hw : ArrayOk s.array) (hl : inArray l = true)
    (hst : c.stage = .header ∨ ∃ k, c.stage = .data k) : ∃ u, exec .programDone s = .next u
      ∧ lineAt u l = .good content ∧ u.dir = s.dir
      ∧ haltedAfter s u c ⟨.halted, 0, haltedSeq c, 0, false, false, c.retried⟩
      ∧ ∀ n j, journalOf s n = some j → journalOf u n = some (if n = c.place.seg
          then { j with wp := j.wp + c.lines.length, dead := j.dead + c.lines.length } else j) := by
  obtain ⟨-, -, hreq, hs, hcopy, hh, hi, -, hstop, hlost, htear⟩ := id h
  have hncommit : c.stage ≠ .commit := by rcases hst with hst | ⟨k, hst⟩ <;> simp [hst]
  have hplaces : placesLine c.stage := hst.imp_right .inl
  obtain ⟨st, hst', hreport⟩ : ∃ st, placesLine st ∧
      onReport (ended s l (.good content)) l .programDone = setStage (ended s l (.good content)) st := by
    refine ⟨_, placesLine_stageOfLine (c.stage.lineIndex c.lines + 1) c.lines.length, ?_⟩
    rw [onReport_done (s := ended s l (.good content)) l hh hi hplaces]
    simp only [appendDone, hstop, hlost, hncommit, Bool.false_eq_true, if_false]
    exact if_pos hreq
  have hstage : setStage (ended s l (.good content)) st = { ended s l (.good content) with inflight := some { c with stage := st } } := by
    simp only [setStage, modCtx, show (ended s l (.good content)).inflight = some c from hi, Option.map_some]
  have hentry := haltEntry_record (y := { ended s l (.good content) with inflight := some { c with stage := st } })
    (c := { c with stage := st }) hcopy rfl ⟨hstop, hlost, htear⟩ hst'
  have hjournal := journalOf_journalUpd { ended s l (.good content) with inflight := some { c with stage := st } } c.place.seg
  have hexec := halting_ended h (.programmed l content) (hreport.trans hstage) hreq rfl hs (by
    rw [hentry, accountDead, journalUpd_eq]
    rfl)
  rw [hentry] at hexec
  refine ⟨_, hexec, ?_, ?_, ?_, fun n j hj => ?_⟩
  · rw [accountDead, journalUpd_eq]
    exact (lineAt_congr rfl l).trans (lineAt_setLine_same s l (.good content) hw hl)
  · rw [accountDead, journalUpd_eq]
    rfl
  · rw [accountDead, journalUpd_eq]
    exact haltedAfter_of rfl rfl rfl rfl rfl rfl rfl
  · refine (hjournal n _).trans ?_
    rw [show journalOf { ended s l (.good content) with inflight := some { c with stage := st } } n = some j from hj]
    rfl

/-- A fault is counted, closes the segment and restarts nothing (R83, R97). -/
theorem fault_halts (h : programmingUnderHalt s c l content) (hw : ArrayOk s.array) (hl : inArray l = true)
    (hst : placesLine c.stage) : ∃ u, exec .programDeadlineExpiry s = .next u
      ∧ lineAt u l = .torn ∧ u.dir = s.dir ∧ haltedAfter s u c ⟨.halted, 0, haltedSeq c, 0, false, false, c.retried⟩
      ∧ u.alert.flags.getLsbD 2 = true
      ∧ ∀ e j, e ∈ s.sm.table → e.num = c.place.seg → e.st = .opened j → j.wp + c.lines.length ≤ 256 →
        { e with
          st := .closed { j with wp := 256, dead := j.dead + (256 - j.wp) }
          faults := e.faults + 1, retirePending := e.retirePending || decide (2 ≤ e.faults + 1) } ∈ u.sm.table := by
  obtain ⟨-, -, hreq, hs, hcopy, hh, hi, -, hstop, hlost, htear⟩ := id h
  have hfaulted : closeSegment (abandonRecord (countFault (ended s l .torn) c.place.seg)) c.place.seg =
      segmentFaulted (ended s l .torn) c.place.seg c.lines.length := by
    have hcount : (countFault (ended s l .torn) c.place.seg).inflight = some c := by
      rw [countFault_counts]
      exact hi
    rw [← fault_closes]
    simp only [abandonRecord, hcount]
  have hreport : onReport (ended s l .torn) l (.programFault .expired) = syncIdle (answeredCmd
      (segmentFaulted (ended s l .torn) c.place.seg c.lines.length) c ⟨.halted, 0, haltedSeq c, 0, false, false, c.retried⟩) := by
    rw [onReport_fault (s := ended s l .torn) l .expired hh hi hst]
    have hi' : (segmentFaulted (ended s l .torn) c.place.seg c.lines.length).inflight = some c := hi
    simp only [appendFault, hfaulted, hstop, hlost, Bool.false_eq_true, if_false, show (ended s l .torn).eng.haltReq = true from hreq,
      if_true, completeFail, hi', Ctx.failure, Ctx.endSeq_halted]
    exact complete_ports _ hi' htear
  have hentry := haltEntry_idle (syncIdle (answeredCmd (segmentFaulted (ended s l .torn) c.place.seg c.lines.length) c
    ⟨.halted, 0, haltedSeq c, 0, false, false, c.retried⟩)) hcopy rfl
  have hexec := halting_ended h (.expired l content) hreport hreq rfl hs (by rw [hentry]; rfl)
  rw [hentry] at hexec
  refine ⟨_, hexec, (lineAt_congr rfl l).trans (lineAt_setLine_same s l .torn hw hl), rfl, haltedAfter_of rfl rfl rfl rfl rfl rfl rfl,
    ?_, fun e j he hn hj hfit => ?_⟩
  · exact flag_kept (segmentFaulted_flag (ended s l .torn) c.place.seg c.lines.length)
  · rw [← faultClosed_opened hj hfit]
    exact mem_segmentFaulted (s := ended s l .torn) c.lines.length he hn

/-! ### The end of an opening line -/

variable {o : Opening} {e : SegEntry}

/-- The command of an opening completes HALTED, whatever has become of the segment's entry. -/
theorem admission_halts {i : Instr} {v : Line} {rep : Report} {o' : Opening} {g : SegEntry → SegEntry} {a : Alerts}
    (h : programmingUnderHalt s c l content) (hends : OpEnds s i (.program l content) (setLine s l v) l rep) (hw : ArrayOk s.array)
    (hl : inArray l = true) (he : segEntry s o.seg = some e) (hg : ∀ x, (g x).num = x.num)
    (hreport : onReport (ended s l v) l rep =
      { entryChanged (ended s l v) o.seg g with alert := a, inflight := some { c with stage := .admission o' } }) :
    ∃ u, exec i s = .next u ∧ lineAt u l = v ∧ u.dir = s.dir
      ∧ haltedAfter s u c ⟨.halted, 0, haltedSeq c, 0, false, false, c.retried⟩ ∧ segEntry u o.seg = some (g e)
      ∧ (a.flags.getLsbD 2 = true → u.alert.flags.getLsbD 2 = true) := by
  obtain ⟨-, -, hreq, hs, hcopy, -, -, -, hc⟩ := id h
  have hhalt := haltEntry_command
    { entryChanged (ended s l v) o.seg g with alert := a, inflight := some { c with stage := .admission o' } } hcopy
    { c with stage := .admission o' } ⟨.halted, 0, haltedSeq c, 0, false, false, c.retried⟩ rfl hc
    (.inl ⟨.inr (.inl ⟨o', rfl⟩), rfl⟩)
  have hexec := halting_ended h hends hreport hreq rfl hs (by rw [hhalt]; rfl)
  rw [hhalt] at hexec
  refine ⟨_, hexec, (lineAt_congr rfl l).trans (lineAt_setLine_same s l v hw hl), rfl, haltedAfter_of rfl rfl rfl rfl rfl rfl rfl,
    ?_, fun ha => flag_kept ha⟩
  refine (segEntry_entryChanged (ended s l v) o.seg o.seg g hg).trans ?_
  rw [show segEntry (ended s l v) o.seg = some e from he, Option.map_some, if_pos (segEntry_num he)]

/-- An opening line that is programmed opens its segment, empty (R84). -/
theorem opening_halts (h : programmingUnderHalt s c l content) (hw : ArrayOk s.array) (hl : inArray l = true)
    (hst : c.stage = .admission o) (hprep : o.prep = none) (he : segEntry s o.seg = some e) : ∃ u, exec .programDone s = .next u
      ∧ lineAt u l = .good content ∧ u.dir = s.dir ∧ haltedAfter s u c ⟨.halted, 0, haltedSeq c, 0, false, false, c.retried⟩
      ∧ segEntry u o.seg = some { e with st := .opened ⟨o.epoch, 2, 0, 0, 0⟩ } := by
  obtain ⟨-, -, hreq, -, -, hh, hi, -, hstop, hlost, -⟩ := id h
  obtain ⟨a, ha⟩ := segUpd_changes (ended s l (.good content)) o.seg (fun x => { x with st := .opened ⟨o.epoch, 2, 0, 0, 0⟩ })
  have hreport : onReport (ended s l (.good content)) l .programDone =
      setSegState (ended s l (.good content)) o.seg (.opened ⟨o.epoch, 2, 0, 0, 0⟩) := by
    rw [onReport_opening (s := ended s l (.good content)) l _ hh hi hst]
    simp only [openReport, hprep, openingNext, hstop, hlost, Bool.false_eq_true, if_false]
    exact if_pos (by rw [setSegState, ha]; exact hreq)
  have hsame : (ended s l (.good content)).inflight = some { c with stage := .admission o } := by rw [← hst]; exact hi
  obtain ⟨u, hu, hline, hdir, hafter, hentry, -⟩ := admission_halts (o := o) (o' := o) (a := a)
    (g := fun x => { x with st := .opened ⟨o.epoch, 2, 0, 0, 0⟩ }) h (.programmed l content) hw hl he (fun _ => rfl)
    (hreport.trans (ha.trans (by rw [← hsame]; rfl)))
  exact ⟨u, hu, hline, hdir, hafter, hentry⟩

/-- An opening line that fails leaves its segment DIRTY, the fault counted (R83). -/
theorem opening_fault_halts (h : programmingUnderHalt s c l content) (hw : ArrayOk s.array) (hl : inArray l = true)
    (hst : c.stage = .admission o) (hprep : o.prep = none) (he : segEntry s o.seg = some e) :
    ∃ u, exec .programDeadlineExpiry s = .next u
      ∧ lineAt u l = .torn ∧ u.dir = s.dir ∧ haltedAfter s u c ⟨.halted, 0, haltedSeq c, 0, false, false, c.retried⟩
      ∧ u.alert.flags.getLsbD 2 = true ∧ segEntry u o.seg = some { faultCounted e with st := .dirty } := by
  obtain ⟨-, -, hreq, -, -, hh, hi, -, -⟩ := id h
  obtain ⟨a, ha⟩ := segUpd_changes (countFault (ended s l .torn) o.seg) o.seg (fun x => { x with st := .dirty })
  have hflag : a.flags.getLsbD 2 = true := by
    have hcounted : (countFault (ended s l .torn) o.seg).alert.flags.getLsbD 2 = true := by
      simp [countFault_counts, raise, Alert.mask]
    have hkept := flags_segUpd (countFault (ended s l .torn) o.seg) o.seg (fun x => { x with st := .dirty }) 2 hcounted
    rw [ha] at hkept
    exact hkept
  have hdirty : setSegState (countFault (ended s l .torn) o.seg) o.seg .dirty =
      { entryChanged (ended s l .torn) o.seg (fun x => { faultCounted x with st := .dirty }) with alert := a } := by
    refine ha.trans ?_
    rw [countFault_counts]
    exact congrArg (fun t : State => { t with alert := a })
      (entryChanged_again (ended s l .torn) o.seg faultCounted (fun x => { x with st := .dirty }) fun _ => rfl)
  have hreport : onReport (ended s l .torn) l (.programFault .expired) =
      { entryChanged (ended s l .torn) o.seg (fun x => { faultCounted x with st := .dirty }) with
        alert := a, inflight := some { c with stage := .admission { o with prep := some .erase } } } := by
    rw [onReport_opening (s := ended s l .torn) l _ hh hi hst]
    simp only [openReport, hprep, hdirty, prepIssue, openingNext]
    rw [issue, if_pos (by exact hreq), setStage, modCtx]
    exact congrArg (fun i => { entryChanged (ended s l .torn) o.seg (fun x => { faultCounted x with st := .dirty }) with
      alert := a, inflight := i }) (congrArg (Option.map _) hi)
  obtain ⟨u, hu, hline, hdir, hafter, hentry, hkept⟩ := admission_halts (o := o)
    (g := fun x => { faultCounted x with st := .dirty }) h (.expired l content) hw hl he (fun _ => rfl) hreport
  exact ⟨u, hu, hline, hdir, hafter, hkept hflag, hentry⟩

end

/-- Settles O17: PFW# enters HALTED at once or as the operation ends; a record in progress is abandoned or, at its commit line,
published; every other unit acts as without a halt request and issues no more. -/
theorem powerWarningHalts : Obligations.PowerWarningHalts := by
  refine ⟨fun s u hr hu => power_warning hr hu, fun s c l content h hw hl => ?_, fun s w i h hw => ending_halts h hw⟩
  refine ⟨fun hst w hnext => commit_halts h hst hnext, line_halts h hw hl, fault_halts h hw hl, ?_⟩
  rintro o e hst hprep - he
  obtain ⟨u, hu, hline, hdir, hafter, hentry⟩ := opening_halts h hw hl hst hprep he
  exact ⟨⟨u, hu, hline, hdir, hafter, hentry⟩, opening_fault_halts h hw hl hst hprep he⟩

end Sys2Proof.Machine
end
